-- ==== Sys2Proof/Word.lean ====
section
/-!
DEFINITION. Word.lean: the plainest types of the model and their arithmetic: bytes, zone time as
zone minutes (00_scope.md 1.5), tables of a fixed number of rows, lists kept in rising order of a key.
-/
namespace Sys2Proof

/-- One character on a line or port. -/
abbrev Byte := BitVec 8

/-- The tag of a command on the office link or service port (R192: 1 byte). -/
abbrev Tag := BitVec 8

/-- Terminal line n, 1 to 16, written n - 1. Terminal n is the terminal on line n (00_scope.md 1.2). -/
abbrev Line := Fin 16

/-- The number of a line's terminal, 1 to 16. -/
def Line.number (n : Line) : Nat := n.val + 1

/-- A vehicle mark: its characters from the left (00_scope.md 1.5, "Vehicle marks"). -/
abbrev Mark := List Char

/-- Zone times are zone minutes: day number × 1,440 + minute of day (00_scope.md 1.5). -/
abbrev ZoneMinute := Nat

abbrev minutesPerDay : Nat := 1440

/-- The zone minute of "day d, minute m". -/
def zoneMinute (day minute : Nat) : ZoneMinute := day * minutesPerDay + minute

def dayOf (z : ZoneMinute) : Nat := z / minutesPerDay

def minuteOf (z : ZoneMinute) : Nat := z % minutesPerDay

/-- The hour of a reading, counted from day 0: two readings lie in one hour of one day when it is equal. -/
def hourOf (z : ZoneMinute) : Nat := z / 60

/-- The last day of the zone's count (R1). -/
abbrev lastDay : Nat := 65535

/-- Day 65,535, 23:59: the last reading (R2). -/
abbrev lastReading : ZoneMinute := lastDay * minutesPerDay + 1439

/-- CLKIN cycles in one minute: 3.6864 MHz (00_scope.md 1.4) for 60 seconds. -/
abbrev cyclesPerMinute : Nat := 221184000

/-- Row `i` of a table. -/
def row {α : Type} {n : Nat} (t : Vector α n) (i : Fin n) : α := t[i.val]

/-- A table with row `i` replaced. -/
def put {α : Type} {n : Nat} (t : Vector α n) (i : Fin n) (x : α) : Vector α n := t.set i.val x i.isLt

/-- A table with row `i` changed by `f`. -/
def change {α : Type} {n : Nat} (t : Vector α n) (i : Fin n) (f : α → α) : Vector α n :=
  put t i (f (row t i))

/-- A table with every row changed by `f`. -/
def changeAll {α β : Type} {n : Nat} (t : Vector α n) (f : α → β) : Vector β n :=
  Vector.ofFn fun i => f (row t i)

/-- Does some row satisfy `p`? -/
def someRow {n : Nat} (p : Fin n → Bool) : Bool := (List.finRange n).any p

/-- Do all rows satisfy `p`? -/
def allRows {n : Nat} (p : Fin n → Bool) : Bool := (List.finRange n).all p

/-- The sum of a table of numbers. -/
def total {n : Nat} (t : Vector Nat n) : Nat := t.toList.sum

/-- Put `x` at its place in a list that rises by `key`, in place of the element with the same key. -/
def upsert {α : Type} (key : α → Nat) (x : α) : List α → List α
  | [] => [x]
  | y :: ys =>
    if key x < key y then x :: y :: ys
    else if key x = key y then x :: ys
    else y :: upsert key x ys

/-- The element with key `k`, if the list holds one. -/
def lookup {α : Type} (key : α → Nat) (k : Nat) (l : List α) : Option α :=
  l.find? fun x => key x == k

/-- The list without the elements with key `k`. -/
def dropKey {α : Type} (key : α → Nat) (k : Nat) (l : List α) : List α :=
  l.filter fun x => key x != k

/-- The list rises strictly by `key`. -/
abbrev Rising {α : Type} (key : α → Nat) (l : List α) : Prop := l.Pairwise fun x y => key x < key y

/-- The table row for a one-based number `n`, if the table has that row. -/
def rowNumber (rows n : Nat) : Option (Fin rows) :=
  if h : 1 ≤ n ∧ n ≤ rows then some ⟨n - 1, by omega⟩ else none

/-- The table row for a zero-based number `n`, if the table has that row. -/
def rowIndex (rows n : Nat) : Option (Fin rows) :=
  if h : n < rows then some ⟨n, h⟩ else none

/-- A count raised by `by_` that stops at its upper end `top`. -/
def saturate (top n by_ : Nat) : Nat := min top (n + by_)

/-- A number that passes from `last` to `first`. -/
def following (first last n : Nat) : Nat := if n = last then first else n + 1

end Sys2Proof
end

