-- ==== Sys2Proof/Syntax.lean ====
section
/-!
DEFINITION. Syntax.lean: the commands of the ZH4, one constructor of Instr for each row of
spec/opcode_table.json, with the operands the row's rule names. Operands are the fields as they are
carried: codes are those of the one-byte tables of chapter 11, and a number may lie outside its range,
so that the block that takes the command can refuse it BAD_FIELD.
-/
namespace Sys2Proof

/-- The two ports on which people reach the part (R181). -/
inductive PortId
  | office
  | service
  deriving DecidableEq, Repr

/-- Where a command that both ports carry came from. A handheld's request carries its badge (R186). -/
inductive Source
  | office
  | service (badge : Nat)
  deriving DecidableEq, Repr

/-- The port a command came on. -/
def Source.port : Source → PortId
  | .office => .office
  | .service _ => .service

/-- The bank selector of READ-BOOK (R38). -/
inductive BookSelector
  | active
  | staged
  deriving DecidableEq, Repr

/-- The part LOAD-PLAN carries (R23, section 11.6). -/
structure PlanPart where
  plan : Nat
  presence : Nat
  minuteStep : Nat
  roundingMode : Nat
  coinUnit : Nat
  minimumCharge : Nat
  noReturn : Nat
  deriving DecidableEq, Repr

/-- One period entry of LOAD-DAY: start minute, kind code, ladder, maximum stay (R24). -/
structure PeriodPart where
  start : Nat
  kind : Nat
  ladder : Nat
  maximumStay : Nat
  deriving DecidableEq, Repr

/-- The part LOAD-DAY carries: the used entries are the first `count`; the rest of the six are reserved (R24). -/
structure DayPart where
  plan : Nat
  dayType : Nat
  count : Nat
  entries : List PeriodPart
  deriving DecidableEq, Repr

/-- One step entry of LOAD-LADDER (R25). -/
structure StepPart where
  limit : Nat
  rate : Nat
  deriving DecidableEq, Repr

/-- The part LOAD-LADDER carries (R25). -/
structure LadderPart where
  ladder : Nat
  count : Nat
  entries : List StepPart
  deriving DecidableEq, Repr

/-- One calendar entry as LOAD-CALENDAR carries it: day and 2-bit type code (R26, section 11.6). -/
structure CalendarPartEntry where
  day : Nat
  typeCode : Nat
  deriving DecidableEq, Repr

/-- The part LOAD-CALENDAR carries (R26). -/
structure CalendarPart where
  count : Nat
  entries : List CalendarPartEntry
  deriving DecidableEq, Repr

/-- The fields of QUOTE (R87). A field its pay kind does not use is reserved. -/
structure QuoteFields where
  payKind : Nat
  amount : Nat
  minutes : Nat
  permit : Nat
  mark : Option Mark
  deriving DecidableEq, Repr

/-- The fields of PRICE (R87). -/
structure PriceFields where
  payKind : Nat
  day : Nat
  minute : Nat
  mark : Option Mark
  deriving DecidableEq, Repr

/-- The fields of PREVIEW-QUOTE (R70): `timed` is the flag of the preview time, 0 for "now". -/
structure PreviewFields where
  form : Nat
  plan : Nat
  payKind : Nat
  amount : Nat
  minutes : Nat
  permit : Nat
  wantedDay : Nat
  wantedMinute : Nat
  pass : BitVec 16
  timed : Nat
  day : Nat
  minute : Nat
  deriving DecidableEq, Repr

/-- The fields of CONFIGURE-TERMINAL (R81). -/
structure TerminalFields where
  terminal : Nat
  plan : Nat
  takesCoins : Bool
  takesCards : Bool
  asksMark : Bool
  pass : BitVec 16
  capacity : Nat
  deriving DecidableEq, Repr

/-- The fields of SALE (R97): the coin counts of slots 1 to 8 and the card amount. -/
structure SaleFields where
  number : Nat
  payKind : Nat
  counts : Vector Nat 8
  card : Nat
  deriving DecidableEq, Repr

/-- The fields of PUT-PERMIT (R118). A mark place that holds the empty mark is empty. -/
structure PermitFields where
  number : Nat
  kind : Nat
  state : Nat
  plans : BitVec 8
  fromDay : Nat
  toDay : Nat
  markCount : Nat
  marks : Vector Mark 3
  grant : Nat
  period : Nat
  deriving DecidableEq, Repr

/-- The fields of COVER (R130): a TICKET key uses zone, terminal and sequence, a MARK key the mark. -/
structure CoverFields where
  plan : Nat
  keyKind : Nat
  zone : Nat
  terminal : Nat
  sequence : Nat
  mark : Mark
  deriving DecidableEq, Repr

/-- The commands: the rows of spec/opcode_table.json, in the table's order. A command on a terminal line
names its line; a command on a port carries its tag; a service-port request its badge. -/
inductive Instr
  | minuteBoundary
  | overrideRemoval
  | setClock (tag : Tag) (day minute : Nat)
  | setOverride (tag : Tag) (day dayType : Nat)
  | dropOverride (tag : Tag) (day : Nat)
  | loadPlan (tag : Tag) (part : PlanPart)
  | loadDay (tag : Tag) (part : DayPart)
  | loadLadder (tag : Tag) (part : LadderPart)
  | loadCalendar (tag : Tag) (part : CalendarPart)
  | copyActive (tag : Tag)
  | clearStaged (tag : Tag)
  | armBook (tag : Tag) (day : Nat)
  | bookCheckComplete
  | disarmBook (tag : Tag)
  | bookActivation
  | readBook (tag : Tag) (book : BookSelector) (part : Nat)
  | quote (line : Line) (fields : QuoteFields)
  | price (line : Line) (fields : PriceFields)
  | previewQuote (tag : Tag) (fields : PreviewFields)
  | walkBegin
  | walkComplete
  | hello (line : Line)
  | unknownRequestKind (line : Line)
  | frameDiscard (line : Line)
  | receiveTimeout (line : Line)
  | collision (line : Line)
  | replyEnd (line : Line)
  | configureTerminal (tag : Tag) (fields : TerminalFields)
  | retireTerminal (tag : Tag) (terminal : Nat)
  | setConditions (tag : Tag) (terminal : Nat) (pass : BitVec 16)
  | clearConditions (tag : Tag) (terminal : Nat)
  | lineReset (source : Source) (tag : Tag) (terminal : Nat)
  | testLine (tag : Tag) (badge terminal : Nat)
  | endTest (tag : Tag) (badge terminal : Nat)
  | testLimit (line : Line)
  | sale (line : Line) (fields : SaleFields)
  | logPruning
  | fetchSessions (tag : Tag) (serial count : Nat)
  | readTotals (tag : Tag) (terminal : Nat)
  | putPermit (tag : Tag) (fields : PermitFields)
  | dropPermit (tag : Tag) (number : Nat)
  | setPermitState (tag : Tag) (number state : Nat)
  | readPermit (tag : Tag) (number selector : Nat)
  | permitRemoval
  | cover (source : Source) (tag : Tag) (fields : CoverFields)
  | searchBegin
  | searchComplete
  | setRecentWindow (tag : Tag) (window : Nat)
  | setCoins (tag : Tag) (values : Vector Nat 8)
  | boxOut (line : Line) (label : Nat)
  | boxIn (line : Line) (label : Nat)
  | readLifts (tag : Tag) (position count : Nat)
  | openRound (tag : Tag) (badge number : Nat)
  | roundStatus (tag : Tag) (badge : Nat)
  | closeRound (tag : Tag) (badge : Nat)
  | roundLapse
  | countResult (tag : Tag) (box value : Nat)
  | setCashLimits (tag : Tag) (tolerance limit : Nat)
  | fault (line : Line) (kind direction : Nat)
  | lineSilence (line : Line)
  | graceTailEnd (plan : Fin 8)
  | ackFault (tag : Tag) (scope kind : Nat)
  | clearFault (source : Source) (tag : Tag) (scope kind : Nat)
  | readFaults (source : Source) (tag : Tag) (scope : Nat)
  | readNotices (tag : Tag)
  | readSiteNotices (tag : Tag) (badge : Nat)
  | setNotices (tag : Tag) (enable call lamp : BitVec 16)
  | setAddressed (tag : Tag) (terminal : Nat) (notices : BitVec 8)
  | resetAddressed (tag : Tag) (terminal : Nat) (notices : BitVec 8)
  | putBadge (tag : Tag) (number : Nat) (roles : BitVec 8)
  | dropBadge (tag : Tag) (number : Nat)
  | readStatus (source : Source) (tag : Tag)
  | portFrameDiscard (port : PortId)
  | portReplyEnd (port : PortId)
  | restart (source : Source) (tag : Tag)
  | commandedRestart (straps : BitVec 8)
  | powerUp (backupGood : Bool) (straps : BitVec 8)
  | nresetRelease (backupGood : Bool) (straps : BitVec 8)
  | supplyLoss
  | portReceiveTimeout (port : PortId)
  | unknownPortCommandKind (source : Source) (tag : Tag)
  | nresetAssertion
  deriving DecidableEq, Repr

end Sys2Proof
end

