-- ==== Sys2Proof/Config.lean ====
section
/-!
DEFINITION. Config.lean: the values the spec leaves free, as constants without a body, so that no proof can
see them and every claim holds whatever they are.
-/
namespace Sys2Proof

/-- R175: whether, at one boundary, a grace tail's end is taken before the re-evaluation that finds the plan
unserved. The spec allows either order; the argument numbers the choice (log entry 6). -/
opaque Config.tailEndFirst : Nat → Bool

/-- The four bytes sent for a zone time beyond day 65,535, whose day has no two-byte number (log entry 8). -/
opaque Config.timeBeyond : ZoneMinute → BitVec 32

end Sys2Proof
end

