-- ==== Sys2Proof/Machine/State.lean ====
section
/-!
DEFINITION. Machine/State.lean: everything the spec gives the ZH4, as plain data, block by block in the
order of its chapters, with the replies the ports and lines hold; the values after a cold start
(State.reset); the reasons a step could stop (none of the meanings stops).
-/
namespace Sys2Proof.Machine

/-! ## Names shared by the blocks -/

/-- The nine conditions of a walk, in the order of the condition set (R49, section 11.1). -/
inductive Cond
  | carry | cap | long | short | noSale | return_ | thin | round | edge
  deriving DecidableEq, Repr

/-- The bit a condition has in a condition set (section 11.1). -/
def Cond.index : Cond → Nat
  | .carry => 0 | .cap => 1 | .long => 2 | .short => 3 | .noSale => 4
  | .return_ => 5 | .thin => 6 | .round => 7 | .edge => 8

/-- A set of conditions, as the bit map the messages carry. -/
abbrev CondSet := BitVec 9

/-- The set that holds one condition. -/
def Cond.bit (c : Cond) : CondSet := 1#9 <<< c.index

/-- Does a condition set hold the condition? -/
def Cond.isIn (c : Cond) (set : CondSet) : Bool := set.getLsbD c.index

/-- Reply statuses, in the order of their codes (section 11.1). -/
inductive Status
  | ok | busy | badField | notConfigured | clockUnset | noPlan | outOfService | cashOut | cardOut | held
  | noQuote | stale | mismatch | noPermit | permitInvalid | thin | logFull | already | denied | noRound
  | noLift | full | inUse | armed | duplicate
  deriving DecidableEq, Repr

/-- The twelve notice sources, in the order of section 9.8. -/
inductive Notice
  | faultOpened | faultCleared | conditionHeld | bookChecked | bookActivated | roundOpened | roundEnded
  | graceStarted | graceEnded | serviceDenied | permitExhausted | restarted
  deriving DecidableEq, Repr

/-- The bit a source has in a set of notice sources (section 11.1). -/
def Notice.index : Notice → Nat
  | .faultOpened => 0 | .faultCleared => 1 | .conditionHeld => 2 | .bookChecked => 3
  | .bookActivated => 4 | .roundOpened => 5 | .roundEnded => 6 | .graceStarted => 7
  | .graceEnded => 8 | .serviceDenied => 9 | .permitExhausted => 10 | .restarted => 11

/-- A set of notice sources. -/
abbrev NoticeSet := BitVec 12

/-- The set that holds one source. -/
def Notice.bit (n : Notice) : NoticeSet := 1#12 <<< n.index

/-- Does a set of notice sources hold the source? -/
def Notice.isIn (n : Notice) (set : NoticeSet) : Bool := set.getLsbD n.index

inductive PayKind
  | cash | card | visitor
  deriving DecidableEq, Repr

/-- A terminal's mode (R80). -/
inductive Mode
  | normal | test
  deriving DecidableEq, Repr

/-- What a terminal may ask (R77). -/
inductive RequestKind
  | hello | quote | price | sale | fault | boxOut | boxIn
  deriving DecidableEq, Repr

/-! ## Zone clock (chapter 1) -/

inductive ClockState
  | unset | set
  deriving DecidableEq, Repr

/-- An override entry: a day and its day type, 0 to 8 for MON to HOLIDAY (R9). -/
structure Override where
  day : Nat
  dayType : Fin 9
  deriving DecidableEq, Repr

structure Clock where
  state : ClockState
  /-- The reading (R1). -/
  reading : ZoneMinute
  /-- The reading last handed to the blocks (R1). -/
  handed : ZoneMinute
  /-- CLKIN cycles since the reading last changed (R1). -/
  subMinute : Nat
  /-- Up to 8 entries in rising order of day (R9). -/
  overrides : List Override
  /-- The clock passed to UNSET while the blocks were stopped, and the fault unit is told at the restart (R14). -/
  overran : Bool
  deriving DecidableEq, Repr

/-! ## Book store (chapter 2) -/

inductive Rounding
  | floor | ceil | halfUp | halfEven
  deriving DecidableEq, Repr

/-- A plan header (R15). -/
structure PlanHeader where
  minuteStep : Nat
  rounding : Rounding
  coinUnit : Nat
  minimumCharge : Nat
  noReturn : Nat
  deriving DecidableEq, Repr

/-- The kind of a period; a CHARGED one holds its ladder number and maximum stay (R16). -/
inductive PeriodKind
  | charged (ladder : Fin 16) (maximumStay : Nat)
  | free
  | noSale
  deriving DecidableEq, Repr

structure Period where
  start : Nat
  kind : PeriodKind
  deriving DecidableEq, Repr

/-- A present plan: its header and, for each day type, the day pattern loaded, if any (R15, R16). -/
structure Plan where
  header : PlanHeader
  patterns : Vector (Option (List Period)) 9
  deriving DecidableEq, Repr

/-- A ladder step: limit in charged minutes and rate in pence per hour (R18). -/
structure LadderStep where
  limit : Nat
  rate : Nat
  deriving DecidableEq, Repr

/-- A calendar entry: EVENT (7) or HOLIDAY (8) for a day (R19). -/
structure CalendarEntry where
  day : Nat
  dayType : Fin 9
  deriving DecidableEq, Repr

/-- A complete book: plans, ladders and calendar (R15, R18, R19). -/
structure Book where
  plans : Vector (Option Plan) 8
  ladders : Vector (Option (List LadderStep)) 16
  calendar : List CalendarEntry
  deriving DecidableEq, Repr

/-- An emptied bank (R15): all plans and ladders absent, no calendar entry. -/
def Book.empty : Book :=
  { plans := Vector.replicate 8 none, ladders := Vector.replicate 16 none, calendar := [] }

inductive BankId
  | x | y
  deriving DecidableEq, Repr

/-- The other bank. -/
def BankId.other : BankId → BankId
  | .x => .y
  | .y => .x

inductive ActiveState
  | empty | inForce
  deriving DecidableEq, Repr

inductive StagedState
  | empty | editing | checking | armed
  deriving DecidableEq, Repr

/-- A finding of the book check, with the plan, day type or ladder it names and its index (R30, R32). -/
inductive Finding
  | ladderOrder (ladder : Fin 16) (index : Nat)
  | patternMissing (plan : Fin 8) (dayType : Fin 9)
  | periodOrder (plan : Fin 8) (dayType : Fin 9) (index : Nat)
  | ladderMissing (plan : Fin 8) (dayType : Fin 9) (index : Nat)
  | planMissing (plan : Fin 8) (terminal : Line)
  deriving DecidableEq, Repr

inductive CheckOutcome
  | none | passed | failed
  deriving DecidableEq, Repr

/-- The check record (R20 (x)). -/
structure CheckRecord where
  outcome : CheckOutcome
  count : Nat
  findings : List Finding
  deriving DecidableEq, Repr

def CheckRecord.none : CheckRecord := { outcome := .none, count := 0, findings := [] }

/-- The state of the book store (R20). -/
structure BookStore where
  bankX : Book
  bankY : Book
  active : BankId
  activeState : ActiveState
  stagedState : StagedState
  retired : Bool
  heldX : Bool
  heldY : Bool
  activationDay : Option Nat
  firstBook : Bool
  generation : BitVec 16
  revision : BitVec 16
  check : CheckRecord
  deriving DecidableEq, Repr

/-! ## Quote engine (chapter 3) -/

/-- What a walk has to spend (R45): an amount in pence by cash or card, or visitor minutes on a permit. -/
inductive Payment
  | cash (amount : Nat)
  | card (amount : Nat)
  | visitor (minutes permit : Nat)
  deriving DecidableEq, Repr

def Payment.kind : Payment → PayKind
  | .cash _ => .cash
  | .card _ => .card
  | .visitor _ _ => .visitor

/-- The form of a walk: FORWARD from a payment, or REVERSE by cash or card to a wanted expiry (R45). -/
inductive Ask
  | forward (payment : Payment)
  | reverse (byCard : Bool) (wanted : ZoneMinute)
  deriving DecidableEq, Repr

/-- What a PREVIEW-QUOTE adds to its walk: tag, plan, PASS set, and the preview time unless "now" (R70). -/
structure Preview where
  tag : Tag
  plan : Fin 8
  pass : CondSet
  time : Option ZoneMinute
  deriving DecidableEq, Repr

/-- A waiting request of the quote engine (R40, R45). -/
structure WalkRequest where
  ask : Ask
  mark : Option Mark
  preview : Option Preview
  deriving DecidableEq, Repr

/-- The view the book store gives a walk (R21). -/
structure View where
  active : BankId
  generation : BitVec 16
  /-- The staged bank, if ARMED, with its activation day. -/
  staged : Option (BankId × Nat)
  revision : BitVec 16
  deriving DecidableEq, Repr

/-- The outcome of stage (a): the start S and, when linked, the record's serial, final-span start and minutes (R53). -/
structure Link where
  start : ZoneMinute
  serial : Option Nat
  preload : Option (ZoneMinute × Nat)
  deriving DecidableEq, Repr

/-- What a finished reverse walk hands to the forward walk of its price (R69). -/
structure Priced where
  wanted : ZoneMinute
  price : Nat
  conds : CondSet
  deriving DecidableEq, Repr

/-- What every stage after (a) carries: the link, the conditions raised so far by the walk being made, and
for the forward walk of a PRICE what the reverse walk gave. -/
structure WalkContext where
  link : Link
  conds : CondSet
  priced : Option Priced
  deriving DecidableEq, Repr

/-- A CHARGED span's ladder and maximum stay, or FREE, or NO_SALE (R17). -/
inductive SpanKind
  | charged (steps : List LadderStep) (maximumStay : Nat)
  | free
  | noSale
  deriving DecidableEq, Repr

/-- A period of one day, as its serving book gives it (R17, R47): what the spec calls a period instance. -/
structure Span where
  start : ZoneMinute
  stop : ZoneMinute
  kind : SpanKind
  byStaged : Bool
  header : PlanHeader
  deriving DecidableEq, Repr

/-- Stage (d) of a forward walk on its way: the point reached, how many spans have been entered, what is left of
the budget, and the last span entered with its buying point, its count at entry and the minutes bought in it. -/
structure Trail where
  startByStaged : Bool
  point : ZoneMinute
  entered : Nat
  chargedMet : Bool
  budget : Nat
  /-- Charged minutes bought in the spans before the last one entered. -/
  bought : Nat
  usedStaged : Bool
  span : Span
  buyingPoint : ZoneMinute
  entryCount : Nat
  inSpan : Nat
  deriving DecidableEq, Repr

/-- Why stage (d) stopped (R59 to R61): want of budget with the leftover's rate, CAP, an end of a span with
the budget exhausted, NOSALE or LONG, or want of any budget at a FREE start. -/
inductive StopKind
  | want (rate : Nat)
  | cap
  | exhausted
  | noSale
  | long
  | freeStart
  deriving DecidableEq, Repr

/-- A reverse walk on its way from S to the wanted expiry (R68): the start span, the cost so far in sixtieths, and
the end of the last CHARGED span walked to its end. -/
structure ReverseTrail where
  first : Span
  point : ZoneMinute
  entered : Nat
  chargedMet : Bool
  cost : Nat
  lastChargedEnd : Option ZoneMinute
  wanted : ZoneMinute
  deriving DecidableEq, Repr

/-- What a sale of the quote charges: amount, price and excess, or permit and granted minutes (R65). -/
inductive Terms
  | money (amount price excess : Nat)
  | visitor (permit granted : Nat)
  deriving DecidableEq, Repr

/-- The price of the terms: 0 for a visitor (R64). -/
def Terms.price : Terms → Nat
  | .money _ p _ => p
  | .visitor _ _ => 0

/-- The result of a walk (R65). -/
structure WalkResult where
  plan : Fin 8
  payKind : PayKind
  mode : Mode
  walkTime : ZoneMinute
  start : ZoneMinute
  expiry : ZoneMinute
  terms : Terms
  mark : Option Mark
  linked : Option Nat
  finalStart : ZoneMinute
  finalMinutes : Nat
  conds : CondSet
  generation : BitVec 16
  revision : BitVec 16
  usedStaged : Bool
  wanted : Option ZoneMinute
  deriving DecidableEq, Repr

/-- How a walk completes: with a result, or refused with its status, the condition that refused for HELD, and
the conditions raised (R43, R50). -/
inductive WalkOutcome
  | result (r : WalkResult)
  | refused (status : Status) (heldBy : Option Cond) (conds : CondSet)
  deriving DecidableEq, Repr

/-- The stages of a walk (section 3.1): what has still to be done. `first` is the start span found by stage (b). -/
inductive Stage
  | link
  | checks (c : WalkContext)
  | budget (c : WalkContext) (first : Span)
  | forward (c : WalkContext) (t : Trail)
  | finish (c : WalkContext) (t : Trail) (why : StopKind)
  | place (c : WalkContext) (first : Span)
  | reverse (c : WalkContext) (t : ReverseTrail)
  | price (c : WalkContext) (first : Span) (cost : Nat) (wanted : ZoneMinute)
  | done (o : WalkOutcome)
  deriving DecidableEq, Repr

/-- The walk in flight: what R42 fixes at its beginning, the marks of R43, and the stage it has reached. -/
structure Walk where
  slot : Fin 17
  request : WalkRequest
  time : ZoneMinute
  view : View
  plan : Fin 8
  pass : CondSet
  mode : Mode
  discard : Bool
  orphaned : Bool
  stage : Stage
  deriving DecidableEq, Repr

/-- The quote engine (R40, R41): slots 0 to 15 are terminals 1 to 16, slot 16 is the office's. -/
structure Engine where
  slots : Vector (Option WalkRequest) 17
  last : Fin 17
  walk : Option Walk
  deriving DecidableEq, Repr

def officeSlot : Fin 17 := 16

/-- A terminal's slot. -/
def lineSlot (n : Line) : Fin 17 := n.castSucc

/-! ## Sale unit records (chapter 5) -/

/-- A ticket number: zone id, terminal 1 to 16, sequence (00_scope.md 1.5). -/
structure Ticket where
  zone : Nat
  terminal : Nat
  sequence : Nat
  deriving DecidableEq, Repr

inductive SessionKind
  | paidCash | paidCard | visitor | test
  deriving DecidableEq, Repr

/-- The payment a session record keeps (R103). -/
inductive SessionPayment
  | cash (counts : Vector Nat 8)
  | card (amount : Nat)
  | visitor (permit granted : Nat)
  deriving DecidableEq, Repr

/-- A session record (R103). -/
structure Session where
  serial : Nat
  ticket : Ticket
  kind : SessionKind
  payment : SessionPayment
  plan : Fin 8
  issue : ZoneMinute
  sold : ZoneMinute
  start : ZoneMinute
  expiry : ZoneMinute
  price : Nat
  overpaid : Nat
  mark : Option Mark
  linked : Option Nat
  finalStart : ZoneMinute
  finalMinutes : Nat
  conds : CondSet
  generation : BitVec 16
  usedStaged : Bool
  deriving DecidableEq, Repr

/-- A day record of the daily totals (R110). -/
structure DayRecord where
  day : Nat
  cashValue : Nat
  cardValue : Nat
  overpaidValue : Nat
  visitorMinutes : Nat
  testCashValue : Nat
  cashSales : Nat
  cardSales : Nat
  visitorSales : Nat
  testSales : Nat
  quotesMade : Nat
  quotesHeld : Nat
  conds : CondSet
  deriving DecidableEq, Repr

/-- The state of the sale unit (R96). A next serial of `none` is EXHAUSTED. -/
structure SaleUnit where
  log : List Session
  nextSerial : Option Nat
  sequences : Vector Nat 16
  pressure : Bool
  totals : Vector (List DayRecord) 16
  deriving DecidableEq, Repr

/-! ## Permit unit (chapter 6) -/

/-- The visitor fields of an entry (R116). -/
structure VisitorBook where
  grant : Nat
  allowance : Nat
  period : Nat
  nextRefresh : Nat
  deriving DecidableEq, Repr

/-- What a permit grants, with the fields its kind holds (R116). -/
inductive PermitKind
  | resident (marks : List Mark)
  | business (marks : List Mark)
  | visitorBook (book : VisitorBook)
  deriving DecidableEq, Repr

/-- An entry of the permit register (R116). -/
structure Permit where
  number : Nat
  kind : PermitKind
  suspended : Bool
  plans : BitVec 8
  fromDay : Nat
  toDay : Nat
  deriving DecidableEq, Repr

/-! ## Cover search unit (chapter 7) -/

inductive CoverKey
  | ticket (t : Ticket)
  | mark (m : Mark)
  deriving DecidableEq, Repr

/-- A COVER accepted and not yet answered: its tag, plan and key. -/
structure CoverRequest where
  tag : Tag
  plan : Fin 8
  key : CoverKey
  deriving DecidableEq, Repr

inductive CoverSlot
  | empty
  | waiting (r : CoverRequest)
  | searching (r : CoverRequest)
  deriving DecidableEq, Repr

/-- The out-of-days field (R139): permit number and its first and last days. -/
structure OutOfDays where
  permit : Nat
  fromDay : Nat
  toDay : Nat
  deriving DecidableEq, Repr

/-- The verdict of a search with the fields it gives (R135 to R139). -/
inductive Verdict
  | unknown
  | testTicket (serial terminal : Nat) (issue : ZoneMinute)
  | wrongPlan (serial : Nat) (plan : Fin 8) (expiry : ZoneMinute)
  | valid (serial : Nat) (kind : SessionKind) (start expiry : ZoneMinute)
  | expired (serial : Nat) (kind : SessionKind) (expiry : ZoneMinute) (since : Nat)
  | coveredSession (expiry : ZoneMinute) (ticket : Ticket) (kind : SessionKind) (serial : Nat)
  | coveredPermit (number : Nat) (business : Bool) (toDay : Nat)
  | suspendedPermit (number : Nat) (business : Bool)
  | grace (since : ZoneMinute) (until_ : Option ZoneMinute) (outOfDays : Option OutOfDays)
  | recent (expiry : ZoneMinute) (ticket : Ticket) (since : Nat) (outOfDays : Option OutOfDays)
  | notCovered (chosen : Option (ZoneMinute × Nat)) (outOfDays : Option OutOfDays)
  deriving DecidableEq, Repr

/-- The reads a search has made (R133): none yet; the log, with the record kept for order 5; the log and the
register; or all it needs, with its verdict. -/
inductive SearchStage
  | begun
  | logRead (chosen : Option Session)
  | permitRead (chosen : Option Session) (outOfDays : Option OutOfDays)
  | decided (v : Verdict)
  deriving DecidableEq, Repr

/-- The record of the search in flight (R129 (iii)). -/
structure Search where
  source : PortId
  plan : Fin 8
  key : CoverKey
  time : ZoneMinute
  window : Nat
  stage : SearchStage
  deriving DecidableEq, Repr

/-- The state of the cover search unit (R129). -/
structure CoverUnit where
  office : CoverSlot
  service : CoverSlot
  last : PortId
  search : Option Search
  window : Nat
  deriving DecidableEq, Repr

/-! ## Cash unit (chapter 8) -/

/-- A box tally (R144). The coin total and the near-full level are worked out from it. -/
structure Tally where
  present : Bool
  box : Nat
  counts : Vector Nat 8
  capacity : Nat
  absentMark : Bool
  nearMark : Bool
  fullMark : Bool
  deriving DecidableEq, Repr

/-- The count of a lift: counted value, variance and counted time (R158). -/
structure Count where
  value : Nat
  variance : Int
  time : ZoneMinute
  deriving DecidableEq, Repr

inductive LiftState
  | awaiting
  | reconciled (c : Count)
  | variance (c : Count)
  deriving DecidableEq, Repr

/-- A lift record (R148). -/
structure Lift where
  serial : Nat
  round : Nat
  terminal : Line
  box : Nat
  label : Option Nat
  lifted : ZoneMinute
  counts : Vector Nat 8
  expected : Nat
  state : LiftState
  deriving DecidableEq, Repr

/-- OPEN, or CLOSED or LAPSED with its end time (R153). -/
inductive RoundState
  | opened
  | closed (ended : ZoneMinute)
  | lapsed (ended : ZoneMinute)
  deriving DecidableEq, Repr

/-- A set of terminals. -/
abbrev LineSet := Vector Bool 16

/-- A round record other than NONE (R153). -/
structure Round where
  state : RoundState
  number : Nat
  badge : Nat
  openTime : ZoneMinute
  planned : LineSet
  lifted : LineSet
  deriving DecidableEq, Repr

/-- The state of the cash unit. A round of `none` is NONE. -/
structure CashUnit where
  coins : Vector Nat 8
  tallies : Vector Tally 16
  lifts : List Lift
  nextLift : Nat
  round : Option Round
  tolerance : Nat
  roundLimit : Nat
  deriving DecidableEq, Repr

/-! ## Fault unit (chapter 9) -/

/-- The fourteen terminal kinds, in the order of the table of R161. -/
inductive TermFault
  | printerLow | printerEmpty | coinJam | cardFault | doorOpen | supplyLow | lineSilent | lineNoisy
  | boxNearFull | boxFull | boxAbsent | boxIdentity | unroundedLift | cashVariance
  deriving DecidableEq, Repr

def TermFault.index : TermFault → Fin 14
  | .printerLow => 0 | .printerEmpty => 1 | .coinJam => 2 | .cardFault => 3 | .doorOpen => 4
  | .supplyLow => 5 | .lineSilent => 6 | .lineNoisy => 7 | .boxNearFull => 8 | .boxFull => 9
  | .boxAbsent => 10 | .boxIdentity => 11 | .unroundedLift => 12 | .cashVariance => 13

/-- The four zone kinds (R161). -/
inductive ZoneFault
  | clockUnset | roundLapsed | cashRecordLost | logPressure
  deriving DecidableEq, Repr

def ZoneFault.index : ZoneFault → Fin 4
  | .clockUnset => 0 | .roundLapsed => 1 | .cashRecordLost => 2 | .logPressure => 3

inductive RecordState
  | clear | opened | acknowledged
  deriving DecidableEq, Repr

/-- A fault record (R161). -/
structure FaultRecord where
  state : RecordState
  first : ZoneMinute
  changed : ZoneMinute
  count : Nat
  detail : Option Nat
  deriving DecidableEq, Repr

/-- A plan's grace record (R173). -/
inductive Grace
  | none
  | active (since : ZoneMinute)
  | ending (since until_ : ZoneMinute)
  deriving DecidableEq, Repr

structure FaultTable where
  terminals : Vector (Vector FaultRecord 14) 16
  zone : Vector FaultRecord 4
  grace : Vector Grace 8
  deriving DecidableEq, Repr

/-- The payment service of a terminal (R171); NOT_CONFIGURED stands in its place for an UNCONFIGURED one. -/
inductive Service
  | notConfigured | inService | cashOut | cardOut | paymentOut | outOfService
  deriving DecidableEq, Repr

/-- The notice state (R176). -/
structure NoticeState where
  enable : NoticeSet
  call : NoticeSet
  lamp : NoticeSet
  office : NoticeSet
  site : NoticeSet
  deriving DecidableEq, Repr

/-! ## Replies -/

/-- The part of a book image a READ-BOOK returns (R38). -/
inductive BookPart
  | header (stateCode : Nat) (plans : Vector Bool 8) (ladders : Vector Bool 16) (entries : Nat)
  | plan (plan : Fin 8) (header : Option PlanHeader)
  | day (plan : Fin 8) (dayType : Fin 9) (pattern : Option (List Period))
  | ladder (ladder : Fin 16) (steps : Option (List LadderStep))
  | calendar (entries : List CalendarEntry)
  deriving DecidableEq, Repr

/-- The fields a READ-BOOK reply carries besides the part (R38 (i), (ii)). -/
inductive BookStamp
  | active (generation : BitVec 16)
  | staged (state : StagedState) (revision : BitVec 16) (activationDay : Option Nat)
  deriving DecidableEq, Repr

/-- The report of READ-STATUS, group by group (R187). -/
structure StatusReport where
  zoneId : Nat
  reason : Nat
  time : ZoneMinute
  clock : ClockState
  overrides : Nat
  activeState : ActiveState
  stagedState : StagedState
  retired : Bool
  generation : BitVec 16
  revision : BitVec 16
  activationDay : Option Nat
  check : CheckRecord
  logHeld : Nat
  lowestSerial : Nat
  nextSerial : Option Nat
  permitsHeld : Nat
  liftsHeld : Nat
  liftsAwaiting : Nat
  round : Option (RoundState × Nat)
  tolerance : Nat
  roundLimit : Nat
  window : Nat
  officePending : NoticeSet
  sitePending : NoticeSet
  badgesHeld : Nat
  deriving DecidableEq, Repr

/-- The reply fields of a command or request, as its owning rule names them. -/
inductive Body
  | empty
  | reading (time : ZoneMinute)
  | overrides (table : List Override)
  | revision (r : BitVec 16)
  | bookPart (stamp : BookStamp) (number : Nat) (part : BookPart)
  | bookStamp (stamp : BookStamp)
  | quoted (r : WalkResult) (number : Nat)
  | previewed (r : WalkResult)
  | held (by_ : Cond) (raised : CondSet)
  | sold (serial : Nat) (ticket : Ticket) (start expiry : ZoneMinute) (price overpaid : Nat) (granted : Option Nat)
  | lifted (serial box : Nat) (counts : Vector Nat 8) (expected : Nat)
  | conditions (set : CondSet)
  | conditionSets (sets : List (Line × CondSet))
  | sessions (lowest : Nat) (next : Option Nat) (records : List Session) (held : Nat)
  | totals (records : List DayRecord)
  | permit (entry : Option Permit) (held : Nat)
  | permitPut (entry : Permit) (replaced : Bool) (held : Nat)
  | permitEntry (entry : Permit)
  | heldCount (n : Nat)
  | badgesHeld (n : Nat)
  | verdict (plan : Fin 8) (key : CoverKey) (time : ZoneMinute) (v : Verdict)
  | window (before now : Nat)
  | coins (values : Vector Nat 8)
  | slotsInUse (slots : List (Fin 8))
  | lifts (held next : Nat) (records : List Lift)
  | planned (set : LineSet)
  | roundStatus (round : Option Round) (missed : LineSet) (tallies : List (Line × Bool × Nat × Nat)) (lapse : Option ZoneMinute)
  | roundClosed (planned lifted missed : LineSet)
  | counted (serial expected value : Nat) (variance : Int) (reconciled : Bool)
  | limits (toleranceBefore limitBefore tolerance limit : Nat)
  | zoneFaults (records : Vector FaultRecord 4)
  | terminalFaults (records : Vector FaultRecord 14) (service : Service) (grace : Option Grace)
  | faultSummary (terminals : List (Service × BitVec 14)) (zone : BitVec 4) (grace : Vector Grace 8)
  | notices (pending enable call lamp : NoticeSet)
  | siteNotices (pending : NoticeSet)
  | noticeSettings (enableBefore callBefore lampBefore enable call lamp : NoticeSet)
  | addressed (sets : Vector (BitVec 8) 16)
  | status (r : StatusReport)
  | restarting
  deriving DecidableEq, Repr

/-! ## Terminal controller (chapter 4) -/

/-- An answer to a terminal request: its status and reply fields. -/
structure LineAnswer where
  status : Status
  body : Body
  deriving DecidableEq, Repr

/-- The envelope of a reply on a terminal line (R79). -/
structure Envelope where
  time : ZoneMinute
  clock : ClockState
  service : Service
  mode : Mode
  addressed : BitVec 8
  acknowledged : BitVec 14
  deriving DecidableEq, Repr

/-- A reply being transmitted on a terminal line. -/
structure LineReply where
  answer : LineAnswer
  envelope : Envelope
  deriving DecidableEq, Repr

/-- The state of a line unit (R73). REPLYING holds the reply, whether the return state is PENDING, and
whether a collision has been counted for this reply (R75). -/
inductive LineState
  | idle
  | receiving
  | pending
  | replying (reply : LineReply) (toPending : Bool) (collided : Bool)
  deriving DecidableEq, Repr

/-- A line unit (R73): the characters of the partial frame after its flag, the pending request's kind, and
the held answer. -/
structure LineUnit where
  state : LineState
  frame : Option (List Byte)
  request : Option RequestKind
  held : Option LineAnswer
  deriving DecidableEq, Repr

/-- An entry of the terminal table (R80). -/
structure Entry where
  active : Bool
  plan : Fin 8
  takesCoins : Bool
  takesCards : Bool
  asksMark : Bool
  pass : CondSet
  sticky : CondSet
  mode : Mode
  testStart : ZoneMinute
  nextQuote : Nat
  lastHeard : ZoneMinute
  discards : Nat
  addressed : BitVec 8
  deriving DecidableEq, Repr

/-- An open quote (R88). -/
structure OpenQuote where
  result : WalkResult
  number : Nat
  made : ZoneMinute
  deriving DecidableEq, Repr

/-! ## Port unit (chapter 10) -/

/-- An answer waiting in a reply queue, with the tag of its command (R181). -/
structure PortAnswer where
  tag : Tag
  status : Status
  body : Body
  deriving DecidableEq, Repr

/-- A port reply being transmitted, with the zone time and clock state at its beginning (R183). -/
structure PortReply where
  answer : PortAnswer
  time : ZoneMinute
  clock : ClockState
  deriving DecidableEq, Repr

/-- What the port unit holds for one port (R181). -/
structure Port where
  frame : Option (List Byte)
  queue : List PortAnswer
  sending : Option PortReply
  deferred : Nat
  deriving DecidableEq, Repr

/-- A badge and its roles: OFFICER, COLLECTOR, ENGINEER as bits 0 to 2 (R184, section 11.1). -/
structure Badge where
  number : Nat
  roles : BitVec 3
  deriving DecidableEq, Repr

inductive RestartReason
  | cold | supply | command
  deriving DecidableEq, Repr

structure PortUnit where
  office : Port
  service : Port
  badges : List Badge
  reason : RestartReason
  zoneId : BitVec 8
  /-- A RESTART has been taken and its answer has not left the office link (R190 (ii)). -/
  restarting : Bool
  deriving DecidableEq, Repr

/-! ## Pins and wire -/

/-- The input pins (00_scope.md 1.4). -/
structure Pins where
  straps : BitVec 8
  backupGood : Bool
  nresetLow : Bool
  supply : Bool
  deriving DecidableEq, Repr

/-- A receiver of the part: a terminal line, or a port. -/
inductive Receiver
  | line (n : Line)
  | port (p : PortId)
  deriving DecidableEq, Repr

/-- What arrives at a receiver: a character, or 4 character times with none (R74, R182). -/
inductive WireEvent
  | char (at_ : Receiver) (c : Byte)
  | silence (at_ : Receiver)
  deriving DecidableEq, Repr

/-! ## The whole state -/

/-- The ZH4: its ten blocks, its pins, the wire, and the commands waiting, first in first out. `choices` counts
the free order choices drawn (R175). -/
structure State where
  clock : Clock
  books : BookStore
  engine : Engine
  lines : Vector LineUnit 16
  table : Vector Entry 16
  quotes : Vector (Option OpenQuote) 16
  sales : SaleUnit
  permits : List Permit
  cover : CoverUnit
  cash : CashUnit
  faults : FaultTable
  notices : NoticeState
  ports : PortUnit
  pins : Pins
  wire : List WireEvent
  choices : Nat
  pending : List Instr
  deriving DecidableEq, Repr

/-- No meaning of this model stops with a fault: every command the spec gives is answered or has its effect. -/
inductive Fault
  deriving DecidableEq, Repr

/-- Raised by Dispatch for a command without a meaning yet (safe: the run stops); no arm raises it. -/
inductive Refusal
  | notModelled (mnemonic : String)
  deriving DecidableEq, Repr

/-! ## The values after a cold start -/

/-- R3. -/
def Clock.cold : Clock :=
  { state := .unset, reading := 0, handed := 0, subMinute := 0, overrides := [], overran := false }

/-- R39. -/
def BookStore.cold : BookStore :=
  { bankX := Book.empty, bankY := Book.empty, active := .x, activeState := .empty, stagedState := .empty,
    retired := false, heldX := false, heldY := false, activationDay := none, firstBook := false,
    generation := 0, revision := 0, check := CheckRecord.none }

/-- R72. -/
def Engine.cold : Engine :=
  { slots := Vector.replicate 17 none, last := officeSlot, walk := none }

/-- R73. -/
def LineUnit.cold : LineUnit :=
  { state := .idle, frame := none, request := none, held := none }

/-- The PASS set after a cold start: CARRY, CAP, LONG, ROUND, EDGE and THIN (R49, R94). -/
def coldPass : CondSet := 0b111000111

/-- R94. -/
def Entry.cold : Entry :=
  { active := false, plan := 0, takesCoins := false, takesCards := false, asksMark := false,
    pass := coldPass, sticky := 0, mode := .normal, testStart := 0, nextQuote := 1, lastHeard := 0,
    discards := 0, addressed := 0 }

/-- R114. -/
def SaleUnit.cold : SaleUnit :=
  { log := [], nextSerial := some 1, sequences := Vector.replicate 16 1, pressure := false,
    totals := Vector.replicate 16 [] }

/-- R141. -/
def CoverUnit.cold : CoverUnit :=
  { office := .empty, service := .empty, last := .office, search := none, window := 10 }

/-- R160. -/
def Tally.cold : Tally :=
  { present := false, box := 0, counts := Vector.replicate 8 0, capacity := 4000,
    absentMark := false, nearMark := false, fullMark := false }

/-- R160. -/
def CashUnit.cold : CashUnit :=
  { coins := Vector.replicate 8 0, tallies := Vector.replicate 16 Tally.cold, lifts := [], nextLift := 1,
    round := none, tolerance := 100, roundLimit := 240 }

/-- R180. -/
def FaultRecord.cold : FaultRecord :=
  { state := .clear, first := 0, changed := 0, count := 0, detail := none }

/-- R180: CLOCK_UNSET is OPEN with count 1. -/
def FaultTable.cold : FaultTable :=
  { terminals := Vector.replicate 16 (Vector.replicate 14 FaultRecord.cold)
    zone := #v[{ FaultRecord.cold with state := .opened, count := 1 }, FaultRecord.cold,
      FaultRecord.cold, FaultRecord.cold]
    grace := Vector.replicate 8 .none }

/-- The call mask after a cold start: FAULT_OPENED, BOOK_CHECKED, BOOK_ACTIVATED, ROUND_ENDED,
GRACE_STARTED, SERVICE_DENIED, PERMIT_EXHAUSTED, RESTARTED (R180). -/
def coldCall : NoticeSet := 0b111011011001

/-- The lamp mask after a cold start: FAULT_OPENED, GRACE_STARTED, RESTARTED (R180). -/
def coldLamp : NoticeSet := 0b100010000001

/-- R180: both pending sets hold RESTARTED. -/
def NoticeState.cold : NoticeState :=
  { enable := 0xFFF, call := coldCall, lamp := coldLamp, office := Notice.restarted.bit,
    site := Notice.restarted.bit }

/-- A port after any restart (R181). -/
def Port.cold : Port :=
  { frame := none, queue := [], sending := none, deferred := 0 }

/-- R181, R184, R188, with the zone id read from the straps. -/
def PortUnit.cold (straps : BitVec 8) : PortUnit :=
  { office := Port.cold, service := Port.cold, badges := [], reason := .cold, zoneId := straps,
    restarting := false }

/-- Right after a cold start: every block at the values its chapter states. DESIGN CHOICE (log entry 4): the
straps are all low, and no command or character is waiting. -/
def State.reset : State :=
  { clock := Clock.cold, books := BookStore.cold, engine := Engine.cold,
    lines := Vector.replicate 16 LineUnit.cold, table := Vector.replicate 16 Entry.cold,
    quotes := Vector.replicate 16 none, sales := SaleUnit.cold, permits := [], cover := CoverUnit.cold,
    cash := CashUnit.cold, faults := FaultTable.cold, notices := NoticeState.cold,
    ports := PortUnit.cold 0,
    pins := { straps := 0, backupGood := false, nresetLow := false, supply := true },
    wire := [], choices := 0, pending := [] }

end Sys2Proof.Machine
end

