-- ==== Sys2Proof/Machine/Flags.lean ====
section
/-!
DEFINITION. Machine/Flags.lean: the status and interrupt side of the part (chapter 9): latching a notice and
the CALL and LAMP lines, raising and clearing a fault record, the service state of a terminal and the grace
of a plan. A fault change is one event: record, notice, service state and grace together (section 9.1).
-/
namespace Sys2Proof.Machine

/-! ## Notices (R176) -/

/-- Latch a source: through the enable set into the office pending set by the call mask and into the site
pending set by the lamp mask (R176). -/
def latchIn (n : Notice) (w : NoticeState) : NoticeState :=
  { w with
    office := if n.isIn w.enable && n.isIn w.call then w.office ||| n.bit else w.office
    site := if n.isIn w.enable && n.isIn w.lamp then w.site ||| n.bit else w.site }

/-- A block latches a source. -/
def latch (n : Notice) (s : State) : State := { s with notices := latchIn n s.notices }

/-- CALL is asserted while the office pending set is not empty (R176). -/
def callLine (s : State) : Bool := s.notices.office != 0

/-- LAMP is asserted while the site pending set is not empty (R176). -/
def lampLine (s : State) : Bool := s.notices.site != 0

/-! ## Fault records (R161 to R163) -/

/-- Is the record OPEN or ACKNOWLEDGED? -/
def FaultRecord.standing (r : FaultRecord) : Bool := r.state != .clear

/-- A raise of a record (R162). The count is 1 at every raise from CLEAR, for LOG_PRESSURE too, whose count R108 says counts the
episodes of pressure: where the two differ the model follows R161 and R162 (DESIGN CHOICE, log entry 34). -/
def FaultRecord.raised (r : FaultRecord) (now : ZoneMinute) (detail : Option Nat) : FaultRecord :=
  match r.state with
  | .clear => { state := .opened, first := now, changed := now, count := 1, detail := detail }
  | _ => { r with state := .opened, changed := now, count := saturate 255 r.count 1,
                  detail := if detail.isSome then detail else r.detail }

/-- A clear of an OPEN or ACKNOWLEDGED record (R163). -/
def FaultRecord.cleared (r : FaultRecord) (now : ZoneMinute) : FaultRecord :=
  { r with state := .clear, changed := now }

/-! ## Service state (R171) -/

def hasFault (records : Vector FaultRecord 14) (k : TermFault) : Bool := (row records k.index).standing

/-- A cash kind is among the standing records (R171 (ii)). -/
def hasCashFault (records : Vector FaultRecord 14) : Bool :=
  hasFault records .coinJam || hasFault records .boxFull || hasFault records .boxAbsent ||
    hasFault records .boxIdentity

/-- The service state the records of an ACTIVE terminal give (R171). -/
def serviceOf (records : Vector FaultRecord 14) : Service :=
  if hasFault records .printerEmpty || hasFault records .doorOpen || hasFault records .lineSilent then
    .outOfService
  else if hasCashFault records && hasFault records .cardFault then .paymentOut
  else if hasCashFault records then .cashOut
  else if hasFault records .cardFault then .cardOut
  else .inService

/-- The service state of a terminal; NOT_CONFIGURED for an UNCONFIGURED one (R171). -/
def serviceIn (table : Vector Entry 16) (f : FaultTable) (n : Line) : Service :=
  if (row table n).active then serviceOf (row f.terminals n) else .notConfigured

def serviceState (s : State) (n : Line) : Service := serviceIn s.table s.faults n

/-! ## Grace (R173, R174) -/

/-- Is terminal n ACTIVE with this plan? -/
def servesPlan (table : Vector Entry 16) (p : Fin 8) (n : Line) : Bool :=
  (row table n).active && (row table n).plan == p

/-- Out of payment service: OUT_OF_SERVICE or PAYMENT_OUT (R173). -/
def Service.outOfPayment (v : Service) : Bool := v == .outOfService || v == .paymentOut

/-- A plan is unserved when it has an ACTIVE terminal and every one is out of payment service (R173). -/
def unservedIn (table : Vector Entry 16) (f : FaultTable) (p : Fin 8) : Bool :=
  someRow (servesPlan table p) &&
    allRows fun n => !servesPlan table p n || (serviceIn table f n).outOfPayment

def unserved (s : State) (p : Fin 8) : Bool := unservedIn s.table s.faults p

/-- The minutes of a grace tail (R174). -/
abbrev graceTail : Nat := 15

/-- The grace record after a re-evaluation (R174). -/
def Grace.reevaluated (g : Grace) (now : ZoneMinute) (isUnserved : Bool) : Grace :=
  match g, isUnserved with
  | .none, true => .active now
  | .none, false => .none
  | .active since, true => .active since
  | .active since, false => .ending since (now + graceTail)
  | .ending since _, true => .active since
  | .ending since u, false => .ending since u

/-- The fault table and the notice state, which every fault change touches together. -/
abbrev Watch := FaultTable × NoticeState

/-- Re-evaluate a plan's grace record; GRACE_STARTED is latched as it leaves NONE (R174). -/
def regraceIn (table : Vector Entry 16) (now : ZoneMinute) (p : Fin 8) (w : Watch) : Watch :=
  let u := unservedIn table w.1 p
  let g := row w.1.grace p
  ({ w.1 with grace := put w.1.grace p (g.reevaluated now u) },
    if g == .none && u then latchIn .graceStarted w.2 else w.2)

/-- After a change at terminal n: where its service state has changed, its plan is re-evaluated (R172, R174). -/
def followService (table : Vector Entry 16) (now : ZoneMinute) (n : Line) (before : Service) (w : Watch) :
    Watch :=
  if serviceIn table w.1 n != before then regraceIn table now (row table n).plan w else w

/-- The fault table with one terminal record replaced. -/
def putTerminal (f : FaultTable) (n : Line) (k : TermFault) (r : FaultRecord) : FaultTable :=
  { f with terminals := change f.terminals n fun rs => put rs k.index r }

/-- The record of a terminal kind. -/
def terminalRecord (f : FaultTable) (n : Line) (k : TermFault) : FaultRecord :=
  row (row f.terminals n) k.index

/-- Raise a terminal kind (R162): from CLEAR or ACKNOWLEDGED FAULT_OPENED is latched, unless the raise spares
the notice (R165, DOOR_OPEN during a round); then service state and grace follow. -/
def raiseIn (table : Vector Entry 16) (now : ZoneMinute) (spared : Bool) (n : Line) (k : TermFault)
    (detail : Option Nat) (w : Watch) : Watch :=
  let r := terminalRecord w.1 n k
  followService table now n (serviceIn table w.1 n)
    (putTerminal w.1 n k (r.raised now detail),
      if r.state != .opened && !spared then latchIn .faultOpened w.2 else w.2)

/-- Clear a terminal kind (R163): a standing record becomes CLEAR and FAULT_CLEARED is latched; a CLEAR one stays. -/
def clearIn (table : Vector Entry 16) (now : ZoneMinute) (n : Line) (k : TermFault) (w : Watch) : Watch :=
  let r := terminalRecord w.1 n k
  if r.standing then
    followService table now n (serviceIn table w.1 n)
      (putTerminal w.1 n k (r.cleared now), latchIn .faultCleared w.2)
  else w

/-- Raise a zone kind (R162). -/
def raiseZoneIn (now : ZoneMinute) (k : ZoneFault) (detail : Option Nat) (w : Watch) : Watch :=
  let r := row w.1.zone k.index
  ({ w.1 with zone := put w.1.zone k.index (r.raised now detail) },
    if r.state != .opened then latchIn .faultOpened w.2 else w.2)

/-- Clear a zone kind (R163). -/
def clearZoneIn (now : ZoneMinute) (k : ZoneFault) (w : Watch) : Watch :=
  let r := row w.1.zone k.index
  if r.standing then
    ({ w.1 with zone := put w.1.zone k.index (r.cleared now) }, latchIn .faultCleared w.2)
  else w

/-! ## The same on the whole state -/

/-- A change at the fault unit alone. -/
def onFaults (f : Watch → Watch) (s : State) : State :=
  { s with faults := (f (s.faults, s.notices)).1, notices := (f (s.faults, s.notices)).2 }

def raiseFault (n : Line) (k : TermFault) (detail : Option Nat) (s : State) : State :=
  onFaults (raiseIn s.table s.clock.reading false n k detail) s

def clearFaultOf (n : Line) (k : TermFault) (s : State) : State :=
  onFaults (clearIn s.table s.clock.reading n k) s

def raiseZone (k : ZoneFault) (detail : Option Nat) (s : State) : State :=
  onFaults (raiseZoneIn s.clock.reading k detail) s

def clearZone (k : ZoneFault) (s : State) : State :=
  onFaults (clearZoneIn s.clock.reading k) s

def regrace (p : Fin 8) (s : State) : State :=
  onFaults (regraceIn s.table s.clock.reading p) s

/-- Re-evaluate every plan (R175). -/
def regraceAll (s : State) : State :=
  onFaults (fun w => (List.finRange 8).foldl (fun w p => regraceIn s.table s.clock.reading p w) w) s

/-- The set of a terminal's kinds whose records satisfy `p`, as the bit map of section 11.1. -/
def kindSet (records : Vector FaultRecord 14) (p : FaultRecord → Bool) : BitVec 14 :=
  (List.finRange 14).foldl (fun acc i => if p (row records i) then acc ||| (1#14 <<< i.val) else acc) 0

end Sys2Proof.Machine
end

