-- ==== Sys2Proof/Machine/Ops.lean ====
section
/-!
DEFINITION. Machine/Ops.lean: the named operations the meanings share: the time; a line unit's answers,
discards and collisions (chapter 4); a port's reply queue, badge check and command entry (chapter 10);
the open-quote slots; and when the part takes events at all.
-/
namespace Sys2Proof.Machine

/-- "Now" (00_scope.md 1.5, R1). -/
def now (s : State) : ZoneMinute := s.clock.reading

/-- "Today" (00_scope.md 1.5). -/
def today (s : State) : Nat := dayOf s.clock.reading

def clockSet (s : State) : Bool := s.clock.state == .set

/-- The blocks take events while the main supply is present and NRESET is not held low (R14, R188; log entry 7). -/
def running (s : State) : Bool := s.pins.supply && !s.pins.nresetLow

/-- An event that the blocks take only while they run. -/
def whenRunning (act : State → State) (s : State) : State := if running s then act s else s

/-! ## Line units (R73 to R79) -/

/-- A change of one terminal's entry. -/
def onEntry (n : Line) (f : Entry → Entry) (s : State) : State := { s with table := change s.table n f }

/-- A change of one line unit. -/
def onLine (n : Line) (f : LineUnit → LineUnit) (s : State) : State := { s with lines := change s.lines n f }

/-- The envelope formed when the transmission of a reply begins, from the state held at that moment (R79). -/
def envelopeOf (s : State) (n : Line) : Envelope :=
  { time := s.clock.reading, clock := s.clock.state, service := serviceState s n, mode := (row s.table n).mode,
    addressed := (row s.table n).addressed,
    acknowledged := kindSet (row s.faults.terminals n) fun r => r.state == .acknowledged }

/-- Begin to transmit a reply, to return to PENDING or to IDLE when it ends (R77, R78). -/
def LineUnit.reply (u : LineUnit) (a : LineAnswer) (e : Envelope) (toPending : Bool) : LineUnit :=
  { u with state := .replying { answer := a, envelope := e } toPending false }

/-- Send the answer to the pending request, which is then no longer pending (R77). -/
def LineUnit.sendAnswer (u : LineUnit) (a : LineAnswer) (e : Envelope) : LineUnit :=
  { u with state := .replying { answer := a, envelope := e } false false, request := none, held := none }

/-- An answer to the pending request arrives: sent at once, or held while a BUSY reply is under way or a frame
is being assembled (R78); an answer to a dropped request is discarded (R77). -/
def LineUnit.answered (u : LineUnit) (a : LineAnswer) (e : Envelope) : LineUnit :=
  if u.request.isNone then u
  else match u.state with
    | .pending => if u.frame.isSome then { u with held := some a } else u.sendAnswer a e
    | .replying _ true _ => { u with held := some a }
    | _ => u

/-- The answer of a block to the pending request of a line. -/
def answerPending (n : Line) (status : Status) (body : Body) (s : State) : State :=
  onLine n (fun u => u.answered { status := status, body := body } (envelopeOf s n)) s

/-- The partial frame is discarded: RECEIVING returns to IDLE, PENDING stays and sends a held answer (R74, R78). -/
def LineUnit.discarded (u : LineUnit) (e : Envelope) : LineUnit :=
  match u.state with
  | .idle => { u with frame := none }
  | .receiving => { u with state := .idle, frame := none }
  | .pending =>
    match u.held with
    | some a => LineUnit.sendAnswer { u with frame := none } a e
    | none => { u with frame := none }
  | .replying _ _ _ => u

/-- Count a discarded frame, stopping at 65,535, and hand the count to the fault unit, which raises LINE_NOISY
when it is 16 (R76, R167). -/
def countDiscard (n : Line) (s : State) : State :=
  let c := saturate 65535 (row s.table n).discards 1
  let s := onEntry n (fun e => { e with discards := c }) s
  if c = 16 then raiseFault n .lineNoisy (some c) s else s

/-- A frame on a line is discarded (R74, R76, R78). -/
def discardFrame (n : Line) (s : State) : State :=
  let s := countDiscard n s
  onLine n (fun u => u.discarded (envelopeOf s n)) s

/-- A character arrives while the unit is REPLYING: the first in a reply discards what is being assembled and
counts once (R75). -/
def collide (n : Line) (s : State) : State :=
  match (row s.lines n).state with
  | .replying r toPending false =>
    countDiscard n (onLine n (fun u => { u with state := .replying r toPending true, frame := none }) s)
  | _ => s

/-- A valid frame sets the last-heard time and clears LINE_SILENT, whatever its kind and its answer (R76, R166). -/
def heard (n : Line) (s : State) : State :=
  clearFaultOf n .lineSilent (onEntry n (fun e => { e with lastHeard := s.clock.reading }) s)

/-- A valid frame is answered at once without being accepted, to return to PENDING or IDLE (R77, R78). -/
def replyAtOnce (n : Line) (status : Status) (toPending : Bool) (s : State) : State :=
  onLine n (fun u => LineUnit.reply { u with frame := none } { status := status, body := .empty }
    (envelopeOf s n) toPending) s

/-- The unit becomes PENDING with the accepted request (R77 (iii)). -/
def acceptRequest (n : Line) (k : RequestKind) (s : State) : State :=
  onLine n (fun u => { u with state := .pending, frame := none, request := some k, held := none }) s

/-- A valid frame completes on line n (R75, R77, R78). `k` is none for a kind that is not a terminal request;
`fieldsOk` says that the payload's fields lie in range. An accepted request is handled by `act`. -/
def takeFrame (n : Line) (k : Option RequestKind) (fieldsOk : Bool) (act : State → State) (s : State) : State :=
  match (row s.lines n).state with
  | .replying _ _ _ => collide n s
  | .pending => replyAtOnce n .busy true (heard n s)
  | _ =>
    match k with
    | none => replyAtOnce n .badField false (heard n s)
    | some k =>
      if !fieldsOk then replyAtOnce n .badField false (heard n s)
      else if !(row s.table n).active && k != .hello then replyAtOnce n .notConfigured false (heard n s)
      else act (acceptRequest n k (heard n s))

/-- LDIR of a line is high while its unit is REPLYING (R73). -/
def ldir (s : State) (n : Line) : Bool :=
  match (row s.lines n).state with
  | .replying _ _ _ => true
  | _ => false

/-! ## Ports (R181 to R186) -/

/-- Begin to transmit the first queued answer when nothing is being transmitted (R183). -/
def Port.start (p : Port) (time : ZoneMinute) (clock : ClockState) : Port :=
  match p.sending, p.queue with
  | none, a :: q => { p with sending := some { answer := a, time := time, clock := clock }, queue := q }
  | _, _ => p

/-- Append an answer to the reply queue (R183). -/
def Port.append (p : Port) (a : PortAnswer) (time : ZoneMinute) (clock : ClockState) : Port :=
  Port.start { p with queue := p.queue ++ [a] } time clock

def PortUnit.port (u : PortUnit) : PortId → Port
  | .office => u.office
  | .service => u.service

def PortUnit.onPort (u : PortUnit) (id : PortId) (f : Port → Port) : PortUnit :=
  match id with
  | .office => { u with office := f u.office }
  | .service => { u with service := f u.service }

/-- The owning block's answer to a command, appended to its port's queue. -/
def answerPort (id : PortId) (tag : Tag) (status : Status) (body : Body) (s : State) : State :=
  { s with ports := s.ports.onPort id (fun p =>
      p.append { tag := tag, status := status, body := body } s.clock.reading s.clock.state) }

/-- A deferred answer joins the queue as it leaves the deferred count (R182, R183). -/
def answerDeferred (id : PortId) (tag : Tag) (status : Status) (body : Body) (s : State) : State :=
  { s with ports := s.ports.onPort id (fun p =>
      Port.append { p with deferred := p.deferred - 1 } { tag := tag, status := status, body := body }
        s.clock.reading s.clock.state) }

/-- The deferred count rises at the acceptance of a PREVIEW-QUOTE or COVER (R183). -/
def deferAnswer (id : PortId) (s : State) : State :=
  { s with ports := s.ports.onPort id (fun p => { p with deferred := p.deferred + 1 }) }

/-- The answers a port may hold, queued and deferred together (R182). -/
abbrev portRoom : Nat := 6

/-- Is a frame completed on the port taken? Not when six answers are queued or deferred (R182), and not after a
RESTART was taken (R190 (ii)). -/
def listening (s : State) (id : PortId) : Bool :=
  running s && !s.ports.restarting &&
    decide ((s.ports.port id).queue.length + (s.ports.port id).deferred < portRoom)

/-- The role a service-port request requires (section 10.4). -/
inductive Role
  | officer | collector | engineer | any
  deriving DecidableEq, Repr

/-- Does a role set hold the role? Every entry's set is non-empty, so `any` is held (R184, R186). -/
def Role.isIn (r : Role) (roles : BitVec 3) : Bool :=
  match r with
  | .officer => roles.getLsbD 0
  | .collector => roles.getLsbD 1
  | .engineer => roles.getLsbD 2
  | .any => true

/-- The badge check of R186; office commands carry no badge. -/
def badgePasses (badges : List Badge) (source : Source) (role : Role) : Bool :=
  match source with
  | .office => true
  | .service b =>
    match lookup Badge.number b badges with
    | none => false
    | some e => role.isIn e.roles

/-- A handheld's badge number lies in its range (R186). -/
def badgeInRange : Source → Bool
  | .office => true
  | .service b => decide (1 ≤ b ∧ b ≤ 99999)

/-- A valid command frame on a port (R182, R183): discarded while the port does not listen; refused BAD_FIELD
for a field out of range; refused DENIED by the badge check, which latches SERVICE_DENIED (R186); otherwise
handed to its owning block. -/
def takeCommand (source : Source) (tag : Tag) (fieldsOk : Bool) (role : Role) (act : State → State)
    (s : State) : State :=
  if !listening s source.port then s
  else if !(fieldsOk && badgeInRange source) then answerPort source.port tag .badField .empty s
  else if !badgePasses s.ports.badges source role then
    answerPort source.port tag .denied .empty (latch .serviceDenied s)
  else act s

/-- An office command (section 10.3). -/
def officeCommand (tag : Tag) (fieldsOk : Bool) (act : State → State) (s : State) : State :=
  takeCommand .office tag fieldsOk .any act s

/-- Refuse an office command with a status. -/
def refuseOffice (tag : Tag) (status : Status) (s : State) : State := answerPort .office tag status .empty s

/-! ## Open quotes (R88, R89) -/

/-- The open quote of a terminal is cancelled (R89). -/
def cancelQuote (n : Line) (s : State) : State := { s with quotes := put s.quotes n none }

/-- Every open quote is cancelled (R5, R95). -/
def cancelAllQuotes (s : State) : State := { s with quotes := Vector.replicate 16 none }

end Sys2Proof.Machine
end

