-- ==== Sys2Proof/Machine/Operands.lean ====
section
/-!
DEFINITION. Machine/Operands.lean: every operand form read into the block's own terms, or found out of
range (R191): codes of section 11.1, sets, marks, payments, the parts of a book, keys and permits.
-/
namespace Sys2Proof.Machine

/-- A zone time as carried: day 0 to 65,535, minute 0 to 1,439 (00_scope.md 1.5). -/
def timeInRange (day minute : Nat) : Bool := decide (day ≤ lastDay ∧ minute ≤ 1439)

def terminalOf (n : Nat) : Option Line := rowNumber 16 n

def planOf (n : Nat) : Option (Fin 8) := rowIndex 8 n

def dayTypeOf (n : Nat) : Option (Fin 9) := rowIndex 9 n

/-- A condition set as carried in 2 bytes: bits above 8 stand for nothing (section 11.1). -/
def condSetOf (b : BitVec 16) : Option CondSet := if b.toNat < 512 then some (b.setWidth 9) else none

/-- A set of notice sources as carried in 2 bytes: bits above 11 stand for nothing (section 11.1). -/
def noticeSetOf (b : BitVec 16) : Option NoticeSet := if b.toNat < 4096 then some (b.setWidth 12) else none

/-- A role set as carried in 1 byte: bits above 2 stand for nothing, and it is not empty (R184). -/
def roleSetOf (b : BitVec 8) : Option (BitVec 3) :=
  if 0 < b.toNat ∧ b.toNat < 8 then some (b.setWidth 3) else none

/-- A character of a mark: a capital letter A to Z or a digit 0 to 9 (00_scope.md 1.5). -/
def markChar (c : Char) : Bool :=
  decide ((65 ≤ c.toNat ∧ c.toNat ≤ 90) ∨ (48 ≤ c.toNat ∧ c.toNat ≤ 57))

/-- A vehicle mark has 2 to 8 such characters. -/
def markInRange (m : Mark) : Bool := decide (2 ≤ m.length ∧ m.length ≤ 8) && m.all markChar

def markOptional (m : Option Mark) : Bool :=
  match m with
  | none => true
  | some m => markInRange m

def permitInRange (n : Nat) : Bool := decide (1 ≤ n ∧ n ≤ 9999999)

/-- The amount of a QUOTE, at most 50,000 pence (R87). -/
def amountInRange (n : Nat) : Bool := decide (n ≤ 50000)

/-- Wanted visitor minutes, 1 to 1,440 (R87). -/
def minutesInRange (n : Nat) : Bool := decide (1 ≤ n ∧ n ≤ 1440)

/-- The payment of a forward request; fields the pay kind does not use are reserved and must be zero (R87, R191). -/
def paymentOf (payKind amount minutes permit : Nat) : Option Payment :=
  match payKind with
  | 1 => if amountInRange amount ∧ minutes = 0 ∧ permit = 0 then some (.cash amount) else none
  | 2 => if amountInRange amount ∧ minutes = 0 ∧ permit = 0 then some (.card amount) else none
  | 3 => if amount = 0 ∧ minutesInRange minutes ∧ permitInRange permit then some (.visitor minutes permit) else none
  | _ => none

/-- QUOTE read into a walk request (R87). -/
def quoteRequest (f : QuoteFields) : Option WalkRequest :=
  match paymentOf f.payKind f.amount f.minutes f.permit with
  | none => none
  | some p => if markOptional f.mark then some { ask := .forward p, mark := f.mark, preview := none } else none

/-- A reverse form takes CASH or CARD (R45). -/
def reverseOf (payKind day minute : Nat) : Option Ask :=
  if timeInRange day minute then
    match payKind with
    | 1 => some (.reverse false (zoneMinute day minute))
    | 2 => some (.reverse true (zoneMinute day minute))
    | _ => none
  else none

/-- PRICE read into a walk request (R87). -/
def priceRequest (f : PriceFields) : Option WalkRequest :=
  match reverseOf f.payKind f.day f.minute with
  | none => none
  | some a => if markOptional f.mark then some { ask := a, mark := f.mark, preview := none } else none

/-- The form and payment of a PREVIEW-QUOTE (R70 (i), (iii), (iv)); unused fields are reserved. -/
def previewAsk (f : PreviewFields) : Option Ask :=
  match f.form with
  | 1 =>
    if f.wantedDay = 0 ∧ f.wantedMinute = 0 then
      (paymentOf f.payKind f.amount f.minutes f.permit).map Ask.forward
    else none
  | 2 =>
    if f.amount = 0 ∧ f.minutes = 0 ∧ f.permit = 0 then reverseOf f.payKind f.wantedDay f.wantedMinute else none
  | _ => none

/-- The preview time: "now" with its zone time reserved, or a given time (R70 (vi), section 11.1). -/
def previewTime (f : PreviewFields) : Option (Option ZoneMinute) :=
  match f.timed with
  | 0 => if f.day = 0 ∧ f.minute = 0 then some none else none
  | 1 => if timeInRange f.day f.minute then some (some (zoneMinute f.day f.minute)) else none
  | _ => none

/-- PREVIEW-QUOTE read into a walk request, its fields in range (R70). -/
def previewRequest (f : PreviewFields) (tag : Tag) : Option WalkRequest :=
  match previewAsk f, planOf f.plan, condSetOf f.pass, previewTime f with
  | some a, some p, some c, some t =>
    some { ask := a, mark := none, preview := some { tag := tag, plan := p, pass := c, time := t } }
  | _, _, _, _ => none

/-! ## Parts of a book (R22 to R26, section 11.6) -/

/-- The permitted minute steps (R15). -/
def minuteStepOk (n : Nat) : Bool := [1, 2, 5, 10, 15, 30].contains n

/-- The permitted coin units (R15). -/
def coinUnitOk (n : Nat) : Bool := [1, 2, 5, 10, 20, 50, 100].contains n

/-- The rounding codes of section 11.6 (ii). -/
def roundingOf : Nat → Option Rounding
  | 1 => some .floor
  | 2 => some .ceil
  | 3 => some .halfUp
  | 4 => some .halfEven
  | _ => none

/-- What a LOAD-PLAN asks of its plan: a header, or absence (R23). -/
def planPartHeader (p : PlanPart) : Option (Option PlanHeader) :=
  match p.presence with
  | 0 =>
    if p.minuteStep = 0 ∧ p.roundingMode = 0 ∧ p.coinUnit = 0 ∧ p.minimumCharge = 0 ∧ p.noReturn = 0 then
      some none
    else none
  | 1 =>
    match roundingOf p.roundingMode with
    | none => none
    | some r =>
      if minuteStepOk p.minuteStep ∧ coinUnitOk p.coinUnit ∧ p.minimumCharge ≤ 2000 ∧ p.noReturn ≤ 1440 then
        some (some {
          minuteStep := p.minuteStep, rounding := r, coinUnit := p.coinUnit,
          minimumCharge := p.minimumCharge, noReturn := p.noReturn })
      else none
  | _ => none

/-- LOAD-PLAN in range: the plan and what it becomes (R23). -/
def readPlan (p : PlanPart) : Option (Fin 8 × Option PlanHeader) :=
  match planOf p.plan, planPartHeader p with
  | some n, some h => some (n, h)
  | _, _ => none

/-- A used period entry (R24). -/
def readPeriod (p : PeriodPart) : Option Period :=
  if p.start ≤ 1439 then
    match p.kind with
    | 1 =>
      match rowIndex 16 p.ladder with
      | none => none
      | some l =>
        if 15 ≤ p.maximumStay ∧ p.maximumStay ≤ 1440 then
          some { start := p.start, kind := .charged l p.maximumStay } else none
    | 2 => if p.ladder = 0 ∧ p.maximumStay = 0 then some { start := p.start, kind := .free } else none
    | 3 => if p.ladder = 0 ∧ p.maximumStay = 0 then some { start := p.start, kind := .noSale } else none
    | _ => none
  else none

def periodIsZero (p : PeriodPart) : Bool :=
  decide (p.start = 0 ∧ p.kind = 0 ∧ p.ladder = 0 ∧ p.maximumStay = 0)

/-- Read all entries of a list, or none when one is out of range. -/
def readAll {α β : Type} (f : α → Option β) : List α → Option (List β)
  | [] => some []
  | x :: xs =>
    match f x, readAll f xs with
    | some y, some ys => some (y :: ys)
    | _, _ => none

/-- The first `count` entries of a part; entries the sender does not carry are zero (section 11.6). -/
def usedEntries {α : Type} (zero : α) (count : Nat) (entries : List α) : List α :=
  entries.take count ++ List.replicate (count - entries.length) zero

/-- LOAD-DAY in range: plan, day type and pattern (R24). The entries beyond the count are reserved. -/
def readDay (d : DayPart) : Option (Fin 8 × Fin 9 × List Period) :=
  if 1 ≤ d.count ∧ d.count ≤ 6 ∧ d.entries.length ≤ 6 ∧ (d.entries.drop d.count).all periodIsZero then
    match planOf d.plan, dayTypeOf d.dayType,
      readAll readPeriod (usedEntries ⟨0, 0, 0, 0⟩ d.count d.entries) with
    | some p, some t, some ps => some (p, t, ps)
    | _, _, _ => none
  else none

/-- A used step entry (R25). -/
def readStep (p : StepPart) : Option LadderStep :=
  if 1 ≤ p.limit ∧ p.limit ≤ 1440 ∧ p.rate ≤ 6000 then some { limit := p.limit, rate := p.rate } else none

def stepIsZero (p : StepPart) : Bool := decide (p.limit = 0 ∧ p.rate = 0)

/-- LOAD-LADDER in range: the ladder and its steps, none for a count of 0 (R25). -/
def readLadder (d : LadderPart) : Option (Fin 16 × Option (List LadderStep)) :=
  if d.count ≤ 6 ∧ d.entries.length ≤ 6 ∧ (d.entries.drop d.count).all stepIsZero then
    match rowIndex 16 d.ladder, readAll readStep (usedEntries ⟨0, 0⟩ d.count d.entries) with
    | some l, some steps => some (l, if d.count = 0 then none else some steps)
    | _, _ => none
  else none

/-- A used calendar entry: 1 EVENT or 2 HOLIDAY (R26, section 11.6). -/
def readCalendarEntry (p : CalendarPartEntry) : Option CalendarEntry :=
  if p.day ≤ lastDay then
    match p.typeCode with
    | 1 => some { day := p.day, dayType := 7 }
    | 2 => some { day := p.day, dayType := 8 }
    | _ => none
  else none

def calendarEntryIsZero (p : CalendarPartEntry) : Bool := decide (p.day = 0 ∧ p.typeCode = 0)

/-- LOAD-CALENDAR in range (R26), its order not yet checked. -/
def readCalendar (d : CalendarPart) : Option (List CalendarEntry) :=
  if d.count ≤ 48 ∧ d.entries.length ≤ 48 ∧ (d.entries.drop d.count).all calendarEntryIsZero then
    readAll readCalendarEntry (usedEntries ⟨0, 0⟩ d.count d.entries)
  else none

/-- The day numbers rise strictly (R26). -/
def risesByDay : List CalendarEntry → Bool
  | a :: b :: rest => decide (a.day < b.day) && risesByDay (b :: rest)
  | _ => true

/-! ## Sales, permits, cover keys -/

/-- The payment a SALE carries (R97). -/
inductive SaleMoney
  | cash (counts : Vector Nat 8)
  | card (amount : Nat)
  | visitor
  deriving DecidableEq, Repr

def SaleMoney.kind : SaleMoney → PayKind
  | .cash _ => .cash
  | .card _ => .card
  | .visitor => .visitor

/-- SALE in range: quote number and payment in the form the pay kind requires (R97). -/
def readSale (f : SaleFields) : Option (Nat × SaleMoney) :=
  if 1 ≤ f.number ∧ f.number ≤ 255 then
    match f.payKind with
    | 1 =>
      if (f.counts.toList.all fun c => decide (c ≤ 50000)) ∧ f.card = 0 then some (f.number, .cash f.counts) else none
    | 2 => if total f.counts = 0 ∧ f.card ≤ 50000 then some (f.number, .card f.card) else none
    | 3 => if total f.counts = 0 ∧ f.card = 0 then some (f.number, .visitor) else none
    | _ => none
  else none

/-- The used mark places of PUT-PERMIT are in range and unlike each other, the others empty (R118 (iii)). -/
def permitMarksOk (count : Nat) (marks : Vector Mark 3) : Bool :=
  let l := marks.toList
  (l.take count).all markInRange && decide (l.take count).Nodup && (l.drop count).all List.isEmpty

/-- The kind of a permit being put, with its fields before any allowance is worked out (R118). -/
inductive PermitShape
  | resident (marks : List Mark)
  | business (marks : List Mark)
  | visitorBook (grant period : Nat)
  deriving DecidableEq, Repr

/-- PUT-PERMIT's kind and its fields in range (R118 (i), (iii), (iv)). -/
def permitShape (f : PermitFields) : Option PermitShape :=
  match f.kind with
  | 1 =>
    if 1 ≤ f.markCount ∧ f.markCount ≤ 3 ∧ permitMarksOk f.markCount f.marks ∧ f.grant = 0 ∧ f.period = 0 then
      some (.resident (f.marks.toList.take f.markCount)) else none
  | 2 =>
    if 1 ≤ f.markCount ∧ f.markCount ≤ 3 ∧ permitMarksOk f.markCount f.marks ∧ f.grant = 0 ∧ f.period = 0 then
      some (.business (f.marks.toList.take f.markCount)) else none
  | 3 =>
    if f.markCount = 0 ∧ permitMarksOk 0 f.marks ∧ f.grant ≤ 6000 ∧ 7 ≤ f.period ∧ f.period ≤ 35 then
      some (.visitorBook f.grant f.period) else none
  | _ => none

/-- Permit state codes: 1 VALID, 2 SUSPENDED. -/
def suspendedOf : Nat → Option Bool
  | 1 => some false
  | 2 => some true
  | _ => none

/-- PUT-PERMIT passes checks (i) to (iv) of R118: whether it is suspended, and its shape. -/
def readPermitFields (f : PermitFields) : Option (Bool × PermitShape) :=
  match suspendedOf f.state, permitShape f with
  | some v, some k =>
    if permitInRange f.number ∧ f.fromDay ≤ lastDay ∧ f.toDay ≤ lastDay ∧ f.plans ≠ 0 ∧ f.fromDay ≤ f.toDay then
      some (v, k) else none
  | _, _ => none

/-- COVER's plan and key in range (R130); the key bytes of the other kind are reserved (R191). -/
def readCover (f : CoverFields) : Option (Fin 8 × CoverKey) :=
  match planOf f.plan, f.keyKind with
  | some p, 1 =>
    if f.zone ≤ 255 ∧ 1 ≤ f.terminal ∧ f.terminal ≤ 16 ∧ 1 ≤ f.sequence ∧ f.sequence ≤ 999999 ∧ f.mark = [] then
      some (p, .ticket { zone := f.zone, terminal := f.terminal, sequence := f.sequence }) else none
  | some p, 2 =>
    if markInRange f.mark ∧ f.zone = 0 ∧ f.terminal = 0 ∧ f.sequence = 0 then some (p, .mark f.mark) else none
  | _, _ => none

/-! ## Fault scopes and kinds (R161, section 11.1) -/

/-- The terminal kinds by their bit number. -/
def termFaultOf : Nat → Option TermFault
  | 0 => some .printerLow | 1 => some .printerEmpty | 2 => some .coinJam | 3 => some .cardFault
  | 4 => some .doorOpen | 5 => some .supplyLow | 6 => some .lineSilent | 7 => some .lineNoisy
  | 8 => some .boxNearFull | 9 => some .boxFull | 10 => some .boxAbsent | 11 => some .boxIdentity
  | 12 => some .unroundedLift | 13 => some .cashVariance
  | _ => none

/-- The zone kinds by their code. -/
def zoneFaultOf : Nat → Option ZoneFault
  | 0 => some .clockUnset | 1 => some .roundLapsed | 2 => some .cashRecordLost | 3 => some .logPressure
  | _ => none

/-- A fault record named by a scope and a kind: 0 for the zone, 1 to 16 for a terminal (R168). -/
inductive FaultName
  | zone (k : ZoneFault)
  | terminal (n : Line) (k : TermFault)
  deriving DecidableEq, Repr

def faultNameOf (scope kind : Nat) : Option FaultName :=
  if scope = 0 then (zoneFaultOf kind).map FaultName.zone
  else match terminalOf scope, termFaultOf kind with
    | some n, some k => some (.terminal n k)
    | _, _ => none

/-- The six kinds a terminal reports (R86, R165). -/
def reportedFaultOf (kind : Nat) : Option TermFault := if kind ≤ 5 then termFaultOf kind else none

/-- FAULT's fields in range: the kind, and whether it is RAISED (1) or CLEARED (2) (R86, section 11.3). -/
def faultReportOf (kind direction : Nat) : Option (TermFault × Bool) :=
  match reportedFaultOf kind, direction with
  | some k, 1 => some (k, true)
  | some k, 2 => some (k, false)
  | _, _ => none

/-- The terminals a command names: one, or all sixteen for 0 (R84, R179). -/
def terminalsOf (n : Nat) : Option (List Line) :=
  if n = 0 then some (List.finRange 16) else (terminalOf n).map fun t => [t]

end Sys2Proof.Machine
end

