-- ==== Sys2Proof/Machine/Book.lean ====
section
/-!
DEFINITION. Machine/Book.lean: the book store (chapter 2): the two banks and their roles, the loads, arming and
the book check, activation, the view a walk reads through, the BOOK_CHANGE notice, reading a book; and the
meanings of its commands.
-/
namespace Sys2Proof.Machine

abbrev Answered := Host.Outcome State Fault Refusal

/-! ## Banks (R20) -/

def BookStore.bank (b : BookStore) : BankId → Book
  | .x => b.bankX
  | .y => b.bankY

def BookStore.setBank (b : BookStore) (id : BankId) (k : Book) : BookStore :=
  match id with
  | .x => { b with bankX := k }
  | .y => { b with bankY := k }

def BookStore.isHeld (b : BookStore) : BankId → Bool
  | .x => b.heldX
  | .y => b.heldY

def BookStore.setHeld (b : BookStore) (id : BankId) (h : Bool) : BookStore :=
  match id with
  | .x => { b with heldX := h }
  | .y => { b with heldY := h }

/-- The bank that is not active (R20). -/
def BookStore.stagedId (b : BookStore) : BankId := b.active.other

def BookStore.activeBook (b : BookStore) : Book := b.bank b.active

def BookStore.stagedBook (b : BookStore) : Book := b.bank b.stagedId

def BookStore.setStaged (b : BookStore) (k : Book) : BookStore := b.setBank b.stagedId k

/-- Is the staged bank held by a walk? -/
def BookStore.stagedHeld (b : BookStore) : Bool := b.isHeld b.stagedId

def planPresent (k : Book) (p : Fin 8) : Bool := (row k.plans p).isSome

/-- Is the plan present in the ACTIVE book, which is in force? -/
def BookStore.activeHasPlan (b : BookStore) (p : Fin 8) : Bool :=
  b.activeState == .inForce && planPresent b.activeBook p

def onBooks (f : BookStore → BookStore) (s : State) : State := { s with books := f s.books }

/-! ## BOOK_CHANGE, addressed notice 0 (R37) -/

def bookChangeBit : BitVec 8 := 1

def setBookChange (e : Entry) : Entry := { e with addressed := e.addressed ||| bookChangeBit }

def resetBookChange (e : Entry) : Entry := { e with addressed := e.addressed &&& ~~~bookChangeBit }

/-- BOOK_CHANGE is set on every ACTIVE terminal (R31, R37 (i)). -/
def setBookChangeActive (s : State) : State :=
  { s with table := changeAll s.table fun e => if e.active then setBookChange e else e }

/-- BOOK_CHANGE is reset on all sixteen terminals (R37 (iv), (v)). -/
def resetBookChangeAll (s : State) : State := { s with table := changeAll s.table resetBookChange }

/-! ## Views and holds (R21, R36) -/

/-- The view a walk beginning now is given (R21). -/
def BookStore.view (b : BookStore) : View :=
  { active := b.active, generation := b.generation,
    staged := if b.stagedState == .armed then some (b.stagedId, b.activationDay.getD 0) else none,
    revision := b.revision }

/-- The store sets the held mark on each bank in the view (R21). -/
def BookStore.hold (b : BookStore) (v : View) : BookStore :=
  match v.staged with
  | none => b.setHeld v.active true
  | some (id, _) => (b.setHeld v.active true).setHeld id true

/-- The retired bank is released: emptied, EMPTY, with check record NONE (R36). -/
def BookStore.release (b : BookStore) : BookStore :=
  { b.setStaged Book.empty with retired := false, stagedState := .empty, check := CheckRecord.none }

/-- Release a retired bank that no walk holds any more (R36). -/
def BookStore.releaseUnheld (b : BookStore) : BookStore :=
  if b.retired && !b.stagedHeld then b.release else b

/-- The holds of a view are cleared, which may release a retired bank (R21, R36). -/
def BookStore.clearHolds (b : BookStore) (v : View) : BookStore :=
  BookStore.releaseUnheld <| match v.staged with
    | none => b.setHeld v.active false
    | some (id, _) => (b.setHeld v.active false).setHeld id false

/-! ## The book check (R30) -/

/-- The number, from `i`, of the first value not above the one before it, `prev`. -/
def firstNotRising (i prev : Nat) : List Nat → Option Nat
  | [] => none
  | n :: ns => if prev < n then firstNotRising (i + 1) n ns else some i

/-- The finding of a ladder, if it is not well ordered (R18, R30 (i)). -/
def ladderFinding (l : Fin 16) (steps : List LadderStep) : List Finding :=
  match steps with
  | [] => [.ladderOrder l 1]
  | st :: rest =>
    match firstNotRising 2 st.limit (rest.map LadderStep.limit) with
    | some i => [.ladderOrder l i]
    | none => if ((st :: rest).getLast?.map LadderStep.limit) == some 1440 then [] else [.ladderOrder l steps.length]

/-- The PERIOD_ORDER finding of a pattern that is not well ordered (R16, R30 (ii); log entry 13 for its index). -/
def periodFinding (p : Fin 8) (t : Fin 9) (periods : List Period) : List Finding :=
  match periods with
  | [] => [.periodOrder p t 1]
  | q :: rest =>
    if q.start ≠ 0 then [.periodOrder p t 1]
    else match firstNotRising 2 q.start (rest.map Period.start) with
      | some i => [.periodOrder p t i]
      | none => []

/-- LADDER_MISSING for each CHARGED period whose ladder is absent, in period order from number `i` (R30 (ii)). -/
def missingLadders (k : Book) (p : Fin 8) (t : Fin 9) (i : Nat) : List Period → List Finding
  | [] => []
  | q :: rest =>
    (match q.kind with
      | .charged l _ => if (row k.ladders l).isNone then [.ladderMissing p t i] else []
      | _ => []) ++ missingLadders k p t (i + 1) rest

/-- The findings of one day pattern of a present plan (R30 (ii)). -/
def patternFindings (k : Book) (p : Fin 8) (plan : Plan) (t : Fin 9) : List Finding :=
  match row plan.patterns t with
  | none => [.patternMissing p t]
  | some periods => periodFinding p t periods ++ missingLadders k p t 1 periods

def planFindings (k : Book) (p : Fin 8) : List Finding :=
  match row k.plans p with
  | none => []
  | some plan => (List.finRange 9).flatMap fun t => patternFindings k p plan t

/-- PLAN_MISSING for each ACTIVE terminal whose plan is absent (R30 (iii)). -/
def terminalFindings (k : Book) (table : Vector Entry 16) : List Finding :=
  (List.finRange 16).flatMap fun n =>
    if (row table n).active && !planPresent k (row table n).plan then [.planMissing (row table n).plan n] else []

/-- Every finding of the book check, in its order (R30). -/
def checkFindings (k : Book) (table : Vector Entry 16) : List Finding :=
  (List.finRange 16).flatMap (fun l =>
    match row k.ladders l with
    | none => []
    | some steps => ladderFinding l steps) ++
  (List.finRange 8).flatMap (fun p => planFindings k p) ++
  terminalFindings k table

/-! ## Loads (R22 to R28) -/

/-- Checks (i) to (iv) of R22. -/
def BookStore.loadRefusal (b : BookStore) : Option Status :=
  if b.retired then some .busy
  else if b.stagedState == .checking then some .busy
  else if b.stagedState == .armed then some .armed
  else if b.stagedHeld then some .busy
  else none

/-- An accepted load: the staged bank changed, EDITING, the revision one higher (R22). -/
def BookStore.loaded (b : BookStore) (k : Book) : BookStore :=
  { b.setStaged k with stagedState := .editing, revision := b.revision + 1 }

/-- Answer an accepted load OK with the new revision (R22). -/
def acceptLoad (tag : Tag) (k : Book) (s : State) : State :=
  let s := onBooks (fun b => b.loaded k) s
  answerPort .office tag .ok (.revision s.books.revision) s

/-- A load or COPY-ACTIVE: R22's checks, then its part (`none` BAD_FIELD), then its further check, which gives the
staged bank's new contents or a refusal. -/
def load {α : Type} (tag : Tag) (part : Option α) (further : Book → α → Except Status Book) (s : State) : State :=
  match s.books.loadRefusal with
  | some r => refuseOffice tag r s
  | none =>
    match part with
    | none => refuseOffice tag .badField s
    | some a =>
      match further s.books.stagedBook a with
      | .error r => refuseOffice tag r s
      | .ok k => acceptLoad tag k s

def noPatterns : Vector (Option (List Period)) 9 := Vector.replicate 9 none

/-- LOAD-PLAN's effect on the book (R23): absent with its patterns, or present with the header, its patterns kept. -/
def Book.withPlan (k : Book) (p : Fin 8) (h : Option PlanHeader) : Book :=
  { k with plans := change k.plans p fun old =>
      h.map fun hd => { header := hd, patterns := (old.map Plan.patterns).getD noPatterns } }

/-- LOAD-DAY's effect (R24): the plan's pattern for the type; refused NO_PLAN for an absent plan. -/
def Book.withDay (k : Book) (p : Fin 8) (t : Fin 9) (periods : List Period) : Except Status Book :=
  match row k.plans p with
  | none => .error .noPlan
  | some plan => .ok { k with plans := put k.plans p (some { plan with patterns := put plan.patterns t (some periods) }) }

/-- LOAD-LADDER's effect (R25). -/
def Book.withLadder (k : Book) (l : Fin 16) (steps : Option (List LadderStep)) : Book :=
  { k with ladders := put k.ladders l steps }

/-- LOAD-CALENDAR's effect and its further check, that the days rise (R26). -/
def Book.withCalendar (k : Book) (entries : List CalendarEntry) : Except Status Book :=
  if risesByDay entries then .ok { k with calendar := entries } else .error .badField

/-- CLEAR-STAGED in EDITING or CHECKING (R28). -/
def BookStore.clearStaged (b : BookStore) : BookStore :=
  { b.setStaged Book.empty with
    stagedState := .empty, activationDay := none, firstBook := false, check := CheckRecord.none
    revision := b.revision + 1 }

/-! ## Arming and activation (R29 to R35) -/

/-- ARM-BOOK's refusals, in its order (R29; log entry 11). -/
def armRefusal (b : BookStore) (todayIs day : Nat) : Option Status :=
  if b.retired then some .busy
  else if b.stagedState == .empty then some .noPlan
  else if b.stagedState == .checking then some .busy
  else if b.stagedState == .armed then some .armed
  else if b.stagedHeld then some .busy
  else if lastDay < day then some .badField
  else if b.activeState == .inForce && decide (day ≤ todayIs) then some .badField
  else none

/-- An accepted ARM-BOOK: CHECKING, check record NONE, and the day or the first-book mark (R29). -/
def BookStore.arm (b : BookStore) (day : Nat) : BookStore :=
  { b with
    stagedState := .checking, check := CheckRecord.none
    activationDay := if b.activeState == .inForce then some day else none
    firstBook := b.activeState == .empty }

/-- A check that passes arms the book (R31). -/
def BookStore.checkPassed (b : BookStore) : BookStore :=
  { b with stagedState := .armed, revision := b.revision + 1,
           check := { outcome := .passed, count := 0, findings := [] } }

/-- A check that fails returns the book to EDITING with its findings (R32). -/
def BookStore.checkFailed (b : BookStore) (found : List Finding) : BookStore :=
  { b with stagedState := .editing, activationDay := none, firstBook := false,
           check := { outcome := .failed, count := found.length, findings := found.take 8 } }

/-- DISARM-BOOK of an ARMED book (R34). -/
def BookStore.disarm (b : BookStore) : BookStore :=
  { b with stagedState := .editing, activationDay := none, firstBook := false, revision := b.revision + 1 }

/-- Is the ARMED book due on this day? (R35 (i), (ii)) -/
def BookStore.due (b : BookStore) (todayIs : Nat) : Bool :=
  b.stagedState == .armed && (b.firstBook || decide (b.activationDay.getD 0 ≤ todayIs))

/-- The banks exchange roles (R35): the former active bank is retired if a walk holds it and emptied if not. -/
def BookStore.activated (b : BookStore) : BookStore :=
  let old := b.active
  let held := b.isHeld old
  let b1 := if held then b else b.setBank old Book.empty
  { b1 with
    active := b.stagedId, activeState := .inForce, stagedState := .empty, retired := held
    activationDay := none, firstBook := false, generation := b.generation + 1 }

/-- The activation comparison of a boundary or step (R35). -/
def activateIfDue (s : State) : State :=
  if s.books.due (today s) then
    resetBookChangeAll (latch .bookActivated (onBooks BookStore.activated s))
  else s

/-- The book store at a warm restart (R39): holds cleared, a retired bank released, a check abandoned. -/
def BookStore.warm (b : BookStore) : BookStore :=
  let b := BookStore.releaseUnheld { b with heldX := false, heldY := false }
  if b.stagedState == .checking then { b with stagedState := .editing, activationDay := none, firstBook := false }
  else b

/-! ## Reading a book (R38) -/

/-- The state code of the book header (section 11.6 (i)). -/
def activeCode : ActiveState → Nat
  | .empty => 0
  | .inForce => 1

def stagedCode : StagedState → Nat
  | .empty => 0
  | .editing => 1
  | .checking => 2
  | .armed => 3

/-- Part `n`, 0 to 97, of a book image (R38). -/
def bookPart (k : Book) (stateCode n : Nat) : BookPart :=
  if n = 0 then
    .header stateCode (Vector.ofFn fun p => (row k.plans p).isSome) (Vector.ofFn fun l => (row k.ladders l).isSome)
      k.calendar.length
  else if n ≤ 8 then
    let p : Fin 8 := Fin.ofNat 8 (n - 1)
    .plan p ((row k.plans p).map Plan.header)
  else if n ≤ 80 then
    let p : Fin 8 := Fin.ofNat 8 ((n - 9) / 9)
    let t : Fin 9 := Fin.ofNat 9 ((n - 9) % 9)
    .day p t ((row k.plans p).bind fun plan => row plan.patterns t)
  else if n ≤ 96 then
    let l : Fin 16 := Fin.ofNat 16 (n - 81)
    .ladder l (row k.ladders l)
  else .calendar k.calendar

/-- The fields a READ-BOOK reply of each book carries besides the part (R38). -/
def bookStamp (b : BookStore) : BookSelector → BookStamp
  | .active => .active b.generation
  | .staged => .staged b.stagedState b.revision (if b.stagedState == .armed then b.activationDay else none)

/-! ## The commands -/

/-- LOAD-PLAN (R22, R23). The part's ranges are the book store's to check (R191). -/
def execLoadPlan (tag : Tag) (part : PlanPart) (s : State) : Answered :=
  .next (officeCommand tag true (load tag (readPlan part) fun k a => .ok (k.withPlan a.1 a.2)) s)

/-- LOAD-DAY (R22, R24). -/
def execLoadDay (tag : Tag) (part : DayPart) (s : State) : Answered :=
  .next (officeCommand tag true (load tag (readDay part) fun k a => k.withDay a.1 a.2.1 a.2.2) s)

/-- LOAD-LADDER (R22, R25). -/
def execLoadLadder (tag : Tag) (part : LadderPart) (s : State) : Answered :=
  .next (officeCommand tag true (load tag (readLadder part) fun k a => .ok (k.withLadder a.1 a.2)) s)

/-- LOAD-CALENDAR (R22, R26). -/
def execLoadCalendar (tag : Tag) (part : CalendarPart) (s : State) : Answered :=
  .next (officeCommand tag true (load tag (readCalendar part) fun k a => k.withCalendar a) s)

/-- COPY-ACTIVE (R22, R27). -/
def execCopyActive (tag : Tag) (s : State) : Answered :=
  .next (officeCommand tag true (fun s =>
    load tag (some ()) (fun _ _ =>
      if s.books.activeState == .inForce then .ok s.books.activeBook else .error .noPlan) s) s)

/-- CLEAR-STAGED (R28). -/
def execClearStaged (tag : Tag) (s : State) : Answered :=
  .next (officeCommand tag true (fun s =>
    if s.books.retired then refuseOffice tag .busy s
    else if s.books.stagedState == .armed then refuseOffice tag .armed s
    else if s.books.stagedHeld then refuseOffice tag .busy s
    else if s.books.stagedState == .empty then refuseOffice tag .already s
    else answerPort .office tag .ok .empty (onBooks BookStore.clearStaged s)) s)

/-- ARM-BOOK (R29). -/
def execArmBook (tag : Tag) (day : Nat) (s : State) : Answered :=
  .next (officeCommand tag true (fun s =>
    match armRefusal s.books (today s) day with
    | some r => refuseOffice tag r s
    | none => answerPort .office tag .ok .empty (onBooks (fun b => b.arm day) s)) s)

/-- The book check completes (R30 to R32); while no check runs there is none to complete (R28). -/
def execBookCheckComplete (s : State) : Answered :=
  .next (whenRunning (fun s =>
    if s.books.stagedState == .checking then
      let found := checkFindings s.books.stagedBook s.table
      if found.isEmpty then setBookChangeActive (latch .bookChecked (onBooks BookStore.checkPassed s))
      else latch .bookChecked (onBooks (fun b => b.checkFailed found) s)
    else s) s)

/-- DISARM-BOOK (R34). -/
def execDisarmBook (tag : Tag) (s : State) : Answered :=
  .next (officeCommand tag true (fun s =>
    if s.books.stagedState == .armed then
      answerPort .office tag .ok .empty (resetBookChangeAll (onBooks BookStore.disarm s))
    else refuseOffice tag .already s) s)

/-- BOOK_ACTIVATION (R35): the book store's comparison at a boundary or step, which comes only while the clock is
SET (R1; log entry 1). -/
def execBookActivation (s : State) : Answered :=
  .next (whenRunning (fun s => if clockSet s then activateIfDue s else s) s)

/-- READ-BOOK's refusals, in the order of R38. -/
def BookStore.readRefusal (b : BookStore) (book : BookSelector) (part : Nat) : Option Status :=
  if 97 < part then some .badField
  else if book == .staged && (b.stagedState == .checking || b.retired) then some .busy
  else none

/-- The part of the selected book, with the book's state code (R38). -/
def BookStore.readPart (b : BookStore) (book : BookSelector) (part : Nat) : BookPart :=
  match book with
  | .active => bookPart b.activeBook (activeCode b.activeState) part
  | .staged => bookPart b.stagedBook (stagedCode b.stagedState) part

/-- READ-BOOK (R38): every reply, a refusal too, carries the fields of the selected book (log entry 21). -/
def execReadBook (tag : Tag) (book : BookSelector) (part : Nat) (s : State) : Answered :=
  .next (officeCommand tag true (fun s =>
    let stamp := bookStamp s.books book
    match s.books.readRefusal book part with
    | some r => answerPort .office tag r (.bookStamp stamp) s
    | none => answerPort .office tag .ok (.bookPart stamp part (s.books.readPart book part)) s) s)

end Sys2Proof.Machine
end

