-- ==== Sys2Proof/Machine/Permit.lean ====
section
/-!
DEFINITION. Machine/Permit.lean: the permit unit (chapter 6): the register, the lazy refresh of a visitor book,
the permit checks of a quote and a sale, the debit, the removal of permits that have run out; and the
meanings of its commands.
-/
namespace Sys2Proof.Machine

/-- The register holds up to 1,536 entries (R115). -/
abbrev registerSize : Nat := 1536

def findPermit (permits : List Permit) (number : Nat) : Option Permit := lookup Permit.number number permits

/-! ## The lazy refresh (R124) -/

/-- The visitor fields brought up to date for a day (R124). -/
def VisitorBook.refreshed (b : VisitorBook) (day : Nat) : VisitorBook :=
  if b.nextRefresh ≤ day then
    { b with allowance := b.grant, nextRefresh := b.nextRefresh + b.period * ((day - b.nextRefresh) / b.period + 1) }
  else b

/-- An entry brought up to date for a day; only a VISITOR_BOOK entry changes (R124). -/
def Permit.refreshed (p : Permit) (day : Nat) : Permit :=
  match p.kind with
  | .visitorBook b => { p with kind := .visitorBook (b.refreshed day) }
  | _ => p

/-- The register with one entry brought up to date (R124). -/
def refreshIn (permits : List Permit) (number day : Nat) : List Permit :=
  permits.map fun p => if p.number = number then p.refreshed day else p

/-- Before a read: the entry is brought up to date for today, and that is written (R124). -/
def refreshPermit (number : Nat) (s : State) : State :=
  { s with permits := refreshIn s.permits number (today s) }

/-! ## Questions (R117) -/

/-- Does the entry cover the plan on the day? (R117) -/
def Permit.covers (p : Permit) (plan : Fin 8) (day : Nat) : Bool :=
  !p.suspended && p.plans.getLsbD plan.val && decide (p.fromDay ≤ day ∧ day ≤ p.toDay)

def Permit.visitorBook? (p : Permit) : Option VisitorBook :=
  match p.kind with
  | .visitorBook b => some b
  | _ => none

/-- The allowance of a VISITOR_BOOK entry; 0 for another kind, which no visitor transaction reads. -/
def Permit.allowance (p : Permit) : Nat := (p.visitorBook?.map VisitorBook.allowance).getD 0

/-- The permit check of a visitor quote or sale: NO_PERMIT, PERMIT_INVALID, or no refusal (R57, R87, R101, R117). -/
def visitorRefusal (p : Option Permit) (plan : Fin 8) (day : Nat) : Option Status :=
  match p with
  | none => some .noPermit
  | some p => if p.visitorBook?.isSome && p.covers plan day then none else some .permitInvalid

/-- The allowance a walk reads for the day of its walk time: as written, or on a later preview day as it would
then stand with no debit between (R57, R125). -/
def workedAllowance (p : Permit) (todayIs day : Nat) : Nat :=
  match p.kind with
  | .visitorBook b => if todayIs < day && decide (b.nextRefresh ≤ day) then b.grant else b.allowance
  | _ => 0

/-! ## The debit (R126) -/

def Permit.debited (p : Permit) (minutes : Nat) : Permit :=
  match p.kind with
  | .visitorBook b => { p with kind := .visitorBook { b with allowance := b.allowance - minutes } }
  | _ => p

/-- Debit the granted minutes, and latch PERMIT_EXHAUSTED where the allowance comes to 0 from above (R126). -/
def debitPermit (number minutes : Nat) (s : State) : State :=
  let before := ((findPermit s.permits number).map Permit.allowance).getD 0
  let s := { s with permits := s.permits.map fun p => if p.number = number then p.debited minutes else p }
  if 0 < before && before - minutes == 0 then latch .permitExhausted s else s

/-! ## Putting (R118 to R120) -/

/-- The visitor fields after a put (R119, R120): an old visitor book, first brought up to date, keeps what has been
spent; any other start is at the grant. -/
def putVisitorBook (old : Option Permit) (todayIs fromDay grant period : Nat) : VisitorBook :=
  match old.bind Permit.visitorBook? with
  | some b =>
    let b := b.refreshed todayIs
    { grant := grant, allowance := min b.allowance grant, period := period, nextRefresh := b.nextRefresh }
  | none => { grant := grant, allowance := grant, period := period, nextRefresh := fromDay + period }

/-- The entry a PUT-PERMIT stores (R119, R120). -/
def putEntry (f : PermitFields) (suspended : Bool) (shape : PermitShape) (old : Option Permit) (todayIs : Nat) :
    Permit :=
  { number := f.number, suspended := suspended, plans := f.plans, fromDay := f.fromDay, toDay := f.toDay
    kind := match shape with
      | .resident m => .resident m
      | .business m => .business m
      | .visitorBook g p => .visitorBook (putVisitorBook old todayIs f.fromDay g p) }

/-! ## Removal (R127) -/

/-- Has the entry run out more than 7 days before the day? -/
def Permit.runOut (p : Permit) (day : Nat) : Bool := decide (p.toDay + 7 < day)

/-- The removal of a day boundary (R127). -/
def removePermits (s : State) : State :=
  { s with permits := s.permits.filter fun p => !p.runOut (today s) }

/-! ## The commands -/

/-- PUT-PERMIT (R118 to R120). -/
def execPutPermit (tag : Tag) (fields : PermitFields) (s : State) : Answered :=
  .next (officeCommand tag true (fun s =>
    match readPermitFields fields with
    | none => refuseOffice tag .badField s
    | some (suspended, shape) =>
      let old := findPermit s.permits fields.number
      if fields.toDay + 7 ≤ today s then refuseOffice tag .badField s
      else if old.isNone && decide (registerSize ≤ s.permits.length) then refuseOffice tag .full s
      else
        let e := putEntry fields suspended shape old (today s)
        let s := { s with permits := upsert Permit.number e s.permits }
        answerPort .office tag .ok (.permitPut e old.isSome s.permits.length) s) s)

/-- DROP-PERMIT (R121). -/
def execDropPermit (tag : Tag) (number : Nat) (s : State) : Answered :=
  .next (officeCommand tag (permitInRange number) (fun s =>
    if (findPermit s.permits number).isNone then refuseOffice tag .noPermit s
    else
      let s := { s with permits := dropKey Permit.number number s.permits }
      answerPort .office tag .ok (.heldCount s.permits.length) s) s)

/-- SET-PERMIT-STATE (R122). -/
def execSetPermitState (tag : Tag) (number state : Nat) (s : State) : Answered :=
  .next (officeCommand tag (permitInRange number && (suspendedOf state).isSome) (fun s =>
    match findPermit s.permits number with
    | none => refuseOffice tag .noPermit s
    | some p =>
      if some p.suspended = suspendedOf state then refuseOffice tag .already s
      else
        let p := { p with suspended := !p.suspended }
        answerPort .office tag .ok (.permitEntry p) { s with permits := upsert Permit.number p s.permits }) s)

/-- The entry with the lowest number above the one given (R123, NEXT). -/
def nextPermit (permits : List Permit) (number : Nat) : Option Permit :=
  permits.find? fun p => decide (number < p.number)

/-- READ-PERMIT (R123): a read under R124; every reply of the permit unit carries the held count. -/
def execReadPermit (tag : Tag) (number selector : Nat) (s : State) : Answered :=
  .next (officeCommand tag true (fun s =>
    let held := s.permits.length
    if number ≤ 9999999 then
      match selector with
      | 1 =>
        if number = 0 then answerPort .office tag .badField (.heldCount held) s
        else
          let s := refreshPermit number s
          match findPermit s.permits number with
          | none => answerPort .office tag .noPermit (.heldCount held) s
          | some p => answerPort .office tag .ok (.permit (some p) held) s
      | 2 =>
        match nextPermit s.permits number with
        | none => answerPort .office tag .ok (.permit none held) s
        | some p => answerPort .office tag .ok (.permit (some (p.refreshed (today s))) held) (refreshPermit p.number s)
      | _ => answerPort .office tag .badField (.heldCount held) s
    else answerPort .office tag .badField (.heldCount held) s) s)

/-- PERMIT_REMOVAL (R127): the permit unit's removal at a day boundary, which comes only while the clock is SET
(log entry 1). -/
def execPermitRemoval (s : State) : Answered :=
  .next (whenRunning (fun s => if clockSet s then removePermits s else s) s)

end Sys2Proof.Machine
end

