-- ==== Sys2Proof/Machine/Clock.lean ====
section
/-!
DEFINITION. Machine/Clock.lean: the override table of the zone clock and the resolution of a day's type (R8 to
R12), and the meanings of its commands. The clock's boundaries and steps stand in Machine/Boundary.lean.
-/
namespace Sys2Proof.Machine

/-- The override table holds up to 8 entries (R9). -/
abbrev overrideRoom : Nat := 8

/-- The weekday type of a day: day 0 is a MON (00_scope.md 1.5). -/
def weekday (day : Nat) : Fin 9 := Fin.ofNat 9 (day % 7)

/-- The type of a day under a book: override, else calendar, else weekday (R8). -/
def dayType (overrides : List Override) (k : Book) (day : Nat) : Fin 9 :=
  match lookup Override.day day overrides with
  | some o => o.dayType
  | none =>
    match lookup CalendarEntry.day day k.calendar with
    | some e => e.dayType
    | none => weekday day

/-- A change of the override table alone. -/
def onOverrides (f : List Override → List Override) (s : State) : State :=
  { s with clock := { s.clock with overrides := f s.clock.overrides } }

/-- The removal of a day boundary: entries before the new day leave (R12). -/
def removeOverrides (s : State) : State :=
  onOverrides (fun t => t.filter fun o => decide (today s ≤ o.day)) s

/-- The whole table, which the replies to SET-OVERRIDE and DROP-OVERRIDE return (R9). -/
def answerOverrides (tag : Tag) (status : Status) (s : State) : State :=
  answerPort .office tag status (.overrides s.clock.overrides) s

/-- SET-OVERRIDE (R10): a replacement is accepted even when the table is full. -/
def execSetOverride (tag : Tag) (day dayType : Nat) (s : State) : Answered :=
  .next (officeCommand tag true (fun s =>
    match dayTypeOf dayType with
    | none => answerOverrides tag .badField s
    | some t =>
      if lastDay < day ∨ day < today s then answerOverrides tag .badField s
      else if (lookup Override.day day s.clock.overrides).isNone &&
          decide (overrideRoom ≤ s.clock.overrides.length) then answerOverrides tag .full s
      else answerOverrides tag .ok (onOverrides (upsert Override.day { day := day, dayType := t }) s)) s)

/-- DROP-OVERRIDE (R11). -/
def execDropOverride (tag : Tag) (day : Nat) (s : State) : Answered :=
  .next (officeCommand tag true (fun s =>
    if lastDay < day then answerOverrides tag .badField s
    else if (lookup Override.day day s.clock.overrides).isNone then answerOverrides tag .already s
    else answerOverrides tag .ok (onOverrides (dropKey Override.day day) s)) s)

/-- OVERRIDE_REMOVAL (R12): the clock's removal at a day boundary, which comes only while it is SET (log entry 1). -/
def execOverrideRemoval (s : State) : Answered :=
  .next (whenRunning (fun s => if clockSet s then removeOverrides s else s) s)

end Sys2Proof.Machine
end

