-- ==== Sys2Proof/Machine/Walk.lean ====
section
/-!
DEFINITION. Machine/Walk.lean: the walk of the quote engine (chapter 3), stage by stage, as pure functions of the
tariff the walk's view gives, the session log it reads at stage (a) and the allowance it reads at stage (c).
A Span is what the spec calls a period instance; a span charges its minutes by its ladder.
-/
namespace Sys2Proof.Machine

/-! ## Spans of the tariff (R17, R46, R47) -/

/-- What a walk reads the tariff through: the books of its view, the override table, its plan and mode. -/
structure Tariff where
  active : Book
  staged : Option (Book × Nat)
  overrides : List Override
  plan : Fin 8
  test : Bool
  deriving DecidableEq, Repr

/-- The built-in test tariff's header (R46). -/
def testHeader : PlanHeader :=
  { minuteStep := 1, rounding := .floor, coinUnit := 10, minimumCharge := 0, noReturn := 0 }

/-- The test tariff's one span of a day: CHARGED at 120 p/h with a maximum stay of 1,440 (R46). -/
def testSpan (day : Nat) : Span :=
  { start := day * minutesPerDay, stop := (day + 1) * minutesPerDay,
    kind := .charged [{ limit := 1440, rate := 120 }] 1440, byStaged := false, header := testHeader }

/-- Does the staged bank serve the day? (R46 (ii), R47) -/
def Tariff.servedByStaged (t : Tariff) (day : Nat) : Bool :=
  match t.staged with
  | some (_, from_) => !t.test && decide (from_ ≤ day)
  | none => false

/-- The book that serves a day (R47). -/
def Tariff.book (t : Tariff) (day : Nat) : Book :=
  match t.staged with
  | some (k, _) => if t.servedByStaged day then k else t.active
  | none => t.active

/-- The period of a well-ordered pattern that holds a minute of day, and the minute at which it ends (R16). -/
def periodAt (minute : Nat) : List Period → Option (Period × Nat)
  | [] => none
  | p :: rest =>
    let ends := (rest.head?.map Period.start).getD minutesPerDay
    if p.start ≤ minute ∧ minute < ends then some (p, ends) else periodAt minute rest

/-- The span of a day that a period gives under a book (R17). -/
def spanOf (k : Book) (plan : Plan) (byStaged : Bool) (day : Nat) (p : Period) (ends : Nat) : Span :=
  { start := day * minutesPerDay + p.start, stop := day * minutesPerDay + ends,
    kind := match p.kind with
      | .charged l m => .charged ((row k.ladders l).getD []) m
      | .free => .free
      | .noSale => .noSale
    byStaged := byStaged, header := plan.header }

/-- The span that holds a zone minute, counting from its start and excluding its end; none where the serving book
lacks the plan (R17, R47). -/
def Tariff.spanAt (t : Tariff) (z : ZoneMinute) : Option Span :=
  if t.test then some (testSpan (dayOf z))
  else
    let k := t.book (dayOf z)
    match row k.plans t.plan with
    | none => none
    | some plan =>
      match row plan.patterns (dayType t.overrides k (dayOf z)) with
      | none => none
      | some periods =>
        match periodAt (minuteOf z) periods with
        | none => none
        | some (p, ends) => some (spanOf k plan (t.servedByStaged (dayOf z)) (dayOf z) p ends)

/-! ## Conditions (R49, R50) -/

/-- Every condition raised: by the walk being made, and by the reverse walk before it (R50, R69). -/
def WalkContext.raised (c : WalkContext) : CondSet := c.conds ||| ((c.priced.map Priced.conds).getD 0)

/-- The walk completes refused with a status that names no condition. -/
def refuseWalk (c : WalkContext) (s : Status) : Stage := .done (.refused s none c.raised)

/-- The walk completes refused HELD by a condition (R50). -/
def holdWalk (c : WalkContext) (k : Cond) : Stage := .done (.refused .held (some k) c.raised)

def WalkContext.withCond (c : WalkContext) (k : Cond) : WalkContext := { c with conds := c.conds ||| k.bit }

/-- Raise a condition: the walk goes on as `next` where the PASS set holds it, and is refused HELD where not (R50). -/
def raiseCond (pass : CondSet) (k : Cond) (c : WalkContext) (next : WalkContext → Stage) : Stage :=
  let c := c.withCond k
  if k.isIn pass then next c else holdWalk c k

/-! ## Stage (a): link and return (R52 to R54) -/

/-- A candidate of stage (a), and of a cover query by mark: not TEST, of the mark and the plan (R52, R136). -/
def Session.isCandidate (r : Session) (plan : Fin 8) (m : Mark) : Bool :=
  r.kind != .test && r.mark == some m && r.plan == plan

/-- The later expiry, or the higher serial among equal expiries (R52). -/
def Session.after (a b : Session) : Bool :=
  decide (b.expiry < a.expiry ∨ (b.expiry = a.expiry ∧ b.serial < a.serial))

/-- The record chosen among the candidates (R52, R136). -/
def chosenSession (log : List Session) (plan : Fin 8) (m : Mark) : Option Session :=
  log.foldl (fun best r =>
    if r.isCandidate plan m then
      match best with
      | none => some r
      | some b => if r.after b then some r else some b
    else best) none

/-- The context of a walk whose start is the walk time (R52, R54). -/
def unlinked (time : ZoneMinute) : WalkContext :=
  { link := { start := time, serial := none, preload := none }, conds := 0, priced := none }

/-- The context of a walk linked to a record (R53). -/
def linkedTo (r : Session) : WalkContext :=
  { link := { start := r.expiry, serial := some r.serial, preload := some (r.finalStart, r.finalMinutes) },
    conds := 0, priced := none }

/-- Stage (a) (R52 to R54). -/
def linkStage (tar : Tariff) (log : List Session) (w : Walk) : Stage :=
  match w.mode, w.request.mark with
  | .normal, some m =>
    match chosenSession log w.plan m with
    | none => .checks (unlinked w.time)
    | some r =>
      if w.time < r.expiry then .checks (linkedTo r)
      else match tar.spanAt w.time with
        | none => refuseWalk (unlinked w.time) .noPlan
        | some sp =>
          if 0 < sp.header.noReturn ∧ w.time < r.expiry + sp.header.noReturn then
            raiseCond w.pass .return_ (unlinked w.time) .checks
          else .checks (unlinked w.time)
  | _, _ => .checks (unlinked w.time)

/-! ## Stage (b): start checks (R55, R66) -/

/-- What the forward walk spends: the payment asked, or the price a reverse walk formed (R69). -/
def effectivePayment (w : Walk) (c : WalkContext) : Payment :=
  match w.request.ask, c.priced with
  | .forward p, _ => p
  | .reverse byCard _, some k => if byCard then .card k.price else .cash k.price
  | .reverse byCard _, none => if byCard then .card 0 else .cash 0

/-- The wanted expiry, while the reverse walk of a PRICE is being made. -/
def reverseWanted (w : Walk) (c : WalkContext) : Option ZoneMinute :=
  match w.request.ask, c.priced with
  | .reverse _ wanted, none => some wanted
  | _, _ => none

/-- The amount of a money payment is below the minimum charge (R55 (ii)). -/
def isShort (p : Payment) (minimum : Nat) : Bool :=
  match p with
  | .cash a => decide (a < minimum)
  | .card a => decide (a < minimum)
  | .visitor _ _ => false

/-- Stage (b) (R55); a reverse walk makes check (i) alone and goes on to place its wanted expiry (R66). The forward walk of a
PRICE (R69) comes here too, and finds its start span again: an override edited since the reverse walk is seen (log entry 29). -/
def checksStage (tar : Tariff) (w : Walk) (c : WalkContext) : Stage :=
  match tar.spanAt c.link.start with
  | none => refuseWalk c .noPlan
  | some sp =>
    if sp.kind = .noSale then holdWalk (c.withCond .noSale) .noSale
    else if (reverseWanted w c).isSome then .place c sp
    else if isShort (effectivePayment w c) sp.header.minimumCharge then
      raiseCond w.pass .short c fun c => .budget c sp
    else .budget c sp

/-! ## Stage (d): buying minutes (R58 to R61) -/

/-- The cost in sixtieths of `n` charged minutes from count `c` (R18, R68). -/
def ladderCost (c n : Nat) : List LadderStep → Nat
  | [] => 0
  | st :: rest =>
    if n = 0 then 0
    else if st.limit ≤ c then ladderCost c n rest
    else
      let run := min (st.limit - c) n
      run * st.rate + ladderCost (c + run) (n - run) rest

/-- Buy with money in a CHARGED span, one ladder step at a time (R60): the minutes bought, the budget left, and the
rate of the minute that was not covered where the walk stops for want of budget. An empty budget stops the walk before
any run, one at rate 0 too, as R60 says. R69 says that the forward walk of a PRICE reaches W′ unless CAP, LONG or NOSALE
stops it; where the last minutes up to W′ cost nothing and the price is spent before them, the two differ, and the model
follows R60 (DESIGN CHOICE, log entry 27). -/
def buyMoney (c room budget : Nat) : List LadderStep → Nat × Nat × Option Nat
  | [] => (0, budget, if room = 0 then none else some 0)
  | st :: rest =>
    if room = 0 then (0, budget, none)
    else if st.limit ≤ c then buyMoney c room budget rest
    else if budget = 0 then (0, 0, some 0)
    else
      let run := min (st.limit - c) room
      let n := if st.rate = 0 then run else min run (budget / st.rate)
      let left := budget - n * st.rate
      if n < run then (n, left, some st.rate)
      else
        let more := buyMoney (c + n) (room - n) left rest
        (n + more.1, more.2)

/-- Buy with visitor minutes: one allowance minute each, whatever the ladder (R60 (iii)). -/
def buyVisitor (room budget : Nat) : Nat × Nat × Option Nat :=
  (min room budget, budget - min room budget, if budget < room then some 0 else none)

/-- Buying in a span by the kind of payment (R60). -/
def buy (p : Payment) (c room budget : Nat) (steps : List LadderStep) : Nat × Nat × Option Nat :=
  match p with
  | .visitor _ _ => buyVisitor room budget
  | _ => buyMoney c room budget steps

/-- The trail on entering a span at its buying point with its count at entry. -/
def Trail.enter (t : Trail) (sp : Span) (buyingPoint entryCount : Nat) : Trail :=
  { t with
    entered := t.entered + 1, bought := t.bought + t.inSpan, usedStaged := t.usedStaged || sp.byStaged
    span := sp, buyingPoint := buyingPoint, entryCount := entryCount, inSpan := 0 }

/-- The minutes a CHARGED span has room for from a point with a count (R60). -/
def roomIn (sp : Span) (point count maximumStay : Nat) : Nat := min (sp.stop - point) (maximumStay - count)

/-- Cross a FREE span, or buy in a CHARGED one, from a point with a count at entry (R59 to R61). -/
def workSpan (pass : CondSet) (p : Payment) (c : WalkContext) (t : Trail) (sp : Span)
    (point count : Nat) : Stage :=
  let t1 := t.enter sp point count
  match sp.kind with
  | .noSale => holdWalk (c.withCond .noSale) .noSale
  | .free =>
    if t.entered = 0 ∧ t.budget = 0 then .finish c t1 .freeStart
    else .forward c { t1 with point := sp.stop }
  | .charged steps maximumStay =>
    let got := buy p count (roomIn sp point count maximumStay) t.budget steps
    let t2 := { t1 with point := point + got.1, budget := got.2.1, inSpan := got.1, chargedMet := true }
    match got.2.2 with
    | some rate => .finish c t2 (.want rate)
    | none =>
      if t2.point = sp.stop then
        if t2.budget = 0 then .finish c t2 .exhausted else .forward c t2
      else if t2.budget = 0 then .finish c t2 (.want 0)
      else raiseCond pass .cap c fun c => .finish c t2 .cap

/-- The count at which the start span begins: the record's minutes, cut to the maximum stay, where the spans are one
(R53). R69 gives the forward walk of a PRICE the same preload: what stays the same is the pair that stage (a) took from the record,
and the count is made of it anew for the start span found then (DESIGN CHOICE, log entry 29). -/
def preloadOf (l : Link) (sp : Span) : Nat :=
  match l.preload, sp.kind with
  | some (start, minutes), .charged _ maximumStay => if start = sp.start then min minutes maximumStay else 0
  | _, _ => 0

/-- Stage (d) begins with the start span and the budget of stage (c). -/
def beginForward (pass : CondSet) (p : Payment) (c : WalkContext) (first : Span) (budget : Nat) : Stage :=
  let s := c.link.start
  let t : Trail :=
    { startByStaged := first.byStaged, point := s, entered := 0, chargedMet := false, budget := budget,
      bought := 0, usedStaged := false, span := first, buyingPoint := s,
      entryCount := preloadOf c.link first, inSpan := 0 }
  workSpan pass p c t first s (preloadOf c.link first)

def isCharged (sp : Span) : Bool :=
  match sp.kind with
  | .charged _ _ => true
  | _ => false

/-- Checks (iii) to (v) of R58 before a later span is entered: EDGE (R48), the plan, NOSALE and CARRY. `stopHere` is
what a passed NOSALE does, `enter` what entering does. -/
def enterNext (tar : Tariff) (pass : CondSet) (startByStaged chargedMet : Bool) (point : ZoneMinute) (c : WalkContext)
    (stopHere : WalkContext → Stage) (enter : WalkContext → Span → Stage) : Stage :=
  let look := fun c : WalkContext =>
    match tar.spanAt point with
    | none => refuseWalk c .noPlan
    | some sp =>
      if sp.kind = .noSale then raiseCond pass .noSale c stopHere
      else if isCharged sp && chargedMet then raiseCond pass .carry c fun c => enter c sp
      else enter c sp
  if tar.servedByStaged (dayOf point) != startByStaged then raiseCond pass .edge c look else look c

/-- The walk is about to enter a 17th span, or one after day 65,535 (R58 (i), (ii)). -/
def tooLong (entered : Nat) (point : ZoneMinute) : Bool := decide (16 ≤ entered ∨ lastDay < dayOf point)

/-- Stage (d), one later span (R58 to R61). The buying point of the span is the point the walk has reached. R62 names the
span's start, and the two differ only where an override edit has made the next span of the day begin before that point;
the final-instance start is that span's own start either way (DESIGN CHOICE, log entry 26). -/
def forwardStage (tar : Tariff) (w : Walk) (c : WalkContext) (t : Trail) : Stage :=
  if tooLong t.entered t.point then raiseCond w.pass .long c fun c => .finish c t .long
  else enterNext tar w.pass t.startByStaged t.chargedMet t.point c (fun c => .finish c t .noSale)
    fun c sp => workSpan w.pass (effectivePayment w c) c t sp t.point 0

/-! ## Stage (e): rounding (R62, R63) -/

/-- `num / den` minutes rounded to a multiple of the step (R63). -/
def roundTo (mode : Rounding) (step num den : Nat) : Nat :=
  let unit := step * den
  let k := num / unit
  let rest := num % unit
  let up := match mode with
    | .floor => false
    | .ceil => decide (0 < rest)
    | .halfUp => decide (unit ≤ 2 * rest)
    | .halfEven => decide (unit < 2 * rest) || (decide (2 * rest = unit) && decide (k % 2 = 1))
  (if up then k + 1 else k) * step

/-- Does the walk apply rounding? After want of budget or CAP, inside a CHARGED last span (R62). -/
def StopKind.rounds : StopKind → Bool
  | .want _ => true
  | .cap => true
  | _ => false

/-- The whole and fractional minutes of the last span, as a numerator and denominator (R62). -/
def boughtFraction (p : Payment) (t : Trail) (why : StopKind) : Nat × Nat :=
  match why, p with
  | .want _, .visitor _ _ => (t.inSpan, 1)
  | .want rate, _ => if rate = 0 then (t.inSpan, 1) else (t.inSpan * rate + t.budget, rate)
  | _, _ => (t.inSpan, 1)

/-- The clamps of a value rounded up (R63 (i) to (iii)). -/
def clampRounded (p : Payment) (t : Trail) (value : Nat) : Nat :=
  let v := min value (t.span.stop - t.buyingPoint)
  let v := match t.span.kind with
    | .charged _ maximumStay => min v (maximumStay - t.entryCount)
    | _ => v
  match p with
  | .visitor _ _ => min v (t.inSpan + t.budget)
  | _ => v

/-- The rounded and clamped minutes of the last span (R63). -/
def roundedMinutes (p : Payment) (t : Trail) (why : StopKind) : Nat :=
  let x := boughtFraction p t why
  let v := roundTo t.span.header.rounding t.span.header.minuteStep x.1 x.2
  if x.1 < v * x.2 then clampRounded p t v else v

/-! ## Stage (f): the result (R64, R65) -/

/-- The excess is returned where the walk stopped by CAP, LONG or NOSALE (R64 (i)). -/
def excessOf (t : Trail) : StopKind → Nat
  | .cap => t.budget / 60
  | .long => t.budget / 60
  | .noSale => t.budget / 60
  | _ => 0

/-- Price and excess, or granted minutes (R64). -/
def termsOf (p : Payment) (t : Trail) (why : StopKind) (lastMinutes : Nat) : Terms :=
  match p with
  | .cash a => .money a (a - excessOf t why) (excessOf t why)
  | .card a => .money a (a - excessOf t why) (excessOf t why)
  | .visitor _ permit => .visitor permit (t.bought + lastMinutes)

/-- The result of a forward walk whose last span has `minutes` (R64, R65). -/
def resultOf (w : Walk) (c : WalkContext) (t : Trail) (why : StopKind) (minutes : Nat) : WalkResult :=
  let p := effectivePayment w c
  { plan := w.plan, payKind := p.kind, mode := w.mode, walkTime := w.time, start := c.link.start,
    expiry := if why.rounds then t.buyingPoint + minutes else t.point,
    terms := termsOf p t why minutes, mark := w.request.mark, linked := c.link.serial,
    finalStart := t.span.start, finalMinutes := if isCharged t.span then t.entryCount + minutes else 0,
    conds := c.raised, generation := w.view.generation, revision := w.view.revision,
    usedStaged := t.usedStaged, wanted := c.priced.map Priced.wanted }

/-- Stages (e) and (f) (R62 to R65). -/
def finishStage (w : Walk) (c : WalkContext) (t : Trail) (why : StopKind) : Stage :=
  let p := effectivePayment w c
  if why.rounds then
    let v := roundedMinutes p t why
    let x := boughtFraction p t why
    if v * x.2 = x.1 then .done (.result (resultOf w c t why v))
    else raiseCond w.pass .round c fun c => .done (.result (resultOf w c t why v))
  else .done (.result (resultOf w c t why t.inSpan))

/-! ## Stage (c): the budget (R56, R57) -/

/-- A number of minutes rounded up to a multiple of the step (R57). -/
def stepsUp (n step : Nat) : Nat := (n + (step - 1)) / step * step

/-- The visitor budget from the allowance read, raising THIN where it is below the wanted steps (R57). -/
def visitorBudget (w : Walk) (c : WalkContext) (first : Span) (minutes permit allowance : Nat) : Stage :=
  let g := first.header.minuteStep
  let p := Payment.visitor minutes permit
  if stepsUp minutes g ≤ allowance then beginForward w.pass p c first (stepsUp minutes g)
  else
    let figure := allowance / g * g
    if figure = 0 then refuseWalk (c.withCond .thin) .thin
    else raiseCond w.pass .thin c fun c => beginForward w.pass p c first figure

/-! ## The reverse walk (R66 to R69) -/

/-- The end of the last CHARGED span before `z`, looked for no further back than the start span (R67 (i)): none where
there is none; the inner none where a serving book lacks the plan. -/
def lastChargedBefore (tar : Tariff) (s : ZoneMinute) : Nat → ZoneMinute → Option (Option Span)
  | 0, _ => none
  | fuel + 1, z =>
    if z ≤ s then none
    else match tar.spanAt (z - 1) with
      | none => some none
      | some sp => if isCharged sp then some (some sp) else lastChargedBefore tar s fuel sp.start

/-- Step (ii) of R67: the wanted expiry on the grid of its CHARGED span. -/
def gridWanted (sp : Span) (s wanted : ZoneMinute) : ZoneMinute :=
  let from_ := if sp.start ≤ s then s else sp.start
  let off := (wanted - from_) % sp.header.minuteStep
  if off = 0 then wanted else min (wanted + (sp.header.minuteStep - off)) sp.stop

/-- The start of a reverse walk towards its effective wanted expiry (R68). -/
def reverseTrail (first : Span) (s wanted : ZoneMinute) : ReverseTrail :=
  { first := first, point := s, entered := 0, chargedMet := false, cost := 0, lastChargedEnd := none, wanted := wanted }

/-- The wanted expiry moved back to the last CHARGED end walked, after NOSALE or LONG (R68 (ii)). -/
def stopReverse (t : ReverseTrail) (c : WalkContext) : Stage :=
  match t.lastChargedEnd with
  | none => refuseWalk c .badField
  | some e => if e ≤ c.link.start then refuseWalk c .badField else .price c t.first t.cost e

/-- Walk one span towards the wanted expiry, summing the cost (R68). -/
def reverseSpan (pass : CondSet) (c : WalkContext) (t : ReverseTrail) (sp : Span) (point count : Nat) : Stage :=
  match sp.kind with
  | .noSale => holdWalk (c.withCond .noSale) .noSale
  | .free =>
    if t.wanted ≤ sp.stop then .price c t.first t.cost t.wanted
    else .reverse c { t with point := sp.stop, entered := t.entered + 1 }
  | .charged steps maximumStay =>
    let room := roomIn sp point count maximumStay
    if t.wanted - point ≤ room then
      .price c t.first (t.cost + ladderCost count (t.wanted - point) steps) t.wanted
    else if point + room = sp.stop then
      .reverse c { t with
        point := sp.stop, entered := t.entered + 1, chargedMet := true
        cost := t.cost + ladderCost count room steps, lastChargedEnd := some sp.stop }
    else raiseCond pass .cap c fun c =>
      let kept := room / sp.header.minuteStep * sp.header.minuteStep
      if point + kept ≤ c.link.start then refuseWalk c .badField
      else .price c t.first (t.cost + ladderCost count kept steps) (point + kept)

/-- The reverse walk begins with the start span. -/
def beginReverse (pass : CondSet) (c : WalkContext) (first : Span) (wanted : ZoneMinute) : Stage :=
  reverseSpan pass c (reverseTrail first c.link.start wanted) first c.link.start (preloadOf c.link first)

/-- R66 and R67: place the wanted expiry. Where the book serving W's own instance lacks the plan, W cannot be placed, and the walk
is refused NO_PLAN here, before an instance is entered and before EDGE is raised (DESIGN CHOICE, log entry 32). -/
def placeStage (tar : Tariff) (w : Walk) (c : WalkContext) (first : Span) : Stage :=
  match reverseWanted w c with
  | none => refuseWalk c .badField
  | some wanted =>
    let s := c.link.start
    if wanted ≤ s then refuseWalk c .badField
    else match tar.spanAt (wanted - 1) with
      | none => refuseWalk c .noPlan
      | some sp =>
        let target : Option (Option (Span × ZoneMinute)) :=
          if isCharged sp then some (some (sp, wanted))
          else (lastChargedBefore tar s (sp.start + 1) sp.start).map fun f => f.map fun q => (q, q.stop)
        match target with
        | none => refuseWalk c .badField
        | some none => refuseWalk c .noPlan
        | some (some (q, moved)) =>
          if moved ≤ s then refuseWalk c .badField
          else
            let from_ := if q.start ≤ s then s else q.start
            if (moved - from_) % q.header.minuteStep = 0 then beginReverse w.pass c first moved
            else raiseCond w.pass .round c fun c => beginReverse w.pass c first (gridWanted q s moved)

/-- The reverse walk, one later span (R58, R68). -/
def reverseStage (tar : Tariff) (w : Walk) (c : WalkContext) (t : ReverseTrail) : Stage :=
  if tooLong t.entered t.point then raiseCond w.pass .long c (stopReverse t)
  else enterNext tar w.pass t.first.byStaged t.chargedMet t.point c (stopReverse t)
    fun c sp => reverseSpan w.pass c t sp t.point 0

/-- The price of a cost in sixtieths under a header (R69 (i) to (iv)). -/
def priceOf (h : PlanHeader) (cost : Nat) : Nat :=
  let p := max (max ((cost + 59) / 60) h.minimumCharge) h.coinUnit
  stepsUp p h.coinUnit

/-- R69: form the price, and begin the forward walk of it with the same link. -/
def priceStage (c : WalkContext) (first : Span) (cost : Nat) (wanted : ZoneMinute) : Stage :=
  let p := priceOf first.header cost
  if 50000 < p then refuseWalk c .badField
  else .checks { c with conds := 0, priced := some { wanted := wanted, price := p, conds := c.conds } }

/-! ## One stage -/

/-- What a stage other than (c) of a visitor walk makes of a walk: it reads the tariff and, at (a), the log. -/
def nextStage (tar : Tariff) (log : List Session) (w : Walk) : Stage :=
  match w.stage with
  | .link => linkStage tar log w
  | .checks c => checksStage tar w c
  | .budget c first =>
    match effectivePayment w c with
    | .cash a => beginForward w.pass (.cash a) c first (60 * a)
    | .card a => beginForward w.pass (.card a) c first (60 * a)
    | .visitor _ _ => refuseWalk c .badField
  | .forward c t => forwardStage tar w c t
  | .finish c t why => finishStage w c t why
  | .place c first => placeStage tar w c first
  | .reverse c t => reverseStage tar w c t
  | .price c first cost wanted => priceStage c first cost wanted
  | .done o => .done o

end Sys2Proof.Machine
end

