-- ==== Sys2Proof/Machine/Totals.lean ====
section
/-!
DEFINITION. Machine/Totals.lean: the daily totals of the sale unit (section 5.7): a terminal's day records, the
record of a day created when it is needed, and what a sale and a walk report add to today's.
-/
namespace Sys2Proof.Machine

/-- A terminal holds up to 8 day records (R110). -/
abbrev totalsRoom : Nat := 8

/-- The upper end of a value of a day record (R110). -/
abbrev topValue : Nat := 4294967295

/-- The upper end of a count of a day record (R110). -/
abbrev topCount : Nat := 65535

/-- A new day record (R111). -/
def DayRecord.blank (day : Nat) : DayRecord :=
  { day := day, cashValue := 0, cardValue := 0, overpaidValue := 0, visitorMinutes := 0, testCashValue := 0,
    cashSales := 0, cardSales := 0, visitorSales := 0, testSales := 0, quotesMade := 0, quotesHeld := 0, conds := 0 }

/-- The list with a record for the day: one is created where none is held, the lowest day being dropped first where
8 are held (R111). -/
def withDayRecord (day : Nat) (l : List DayRecord) : List DayRecord :=
  if (lookup DayRecord.day day l).isSome then l
  else upsert DayRecord.day (DayRecord.blank day) (if totalsRoom ≤ l.length then l.drop 1 else l)

/-- A change of the record for a day, created where none is held (R111 (ii)). -/
def onDayRecord (day : Nat) (f : DayRecord → DayRecord) (l : List DayRecord) : List DayRecord :=
  (withDayRecord day l).map fun r => if r.day = day then f r else r

/-- A change of a terminal's record for today (R112). -/
def onToday (n : Line) (f : DayRecord → DayRecord) (s : State) : State :=
  { s with sales := { s.sales with totals := change s.sales.totals n (onDayRecord (today s) f) } }

/-- What a committed sale adds (R110, R112 (i)): the count of its kind, and the values its kind and payment give;
`paid` is the coin total or card amount. -/
def DayRecord.withSale (r : DayRecord) (kind : SessionKind) (payment : SessionPayment) (paid overpaid : Nat) :
    DayRecord :=
  match kind with
  | .paidCash =>
    { r with cashSales := saturate topCount r.cashSales 1, cashValue := saturate topValue r.cashValue paid,
             overpaidValue := saturate topValue r.overpaidValue overpaid }
  | .paidCard =>
    { r with cardSales := saturate topCount r.cardSales 1, cardValue := saturate topValue r.cardValue paid }
  | .visitor =>
    { r with visitorSales := saturate topCount r.visitorSales 1,
             visitorMinutes := saturate topValue r.visitorMinutes (match payment with
               | .visitor _ granted => granted
               | _ => 0) }
  | .test =>
    { r with testSales := saturate topCount r.testSales 1,
             testCashValue := saturate topValue r.testCashValue (match payment with
               | .cash _ => paid
               | _ => 0) }

/-- The conditions an outcome raised. -/
def WalkOutcome.conds : WalkOutcome → CondSet
  | .result r => r.conds
  | .refused _ _ c => c

/-- The condition that refused an outcome HELD, if one did. -/
def WalkOutcome.heldBy : WalkOutcome → Option Cond
  | .result _ => none
  | .refused _ k _ => k

/-- What a walk report adds (R112 (ii)). -/
def DayRecord.withWalk (r : DayRecord) (o : WalkOutcome) : DayRecord :=
  { r with quotesMade := saturate topCount r.quotesMade 1,
           quotesHeld := if o.heldBy.isSome then saturate topCount r.quotesHeld 1 else r.quotesHeld,
           conds := r.conds ||| o.conds }

/-- The engine reports a walk to the sale unit (R43 (ii), R112). -/
def reportWalk (n : Line) (o : WalkOutcome) (s : State) : State := onToday n (fun r => r.withWalk o) s

/-- At a day boundary every ACTIVE terminal has a record for the new day (R111 (i)). -/
def openDayRecords (s : State) : State :=
  { s with sales := { s.sales with totals := Vector.ofFn fun n =>
      if (row s.table n).active then withDayRecord (today s) (row s.sales.totals n) else row s.sales.totals n } }

end Sys2Proof.Machine
end

