-- ==== Sys2Proof/Machine/Engine.lean ====
section
/-!
DEFINITION. Machine/Engine.lean: the quote engine as a unit (sections 3.2, 3.3, 3.14): its slots and arbiter, the
beginning and the completion of a walk, what the completion hands to the other blocks, withdrawal and discard, and
the meanings of PREVIEW_QUOTE, WALK_BEGIN and WALK_COMPLETE.
-/
namespace Sys2Proof.Machine

/-- The terminal of a terminal's slot. -/
def slotLine (i : Fin 17) : Line := Fin.ofNat 16 i.val

/-- A change of the engine alone. -/
def onEngine (f : Engine → Engine) (s : State) : State := { s with engine := f s.engine }

/-! ## A walk in flight -/

/-- What a walk reads the tariff through: its view's banks, and the override table as it stands (R42, R46, R47). -/
def tariffOf (s : State) (w : Walk) : Tariff :=
  { active := s.books.bank w.view.active, staged := w.view.staged.map fun v => (s.books.bank v.1, v.2),
    overrides := s.clock.overrides, plan := w.plan, test := w.mode == .test }

/-- Stage (c) of a visitor walk: the permit is read once, its lazy refresh applying (R57, R71, R124); in mode TEST the
walk is refused and the register is not read (R46 (v)). -/
def readAllowance (s : State) (w : Walk) (c : WalkContext) (first : Span) (minutes permit : Nat) : State × Stage :=
  if w.mode == .test then (s, refuseWalk c .badField)
  else
    let s := refreshPermit permit s
    let p := findPermit s.permits permit
    (s, match visitorRefusal p w.plan (dayOf w.time) with
      | some r => refuseWalk c r
      | none =>
        visitorBudget w c first minutes permit ((p.map fun p => workedAllowance p (today s) (dayOf w.time)).getD 0))

/-- One stage of a walk, with the read it makes of the register. -/
def stageOf (s : State) (w : Walk) : State × Stage :=
  match w.stage with
  | .budget c first =>
    match effectivePayment w c with
    | .visitor minutes permit => readAllowance s w c first minutes permit
    | _ => (s, nextStage (tariffOf s w) s.sales.log w)
  | _ => (s, nextStage (tariffOf s w) s.sales.log w)

/-- A walk passes through at most 41 stages: (a), (b), (c), 16 spans and a rounding, and for a PRICE also a placing, 16
spans back, a pricing and the checks again; `walkFuel` is more than enough. -/
abbrev walkFuel : Nat := 64

/-- The stages that are left, and the outcome they give. -/
def runStages : Nat → State → Walk → State × WalkOutcome
  | 0, s, _ => (s, .refused .badField none 0)
  | fuel + 1, s, w =>
    match w.stage with
    | .done o => (s, o)
    | _ => runStages fuel (stageOf s w).1 { w with stage := (stageOf s w).2 }

/-- One stage of the walk in flight, taken by itself (log entry 2). -/
def stepWalk (s : State) : State :=
  match s.engine.walk with
  | none => s
  | some w => onEngine (fun e => { e with walk := some { w with stage := (stageOf s w).2 } }) (stageOf s w).1

/-- Has the walk in flight a stage to perform? -/
def walkHasStage (s : State) : Bool :=
  match s.engine.walk with
  | none => false
  | some w =>
    match w.stage with
    | .done _ => false
    | _ => true

/-! ## The outcome (R43, R51, R88, R89) -/

/-- The outcome of a preview is handed to the port unit (R43, R71). -/
def officeOutcome (tag : Tag) (o : WalkOutcome) (s : State) : State :=
  match o with
  | .result r => answerDeferred .office tag .ok (.previewed r) s
  | .refused st (some k) c => answerDeferred .office tag st (.held k c) s
  | .refused st none _ => answerDeferred .office tag st .empty s

/-- CONDITION_HELD is latched for a refusing condition that is not yet sticky; then the conditions raised join the
sticky set (R51). -/
def addSticky (n : Line) (o : WalkOutcome) (s : State) : State :=
  let fresh := match o.heldBy with
    | some k => !k.isIn (row s.table n).sticky
    | none => false
  onEntry n (fun e => { e with sticky := e.sticky ||| o.conds }) (if fresh then latch .conditionHeld s else s)

/-- The answer to a request whose walk or placement was taken away: NOT_CONFIGURED or STALE (R89 (ii)). -/
def goneStatus (s : State) (n : Line) : Status := if (row s.table n).active then .stale else .notConfigured

/-- A result becomes the terminal's open quote, with the next quote number and the reading as made time (R88 (i)). -/
def openQuote (n : Line) (r : WalkResult) (s : State) : State :=
  let number := (row s.table n).nextQuote
  let s1 := { s with quotes := put s.quotes n (some { result := r, number := number, made := now s }) }
  answerPending n .ok (.quoted r number) (onEntry n (fun e => { e with nextQuote := following 1 255 number }) s1)

/-- The outcome of a terminal walk, handed to the terminal controller (R43, R88, R89). -/
def terminalOutcome (n : Line) (w : Walk) (o : WalkOutcome) (s : State) : State :=
  if w.discard then
    if w.orphaned then s else answerPending n (goneStatus s n) .empty s
  else
    let s := match w.mode with
      | .normal => addSticky n o (reportWalk n o s)
      | .test => s
    match o with
    | .result r => openQuote n r s
    | .refused st (some k) c => answerPending n st (.held k c) s
    | .refused st none _ => answerPending n st .empty s

/-- The outcome is handed to the requester's block (R43). -/
def deliver (w : Walk) (o : WalkOutcome) (s : State) : State :=
  match w.request.preview with
  | some p => officeOutcome p.tag o s
  | none => terminalOutcome (slotLine w.slot) w o s

/-! ## The arbiter (R41, R42) -/

/-- The slots in cyclic order, beginning after the one served last (R41). -/
def slotOrder (last : Fin 17) : List (Fin 17) := (List.finRange 17).map fun i => last + 1 + i

/-- The first slot in that order that holds a request (R41). -/
def nextSlot (e : Engine) : Option (Fin 17) := (slotOrder e.last).find? fun i => (row e.slots i).isSome

/-- The walk of a request as it begins: what R42 fixes. -/
def walkOf (s : State) (i : Fin 17) (r : WalkRequest) : Walk :=
  match r.preview with
  | some p =>
    { slot := i, request := r, time := p.time.getD (now s), view := s.books.view, plan := p.plan, pass := p.pass,
      mode := .normal, discard := false, orphaned := false, stage := .link }
  | none =>
    let e := row s.table (slotLine i)
    { slot := i, request := r, time := now s, view := s.books.view, plan := e.plan, pass := e.pass, mode := e.mode,
      discard := false, orphaned := false, stage := .link }

/-- The request leaves its slot, which is recorded as the one served last (R40, R41). -/
def Engine.taken (e : Engine) (i : Fin 17) : Engine := { e with slots := put e.slots i none, last := i }

/-- The walk begins: it is in flight and its view is held (R42 (ii), R21). -/
def startWalk (w : Walk) (s : State) : State :=
  { s with engine := { s.engine with walk := some w }, books := s.books.hold w.view }

/-- The arbiter's choice while the engine is free (R41). With the clock UNSET the chosen walk completes at once, refused
CLOCK_UNSET with no view taken, and the arbiter chooses again (R42); there are 17 slots to choose from. -/
def arbitrate : Nat → State → State
  | 0, s => s
  | fuel + 1, s =>
    match s.engine.walk, nextSlot s.engine with
    | none, some i =>
      match row s.engine.slots i with
      | none => s
      | some r =>
        if clockSet s then startWalk (walkOf s i r) (onEngine (fun e => e.taken i) s)
        else
          arbitrate fuel (deliver (walkOf s i r) (.refused .clockUnset none 0) (onEngine (fun e => e.taken i) s))
    | _, _ => s

/-- The arbiter makes its choice, with one turn for each slot. -/
def chooseWalk (s : State) : State := arbitrate 17 s

/-- A request is placed in its slot; where the engine is free the arbiter chooses at once (R41). -/
def placeRequest (i : Fin 17) (r : WalkRequest) (s : State) : State :=
  chooseWalk (onEngine (fun e => { e with slots := put e.slots i (some r) }) s)

/-- A walk ends: its holds are cleared, the engine is free, its outcome is handed over, and the arbiter chooses
(R43, R36, R41). -/
def completeWalk (w : Walk) (o : WalkOutcome) (s : State) : State :=
  chooseWalk (deliver w o (onEngine (fun e => { e with walk := none }) (onBooks (fun b => b.clearHolds w.view) s)))

/-! ## Withdrawal and discard (R40, R43, R89) -/

/-- A waiting request of the terminal is withdrawn; it is answered unless a line reset withdrew it (R40, R89). -/
def withdraw (n : Line) (byReset : Bool) (s : State) : State :=
  if (row s.engine.slots (lineSlot n)).isSome then
    let s := onEngine (fun e => { e with slots := put e.slots (lineSlot n) none }) s
    if byReset then s else answerPending n (goneStatus s n) .empty s
  else s

/-- A walk marked for discard, and by a line reset also orphaned (R43). -/
def Walk.marked (w : Walk) (byReset : Bool) : Walk :=
  { w with discard := true, orphaned := w.orphaned || byReset }

/-- The terminal's walk in flight is marked for discard (R43). -/
def markWalk (n : Line) (byReset : Bool) (s : State) : State :=
  onEngine (fun e => { e with walk := e.walk.map fun w => if w.slot = lineSlot n then w.marked byReset else w }) s

/-- The three effects of R89 (ii) to (iv): the open quote is cancelled, a waiting request is withdrawn, and a walk in
flight is marked for discard. -/
def disturb (n : Line) (byReset : Bool) (s : State) : State := markWalk n byReset (withdraw n byReset (cancelQuote n s))

/-- A SET-CLOCK marks whatever terminal walk is in flight (R43 (iv)). -/
def markForStep (s : State) : State :=
  onEngine (fun e => { e with walk := e.walk.map fun w => if w.slot = officeSlot then w else w.marked false }) s

/-! ## The commands -/

/-- The office slot holds a request, or a walk for the office is in flight (R70 (iv)). -/
def officeBusy (e : Engine) : Bool :=
  (row e.slots officeSlot).isSome ||
    (match e.walk with
      | some w => w.slot == officeSlot
      | none => false)

/-- Checks (i) to (iv) of R70. -/
def previewRefusal (s : State) (p : Preview) : Option Status :=
  if (match p.time with
      | some t => decide (t < now s)
      | none => false) then some .badField
  else if !clockSet s then some .clockUnset
  else if !s.books.activeHasPlan p.plan then some .noPlan
  else if officeBusy s.engine then some .busy
  else none

/-- PREVIEW_QUOTE (R70): accepted into the office slot, and answered at its walk's completion. -/
def execPreviewQuote (tag : Tag) (fields : PreviewFields) (s : State) : Answered :=
  .next (officeCommand tag (previewRequest fields tag).isSome (fun s =>
    match previewRequest fields tag with
    | none => s
    | some r =>
      match r.preview.bind (previewRefusal s) with
      | some st => refuseOffice tag st s
      | none => placeRequest officeSlot r (deferAnswer .office s)) s)

/-- WALK_BEGIN (R41, R42): the arbiter's choice. A placement and a completion make it themselves, so this row finds a
free engine with a waiting request only in a state put together from outside (log entry 2). -/
def execWalkBegin (s : State) : Answered := .next (whenRunning chooseWalk s)

/-- WALK_COMPLETE (R43): the walk in flight performs the stages it has left and ends. -/
def execWalkComplete (s : State) : Answered :=
  .next (whenRunning (fun s =>
    match s.engine.walk with
    | none => s
    | some w => completeWalk w (runStages walkFuel s w).2 (runStages walkFuel s w).1) s)

end Sys2Proof.Machine
end

