-- ==== Sys2Proof/Machine/Cash.lean ====
section
/-!
DEFINITION. Machine/Cash.lean: the cash unit (chapter 8): the coin table, the box tallies with their marks, the lift
list, the collection round and the counts; and the meanings of its commands.
-/
namespace Sys2Proof.Machine

/-- A change of the cash unit alone. -/
def onCash (f : CashUnit → CashUnit) (s : State) : State := { s with cash := f s.cash }

/-- A change of one tally. -/
def onTally (n : Line) (f : Tally → Tally) (s : State) : State :=
  onCash (fun c => { c with tallies := change c.tallies n f }) s

def tallyOf (s : State) (n : Line) : Tally := row s.cash.tallies n

/-! ## The coin table (R142) -/

/-- The value of a set of coins at the coin table: the sum over the slots of count × value (R101, R148). -/
def valueOf (coins counts : Vector Nat 8) : Nat :=
  ((List.finRange 8).map fun i => row counts i * row coins i).sum

def Lift.awaiting (l : Lift) : Bool := l.state == .awaiting

/-- A slot is in use when a PRESENT tally or an AWAITING_COUNT lift holds a coin in it (R142). -/
def slotInUse (c : CashUnit) (i : Fin 8) : Bool :=
  someRow (fun n => (row c.tallies n).present && decide (0 < row (row c.tallies n).counts i)) ||
    c.lifts.any fun l => l.awaiting && decide (0 < row l.counts i)

/-- The slots in use whose given value differs from the present one (R143). -/
def slotsRefused (c : CashUnit) (values : Vector Nat 8) : List (Fin 8) :=
  (List.finRange 8).filter fun i => slotInUse c i && row values i != row c.coins i

/-! ## Tallies and marks (R144 to R146) -/

/-- The coin total (R144). -/
def Tally.coins (t : Tally) : Nat := total t.counts

/-- The near-full level (R144). -/
def Tally.nearLevel (t : Tally) : Nat := t.capacity * 9 / 10

def Tally.nearReached (t : Tally) : Bool := decide (t.nearLevel ≤ t.coins)

def Tally.fullReached (t : Tally) : Bool := decide (t.capacity ≤ t.coins)

/-- BOX_ABSENT is raised as its mark turns ON (R146 (i), R147). -/
def markAbsent (n : Line) (s : State) : State :=
  if (tallyOf s n).absentMark then s
  else raiseFault n .boxAbsent none (onTally n (fun t => { t with absentMark := true }) s)

/-- BOX_NEAR_FULL is raised, with the coin total, as its mark turns ON (R145 (i)). -/
def markNear (n : Line) (s : State) : State :=
  let t := tallyOf s n
  if t.nearReached && !t.nearMark then
    raiseFault n .boxNearFull (some t.coins) (onTally n (fun t => { t with nearMark := true }) s)
  else s

/-- BOX_FULL is raised, with the coin total, as its mark turns ON (R145 (ii)). -/
def markFull (n : Line) (s : State) : State :=
  let t := tallyOf s n
  if t.fullReached && !t.fullMark then
    raiseFault n .boxFull (some t.coins) (onTally n (fun t => { t with fullMark := true }) s)
  else s

/-- A mark that was ON turns OFF and its fault is cleared (R144). -/
def unmarkAbsent (n : Line) (s : State) : State :=
  if (tallyOf s n).absentMark then
    clearFaultOf n .boxAbsent (onTally n (fun t => { t with absentMark := false }) s)
  else s

def unmarkNear (n : Line) (s : State) : State :=
  if (tallyOf s n).nearMark then
    clearFaultOf n .boxNearFull (onTally n (fun t => { t with nearMark := false }) s)
  else s

def unmarkFull (n : Line) (s : State) : State :=
  if (tallyOf s n).fullMark then
    clearFaultOf n .boxFull (onTally n (fun t => { t with fullMark := false }) s)
  else s

/-- The coins of a committed cash sale are added to the tally, and the two levels judged (R145). -/
def addCoins (n : Line) (counts : Vector Nat 8) (s : State) : State :=
  markFull n (markNear n (onTally n (fun t =>
    { t with counts := Vector.ofFn fun i => row t.counts i + row counts i }) s))

/-- The capacity of CONFIGURE-TERMINAL is written, and the tally judged against it (R146). -/
def setCapacity (n : Line) (capacity : Nat) (s : State) : State :=
  let s := onTally n (fun t => { t with capacity := capacity }) s
  if !(tallyOf s n).present then markAbsent n s
  else
    let s := if (tallyOf s n).nearReached then markNear n s else unmarkNear n s
    if (tallyOf s n).fullReached then markFull n s else unmarkFull n s

/-- The question RETIRE-TERMINAL asks: is the box PRESENT with coins? (R144) -/
def boxHoldsCoins (s : State) (n : Line) : Bool := (tallyOf s n).present && decide (0 < (tallyOf s n).coins)

/-! ## The lift list (R148, R151) -/

/-- The lift list holds up to 96 records (R151). -/
abbrev liftRoom : Nat := 96

/-- The list without its first record for which `p` holds, and that record. -/
def removeFirst (p : Lift → Bool) : List Lift → Option (Lift × List Lift)
  | [] => none
  | l :: rest => if p l then some (l, rest) else (removeFirst p rest).map fun r => (r.1, l :: r.2)

/-- Make room in a full list (R151): the first record already counted leaves, or else the first record, which raises
CASH_RECORD_LOST with its box number. -/
def makeLiftRoom (s : State) : State :=
  if s.cash.lifts.length < liftRoom then s
  else match removeFirst (fun l => !l.awaiting) s.cash.lifts with
    | some (_, rest) => onCash (fun c => { c with lifts := rest }) s
    | none =>
      match s.cash.lifts with
      | [] => s
      | l :: rest => raiseZone .cashRecordLost (some l.box) (onCash (fun c => { c with lifts := rest }) s)

/-- The number of the round a lift made now is tied to: 0 unless the round is OPEN (R148). -/
def openRoundNumber (c : CashUnit) : Nat :=
  match c.round with
  | some r => if r.state = .opened then r.number else 0
  | none => 0

def roundIsOpen (c : CashUnit) : Bool :=
  match c.round with
  | some r => r.state == .opened
  | none => false

/-- The lift record a BOX-OUT makes (R148). -/
def liftOf (s : State) (n : Line) (label : Nat) : Lift :=
  let t := tallyOf s n
  { serial := s.cash.nextLift, round := openRoundNumber s.cash, terminal := n, box := t.box,
    label := if label = t.box then none else some label, lifted := now s, counts := t.counts,
    expected := valueOf s.cash.coins t.counts, state := .awaiting }

/-- The terminal joins the lifted set of an OPEN round (R153). -/
def joinLifted (n : Line) (c : CashUnit) : CashUnit :=
  if roundIsOpen c then { c with round := c.round.map fun r => { r with lifted := put r.lifted n true } } else c

/-- A lift record joins the list with the next lift serial (R148, R151). After the serial has wrapped a record still held may have
the same one: the serial rises by one all the same (DESIGN CHOICE, log entry 31). -/
def appendLift (l : Lift) (c : CashUnit) : CashUnit :=
  { c with lifts := c.lifts ++ [l], nextLift := following 1 4294967295 c.nextLift }

/-- The tally left when its box has gone (R147 (ii)): the near and full marks stay. -/
def Tally.emptied (t : Tally) : Tally := { t with present := false, box := 0, counts := Vector.replicate 8 0 }

/-- The tally of a box put in (R149 (iii)). -/
def Tally.filled (t : Tally) (label : Nat) : Tally :=
  { t with present := true, box := label, counts := Vector.replicate 8 0 }

/-- BOX-OUT of a PRESENT box (R147 (ii)). -/
def takeBox (n : Line) (label : Nat) (s : State) : State :=
  let l := liftOf s n label
  let s := onTally n Tally.emptied (onCash (fun c => joinLifted n (appendLift l c)) (makeLiftRoom s))
  let s := markAbsent n s
  let s := if l.label.isSome then raiseFault n .boxIdentity (some label) s else s
  let s := if l.round = 0 then raiseFault n .unroundedLift (some l.serial) s else s
  answerPending n .ok (.lifted l.serial l.box l.counts l.expected) s

/-- Is the label the number of the PRESENT box of another terminal? (R149 (ii)) -/
def labelTaken (c : CashUnit) (n : Line) (label : Nat) : Bool :=
  someRow fun m => m != n && (row c.tallies m).present && (row c.tallies m).box == label

/-- BOX-IN at an ABSENT tally (R149 (ii), (iii)). -/
def putBox (n : Line) (label : Nat) (s : State) : State :=
  if label = 0 ∨ labelTaken s.cash n label then
    answerPending n .duplicate .empty (raiseFault n .boxIdentity (some label) s)
  else
    answerPending n .ok .empty
      (unmarkFull n (unmarkNear n (unmarkAbsent n (onTally n (fun t => t.filled label) s))))

/-! ## Rounds (R153 to R157) -/

/-- The planned set of a round opened now (R154). -/
def plannedNow (s : State) : LineSet := Vector.ofFn fun n => (row s.table n).active && boxHoldsCoins s n

/-- The missed set: planned less lifted (R153). -/
def Round.missed (r : Round) : LineSet := Vector.ofFn fun n => row r.planned n && !row r.lifted n

def noLines : LineSet := Vector.replicate 16 false

/-- An OPEN round is due to lapse (R157). -/
def roundDue (s : State) : Bool :=
  match s.cash.round with
  | some r => r.state == .opened && decide (r.openTime + s.cash.roundLimit ≤ now s)
  | none => false

/-- The comparison of R157 at a boundary or step. -/
def lapseIfDue (s : State) : State :=
  match s.cash.round with
  | none => s
  | some r =>
    if roundDue s then
      latch .roundEnded (raiseZone .roundLapsed (some r.number)
        (onCash (fun c => { c with round := some { r with state := .lapsed (now s) } }) s))
    else s

/-- The tallies of the planned terminals as they stand (R155), in rising order of terminal, an order R155 does not give (DESIGN
CHOICE, log entry 10). -/
def plannedTallies (s : State) (r : Round) : List (Line × Bool × Nat × Nat) :=
  ((List.finRange 16).filter fun n => row r.planned n).map fun n =>
    (n, (tallyOf s n).present, (tallyOf s n).box, (tallyOf s n).coins)

/-! ## Counts (R158) -/

/-- The count a COUNT-RESULT writes: value, variance and counted time (R158). -/
def countOf (l : Lift) (value : Nat) (time : ZoneMinute) : Count :=
  { value := value, variance := (value : Int) - (l.expected : Int), time := time }

/-- A lift after its count, judged against the tolerance (R158). -/
def Lift.counted (l : Lift) (value tolerance : Nat) (time : ZoneMinute) : Lift :=
  let c := countOf l value time
  { l with state := if c.variance.natAbs ≤ tolerance then .reconciled c else .variance c }

def Lift.isReconciled (l : Lift) : Bool :=
  match l.state with
  | .reconciled _ => true
  | _ => false

/-- Is the record AWAITING_COUNT of this box? (R158) -/
def Lift.awaits (l : Lift) (box : Nat) : Bool := l.awaiting && l.box == box

/-- The list with the first record of the box AWAITING_COUNT counted (R158). -/
def countFirst (box value tolerance : Nat) (time : ZoneMinute) : List Lift → List Lift
  | [] => []
  | l :: rest =>
    if l.awaits box then l.counted value tolerance time :: rest else l :: countFirst box value tolerance time rest

/-! ## The commands -/

/-- SET_COINS (R143). -/
def execSetCoins (tag : Tag) (values : Vector Nat 8) (s : State) : Answered :=
  .next (officeCommand tag (allRows fun i => decide (row values i ≤ 500)) (fun s =>
    let refused := slotsRefused s.cash values
    if refused.isEmpty then
      answerPort .office tag .ok (.coins values) (onCash (fun c => { c with coins := values }) s)
    else answerPort .office tag .inUse (.slotsInUse refused) s) s)

/-- BOX_OUT (R147). -/
def execBoxOut (line : Line) (label : Nat) (s : State) : Answered :=
  .next (whenRunning (takeFrame line (some .boxOut) (decide (label ≤ 65535)) (fun s =>
    if (tallyOf s line).present then takeBox line label s else answerPending line .already .empty s)) s)

/-- BOX_IN (R149). -/
def execBoxIn (line : Line) (label : Nat) (s : State) : Answered :=
  .next (whenRunning (takeFrame line (some .boxIn) (decide (label ≤ 65535)) (fun s =>
    if (tallyOf s line).present then answerPending line .already .empty s else putBox line label s)) s)

/-- READ_LIFTS (R152). -/
def execReadLifts (tag : Tag) (position count : Nat) (s : State) : Answered :=
  .next (officeCommand tag (decide (position ≤ 95 ∧ 1 ≤ count ∧ count ≤ 8)) (fun s =>
    answerPort .office tag .ok
      (.lifts s.cash.lifts.length s.cash.nextLift ((s.cash.lifts.drop position).take count)) s) s)

/-- OPEN_ROUND (R154). -/
def execOpenRound (tag : Tag) (badge number : Nat) (s : State) : Answered :=
  .next (takeCommand (.service badge) tag (decide (1 ≤ number ∧ number ≤ 65535)) .collector (fun s =>
    if !clockSet s then answerPort .service tag .clockUnset .empty s
    else if roundIsOpen s.cash then answerPort .service tag .busy .empty s
    else
      let planned := plannedNow s
      let r : Round :=
        { state := .opened, number := number, badge := badge, openTime := now s, planned := planned, lifted := noLines }
      answerPort .service tag .ok (.planned planned)
        (latch .roundOpened (clearZone .roundLapsed (onCash (fun c => { c with round := some r }) s)))) s)

/-- ROUND_STATUS (R155). -/
def execRoundStatus (tag : Tag) (badge : Nat) (s : State) : Answered :=
  .next (takeCommand (.service badge) tag true .collector (fun s =>
    match s.cash.round with
    | none => answerPort .service tag .ok (.roundStatus none noLines [] none) s
    | some r =>
      answerPort .service tag .ok
        (.roundStatus (some r) r.missed (plannedTallies s r)
          (if r.state = .opened then some (r.openTime + s.cash.roundLimit) else none)) s) s)

/-- CLOSE_ROUND (R156). -/
def execCloseRound (tag : Tag) (badge : Nat) (s : State) : Answered :=
  .next (takeCommand (.service badge) tag true .collector (fun s =>
    match s.cash.round with
    | none => answerPort .service tag .noRound .empty s
    | some r =>
      if r.state ≠ .opened then answerPort .service tag .noRound .empty s
      else if r.badge ≠ badge then answerPort .service tag .denied .empty s
      else
        answerPort .service tag .ok (.roundClosed r.planned r.lifted r.missed)
          (latch .roundEnded (onCash (fun c => { c with round := some { r with state := .closed (now s) } }) s))) s)

/-- ROUND_LAPSE (R157): the comparison, which comes only while the clock is SET (log entry 1). -/
def execRoundLapse (s : State) : Answered :=
  .next (whenRunning (fun s => if clockSet s then lapseIfDue s else s) s)

/-- COUNT_RESULT (R158). -/
def execCountResult (tag : Tag) (box value : Nat) (s : State) : Answered :=
  .next (officeCommand tag (decide (1 ≤ box ∧ box ≤ 65535 ∧ value ≤ 4294967295)) (fun s =>
    match s.cash.lifts.find? fun l => l.awaits box with
    | none => refuseOffice tag .noLift s
    | some l =>
      let counted := l.counted value s.cash.tolerance (now s)
      let variance := (countOf l value (now s)).variance
      let s := onCash (fun c => { c with lifts := countFirst box value c.tolerance (now s) c.lifts }) s
      let s := if counted.isReconciled then s else raiseFault l.terminal .cashVariance (some l.serial) s
      answerPort .office tag .ok (.counted l.serial l.expected value variance counted.isReconciled) s) s)

/-- SET_CASH_LIMITS (R159). -/
def execSetCashLimits (tag : Tag) (tolerance limit : Nat) (s : State) : Answered :=
  .next (officeCommand tag (decide (tolerance ≤ 500 ∧ 60 ≤ limit ∧ limit ≤ 480)) (fun s =>
    answerPort .office tag .ok (.limits s.cash.tolerance s.cash.roundLimit tolerance limit)
      (onCash (fun c => { c with tolerance := tolerance, roundLimit := limit }) s)) s)

end Sys2Proof.Machine
end

