-- ==== Sys2Proof/Machine/Terminal.lean ====
section
/-!
DEFINITION. Machine/Terminal.lean: the terminal controller (chapter 4): the requests it answers or hands to the quote
engine, the end of a reply, the terminal table's commands, test mode and line reset; and the meanings of these rows.
-/
namespace Sys2Proof.Machine

/-! ## QUOTE and PRICE (R87) -/

def Ask.payKind : Ask → PayKind
  | .forward p => p.kind
  | .reverse byCard _ => if byCard then .card else .cash

/-- The test of the service state against a pay kind, at a quote and at a sale (R87 (v) to (vii), R99 (v)). -/
def serviceRefusal (v : Service) (k : PayKind) : Option Status :=
  if v = .outOfService then some .outOfService
  else match k with
    | .cash => if v = .cashOut ∨ v = .paymentOut then some .cashOut else none
    | .card => if v = .cardOut ∨ v = .paymentOut then some .cardOut else none
    | .visitor => none

/-- Checks (i) to (vii) of R87. -/
def askRefusal (s : State) (n : Line) (r : WalkRequest) : Option Status :=
  let e := row s.table n
  let k := Ask.payKind r.ask
  if (k == .cash && !e.takesCoins) || (k == .card && !e.takesCards) then some .badField
  else if (e.asksMark || k == .visitor) && r.mark.isNone then some .badField
  else if s.books.activeState == .empty then some .noPlan
  else if !clockSet s then some .clockUnset
  else serviceRefusal (serviceState s n) k

/-- An accepted QUOTE or PRICE cancels the open quote and is placed in the terminal's slot (R87, R89 (i)). -/
def acceptAsk (n : Line) (r : WalkRequest) (s : State) : State := placeRequest (lineSlot n) r (cancelQuote n s)

/-- The controller takes a QUOTE or PRICE (R87). Checks (viii) and (ix) read the permit, its lazy refresh applying. -/
def takeAsk (n : Line) (r : WalkRequest) (s : State) : State :=
  match askRefusal s n r with
  | some st => answerPending n st .empty s
  | none =>
    match r.ask, (row s.table n).mode with
    | .forward (.visitor _ permit), .normal =>
      let s := refreshPermit permit s
      match visitorRefusal (findPermit s.permits permit) (row s.table n).plan (today s) with
      | some st => answerPending n st .empty s
      | none => acceptAsk n r s
    | _, _ => acceptAsk n r s

/-- A QUOTE or PRICE frame: `r` is none where a field is out of range (R77, R87). -/
def takeAskFrame (n : Line) (k : RequestKind) (r : Option WalkRequest) (s : State) : State :=
  match r with
  | none => takeFrame n (some k) false (fun s => s) s
  | some r => takeFrame n (some k) true (takeAsk n r) s

/-! ## The end of a reply (R73, R75, R78) -/

/-- The last character of a reply has left the line: the unit takes its return state and, back in PENDING, sends a held
answer. -/
def LineUnit.replyEnded (u : LineUnit) (e : Envelope) : LineUnit :=
  match u.state with
  | .replying _ true _ =>
    match u.held with
    | some a => LineUnit.sendAnswer { u with frame := none } a e
    | none => { u with state := .pending, frame := none }
  | .replying _ false _ => { u with state := .idle, frame := none }
  | _ => u

/-! ## The terminal table (R81, R82) -/

/-- A terminal in TEST returns to NORMAL. -/
def Entry.toNormal (e : Entry) : Entry := { e with mode := .normal }

/-- CONFIGURE-TERMINAL's fields in range: terminal, plan and PASS set (R81 (i)). -/
def readTerminal (f : TerminalFields) : Option (Line × Fin 8 × CondSet) :=
  match terminalOf f.terminal, planOf f.plan, condSetOf f.pass with
  | some n, some p, some c => if 500 ≤ f.capacity ∧ f.capacity ≤ 4000 then some (n, p, c) else none
  | _, _, _ => none

/-- Checks (ii) and (iii) of R81. -/
def configureRefused (s : State) (p : Fin 8) : Bool :=
  !s.books.activeHasPlan p || (s.books.stagedState == .armed && !planPresent s.books.stagedBook p)

/-- The entry a CONFIGURE-TERMINAL leaves (R81 (i), (v), (vi), (vii)). -/
def Entry.configured (e : Entry) (f : TerminalFields) (p : Fin 8) (c : CondSet) (time : ZoneMinute) (armed : Bool) :
    Entry :=
  let e := { e with
    active := true, plan := p, takesCoins := f.takesCoins, takesCards := f.takesCards, asksMark := f.asksMark
    pass := c, mode := .normal, lastHeard := time }
  if armed then setBookChange e else e

/-- The fault unit is told of a change of configuration: the grace of the plan the terminal has joined is re-evaluated,
and before it that of the plan an ACTIVE terminal has left (R172 (ii), R174). -/
def regracePlans (before : Entry) (after : Fin 8) (s : State) : State :=
  regrace after (if before.active && before.plan != after then regrace before.plan s else s)

/-- An accepted CONFIGURE-TERMINAL (R81). R81 gives its effects no order; a waiting request is withdrawn last, so that the envelope of
its STALE reply shows all the others (DESIGN CHOICE, log entry 33). -/
def configure (n : Line) (f : TerminalFields) (p : Fin 8) (c : CondSet) (s : State) : State :=
  let before := row s.table n
  let s := onEntry n (fun e => e.configured f p c (now s) (s.books.stagedState == .armed)) s
  disturb n false (regracePlans before p (setCapacity n f.capacity s))

/-- The entry a RETIRE-TERMINAL leaves (R82). -/
def Entry.retired (e : Entry) : Entry := resetBookChange { e with active := false, mode := .normal }

/-- An accepted RETIRE-TERMINAL (R82). R82 gives its effects no order; a waiting request is withdrawn last, so that the envelope of
its NOT_CONFIGURED reply shows all the others (DESIGN CHOICE, log entry 33). -/
def retire (n : Line) (s : State) : State :=
  disturb n false (regrace (row s.table n).plan (onEntry n Entry.retired s))

/-- A change of mode, with the three effects it has on the terminal's transaction (R89 (iv), R90, R91), which come after it (log
entry 33). -/
def changeMode (n : Line) (f : Entry → Entry) (s : State) : State := disturb n false (onEntry n f s)

/-- A test is at its limit (R91 (ii)). -/
def testDue (s : State) (n : Line) : Bool :=
  (row s.table n).mode == .test && decide ((row s.table n).testStart + 30 ≤ now s)

/-- The comparison of R91 (ii) for one terminal. -/
def endTestIfDue (n : Line) (s : State) : State := if testDue s n then changeMode n Entry.toNormal s else s

/-- A line reset (R93). -/
def resetLine (n : Line) (s : State) : State :=
  disturb n true (onEntry n Entry.toNormal (onLine n (fun _ => LineUnit.cold) s))

/-- The sticky sets of some terminals (R84); those of all sixteen in rising order of terminal, an order R84 does not give (DESIGN
CHOICE, log entry 10). -/
def stickySets (s : State) (ns : List Line) : List (Line × CondSet) := ns.map fun n => (n, (row s.table n).sticky)

/-- A change of the entries of the terminals named (R84, R179). -/
def onEntries (ns : List Line) (f : Entry → Entry) (s : State) : State :=
  { s with table := Vector.ofFn fun n => if ns.contains n then f (row s.table n) else row s.table n }

/-! ## The commands -/

/-- QUOTE (R87). -/
def execQuote (line : Line) (fields : QuoteFields) (s : State) : Answered :=
  .next (whenRunning (takeAskFrame line .quote (quoteRequest fields)) s)

/-- PRICE (R87). -/
def execPrice (line : Line) (fields : PriceFields) (s : State) : Answered :=
  .next (whenRunning (takeAskFrame line .price (priceRequest fields)) s)

/-- HELLO (R85). -/
def execHello (line : Line) (s : State) : Answered :=
  .next (whenRunning (takeFrame line (some .hello) true (answerPending line .ok .empty)) s)

/-- UNKNOWN_REQUEST_KIND: a valid frame of no terminal request kind (R77 (i)). -/
def execUnknownRequestKind (line : Line) (s : State) : Answered :=
  .next (whenRunning (takeFrame line none true (fun s => s)) s)

/-- FRAME_DISCARD (R74 (ii), (iv)). While the unit is REPLYING what arrives is a collision (R75). -/
def execFrameDiscard (line : Line) (s : State) : Answered :=
  .next (whenRunning (fun s =>
    match (row s.lines line).state with
    | .replying _ _ _ => collide line s
    | _ => discardFrame line s) s)

/-- RECEIVE_TIMEOUT (R74 (v)): the frame that was being assembled is discarded. While the unit is REPLYING none is
(R75). -/
def execReceiveTimeout (line : Line) (s : State) : Answered :=
  .next (whenRunning (fun s =>
    match (row s.lines line).state with
    | .replying _ _ _ => s
    | _ => discardFrame line s) s)

/-- COLLISION (R75). -/
def execCollision (line : Line) (s : State) : Answered := .next (whenRunning (collide line) s)

/-- REPLY_END (R73, R78). -/
def execReplyEnd (line : Line) (s : State) : Answered :=
  .next (whenRunning (fun s => onLine line (fun u => u.replyEnded (envelopeOf s line)) s) s)

/-- CONFIGURE_TERMINAL (R81). -/
def execConfigureTerminal (tag : Tag) (fields : TerminalFields) (s : State) : Answered :=
  .next (officeCommand tag (readTerminal fields).isSome (fun s =>
    match readTerminal fields with
    | none => s
    | some (n, p, c) =>
      if configureRefused s p then refuseOffice tag .noPlan s
      else answerPort .office tag .ok .empty (configure n fields p c s)) s)

/-- RETIRE_TERMINAL (R82). -/
def execRetireTerminal (tag : Tag) (terminal : Nat) (s : State) : Answered :=
  .next (officeCommand tag (terminalOf terminal).isSome (fun s =>
    match terminalOf terminal with
    | none => s
    | some n =>
      if !(row s.table n).active then refuseOffice tag .already s
      else if boxHoldsCoins s n then refuseOffice tag .inUse s
      else answerPort .office tag .ok .empty (retire n s)) s)

/-- SET_CONDITIONS (R83). -/
def execSetConditions (tag : Tag) (terminal : Nat) (pass : BitVec 16) (s : State) : Answered :=
  .next (officeCommand tag ((terminalOf terminal).isSome && (condSetOf pass).isSome) (fun s =>
    match terminalOf terminal, condSetOf pass with
    | some n, some c =>
      if (row s.table n).active then
        answerPort .office tag .ok (.conditions (row s.table n).sticky) (onEntry n (fun e => { e with pass := c }) s)
      else refuseOffice tag .notConfigured s
    | _, _ => s) s)

/-- CLEAR_CONDITIONS (R84). -/
def execClearConditions (tag : Tag) (terminal : Nat) (s : State) : Answered :=
  .next (officeCommand tag (terminalsOf terminal).isSome (fun s =>
    match terminalsOf terminal with
    | none => s
    | some ns =>
      answerPort .office tag .ok (.conditionSets (stickySets s ns)) (onEntries ns (fun e => { e with sticky := 0 }) s)) s)

/-- LINE_RESET (R92, R93). -/
def execLineReset (source : Source) (tag : Tag) (terminal : Nat) (s : State) : Answered :=
  .next (takeCommand source tag (terminalOf terminal).isSome .engineer (fun s =>
    match terminalOf terminal with
    | none => s
    | some n => answerPort source.port tag .ok .empty (resetLine n s)) s)

/-- TEST_LINE (R90). -/
def execTestLine (tag : Tag) (badge terminal : Nat) (s : State) : Answered :=
  .next (takeCommand (.service badge) tag (terminalOf terminal).isSome .engineer (fun s =>
    match terminalOf terminal with
    | none => s
    | some n =>
      if !(row s.table n).active then answerPort .service tag .notConfigured .empty s
      else if (row s.table n).mode = .test then answerPort .service tag .already .empty s
      else
        answerPort .service tag .ok .empty
          (changeMode n (fun e => { e with mode := .test, testStart := now s }) s)) s)

/-- END_TEST (R91 (i)). -/
def execEndTest (tag : Tag) (badge terminal : Nat) (s : State) : Answered :=
  .next (takeCommand (.service badge) tag (terminalOf terminal).isSome .engineer (fun s =>
    match terminalOf terminal with
    | none => s
    | some n =>
      if (row s.table n).active && (row s.table n).mode == .test then
        answerPort .service tag .ok .empty (changeMode n Entry.toNormal s)
      else answerPort .service tag .already .empty s) s)

/-- TEST_LIMIT (R91 (ii)): the comparison, which comes only while the clock is SET (log entry 1). -/
def execTestLimit (line : Line) (s : State) : Answered :=
  .next (whenRunning (fun s => if clockSet s then endTestIfDue line s else s) s)

end Sys2Proof.Machine
end

