-- ==== Sys2Proof/Machine/Sale.lean ====
section
/-!
DEFINITION. Machine/Sale.lean: the sale unit (chapter 5): the checks of a SALE and its commit, the session log with its
pruning, room and pressure mark, and the office's reads; and the meanings of its commands.
-/
namespace Sys2Proof.Machine

/-- A change of the sale unit alone. -/
def onSales (f : SaleUnit → SaleUnit) (s : State) : State := { s with sales := f s.sales }

/-! ## The log (R104 to R108) -/

/-- The session log holds up to 4,096 records (R104). -/
abbrev logRoom : Nat := 4096

/-- The minutes a record stays after its expiry (R106). -/
abbrev keptAfter : Nat := 1440

/-- Is the record more than 1,440 minutes past its expiry? (R106) -/
def Session.prunable (r : Session) (time : ZoneMinute) : Bool := decide (r.expiry + keptAfter < time)

/-- The record that makes room in a full log: the lowest serial among those whose expiry is not after now (R107). -/
def expiredRecord (log : List Session) (time : ZoneMinute) : Option Session :=
  log.find? fun r => decide (r.expiry ≤ time)

/-- The log has room for a commit (R107). -/
def logHasRoom (log : List Session) (time : ZoneMinute) : Bool :=
  decide (log.length < logRoom) || (expiredRecord log time).isSome

/-- The log with room made where it is full (R102 (i), R107). -/
def makeRoom (log : List Session) (time : ZoneMinute) : List Session :=
  if log.length < logRoom then log
  else match expiredRecord log time with
    | some r => dropKey Session.serial r.serial log
    | none => log

/-- LOG_PRESSURE is cleared and the mark OFF at 3,072 records or fewer (R108 (ii)). -/
def easePressure (s : State) : State :=
  if s.sales.pressure && decide (s.sales.log.length ≤ 3072) then
    clearZone .logPressure (onSales (fun u => { u with pressure := false }) s)
  else s

/-- After a commit LOG_PRESSURE is raised and the mark ON at 3,840 records or more (R108 (i)). -/
def feelPressure (s : State) : State :=
  if !s.sales.pressure && decide (3840 ≤ s.sales.log.length) then
    raiseZone .logPressure none (onSales (fun u => { u with pressure := true }) s)
  else s

/-- The pruning of a boundary or step, and the comparison after it (R106, R108). -/
def pruneLog (s : State) : State :=
  easePressure (onSales (fun u => { u with log := u.log.filter fun r => !r.prunable (now s) }) s)

/-- The lowest held serial: 0 while the log is empty (R105). -/
def lowestSerial (log : List Session) : Nat := (log.head?.map Session.serial).getD 0

/-! ## The checks of a SALE (R99 to R101) -/

/-- A quote is fresh (R100). -/
def quoteIsFresh (s : State) (q : OpenQuote) (k : PayKind) : Bool :=
  decide (now s < q.made + 3) && q.result.generation == s.books.generation &&
    q.result.revision == s.books.revision && q.result.payKind == k

/-- A cash payment matches the quote (R101 (i)). -/
def cashMatches (coins counts : Vector Nat 8) (amount price : Nat) : Bool :=
  allRows (fun i => decide (row counts i = 0 ∨ 0 < row coins i)) &&
    decide (valueOf coins counts = amount ∨ valueOf coins counts = price)

/-- The payment check of cash and card (R101 (i), (ii)). -/
def moneyMatches (s : State) (m : SaleMoney) (t : Terms) : Bool :=
  match m, t with
  | .cash counts, .money amount price _ => cashMatches s.cash.coins counts amount price
  | .card paid, .money _ price _ => decide (paid = price)
  | _, _ => false

/-- The payment check of a visitor sale, once the entry is up to date (R101 (iii)). -/
def visitorSaleRefusal (s : State) (plan : Fin 8) (permit granted : Nat) : Option Status :=
  let p := findPermit s.permits permit
  match visitorRefusal p plan (today s) with
  | some st => some st
  | none => if (p.map Permit.allowance).getD 0 < granted then some .stale else none

/-- Check (iv) of R99 on a state whose permit entry is up to date (R101). -/
def paymentRefusal (s : State) (q : OpenQuote) (m : SaleMoney) : Option Status :=
  match m, q.result.terms with
  | .visitor, .visitor permit granted => visitorSaleRefusal s q.result.plan permit granted
  | _, t => if moneyMatches s m t then none else some .mismatch

/-- The permit read of a visitor sale brings its entry up to date (R101 (iii), R124). -/
def refreshForSale (q : OpenQuote) (m : SaleMoney) (s : State) : State :=
  match m, q.result.terms with
  | .visitor, .visitor permit _ => refreshPermit permit s
  | _, _ => s

/-- Checks (v) and (vi) of R99. -/
def lateRefusal (s : State) (n : Line) (k : PayKind) : Option Status :=
  match serviceRefusal (serviceState s n) k with
  | some st => some st
  | none => if s.sales.nextSerial.isNone || !logHasRoom s.sales.log (now s) then some .logFull else none

/-! ## The commit (R102, R103) -/

/-- The kind of the record of a sale (R103). -/
def sessionKind (mode : Mode) (k : PayKind) : SessionKind :=
  match mode, k with
  | .test, _ => .test
  | .normal, .cash => .paidCash
  | .normal, .card => .paidCard
  | .normal, .visitor => .visitor

/-- What a session record keeps of the payment (R103). -/
def sessionPayment (m : SaleMoney) (t : Terms) : SessionPayment :=
  match m, t with
  | .cash counts, _ => .cash counts
  | .card paid, _ => .card paid
  | .visitor, .visitor permit granted => .visitor permit granted
  | .visitor, .money _ _ _ => .visitor 0 0

/-- The coin total or card amount of a sale; 0 for a visitor. -/
def paidValue (coins : Vector Nat 8) : SaleMoney → Nat
  | .cash counts => valueOf coins counts
  | .card paid => paid
  | .visitor => 0

/-- The overpaid amount: for CASH the coin total less the price (R103). -/
def overpaidOf (coins : Vector Nat 8) (m : SaleMoney) (price : Nat) : Nat :=
  match m with
  | .cash counts => valueOf coins counts - price
  | _ => 0

/-- The ticket number of the terminal's next sale (R102 (iii)). -/
def ticketOf (s : State) (n : Line) : Ticket :=
  { zone := s.ports.zoneId.toNat, terminal := n.number, sequence := row s.sales.sequences n }

/-- The session record of a commit (R103). -/
def sessionOf (s : State) (n : Line) (q : OpenQuote) (m : SaleMoney) (serial : Nat) : Session :=
  let r := q.result
  { serial := serial, ticket := ticketOf s n, kind := sessionKind r.mode r.payKind,
    payment := sessionPayment m r.terms, plan := r.plan, issue := r.walkTime, sold := now s, start := r.start,
    expiry := r.expiry, price := r.terms.price, overpaid := overpaidOf s.cash.coins m r.terms.price,
    mark := r.mark, linked := r.linked, finalStart := r.finalStart, finalMinutes := r.finalMinutes,
    conds := r.conds, generation := r.generation, usedStaged := r.usedStaged }

/-- The serial after one issued: EXHAUSTED after the last (R102 (ii)). -/
def serialAfter (serial : Nat) : Option Nat := if serial = 4294967295 then none else some (serial + 1)

/-- The log, the next serial and the ticket sequence after a commit (R102 (i) to (iii)). -/
def SaleUnit.committed (u : SaleUnit) (n : Line) (r : Session) (time : ZoneMinute) : SaleUnit :=
  { u with log := makeRoom u.log time ++ [r], nextSerial := serialAfter r.serial,
           sequences := change u.sequences n (following 1 999999) }

/-- What the payment does at the other blocks: coins to the tally, or minutes off the allowance (R102 (iv), (v)). -/
def takePayment (n : Line) (m : SaleMoney) (t : Terms) (s : State) : State :=
  match m, t with
  | .cash counts, _ => addCoins n counts s
  | .visitor, .visitor permit granted => debitPermit permit granted s
  | _, _ => s

/-- The granted minutes the SOLD reply carries for VISITOR (R102). -/
def grantedOf : Terms → Option Nat
  | .visitor _ granted => some granted
  | .money _ _ _ => none

/-- The SOLD reply fields (R102). -/
def soldBody (r : Session) (t : Terms) : Body :=
  .sold r.serial r.ticket r.start r.expiry r.price r.overpaid (grantedOf t)

/-- The commit of a SALE that passed every check (R102). -/
def commitSale (n : Line) (q : OpenQuote) (m : SaleMoney) (serial : Nat) (s : State) : State :=
  let r := sessionOf s n q m serial
  let paid := paidValue s.cash.coins m
  let s := onSales (fun u => u.committed n r (now s)) s
  let s := takePayment n m q.result.terms s
  let s := onToday n (fun d => d.withSale r.kind r.payment paid r.overpaid) s
  let s := easePressure (feelPressure (cancelQuote n s))
  answerPending n .ok (soldBody r q.result.terms) s

/-- A refused SALE: STALE clears the open quote, any other refusal keeps it (R99). -/
def refuseSale (n : Line) (st : Status) (s : State) : State :=
  answerPending n st .empty (if st = .stale then cancelQuote n s else s)

/-- Checks (iv) to (vi) of R99, and the commit. -/
def trySale (n : Line) (q : OpenQuote) (m : SaleMoney) (s : State) : State :=
  let s := refreshForSale q m s
  match paymentRefusal s q m, lateRefusal s n m.kind, s.sales.nextSerial with
  | some st, _, _ => refuseSale n st s
  | none, some st, _ => refuseSale n st s
  | none, none, none => refuseSale n .logFull s
  | none, none, some serial => commitSale n q m serial s

/-- The taking of a SALE (R98, R99). -/
def takeSale (n : Line) (number : Nat) (m : SaleMoney) (s : State) : State :=
  if !clockSet s then refuseSale n .clockUnset s
  else match row s.quotes n with
    | none => refuseSale n .noQuote s
    | some q =>
      if q.number ≠ number then refuseSale n .noQuote s
      else if !quoteIsFresh s q m.kind then refuseSale n .stale s
      else trySale n q m s

/-! ## The commands -/

/-- SALE (R97 to R103). -/
def execSale (line : Line) (fields : SaleFields) (s : State) : Answered :=
  .next (whenRunning (fun s =>
    match readSale fields with
    | none => takeFrame line (some .sale) false (fun s => s) s
    | some (number, m) => takeFrame line (some .sale) true (takeSale line number m) s) s)

/-- LOG_PRUNING (R106): the pruning, which comes only while the clock is SET (log entry 1). -/
def execLogPruning (s : State) : Answered := .next (whenRunning (fun s => if clockSet s then pruneLog s else s) s)

/-- FETCH_SESSIONS (R109). The reply carries the held count too, as R105 says and the layout of section 11.4 does not (log
entry 28). -/
def execFetchSessions (tag : Tag) (serial count : Nat) (s : State) : Answered :=
  .next (officeCommand tag (decide (serial ≤ 4294967295 ∧ 1 ≤ count ∧ count ≤ 8)) (fun s =>
    answerPort .office tag .ok
      (.sessions (lowestSerial s.sales.log) s.sales.nextSerial
        ((s.sales.log.filter fun r => decide (serial ≤ r.serial)).take count) s.sales.log.length) s) s)

/-- READ_TOTALS (R113). -/
def execReadTotals (tag : Tag) (terminal : Nat) (s : State) : Answered :=
  .next (officeCommand tag (terminalOf terminal).isSome (fun s =>
    match terminalOf terminal with
    | none => s
    | some n => answerPort .office tag .ok (.totals (row s.sales.totals n)) s) s)

end Sys2Proof.Machine
end

