-- ==== Sys2Proof/Machine/Cover.lean ====
section
/-!
DEFINITION. Machine/Cover.lean: the cover search unit (chapter 7): its two slots, the beginning of a search, its reads
of the log, the register and the grace record, the verdict and the completion; and the meanings of its commands.
-/
namespace Sys2Proof.Machine

/-- A change of the cover search unit alone. -/
def onCover (f : CoverUnit → CoverUnit) (s : State) : State := { s with cover := f s.cover }

def CoverUnit.slot (c : CoverUnit) : PortId → CoverSlot
  | .office => c.office
  | .service => c.service

def CoverUnit.setSlot (c : CoverUnit) (id : PortId) (x : CoverSlot) : CoverUnit :=
  match id with
  | .office => { c with office := x }
  | .service => { c with service := x }

/-! ## Answers by ticket number (R135) -/

/-- The record of highest serial with the ticket number: the last of the rising log (R135). -/
def sessionByTicket (log : List Session) (t : Ticket) : Option Session := log.reverse.find? fun r => r.ticket == t

/-- The verdict for a TICKET key (R135). -/
def ticketVerdict (log : List Session) (plan : Fin 8) (t : Ticket) (time : ZoneMinute) : Verdict :=
  match sessionByTicket log t with
  | none => .unknown
  | some r =>
    if r.kind = .test then .testTicket r.serial r.ticket.terminal r.issue
    else if r.plan ≠ plan then .wrongPlan r.serial r.plan r.expiry
    else if time < r.expiry then .valid r.serial r.kind r.start r.expiry
    else .expired r.serial r.kind r.expiry (time - r.expiry)

/-! ## Answers by vehicle mark (R136 to R139) -/

/-- The marks an entry holds; a VISITOR_BOOK entry holds none (R137). -/
def Permit.marks (p : Permit) : List Mark :=
  match p.kind with
  | .resident m => m
  | .business m => m
  | .visitorBook _ => []

def Permit.isBusiness (p : Permit) : Bool :=
  match p.kind with
  | .business _ => true
  | _ => false

/-- Conditions (i) to (iii) of R137: the entry names the mark and holds the plan. -/
def Permit.names (p : Permit) (plan : Fin 8) (m : Mark) : Bool := p.marks.contains m && p.plans.getLsbD plan.val

/-- Condition (iv) of R137. -/
def Permit.inDays (p : Permit) (day : Nat) : Bool := decide (p.fromDay ≤ day ∧ day ≤ p.toDay)

/-- The read of the log for a mark: a running session decides, else the chosen record is kept (R136). -/
def logStage (log : List Session) (plan : Fin 8) (m : Mark) (time : ZoneMinute) : SearchStage :=
  match chosenSession log plan m with
  | none => .logRead none
  | some r =>
    if time < r.expiry then .decided (.coveredSession r.expiry r.ticket r.kind r.serial) else .logRead (some r)

/-- The out-of-days field: the lowest number among the entries that name the mark but not the day (R139). -/
def outOfDaysOf (permits : List Permit) (plan : Fin 8) (m : Mark) (day : Nat) : Option OutOfDays :=
  (permits.find? fun p => p.names plan m && !p.inDays day).map fun p =>
    { permit := p.number, fromDay := p.fromDay, toDay := p.toDay }

/-- The read of the register: the lowest VALID entry, else the lowest SUSPENDED one, decides (R137). -/
def permitStage (permits : List Permit) (plan : Fin 8) (m : Mark) (day : Nat) (chosen : Option Session) : SearchStage :=
  let fits := fun p : Permit => p.names plan m && p.inDays day
  match permits.find? (fun p => fits p && !p.suspended), permits.find? (fun p => fits p && p.suspended) with
  | some p, _ => .decided (.coveredPermit p.number p.isBusiness p.toDay)
  | none, some p => .decided (.suspendedPermit p.number p.isBusiness)
  | none, none => .permitRead chosen (outOfDaysOf permits plan m day)

/-- RECENT or NOT_COVERED (R138 (i), (ii)). -/
def lastVerdict (chosen : Option Session) (out : Option OutOfDays) (time : ZoneMinute) (window : Nat) : Verdict :=
  match chosen with
  | none => .notCovered none out
  | some r =>
    if 0 < window ∧ time - r.expiry ≤ window then .recent r.expiry r.ticket (time - r.expiry) out
    else .notCovered (some (r.expiry, time - r.expiry)) out

/-- The read of the grace record (R138). -/
def graceVerdict (g : Grace) (chosen : Option Session) (out : Option OutOfDays) (time : ZoneMinute) (window : Nat) :
    Verdict :=
  match g with
  | .active since => .grace since none out
  | .ending since until_ => .grace since (some until_) out
  | .none => lastVerdict chosen out time window

/-- One read of a search (R133), by the blocks that own the stores. -/
def searchStage (s : State) (q : Search) : SearchStage :=
  match q.stage with
  | .begun =>
    match q.key with
    | .ticket t => .decided (ticketVerdict s.sales.log q.plan t q.time)
    | .mark m => logStage s.sales.log q.plan m q.time
  | .logRead chosen =>
    match q.key with
    | .ticket t => .decided (ticketVerdict s.sales.log q.plan t q.time)
    | .mark m => permitStage s.permits q.plan m (dayOf q.time) chosen
  | .permitRead chosen out => .decided (graceVerdict (row s.faults.grace q.plan) chosen out q.time q.window)
  | .decided v => .decided v

/-- The reads that are left: a search makes at most three (R133). -/
def searchVerdict (s : State) (q : Search) : Verdict :=
  let q1 := { q with stage := searchStage s q }
  let q2 := { q1 with stage := searchStage s q1 }
  match searchStage s q2 with
  | .decided v => v
  | _ => .unknown

/-- One read of the search in flight, taken by itself (log entry 2). -/
def stepSearch (s : State) : State :=
  match s.cover.search with
  | none => s
  | some q => onCover (fun c => { c with search := some { q with stage := searchStage s q } }) s

/-- Has the search in flight a read to make? -/
def searchHasRead (s : State) : Bool :=
  match s.cover.search with
  | none => false
  | some q =>
    match q.stage with
    | .decided _ => false
    | _ => true

/-! ## Slots (R129 to R134) -/

/-- The slot the unit takes when it is free (R132). -/
def nextCover (c : CoverUnit) : Option (PortId × CoverRequest) :=
  match c.office, c.service with
  | .waiting a, .waiting b => if c.last = .office then some (.service, b) else some (.office, a)
  | .waiting a, _ => some (.office, a)
  | _, .waiting b => some (.service, b)
  | _, _ => none

/-- The record of a search as it begins (R133). -/
def searchOf (s : State) (id : PortId) (r : CoverRequest) : Search :=
  { source := id, plan := r.plan, key := r.key, time := now s, window := s.cover.window, stage := .begun }

/-- The slot taken becomes SEARCHING and is the one served last (R132). -/
def startSearch (id : PortId) (r : CoverRequest) (s : State) : State :=
  onCover (fun c => { c.setSlot id (.searching r) with last := id, search := some (searchOf s id r) }) s

/-- The unit's choice while it is free (R132). With the clock UNSET the search completes at once, refused CLOCK_UNSET
(R133), and the unit chooses again; there are two slots. -/
def chooseCover : Nat → State → State
  | 0, s => s
  | fuel + 1, s =>
    match s.cover.search, nextCover s.cover with
    | none, some (id, r) =>
      if clockSet s then startSearch id r s
      else
        chooseCover fuel (answerDeferred id r.tag .clockUnset .empty
          (onCover (fun c => { c.setSlot id .empty with last := id }) s))
    | _, _ => s

def chooseSearch (s : State) : State := chooseCover 2 s

/-- The tag of the COVER whose search is in flight. -/
def slotTag : CoverSlot → Tag
  | .waiting r => r.tag
  | .searching r => r.tag
  | .empty => 0

/-- The answer of a search with verdict `v` goes to its port, its slot becomes EMPTY, and the unit chooses again
(R134). -/
def completeSearch (q : Search) (v : Verdict) (s : State) : State :=
  chooseSearch (answerDeferred q.source (slotTag (s.cover.slot q.source)) .ok (.verdict q.plan q.key q.time v)
    (onCover (fun c => { c.setSlot q.source .empty with search := none }) s))

def CoverSlot.isEmpty : CoverSlot → Bool
  | .empty => true
  | _ => false

/-- The acceptance of a COVER (R130): its slot becomes WAITING, and a free unit begins at once (R132). -/
def acceptCover (id : PortId) (r : CoverRequest) (s : State) : State :=
  chooseSearch (deferAnswer id (onCover (fun c => c.setSlot id (.waiting r)) s))

/-! ## The commands -/

/-- COVER (R130, R131). -/
def execCover (source : Source) (tag : Tag) (fields : CoverFields) (s : State) : Answered :=
  .next (takeCommand source tag (readCover fields).isSome .officer (fun s =>
    match readCover fields with
    | none => s
    | some (p, k) =>
      if !clockSet s then answerPort source.port tag .clockUnset .empty s
      else if (s.cover.slot source.port).isEmpty then acceptCover source.port { tag := tag, plan := p, key := k } s
      else answerPort source.port tag .busy .empty s) s)

/-- SEARCH_BEGIN (R132, R133). An acceptance and a completion make the choice themselves, so this row finds a free unit
with a WAITING slot only in a state put together from outside (log entry 2). -/
def execSearchBegin (s : State) : Answered := .next (whenRunning chooseSearch s)

/-- SEARCH_COMPLETE (R134): the search in flight makes the reads it has left and ends. -/
def execSearchComplete (s : State) : Answered :=
  .next (whenRunning (fun s =>
    match s.cover.search with
    | none => s
    | some q => completeSearch q (searchVerdict s q) s) s)

/-- SET_RECENT_WINDOW (R140). -/
def execSetRecentWindow (tag : Tag) (window : Nat) (s : State) : Answered :=
  .next (officeCommand tag (decide (window ≤ 30)) (fun s =>
    answerPort .office tag .ok (.window s.cover.window window) (onCover (fun c => { c with window := window }) s)) s)

end Sys2Proof.Machine
end

