-- ==== Sys2Proof/Machine/Fault.lean ====
section
/-!
DEFINITION. Machine/Fault.lean: the fault unit's commands (chapter 9): reports, line silence and noise, grace tails,
acknowledging, clearing and reading faults, the notice settings and the addressed notices. Raising and clearing
themselves stand in Machine/Flags.lean.
-/
namespace Sys2Proof.Machine

/-! ## Line health (R166, R167) -/

/-- The comparison of R166 for one terminal: ACTIVE, LINE_SILENT CLEAR, and ten minutes past the last-heard time. -/
def silentDue (table : Vector Entry 16) (now : ZoneMinute) (n : Line) (f : FaultTable) : Bool :=
  (row table n).active && !(terminalRecord f n .lineSilent).standing && decide ((row table n).lastHeard + 10 ≤ now)

/-- LINE_SILENT is raised where the comparison holds, with the last-heard time as detail (R164, R166). -/
def silenceIn (table : Vector Entry 16) (now : ZoneMinute) (n : Line) (w : Watch) : Watch :=
  if silentDue table now n w.1 then raiseIn table now false n .lineSilent (some (row table n).lastHeard) w else w

/-- At an hour boundary LINE_NOISY is cleared on each line whose completed count is below 16, and every count is zeroed
(R76, R167). -/
def hourCounts (s : State) : State :=
  let s := onFaults (fun w => (List.finRange 16).foldl (fun w n =>
    if (row s.table n).discards < 16 then clearIn s.table s.clock.reading n .lineNoisy w else w) w) s
  { s with table := changeAll s.table fun e => { e with discards := 0 } }

/-! ## Grace tails (R175) -/

/-- Is an ENDING record at its until time? -/
def Grace.due (g : Grace) (now : ZoneMinute) : Bool :=
  match g with
  | .ending _ until_ => decide (until_ ≤ now)
  | _ => false

/-- A tail at its until time ends: the record is NONE and GRACE_ENDED is latched (R175). -/
def endTailIn (now : ZoneMinute) (p : Fin 8) (w : Watch) : Watch :=
  if (row w.1.grace p).due now then ({ w.1 with grace := put w.1.grace p .none }, latchIn .graceEnded w.2) else w

/-! ## Reading (R170) -/

/-- The grace record of the plan of an ACTIVE terminal (R170). -/
def graceReported (s : State) (n : Line) : Option Grace :=
  if (row s.table n).active then some (row s.faults.grace (row s.table n).plan) else none

/-- The zone kinds not CLEAR (R170). The table of sets of section 11.1 has no row for zone kinds; bit n is the kind of code n, from 0
CLOCK_UNSET to 3 LOG_PRESSURE (DESIGN CHOICE, log entry 10). -/
def zoneSet (records : Vector FaultRecord 4) : BitVec 4 :=
  (List.finRange 4).foldl (fun acc i => if (row records i).standing then acc ||| (1#4 <<< i.val) else acc) 0

/-- The reply fields of READ-FAULTS (R170). -/
def faultReport (s : State) (scope : Nat) : Body :=
  if scope = 0 then .zoneFaults s.faults.zone
  else match terminalOf scope with
    | some n => .terminalFaults (row s.faults.terminals n) (serviceState s n) (graceReported s n)
    | none =>
      .faultSummary
        ((List.finRange 16).map fun n => (serviceState s n, kindSet (row s.faults.terminals n) FaultRecord.standing))
        (zoneSet s.faults.zone) s.faults.grace

/-! ## Acknowledging and clearing (R168, R169) -/

/-- The record of a fault name. -/
def FaultName.record (k : FaultName) (f : FaultTable) : FaultRecord :=
  match k with
  | .zone z => row f.zone z.index
  | .terminal n t => terminalRecord f n t

/-- The fault table with the record of a name replaced. -/
def FaultName.put_ (k : FaultName) (f : FaultTable) (r : FaultRecord) : FaultTable :=
  match k with
  | .zone z => { f with zone := put f.zone z.index r }
  | .terminal n t => putTerminal f n t r

/-- An acknowledgement: the record ACKNOWLEDGED, its last-change time now, no notice; the service state counts the
record as before (R168). -/
def acknowledge (k : FaultName) (s : State) : State :=
  { s with faults := k.put_ s.faults { k.record s.faults with state := .acknowledged, changed := now s } }

/-- The five kinds cleared by command (R169 (ii)). -/
def FaultName.clearable : FaultName → Bool
  | .zone .cashRecordLost => true
  | .zone .roundLapsed => true
  | .terminal _ .boxIdentity => true
  | .terminal _ .unroundedLift => true
  | .terminal _ .cashVariance => true
  | _ => false

/-- A clear by name (R163). -/
def clearNamed (k : FaultName) (s : State) : State :=
  match k with
  | .zone z => clearZone z s
  | .terminal n t => clearFaultOf n t s

/-! ## Addressed notices (R179) -/

/-- Terminals and a set of addressed notices as SET-ADDRESSED carries them: the set not empty and without notice 0. -/
def addressedOk (terminal : Nat) (set : BitVec 8) : Bool :=
  (terminalsOf terminal).isSome && set != 0 && !set.getLsbD 0

/-- Each terminal's addressed-notice set as it stands. -/
def addressedSets (s : State) : Vector (BitVec 8) 16 := Vector.ofFn fun n => (row s.table n).addressed

/-- A change of the addressed notices of the terminals named, answered with each terminal's set as it now stands (R179). -/
def changeAddressed (tag : Tag) (terminal : Nat) (f : BitVec 8 → BitVec 8) (s : State) : State :=
  match terminalsOf terminal with
  | none => s
  | some ns =>
    let s := onEntries ns (fun e => { e with addressed := f e.addressed }) s
    answerPort .office tag .ok (.addressed (addressedSets s)) s

/-! ## The commands -/

/-- Does the raise spare the notice? A DOOR_OPEN while the round is OPEN does (R165). -/
def sparesNotice (s : State) (k : TermFault) : Bool := k == .doorOpen && roundIsOpen s.cash

/-- A FAULT report at the fault unit (R165). -/
def reportFault (n : Line) (k : TermFault) (isRaise : Bool) (s : State) : State :=
  if isRaise then onFaults (raiseIn s.table s.clock.reading (sparesNotice s k) n k none) s else clearFaultOf n k s

/-- FAULT (R165). -/
def execFault (line : Line) (kind direction : Nat) (s : State) : Answered :=
  .next (whenRunning (fun s =>
    match faultReportOf kind direction with
    | none => takeFrame line (some .fault) false (fun s => s) s
    | some (k, isRaise) =>
      takeFrame line (some .fault) true (fun s => answerPending line .ok .empty (reportFault line k isRaise s)) s) s)

/-- LINE_SILENCE (R166): the comparison, which comes only while the clock is SET (log entry 1). -/
def execLineSilence (line : Line) (s : State) : Answered :=
  .next (whenRunning (fun s => if clockSet s then onFaults (silenceIn s.table s.clock.reading line) s else s) s)

/-- GRACE_TAIL_END (R175): the comparison, which comes only while the clock is SET (log entry 1). -/
def execGraceTailEnd (plan : Fin 8) (s : State) : Answered :=
  .next (whenRunning (fun s => if clockSet s then onFaults (endTailIn s.clock.reading plan) s else s) s)

/-- ACK_FAULT (R168). -/
def execAckFault (tag : Tag) (scope kind : Nat) (s : State) : Answered :=
  .next (officeCommand tag (faultNameOf scope kind).isSome (fun s =>
    match faultNameOf scope kind with
    | none => s
    | some k =>
      if (k.record s.faults).state = .opened then answerPort .office tag .ok .empty (acknowledge k s)
      else refuseOffice tag .already s) s)

/-- CLEAR_FAULT (R169). -/
def execClearFault (source : Source) (tag : Tag) (scope kind : Nat) (s : State) : Answered :=
  .next (takeCommand source tag (faultNameOf scope kind).isSome .engineer (fun s =>
    match faultNameOf scope kind with
    | none => s
    | some k =>
      if !k.clearable then answerPort source.port tag .badField .empty s
      else if (k.record s.faults).state = .clear then answerPort source.port tag .already .empty s
      else answerPort source.port tag .ok .empty (clearNamed k s)) s)

/-- READ_FAULTS (R170). -/
def execReadFaults (source : Source) (tag : Tag) (scope : Nat) (s : State) : Answered :=
  .next (takeCommand source tag (decide (scope ≤ 17)) .engineer
    (fun s => answerPort source.port tag .ok (faultReport s scope) s) s)

/-- READ_NOTICES (R177): the office pending set is returned and emptied, and CALL falls. -/
def execReadNotices (tag : Tag) (s : State) : Answered :=
  .next (officeCommand tag true (fun s =>
    answerPort .office tag .ok (.notices s.notices.office s.notices.enable s.notices.call s.notices.lamp)
      { s with notices := { s.notices with office := 0 } }) s)

/-- READ_SITE_NOTICES (R177): the site pending set is returned and emptied, and LAMP falls. -/
def execReadSiteNotices (tag : Tag) (badge : Nat) (s : State) : Answered :=
  .next (takeCommand (.service badge) tag true .engineer (fun s =>
    answerPort .service tag .ok (.siteNotices s.notices.site) { s with notices := { s.notices with site := 0 } }) s)

/-- SET_NOTICES (R178). -/
def execSetNotices (tag : Tag) (enable call lamp : BitVec 16) (s : State) : Answered :=
  .next (officeCommand tag ((noticeSetOf enable).isSome && (noticeSetOf call).isSome && (noticeSetOf lamp).isSome)
    (fun s =>
      match noticeSetOf enable, noticeSetOf call, noticeSetOf lamp with
      | some e, some c, some l =>
        answerPort .office tag .ok (.noticeSettings s.notices.enable s.notices.call s.notices.lamp e c l)
          { s with notices := { s.notices with enable := e, call := c, lamp := l } }
      | _, _, _ => s) s)

/-- SET_ADDRESSED (R179). -/
def execSetAddressed (tag : Tag) (terminal : Nat) (notices : BitVec 8) (s : State) : Answered :=
  .next (officeCommand tag (addressedOk terminal notices) (changeAddressed tag terminal fun a => a ||| notices) s)

/-- RESET_ADDRESSED (R179). -/
def execResetAddressed (tag : Tag) (terminal : Nat) (notices : BitVec 8) (s : State) : Answered :=
  .next (officeCommand tag (addressedOk terminal notices) (changeAddressed tag terminal fun a => a &&& ~~~notices) s)

end Sys2Proof.Machine
end

