-- ==== Sys2Proof/Machine/Boundary.lean ====
section
/-!
DEFINITION. Machine/Boundary.lean: minute boundaries and steps of the zone clock (R2, R4 to R6): what each block does
when the clock hands one over, the minute boundary, the clock setting, and the count of CLKIN.
-/
namespace Sys2Proof.Machine

/-! ## The fault unit at a boundary (R166, R175) -/

/-- Every line is compared (R166). -/
def silenceAll (table : Vector Entry 16) (now : ZoneMinute) (w : Watch) : Watch :=
  (List.finRange 16).foldl (fun w n => silenceIn table now n w) w

/-- A tail's end meets, at this boundary, a re-evaluation that finds its plan unserved (R175): the tail is at its until
time, and a line that falls silent leaves the plan without service. -/
def racing (table : Vector Entry 16) (now : ZoneMinute) (w : Watch) (p : Fin 8) : Bool :=
  (row w.1.grace p).due now && !unservedIn table w.1 p && unservedIn table (silenceAll table now w).1 p

/-- The tails whose end is taken before that re-evaluation, as the free choice of R175 gives (log entry 6). -/
def tailsTakenFirst (table : Vector Entry 16) (now : ZoneMinute) (choices : Nat) (w : Watch) : Watch :=
  (List.finRange 8).foldl (fun acc p =>
    if racing table now w p && Config.tailEndFirst (choices + p.val) then endTailIn now p acc else acc) w

/-- Line silence, grace tails and re-evaluation at a boundary or step (R166, R175). -/
def watchBoundary (table : Vector Entry 16) (now : ZoneMinute) (choices : Nat) (w : Watch) : Watch :=
  let w := silenceAll table now (tailsTakenFirst table now choices w)
  let w := (List.finRange 8).foldl (fun w p => endTailIn now p w) w
  (List.finRange 8).foldl (fun w p => regraceIn table now p w) w

/-- Is a free order drawn at this boundary? -/
def racesHere (s : State) : Bool := someRow (racing s.table s.clock.reading (s.faults, s.notices))

/-- The fault unit's part of a boundary or step; a free order drawn counts one for each plan. -/
def watchLines (s : State) : State :=
  { onFaults (watchBoundary s.table s.clock.reading s.choices) s with
    choices := if racesHere s then s.choices + 8 else s.choices }

/-! ## Handing over (R2, R5, R6) -/

/-- Every terminal's test limit is compared (R91 (ii)). -/
def endTests (s : State) : State := (List.finRange 16).foldl (fun s n => endTestIfDue n s) s

/-- The daily work of a day boundary: overrides, daily totals, permits (R12, R111, R127). -/
def dayWork (s : State) : State := removePermits (openDayRecords (removeOverrides s))

/-- A boundary or step handed to the blocks: each makes its comparisons against the reading (R6). Each acts on its own
state alone and on the notice sets, so the order between blocks does not matter, but for one thing: the STALE reply to a request
that the end of a test withdraws forms its envelope at once (R79, R89, R91), after the activation of a book and before the hour
counts and line silence. That order is the model's (DESIGN CHOICE, log entry 30). -/
def handOver (isDay isHour : Bool) (s : State) : State :=
  let s := if isDay then dayWork s else s
  let s := activateIfDue s
  let s := endTests s
  let s := if isHour then hourCounts s else s
  watchLines (lapseIfDue (pruneLog s))

/-- A change of the clock alone. -/
def onClock (f : Clock → Clock) (s : State) : State := { s with clock := f s.clock }

/-! ## The minute boundary (R1, R2) -/

/-- The boundary that would follow day 65,535, 23:59: the clock passes to UNSET, and CLOCK_UNSET is raised, at the
restart if the blocks are stopped (R2, R14; log entry 5). -/
def overflow (s : State) : State :=
  if running s then raiseZone .clockUnset none (onClock (fun c => { c with state := .unset }) s)
  else onClock (fun c => { c with state := .unset, overran := true }) s

/-- The reading advances, and the sub-minute count restarts (R2). -/
def Clock.advanced (c : Clock) : Clock := { c with reading := c.reading + 1, subMinute := 0 }

/-- The handed reading takes the reading (R1). -/
def Clock.handOn (c : Clock) : Clock := { c with handed := c.reading }

/-- The sub-minute count completes a minute (R1, R2). While the blocks are stopped the reading advances alone (R14). -/
def minuteBoundary (s : State) : State :=
  if !clockSet s then s
  else if lastReading ≤ now s then overflow s
  else
    let s := onClock Clock.advanced s
    if running s then
      handOver (decide (minuteOf (now s) = 0)) (decide (now s % 60 = 0)) (onClock Clock.handOn s)
    else s

/-- One cycle of CLKIN while the clock is SET (R1; log entry 2). -/
def tick (s : State) : State :=
  if !clockSet s then s
  else if s.clock.subMinute + 1 < cyclesPerMinute then onClock (fun c => { c with subMinute := c.subMinute + 1 }) s
  else minuteBoundary s

/-! ## The clock setting (R4, R5) -/

/-- The clock after a SET-CLOCK (R4 (i) to (iii)). -/
def Clock.setTo (c : Clock) (z : ZoneMinute) : Clock :=
  { c with state := .set, reading := z, handed := z, subMinute := 0 }

/-- Is the step a day boundary? (R5) -/
def stepIsDay (s : State) (z : ZoneMinute) : Bool := !clockSet s || dayOf z != today s

/-- Is it an hour boundary? (R5) -/
def stepIsHour (s : State) (z : ZoneMinute) : Bool := stepIsDay s z || hourOf z != hourOf (now s)

/-- An accepted SET-CLOCK (R4, R5, R43 (iv), R89 (v)). -/
def setClock (z : ZoneMinute) (s : State) : State :=
  handOver (stepIsDay s z) (stepIsHour s z)
    (markForStep (cancelAllQuotes (clearZone .clockUnset (onClock (fun c => c.setTo z) s))))

/-! ## The commands -/

/-- MINUTE_BOUNDARY (R2). -/
def execMinuteBoundary (s : State) : Answered := .next (minuteBoundary s)

/-- SET_CLOCK (R4). -/
def execSetClock (tag : Tag) (day minute : Nat) (s : State) : Answered :=
  .next (officeCommand tag (timeInRange day minute) (fun s =>
    answerPort .office tag .ok (.reading (zoneMinute day minute)) (setClock (zoneMinute day minute) s)) s)

end Sys2Proof.Machine
end

