-- ==== Sys2Proof/Machine/Restart.lean ====
section
/-!
DEFINITION. Machine/Restart.lean: cold and warm restarts (section 10.6), the restart step, the supply and NRESET; and
the meanings of POWER_UP, NRESET_RELEASE, NRESET_ASSERTION, SUPPLY_LOSS and COMMANDED_RESTART.
-/
namespace Sys2Proof.Machine

/-! ## Cold (R188) -/

/-- A cold start: every block at its cold values, the straps read. Pins, wire and queues of what is to come stay. -/
def coldStart (s : State) : State :=
  { State.reset with ports := PortUnit.cold s.pins.straps, pins := s.pins, wire := s.wire, choices := s.choices, pending := s.pending }

/-! ## Warm (R14, R39, R72, R95, R141, R188, R189) -/

/-- An entry after a warm restart (R95). -/
def Entry.warm (e : Entry) (time : ZoneMinute) : Entry := { e with mode := .normal, lastHeard := time }

/-- The port unit after a warm restart: badges kept, both ports cleared, the reason recorded, the straps read (R181,
R188, R189). -/
def PortUnit.warm (u : PortUnit) (reason : RestartReason) (straps : BitVec 8) : PortUnit :=
  { office := Port.cold, service := Port.cold, badges := u.badges, reason := reason, zoneId := straps,
    restarting := false }

/-- The blocks at their warm values. -/
def warmBlocks (reason : RestartReason) (s : State) : State :=
  { s with
    books := s.books.warm, engine := Engine.cold, lines := Vector.replicate 16 LineUnit.cold
    table := changeAll s.table fun e => e.warm s.clock.reading
    quotes := Vector.replicate 16 none, cover := { CoverUnit.cold with window := s.cover.window }
    ports := s.ports.warm reason s.pins.straps }

/-- A clock that passed to UNSET while the blocks were stopped: the fault unit raises CLOCK_UNSET at the restart (R14). -/
def tellOverrun (s : State) : State :=
  if s.clock.overran then raiseZone .clockUnset none (onClock (fun c => { c with overran := false }) s) else s

/-- The restart step is a day boundary (R14). -/
def restartIsDay (c : Clock) : Bool := dayOf c.reading != dayOf c.handed

/-- It is an hour boundary (R14). -/
def restartIsHour (c : Clock) : Bool := restartIsDay c || hourOf c.reading != hourOf c.handed

/-- The restart step from the handed reading to the present one; an UNSET clock hands none (R14). -/
def restartStep (s : State) : State :=
  if clockSet s then handOver (restartIsDay s.clock) (restartIsHour s.clock) (onClock Clock.handOn s) else s

/-- A warm restart: warm values, RESTARTED latched through the settings as kept, then the restart step (R180, R188). -/
def warmRestart (reason : RestartReason) (s : State) : State :=
  restartStep (latch .restarted (tellOverrun (warmBlocks reason s)))

/-! ## Restarts by the pins (R188) -/

/-- The straps and BACKUP GOOD as they are found. -/
def Pins.sampled (p : Pins) (backupGood : Bool) (straps : BitVec 8) : Pins :=
  { p with backupGood := backupGood, straps := straps }

/-- The restart that BACKUP GOOD gives: warm with reason SUPPLY when high, cold when low (R188). -/
def restartBySample (s : State) : State := if s.pins.backupGood then warmRestart .supply s else coldStart s

/-- The answer of a RESTART is the reply being sent on the office link (R190 (iv)). -/
def restartAnswerSending (s : State) : Bool :=
  match s.ports.office.sending with
  | some r => r.answer.body == .restarting
  | none => false

/-! ## The commands -/

/-- COMMANDED_RESTART (R190 (iv)): the last character of the RESTART answer has left the office link. -/
def execCommandedRestart (straps : BitVec 8) (s : State) : Answered :=
  .next (whenRunning (fun s =>
    if restartAnswerSending s then
      warmRestart .command { s with pins := s.pins.sampled s.pins.backupGood straps }
    else s) s)

/-- POWER_UP (R188): the supply rises and a restart is made. -/
def execPowerUp (backupGood : Bool) (straps : BitVec 8) (s : State) : Answered :=
  .next (restartBySample { s with pins := { s.pins.sampled backupGood straps with supply := true } })

/-- NRESET_RELEASE (R188): a restart is made where the main supply is present. -/
def execNresetRelease (backupGood : Bool) (straps : BitVec 8) (s : State) : Answered :=
  .next (
    let s := { s with pins := { s.pins.sampled backupGood straps with nresetLow := false } }
    if s.pins.supply then restartBySample s else s)

/-- SUPPLY_LOSS (R14): the blocks stop, and the clock goes on. -/
def execSupplyLoss (s : State) : Answered := .next { s with pins := { s.pins with supply := false } }

/-- NRESET_ASSERTION (R188; log entry 7): NRESET is held low until its release. -/
def execNresetAssertion (s : State) : Answered := .next { s with pins := { s.pins with nresetLow := true } }

end Sys2Proof.Machine
end

