-- ==== Sys2Proof/Machine/Port.lean ====
section
/-!
DEFINITION. Machine/Port.lean: the port unit's own commands and events (chapter 10): badges, the status report, the end
of a port reply, RESTART, and what is discarded or refused at a port. Taking a command and appending an answer stand in
Machine/Ops.lean, restarts in Machine/Restart.lean.
-/
namespace Sys2Proof.Machine

/-- A change of the port unit alone. -/
def onPorts (f : PortUnit → PortUnit) (s : State) : State := { s with ports := f s.ports }

/-- The badge list holds up to 32 entries (R184). -/
abbrev badgeRoom : Nat := 32

/-- A badge number in its range (R184). -/
def badgeNumberOk (n : Nat) : Bool := decide (1 ≤ n ∧ n ≤ 99999)

/-- A reply to PUT-BADGE, with the held count (R184). -/
def answerBadges (tag : Tag) (status : Status) (s : State) : State :=
  answerPort .office tag status (.badgesHeld s.ports.badges.length) s

/-- PUT-BADGE of a number and role set in range (R184). -/
def putBadge (tag : Tag) (number : Nat) (roles : BitVec 3) (s : State) : State :=
  if (lookup Badge.number number s.ports.badges).isNone && decide (badgeRoom ≤ s.ports.badges.length) then
    answerBadges tag .full s
  else
    answerBadges tag .ok (onPorts (fun u =>
      { u with badges := upsert Badge.number { number := number, roles := roles } u.badges }) s)

/-! ## The status report (R187) -/

/-- The activation day, where the staged book is ARMED or CHECKING (R187). -/
def activationDayReported (b : BookStore) : Option Nat :=
  if b.stagedState == .armed || b.stagedState == .checking then b.activationDay else none

def reasonCode : RestartReason → Nat
  | .cold => 0
  | .supply => 1
  | .command => 2

/-- The report of READ-STATUS, taken in one event (R187). -/
def statusReport (s : State) : StatusReport :=
  { zoneId := s.ports.zoneId.toNat, reason := reasonCode s.ports.reason,
    time := s.clock.reading, clock := s.clock.state, overrides := s.clock.overrides.length,
    activeState := s.books.activeState, stagedState := s.books.stagedState, retired := s.books.retired,
    generation := s.books.generation, revision := s.books.revision,
    activationDay := activationDayReported s.books, check := s.books.check,
    logHeld := s.sales.log.length, lowestSerial := lowestSerial s.sales.log, nextSerial := s.sales.nextSerial,
    permitsHeld := s.permits.length,
    liftsHeld := s.cash.lifts.length, liftsAwaiting := (s.cash.lifts.filter Lift.awaiting).length,
    round := s.cash.round.map fun r => (r.state, r.number), tolerance := s.cash.tolerance,
    roundLimit := s.cash.roundLimit, window := s.cover.window,
    officePending := s.notices.office, sitePending := s.notices.site, badgesHeld := s.ports.badges.length }

/-! ## Replies and discards (R182, R183, R190) -/

/-- The reply being transmitted ends, and the next queued answer begins (R183). -/
def Port.ended (p : Port) (time : ZoneMinute) (clock : ClockState) : Port :=
  if p.sending.isSome then Port.start { p with sending := none } time clock else p

/-- The partial frame of a port is dropped without reply; no count is kept (R182). -/
def dropPortFrame (id : PortId) (s : State) : State := onPorts (fun u => u.onPort id fun p => { p with frame := none }) s

/-! ## The commands -/

/-- PUT_BADGE (R184): every reply carries the held count. -/
def execPutBadge (tag : Tag) (number : Nat) (roles : BitVec 8) (s : State) : Answered :=
  .next (officeCommand tag true (fun s =>
    match badgeNumberOk number, roleSetOf roles with
    | true, some r => putBadge tag number r s
    | _, _ => answerBadges tag .badField s) s)

/-- DROP_BADGE (R185). -/
def execDropBadge (tag : Tag) (number : Nat) (s : State) : Answered :=
  .next (officeCommand tag (badgeNumberOk number) (fun s =>
    if (lookup Badge.number number s.ports.badges).isNone then refuseOffice tag .already s
    else answerBadges tag .ok (onPorts (fun u => { u with badges := dropKey Badge.number number u.badges }) s)) s)

/-- READ_STATUS (R187). -/
def execReadStatus (source : Source) (tag : Tag) (s : State) : Answered :=
  .next (takeCommand source tag true .any (fun s =>
    answerPort source.port tag .ok (.status (statusReport s)) s) s)

/-- PORT_FRAME_DISCARD (R182). -/
def execPortFrameDiscard (port : PortId) (s : State) : Answered := .next (whenRunning (dropPortFrame port) s)

/-- PORT_REPLY_END (R183). The end of a RESTART answer on the office link makes the restart (R190 (iv)). -/
def execPortReplyEnd (port : PortId) (s : State) : Answered :=
  .next (whenRunning (fun s =>
    if port = .office ∧ restartAnswerSending s then warmRestart .command s
    else onPorts (fun u => u.onPort port fun p => p.ended s.clock.reading s.clock.state) s) s)

/-- RESTART (R190); on the service port it is refused BAD_FIELD. -/
def execRestart (source : Source) (tag : Tag) (s : State) : Answered :=
  .next (takeCommand source tag (decide (source = .office)) .any (fun s =>
    onPorts (fun u => { u with restarting := true }) (answerPort .office tag .ok .restarting s)) s)

/-- PORT_RECEIVE_TIMEOUT (R182). -/
def execPortReceiveTimeout (port : PortId) (s : State) : Answered := .next (whenRunning (dropPortFrame port) s)

/-- UNKNOWN_PORT_COMMAND_KIND (R183 (i)): a kind that is not a command of the port. -/
def execUnknownPortCommandKind (source : Source) (tag : Tag) (s : State) : Answered :=
  .next (takeCommand source tag false .any (fun s => s) s)

end Sys2Proof.Machine
end

