-- ==== Sys2Proof/Machine/Codec.lean ====
section
/-!
DEFINITION. Machine/Codec.lean: how numbers, times, marks, sets and codes are carried, the frames with their check, and
the decoding of every request and command (sections 11.1 to 11.3, 11.6). The widths of fields that chapter 11 does not
lay out are log entry 10.
-/
namespace Sys2Proof.Machine

/-! ## Numbers, times, marks (section 11.1) -/

/-- A number in `k` bytes, high byte first. -/
def bytesOf : Nat → Nat → List Byte
  | 0, _ => []
  | k + 1, n => BitVec.ofNat 8 (n / 256 ^ k) :: bytesOf k n

/-- The number that bytes carry, high byte first. -/
def natOf (l : List Byte) : Nat := l.foldl (fun n b => n * 256 + b.toNat) 0

/-- `k` bytes from an offset. -/
def slice (l : List Byte) (off k : Nat) : List Byte := (l.drop off).take k

/-- The number in `k` bytes from an offset. -/
def field (l : List Byte) (off k : Nat) : Nat := natOf (slice l off k)

/-- A zone time: day in 2 bytes, minute in 2; a time beyond day 65,535 is a free value (log entry 8). -/
def timeBytes (z : ZoneMinute) : List Byte :=
  if dayOf z ≤ lastDay then bytesOf 2 (dayOf z) ++ bytesOf 2 (minuteOf z) else bytesOf 4 (Config.timeBeyond z).toNat

/-- The zone minute of a time carried in 4 bytes. -/
def timeAt (l : List Byte) (off : Nat) : ZoneMinute := zoneMinute (field l off 2) (field l (off + 2) 2)

/-- A vehicle mark in 9 bytes: its length, then its characters with zeros beyond them. -/
def markBytes (m : Option Mark) : List Byte :=
  let cs := (m.getD []).map fun c => BitVec.ofNat 8 c.toNat
  BitVec.ofNat 8 cs.length :: (cs ++ List.replicate (8 - cs.length) 0)

/-- Stands for a mark field that is out of range: no range check admits it, in a used place or an empty one (R191). -/
def badMark : Mark := [' ']

/-- The mark that 9 bytes carry: none for length 0, a mark of 2 to 8 characters, else one that is refused (R191). -/
def markOf (l : List Byte) : Option Mark :=
  match l with
  | [] => none
  | n :: cs =>
    if (cs.drop n.toNat).any (fun c => c != 0) then some badMark
    else if n = 0 then none
    else if n.toNat ≤ 8 then
      (let m := (cs.take n.toNat).map fun c => Char.ofNat c.toNat
       if markInRange m then some m else some badMark)
    else some badMark

def boolByte (b : Bool) : List Byte := bytesOf 1 (if b then 1 else 0)

/-! ## Frames and their check (R192) -/

/-- One bit into the check register: generator x^16 + x^12 + x^5 + 1. -/
def checkBit (reg : BitVec 16) (b : Bool) : BitVec 16 :=
  if reg.getLsbD 15 != b then (reg <<< 1) ^^^ 0x1021 else reg <<< 1

/-- One byte into the register, most significant bit first. -/
def checkByte (reg : BitVec 16) (c : Byte) : BitVec 16 :=
  [7, 6, 5, 4, 3, 2, 1, 0].foldl (fun r i => checkBit r (c.getLsbD i)) reg

/-- The check: the register starts at all ones and is taken as it stands at the end. -/
def checkOf (l : List Byte) : BitVec 16 := l.foldl checkByte 0xFFFF

/-- The flag that opens a request frame. -/
def requestFlag : Byte := 0xC3

/-- The flag that opens a reply frame. -/
def replyFlag : Byte := 0x3C

/-- The longest content of a request. -/
abbrev longestContent : Nat := 120

/-- A request frame. -/
def requestFrame (content : List Byte) : List Byte :=
  let body := bytesOf 1 content.length ++ content
  requestFlag :: (body ++ bytesOf 2 (checkOf body).toNat)

/-- A reply frame. -/
def replyFrame (content : List Byte) : List Byte :=
  let body := bytesOf 2 content.length ++ content
  replyFlag :: (body ++ bytesOf 2 (checkOf body).toNat)

/-! ## Terminal requests (section 11.3) -/

def quoteFieldsOf (p : List Byte) : QuoteFields :=
  { payKind := field p 0 1, amount := field p 1 2, minutes := field p 3 2, permit := field p 5 4,
    mark := markOf (slice p 9 9) }

def priceFieldsOf (p : List Byte) : PriceFields :=
  { payKind := field p 0 1, day := field p 1 2, minute := field p 3 2, mark := markOf (slice p 9 9) }

/-- Eight numbers of 2 bytes: coin counts or coin values. -/
def eightOf (p : List Byte) (off : Nat) : Vector Nat 8 := Vector.ofFn fun i => field p (off + 2 * i.val) 2

def saleFieldsOf (p : List Byte) : SaleFields :=
  { number := field p 0 1, payKind := field p 1 1, counts := eightOf p 2, card := field p 18 2 }

/-- The request a valid frame on line n carries; UNKNOWN_REQUEST_KIND also stands for a payload of the wrong length or
with a reserved byte that is not zero, which is answered BAD_FIELD in the same way (R77 (i), R191). -/
def decodeLine (n : Line) (content : List Byte) : Instr :=
  match content with
  | [] => .unknownRequestKind n
  | k :: p =>
    match k.toNat, p.length with
    | 1, 0 => .hello n
    | 2, 18 => .quote n (quoteFieldsOf p)
    | 3, 18 => if field p 5 4 = 0 then .price n (priceFieldsOf p) else .unknownRequestKind n
    | 4, 20 => .sale n (saleFieldsOf p)
    | 5, 2 => .fault n (field p 0 1) (field p 1 1)
    | 6, 2 => .boxOut n (field p 0 2)
    | 7, 2 => .boxIn n (field p 0 2)
    | _, _ => .unknownRequestKind n

/-! ## Book-image parts (section 11.6) -/

def planPartOf (p : List Byte) : PlanPart :=
  { plan := field p 0 1, presence := field p 1 1, minuteStep := field p 2 1, roundingMode := field p 3 1,
    coinUnit := field p 4 1, minimumCharge := field p 5 2, noReturn := field p 7 2 }

def dayPartOf (p : List Byte) : DayPart :=
  { plan := field p 0 1, dayType := field p 1 1, count := field p 2 1,
    entries := (List.range 6).map fun i =>
      { start := field p (3 + 6 * i) 2, kind := field p (5 + 6 * i) 1, ladder := field p (6 + 6 * i) 1,
        maximumStay := field p (7 + 6 * i) 2 } }

def ladderPartOf (p : List Byte) : LadderPart :=
  { ladder := field p 0 1, count := field p 1 1,
    entries := (List.range 6).map fun i => { limit := field p (2 + 4 * i) 2, rate := field p (4 + 4 * i) 2 } }

/-- The 2-bit type code of entry `i`, counted from 0, entry 0 in the two highest bits of the first byte. -/
def typeCodeAt (p : List Byte) (i : Nat) : Nat := field p (1 + i / 4) 1 / 4 ^ (3 - i % 4) % 4

def calendarPartOf (p : List Byte) : CalendarPart :=
  { count := field p 0 1,
    entries := (List.range 48).map fun i => { day := field p (13 + 2 * i) 2, typeCode := typeCodeAt p i } }

/-! ## Commands (sections 10.3, 10.4, 11.1, 11.3) -/

def previewFieldsOf (p : List Byte) : PreviewFields :=
  { form := field p 0 1, plan := field p 1 1, payKind := field p 2 1, amount := field p 3 2, minutes := field p 5 2,
    permit := field p 7 4, wantedDay := field p 11 2, wantedMinute := field p 13 2,
    pass := BitVec.ofNat 16 (field p 15 2), timed := field p 17 1, day := field p 18 2, minute := field p 20 2 }

def terminalFieldsOf (p : List Byte) : TerminalFields :=
  { terminal := field p 0 1, plan := field p 1 1, takesCoins := field p 2 1 == 1, takesCards := field p 3 1 == 1,
    asksMark := field p 4 1 == 1, pass := BitVec.ofNat 16 (field p 5 2), capacity := field p 7 2 }

/-- The three features are yes or no. -/
def featuresOk (p : List Byte) : Bool := decide (field p 2 1 ≤ 1 ∧ field p 3 1 ≤ 1 ∧ field p 4 1 ≤ 1)

def permitFieldsOf (p : List Byte) : PermitFields :=
  { number := field p 0 4, kind := field p 4 1, state := field p 5 1, plans := BitVec.ofNat 8 (field p 6 1),
    fromDay := field p 7 2, toDay := field p 9 2, markCount := field p 11 1,
    marks := Vector.ofFn fun i => (markOf (slice p (12 + 9 * i.val) 9)).getD [],
    grant := field p 39 2, period := field p 41 1 }

/-- COVER's payload; reserved key bytes that are not zero make the key one that is refused (R191). -/
def coverFieldsOf (p : List Byte) : CoverFields :=
  if field p 1 1 = 1 then
    { plan := field p 0 1, keyKind := 1, zone := field p 2 1, terminal := field p 3 1, sequence := field p 4 3,
      mark := if field p 7 4 = 0 then [] else badMark }
  else
    { plan := field p 0 1, keyKind := field p 1 1, zone := 0, terminal := 0, sequence := 0,
      mark := (markOf (slice p 2 9)).getD [] }

/-- The bank selector of READ-BOOK: 0 ACTIVE, 1 STAGED (log entry 10). -/
def selectorOf : Nat → Option BookSelector
  | 0 => some .active
  | 1 => some .staged
  | _ => none

/-- The command that a frame of kind k with a payload of the wrong length, or with a code that no command spells, stands for.
UNKNOWN_PORT_COMMAND_KIND is refused BAD_FIELD alike (R183 (i)); for the four kinds whose every reply carries a field of its
own block (R9, R123, R184), it is that command with an operand out of range, so that the refusal carries the field (log
entry 21). -/
def misshapen (k : Nat) (tag : Tag) : Instr :=
  match k with
  | 17 => .setOverride tag 0 255
  | 18 => .dropOverride tag 65536
  | 39 => .readPermit tag 0 0
  | 53 => .putBadge tag 0 0
  | _ => .unknownPortCommandKind .office tag

/-- The command a valid frame on the office link carries, with its tag taken off (R183 (i), R191). -/
def decodeOffice (k : Nat) (tag : Tag) (p : List Byte) : Instr :=
  match k, p.length with
  | 16, 4 => .setClock tag (field p 0 2) (field p 2 2)
  | 17, 3 => .setOverride tag (field p 0 2) (field p 2 1)
  | 18, 2 => .dropOverride tag (field p 0 2)
  | 19, 9 => .loadPlan tag (planPartOf p)
  | 20, 39 => .loadDay tag (dayPartOf p)
  | 21, 26 => .loadLadder tag (ladderPartOf p)
  | 22, 109 => .loadCalendar tag (calendarPartOf p)
  | 23, 0 => .copyActive tag
  | 24, 0 => .clearStaged tag
  | 25, 2 => .armBook tag (field p 0 2)
  | 26, 0 => .disarmBook tag
  | 27, 2 =>
    match selectorOf (field p 0 1) with
    | some b => .readBook tag b (field p 1 1)
    | none => misshapen 27 tag
  | 28, 22 => .previewQuote tag (previewFieldsOf p)
  | 29, 9 =>
    if featuresOk p then .configureTerminal tag (terminalFieldsOf p) else misshapen 29 tag
  | 30, 1 => .retireTerminal tag (field p 0 1)
  | 31, 3 => .setConditions tag (field p 0 1) (BitVec.ofNat 16 (field p 1 2))
  | 32, 1 => .clearConditions tag (field p 0 1)
  | 33, 1 => .lineReset .office tag (field p 0 1)
  | 34, 5 => .fetchSessions tag (field p 0 4) (field p 4 1)
  | 35, 1 => .readTotals tag (field p 0 1)
  | 36, 42 => .putPermit tag (permitFieldsOf p)
  | 37, 4 => .dropPermit tag (field p 0 4)
  | 38, 5 => .setPermitState tag (field p 0 4) (field p 4 1)
  | 39, 5 => .readPermit tag (field p 0 4) (field p 4 1)
  | 40, 11 => .cover .office tag (coverFieldsOf p)
  | 41, 1 => .setRecentWindow tag (field p 0 1)
  | 42, 16 => .setCoins tag (eightOf p 0)
  | 43, 4 => .setCashLimits tag (field p 0 2) (field p 2 2)
  | 44, 6 => .countResult tag (field p 0 2) (field p 2 4)
  | 45, 2 => .readLifts tag (field p 0 1) (field p 1 1)
  | 46, 1 => .readFaults .office tag (field p 0 1)
  | 47, 2 => .ackFault tag (field p 0 1) (field p 1 1)
  | 48, 2 => .clearFault .office tag (field p 0 1) (field p 1 1)
  | 49, 6 =>
    .setNotices tag (BitVec.ofNat 16 (field p 0 2)) (BitVec.ofNat 16 (field p 2 2)) (BitVec.ofNat 16 (field p 4 2))
  | 50, 0 => .readNotices tag
  | 51, 2 => .setAddressed tag (field p 0 1) (BitVec.ofNat 8 (field p 1 1))
  | 52, 2 => .resetAddressed tag (field p 0 1) (BitVec.ofNat 8 (field p 1 1))
  | 53, 4 => .putBadge tag (field p 0 3) (BitVec.ofNat 8 (field p 3 1))
  | 54, 3 => .dropBadge tag (field p 0 3)
  | 55, 0 => .readStatus .office tag
  | 56, 0 => .restart .office tag
  | k, _ => misshapen k tag

/-- The request a valid frame on the service port carries, with its tag and badge taken off. -/
def decodeService (k : Nat) (tag : Tag) (badge : Nat) (p : List Byte) : Instr :=
  match k, p.length with
  | 64, 11 => .cover (.service badge) tag (coverFieldsOf p)
  | 65, 2 => .openRound tag badge (field p 0 2)
  | 66, 0 => .closeRound tag badge
  | 67, 0 => .roundStatus tag badge
  | 68, 1 => .testLine tag badge (field p 0 1)
  | 69, 1 => .endTest tag badge (field p 0 1)
  | 70, 1 => .lineReset (.service badge) tag (field p 0 1)
  | 71, 1 => .readFaults (.service badge) tag (field p 0 1)
  | 72, 2 => .clearFault (.service badge) tag (field p 0 1) (field p 1 1)
  | 73, 0 => .readSiteNotices tag badge
  | 74, 0 => .readStatus (.service badge) tag
  | _, _ => .unknownPortCommandKind (.service badge) tag

/-- The command of a valid frame on a port; content too short for its kind, tag and badge is discarded (R182). -/
def decodePort (id : PortId) (content : List Byte) : Instr :=
  match id, content with
  | .office, k :: tag :: p => decodeOffice k.toNat tag p
  | .service, k :: tag :: a :: b :: c :: p => decodeService k.toNat tag (natOf [a, b, c]) p
  | id, _ => .portFrameDiscard id

end Sys2Proof.Machine
end

