-- ==== Sys2Proof/Machine/Replies.lean ====
section
/-!
DEFINITION. Machine/Replies.lean: the bytes of every reply and record (chapter 11): what a line or port transmits for the
reply its unit holds. Reply fields stand in the order in which their owning rule names them; the layouts that chapter 11
does not give are log entry 10.
-/
namespace Sys2Proof.Machine

/-! ## Codes (section 11.1) -/

def Status.code : Status → Nat
  | .ok => 0 | .busy => 1 | .badField => 2 | .notConfigured => 3 | .clockUnset => 4 | .noPlan => 5
  | .outOfService => 6 | .cashOut => 7 | .cardOut => 8 | .held => 9 | .noQuote => 10 | .stale => 11
  | .mismatch => 12 | .noPermit => 13 | .permitInvalid => 14 | .thin => 15 | .logFull => 16 | .already => 17
  | .denied => 18 | .noRound => 19 | .noLift => 20 | .full => 21 | .inUse => 22 | .armed => 23 | .duplicate => 24

def PayKind.code : PayKind → Nat
  | .cash => 1 | .card => 2 | .visitor => 3

def SessionKind.code : SessionKind → Nat
  | .paidCash => 1 | .paidCard => 2 | .visitor => 3 | .test => 4

def Service.code : Service → Nat
  | .notConfigured => 0 | .inService => 1 | .cashOut => 2 | .cardOut => 3 | .paymentOut => 4 | .outOfService => 5

def Mode.code : Mode → Nat
  | .normal => 0 | .test => 1

def ClockState.code : ClockState → Nat
  | .unset => 0 | .set => 1

def RecordState.code : RecordState → Nat
  | .clear => 0 | .opened => 1 | .acknowledged => 2

def CheckOutcome.code : CheckOutcome → Nat
  | .none => 0 | .passed => 1 | .failed => 2

def RoundState.code : RoundState → Nat
  | .opened => 1 | .closed _ => 2 | .lapsed _ => 3

def Grace.code : Grace → Nat
  | .none => 0 | .active _ => 1 | .ending _ _ => 2

def Rounding.code : Rounding → Nat
  | .floor => 1 | .ceil => 2 | .halfUp => 3 | .halfEven => 4

/-! ## Sets and optional fields -/

/-- A condition set in 2 bytes. -/
def condBytes (c : CondSet) : List Byte := bytesOf 2 c.toNat

def noticeBytes (n : NoticeSet) : List Byte := bytesOf 2 n.toNat

/-- A table of yes and no as a bit map, row i as bit i. -/
def mapOf {n : Nat} (t : Vector Bool n) : Nat := ((List.finRange n).map fun i => if row t i then 2 ^ i.val else 0).sum

/-- A set of terminals in 2 bytes: terminal n + 1 as bit n. -/
def lineSetBytes (t : LineSet) : List Byte := bytesOf 2 (mapOf t)

/-- Eight numbers of 2 bytes. -/
def eightBytes (t : Vector Nat 8) : List Byte := t.toList.flatMap (bytesOf 2)

/-- Zeros. -/
def zeroBytes (k : Nat) : List Byte := List.replicate k 0

/-- A field of k bytes behind a presence byte: 1 and the field, or 0 and zeros where it is absent (R191; log entry 10). -/
def presentBytes {α : Type} (k : Nat) (f : α → List Byte) (x : Option α) : List Byte :=
  match x with
  | none => zeroBytes (k + 1)
  | some a => bytesOf 1 1 ++ f a

/-- A number of k bytes behind a presence byte. -/
def optionBytes (k : Nat) (x : Option Nat) : List Byte := presentBytes k (bytesOf k) x

/-- A time behind a presence byte. -/
def optionTimeBytes (x : Option ZoneMinute) : List Byte := presentBytes 4 timeBytes x

/-- A serial, or EXHAUSTED as 0 (R191). -/
def serialBytes (x : Option Nat) : List Byte := bytesOf 4 (x.getD 0)

/-- A variance: sign byte and magnitude (R191). -/
def varianceBytes (v : Int) : List Byte := bytesOf 1 (if v < 0 then 1 else 0) ++ bytesOf 4 v.natAbs

def ticketBytes (t : Ticket) : List Byte := bytesOf 1 t.zone ++ bytesOf 1 t.terminal ++ bytesOf 3 t.sequence

/-! ## Records (sections 11.4 to 11.6) -/

/-- The presence flags of a session record. -/
def sessionFlags (r : Session) : Nat :=
  (if r.mark.isSome then 1 else 0) + (if r.linked.isSome then 2 else 0) +
    (match r.payment with
      | .cash _ => 4
      | .card _ => 8
      | .visitor _ _ => 16)

/-- The coin counts, card amount, permit number and granted minutes of a session record: those of another payment
zero. -/
def paymentBytes : SessionPayment → List Byte
  | .cash counts => eightBytes counts ++ bytesOf 8 0
  | .card amount => bytesOf 16 0 ++ bytesOf 2 amount ++ bytesOf 6 0
  | .visitor permit granted => bytesOf 18 0 ++ bytesOf 4 permit ++ bytesOf 2 granted

/-- The pay kind of a session record. -/
def SessionPayment.payKind : SessionPayment → PayKind
  | .cash _ => .cash
  | .card _ => .card
  | .visitor _ _ => .visitor

/-- The session record in 81 bytes (section 11.4). -/
def sessionBytes (r : Session) : List Byte :=
  bytesOf 4 r.serial ++ ticketBytes r.ticket ++ bytesOf 1 r.kind.code ++ bytesOf 1 r.payment.payKind.code ++
    bytesOf 1 r.plan.val ++ bytesOf 1 (sessionFlags r) ++ timeBytes r.issue ++ timeBytes r.sold ++
    timeBytes r.start ++ timeBytes r.expiry ++ bytesOf 2 r.price ++ bytesOf 2 r.overpaid ++
    paymentBytes r.payment ++ markBytes r.mark ++ bytesOf 4 (r.linked.getD 0) ++ timeBytes r.finalStart ++
    bytesOf 2 r.finalMinutes ++ condBytes r.conds ++ bytesOf 2 r.generation.toNat ++ boolByte r.usedStaged

/-- The state and count fields of a lift record. -/
def liftStateBytes : LiftState → List Byte
  | .awaiting => bytesOf 1 1 ++ bytesOf 13 0
  | .reconciled c => bytesOf 1 2 ++ bytesOf 4 c.value ++ varianceBytes c.variance ++ timeBytes c.time
  | .variance c => bytesOf 1 3 ++ bytesOf 4 c.value ++ varianceBytes c.variance ++ timeBytes c.time

/-- The lift record in 50 bytes (section 11.5). -/
def liftBytes (l : Lift) : List Byte :=
  bytesOf 4 l.serial ++ bytesOf 2 l.round ++ bytesOf 1 l.terminal.number ++
    bytesOf 1 ((if l.label.isSome then 1 else 0) + (if l.awaiting then 0 else 2)) ++ bytesOf 2 l.box ++
    bytesOf 2 (l.label.getD 0) ++ timeBytes l.lifted ++ eightBytes l.counts ++ bytesOf 4 l.expected ++
    liftStateBytes l.state

/-- A plan header part in 9 bytes; an absent one is marked so, with every other field zero (R38). -/
def planBytes (p : Fin 8) (h : Option PlanHeader) : List Byte :=
  match h with
  | none => zeroBytes 9
  | some h =>
    bytesOf 1 p.val ++ bytesOf 1 1 ++ bytesOf 1 h.minuteStep ++ bytesOf 1 h.rounding.code ++ bytesOf 1 h.coinUnit ++
      bytesOf 2 h.minimumCharge ++ bytesOf 2 h.noReturn

/-- A period entry in 6 bytes. -/
def periodBytes (p : Period) : List Byte :=
  bytesOf 2 p.start ++
    (match p.kind with
      | .charged l m => bytesOf 1 1 ++ bytesOf 1 l.val ++ bytesOf 2 m
      | .free => bytesOf 1 2 ++ bytesOf 3 0
      | .noSale => bytesOf 1 3 ++ bytesOf 3 0)

/-- A part filled with zeros to its length. -/
def padded (k : Nat) (l : List Byte) : List Byte := l ++ zeroBytes (k - l.length)

/-- A day pattern part in 39 bytes; an absent one has count 0 and every other byte zero (section 11.6). -/
def dayBytes (p : Fin 8) (t : Fin 9) (pattern : Option (List Period)) : List Byte :=
  match pattern with
  | none => zeroBytes 39
  | some ps => padded 39 (bytesOf 1 p.val ++ bytesOf 1 t.val ++ bytesOf 1 ps.length ++ ps.flatMap periodBytes)

/-- A ladder part in 26 bytes; an absent one has count 0 and every other byte zero (section 11.6). -/
def ladderBytes (l : Fin 16) (steps : Option (List LadderStep)) : List Byte :=
  match steps with
  | none => zeroBytes 26
  | some st =>
    padded 26 (bytesOf 1 l.val ++ bytesOf 1 st.length ++ st.flatMap fun s => bytesOf 2 s.limit ++ bytesOf 2 s.rate)

/-- The 2-bit type code of a calendar entry: 1 EVENT, 2 HOLIDAY. -/
def calendarCode (e : CalendarEntry) : Nat := if e.dayType = 8 then 2 else 1

/-- The 12 bytes of type codes, entry 1 in the two highest bits of the first byte: a number of 96 bits. -/
def typeCodes (entries : List CalendarEntry) : Nat :=
  (entries.zipIdx.map fun e => calendarCode e.1 * 4 ^ (47 - e.2)).sum

/-- The calendar part in 109 bytes. -/
def calendarBytes (entries : List CalendarEntry) : List Byte :=
  padded 109 (bytesOf 1 entries.length ++ bytesOf 12 (typeCodes entries) ++ entries.flatMap fun e => bytesOf 2 e.day)

def partBytes : BookPart → List Byte
  | .header code plans ladders entries =>
    bytesOf 1 code ++ bytesOf 1 (mapOf plans) ++ bytesOf 2 (mapOf ladders) ++ bytesOf 1 entries ++ bytesOf 3 0
  | .plan p h => planBytes p h
  | .day p t ps => dayBytes p t ps
  | .ladder l steps => ladderBytes l steps
  | .calendar entries => calendarBytes entries

def stampBytes : BookStamp → List Byte
  | .active g => bytesOf 2 g.toNat
  | .staged st r d => bytesOf 1 (stagedCode st) ++ bytesOf 2 r.toNat ++ optionBytes 2 d

/-! ## Reply fields -/

/-- The fields of a result, in the order of R65, for the reply to a PRICE too, where R69 names W′, the price and the expiry first
(DESIGN CHOICE, log entry 10). -/
def resultBytes (r : WalkResult) : List Byte :=
  bytesOf 1 r.plan.val ++ bytesOf 1 r.payKind.code ++ bytesOf 1 r.mode.code ++ timeBytes r.walkTime ++
    timeBytes r.start ++ boolByte r.linked.isSome ++ timeBytes r.expiry ++
    (match r.terms with
      | .money amount price excess => bytesOf 2 amount ++ bytesOf 2 price ++ bytesOf 2 excess ++ bytesOf 6 0
      | .visitor permit granted => bytesOf 6 0 ++ bytesOf 4 permit ++ bytesOf 2 granted) ++
    markBytes r.mark ++ bytesOf 4 (r.linked.getD 0) ++ timeBytes r.finalStart ++ bytesOf 2 r.finalMinutes ++
    condBytes r.conds ++ bytesOf 2 r.generation.toNat ++ bytesOf 2 r.revision.toNat ++ boolByte r.usedStaged ++
    optionTimeBytes r.wanted

/-- A day record (R110). -/
def totalsBytes (r : DayRecord) : List Byte :=
  bytesOf 2 r.day ++ bytesOf 4 r.cashValue ++ bytesOf 4 r.cardValue ++ bytesOf 4 r.overpaidValue ++
    bytesOf 4 r.visitorMinutes ++ bytesOf 4 r.testCashValue ++ bytesOf 2 r.cashSales ++ bytesOf 2 r.cardSales ++
    bytesOf 2 r.visitorSales ++ bytesOf 2 r.testSales ++ bytesOf 2 r.quotesMade ++ bytesOf 2 r.quotesHeld ++
    condBytes r.conds

def PermitKind.code : PermitKind → Nat
  | .resident _ => 1 | .business _ => 2 | .visitorBook _ => 3

/-- An entry of the register, in the order of R116; the fields its kind does not hold are zero. -/
def permitBytes (p : Permit) : List Byte :=
  bytesOf 4 p.number ++ bytesOf 1 p.kind.code ++ bytesOf 1 (if p.suspended then 2 else 1) ++
    bytesOf 1 p.plans.toNat ++ bytesOf 2 p.fromDay ++ bytesOf 2 p.toDay ++ bytesOf 1 p.marks.length ++
    padded 27 (p.marks.flatMap fun m => markBytes (some m)) ++
    (match p.kind with
      | .visitorBook b => bytesOf 2 b.grant ++ bytesOf 2 b.allowance ++ bytesOf 1 b.period ++ bytesOf 3 b.nextRefresh
      | _ => bytesOf 8 0)

/-- The key of a COVER answer (R134), which no table lays out: a byte for its kind, 1 TICKET or 2 MARK, and the key in the 9 bytes
of a mark, a ticket with 4 zero bytes behind it (DESIGN CHOICE, log entry 10). -/
def keyBytes : CoverKey → List Byte
  | .ticket t => bytesOf 1 1 ++ ticketBytes t ++ bytesOf 4 0
  | .mark m => bytesOf 1 2 ++ markBytes (some m)

def outOfDaysBytes (o : Option OutOfDays) : List Byte :=
  presentBytes 8 (fun o => bytesOf 4 o.permit ++ bytesOf 2 o.fromDay ++ bytesOf 2 o.toDay) o

/-- RESIDENT or BUSINESS, as a permit kind code. -/
def coverKindBytes (business : Bool) : List Byte := bytesOf 1 (if business then 2 else 1)

/-- A verdict: its code and the fields it gives (R135 to R139). -/
def verdictBytes : Verdict → List Byte
  | .unknown => bytesOf 1 1
  | .testTicket serial terminal issue => bytesOf 1 2 ++ bytesOf 4 serial ++ bytesOf 1 terminal ++ timeBytes issue
  | .wrongPlan serial plan expiry => bytesOf 1 3 ++ bytesOf 4 serial ++ bytesOf 1 plan.val ++ timeBytes expiry
  | .valid serial kind start expiry =>
    bytesOf 1 4 ++ bytesOf 4 serial ++ bytesOf 1 kind.code ++ timeBytes start ++ timeBytes expiry
  | .expired serial kind expiry since =>
    bytesOf 1 5 ++ bytesOf 4 serial ++ bytesOf 1 kind.code ++ timeBytes expiry ++ bytesOf 4 since
  | .coveredSession expiry ticket kind serial =>
    bytesOf 1 6 ++ timeBytes expiry ++ ticketBytes ticket ++ bytesOf 1 kind.code ++ bytesOf 4 serial
  | .coveredPermit number business toDay => bytesOf 1 7 ++ bytesOf 4 number ++ coverKindBytes business ++ bytesOf 2 toDay
  | .suspendedPermit number business => bytesOf 1 8 ++ bytesOf 4 number ++ coverKindBytes business
  | .grace since until_ out => bytesOf 1 9 ++ timeBytes since ++ optionTimeBytes until_ ++ outOfDaysBytes out
  | .recent expiry ticket since out =>
    bytesOf 1 10 ++ timeBytes expiry ++ ticketBytes ticket ++ bytesOf 4 since ++ outOfDaysBytes out
  | .notCovered chosen out =>
    bytesOf 1 11 ++ presentBytes 8 (fun c => timeBytes c.1 ++ bytesOf 4 c.2) chosen ++ outOfDaysBytes out

/-- A fault record, in the order of R161; its detail behind a presence byte (section 11.1). -/
def recordBytes (r : FaultRecord) : List Byte :=
  bytesOf 1 r.state.code ++ timeBytes r.first ++ timeBytes r.changed ++ bytesOf 1 r.count ++ optionBytes 4 r.detail

/-- A grace record: state, since time and until time, zero where it has none. -/
def graceBytes : Grace → List Byte
  | .none => bytesOf 9 0
  | .active since => bytesOf 1 1 ++ timeBytes since ++ bytesOf 4 0
  | .ending since until_ => bytesOf 1 2 ++ timeBytes since ++ timeBytes until_

/-- The end time of a CLOSED or LAPSED round, zero in OPEN. -/
def roundEndBytes : RoundState → List Byte
  | .opened => bytesOf 4 0
  | .closed z => timeBytes z
  | .lapsed z => timeBytes z

/-- The round record and what ROUND-STATUS gives with it; in NONE the state alone (R155). The state says whether there is an
end time, which is zero in OPEN; the lapse time stands behind a presence byte; the tallies stand bare, with neither a count nor
their terminals' numbers, which the planned set gives (DESIGN CHOICE, log entry 10). -/
def roundStatusBytes (round : Option Round) (missed : LineSet) (tallies : List (Line × Bool × Nat × Nat))
    (lapse : Option ZoneMinute) : List Byte :=
  match round with
  | none => bytesOf 1 0
  | some r =>
    bytesOf 1 r.state.code ++ bytesOf 2 r.number ++ bytesOf 3 r.badge ++ timeBytes r.openTime ++
      roundEndBytes r.state ++ lineSetBytes r.planned ++ lineSetBytes r.lifted ++ lineSetBytes missed ++
      (tallies.flatMap fun t => boolByte t.2.1 ++ bytesOf 2 t.2.2.1 ++ bytesOf 2 t.2.2.2) ++ optionTimeBytes lapse

/-- A finding in 4 bytes, in the order of R32: its kind, the plan where one is named, the day type or the ladder where one is
named, and the index. A field that the kind does not name is zero; the index of a PLAN_MISSING is its terminal, that of a
PATTERN_MISSING zero (R30). -/
def findingBytes (f : Finding) : List Byte :=
  let four := fun (kind plan typeOrLadder index : Nat) =>
    bytesOf 1 kind ++ bytesOf 1 plan ++ bytesOf 1 typeOrLadder ++ bytesOf 1 index
  match f with
  | .ladderOrder l i => four 1 0 l.val i
  | .patternMissing p t => four 2 p.val t.val 0
  | .periodOrder p t i => four 3 p.val t.val i
  | .ladderMissing p t i => four 4 p.val t.val i
  | .planMissing p n => four 5 p.val 0 n.number

/-- The check record: outcome, total count, and the findings kept (R20 (x)). That the findings stand behind the number kept, in
room for eight, is the model's choice (log entry 10). -/
def checkBytes (c : CheckRecord) : List Byte :=
  bytesOf 1 c.outcome.code ++ bytesOf 2 c.count ++ bytesOf 1 c.findings.length ++
    padded 32 (c.findings.flatMap findingBytes)

/-- The groups of READ-STATUS in order (R187). -/
def statusBytes (r : StatusReport) : List Byte :=
  bytesOf 1 r.zoneId ++ bytesOf 1 r.reason ++ timeBytes r.time ++ bytesOf 1 r.clock.code ++ bytesOf 1 r.overrides ++
    bytesOf 1 (activeCode r.activeState) ++ bytesOf 1 (stagedCode r.stagedState) ++ boolByte r.retired ++
    bytesOf 2 r.generation.toNat ++ bytesOf 2 r.revision.toNat ++ optionBytes 2 r.activationDay ++
    checkBytes r.check ++ bytesOf 2 r.logHeld ++ bytesOf 4 r.lowestSerial ++ serialBytes r.nextSerial ++
    bytesOf 2 r.permitsHeld ++ bytesOf 1 r.liftsHeld ++ bytesOf 1 r.liftsAwaiting ++
    (match r.round with
      | none => bytesOf 3 0
      | some (st, number) => bytesOf 1 st.code ++ bytesOf 2 number) ++
    bytesOf 2 r.tolerance ++ bytesOf 2 r.roundLimit ++ bytesOf 1 r.window ++ noticeBytes r.officePending ++
    noticeBytes r.sitePending ++ bytesOf 1 r.badgesHeld

/-- The reply fields of a body. No table of chapter 11 lays these out, but for the sessions, lifts and book parts: how a field
that may be absent is sent (SOLD's granted minutes, READ_FAULTS' grace record, the entry of READ_PERMIT), how an IN_USE
refusal names its coin slots, that the sets of all sixteen terminals (CLEAR_CONDITIONS, SET_ADDRESSED, RESET_ADDRESSED, the summary of
READ_FAULTS) stand bare in rising order of terminal, and the widths, are the model's choice (log entry 10). The held count of `sessions` is log
entry 28. -/
def bodyBytes : Body → List Byte
  | .empty => []
  | .reading z => timeBytes z
  | .overrides t => bytesOf 1 t.length ++ t.flatMap fun o => bytesOf 2 o.day ++ bytesOf 1 o.dayType.val
  | .revision r => bytesOf 2 r.toNat
  | .bookPart stamp number part => stampBytes stamp ++ bytesOf 1 number ++ partBytes part
  | .bookStamp stamp => stampBytes stamp
  | .quoted r number => resultBytes r ++ bytesOf 1 number
  | .previewed r => resultBytes r
  | .held k raised => bytesOf 1 k.index ++ condBytes raised
  | .sold serial ticket start expiry price overpaid granted =>
    bytesOf 4 serial ++ ticketBytes ticket ++ timeBytes start ++ timeBytes expiry ++ bytesOf 2 price ++
      bytesOf 2 overpaid ++ optionBytes 2 granted
  | .lifted serial box counts expected => bytesOf 4 serial ++ bytesOf 2 box ++ eightBytes counts ++ bytesOf 4 expected
  | .conditions c => condBytes c
  | .conditionSets sets => sets.flatMap fun x => condBytes x.2
  | .sessions lowest next records held =>
    bytesOf 4 lowest ++ serialBytes next ++ bytesOf 1 records.length ++ records.flatMap sessionBytes ++ bytesOf 2 held
  | .totals records => bytesOf 1 records.length ++ records.flatMap totalsBytes
  | .permit entry held => presentBytes 47 permitBytes entry ++ bytesOf 2 held
  | .permitPut entry replaced held => permitBytes entry ++ boolByte replaced ++ bytesOf 2 held
  | .permitEntry p => permitBytes p
  | .heldCount n => bytesOf 2 n
  | .badgesHeld n => bytesOf 1 n
  | .verdict plan key time v => bytesOf 1 plan.val ++ keyBytes key ++ timeBytes time ++ verdictBytes v
  | .window before now => bytesOf 1 before ++ bytesOf 1 now
  | .coins values => eightBytes values
  | .slotsInUse slots => bytesOf 1 slots.length ++ slots.flatMap fun i => bytesOf 1 (i.val + 1)
  | .lifts held next records => bytesOf 1 held ++ bytesOf 4 next ++ bytesOf 1 records.length ++ records.flatMap liftBytes
  | .planned set => lineSetBytes set
  | .roundStatus round missed tallies lapse => roundStatusBytes round missed tallies lapse
  | .roundClosed planned lifted missed => lineSetBytes planned ++ lineSetBytes lifted ++ lineSetBytes missed
  | .counted serial expected value variance reconciled =>
    bytesOf 4 serial ++ bytesOf 4 expected ++ bytesOf 4 value ++ varianceBytes variance ++
      bytesOf 1 (if reconciled then 2 else 3)
  | .limits a b c d => bytesOf 2 a ++ bytesOf 2 b ++ bytesOf 2 c ++ bytesOf 2 d
  | .zoneFaults records => records.toList.flatMap recordBytes
  | .terminalFaults records service grace =>
    records.toList.flatMap recordBytes ++ bytesOf 1 service.code ++ presentBytes 9 graceBytes grace
  | .faultSummary terminals zone grace =>
    (terminals.flatMap fun t => bytesOf 1 t.1.code ++ bytesOf 2 t.2.toNat) ++ bytesOf 1 zone.toNat ++
      grace.toList.flatMap fun g => bytesOf 1 g.code
  | .notices pending enable call lamp =>
    noticeBytes pending ++ noticeBytes enable ++ noticeBytes call ++ noticeBytes lamp
  | .siteNotices pending => noticeBytes pending
  | .noticeSettings a b c d e f =>
    noticeBytes a ++ noticeBytes b ++ noticeBytes c ++ noticeBytes d ++ noticeBytes e ++ noticeBytes f
  | .addressed sets => sets.toList.flatMap fun x => bytesOf 1 x.toNat
  | .status r => statusBytes r
  | .restarting => []

/-! ## Reply frames (R79, R183, R192) -/

/-- The envelope after the status, offsets 1 to 10 (section 11.2). -/
def envelopeBytes (e : Envelope) : List Byte :=
  timeBytes e.time ++ bytesOf 1 e.clock.code ++ bytesOf 1 e.service.code ++ bytesOf 1 e.mode.code ++
    bytesOf 1 e.addressed.toNat ++ bytesOf 2 e.acknowledged.toNat

/-- What TXD carries for a reply on a terminal line. -/
def lineReplyFrame (r : LineReply) : List Byte :=
  replyFrame (bytesOf 1 r.answer.status.code ++ envelopeBytes r.envelope ++ bodyBytes r.answer.body)

/-- What a port's transmit pin carries for a reply. -/
def portReplyFrame (r : PortReply) : List Byte :=
  replyFrame (bytesOf 1 r.answer.tag.toNat ++ bytesOf 1 r.answer.status.code ++ timeBytes r.time ++
    bytesOf 1 r.clock.code ++ bodyBytes r.answer.body)

/-- The frame a terminal line is transmitting (R73). -/
def lineOutput (s : State) (n : Line) : Option (List Byte) :=
  match (row s.lines n).state with
  | .replying r _ _ => some (lineReplyFrame r)
  | _ => none

/-- The frame a port is transmitting (R183). -/
def portOutput (s : State) (id : PortId) : Option (List Byte) := (s.ports.port id).sending.map portReplyFrame

end Sys2Proof.Machine
end

