-- ==== Sys2Proof/Machine/Wire.lean ====
section
/-!
DEFINITION. Machine/Wire.lean: the receivers (R74, R75, R182): one character, or a silence of 4 character times, moves
the frame being assembled and may complete a command.
-/
namespace Sys2Proof.Machine

/-- What a receiver makes of a frame when a character joins it. -/
inductive Assembly
  | growing (frame : List Byte)
  | bad
  | complete (content : List Byte)
  deriving DecidableEq, Repr

/-- The characters after the flag, when `c` joins them: length, content and check (R74 (ii) to (iv)). -/
def assemble (frame : List Byte) (c : Byte) : Assembly :=
  match frame ++ [c] with
  | [] => .bad
  | n :: rest =>
    if n = 0 ∨ longestContent < n.toNat then .bad
    else if rest.length < n.toNat + 2 then .growing (n :: rest)
    else if rest.drop n.toNat = bytesOf 2 (checkOf (n :: rest.take n.toNat)).toNat then .complete (rest.take n.toNat)
    else .bad

/-- The flag begins a frame: an IDLE unit becomes RECEIVING, a PENDING one stays PENDING (R74 (i)). -/
def LineUnit.flagged (u : LineUnit) : LineUnit :=
  match u.state with
  | .idle => { u with state := .receiving, frame := some [] }
  | _ => { u with frame := some [] }

/-- A character on line n (R74, R75): the state it leaves, and the command it completes. -/
def lineChar (n : Line) (c : Byte) (s : State) : State × Option Instr :=
  let u := row s.lines n
  match u.state, u.frame with
  | .replying _ _ _, _ => (s, some (.collision n))
  | _, none => (if c = requestFlag then onLine n LineUnit.flagged s else s, none)
  | _, some f =>
    match assemble f c with
    | .growing f => (onLine n (fun u => { u with frame := some f }) s, none)
    | .bad => (s, some (.frameDiscard n))
    | .complete content => (s, some (decodeLine n content))

/-- A character on a port (R182); a port hears while it transmits. -/
def portChar (id : PortId) (c : Byte) (s : State) : State × Option Instr :=
  let keep := fun f => onPorts (fun u => u.onPort id fun p => { p with frame := f }) s
  match (s.ports.port id).frame with
  | none => (if c = requestFlag then keep (some []) else s, none)
  | some f =>
    match assemble f c with
    | .growing f => (keep (some f), none)
    | .bad => (s, some (.portFrameDiscard id))
    | .complete content => (keep none, some (decodePort id content))

/-- Four character times with no character (R74 (v), R182): a time-out where a frame is being assembled. -/
def silenceAt (at_ : Receiver) (s : State) : Option Instr :=
  match at_ with
  | .line n => if (row s.lines n).frame.isSome then some (.receiveTimeout n) else none
  | .port id => if (s.ports.port id).frame.isSome then some (.portReceiveTimeout id) else none

/-- A receiver takes what has arrived, while the blocks run (log entry 3). -/
def receive (e : WireEvent) (s : State) : State × Option Instr :=
  if !running s then (s, none)
  else match e with
    | .char (.line n) c => lineChar n c s
    | .char (.port id) c => portChar id c s
    | .silence at_ => (s, silenceAt at_ s)

/-! ## While no command waits (log entries 2 and 3) -/

/-- What the part does by itself in one step: a stage of the walk in flight, else a read of the search in flight, else a
cycle of CLKIN (log entry 2). -/
def quietStep (s : State) : State :=
  if running s && walkHasStage s then stepWalk s
  else if running s && searchHasRead s then stepSearch s
  else tick s

/-- What a step with no command waiting does first: the next arrival on the wire is taken, or the part works by itself;
and the command that an arrival completes. -/
def arrival (s : State) : State × Option Instr :=
  match s.wire with
  | e :: rest => receive e { s with wire := rest }
  | [] => (quietStep s, none)

end Sys2Proof.Machine
end

