-- ==== Sys2Proof/Machine/Dispatch.lean ====
section
/-!
DEFINITION. Machine/Dispatch.lean: one arm per command, each one call of its meaning.
-/
namespace Sys2Proof.Machine

/-- The effect of a command on everything but the queue. -/
def exec (i : Instr) (s : State) : Host.Outcome State Fault Refusal :=
  match i with
  | .minuteBoundary => Sys2Proof.Machine.execMinuteBoundary s
  | .overrideRemoval => Sys2Proof.Machine.execOverrideRemoval s
  | .setClock tag day minute => Sys2Proof.Machine.execSetClock tag day minute s
  | .setOverride tag day dayType => Sys2Proof.Machine.execSetOverride tag day dayType s
  | .dropOverride tag day => Sys2Proof.Machine.execDropOverride tag day s
  | .loadPlan tag part => Sys2Proof.Machine.execLoadPlan tag part s
  | .loadDay tag part => Sys2Proof.Machine.execLoadDay tag part s
  | .loadLadder tag part => Sys2Proof.Machine.execLoadLadder tag part s
  | .loadCalendar tag part => Sys2Proof.Machine.execLoadCalendar tag part s
  | .copyActive tag => Sys2Proof.Machine.execCopyActive tag s
  | .clearStaged tag => Sys2Proof.Machine.execClearStaged tag s
  | .armBook tag day => Sys2Proof.Machine.execArmBook tag day s
  | .bookCheckComplete => Sys2Proof.Machine.execBookCheckComplete s
  | .disarmBook tag => Sys2Proof.Machine.execDisarmBook tag s
  | .bookActivation => Sys2Proof.Machine.execBookActivation s
  | .readBook tag book part => Sys2Proof.Machine.execReadBook tag book part s
  | .quote line fields => Sys2Proof.Machine.execQuote line fields s
  | .price line fields => Sys2Proof.Machine.execPrice line fields s
  | .previewQuote tag fields => Sys2Proof.Machine.execPreviewQuote tag fields s
  | .walkBegin => Sys2Proof.Machine.execWalkBegin s
  | .walkComplete => Sys2Proof.Machine.execWalkComplete s
  | .hello line => Sys2Proof.Machine.execHello line s
  | .unknownRequestKind line => Sys2Proof.Machine.execUnknownRequestKind line s
  | .frameDiscard line => Sys2Proof.Machine.execFrameDiscard line s
  | .receiveTimeout line => Sys2Proof.Machine.execReceiveTimeout line s
  | .collision line => Sys2Proof.Machine.execCollision line s
  | .replyEnd line => Sys2Proof.Machine.execReplyEnd line s
  | .configureTerminal tag fields => Sys2Proof.Machine.execConfigureTerminal tag fields s
  | .retireTerminal tag terminal => Sys2Proof.Machine.execRetireTerminal tag terminal s
  | .setConditions tag terminal pass => Sys2Proof.Machine.execSetConditions tag terminal pass s
  | .clearConditions tag terminal => Sys2Proof.Machine.execClearConditions tag terminal s
  | .lineReset source tag terminal => Sys2Proof.Machine.execLineReset source tag terminal s
  | .testLine tag badge terminal => Sys2Proof.Machine.execTestLine tag badge terminal s
  | .endTest tag badge terminal => Sys2Proof.Machine.execEndTest tag badge terminal s
  | .testLimit line => Sys2Proof.Machine.execTestLimit line s
  | .sale line fields => Sys2Proof.Machine.execSale line fields s
  | .logPruning => Sys2Proof.Machine.execLogPruning s
  | .fetchSessions tag serial count => Sys2Proof.Machine.execFetchSessions tag serial count s
  | .readTotals tag terminal => Sys2Proof.Machine.execReadTotals tag terminal s
  | .putPermit tag fields => Sys2Proof.Machine.execPutPermit tag fields s
  | .dropPermit tag number => Sys2Proof.Machine.execDropPermit tag number s
  | .setPermitState tag number state => Sys2Proof.Machine.execSetPermitState tag number state s
  | .readPermit tag number selector => Sys2Proof.Machine.execReadPermit tag number selector s
  | .permitRemoval => Sys2Proof.Machine.execPermitRemoval s
  | .cover source tag fields => Sys2Proof.Machine.execCover source tag fields s
  | .searchBegin => Sys2Proof.Machine.execSearchBegin s
  | .searchComplete => Sys2Proof.Machine.execSearchComplete s
  | .setRecentWindow tag window => Sys2Proof.Machine.execSetRecentWindow tag window s
  | .setCoins tag values => Sys2Proof.Machine.execSetCoins tag values s
  | .boxOut line label => Sys2Proof.Machine.execBoxOut line label s
  | .boxIn line label => Sys2Proof.Machine.execBoxIn line label s
  | .readLifts tag position count => Sys2Proof.Machine.execReadLifts tag position count s
  | .openRound tag badge number => Sys2Proof.Machine.execOpenRound tag badge number s
  | .roundStatus tag badge => Sys2Proof.Machine.execRoundStatus tag badge s
  | .closeRound tag badge => Sys2Proof.Machine.execCloseRound tag badge s
  | .roundLapse => Sys2Proof.Machine.execRoundLapse s
  | .countResult tag box value => Sys2Proof.Machine.execCountResult tag box value s
  | .setCashLimits tag tolerance limit => Sys2Proof.Machine.execSetCashLimits tag tolerance limit s
  | .fault line kind direction => Sys2Proof.Machine.execFault line kind direction s
  | .lineSilence line => Sys2Proof.Machine.execLineSilence line s
  | .graceTailEnd plan => Sys2Proof.Machine.execGraceTailEnd plan s
  | .ackFault tag scope kind => Sys2Proof.Machine.execAckFault tag scope kind s
  | .clearFault source tag scope kind => Sys2Proof.Machine.execClearFault source tag scope kind s
  | .readFaults source tag scope => Sys2Proof.Machine.execReadFaults source tag scope s
  | .readNotices tag => Sys2Proof.Machine.execReadNotices tag s
  | .readSiteNotices tag badge => Sys2Proof.Machine.execReadSiteNotices tag badge s
  | .setNotices tag enable call lamp => Sys2Proof.Machine.execSetNotices tag enable call lamp s
  | .setAddressed tag terminal notices => Sys2Proof.Machine.execSetAddressed tag terminal notices s
  | .resetAddressed tag terminal notices => Sys2Proof.Machine.execResetAddressed tag terminal notices s
  | .putBadge tag number roles => Sys2Proof.Machine.execPutBadge tag number roles s
  | .dropBadge tag number => Sys2Proof.Machine.execDropBadge tag number s
  | .readStatus source tag => Sys2Proof.Machine.execReadStatus source tag s
  | .portFrameDiscard port => Sys2Proof.Machine.execPortFrameDiscard port s
  | .portReplyEnd port => Sys2Proof.Machine.execPortReplyEnd port s
  | .restart source tag => Sys2Proof.Machine.execRestart source tag s
  | .commandedRestart straps => Sys2Proof.Machine.execCommandedRestart straps s
  | .powerUp backupGood straps => Sys2Proof.Machine.execPowerUp backupGood straps s
  | .nresetRelease backupGood straps => Sys2Proof.Machine.execNresetRelease backupGood straps s
  | .supplyLoss => Sys2Proof.Machine.execSupplyLoss s
  | .portReceiveTimeout port => Sys2Proof.Machine.execPortReceiveTimeout port s
  | .unknownPortCommandKind source tag => Sys2Proof.Machine.execUnknownPortCommandKind source tag s
  | .nresetAssertion => Sys2Proof.Machine.execNresetAssertion s

end Sys2Proof.Machine
end

