-- ==== Sys2Proof/WellFormed.lean ====
section
/-!
DEFINITION. WellFormed.lean: where each command comes from, and which commands a message can carry: every operand fits
the bytes its field has (chapter 11; log entry 10 for the widths chapter 11 does not lay out). A well-formed command may
still hold a value out of its range, which its taking block refuses BAD_FIELD.
-/
namespace Sys2Proof

/-- Where a command comes from: a terminal's line, a port with its tag, or the part itself and its pins. -/
inductive Origin
  | line (n : Line)
  | port (source : Source) (tag : Tag)
  | part
  deriving DecidableEq, Repr

/-- Where each command comes from (sections 4.4, 10.3, 10.4). -/
def Instr.origin : Instr → Origin
  | .minuteBoundary => .part
  | .overrideRemoval => .part
  | .setClock tag _ _ => .port .office tag
  | .setOverride tag _ _ => .port .office tag
  | .dropOverride tag _ => .port .office tag
  | .loadPlan tag _ => .port .office tag
  | .loadDay tag _ => .port .office tag
  | .loadLadder tag _ => .port .office tag
  | .loadCalendar tag _ => .port .office tag
  | .copyActive tag => .port .office tag
  | .clearStaged tag => .port .office tag
  | .armBook tag _ => .port .office tag
  | .bookCheckComplete => .part
  | .disarmBook tag => .port .office tag
  | .bookActivation => .part
  | .readBook tag _ _ => .port .office tag
  | .quote n _ => .line n
  | .price n _ => .line n
  | .previewQuote tag _ => .port .office tag
  | .walkBegin => .part
  | .walkComplete => .part
  | .hello n => .line n
  | .unknownRequestKind n => .line n
  | .frameDiscard n => .line n
  | .receiveTimeout n => .line n
  | .collision n => .line n
  | .replyEnd n => .line n
  | .configureTerminal tag _ => .port .office tag
  | .retireTerminal tag _ => .port .office tag
  | .setConditions tag _ _ => .port .office tag
  | .clearConditions tag _ => .port .office tag
  | .lineReset source tag _ => .port source tag
  | .testLine tag badge _ => .port (.service badge) tag
  | .endTest tag badge _ => .port (.service badge) tag
  | .testLimit _ => .part
  | .sale n _ => .line n
  | .logPruning => .part
  | .fetchSessions tag _ _ => .port .office tag
  | .readTotals tag _ => .port .office tag
  | .putPermit tag _ => .port .office tag
  | .dropPermit tag _ => .port .office tag
  | .setPermitState tag _ _ => .port .office tag
  | .readPermit tag _ _ => .port .office tag
  | .permitRemoval => .part
  | .cover source tag _ => .port source tag
  | .searchBegin => .part
  | .searchComplete => .part
  | .setRecentWindow tag _ => .port .office tag
  | .setCoins tag _ => .port .office tag
  | .boxOut n _ => .line n
  | .boxIn n _ => .line n
  | .readLifts tag _ _ => .port .office tag
  | .openRound tag badge _ => .port (.service badge) tag
  | .roundStatus tag badge => .port (.service badge) tag
  | .closeRound tag badge => .port (.service badge) tag
  | .roundLapse => .part
  | .countResult tag _ _ => .port .office tag
  | .setCashLimits tag _ _ => .port .office tag
  | .fault n _ _ => .line n
  | .lineSilence _ => .part
  | .graceTailEnd _ => .part
  | .ackFault tag _ _ => .port .office tag
  | .clearFault source tag _ _ => .port source tag
  | .readFaults source tag _ => .port source tag
  | .readNotices tag => .port .office tag
  | .readSiteNotices tag badge => .port (.service badge) tag
  | .setNotices tag _ _ _ => .port .office tag
  | .setAddressed tag _ _ => .port .office tag
  | .resetAddressed tag _ _ => .port .office tag
  | .putBadge tag _ _ => .port .office tag
  | .dropBadge tag _ => .port .office tag
  | .readStatus source tag => .port source tag
  | .portFrameDiscard _ => .part
  | .portReplyEnd _ => .part
  | .restart source tag => .port source tag
  | .commandedRestart _ => .part
  | .powerUp _ _ => .part
  | .nresetRelease _ _ => .part
  | .supplyLoss => .part
  | .portReceiveTimeout _ => .part
  | .unknownPortCommandKind source tag => .port source tag
  | .nresetAssertion => .part

/-- The number fits k bytes. -/
def fitsBytes (k n : Nat) : Bool := decide (n < 256 ^ k)

/-- The mark fits its 9 bytes. -/
def markFits (m : Mark) : Bool := decide (m.length ≤ 8) && m.all fun c => fitsBytes 1 c.toNat

def markFieldFits (m : Option Mark) : Bool :=
  match m with
  | none => true
  | some m => markFits m

/-- A badge number has 3 bytes (section 11.2). -/
def Source.fits : Source → Bool
  | .office => true
  | .service b => fitsBytes 3 b

def PlanPart.fits (p : PlanPart) : Bool :=
  [p.plan, p.presence, p.minuteStep, p.roundingMode, p.coinUnit].all (fitsBytes 1) &&
    [p.minimumCharge, p.noReturn].all (fitsBytes 2)

def PeriodPart.fits (p : PeriodPart) : Bool :=
  [p.kind, p.ladder].all (fitsBytes 1) && [p.start, p.maximumStay].all (fitsBytes 2)

def DayPart.fits (p : DayPart) : Bool :=
  [p.plan, p.dayType, p.count].all (fitsBytes 1) && decide (p.entries.length ≤ 6) && p.entries.all PeriodPart.fits

def LadderPart.fits (p : LadderPart) : Bool :=
  [p.ladder, p.count].all (fitsBytes 1) && decide (p.entries.length ≤ 6) &&
    p.entries.all fun s => fitsBytes 2 s.limit && fitsBytes 2 s.rate

def CalendarPart.fits (p : CalendarPart) : Bool :=
  fitsBytes 1 p.count && decide (p.entries.length ≤ 48) &&
    p.entries.all fun e => fitsBytes 2 e.day && decide (e.typeCode < 4)

def QuoteFields.fits (f : QuoteFields) : Bool :=
  fitsBytes 1 f.payKind && [f.amount, f.minutes].all (fitsBytes 2) && fitsBytes 4 f.permit && markFieldFits f.mark

def PriceFields.fits (f : PriceFields) : Bool :=
  fitsBytes 1 f.payKind && [f.day, f.minute].all (fitsBytes 2) && markFieldFits f.mark

def PreviewFields.fits (f : PreviewFields) : Bool :=
  [f.form, f.plan, f.payKind, f.timed].all (fitsBytes 1) &&
    [f.amount, f.minutes, f.wantedDay, f.wantedMinute, f.day, f.minute].all (fitsBytes 2) && fitsBytes 4 f.permit

def TerminalFields.fits (f : TerminalFields) : Bool := [f.terminal, f.plan].all (fitsBytes 1) && fitsBytes 2 f.capacity

def SaleFields.fits (f : SaleFields) : Bool :=
  [f.number, f.payKind].all (fitsBytes 1) && f.counts.toList.all (fitsBytes 2) && fitsBytes 2 f.card

def PermitFields.fits (f : PermitFields) : Bool :=
  fitsBytes 4 f.number && [f.kind, f.state, f.markCount, f.period].all (fitsBytes 1) &&
    [f.fromDay, f.toDay, f.grant].all (fitsBytes 2) && f.marks.toList.all markFits

def CoverFields.fits (f : CoverFields) : Bool :=
  [f.plan, f.keyKind, f.zone, f.terminal].all (fitsBytes 1) && fitsBytes 3 f.sequence && markFits f.mark

/-- Every operand fits its field. The day 65,536 of a DROP_OVERRIDE stands for a payload of the wrong length (log entry 21). -/
def Instr.wellFormed : Instr → Bool
  | .minuteBoundary => true
  | .overrideRemoval => true
  | .setClock _ day minute => fitsBytes 2 day && fitsBytes 2 minute
  | .setOverride _ day dayType => fitsBytes 2 day && fitsBytes 1 dayType
  | .dropOverride _ day => decide (day ≤ 65536)
  | .loadPlan _ part => part.fits
  | .loadDay _ part => part.fits
  | .loadLadder _ part => part.fits
  | .loadCalendar _ part => part.fits
  | .copyActive _ => true
  | .clearStaged _ => true
  | .armBook _ day => fitsBytes 2 day
  | .bookCheckComplete => true
  | .disarmBook _ => true
  | .bookActivation => true
  | .readBook _ _ part => fitsBytes 1 part
  | .quote _ fields => fields.fits
  | .price _ fields => fields.fits
  | .previewQuote _ fields => fields.fits
  | .walkBegin => true
  | .walkComplete => true
  | .hello _ => true
  | .unknownRequestKind _ => true
  | .frameDiscard _ => true
  | .receiveTimeout _ => true
  | .collision _ => true
  | .replyEnd _ => true
  | .configureTerminal _ fields => fields.fits
  | .retireTerminal _ terminal => fitsBytes 1 terminal
  | .setConditions _ terminal _ => fitsBytes 1 terminal
  | .clearConditions _ terminal => fitsBytes 1 terminal
  | .lineReset source _ terminal => source.fits && fitsBytes 1 terminal
  | .testLine _ badge terminal => fitsBytes 3 badge && fitsBytes 1 terminal
  | .endTest _ badge terminal => fitsBytes 3 badge && fitsBytes 1 terminal
  | .testLimit _ => true
  | .sale _ fields => fields.fits
  | .logPruning => true
  | .fetchSessions _ serial count => fitsBytes 4 serial && fitsBytes 1 count
  | .readTotals _ terminal => fitsBytes 1 terminal
  | .putPermit _ fields => fields.fits
  | .dropPermit _ number => fitsBytes 4 number
  | .setPermitState _ number state => fitsBytes 4 number && fitsBytes 1 state
  | .readPermit _ number selector => fitsBytes 4 number && fitsBytes 1 selector
  | .permitRemoval => true
  | .cover source _ fields => source.fits && fields.fits
  | .searchBegin => true
  | .searchComplete => true
  | .setRecentWindow _ window => fitsBytes 1 window
  | .setCoins _ values => values.toList.all (fitsBytes 2)
  | .boxOut _ label => fitsBytes 2 label
  | .boxIn _ label => fitsBytes 2 label
  | .readLifts _ position count => fitsBytes 1 position && fitsBytes 1 count
  | .openRound _ badge number => fitsBytes 3 badge && fitsBytes 2 number
  | .roundStatus _ badge => fitsBytes 3 badge
  | .closeRound _ badge => fitsBytes 3 badge
  | .roundLapse => true
  | .countResult _ box value => fitsBytes 2 box && fitsBytes 4 value
  | .setCashLimits _ tolerance limit => fitsBytes 2 tolerance && fitsBytes 2 limit
  | .fault _ kind direction => fitsBytes 1 kind && fitsBytes 1 direction
  | .lineSilence _ => true
  | .graceTailEnd _ => true
  | .ackFault _ scope kind => fitsBytes 1 scope && fitsBytes 1 kind
  | .clearFault source _ scope kind => source.fits && fitsBytes 1 scope && fitsBytes 1 kind
  | .readFaults source _ scope => source.fits && fitsBytes 1 scope
  | .readNotices _ => true
  | .readSiteNotices _ badge => fitsBytes 3 badge
  | .setNotices _ _ _ _ => true
  | .setAddressed _ terminal _ => fitsBytes 1 terminal
  | .resetAddressed _ terminal _ => fitsBytes 1 terminal
  | .putBadge _ number _ => fitsBytes 3 number
  | .dropBadge _ number => fitsBytes 3 number
  | .readStatus source _ => source.fits
  | .portFrameDiscard _ => true
  | .portReplyEnd _ => true
  | .restart source _ => source.fits
  | .commandedRestart _ => true
  | .powerUp _ _ => true
  | .nresetRelease _ _ => true
  | .supplyLoss => true
  | .portReceiveTimeout _ => true
  | .unknownPortCommandKind source _ => source.fits
  | .nresetAssertion => true

end Sys2Proof
end

