-- ==== Sys2Proof/Safety.lean ====
section
/-!
DEFINITION. Safety.lean: the terms the claims use: which parts of the state a change leaves alone, when a line or port takes
a command, what an answered request looks like, and the invariants of a well kept state.
-/
namespace Sys2Proof.Machine

/-! ## Frames -/

/-- The parts of State, one for each of its fields. -/
inductive Part
  | clock | books | engine | lines | table | quotes | sales | permits | cover | cash | faults | notices | ports
  | pins | wire | choices | pending
  deriving DecidableEq, Repr

/-- Two states agree on a part. -/
def Part.agree (p : Part) (s t : State) : Prop :=
  match p with
  | .clock => t.clock = s.clock
  | .books => t.books = s.books
  | .engine => t.engine = s.engine
  | .lines => t.lines = s.lines
  | .table => t.table = s.table
  | .quotes => t.quotes = s.quotes
  | .sales => t.sales = s.sales
  | .permits => t.permits = s.permits
  | .cover => t.cover = s.cover
  | .cash => t.cash = s.cash
  | .faults => t.faults = s.faults
  | .notices => t.notices = s.notices
  | .ports => t.ports = s.ports
  | .pins => t.pins = s.pins
  | .wire => t.wire = s.wire
  | .choices => t.choices = s.choices
  | .pending => t.pending = s.pending

/-- From `s` to `t` nothing but the parts listed has changed. -/
def onlyChanges (parts : List Part) (s t : State) : Prop := ∀ p, p ∉ parts → p.agree s t

/-- Two tables agree on every row but one. -/
def sameBut {α : Type} {k : Nat} (i : Fin k) (a b : Vector α k) : Prop := ∀ j, j ≠ i → row b j = row a j

/-! ## When a command is taken -/

/-- The office link takes a command: the blocks run, no RESTART is under way, and fewer than six answers are owed (R182,
R190). -/
def officeTakes (s : State) : Prop := listening s .office = true

/-- The service port takes a request of this badge, which is in range and holds the role (R182, R186). -/
def serviceTakes (s : State) (badge : Nat) (role : Role) : Prop :=
  listening s .service = true ∧ 1 ≤ badge ∧ badge ≤ 99999 ∧ badgePasses s.ports.badges (.service badge) role = true

/-- The port of a source takes a command of that source which needs this role. -/
def sourceTakes (s : State) (source : Source) (role : Role) : Prop :=
  match source with
  | .office => officeTakes s
  | .service badge => serviceTakes s badge role

/-- Line n is free to take a frame: the blocks run and its unit is IDLE or RECEIVING, holding no request and no answer (R73,
R77). -/
def lineFree (s : State) (n : Line) : Prop :=
  running s = true ∧ ((row s.lines n).state = .idle ∨ (row s.lines n).state = .receiving) ∧
    (row s.lines n).request = none ∧ (row s.lines n).held = none

/-- Line n is free and its terminal ACTIVE, so that a request in range is accepted (R77). -/
def lineTakes (s : State) (n : Line) : Prop := lineFree s n ∧ (row s.table n).active = true

/-! ## Answers -/

/-- The ports with one answer more: appended to its port's queue, and begun at once where nothing is being sent (R183). -/
def withAnswer (s : State) (id : PortId) (tag : Tag) (status : Status) (body : Body) : PortUnit :=
  s.ports.onPort id fun p =>
    match p.sending, p.queue with
    | none, [] =>
      { p with sending := some { answer := ⟨tag, status, body⟩, time := s.clock.reading, clock := s.clock.state } }
    | none, a :: q =>
      { p with sending := some { answer := a, time := s.clock.reading, clock := s.clock.state },
               queue := q ++ [⟨tag, status, body⟩] }
    | some _, q => { p with queue := q ++ [⟨tag, status, body⟩] }

/-- In `t` line n is transmitting this answer, to return to IDLE, with the envelope of `t`; its request is no longer
pending, and no other line differs from `s` (R77, R79). -/
def answeredOn (s t : State) (n : Line) (status : Status) (body : Body) : Prop :=
  (row t.lines n).state = .replying { answer := ⟨status, body⟩, envelope := envelopeOf t n } false false ∧
    (row t.lines n).request = none ∧ (row t.lines n).held = none ∧ (row t.lines n).frame = none ∧
    sameBut n s.lines t.lines

/-- The state as the owning block finds it when a request on line n is accepted: the line PENDING, and the valid frame
reported (R76, R77). -/
def asTaken (s : State) (n : Line) (k : RequestKind) : State := acceptRequest n k (heard n s)

/-- One stage of a walk, with the state in which the next stage is made. -/
def oneStage (x : State × Walk) : State × Walk := ((stageOf x.1 x.2).1, { x.2 with stage := (stageOf x.1 x.2).2 })

/-- A receiver takes the characters after the flag one by one: what its frame has become with the last of them. -/
def assembleAll (frame : List Byte) : List Byte → Assembly
  | [] => .growing frame
  | c :: cs =>
    match assemble frame c with
    | .growing f => assembleAll f cs
    | done => if cs.isEmpty then done else .bad

/-! ## Invariants: lists within their rooms and in their order -/

/-- R9: the override table. -/
def overridesKept (s : State) : Prop :=
  Rising Override.day s.clock.overrides ∧ s.clock.overrides.length ≤ overrideRoom

/-- R115: the permit register. -/
def permitsKept (s : State) : Prop := Rising Permit.number s.permits ∧ s.permits.length ≤ registerSize

/-- R184: the badge list. -/
def badgesKept (s : State) : Prop := Rising Badge.number s.ports.badges ∧ s.ports.badges.length ≤ badgeRoom

/-- R104: the session log rises by serial, every serial is below the next one, and the log keeps its room. -/
def logKept (s : State) : Prop :=
  Rising Session.serial s.sales.log ∧ s.sales.log.length ≤ logRoom ∧
    ∀ next, s.sales.nextSerial = some next → ∀ r ∈ s.sales.log, r.serial < next

/-- R110: every terminal's daily totals. -/
def totalsKept (s : State) : Prop :=
  ∀ n : Line, Rising DayRecord.day (row s.sales.totals n) ∧ (row s.sales.totals n).length ≤ totalsRoom

/-- R151: the lift list is within its room. Of the order of its serials nothing is said: after their wrap two may be alike (log
entry 31). -/
def liftsKept (s : State) : Prop := s.cash.lifts.length ≤ liftRoom

/-- Every list of the store within its room, and every one but the lift list in its order. -/
def storesKept (s : State) : Prop :=
  overridesKept s ∧ permitsKept s ∧ badgesKept s ∧ logKept s ∧ totalsKept s ∧ liftsKept s

/-! ## Invariants: what the units owe each other -/

/-- R149: no box number stands in the PRESENT tallies of two terminals. -/
def boxesKept (s : State) : Prop :=
  ∀ m n : Line, m ≠ n → (tallyOf s m).present = true → (tallyOf s n).present = true → (tallyOf s m).box ≠ (tallyOf s n).box

/-- R173: a plan's grace record is ACTIVE exactly while the plan is unserved. -/
def graceKept (s : State) : Prop := ∀ p : Fin 8, (∃ since, row s.faults.grace p = .active since) ↔ unserved s p = true

/-- The answers a port still owes: for the office its waiting or walking preview and its COVER, for the service port its
COVER (R181 (iv)). -/
def owed (s : State) : PortId → Nat
  | .office =>
    (if (row s.engine.slots officeSlot).isSome then 1 else 0) +
      (match s.engine.walk with
        | some w => if w.slot = officeSlot then 1 else 0
        | none => 0) +
      (if s.cover.office.isEmpty then 0 else 1)
  | .service => if s.cover.service.isEmpty then 0 else 1

/-- Requests stand in the slots of their kind, and the search in flight has its slot (R40, R129). -/
def slotsKept (s : State) : Prop :=
  (∀ i r, row s.engine.slots i = some r → (r.preview.isSome = true ↔ i = officeSlot)) ∧
    (∀ w, s.engine.walk = some w → (w.request.preview.isSome = true ↔ w.slot = officeSlot)) ∧
    ∀ q, s.cover.search = some q → (s.cover.slot q.source).isEmpty = false

/-- R182: the answers queued and the answers deferred never number more than six together, and the deferred counts are the
answers owed. -/
def portsKept (s : State) : Prop :=
  slotsKept s ∧ ∀ id, (s.ports.port id).deferred = owed s id ∧
    (s.ports.port id).queue.length + (s.ports.port id).deferred ≤ portRoom

/-! ## Terms of the claims about commands -/

/-- `s` with one answer more at a port, and nothing else changed (R183). -/
def answering (s : State) (id : PortId) (tag : Tag) (status : Status) (body : Body) : State :=
  { s with ports := withAnswer s id tag status body }

/-- The commands and events that act whether or not the blocks run: the clock's own count, and the pins (R14, R188). -/
def actsWhileStopped : Instr → Bool
  | .minuteBoundary => true
  | .powerUp _ _ => true
  | .nresetRelease _ _ => true
  | .supplyLoss => true
  | .nresetAssertion => true
  | _ => false

/-- The staged book can be loaded, copied into and armed: not retired, not CHECKING, not ARMED, not held (R22). -/
def stagedFree (b : BookStore) : Prop :=
  b.retired = false ∧ b.stagedState ≠ .checking ∧ b.stagedState ≠ .armed ∧ b.stagedHeld = false

/-- R18: the limits rise strictly and the last is 1,440. -/
def wellOrderedLadder (steps : List LadderStep) : Prop :=
  steps.Pairwise (fun a b => a.limit < b.limit) ∧ steps.getLast?.map LadderStep.limit = some 1440

/-- R16: the first period starts at minute 0 and the starts rise. -/
def wellOrderedPattern (periods : List Period) : Prop :=
  periods.head?.map Period.start = some 0 ∧ periods.Pairwise fun a b => a.start < b.start

/-- What the book check asks of a book and of the terminal table (R30): ladders well ordered; every present plan with a well
ordered pattern for every day type, whose CHARGED periods name present ladders; every ACTIVE terminal's plan present. -/
def bookSound (k : Book) (table : Vector Entry 16) : Prop :=
  (∀ l steps, row k.ladders l = some steps → wellOrderedLadder steps) ∧
    (∀ p plan, row k.plans p = some plan → ∀ t, ∃ periods, row plan.patterns t = some periods ∧
      wellOrderedPattern periods ∧
      ∀ q ∈ periods, ∀ l m, q.kind = .charged l m → (row k.ladders l).isSome = true) ∧
    ∀ n, (row table n).active = true → (row k.plans (row table n).plan).isSome = true

/-- The number at which a list of numbers, counted from 1, first fails to rise: the first that is not above the one before it. -/
def firstFall (values : List Nat) (i : Nat) : Prop :=
  2 ≤ i ∧ i ≤ values.length ∧ (values.take (i - 1)).Pairwise (· < ·) ∧ ¬ (values.take i).Pairwise (· < ·)

/-- What each finding of the book check says of the book and the terminal table, with its index (R30). A ladder of no steps, which
no load makes (R25), is named at step 1. -/
def findingHolds (k : Book) (table : Vector Entry 16) : Finding → Prop
  | .ladderOrder l i => ∃ steps, row k.ladders l = some steps ∧
      let limits := steps.map LadderStep.limit
      (firstFall limits i ∨ (limits.Pairwise (· < ·) ∧ limits.getLast? ≠ some 1440 ∧ i = max 1 steps.length))
  | .patternMissing p t => ∃ plan, row k.plans p = some plan ∧ row plan.patterns t = none
  | .periodOrder p t i => ∃ plan periods, row k.plans p = some plan ∧ row plan.patterns t = some periods ∧
      let starts := periods.map Period.start
      ((starts.head? ≠ some 0 ∧ i = 1) ∨ (starts.head? = some 0 ∧ firstFall starts i))
  | .ladderMissing p t i => ∃ plan periods q l stay, row k.plans p = some plan ∧ row plan.patterns t = some periods ∧
      1 ≤ i ∧ periods[i - 1]? = some q ∧ q.kind = .charged l stay ∧ row k.ladders l = none
  | .planMissing p n => (row table n).active = true ∧ (row table n).plan = p ∧ row k.plans p = none

/-- Where a finding stands in the order of R30: the part of the check, the ladder, pattern or terminal, and within a pattern the
number of the period whose ladder is absent. -/
def Finding.place : Finding → Nat × Nat × Nat
  | .ladderOrder l _ => (1, l.val, 0)
  | .patternMissing p t => (2, 9 * p.val + t.val, 0)
  | .periodOrder p t _ => (2, 9 * p.val + t.val, 0)
  | .ladderMissing p t i => (2, 9 * p.val + t.val, i)
  | .planMissing _ n => (3, n.val, 0)

/-- Finding f comes before g in the order of R30. -/
def Finding.before (f g : Finding) : Prop :=
  f.place.1 < g.place.1 ∨ (f.place.1 = g.place.1 ∧
    (f.place.2.1 < g.place.2.1 ∨ (f.place.2.1 = g.place.2.1 ∧ f.place.2.2 < g.place.2.2)))

/-- Checks (i) to (ix) of R87 on the state in which the controller takes a QUOTE or PRICE: every one passes. -/
def askAllowed (s : State) (n : Line) (r : WalkRequest) : Prop :=
  (Ask.payKind r.ask = .cash → (row s.table n).takesCoins = true) ∧
    (Ask.payKind r.ask = .card → (row s.table n).takesCards = true) ∧
    ((row s.table n).asksMark = true ∨ Ask.payKind r.ask = .visitor → r.mark.isSome = true) ∧
    s.books.activeState = .inForce ∧ s.clock.state = .set ∧ serviceState s n ≠ .outOfService ∧
    (Ask.payKind r.ask = .cash → serviceState s n ≠ .cashOut ∧ serviceState s n ≠ .paymentOut) ∧
    (Ask.payKind r.ask = .card → serviceState s n ≠ .cardOut ∧ serviceState s n ≠ .paymentOut) ∧
    ∀ minutes permit, r.ask = .forward (.visitor minutes permit) → (row s.table n).mode = .normal →
      ∃ p b, lookup Permit.number permit (refreshIn s.permits permit (today s)) = some p ∧
        p.kind = .visitorBook b ∧ p.covers (row s.table n).plan (today s) = true

/-- The register after the permit read of an accepted QUOTE or PRICE: a visitor's entry brought up to date (R87, R124). -/
def permitsAsRead (s : State) (n : Line) (r : WalkRequest) : List Permit :=
  match r.ask, (row s.table n).mode with
  | .forward (.visitor _ permit), .normal => refreshIn s.permits permit (today s)
  | _, _ => s.permits

/-- No slot of the quote engine holds a request. -/
def noRequests (e : Engine) : Prop := ∀ i, row e.slots i = none

/-- Slot `i` holds request `r`, and no slot from the one after the slot served last up to it, in cyclic order, holds one
(R41). -/
def firstInTurn (e : Engine) (i : Fin 17) (r : WalkRequest) : Prop :=
  row e.slots i = some r ∧
    ∃ k : Fin 17, i = e.last + 1 + k ∧ ∀ j : Fin 17, j < k → row e.slots (e.last + 1 + j) = none

/-- A record after a clear: a standing one is cleared now, a CLEAR one stays (R163). -/
def clearedNow (s : State) (r : FaultRecord) : FaultRecord := if r.state = .clear then r else r.cleared (now s)

/-- The record of fault k stands on terminal n: it is OPEN or ACKNOWLEDGED (R161). -/
def stands (s : State) (n : Line) (k : TermFault) : Prop := (terminalRecord s.faults n k).state ≠ .clear

/-- What the service state of a terminal is, of its entry and of its standing records (R171). -/
def serviceFits (s : State) (n : Line) (v : Service) : Prop :=
  let out := stands s n .printerEmpty ∨ stands s n .doorOpen ∨ stands s n .lineSilent
  let noCash := stands s n .coinJam ∨ stands s n .boxFull ∨ stands s n .boxAbsent ∨ stands s n .boxIdentity
  let noCard := stands s n .cardFault
  ((row s.table n).active = false → v = .notConfigured) ∧
    ((row s.table n).active = true →
      (out → v = .outOfService) ∧ (¬ out → noCash → noCard → v = .paymentOut) ∧ (¬ out → noCash → ¬ noCard → v = .cashOut) ∧
        (¬ out → ¬ noCash → noCard → v = .cardOut) ∧ (¬ out → ¬ noCash → ¬ noCard → v = .inService))

/-- The plan is unserved: it has an ACTIVE terminal, and every one it has is OUT_OF_SERVICE or PAYMENT_OUT (R173). -/
def planUnserved (s : State) (p : Fin 8) : Prop :=
  (∃ n, (row s.table n).active = true ∧ (row s.table n).plan = p) ∧
    ∀ n, (row s.table n).active = true → (row s.table n).plan = p →
      serviceState s n = .outOfService ∨ serviceState s n = .paymentOut

/-- A source of notices is latched from `s` to `t`, through the settings of `s`, and is pending where it was (R176). -/
def latched (n : Notice) (s t : State) : Prop :=
  n.isIn t.notices.office = (n.isIn s.notices.office || (n.isIn s.notices.enable && n.isIn s.notices.call)) ∧
    n.isIn t.notices.site = (n.isIn s.notices.site || (n.isIn s.notices.enable && n.isIn s.notices.lamp))

/-- A source of notices is pending in `t` where it was in `s`, and nowhere else. -/
def notLatched (n : Notice) (s t : State) : Prop :=
  n.isIn t.notices.office = n.isIn s.notices.office ∧ n.isIn t.notices.site = n.isIn s.notices.site

/-- A source of notices is latched from `s` to `t` where c holds, and only there. -/
def latchedWhere (n : Notice) (c : Prop) (s t : State) : Prop := (c → latched n s t) ∧ (¬ c → notLatched n s t)

/-- From `s` to `t` the grace records have followed the service states, no minute boundary between (R174): where the plan is now
unserved a record that was NONE is ACTIVE since now, which latches GRACE_STARTED, and one that was ENDING is ACTIVE again with its
since time; where it is not, one that was ACTIVE is ENDING, with 15 minutes to its until time; any other stays. -/
def graceFollows (s t : State) : Prop :=
  (∀ p,
    (row s.faults.grace p = .none → row t.faults.grace p = if unserved t p then .active (now s) else .none) ∧
    (∀ since, row s.faults.grace p = .active since →
      row t.faults.grace p = if unserved t p then .active since else .ending since (now s + 15)) ∧
    ∀ since until_, row s.faults.grace p = .ending since until_ →
      row t.faults.grace p = if unserved t p then .active since else .ending since until_) ∧
  latchedWhere .graceStarted (∃ p, row s.faults.grace p = .none ∧ unserved t p = true) s t

/-- From `s` to `t` a mark of terminal n's tally turns ON, while the record of its fault is not OPEN: the raise latches FAULT_OPENED
(R144, R162). -/
def opensMark (mark : Tally → Bool) (k : TermFault) (n : Line) (s t : State) : Prop :=
  mark (tallyOf s n) = false ∧ mark (tallyOf t n) = true ∧ (terminalRecord s.faults n k).state ≠ .opened

/-- From `s` to `t` a mark of terminal n's tally turns OFF, while the record of its fault stands: the clear latches FAULT_CLEARED
(R144, R163). -/
def clearsMark (mark : Tally → Bool) (k : TermFault) (n : Line) (s t : State) : Prop :=
  mark (tallyOf s n) = true ∧ mark (tallyOf t n) = false ∧ stands s n k

/-- The round in progress is OPEN and at its limit (R157). -/
def roundLapses (s : State) : Prop :=
  ∃ r, s.cash.round = some r ∧ r.state = .opened ∧ r.openTime + s.cash.roundLimit ≤ now s

/-- Line n falls silent: its terminal is ACTIVE, LINE_SILENT is CLEAR, and ten minutes have passed since the last-heard time (R166). -/
def fallsSilent (s : State) (n : Line) : Prop :=
  (row s.table n).active = true ∧ (terminalRecord s.faults n .lineSilent).state = .clear ∧ (row s.table n).lastHeard + 10 ≤ now s

/-- What the blocks latch at a boundary or step from `s` to `t`: BOOK_ACTIVATED with an activation (R35), ROUND_ENDED with a lapse
(R157), FAULT_OPENED and FAULT_CLEARED with the raises and clears (R162, R163), GRACE_ENDED where a tail ends and GRACE_STARTED where
the record of an unserved plan leaves NONE, a tail that ended at this boundary among them (R174, R175); nothing else. The end of a
tail shows in a record that was due and is not ACTIVE with its old since time. -/
def boundaryNotices (isHour : Bool) (s t : State) : Prop :=
  let due := fun p since => ∃ until_, row s.faults.grace p = .ending since until_ ∧ until_ ≤ now s
  let tailEnds := fun p => ∃ since, due p since ∧ row t.faults.grace p ≠ .active since
  let tailLives := fun p => ∀ since, due p since → row t.faults.grace p = .active since ∧ since ≠ now s
  t.notices.enable = s.notices.enable ∧ t.notices.call = s.notices.call ∧ t.notices.lamp = s.notices.lamp ∧
    latchedWhere .bookActivated (s.books.due (today s) = true) s t ∧ latchedWhere .roundEnded (roundLapses s) s t ∧
    latchedWhere .faultOpened
      ((roundLapses s ∧ (row s.faults.zone 1).state ≠ .opened) ∨ ∃ n, fallsSilent s n) s t ∧
    latchedWhere .faultCleared
      ((s.sales.pressure = true ∧ t.sales.log.length ≤ 3072 ∧ (row s.faults.zone 3).state ≠ .clear) ∨
        ∃ n, isHour = true ∧ (row s.table n).discards < 16 ∧ (terminalRecord s.faults n .lineNoisy).state ≠ .clear) s t ∧
    ((∃ p, tailEnds p) → latched .graceEnded s t) ∧ ((∀ p, tailLives p) → notLatched .graceEnded s t) ∧
    ((∃ p, unserved t p = true ∧ (row s.faults.grace p = .none ∨ tailEnds p)) → latched .graceStarted s t) ∧
    ((∀ p, unserved t p = true → row s.faults.grace p ≠ .none ∧ tailLives p) → notLatched .graceStarted s t) ∧
    ∀ n, n = .conditionHeld ∨ n = .bookChecked ∨ n = .roundOpened ∨ n = .serviceDenied ∨ n = .permitExhausted ∨ n = .restarted →
      notLatched n s t

/-- What the blocks make of a minute boundary or a step, from the state `s` in which the clock has its new reading (R6):
`isDay` and `isHour` say how it is marked. Overrides, permits, book, log, totals, round, tests, line health and grace are each
compared with that reading; a tail's end that meets a re-evaluation may be taken first or second (R175); the notices follow. -/
def boundaryDone (isDay isHour : Bool) (s t : State) : Prop :=
  onlyChanges [.clock, .books, .engine, .lines, .table, .quotes, .sales, .permits, .cash, .faults, .notices, .choices] s t ∧
    t.clock = { s.clock with
      overrides := if isDay then s.clock.overrides.filter fun o => decide (today s ≤ o.day) else s.clock.overrides } ∧
    t.permits = (if isDay then s.permits.filter fun p => decide (today s ≤ p.toDay + 7) else s.permits) ∧
    t.books = (if s.books.due (today s) then s.books.activated else s.books) ∧
    t.sales.log = s.sales.log.filter (fun r => decide (now s ≤ r.expiry + 1440)) ∧
    t.sales.pressure = (s.sales.pressure && decide (3072 < t.sales.log.length)) ∧
    t.sales.nextSerial = s.sales.nextSerial ∧ t.sales.sequences = s.sales.sequences ∧
    (∀ n, row t.sales.totals n =
      if isDay && (row s.table n).active then withDayRecord (today s) (row s.sales.totals n) else row s.sales.totals n) ∧
    t.cash = (match s.cash.round with
      | some r =>
        if r.state = .opened ∧ r.openTime + s.cash.roundLimit ≤ now s then
          { s.cash with round := some { r with state := .lapsed (now s) } }
        else s.cash
      | none => s.cash) ∧
    (∀ n, row t.table n = { row s.table n with
      mode := if (row s.table n).testStart + 30 ≤ now s then .normal else (row s.table n).mode
      discards := if isHour then 0 else (row s.table n).discards
      addressed := if s.books.due (today s) then (row s.table n).addressed &&& ~~~(1#8) else (row s.table n).addressed }) ∧
    ((∀ n, testDue s n = false) → t.engine = s.engine ∧ t.lines = s.lines ∧ t.quotes = s.quotes) ∧
    (∀ n, testDue s n = true → row t.quotes n = none) ∧
    (∀ k, k ≠ 1 → k ≠ 3 → row t.faults.zone k = row s.faults.zone k) ∧
    row t.faults.zone 1 = (match s.cash.round with
      | some r =>
        if r.state = .opened ∧ r.openTime + s.cash.roundLimit ≤ now s then
          (row s.faults.zone 1).raised (now s) (some r.number)
        else row s.faults.zone 1
      | none => row s.faults.zone 1) ∧
    row t.faults.zone 3 = (if s.sales.pressure = true ∧ t.sales.log.length ≤ 3072 then clearedNow s (row s.faults.zone 3)
      else row s.faults.zone 3) ∧
    (∀ n k, k ≠ .lineSilent → k ≠ .lineNoisy → terminalRecord t.faults n k = terminalRecord s.faults n k) ∧
    (∀ n, terminalRecord t.faults n .lineSilent =
      if (row s.table n).active = true ∧ (terminalRecord s.faults n .lineSilent).state = .clear ∧
          (row s.table n).lastHeard + 10 ≤ now s then
        (terminalRecord s.faults n .lineSilent).raised (now s) (some (row s.table n).lastHeard)
      else terminalRecord s.faults n .lineSilent) ∧
    (∀ n, terminalRecord t.faults n .lineNoisy =
      if isHour = true ∧ (row s.table n).discards < 16 ∧ (terminalRecord s.faults n .lineNoisy).state ≠ .clear then
        (terminalRecord s.faults n .lineNoisy).cleared (now s)
      else terminalRecord s.faults n .lineNoisy) ∧
    (∀ p, (unserved t p = false ∨ (row s.faults.grace p).due (now s) = false →
        row t.faults.grace p = if (row s.faults.grace p).due (now s) then .none
          else (row s.faults.grace p).reevaluated (now s) (unserved t p)) ∧
      (unserved t p = true → ∀ since until_, row s.faults.grace p = .ending since until_ → until_ ≤ now s →
        row t.faults.grace p = .active (now s) ∨ row t.faults.grace p = .active since)) ∧
    boundaryNotices isHour s t

/-- An answer comes to the pending request of line n (R77, R78): it is sent at once; it is held while a frame is being assembled or a
BUSY reply is under way; it is thrown away where the request has been dropped. -/
def answerComes (s t : State) (n : Line) (status : Status) (body : Body) : Prop :=
  let u := row s.lines n
  let v := row t.lines n
  (u.request = none → v = u) ∧
    (u.request.isSome = true → u.state = .pending → u.frame = none →
      v = { u with
        state := .replying { answer := { status := status, body := body }, envelope := envelopeOf t n } false false
        request := none
        held := none }) ∧
    (u.request.isSome = true → (u.state = .pending ∧ u.frame.isSome = true) ∨ (∃ r c, u.state = .replying r true c) →
      v = { u with held := some { status := status, body := body } })

/-- The day records after a change of the record for `day`: changed where it is held, created and then changed where it is not; every
other record stays, but for the first where a record is created among 8 (R111 (ii), R112). -/
def recordBecomes (day : Nat) (f : DayRecord → DayRecord) (l k : List DayRecord) : Prop :=
  lookup DayRecord.day day k = some (f ((lookup DayRecord.day day l).getD (DayRecord.blank day))) ∧
    (lookup DayRecord.day day l ≠ none ∨ l.length < 8 →
      ∀ d, d ≠ day → lookup DayRecord.day d k = lookup DayRecord.day d l) ∧
    (lookup DayRecord.day day l = none → 8 ≤ l.length →
      ∀ d, d ≠ day → lookup DayRecord.day d k = lookup DayRecord.day d (l.drop 1))

/-- From `s` to `t` terminal n's record for today becomes `f` of what it was; the rest of the sale unit stays (R112). -/
def todayBecomes (n : Line) (f : DayRecord → DayRecord) (s t : State) : Prop :=
  t.sales = { s.sales with totals := t.sales.totals } ∧ sameBut n s.sales.totals t.sales.totals ∧
    recordBecomes (today s) f (row s.sales.totals n) (row t.sales.totals n)

/-- What a sale in this mode with this payment adds to a day record (R110, R112 (i)): the count of its kind rises by one, and the values
its kind keeps by what was paid; each stops at its upper end. -/
def saleAdded (mode : Mode) (m : SaleMoney) (coins : Vector Nat 8) (terms : Terms) (d : DayRecord) : DayRecord :=
  match mode, m with
  | .test, .cash counts => { d with
      testSales := min 65535 (d.testSales + 1)
      testCashValue := min 4294967295 (d.testCashValue + valueOf coins counts) }
  | .test, _ => { d with
      testSales := min 65535 (d.testSales + 1), testCashValue := min 4294967295 d.testCashValue }
  | .normal, .cash counts => { d with
      cashSales := min 65535 (d.cashSales + 1)
      cashValue := min 4294967295 (d.cashValue + valueOf coins counts)
      overpaidValue := min 4294967295 (d.overpaidValue + (valueOf coins counts - terms.price)) }
  | .normal, .card paid => { d with
      cardSales := min 65535 (d.cardSales + 1), cardValue := min 4294967295 (d.cardValue + paid) }
  | .normal, .visitor => { d with
      visitorSales := min 65535 (d.visitorSales + 1)
      visitorMinutes := min 4294967295 (d.visitorMinutes + (match terms with
        | .visitor _ granted => granted
        | .money _ _ _ => 0)) }

/-- The walk has ended: the engine is free and the holds of the walk's view are cleared (R43). -/
def walkFreed (w : Walk) (s u : State) : Prop :=
  u.engine = { s.engine with walk := none } ∧ u.books = s.books.clearHolds w.view

/-! ## Terms of the claims about a walk's stages -/

/-- The rate of the charged minute of this number: that of the first step whose limit is that number or more (R18). -/
def rateAt : List LadderStep → Nat → Nat
  | [], _ => 0
  | st :: rest, m => if m ≤ st.limit then st.rate else rateAt rest m

/-- The period of a pattern that holds the minute of day, with its end: the start of the next period, or the end of the day (R16). -/
def holdsMinute (periods : List Period) (minute : Nat) (q : Period) (ends : Nat) : Prop :=
  ∃ before after, periods = before ++ q :: after ∧ q.start ≤ minute ∧ minute < ends ∧
    ends = (after.head?.map Period.start).getD 1440

/-- The instance that holds zone minute z, as a NORMAL walk finds it (R17, R47): none where the book that serves the day lacks the
plan; else that of the period of the day type's pattern that holds the minute, with its kind, its ladder, its book and the
plan's header. -/
def instanceFits (tar : Tariff) (z : ZoneMinute) (found : Option Span) : Prop :=
  let day := z / 1440
  let staged := tar.servedByStaged day
  let k := tar.book day
  (row k.plans tar.plan = none → found = none) ∧
    ∀ plan periods, row k.plans tar.plan = some plan → row plan.patterns (dayType tar.overrides k day) = some periods →
      wellOrderedPattern periods → ∀ q ends, holdsMinute periods (z % 1440) q ends →
        found = some {
          start := day * 1440 + q.start, stop := day * 1440 + ends, byStaged := staged, header := plan.header
          kind := match q.kind with
            | .charged l stay => .charged ((row k.ladders l).getD []) stay
            | .free => .free
            | .noSale => .noSale }

/-- The context with one condition more among those raised. -/
def withCondition (c : WalkContext) (k : Cond) : WalkContext := { c with conds := c.conds ||| k.bit }

/-- A condition is raised (R50): where the PASS set holds it the walk goes on as `next`; where not, the walk is refused HELD by it. -/
def conditionRaised (pass : CondSet) (k : Cond) (c : WalkContext) (next : WalkContext → Stage) (stage : Stage) : Prop :=
  (k.isIn pass = true → stage = next (withCondition c k)) ∧
    (k.isIn pass = false → stage = .done (.refused .held (some k) (withCondition c k).raised))

/-- The checks of R58 (iii) to (v) before a walk enters the span at `point`, with what becomes of it: EDGE where the book that serves the
span's day is not the start span's; NO_PLAN where that book lacks the plan; NOSALE at a NO_SALE span, `stopHere` where it passes; CARRY at a
CHARGED span after another one; then the span is entered as `enter` says. -/
def entersNext (tar : Tariff) (pass : CondSet) (startByStaged chargedMet : Bool) (point : ZoneMinute) (c : WalkContext)
    (stopHere : WalkContext → Stage) (enter : WalkContext → Span → Stage) (stage : Stage) : Prop :=
  let look := fun c : WalkContext =>
    (tar.spanAt point = none → stage = .done (.refused .noPlan none c.raised)) ∧
      ∀ sp, tar.spanAt point = some sp →
        (sp.kind = .noSale → conditionRaised pass .noSale c stopHere stage) ∧
          (sp.kind ≠ .noSale → (isCharged sp = true ∧ chargedMet = true →
              conditionRaised pass .carry c (fun c => enter c sp) stage) ∧
            (isCharged sp = false ∨ chargedMet = false → stage = enter c sp))
  (tar.servedByStaged (point / 1440) = startByStaged → look c) ∧
    (tar.servedByStaged (point / 1440) ≠ startByStaged →
      (Cond.edge.isIn pass = true → look (withCondition c .edge)) ∧
        (Cond.edge.isIn pass = false → stage = .done (.refused .held (some .edge) (withCondition c .edge).raised)))

/-- The spans that a walk meets going back from z, none of them CHARGED and each ending after `start` (R67 (i)). -/
def uncharged (tar : Tariff) (start : ZoneMinute) : List Span → ZoneMinute → Prop
  | [], _ => True
  | sp :: rest, z => start < z ∧ tar.spanAt (z - 1) = some sp ∧ isCharged sp = false ∧ uncharged tar start rest sp.start

/-- The result of a forward walk that stopped for `why`, with the minutes of its final span and its expiry (R62, R64, R65). -/
def resultFits (w : Walk) (t : Trail) (why : StopKind) (minutes : Nat) (expiry : ZoneMinute) (c : WalkContext) (r : WalkResult) : Prop :=
  let p := effectivePayment w c
  r.plan = w.plan ∧ r.payKind = p.kind ∧ r.mode = w.mode ∧ r.walkTime = w.time ∧ r.start = c.link.start ∧ r.expiry = expiry ∧
    r.mark = w.request.mark ∧ r.linked = c.link.serial ∧ r.finalStart = t.span.start ∧
    r.finalMinutes = (if isCharged t.span then t.entryCount + minutes else 0) ∧ r.conds = c.raised ∧
    r.generation = w.view.generation ∧ r.revision = w.view.revision ∧ r.usedStaged = t.usedStaged ∧
    r.wanted = c.priced.map Priced.wanted ∧
    (∀ a, p = .cash a ∨ p = .card a →
      ((why = .cap ∨ why = .long ∨ why = .noSale) → r.terms = .money a (a - t.budget / 60) (t.budget / 60)) ∧
      (why ≠ .cap ∧ why ≠ .long ∧ why ≠ .noSale → r.terms = .money a a 0)) ∧
    ∀ wanted permit, p = .visitor wanted permit → r.terms = .visitor permit (t.bought + minutes)

/-- What every result of a walk keeps (R42, R50, R64, R65): the walk's own plan, mode, mark and time; the start not before the walk time and
the expiry not before the start; no condition raised but those of the PASS set; price and excess adding up to the amount, which for a
QUOTE is the amount asked; and minutes granted within the allowance read of the permit asked for, `permits` being the register after
that read. -/
def resultInBounds (w : Walk) (permits : List Permit) (todayIs : Nat) (r : WalkResult) : Prop :=
  r.plan = w.plan ∧ r.mode = w.mode ∧ r.mark = w.request.mark ∧ r.walkTime = w.time ∧
    r.generation = w.view.generation ∧ r.revision = w.view.revision ∧
    w.time ≤ r.start ∧ r.start ≤ r.expiry ∧ r.conds &&& ~~~w.pass = 0 ∧
    (∀ amount price excess, r.terms = .money amount price excess → price + excess = amount ∧
      ∀ a, w.request.ask = .forward (.cash a) ∨ w.request.ask = .forward (.card a) → amount = a) ∧
    ∀ permit granted, r.terms = .visitor permit granted →
      (∃ wanted, w.request.ask = .forward (.visitor wanted permit)) ∧
        ∃ p, lookup Permit.number permit permits = some p ∧ granted ≤ workedAllowance p todayIs (w.time / 1440)

/-- The role that a service-port request of a kind of section 10.4 needs, where its fields lie in range. -/
def roleOf : Instr → Option Role
  | .cover _ _ f => if (readCover f).isSome then some .officer else none
  | .openRound _ _ number => if 1 ≤ number ∧ number ≤ 65535 then some .collector else none
  | .roundStatus _ _ => some .collector
  | .closeRound _ _ => some .collector
  | .testLine _ _ terminal => if (terminalOf terminal).isSome then some .engineer else none
  | .endTest _ _ terminal => if (terminalOf terminal).isSome then some .engineer else none
  | .lineReset _ _ terminal => if (terminalOf terminal).isSome then some .engineer else none
  | .readFaults _ _ scope => if scope ≤ 17 then some .engineer else none
  | .clearFault _ _ scope kind => if (faultNameOf scope kind).isSome then some .engineer else none
  | .readSiteNotices _ _ => some .engineer
  | .readStatus _ _ => some .any
  | _ => none

/-- The seven requests of a terminal, and a frame of no request kind: what a valid frame on a line may be (R77). -/
def isRequest : Instr → Bool
  | .hello _ => true
  | .quote _ _ => true
  | .price _ _ => true
  | .sale _ _ => true
  | .fault _ _ _ => true
  | .boxOut _ _ => true
  | .boxIn _ _ => true
  | .unknownRequestKind _ => true
  | _ => false

/-- A request other than HELLO whose fields lie in range (R77, R86, R87, R97). -/
def requestInRange : Instr → Bool
  | .quote _ f => (quoteRequest f).isSome
  | .price _ f => (priceRequest f).isSome
  | .sale _ f => (readSale f).isSome
  | .fault _ kind direction => (faultReportOf kind direction).isSome
  | .boxOut _ label => decide (label ≤ 65535)
  | .boxIn _ label => decide (label ≤ 65535)
  | _ => false

/-- From `s` to `t` a valid frame has been heard on line n: its last-heard time is now, LINE_SILENT is CLEAR, and no other
entry or fault record has changed (R76, R166); FAULT_CLEARED is latched where LINE_SILENT stood, and grace follows (R163, R174). -/
def frameHeard (s t : State) (n : Line) : Prop :=
  row t.table n = { row s.table n with lastHeard := now s } ∧ sameBut n s.table t.table ∧
    (terminalRecord t.faults n .lineSilent).state = .clear ∧ t.faults.zone = s.faults.zone ∧
    (∀ m k, (m ≠ n ∨ k ≠ .lineSilent) → terminalRecord t.faults m k = terminalRecord s.faults m k) ∧
    latchedWhere .faultCleared (stands s n .lineSilent) s t ∧ notLatched .faultOpened s t ∧ (graceKept s → graceFollows s t)

/-- The effects of R89 (ii) to (iv) on the transaction of terminal n: the open quote is cancelled, a waiting request withdrawn, and
a walk in flight marked for discard, and orphaned by a line reset. -/
def disturbed (n : Line) (orphan : Bool) (s t : State) : Prop :=
  row t.quotes n = none ∧ sameBut n s.quotes t.quotes ∧
    row t.engine.slots (lineSlot n) = none ∧ sameBut (lineSlot n) s.engine.slots t.engine.slots ∧
    t.engine.last = s.engine.last ∧
    t.engine.walk = s.engine.walk.map fun w =>
      if w.slot = lineSlot n then { w with discard := true, orphaned := w.orphaned || orphan } else w

/-- The request withdrawn from terminal n's slot, if there was one, is answered with this status (R89 (ii)). -/
def withdrawnAnswered (s t : State) (n : Line) (status : Status) : Prop :=
  (row s.engine.slots (lineSlot n) = none → t.lines = s.lines) ∧
    (row s.engine.slots (lineSlot n) ≠ none → answerComes s t n status .empty ∧ sameBut n s.lines t.lines)

/-- A quote is fresh for a sale of this pay kind (R100). -/
def freshFor (s : State) (q : OpenQuote) (k : PayKind) : Prop :=
  now s < q.made + 3 ∧ q.result.generation = s.books.generation ∧ q.result.revision = s.books.revision ∧ q.result.payKind = k

/-- The payment of a sale matches its quote (R101). -/
def paymentAgrees (s : State) (q : OpenQuote) (m : SaleMoney) : Prop :=
  match m with
  | .cash counts => ∃ amount price excess, q.result.terms = .money amount price excess ∧
      (∀ i, row counts i = 0 ∨ 0 < row s.cash.coins i) ∧
      (valueOf s.cash.coins counts = amount ∨ valueOf s.cash.coins counts = price)
  | .card paid => ∃ amount excess, q.result.terms = .money amount paid excess
  | .visitor => ∃ permit granted p b, q.result.terms = .visitor permit granted ∧
      lookup Permit.number permit (refreshIn s.permits permit (today s)) = some p ∧ p.kind = .visitorBook b ∧
      p.covers q.result.plan (today s) = true ∧ granted ≤ b.allowance

/-- The service state lets a terminal sell by this pay kind (R87, R99). -/
def serviceAllows (v : Service) (k : PayKind) : Prop :=
  v ≠ .outOfService ∧ (k = .cash → v ≠ .cashOut ∧ v ≠ .paymentOut) ∧ (k = .card → v ≠ .cardOut ∧ v ≠ .paymentOut)

/-- From `s` to `t` no record of a terminal fault has changed but those named. -/
def recordsKeptBut (named : Line → TermFault → Prop) (s t : State) : Prop :=
  ∀ m k, ¬ named m k → terminalRecord t.faults m k = terminalRecord s.faults m k

/-- `p` is the entry of lowest number among those that satisfy `P`. -/
def lowestOf (P : Permit → Prop) (permits : List Permit) (p : Permit) : Prop :=
  p ∈ permits ∧ P p ∧ ∀ q ∈ permits, P q → p.number ≤ q.number

/-- The entry names the mark and holds the plan (R137 (i) to (iii)). -/
def namesMark (plan : Fin 8) (m : Mark) (p : Permit) : Prop :=
  (∃ marks, (p.kind = .resident marks ∨ p.kind = .business marks) ∧ m ∈ marks) ∧ p.plans.getLsbD plan.val = true

/-- The day lies in the entry's days (R137 (iv)). -/
def withinDays (day : Nat) (p : Permit) : Prop := p.fromDay ≤ day ∧ day ≤ p.toDay

/-- What a cover query by mark answers, read from the state `s` at the search time z with the recent window w (R136 to R139). -/
def markAnswer (s : State) (plan : Fin 8) (m : Mark) (z : ZoneMinute) (w : Nat) (v : Verdict) : Prop :=
  let chosen := chosenSession s.sales.log plan m
  let named := fun p => namesMark plan m p ∧ withinDays (dayOf z) p
  let runs := ∃ r, chosen = some r ∧ z < r.expiry
  let valid := fun p => named p ∧ p.suspended = false
  let out := fun o : Option OutOfDays =>
    (o = none ∧ ∀ p ∈ s.permits, namesMark plan m p → withinDays (dayOf z) p) ∨
      ∃ p, lowestOf (fun p => namesMark plan m p ∧ ¬ withinDays (dayOf z) p) s.permits p ∧
        o = some { permit := p.number, fromDay := p.fromDay, toDay := p.toDay }
  (∀ r, chosen = some r → z < r.expiry → v = .coveredSession r.expiry r.ticket r.kind r.serial) ∧
    (¬ runs → ∀ p business, lowestOf valid s.permits p → (business = true ↔ ∃ marks, p.kind = .business marks) →
      v = .coveredPermit p.number business p.toDay) ∧
    (¬ runs → (∀ p ∈ s.permits, ¬ valid p) → ∀ p business, lowestOf named s.permits p →
      (business = true ↔ ∃ marks, p.kind = .business marks) → v = .suspendedPermit p.number business) ∧
    (¬ runs → (∀ p ∈ s.permits, ¬ named p) → ∃ o, out o ∧
      (∀ since, row s.faults.grace plan = .active since → v = .grace since none o) ∧
      (∀ since until_, row s.faults.grace plan = .ending since until_ → v = .grace since (some until_) o) ∧
      (row s.faults.grace plan = .none →
        (chosen = none → v = .notCovered none o) ∧
        ∀ r, chosen = some r →
          v = if w ≠ 0 ∧ z - r.expiry ≤ w then .recent r.expiry r.ticket (z - r.expiry) o
            else .notCovered (some (r.expiry, z - r.expiry)) o))

/-- What a cover query by ticket answers (R135). -/
def ticketAnswer (s : State) (plan : Fin 8) (t : Ticket) (z : ZoneMinute) (v : Verdict) : Prop :=
  ((∀ r ∈ s.sales.log, r.ticket ≠ t) → v = .unknown) ∧
    ∀ r ∈ s.sales.log, r.ticket = t → (∀ q ∈ s.sales.log, q.ticket = t → q.serial ≤ r.serial) →
      v = if r.kind = .test then .testTicket r.serial r.ticket.terminal r.issue
        else if r.plan ≠ plan then .wrongPlan r.serial r.plan r.expiry
        else if z < r.expiry then .valid r.serial r.kind r.start r.expiry
        else .expired r.serial r.kind r.expiry (z - r.expiry)

/-- The COVER in the slot of a port is refused CLOCK_UNSET as its search would begin: the answer that was deferred goes out with its
tag, the slot is EMPTY, and it is the one served last (R132, R133). -/
def coverRefused (id : PortId) (r : CoverRequest) (s : State) : State :=
  { s with
    cover := { s.cover.setSlot id .empty with last := id }
    ports := withAnswer { s with ports := s.ports.onPort id fun p => { p with deferred := p.deferred - 1 } } id r.tag
      .clockUnset .empty }

/-- Coin slot i is in use: a PRESENT tally or a lift AWAITING_COUNT holds a coin in it (R142). -/
def coinInUse (c : CashUnit) (i : Fin 8) : Prop :=
  (∃ n, (row c.tallies n).present = true ∧ 0 < row (row c.tallies n).counts i) ∨
    ∃ l ∈ c.lifts, l.state = .awaiting ∧ 0 < row l.counts i

/-- The lift list with room for one record more: as it stands below 96; at 96 without its first record that is not AWAITING_COUNT,
and, where all are awaiting, without its first (R151). -/
def liftRoomMade (lifts kept : List Lift) : Prop :=
  (lifts.length < 96 → kept = lifts) ∧
    (96 ≤ lifts.length → ∃ before gone after, lifts = before ++ gone :: after ∧ kept = before ++ after ∧
      ((gone.state ≠ .awaiting ∧ ∀ l ∈ before, l.state = .awaiting) ∨
        (before = [] ∧ ∀ l ∈ lifts, l.state = .awaiting)))

/-- What a warm restart makes of the book store (R39): the held marks are cleared; a retired bank is released, its bank empty, the
staged book EMPTY and the check record NONE; a check in progress is abandoned, the staged book EDITING with its contents. All
else is kept. -/
def booksWarm (b : BookStore) : BookStore :=
  if b.retired then
    { b.setStaged Book.empty with
      heldX := false, heldY := false, retired := false, stagedState := .empty, check := CheckRecord.none }
  else if b.stagedState = .checking then
    { b with heldX := false, heldY := false, stagedState := .editing, activationDay := none, firstBook := false }
  else { b with heldX := false, heldY := false }

/-- The state `u` in which a warm restart made from `s` hands its step to the blocks: what each chapter keeps, and what it sets
back (R14, R39, R72, R95, R114, R141, R160, R180, R188, R189). -/
def warmValues (reason : RestartReason) (s u : State) : Prop :=
  u.clock = { s.clock with overran := false } ∧ u.books = booksWarm s.books ∧
    (∀ i, row u.engine.slots i = none) ∧ u.engine.last = officeSlot ∧ u.engine.walk = none ∧
    (∀ n, row u.lines n = LineUnit.cold) ∧
    (∀ n, row u.table n = { row s.table n with mode := .normal, lastHeard := now s }) ∧
    (∀ n, row u.quotes n = none) ∧ u.sales = s.sales ∧ u.permits = s.permits ∧
    u.cover = { CoverUnit.cold with window := s.cover.window } ∧ u.cash = s.cash ∧
    u.faults.terminals = s.faults.terminals ∧ u.faults.grace = s.faults.grace ∧
    (∀ k, row u.faults.zone k =
      if k = 0 ∧ s.clock.overran = true then (row s.faults.zone 0).raised (now s) none else row s.faults.zone k) ∧
    u.notices = latchIn .restarted
      (if s.clock.overran = true ∧ (row s.faults.zone 0).state ≠ .opened then latchIn .faultOpened s.notices else s.notices) ∧
    u.ports = { office := Port.cold, service := Port.cold, badges := s.ports.badges, reason := reason,
                zoneId := s.pins.straps, restarting := false } ∧
    u.pins = s.pins ∧ u.wire = s.wire ∧ u.choices = s.choices ∧ u.pending = s.pending

/-- From `s` a warm restart leads to `t`: the warm values, then, where the clock is SET, the restart step, a day boundary where the
day of the reading is not the day of the handed reading, and an hour boundary where the hour differs (R14). -/
def restartedWarm (reason : RestartReason) (s t : State) : Prop :=
  ∃ u, warmValues reason s u ∧ (s.clock.state = .unset → t = u) ∧
    (s.clock.state = .set →
      boundaryDone (decide (s.clock.reading / 1440 ≠ s.clock.handed / 1440))
        (decide (s.clock.reading / 60 ≠ s.clock.handed / 60))
        { u with clock := { u.clock with handed := u.clock.reading } } t)

end Sys2Proof.Machine
end

