-- ==== Sys2Proof/Certificates/Slice0/Obligations.lean ====
section
/-!
DEFINITION. Certificates/Slice0/Obligations.lean: the statements for the provers, block by block. Each docstring says what
it formalises and where the spec says it.
-/
section Statements

open Sys2Proof Sys2Proof.Machine

/-! ## The step -/

/-- A step takes the command at the front of the queue and runs it with the queue's rest. -/
def Obligations.StepRunsFrontCommand : Prop :=
  ∀ (c : Instr) (rest : List Instr) (s : State), s.pending = c :: rest → step s = exec c { s with pending := rest }

/-- Every command answers a next state, and leaves the queue of commands and the wire alone: no command stops the part (the
spec gives none that does), and only a step takes from the queue (the model's choice, log entry 2). -/
def Obligations.EveryCommandEndsAndKeepsQueue : Prop :=
  ∀ (c : Instr) (s : State), ∃ t, exec c s = .next t ∧ t.pending = s.pending ∧ t.wire = s.wire

/-- What the part turns away. While the supply is lost or NRESET is held low the blocks take nothing: only the clock's count and the
pins act, and a minute boundary moves the clock alone: its reading goes on by one minute, the handed reading and all else of it stay,
and past the last minute it is UNSET, which it remembers for the restart (section 1.7; NRESET held low is the model's choice, log
entry 7, and so is the mark that remembers, log entry 5). A port
that owes six answers, or after a RESTART was taken, discards every completed frame (sections 10.2, 10.6). A service request
of a badge that is absent, or lacks the role its kind needs, is refused DENIED and latches SERVICE_DENIED (section 10.4). -/
def Obligations.PartTurnsAway : Prop :=
  ∀ (c : Instr) (s : State),
    (running s = false → actsWhileStopped c = false → exec c s = .next s) ∧
    (running s = false → ∃ t, exec .minuteBoundary s = .next t ∧ onlyChanges [.clock] s t ∧
      (s.clock.state = .unset → t = s) ∧
      (s.clock.state = .set → now s < lastReading → t.clock = { s.clock with reading := now s + 1, subMinute := 0 }) ∧
      (s.clock.state = .set → lastReading ≤ now s → t.clock = { s.clock with state := .unset, overran := true })) ∧
    (∀ source tag, c.origin = .port source tag →
      (6 ≤ (s.ports.port source.port).queue.length + (s.ports.port source.port).deferred ∨ s.ports.restarting = true) →
        exec c s = .next s) ∧
    ∀ badge tag role, c.origin = .port (.service badge) tag → roleOf c = some role → listening s .service = true →
      1 ≤ badge → badge ≤ 99999 →
      (∀ b ∈ s.ports.badges, b.number = badge → role.isIn b.roles = false) →
        exec c s = .next (answering { s with notices := latchIn .serviceDenied s.notices } .service tag .denied .empty)

/-! ## Invariants -/

/-- Every list of the store stays within its room: overrides (R9), permits (R115), badges (R184), the session log (R104), the daily
totals (R110) and the lift list (R151). All but the lift list stay in their order too, and the log's serials below the next one;
of the order of the lift list's serials nothing is said, because they may meet again after their wrap (log entry 31). -/
def Obligations.StoresStayKept : Prop := ∀ s t : State, storesKept s → step s = .next t → storesKept t

/-- No box number comes to stand in the PRESENT tallies of two terminals (R149). -/
def Obligations.BoxNumbersStayApart : Prop := ∀ s t : State, boxesKept s → step s = .next t → boxesKept t

/-- A plan's grace record stays ACTIVE exactly while the plan is unserved (R173). -/
def Obligations.GraceStaysTrue : Prop := ∀ s t : State, graceKept s → step s = .next t → graceKept t

/-- The answers queued and deferred on a port never number more than six together, and the deferred count is what the quote
engine and the cover search unit still owe the port (R181, R182). -/
def Obligations.PortsStayKept : Prop := ∀ s t : State, portsKept s → step s = .next t → portsKept t

/-- The state after a cold start meets every invariant above. -/
def Obligations.ColdStateMeetsInvariants : Prop :=
  storesKept State.reset ∧ boxesKept State.reset ∧ graceKept State.reset ∧ portsKept State.reset

/-- While a bank is held, its contents are not changed (section 2.5): a step that finds it held and leaves it held keeps it. A walk's
view holds the active bank and, where the staged book is ARMED, the staged bank. Clearing the holds of a view frees its banks; it
releases the staged bank exactly where that is retired and no longer held: the bank is emptied, the staged book EMPTY with check
record NONE, the revision kept (section 2.8). Everywhere else it changes the held marks alone. -/
def Obligations.HeldBanksStay : Prop :=
  (∀ (s t : State) (id : BankId), step s = .next t → s.books.isHeld id = true → t.books.isHeld id = true →
    t.books.bank id = s.books.bank id) ∧
  ∀ (b : BookStore) (id : BankId),
    ((b.hold b.view).isHeld id = true ↔ b.isHeld id = true ∨ id = b.active ∨ b.stagedState = .armed) ∧
    ∀ v : View,
      let c := b.clearHolds v
      (c.isHeld id = true ↔ b.isHeld id = true ∧ id ≠ v.active ∧ ∀ day, v.staged ≠ some (id, day)) ∧
      c.activeBook = b.activeBook ∧
      (b.retired = true → c.isHeld b.active.other = false →
        c = { b.setStaged Book.empty with
          heldX := c.heldX, heldY := c.heldY, retired := false, stagedState := .empty, check := CheckRecord.none }) ∧
      ((b.retired = false ∨ c.isHeld b.active.other = true) → c = { b with heldX := c.heldX, heldY := c.heldY })

/-! ## Zone clock -/

/-- MINUTE_BOUNDARY (sections 1.1, 1.3): the reading advances by one minute, the count restarts, and every block makes its
comparisons; past day 65,535, 23:59 the clock passes to UNSET instead and CLOCK_UNSET is raised; while it is UNSET none
falls due. A step with nothing waiting and nothing under way counts one CLKIN cycle while the clock is SET, and the cycle that
completes a minute is a MINUTE_BOUNDARY. That the idle step is one cycle (log entry 2), that MINUTE_BOUNDARY as a command completes
the minute whatever the count holds (log entry 1), and that the passage to UNSET leaves the count where it stood (log entry 5) are
the model's. -/
def Obligations.ClockCountsMinutes : Prop :=
  ∀ s : State,
    (s.pending = [] → s.wire = [] → walkHasStage s = false → searchHasRead s = false →
      (s.clock.state = .unset → step s = .next s) ∧
      (s.clock.state = .set → s.clock.subMinute + 1 < cyclesPerMinute →
        step s = .next { s with clock := { s.clock with subMinute := s.clock.subMinute + 1 } }) ∧
      (s.clock.state = .set → cyclesPerMinute ≤ s.clock.subMinute + 1 → step s = exec .minuteBoundary s)) ∧
    (running s = true → s.clock.state = .set → now s < lastReading →
      ∃ t, exec .minuteBoundary s = .next t ∧
        boundaryDone (decide ((now s + 1) % 1440 = 0)) (decide ((now s + 1) % 60 = 0))
          { s with clock := { s.clock with reading := now s + 1, handed := now s + 1, subMinute := 0 } } t) ∧
    (running s = true → s.clock.state = .set → now s = lastReading →
      ∃ t, exec .minuteBoundary s = .next t ∧ onlyChanges [.clock, .faults, .notices] s t ∧
        t.clock = { s.clock with state := .unset } ∧
        row t.faults.zone 0 = (row s.faults.zone 0).raised (now s) none ∧
        latchedWhere .faultOpened ((row s.faults.zone 0).state ≠ .opened) s t ∧
        t.faults.terminals = s.faults.terminals ∧ t.faults.grace = s.faults.grace ∧
        ∀ k : Fin 4, k ≠ 0 → row t.faults.zone k = row s.faults.zone k) ∧
    (s.clock.state = .unset → exec .minuteBoundary s = .next s)

/-- SET_CLOCK (sections 1.2, 1.3): the clock takes the reading, restarts the count and is SET; CLOCK_UNSET is cleared, every open
quote is cancelled, a terminal walk in flight is marked for discard, and every block takes the step; the reply carries the
new reading. A time out of range is refused BAD_FIELD. -/
def Obligations.SetClock : Prop :=
  ∀ (tag : Tag) (day minute : Nat) (s : State), officeTakes s →
    (day ≤ 65535 → minute ≤ 1439 →
      let z := day * 1440 + minute
      let isDay := decide (s.clock.state = .unset ∨ day ≠ today s)
      let clock := { s.clock with state := .set, reading := z, handed := z, subMinute := 0 }
      let unset := row s.faults.zone 0
      ∃ u t, exec (.setClock tag day minute) s = .next (answering t .office tag .ok (.reading z)) ∧
        boundaryDone isDay (isDay || decide (z / 60 ≠ now s / 60)) u t ∧
        onlyChanges [.clock, .quotes, .engine, .faults, .notices] s u ∧ u.clock = clock ∧ u.quotes = Vector.replicate 16 none ∧
        u.engine.slots = s.engine.slots ∧ u.engine.last = s.engine.last ∧
        u.engine.walk = s.engine.walk.map (fun w => if w.slot = officeSlot then w else { w with discard := true }) ∧
        u.faults = { s.faults with
          zone := put s.faults.zone 0 (if unset.state = .clear then unset else unset.cleared z) } ∧
        u.notices = (if unset.state = .clear then s.notices else latchIn .faultCleared s.notices) ∧
        t.ports = s.ports ∧ ∀ n, row t.quotes n = none) ∧
    (65535 < day ∨ 1439 < minute → exec (.setClock tag day minute) s = .next (answering s .office tag .badField .empty))

/-- SET_OVERRIDE (section 1.5): a type above 8 or a day above 65,535 or before today is refused BAD_FIELD; a ninth day is refused
FULL; otherwise the day has the given type, every other day keeps its own, and the day resolves to that type under every book.
Every reply returns the table; that a refusal does so too is the model's reading of R9 (log entry 21). -/
def Obligations.SetOverride : Prop :=
  ∀ (tag : Tag) (day dt : Nat) (s : State), officeTakes s →
    (8 < dt ∨ 65535 < day ∨ day < today s →
      exec (.setOverride tag day dt) s = .next (answering s .office tag .badField (.overrides s.clock.overrides))) ∧
    (dt ≤ 8 → day ≤ 65535 → today s ≤ day → lookup Override.day day s.clock.overrides = none →
      8 ≤ s.clock.overrides.length →
        exec (.setOverride tag day dt) s = .next (answering s .office tag .full (.overrides s.clock.overrides))) ∧
    ∀ ty : Fin 9, dt = ty.val → day ≤ 65535 → today s ≤ day →
      (lookup Override.day day s.clock.overrides ≠ none ∨ s.clock.overrides.length < 8) →
        ∃ table, exec (.setOverride tag day dt) s =
            .next (answering { s with clock := { s.clock with overrides := table } } .office tag .ok (.overrides table)) ∧
          lookup Override.day day table = some { day := day, dayType := ty } ∧
          (∀ d, d ≠ day → lookup Override.day d table = lookup Override.day d s.clock.overrides) ∧
          (∀ k, dayType table k day = ty) ∧
          (Rising Override.day s.clock.overrides → Rising Override.day table)

/-- DROP_OVERRIDE (section 1.5): a day above 65,535 is refused BAD_FIELD; an entry held for the day, today's too, is removed, the others
keeping their order; without one the command is refused ALREADY. The day then resolves by the calendar or the weekday. Every reply
returns the table; that a refusal does so too is the model's reading of R9 (log entry 21). -/
def Obligations.DropOverride : Prop :=
  ∀ (tag : Tag) (day : Nat) (s : State), officeTakes s →
    (65535 < day →
      exec (.dropOverride tag day) s = .next (answering s .office tag .badField (.overrides s.clock.overrides))) ∧
    (day ≤ 65535 → (∀ o ∈ s.clock.overrides, o.day ≠ day) →
      exec (.dropOverride tag day) s = .next (answering s .office tag .already (.overrides s.clock.overrides))) ∧
    (day ≤ 65535 → (∃ o ∈ s.clock.overrides, o.day = day) →
      ∃ table, exec (.dropOverride tag day) s =
          .next (answering { s with clock := { s.clock with overrides := table } } .office tag .ok (.overrides table)) ∧
        table = s.clock.overrides.filter (fun o => decide (o.day ≠ day)) ∧
        ∀ k : Book, dayType table k day =
          match lookup CalendarEntry.day day k.calendar with
          | some e => e.dayType
          | none => weekday day)

/-- The removals and comparisons of a boundary as rows of their own (OVERRIDE_REMOVAL, PERMIT_REMOVAL, LOG_PRUNING), while the
blocks run and the clock is SET: sections 1.5, 5.5, 6.8. That these rows may be taken by themselves is the model's choice
(log entry 1). -/
def Obligations.DailyRemovals : Prop :=
  ∀ s : State, running s = true → s.clock.state = .set →
    exec .overrideRemoval s = .next { s with clock := { s.clock with
      overrides := s.clock.overrides.filter fun o => decide (today s ≤ o.day) } } ∧
    exec .permitRemoval s = .next { s with permits := s.permits.filter fun p => decide (today s ≤ p.toDay + 7) } ∧
    ∃ t, exec .logPruning s = .next t ∧ onlyChanges [.sales, .faults, .notices] s t ∧
      t.sales.log = s.sales.log.filter (fun r => decide (now s ≤ r.expiry + 1440)) ∧
      t.sales.pressure = (s.sales.pressure && decide (3072 < t.sales.log.length)) ∧
      t.sales.nextSerial = s.sales.nextSerial ∧ t.sales.sequences = s.sales.sequences ∧ t.sales.totals = s.sales.totals ∧
      (s.sales.pressure = true → t.sales.log.length ≤ 3072 → (row t.faults.zone 3).state = .clear) ∧
      (s.sales.pressure = false → t.faults = s.faults) ∧
      latchedWhere .faultCleared
        (s.sales.pressure = true ∧ t.sales.log.length ≤ 3072 ∧ (row s.faults.zone 3).state ≠ .clear) s t

/-! ## Book store -/

/-- The four loads and COPY_ACTIVE, where the staged book is free to change and the part is in range (sections 2.2 to 2.6): the
staged book takes the part and keeps the rest, is EDITING, the revision rises by one and the reply carries it; the ACTIVE book
and the check record stay. LOAD_DAY of an absent plan and COPY_ACTIVE of an EMPTY book are refused NO_PLAN, days that do not
rise BAD_FIELD. -/
def Obligations.LoadsChangeTheirPart : Prop :=
  ∀ (tag : Tag) (s : State), officeTakes s → stagedFree s.books →
    let old := s.books.stagedBook
    let done := fun k : Book => (.next (answering
      { s with books := { s.books.setStaged k with stagedState := .editing, revision := s.books.revision + 1 } }
      .office tag .ok (.revision (s.books.revision + 1))) : Answered)
    let refused := fun st : Status => (.next (answering s .office tag st .empty) : Answered)
    (∀ part p header, readPlan part = some (p, header) →
      ∃ k, exec (.loadPlan tag part) s = done k ∧ k.ladders = old.ladders ∧ k.calendar = old.calendar ∧
        (∀ q, q ≠ p → row k.plans q = row old.plans q) ∧
        row k.plans p = header.map fun h =>
          { header := h, patterns := match row old.plans p with
              | some plan => plan.patterns
              | none => Vector.replicate 9 none }) ∧
    (∀ part p ty periods, readDay part = some (p, ty, periods) →
      (row old.plans p = none → exec (.loadDay tag part) s = refused .noPlan) ∧
      ∀ plan, row old.plans p = some plan →
        ∃ k, exec (.loadDay tag part) s = done k ∧ k.ladders = old.ladders ∧ k.calendar = old.calendar ∧
          (∀ q, q ≠ p → row k.plans q = row old.plans q) ∧
          ∃ plan', row k.plans p = some plan' ∧ plan'.header = plan.header ∧ row plan'.patterns ty = some periods ∧
            ∀ u, u ≠ ty → row plan'.patterns u = row plan.patterns u) ∧
    (∀ part l steps, readLadder part = some (l, steps) →
      ∃ k, exec (.loadLadder tag part) s = done k ∧ k.plans = old.plans ∧ k.calendar = old.calendar ∧
        row k.ladders l = steps ∧ ∀ m, m ≠ l → row k.ladders m = row old.ladders m) ∧
    (∀ part entries, readCalendar part = some entries →
      (Rising CalendarEntry.day entries → exec (.loadCalendar tag part) s = done { old with calendar := entries }) ∧
      (¬ Rising CalendarEntry.day entries → exec (.loadCalendar tag part) s = refused .badField)) ∧
    (s.books.activeState = .inForce → exec (.copyActive tag) s = done s.books.activeBook) ∧
    (s.books.activeState = .empty → exec (.copyActive tag) s = refused .noPlan)

/-- The order in which a load or COPY_ACTIVE is refused (section 2.6): a retired bank BUSY, CHECKING BUSY, ARMED ARMED, a held
bank BUSY, then a field out of range BAD_FIELD. A refused command changes nothing but the reply. -/
def Obligations.LoadsRefusedInOrder : Prop :=
  ∀ (tag : Tag) (s : State), officeTakes s →
    let b := s.books
    let refused := fun st : Status => (.next (answering s .office tag st .empty) : Answered)
    (∀ st : Status,
      (b.retired = true ∧ st = .busy) ∨ (b.retired = false ∧ b.stagedState = .checking ∧ st = .busy) ∨
        (b.retired = false ∧ b.stagedState = .armed ∧ st = .armed) ∨
        (b.retired = false ∧ b.stagedState ≠ .checking ∧ b.stagedState ≠ .armed ∧ b.stagedHeld = true ∧ st = .busy) →
      (∀ part, exec (.loadPlan tag part) s = refused st) ∧ (∀ part, exec (.loadDay tag part) s = refused st) ∧
        (∀ part, exec (.loadLadder tag part) s = refused st) ∧ (∀ part, exec (.loadCalendar tag part) s = refused st) ∧
        exec (.copyActive tag) s = refused st) ∧
    (stagedFree b →
      (∀ part, readPlan part = none → exec (.loadPlan tag part) s = refused .badField) ∧
        (∀ part, readDay part = none → exec (.loadDay tag part) s = refused .badField) ∧
        (∀ part, readLadder part = none → exec (.loadLadder tag part) s = refused .badField) ∧
        ∀ part, readCalendar part = none → exec (.loadCalendar tag part) s = refused .badField)

/-- ARM_BOOK, CLEAR_STAGED and DISARM_BOOK (sections 2.6 to 2.8), with their refusals in order. ARM_BOOK makes the book CHECKING with
the check record cleared, and keeps the day where the ACTIVE book is IN_FORCE or sets the first-book mark where it is EMPTY.
CLEAR_STAGED empties an EDITING or CHECKING book and its check record; DISARM_BOOK returns an ARMED book to EDITING with its
contents and resets BOOK_CHANGE on every terminal; each of the two raises the revision by one. -/
def Obligations.ArmClearAndDisarm : Prop :=
  ∀ (tag : Tag) (day : Nat) (s : State), officeTakes s →
    let b := s.books
    exec (.armBook tag day) s = .next (
      if b.retired = true then answering s .office tag .busy .empty
      else if b.stagedState = .empty then answering s .office tag .noPlan .empty
      else if b.stagedState = .checking then answering s .office tag .busy .empty
      else if b.stagedState = .armed then answering s .office tag .armed .empty
      else if b.stagedHeld = true then answering s .office tag .busy .empty
      else if 65535 < day then answering s .office tag .badField .empty
      else if b.activeState = .inForce ∧ day ≤ today s then answering s .office tag .badField .empty
      else answering { s with books := { b with
        stagedState := .checking, check := CheckRecord.none,
        activationDay := if b.activeState = .inForce then some day else none,
        firstBook := decide (b.activeState = .empty) } } .office tag .ok .empty) ∧
    exec (.clearStaged tag) s = .next (
      if b.retired = true then answering s .office tag .busy .empty
      else if b.stagedState = .armed then answering s .office tag .armed .empty
      else if b.stagedHeld = true then answering s .office tag .busy .empty
      else if b.stagedState = .empty then answering s .office tag .already .empty
      else answering { s with books := { b.setStaged Book.empty with
        stagedState := .empty, activationDay := none, firstBook := false, check := CheckRecord.none,
        revision := b.revision + 1 } } .office tag .ok .empty) ∧
    exec (.disarmBook tag) s = .next (
      if b.stagedState = .armed then answering { s with
        books := { b with stagedState := .editing, activationDay := none, firstBook := false, revision := b.revision + 1 },
        table := Vector.ofFn fun n => { row s.table n with addressed := (row s.table n).addressed &&& ~~~(1#8) } }
        .office tag .ok .empty
      else answering s .office tag .already .empty)

/-- The book check has no finding exactly when the book is sound: every ladder and pattern well ordered, every pattern and ladder
a present plan needs present, and every ACTIVE terminal's plan present. Its findings are those of section 2.7, each with its index,
once each and in the section's order. Where the first period is misplaced PERIOD_ORDER names 1, whatever follows (log entry 13). -/
def Obligations.CheckFindsWhatIsUnsound : Prop :=
  ∀ (k : Book) (table : Vector Entry 16),
    (checkFindings k table = [] ↔ bookSound k table) ∧
    (∀ f : Finding, f ∈ checkFindings k table ↔ findingHolds k table f) ∧
    (checkFindings k table).Pairwise Finding.before

/-- BOOK_CHECK_COMPLETE (section 2.7): a sound book becomes ARMED, the revision rises, the record is PASSED and BOOK_CHANGE is set
on the ACTIVE terminals; an unsound one returns to EDITING with the count of its findings, those of the book check in their order,
and the first eight of them; BOOK_CHECKED is latched either way. Where no check runs, none completes. -/
def Obligations.BookCheckCompletes : Prop :=
  ∀ s : State, running s = true →
    let b := s.books
    (b.stagedState = .checking → bookSound b.stagedBook s.table →
      exec .bookCheckComplete s = .next { s with
        books := { b with
          stagedState := .armed, revision := b.revision + 1, check := { outcome := .passed, count := 0, findings := [] } },
        notices := latchIn .bookChecked s.notices,
        table := Vector.ofFn fun n =>
          if (row s.table n).active then { row s.table n with addressed := (row s.table n).addressed ||| 1#8 }
          else row s.table n }) ∧
    (b.stagedState = .checking → ¬ bookSound b.stagedBook s.table →
      let found := checkFindings b.stagedBook s.table
      found ≠ [] ∧ exec .bookCheckComplete s = .next { s with
        books := { b with
          stagedState := .editing, activationDay := none, firstBook := false,
          check := { outcome := .failed, count := found.length, findings := found.take 8 } },
        notices := latchIn .bookChecked s.notices }) ∧
    (b.stagedState ≠ .checking → exec .bookCheckComplete s = .next s)

/-- BOOK_ACTIVATION (section 2.8): an ARMED book that has its first-book mark, or whose activation day has come, becomes the ACTIVE
book; the other bank is kept and retired where a walk holds it, and emptied where not; the generation rises by one,
BOOK_ACTIVATED is latched and BOOK_CHANGE reset on every terminal. A book that is not due stays. That this row may be taken by
itself, between boundaries, is the model's choice (log entry 1). -/
def Obligations.BookActivation : Prop :=
  ∀ s : State, running s = true → s.clock.state = .set →
    let b := s.books
    (b.stagedState = .armed → (b.firstBook = true ∨ ∃ day, b.activationDay = some day ∧ day ≤ today s) →
      ∃ t, exec .bookActivation s = .next t ∧ onlyChanges [.books, .notices, .table] s t ∧
        t.books.active = b.active.other ∧ t.books.activeState = .inForce ∧ t.books.activeBook = b.stagedBook ∧
        t.books.stagedState = .empty ∧ t.books.retired = b.isHeld b.active ∧
        t.books.stagedBook = (if b.isHeld b.active then b.activeBook else Book.empty) ∧
        t.books.activationDay = none ∧ t.books.firstBook = false ∧ t.books.generation = b.generation + 1 ∧
        t.books.revision = b.revision ∧ t.books.check = b.check ∧ t.books.heldX = b.heldX ∧ t.books.heldY = b.heldY ∧
        t.notices = latchIn .bookActivated s.notices ∧
        ∀ n, row t.table n = { row s.table n with addressed := (row s.table n).addressed &&& ~~~(1#8) }) ∧
    ((b.stagedState ≠ .armed ∨ (b.firstBook = false ∧ ∃ day, b.activationDay = some day ∧ today s < day)) →
      exec .bookActivation s = .next s)

/-- READ_BOOK (section 2.10): a part number above 97 is refused BAD_FIELD, the STAGED book BUSY while CHECKING or retired; else the
part of that number is returned, and nothing changes. Every reply carries the generation of the ACTIVE book, or the state, revision
and, if ARMED, activation day of the STAGED one; that a refusal does so too is the model's reading of R38 (log entry 21). -/
def Obligations.ReadBook : Prop :=
  ∀ (tag : Tag) (part : Nat) (s : State), officeTakes s →
    let b := s.books
    let read := fun which : BookSelector => exec (.readBook tag which part) s
    let answered := fun (stamp : BookStamp) (p : BookPart) =>
      (.next (answering s .office tag .ok (.bookPart stamp part p)) : Answered)
    let refused := fun (st : Status) (stamp : BookStamp) =>
      (.next (answering s .office tag st (.bookStamp stamp)) : Answered)
    let stagedStamp := BookStamp.staged b.stagedState b.revision (if b.stagedState = .armed then b.activationDay else none)
    let active := fun p : BookPart => read .active = answered (.active b.generation) p
    let staged := fun p : BookPart => b.stagedState ≠ .checking → b.retired = false → read .staged = answered stagedStamp p
    (97 < part → read .active = refused .badField (.active b.generation) ∧ read .staged = refused .badField stagedStamp) ∧
    (part ≤ 97 → b.stagedState = .checking ∨ b.retired = true → read .staged = refused .busy stagedStamp) ∧
    (∀ p : Fin 8, part = 1 + p.val →
      active (.plan p ((row b.activeBook.plans p).map Plan.header)) ∧
        staged (.plan p ((row b.stagedBook.plans p).map Plan.header))) ∧
    (∀ (p : Fin 8) (ty : Fin 9), part = 9 + 9 * p.val + ty.val →
      active (.day p ty ((row b.activeBook.plans p).bind fun plan => row plan.patterns ty)) ∧
        staged (.day p ty ((row b.stagedBook.plans p).bind fun plan => row plan.patterns ty))) ∧
    (∀ l : Fin 16, part = 81 + l.val →
      active (.ladder l (row b.activeBook.ladders l)) ∧ staged (.ladder l (row b.stagedBook.ladders l))) ∧
    (part = 97 → active (.calendar b.activeBook.calendar) ∧ staged (.calendar b.stagedBook.calendar)) ∧
    (part = 0 →
      active (.header (if b.activeState = .inForce then 1 else 0) (Vector.ofFn fun p => (row b.activeBook.plans p).isSome)
          (Vector.ofFn fun l => (row b.activeBook.ladders l).isSome) b.activeBook.calendar.length) ∧
        ∀ code, (b.stagedState = .empty ∧ code = 0 ∨ b.stagedState = .editing ∧ code = 1 ∨ b.stagedState = .armed ∧ code = 3) →
          staged (.header code (Vector.ofFn fun p => (row b.stagedBook.plans p).isSome)
            (Vector.ofFn fun l => (row b.stagedBook.ladders l).isSome) b.stagedBook.calendar.length))

/-! ## Quote engine -/

/-- QUOTE and PRICE accepted (sections 3.2, 3.3, 4.4): the open quote is cancelled and a visitor's entry brought up to date. While a
walk is in flight the request waits in the terminal's slot, the line PENDING; while the engine is free and no request waits,
the walk begins at once, with the reading, the view, and the terminal's plan, PASS set and mode as they stand, and the
banks of its view are held. -/
def Obligations.AskPlaced : Prop :=
  ∀ (n : Line) (r : WalkRequest) (s : State), lineTakes s n →
    let e := row s.table n
    let waiting := fun k : RequestKind => (.next { asTaken s n k with
      quotes := put s.quotes n none
      permits := permitsAsRead s n r
      engine := { s.engine with slots := put s.engine.slots (lineSlot n) (some r) } } : Answered)
    let begun := fun k : RequestKind => (.next { asTaken s n k with
      quotes := put s.quotes n none
      permits := permitsAsRead s n r
      books := s.books.hold s.books.view
      engine := { s.engine with
        last := lineSlot n
        walk := some { slot := lineSlot n, request := r, time := now s, view := s.books.view, plan := e.plan, pass := e.pass,
                       mode := e.mode, discard := false, orphaned := false, stage := .link } } } : Answered)
    (∀ f, quoteRequest f = some r → askAllowed (asTaken s n .quote) n r →
      (s.engine.walk.isSome = true → exec (.quote n f) s = waiting .quote) ∧
        (s.engine.walk = none → noRequests s.engine → exec (.quote n f) s = begun .quote)) ∧
    ∀ f, priceRequest f = some r → askAllowed (asTaken s n .price) n r →
      (s.engine.walk.isSome = true → exec (.price n f) s = waiting .price) ∧
        (s.engine.walk = none → noRequests s.engine → exec (.price n f) s = begun .price)

/-- The refusals of QUOTE and PRICE in their order (section 4.4): a pay kind the terminal does not take or a mark missing BAD_FIELD,
an EMPTY book NO_PLAN, an UNSET clock CLOCK_UNSET, then the service state; then for a visitor in mode NORMAL the permit. The
open quote is kept. -/
def Obligations.AskRefusedInOrder : Prop :=
  ∀ (n : Line) (f : QuoteFields) (g : PriceFields) (r : WalkRequest) (s : State), lineTakes s n →
    let e := row s.table n
    let k := Ask.payKind r.ask
    let v := serviceState (heard n s) n
    let refusedWith := fun (c : Instr) (st : Status) (parts : List Part) =>
      ∃ t, exec c s = .next t ∧ answeredOn s t n st .empty ∧ onlyChanges parts s t
    let parts : List Part := [.lines, .table, .faults, .notices]
    let first : Option Status :=
      if (k = .cash ∧ e.takesCoins = false) ∨ (k = .card ∧ e.takesCards = false) then some .badField
      else if (e.asksMark = true ∨ k = .visitor) ∧ r.mark = none then some .badField
      else if s.books.activeState = .empty then some .noPlan
      else if s.clock.state = .unset then some .clockUnset
      else if v = .outOfService then some .outOfService
      else if k = .cash ∧ (v = .cashOut ∨ v = .paymentOut) then some .cashOut
      else if k = .card ∧ (v = .cardOut ∨ v = .paymentOut) then some .cardOut
      else none
    (quoteRequest f = none → refusedWith (.quote n f) .badField parts) ∧
    (priceRequest g = none → refusedWith (.price n g) .badField parts) ∧
    (∀ st, first = some st →
      (quoteRequest f = some r → refusedWith (.quote n f) st parts) ∧
        (priceRequest g = some r → refusedWith (.price n g) st parts)) ∧
    ∀ minutes permit, first = none → quoteRequest f = some r → r.ask = .forward (.visitor minutes permit) → e.mode = .normal →
      (lookup Permit.number permit s.permits = none → refusedWith (.quote n f) .noPermit (.permits :: parts)) ∧
      ∀ p, lookup Permit.number permit s.permits = some p →
        ((∀ b, p.kind ≠ .visitorBook b) ∨ p.covers e.plan (today s) = false) →
          refusedWith (.quote n f) .permitInvalid (.permits :: parts)

/-- PREVIEW_QUOTE (section 3.14): its refusals in order, and its acceptance into the office slot, to be answered late: it waits
behind a walk in flight, and begins at once where the engine is free. -/
def Obligations.PreviewQuote : Prop :=
  ∀ (tag : Tag) (f : PreviewFields) (s : State), officeTakes s →
    let refused := fun st : Status => (.next (answering s .office tag st .empty) : Answered)
    (previewRequest f tag = none → exec (.previewQuote tag f) s = refused .badField) ∧
    ∀ r p, previewRequest f tag = some r → r.preview = some p →
      let early := ∃ z, p.time = some z ∧ z < now s
      let deferred := { s.ports with office := { s.ports.office with deferred := s.ports.office.deferred + 1 } }
      (early → exec (.previewQuote tag f) s = refused .badField) ∧
      (¬ early → s.clock.state = .unset → exec (.previewQuote tag f) s = refused .clockUnset) ∧
      (¬ early → s.clock.state = .set → (s.books.activeState = .empty ∨ row s.books.activeBook.plans p.plan = none) →
        exec (.previewQuote tag f) s = refused .noPlan) ∧
      (¬ early → s.clock.state = .set → s.books.activeState = .inForce → row s.books.activeBook.plans p.plan ≠ none →
        ((row s.engine.slots officeSlot ≠ none ∨ ∃ w, s.engine.walk = some w ∧ w.slot = officeSlot) →
          exec (.previewQuote tag f) s = refused .busy) ∧
        (∀ w, row s.engine.slots officeSlot = none → s.engine.walk = some w → w.slot ≠ officeSlot →
          exec (.previewQuote tag f) s = .next { s with
            engine := { s.engine with slots := put s.engine.slots officeSlot (some r) }, ports := deferred }) ∧
        (s.engine.walk = none → noRequests s.engine →
          exec (.previewQuote tag f) s = .next { s with
            books := s.books.hold s.books.view, ports := deferred
            engine := { s.engine with
              last := officeSlot
              walk := some { slot := officeSlot, request := r, time := p.time.getD (now s), view := s.books.view,
                             plan := p.plan, pass := p.pass, mode := .normal, discard := false, orphaned := false,
                             stage := .link } } }))

/-- WALK_BEGIN (sections 3.2, 3.3): a free engine takes the first request in cyclic order after the slot served last, empties its
slot, and begins its walk with the reading, the view and, for a terminal, the plan, PASS set and mode as they stand. Where
a walk is in flight or no request waits, nothing happens. While the clock is UNSET no walk begins: every waiting request is refused
CLOCK_UNSET, a terminal's in mode NORMAL counted as made, until none waits; no view is taken. -/
def Obligations.WalkBegin : Prop :=
  ∀ s : State, running s = true →
    (s.engine.walk.isSome = true ∨ noRequests s.engine → exec .walkBegin s = .next s) ∧
    (∀ (n : Line) (r : WalkRequest), s.engine.walk = none → s.clock.state = .set → firstInTurn s.engine (lineSlot n) r →
      r.preview = none →
        exec .walkBegin s = .next { s with
          books := s.books.hold s.books.view
          engine := {
            slots := put s.engine.slots (lineSlot n) none
            last := lineSlot n
            walk := some { slot := lineSlot n, request := r, time := now s, view := s.books.view,
                           plan := (row s.table n).plan, pass := (row s.table n).pass, mode := (row s.table n).mode,
                           discard := false, orphaned := false, stage := .link } } }) ∧
    (∀ (r : WalkRequest) (p : Preview), s.engine.walk = none → s.clock.state = .set → firstInTurn s.engine officeSlot r →
      r.preview = some p →
        exec .walkBegin s = .next { s with
          books := s.books.hold s.books.view
          engine := {
            slots := put s.engine.slots officeSlot none
            last := officeSlot
            walk := some { slot := officeSlot, request := r, time := p.time.getD (now s), view := s.books.view,
                           plan := p.plan, pass := p.pass, mode := .normal, discard := false, orphaned := false,
                           stage := .link } } }) ∧
    (s.engine.walk = none → s.clock.state = .unset → slotsKept s →
      ∃ t, exec .walkBegin s = .next t ∧ onlyChanges [.engine, .lines, .sales, .ports] s t ∧ t.engine.walk = none ∧
        noRequests t.engine ∧ t.sales = { s.sales with totals := t.sales.totals } ∧
        (∀ n, row s.engine.slots (lineSlot n) = none →
          row t.lines n = row s.lines n ∧ row t.sales.totals n = row s.sales.totals n) ∧
        (∀ n, row s.engine.slots (lineSlot n) ≠ none → answerComes s t n .clockUnset .empty ∧
          ((row s.table n).mode = .test → row t.sales.totals n = row s.sales.totals n) ∧
          ((row s.table n).mode = .normal →
            recordBecomes (today s) (fun d => { d with quotesMade := min 65535 (d.quotesMade + 1) })
              (row s.sales.totals n) (row t.sales.totals n))) ∧
        (row s.engine.slots officeSlot = none → t.ports = s.ports) ∧
        ∀ r p, row s.engine.slots officeSlot = some r → r.preview = some p →
          t.ports = withAnswer { s with ports := { s.ports with
            office := { s.ports.office with deferred := s.ports.office.deferred - 1 } } } .office p.tag .clockUnset .empty)

/-- WALK_COMPLETE of a terminal walk not marked for discard, with a result (sections 3.3, 4.5): the result becomes the open quote
with the next quote number and the reading; OK with it is the answer to the terminal's request; in mode NORMAL the conditions join the
sticky set and the walk is counted as a quote made; the engine is free and the holds are cleared. The arbiter then chooses: what is
waiting begins as a WALK_BEGIN would begin it. -/
def Obligations.WalkResultBecomesQuote : Prop :=
  ∀ (n : Line) (w : Walk) (r : WalkResult) (s : State),
    running s = true → s.engine.walk = some w → w.slot = lineSlot n → w.request.preview = none →
    w.discard = false → (runStages walkFuel s w).2 = .result r →
      let e := row s.table n
      let number := e.nextQuote
      ∃ u t, exec .walkComplete s = .next t ∧ exec .walkBegin u = .next t ∧ (noRequests s.engine → t = u) ∧
        walkFreed w s u ∧ onlyChanges [.books, .engine, .lines, .table, .quotes, .sales, .permits] s u ∧
        row u.quotes n = some { result := r, number := number, made := now s } ∧ sameBut n s.quotes u.quotes ∧
        answerComes s u n .ok (.quoted r number) ∧ sameBut n s.lines u.lines ∧
        row u.table n = { e with
          nextQuote := if number = 255 then 1 else number + 1
          sticky := if w.mode = .normal then e.sticky ||| r.conds else e.sticky } ∧
        sameBut n s.table u.table ∧
        (w.mode = .test → u.sales = s.sales) ∧
        (w.mode = .normal → todayBecomes n (fun d => { d with
          quotesMade := min 65535 (d.quotesMade + 1), conds := d.conds ||| r.conds }) s u)

/-- WALK_COMPLETE of a terminal walk not marked for discard, refused (sections 3.3, 3.6, 4.5): no open quote is made; the answer to the
terminal's request is the status and, for HELD, the refusing condition and the conditions raised. In mode NORMAL CONDITION_HELD is
latched where the refusing condition is not yet sticky, the conditions join the sticky set, and the walk is counted as made
and, refused HELD, as held. The engine is free, the holds are cleared, and the arbiter chooses as a WALK_BEGIN would. -/
def Obligations.WalkRefusedIsAnswered : Prop :=
  ∀ (n : Line) (w : Walk) (st : Status) (k : Option Cond) (c : CondSet) (s : State),
    running s = true → s.engine.walk = some w → w.slot = lineSlot n → w.request.preview = none →
    w.discard = false → (runStages walkFuel s w).2 = .refused st k c →
      let e := row s.table n
      ∃ u t, exec .walkComplete s = .next t ∧ exec .walkBegin u = .next t ∧ (noRequests s.engine → t = u) ∧
        walkFreed w s u ∧ onlyChanges [.books, .engine, .lines, .table, .sales, .permits, .notices] s u ∧
        (∀ q, k = some q → answerComes s u n st (.held q c)) ∧ (k = none → answerComes s u n st .empty) ∧
        sameBut n s.lines u.lines ∧
        row u.table n = { e with sticky := if w.mode = .normal then e.sticky ||| c else e.sticky } ∧
        sameBut n s.table u.table ∧
        u.notices = (if w.mode = .normal ∧ ∃ q, k = some q ∧ q.isIn e.sticky = false then latchIn .conditionHeld s.notices
          else s.notices) ∧
        (w.mode = .test → u.sales = s.sales) ∧
        (w.mode = .normal → todayBecomes n (fun d => { d with
          quotesMade := min 65535 (d.quotesMade + 1)
          quotesHeld := if k.isSome then min 65535 (d.quotesHeld + 1) else d.quotesHeld
          conds := d.conds ||| c }) s u)

/-- WALK_COMPLETE of a walk marked for discard, and of a preview (sections 3.3, 3.14, 4.5). A discarded walk makes no quote and
reaches neither the sticky set nor the totals; the answer to its request is STALE or NOT_CONFIGURED, or none at all where the walk
is orphaned. A preview's outcome is handed back to the office and leaves no trace at a terminal. The engine is free, the holds are
cleared, and the arbiter chooses as a WALK_BEGIN would. -/
def Obligations.WalkDiscardedOrPreviewed : Prop :=
  ∀ (w : Walk) (s : State), running s = true → s.engine.walk = some w →
    let o := (runStages walkFuel s w).2
    (∀ n : Line, w.slot = lineSlot n → w.request.preview = none → w.discard = true →
      ∃ u t, exec .walkComplete s = .next t ∧ exec .walkBegin u = .next t ∧ (noRequests s.engine → t = u) ∧
        walkFreed w s u ∧ onlyChanges [.books, .engine, .lines, .permits] s u ∧
        (w.orphaned = true → u.lines = s.lines) ∧
        (w.orphaned = false → sameBut n s.lines u.lines ∧
          answerComes s u n (if (row s.table n).active then .stale else .notConfigured) .empty)) ∧
    ∀ p, w.request.preview = some p →
      ∃ u t status body, exec .walkComplete s = .next t ∧ exec .walkBegin u = .next t ∧ (noRequests s.engine → t = u) ∧
        walkFreed w s u ∧ onlyChanges [.books, .engine, .permits, .ports] s u ∧
        u.ports = withAnswer { s with ports := { s.ports with
          office := { s.ports.office with deferred := s.ports.office.deferred - 1 } } } .office p.tag status body ∧
        (∀ r, o = .result r → status = .ok ∧ body = .previewed r) ∧
        (∀ st k c, o = .refused st (some k) c → status = st ∧ body = .held k c) ∧
        ∀ st c, o = .refused st none c → status = st ∧ body = .empty

/-- A walk comes to its end: from its first stage, every walk reaches its outcome in fewer stages than the fuel that WALK_COMPLETE
gives it, because a walk enters at most sixteen instances (section 3.10); and a result keeps the bounds of section 3.12. On the way each
stage reads the tariff through the walk's own view, plan and mode and the override table as it stands (sections 3.3, 3.5). The staged
bank serves the days from its activation day on. The type of a day is the override's, else the calendar's, else the weekday (section
1.5); the instance that holds a minute is that of the period of the type's pattern in the book that serves the day (section 2.3), and in
mode TEST the whole day at 120 p/h (section 3.4). Stage (d): before a further instance LONG is raised after 16 instances or past day
65,535, then EDGE, NOSALE and CARRY; a FREE instance is crossed for nothing, but not with no budget at the start; a CHARGED one is
bought in until the budget wants, the instance ends, or its maximum stay raises CAP. That a later book without the plan refuses
NO_PLAN after EDGE was raised (log entry 16), and that the buying point is the point reached even where an override edit has put
the instance's start before it (log entry 26), are the model's. -/
def Obligations.EveryWalkEnds : Prop :=
  (∀ (s : State) (w : Walk), w.stage = .link →
    (∃ k, k < walkFuel ∧ (oneStage^[k] (s, w)).2.stage = .done (runStages walkFuel s w).2) ∧
    ∀ r, (runStages walkFuel s w).2 = .result r →
      resultInBounds w (runStages walkFuel s w).1.permits (today s) r) ∧
  (∀ (s : State) (w : Walk),
    let tar := tariffOf s w
    let next := fun stage : Stage => stageOf s w = (s, stage)
    (w.stage = .link → next (linkStage tar s.sales.log w)) ∧ (∀ c, w.stage = .checks c → next (checksStage tar w c)) ∧
      (∀ c t, w.stage = .forward c t → next (forwardStage tar w c t)) ∧
      (∀ c t why, w.stage = .finish c t why → next (finishStage w c t why)) ∧
      (∀ c first, w.stage = .place c first → next (placeStage tar w c first)) ∧
      (∀ c t, w.stage = .reverse c t → next (reverseStage tar w c t)) ∧
      (∀ c first cost wanted, w.stage = .price c first cost wanted → next (priceStage c first cost wanted)) ∧
      (∀ o, w.stage = .done o → next (.done o)) ∧
      tar.active = s.books.bank w.view.active ∧ tar.staged = w.view.staged.map (fun v => (s.books.bank v.1, v.2)) ∧
      tar.overrides = s.clock.overrides ∧ tar.plan = w.plan ∧ (tar.test = true ↔ w.mode = .test)) ∧
  (∀ (tar : Tariff) (z : ZoneMinute),
    (tar.servedByStaged (z / 1440) = true ↔ tar.test = false ∧ ∃ k from_, tar.staged = some (k, from_) ∧ from_ ≤ z / 1440) ∧
      (tar.servedByStaged (z / 1440) = false → tar.book (z / 1440) = tar.active) ∧
      (∀ k from_, tar.staged = some (k, from_) → tar.servedByStaged (z / 1440) = true → tar.book (z / 1440) = k) ∧
      (tar.test = false → instanceFits tar z (tar.spanAt z)) ∧
      (tar.test = true → tar.spanAt z = some {
        start := z / 1440 * 1440, stop := (z / 1440 + 1) * 1440, byStaged := false
        kind := .charged [{ limit := 1440, rate := 120 }] 1440
        header := { minuteStep := 1, rounding := .floor, coinUnit := 10, minimumCharge := 0, noReturn := 0 } })) ∧
  (∀ (overrides : List Override) (k : Book) (day : Nat),
    (∀ o, lookup Override.day day overrides = some o → dayType overrides k day = o.dayType) ∧
      (lookup Override.day day overrides = none →
        (∀ e, lookup CalendarEntry.day day k.calendar = some e → dayType overrides k day = e.dayType) ∧
          (lookup CalendarEntry.day day k.calendar = none → (dayType overrides k day).val = day % 7))) ∧
  (∀ (tar : Tariff) (w : Walk) (c : WalkContext) (t : Trail),
    (16 ≤ t.entered ∨ 65535 < t.point / 1440 →
      conditionRaised w.pass .long c (fun c => .finish c t .long) (forwardStage tar w c t)) ∧
    (t.entered < 16 → t.point / 1440 ≤ 65535 →
      entersNext tar w.pass t.startByStaged t.chargedMet t.point c (fun c => .finish c t .noSale)
        (fun c sp => workSpan w.pass (effectivePayment w c) c t sp t.point 0) (forwardStage tar w c t))) ∧
  ∀ (pass : CondSet) (p : Payment) (c : WalkContext) (t : Trail) (sp : Span) (point count : Nat),
    let entered := { t with
      entered := t.entered + 1, bought := t.bought + t.inSpan, usedStaged := t.usedStaged || sp.byStaged, span := sp
      buyingPoint := point, entryCount := count, inSpan := 0 }
    let stage := workSpan pass p c t sp point count
    (sp.kind = .free → stage =
      if t.entered = 0 ∧ t.budget = 0 then .finish c entered .freeStart else .forward c { entered with point := sp.stop }) ∧
    ∀ steps maximumStay, sp.kind = .charged steps maximumStay →
      let got := buy p count (min (sp.stop - point) (maximumStay - count)) t.budget steps
      let after := { entered with point := point + got.1, budget := got.2.1, inSpan := got.1, chargedMet := true }
      (∀ rate, got.2.2 = some rate → stage = .finish c after (.want rate)) ∧
      (got.2.2 = none → after.point = sp.stop →
        stage = if after.budget = 0 then .finish c after .exhausted else .forward c after) ∧
      (got.2.2 = none → after.point ≠ sp.stop → after.budget = 0 → stage = .finish c after (.want 0)) ∧
      (got.2.2 = none → after.point ≠ sp.stop → 0 < after.budget →
        conditionRaised pass .cap c (fun c => .finish c after .cap) stage)

/-- Buying with money (section 3.10): what is bought and its cost make up what is spent, never more than the room; each minute costs
the rate of its ladder step (section 2.4); the walk stops for want of budget only where the budget does not cover the next minute at
that minute's rate, or is empty; and where the budget covers the cost of some minutes of the room it buys at least those. With visitor
minutes each minute of the room costs one. The reverse walk of a PRICE (section 3.13) sums the same cost: it places the
wanted expiry, crosses FREE instances, adds each CHARGED one up to the wanted expiry or the maximum stay, where CAP is raised, and moves
the wanted expiry back where CAP, NOSALE or LONG passes. The price (section 3.13) is the least multiple of the coin unit that covers the
cost, the minimum charge and one coin unit; above 50,000 pence the PRICE is refused. That a budget of 0 stops the forward walk before
minutes at rate 0 too (log entry 27), that ROUND is raised also where the move ends where it began (log entry 15), NO_PLAN after
EDGE (log entry 16), NO_PLAN where W itself cannot be placed (log entry 32), and the preload made anew in the forward walk of a PRICE
(log entry 29) are the model's. -/
def Obligations.MoneyBuysWholeMinutes : Prop :=
  (∀ (c room budget : Nat) (steps : List LadderStep), wellOrderedLadder steps → c + room ≤ 1440 →
    let got := buyMoney c room budget steps
    got.1 ≤ room ∧ got.2.1 + ladderCost c got.1 steps = budget ∧
      (got.2.2 = none → got.1 = room) ∧
      (∀ rate, got.2.2 = some rate → got.1 < room ∧
        ((rate = rateAt steps (c + got.1 + 1) ∧ got.2.1 < rate) ∨ (rate = 0 ∧ got.2.1 = 0))) ∧
      ∀ m, m ≤ room → ladderCost c m steps ≤ budget → 0 < got.2.1 ∨ got.2.2 = none → m ≤ got.1) ∧
  (∀ (c n : Nat) (steps : List LadderStep),
    ladderCost c n steps = ((List.range n).map fun i => rateAt steps (c + i + 1)).sum) ∧
  (∀ (c room budget : Nat) (steps : List LadderStep),
    (∀ amount, buy (.cash amount) c room budget steps = buyMoney c room budget steps ∧
      buy (.card amount) c room budget steps = buyMoney c room budget steps) ∧
    ∀ minutes permit, buy (.visitor minutes permit) c room budget steps =
      (min room budget, budget - min room budget, if budget < room then some 0 else none)) ∧
  (∀ (tar : Tariff) (w : Walk) (c : WalkContext) (first : Span) (wanted : ZoneMinute), reverseWanted w c = some wanted →
    let st := c.link.start
    let stage := placeStage tar w c first
    let onGrid := fun (q : Span) (z : ZoneMinute) =>
      let from_ := max st q.start
      (z ≤ st → stage = .done (.refused .badField none c.raised)) ∧
      (st < z → (z - from_) % q.header.minuteStep = 0 → stage = beginReverse w.pass c first z) ∧
      (st < z → (z - from_) % q.header.minuteStep ≠ 0 → conditionRaised w.pass .round c (fun c => beginReverse w.pass c first
        (min (z + (q.header.minuteStep - (z - from_) % q.header.minuteStep)) q.stop)) stage)
    (wanted ≤ st → stage = .done (.refused .badField none c.raised)) ∧
    (st < wanted → tar.spanAt (wanted - 1) = none → stage = .done (.refused .noPlan none c.raised)) ∧
    (∀ sp, st < wanted → tar.spanAt (wanted - 1) = some sp → isCharged sp = true → onGrid sp wanted) ∧
    ∀ sp back, uncharged tar st (sp :: back) wanted →
      let z := ((sp :: back).getLast?.map Span.start).getD wanted
      (z ≤ st → stage = .done (.refused .badField none c.raised)) ∧
      (st < z → tar.spanAt (z - 1) = none → stage = .done (.refused .noPlan none c.raised)) ∧
      ∀ q, st < z → tar.spanAt (z - 1) = some q → isCharged q = true → onGrid q q.stop) ∧
  (∀ (pass : CondSet) (c : WalkContext) (first : Span) (wanted : ZoneMinute), beginReverse pass c first wanted =
    reverseSpan pass c { first := first, point := c.link.start, entered := 0, chargedMet := false, cost := 0, lastChargedEnd := none
                         wanted := wanted } first c.link.start (preloadOf c.link first)) ∧
  (∀ (pass : CondSet) (c : WalkContext) (t : ReverseTrail) (sp : Span) (point count : Nat),
    let stage := reverseSpan pass c t sp point count
    (sp.kind = .free → stage = if t.wanted ≤ sp.stop then .price c t.first t.cost t.wanted
      else .reverse c { t with point := sp.stop, entered := t.entered + 1 }) ∧
    ∀ steps maximumStay, sp.kind = .charged steps maximumStay →
      let room := min (sp.stop - point) (maximumStay - count)
      (t.wanted - point ≤ room → stage =
        .price c t.first (t.cost + ladderCost count (t.wanted - point) steps) t.wanted) ∧
      (room < t.wanted - point → point + room = sp.stop → stage = .reverse c { t with
        point := sp.stop, entered := t.entered + 1, chargedMet := true, cost := t.cost + ladderCost count room steps
        lastChargedEnd := some sp.stop }) ∧
      (room < t.wanted - point → point + room ≠ sp.stop → conditionRaised pass .cap c (fun c =>
        let kept := room - room % sp.header.minuteStep
        if point + kept ≤ c.link.start then .done (.refused .badField none c.raised)
        else .price c t.first (t.cost + ladderCost count kept steps) (point + kept)) stage)) ∧
  (∀ (tar : Tariff) (w : Walk) (c : WalkContext) (t : ReverseTrail),
    let movedBack := fun c : WalkContext =>
      match t.lastChargedEnd with
      | some e => if c.link.start < e then Stage.price c t.first t.cost e else .done (.refused .badField none c.raised)
      | none => .done (.refused .badField none c.raised)
    (16 ≤ t.entered ∨ 65535 < t.point / 1440 → conditionRaised w.pass .long c movedBack (reverseStage tar w c t)) ∧
    (t.entered < 16 → t.point / 1440 ≤ 65535 →
      entersNext tar w.pass t.first.byStaged t.chargedMet t.point c movedBack
        (fun c sp => reverseSpan w.pass c t sp t.point 0) (reverseStage tar w c t))) ∧
  ∀ (c : WalkContext) (first : Span) (cost : Nat) (wanted : ZoneMinute), 0 < first.header.coinUnit →
    let unit := first.header.coinUnit
    ∃ price, price % unit = 0 ∧
      (∀ k, price ≤ k * unit ↔ cost ≤ 60 * (k * unit) ∧ first.header.minimumCharge ≤ k * unit ∧ unit ≤ k * unit) ∧
      (50000 < price → priceStage c first cost wanted = .done (.refused .badField none c.raised)) ∧
      (price ≤ 50000 → priceStage c first cost wanted =
        .checks { c with conds := 0, priced := some { wanted := wanted, price := price, conds := c.conds } })

/-- Rounding to the minute step (section 3.11): FLOOR the largest multiple not above, CEIL the smallest not below, HALF_UP and
HALF_EVEN the nearest, where halfway the greater, and the one that is an even number of steps. A walk that stopped inside a CHARGED
instance, for want of budget or by CAP, is rounded from its buying point, with the leftover as the fraction of a minute at the rate it did
not cover; a value rounded up is clamped to the instance's end, to the maximum stay and to the allowance minutes left; where it is not
what was bought, ROUND is raised. Any other stop is not rounded. -/
def Obligations.RoundingModes : Prop :=
  (∀ (step num den : Nat), 0 < step → 0 < den →
    let value := fun mode : Rounding => roundTo mode step num den
    (∀ mode, ∃ j, value mode = j * step) ∧
    (value .floor * den ≤ num ∧ num < (value .floor + step) * den) ∧
    (num ≤ value .ceil * den ∧ value .ceil * den < num + step * den) ∧
    (2 * num < 2 * value .halfUp * den + step * den ∧ 2 * value .halfUp * den ≤ 2 * num + step * den) ∧
    (2 * num ≤ 2 * value .halfEven * den + step * den ∧ 2 * value .halfEven * den ≤ 2 * num + step * den) ∧
    ((2 * num = 2 * value .halfEven * den + step * den ∨ 2 * value .halfEven * den = 2 * num + step * den) →
      (value .halfEven / step) % 2 = 0)) ∧
  ∀ (w : Walk) (c : WalkContext) (t : Trail) (why : StopKind),
    let p := effectivePayment w c
    let visitor := ∃ wanted permit, p = .visitor wanted permit
    let finished := fun (minutes : Nat) (expiry : ZoneMinute) (c : WalkContext) (stage : Stage) =>
      ∃ r, stage = .done (.result r) ∧ resultFits w t why minutes expiry c r
    (why ≠ .cap → (∀ rate, why ≠ .want rate) → finished t.inSpan t.point c (finishStage w c t why)) ∧
    ∀ num den steps maximumStay, t.span.kind = .charged steps maximumStay →
      ((∃ rate, why = .want rate ∧ 0 < rate ∧ ¬ visitor ∧ num = t.inSpan * rate + t.budget ∧ den = rate) ∨
        (((∃ rate, why = .want rate ∧ (rate = 0 ∨ visitor)) ∨ why = .cap) ∧ num = t.inSpan ∧ den = 1)) →
      let value := roundTo t.span.header.rounding t.span.header.minuteStep num den
      ∃ v, (value * den ≤ num → v = value) ∧
        (num < value * den → v ≤ value ∧ v ≤ t.span.stop - t.buyingPoint ∧ v ≤ maximumStay - t.entryCount ∧
          (visitor → v ≤ t.inSpan + t.budget) ∧
          (v = value ∨ v = t.span.stop - t.buyingPoint ∨ v = maximumStay - t.entryCount ∨
            (visitor ∧ v = t.inSpan + t.budget))) ∧
        (v * den = num → finished v (t.buyingPoint + v) c (finishStage w c t why)) ∧
        (v * den ≠ num →
          (Cond.round.isIn w.pass = true →
            finished v (t.buyingPoint + v) (withCondition c .round) (finishStage w c t why)) ∧
          (Cond.round.isIn w.pass = false →
            finishStage w c t why = .done (.refused .held (some .round) (withCondition c .round).raised)))

/-- The record a walk links to and a cover query by mark answers from (sections 3.7, 7.4): a candidate of the mark and plan, with
no other candidate of a later expiry, nor of equal expiry and a higher serial; none only where there is no candidate. Stage (a): a
NORMAL walk of a mark is linked to the chosen record while that has not expired, its start the record's expiry; otherwise RETURN is
raised within the no-return time of it. The start instance's count is the record's minutes where it is the instance in which the
record ended, cut to the maximum stay. Stage (b): NOSALE at the start refuses whatever the PASS set; an amount below the minimum charge
raises SHORT. Stage (c): money buys 60 sixtieths a penny; visitor minutes are stepped up and held against the allowance, where THIN
is raised. That a refusal leaves the permit brought up to date (log entry 25), that a visitor walk in mode TEST is refused BAD_FIELD
here (log entry 23), and that the forward walk of a PRICE makes its checks and its preload anew at the start span then found (log entry
29) are the model's. -/
def Obligations.ChosenSessionIsLatest : Prop :=
  (∀ (log : List Session) (plan : Fin 8) (m : Mark),
    let candidate := fun r : Session => r ∈ log ∧ r.kind ≠ .test ∧ r.mark = some m ∧ r.plan = plan
    (chosenSession log plan m = none ↔ ∀ r, ¬ candidate r) ∧
    ∀ r, chosenSession log plan m = some r →
      candidate r ∧ ∀ q, candidate q → q.expiry < r.expiry ∨ (q.expiry = r.expiry ∧ q.serial ≤ r.serial)) ∧
  (∀ (tar : Tariff) (log : List Session) (w : Walk),
    let unlinked : WalkContext := { link := { start := w.time, serial := none, preload := none }, conds := 0, priced := none }
    let stage := linkStage tar log w
    (w.mode = .test ∨ w.request.mark = none → stage = .checks unlinked) ∧
    ∀ m, w.mode = .normal → w.request.mark = some m →
      (chosenSession log w.plan m = none → stage = .checks unlinked) ∧
      ∀ r, chosenSession log w.plan m = some r →
        (w.time < r.expiry → stage = .checks {
          link := { start := r.expiry, serial := some r.serial, preload := some (r.finalStart, r.finalMinutes) }
          conds := 0, priced := none }) ∧
        (r.expiry ≤ w.time →
          (tar.spanAt w.time = none → stage = .done (.refused .noPlan none 0)) ∧
          ∀ sp, tar.spanAt w.time = some sp →
            (0 < sp.header.noReturn → w.time < r.expiry + sp.header.noReturn →
              conditionRaised w.pass .return_ unlinked .checks stage) ∧
            (sp.header.noReturn = 0 ∨ r.expiry + sp.header.noReturn ≤ w.time → stage = .checks unlinked))) ∧
  (∀ (l : Link) (sp : Span) (steps : List LadderStep) (maximumStay : Nat), sp.kind = .charged steps maximumStay →
    (l.preload = none → preloadOf l sp = 0) ∧
    ∀ start minutes, l.preload = some (start, minutes) →
      preloadOf l sp = if start = sp.start then min minutes maximumStay else 0) ∧
  (∀ (tar : Tariff) (w : Walk) (c : WalkContext),
    let stage := checksStage tar w c
    (tar.spanAt c.link.start = none → stage = .done (.refused .noPlan none c.raised)) ∧
    ∀ sp, tar.spanAt c.link.start = some sp →
      (sp.kind = .noSale → stage = .done (.refused .held (some .noSale) (withCondition c .noSale).raised)) ∧
      (sp.kind ≠ .noSale → (reverseWanted w c).isSome = true → stage = .place c sp) ∧
      (sp.kind ≠ .noSale → reverseWanted w c = none →
        let short := ∃ a, (effectivePayment w c = .cash a ∨ effectivePayment w c = .card a) ∧ a < sp.header.minimumCharge
        (short → conditionRaised w.pass .short c (fun c => .budget c sp) stage) ∧ (¬ short → stage = .budget c sp))) ∧
  ∀ (s : State) (w : Walk) (c : WalkContext) (first : Span), w.stage = .budget c first →
    let begins := fun (c : WalkContext) (budget : Nat) => workSpan w.pass (effectivePayment w c) c
      { startByStaged := first.byStaged, point := c.link.start, entered := 0, chargedMet := false, budget := budget, bought := 0
        usedStaged := false, span := first, buyingPoint := c.link.start, entryCount := preloadOf c.link first, inSpan := 0 }
      first c.link.start (preloadOf c.link first)
    (∀ a, effectivePayment w c = .cash a ∨ effectivePayment w c = .card a → stageOf s w = (s, begins c (60 * a))) ∧
    ∀ minutes permit, effectivePayment w c = .visitor minutes permit →
      let step := first.header.minuteStep
      let wanted := (minutes + (step - 1)) / step * step
      let read := { s with permits := refreshIn s.permits permit (today s) }
      let refused := fun st : Status => stageOf s w = (read, .done (.refused st none c.raised))
      (w.mode = .test → stageOf s w = (s, .done (.refused .badField none c.raised))) ∧
      (w.mode = .normal →
        (lookup Permit.number permit s.permits = none → refused .noPermit) ∧
        ∀ q, lookup Permit.number permit read.permits = some q →
          ((∀ b, q.kind ≠ .visitorBook b) ∨ q.covers w.plan (w.time / 1440) = false → refused .permitInvalid) ∧
          ∀ b, q.kind = .visitorBook b → q.covers w.plan (w.time / 1440) = true →
            let allowance := workedAllowance q (today s) (w.time / 1440)
            let figure := allowance / step * step
            (stageOf s w).1 = read ∧
            (wanted ≤ allowance → (stageOf s w).2 = begins c wanted) ∧
            (allowance < wanted → figure = 0 →
              (stageOf s w).2 = .done (.refused .thin none (withCondition c .thin).raised)) ∧
            (allowance < wanted → 0 < figure →
              conditionRaised w.pass .thin c (fun c => begins c figure) (stageOf s w).2))

/-! ## Terminal controller -/

/-- A valid frame on a free line, answered at once (sections 4.2, 4.4): HELLO with OK, for an ACTIVE and an UNCONFIGURED terminal
alike; a frame of no request kind with BAD_FIELD; any other request in range from an UNCONFIGURED terminal with
NOT_CONFIGURED. Nothing changes but the last-heard time and LINE_SILENT, with what follows from its clear. The envelope that a reply
carries is formed of the state held at that moment: the reading and the clock's state, the terminal's service state, mode and addressed
notices, and the kinds whose records are ACKNOWLEDGED. -/
def Obligations.FramesAnsweredAtOnce : Prop :=
  ∀ (n : Line) (s : State),
    let e := envelopeOf s n
    (e.time = now s ∧ e.clock = s.clock.state ∧ e.service = serviceState s n ∧ e.mode = (row s.table n).mode ∧
      e.addressed = (row s.table n).addressed ∧
      ∀ k : TermFault, e.acknowledged.getLsbD k.index.val = true ↔ (terminalRecord s.faults n k).state = .acknowledged) ∧
    (lineFree s n →
    let answered := fun (c : Instr) (st : Status) =>
      ∃ t, exec c s = .next t ∧ onlyChanges [.lines, .table, .faults, .notices] s t ∧ frameHeard s t n ∧
        answeredOn s t n st .empty
    answered (.hello n) .ok ∧ answered (.unknownRequestKind n) .badField ∧
      ∀ c : Instr, c.origin = .line n → requestInRange c = true → (row s.table n).active = false →
        answered c .notConfigured)

/-- Every valid frame on a PENDING line is answered BUSY, to return to PENDING; the pending request and a held answer stand
(section 4.2). -/
def Obligations.SecondFrameIsBusy : Prop :=
  ∀ (c : Instr) (n : Line) (s : State), running s = true → c.origin = .line n → isRequest c = true →
    (row s.lines n).state = .pending →
      ∃ t, exec c s = .next t ∧ onlyChanges [.lines, .table, .faults, .notices] s t ∧ frameHeard s t n ∧
        row t.lines n = { row s.lines n with
          frame := none
          state := .replying { answer := { status := .busy, body := .empty }, envelope := envelopeOf t n } true false } ∧
        sameBut n s.lines t.lines

/-- FRAME_DISCARD and RECEIVE_TIMEOUT while the unit is not REPLYING, and COLLISION while it is (section 4.2): the frame is dropped,
the hour's count rises by one and stops at 65,535, LINE_NOISY is raised when it reaches 16, an IDLE or RECEIVING unit is
IDLE, and a PENDING one stays or sends its held answer. While the unit is REPLYING the first COLLISION or FRAME_DISCARD in a reply
counts, and a further one in the same reply counts nothing. That the two discard events count where no frame is held, that
FRAME_DISCARD while REPLYING is a collision, and that RECEIVE_TIMEOUT while REPLYING does nothing are the model's choice (log
entry 14). -/
def Obligations.DiscardsAreCounted : Prop :=
  ∀ (n : Line) (s : State), running s = true →
    let u := row s.lines n
    let count := min 65535 ((row s.table n).discards + 1)
    let counted := fun t : State =>
      onlyChanges [.lines, .table, .faults, .notices] s t ∧ row t.table n = { row s.table n with discards := count } ∧
        sameBut n s.table t.table ∧ t.faults.zone = s.faults.zone ∧ t.faults.grace = s.faults.grace ∧
        (terminalRecord t.faults n .lineNoisy = if count = 16
          then (terminalRecord s.faults n .lineNoisy).raised (now s) (some 16) else terminalRecord s.faults n .lineNoisy) ∧
        latchedWhere .faultOpened (count = 16 ∧ (terminalRecord s.faults n .lineNoisy).state ≠ .opened) s t ∧
        ∀ m k, (m ≠ n ∨ k ≠ .lineNoisy) → terminalRecord t.faults m k = terminalRecord s.faults m k
    (∀ c, c = .frameDiscard n ∨ c = .receiveTimeout n →
      (u.state = .idle ∨ u.state = .receiving →
        ∃ t, exec c s = .next t ∧ counted t ∧ row t.lines n = { u with state := .idle, frame := none } ∧
          sameBut n s.lines t.lines) ∧
      (u.state = .pending → u.held = none →
        ∃ t, exec c s = .next t ∧ counted t ∧ row t.lines n = { u with frame := none } ∧ sameBut n s.lines t.lines) ∧
      (∀ a, u.state = .pending → u.held = some a →
        ∃ t, exec c s = .next t ∧ counted t ∧ answeredOn s t n a.status a.body)) ∧
    (∀ r back, u.state = .replying r back false → ∀ c, c = .collision n ∨ c = .frameDiscard n →
      ∃ t, exec c s = .next t ∧ counted t ∧ row t.lines n = { u with state := .replying r back true, frame := none } ∧
        sameBut n s.lines t.lines) ∧
    (∀ r back, u.state = .replying r back true → exec (.collision n) s = .next s ∧ exec (.frameDiscard n) s = .next s) ∧
    (∀ r back hit, u.state = .replying r back hit → exec (.receiveTimeout n) s = .next s)

/-- REPLY_END (section 4.2): the unit takes its return state, IDLE or PENDING; back in PENDING with a held answer it sends that
answer, which is then no longer pending. Where nothing is transmitted nothing happens. LDIR of a line is high exactly while its unit
is REPLYING. -/
def Obligations.ReplyEnd : Prop :=
  ∀ (n : Line) (s : State), (ldir s n = true ↔ ∃ r back hit, (row s.lines n).state = .replying r back hit) ∧ (running s = true →
    let u := row s.lines n
    (∀ r hit, u.state = .replying r false hit →
      exec (.replyEnd n) s = .next { s with lines := put s.lines n { u with state := .idle, frame := none } }) ∧
    (∀ r hit, u.state = .replying r true hit → u.held = none →
      exec (.replyEnd n) s = .next { s with lines := put s.lines n { u with state := .pending, frame := none } }) ∧
    (∀ r hit a, u.state = .replying r true hit → u.held = some a →
      ∃ t, exec (.replyEnd n) s = .next t ∧ onlyChanges [.lines] s t ∧ answeredOn s t n a.status a.body) ∧
    ((∀ r back hit, u.state ≠ .replying r back hit) → exec (.replyEnd n) s = .next s))

/-- CONFIGURE_TERMINAL (section 4.3): a field out of range is refused BAD_FIELD, a plan absent from the ACTIVE book or from an ARMED
one NO_PLAN; otherwise the entry is ACTIVE with what was given and NORMAL, its other fields kept; the box is judged against
the capacity (section 8.3): an ABSENT one raises BOX_ABSENT as its mark turns ON, and of a PRESENT one BOX_NEAR_FULL and BOX_FULL
are raised, with the coin total, or cleared, as their marks turn; the terminal's transaction is disturbed; and the grace of the plans
concerned is re-evaluated (section 9.7). That a withdrawn request is answered last, with the envelope of the state the command leaves,
is the model's choice (log entry 33). -/
def Obligations.ConfigureTerminal : Prop :=
  ∀ (tag : Tag) (f : TerminalFields) (s : State), officeTakes s →
    (readTerminal f = none →
      exec (.configureTerminal tag f) s = .next (answering s .office tag .badField .empty)) ∧
    ∀ n p c, readTerminal f = some (n, p, c) →
      let e := row s.table n
      let box := tallyOf s n
      let armed := decide (s.books.stagedState = .armed)
      let record := fun (t : State) (k : TermFault) => terminalRecord t.faults n k
      let coins := total box.counts
      let near := f.capacity * 9 / 10 ≤ coins
      let full := f.capacity ≤ coins
      let absent := s.books.activeState = .empty ∨ row s.books.activeBook.plans p = none ∨
        (s.books.stagedState = .armed ∧ row s.books.stagedBook.plans p = none)
      (absent → exec (.configureTerminal tag f) s = .next (answering s .office tag .noPlan .empty)) ∧
      (¬ absent → ∃ t, exec (.configureTerminal tag f) s = .next (answering t .office tag .ok .empty) ∧
        onlyChanges [.table, .cash, .faults, .notices, .quotes, .engine, .lines] s t ∧
        row t.table n = { e with
          active := true, plan := p, takesCoins := f.takesCoins, takesCards := f.takesCards, asksMark := f.asksMark
          pass := c, mode := .normal, lastHeard := now s
          addressed := if armed then e.addressed ||| 1#8 else e.addressed } ∧
        sameBut n s.table t.table ∧ disturbed n false s t ∧ withdrawnAnswered s t n .stale ∧
        t.cash = { s.cash with tallies := put s.cash.tallies n { box with
          capacity := f.capacity
          absentMark := box.absentMark || !box.present
          nearMark := if box.present then decide near else box.nearMark
          fullMark := if box.present then decide full else box.fullMark } } ∧
        record t .boxAbsent = (if box.present = false ∧ box.absentMark = false then (record s .boxAbsent).raised (now s) none
          else record s .boxAbsent) ∧
        record t .boxNearFull = (if box.present = true ∧ near ∧ box.nearMark = false then
            (record s .boxNearFull).raised (now s) (some coins)
          else if box.present = true ∧ ¬ near ∧ box.nearMark = true then clearedNow s (record s .boxNearFull)
          else record s .boxNearFull) ∧
        record t .boxFull = (if box.present = true ∧ full ∧ box.fullMark = false then
            (record s .boxFull).raised (now s) (some coins)
          else if box.present = true ∧ ¬ full ∧ box.fullMark = true then clearedNow s (record s .boxFull)
          else record s .boxFull) ∧
        recordsKeptBut (fun m k => m = n ∧ (k = .boxAbsent ∨ k = .boxNearFull ∨ k = .boxFull)) s t ∧
        t.faults.zone = s.faults.zone ∧
        latchedWhere .faultOpened (opensMark Tally.absentMark .boxAbsent n s t ∨ opensMark Tally.nearMark .boxNearFull n s t ∨
          opensMark Tally.fullMark .boxFull n s t) s t ∧
        latchedWhere .faultCleared (clearsMark Tally.nearMark .boxNearFull n s t ∨ clearsMark Tally.fullMark .boxFull n s t) s t ∧
        (graceKept s → graceFollows s t) ∧
        ∀ q, q = p ∨ (e.active = true ∧ q = e.plan) →
          ((∃ since, row t.faults.grace q = .active since) ↔ unserved t q = true))

/-- RETIRE_TERMINAL (section 4.3): a number out of range BAD_FIELD, an UNCONFIGURED entry ALREADY, a PRESENT box with coins IN_USE;
otherwise the entry is UNCONFIGURED and NORMAL without BOOK_CHANGE, its transaction is disturbed, the box is kept, and the
grace of its plan is re-evaluated. That a withdrawn request is answered last, with the envelope of the state the command leaves, is the
model's choice (log entry 33). -/
def Obligations.RetireTerminal : Prop :=
  ∀ (tag : Tag) (terminal : Nat) (s : State), officeTakes s →
    (terminalOf terminal = none →
      exec (.retireTerminal tag terminal) s = .next (answering s .office tag .badField .empty)) ∧
    ∀ n, terminalOf terminal = some n →
      let e := row s.table n
      let coins := (tallyOf s n).present = true ∧ 0 < total (tallyOf s n).counts
      (e.active = false → exec (.retireTerminal tag terminal) s = .next (answering s .office tag .already .empty)) ∧
      (e.active = true → coins → exec (.retireTerminal tag terminal) s = .next (answering s .office tag .inUse .empty)) ∧
      (e.active = true → ¬ coins → ∃ t, exec (.retireTerminal tag terminal) s = .next (answering t .office tag .ok .empty) ∧
        onlyChanges [.table, .faults, .notices, .quotes, .engine, .lines] s t ∧
        row t.table n = { e with active := false, mode := .normal, addressed := e.addressed &&& ~~~(1#8) } ∧
        sameBut n s.table t.table ∧ disturbed n false s t ∧ withdrawnAnswered s t n .notConfigured ∧
        t.faults.terminals = s.faults.terminals ∧ t.faults.zone = s.faults.zone ∧
        ((∃ since, row t.faults.grace e.plan = .active since) ↔ unserved t e.plan = true) ∧ (graceKept s → graceFollows s t) ∧
        ∀ q, q ≠ e.plan → row t.faults.grace q = row s.faults.grace q)

/-- SET_CONDITIONS and CLEAR_CONDITIONS (section 4.3): the first replaces the PASS set of an ACTIVE terminal and returns its sticky
set; the second returns and empties the sticky set of the terminal named, or of all sixteen, which it returns in rising order of terminal,
an order that is the model's choice (log entry 10). -/
def Obligations.Conditions : Prop :=
  ∀ (tag : Tag) (terminal : Nat) (set : BitVec 16) (s : State), officeTakes s →
    let setting := exec (.setConditions tag terminal set) s
    let clearing := exec (.clearConditions tag terminal) s
    ((terminal < 1 ∨ 16 < terminal ∨ 512 ≤ set.toNat) → setting = .next (answering s .office tag .badField .empty)) ∧
    (16 < terminal → clearing = .next (answering s .office tag .badField .empty)) ∧
    (terminal = 0 → clearing = .next (answering
      { s with table := Vector.ofFn fun n => { row s.table n with sticky := 0 } } .office tag .ok
      (.conditionSets ((List.finRange 16).map fun n => (n, (row s.table n).sticky))))) ∧
    ∀ n : Line, terminal = n.number →
      let e := row s.table n
      (set.toNat < 512 → e.active = false → setting = .next (answering s .office tag .notConfigured .empty)) ∧
      (set.toNat < 512 → e.active = true → setting = .next (answering
        { s with table := put s.table n { e with pass := set.setWidth 9 } } .office tag .ok (.conditions e.sticky))) ∧
      clearing = .next (answering
        { s with table := put s.table n { e with sticky := 0 } } .office tag .ok (.conditionSets [(n, e.sticky)]))

/-- LINE_RESET, from the office or an engineer (section 4.7): the line unit is IDLE and holds nothing, the terminal's transaction is
disturbed and its walk orphaned, unanswered, and a test ends; every other line and the rest of the entry stay. -/
def Obligations.LineReset : Prop :=
  ∀ (source : Source) (tag : Tag) (terminal : Nat) (s : State), sourceTakes s source .engineer →
    (terminalOf terminal = none →
      exec (.lineReset source tag terminal) s = .next (answering s source.port tag .badField .empty)) ∧
    ∀ n, terminalOf terminal = some n →
      ∃ t, exec (.lineReset source tag terminal) s = .next (answering t source.port tag .ok .empty) ∧
        onlyChanges [.lines, .table, .quotes, .engine] s t ∧ row t.lines n = LineUnit.cold ∧ sameBut n s.lines t.lines ∧
        row t.table n = { row s.table n with mode := .normal } ∧ sameBut n s.table t.table ∧ disturbed n true s t

/-- TEST_LINE, END_TEST and TEST_LIMIT (section 4.6): an ACTIVE terminal in NORMAL enters TEST with test start now; an ACTIVE one in
TEST returns to NORMAL by END_TEST, and by the limit where thirty minutes have passed; each change disturbs the
transaction. A terminal number out of range is refused BAD_FIELD. That TEST_LIMIT may be taken by itself, between boundaries, is
the model's choice (log entry 1), and so is that a withdrawn request is answered after the change (log entry 33). -/
def Obligations.TestMode : Prop :=
  ∀ (tag : Tag) (badge terminal : Nat) (s : State),
    let refused := fun (c : Instr) (st : Status) => exec c s = .next (answering s .service tag st .empty)
    (serviceTakes s badge .engineer → (terminal < 1 ∨ 16 < terminal) →
      refused (.testLine tag badge terminal) .badField ∧ refused (.endTest tag badge terminal) .badField) ∧
    ∀ n : Line, terminal = n.number →
    let e := row s.table n
    let changed := fun (t : State) (e' : Entry) =>
      onlyChanges [.table, .quotes, .engine, .lines] s t ∧ row t.table n = e' ∧ sameBut n s.table t.table ∧
        disturbed n false s t ∧ withdrawnAnswered s t n (if e.active then .stale else .notConfigured)
    (serviceTakes s badge .engineer →
      (e.active = false → refused (.testLine tag badge terminal) .notConfigured) ∧
      (e.active = true → e.mode = .test → refused (.testLine tag badge terminal) .already) ∧
      (e.active = true → e.mode = .normal →
        ∃ t, exec (.testLine tag badge terminal) s = .next (answering t .service tag .ok .empty) ∧
          changed t { e with mode := .test, testStart := now s }) ∧
      ((e.active = false ∨ e.mode = .normal) → refused (.endTest tag badge terminal) .already) ∧
      (e.active = true → e.mode = .test →
        ∃ t, exec (.endTest tag badge terminal) s = .next (answering t .service tag .ok .empty) ∧
          changed t { e with mode := .normal })) ∧
    (running s = true → s.clock.state = .set →
      (e.mode = .test → e.testStart + 30 ≤ now s →
        ∃ t, exec (.testLimit n) s = .next t ∧ changed t { e with mode := .normal }) ∧
      ((e.mode = .normal ∨ now s < e.testStart + 30) → exec (.testLimit n) s = .next s))

/-! ## Sale unit -/

/-- A SALE that passes every check is committed (sections 5.2, 5.3, 5.4): one record joins the log, after an expired one of lowest
serial has left a full log; serial and ticket sequence pass on; the coins reach the box or the minutes leave the
allowance; the sale is added to the terminal's totals for today (section 5.7); the open quote is cleared and the terminal is answered
SOLD. With it go the comparisons that follow: LOG_PRESSURE is raised, its mark ON, as the log reaches 3,840 records, and cleared at
3,072 or fewer (section 5.5); BOX_NEAR_FULL and BOX_FULL are raised, with the coin total, as their marks turn ON (section 8.3);
PERMIT_EXHAUSTED is latched as an allowance comes to 0 (section 6.6). Nothing else of the fault unit changes but LINE_SILENT, which
the frame has cleared, and grace, which follows (section 9.7); each raise of a record not OPEN latches FAULT_OPENED, and each
clear of a standing one FAULT_CLEARED (section 9.2). That LOG_PRESSURE's raise count is 1 in every episode, as section 9.2 says and
section 5.5 does not, is the model's choice (log entry 34). -/
def Obligations.SaleCommits : Prop :=
  ∀ (n : Line) (f : SaleFields) (m : SaleMoney) (q : OpenQuote) (serial : Nat) (s : State),
    lineTakes s n → readSale f = some (q.number, m) → s.clock.state = .set → row s.quotes n = some q →
    freshFor s q m.kind → paymentAgrees s q m → serviceAllows (serviceState (heard n s) n) m.kind →
    s.sales.nextSerial = some serial → (s.sales.log.length < 4096 ∨ ∃ r ∈ s.sales.log, r.expiry ≤ now s) →
      let r := q.result
      let ticket : Ticket := { zone := s.ports.zoneId.toNat, terminal := n.val + 1, sequence := row s.sales.sequences n }
      ∃ t sold, exec (.sale n f) s = .next t ∧
        onlyChanges [.lines, .table, .faults, .notices, .sales, .quotes, .cash, .permits] s t ∧
        sold.serial = serial ∧ sold.ticket = ticket ∧ sold.plan = r.plan ∧ sold.issue = r.walkTime ∧ sold.sold = now s ∧
        sold.start = r.start ∧ sold.expiry = r.expiry ∧ sold.price = r.terms.price ∧ sold.mark = r.mark ∧
        sold.linked = r.linked ∧ sold.finalStart = r.finalStart ∧ sold.finalMinutes = r.finalMinutes ∧
        sold.conds = r.conds ∧ sold.generation = r.generation ∧ sold.usedStaged = r.usedStaged ∧
        sold.kind = (match r.mode, m with
          | .test, _ => .test
          | .normal, .cash _ => .paidCash
          | .normal, .card _ => .paidCard
          | .normal, .visitor => .visitor) ∧
        (s.sales.log.length < 4096 → t.sales.log = s.sales.log ++ [sold]) ∧
        (¬ s.sales.log.length < 4096 → Rising Session.serial s.sales.log →
          ∃ old ∈ s.sales.log, old.expiry ≤ now s ∧ (∀ x ∈ s.sales.log, x.expiry ≤ now s → old.serial ≤ x.serial) ∧
            t.sales.log = s.sales.log.filter (fun x => decide (x.serial ≠ old.serial)) ++ [sold]) ∧
        t.sales.nextSerial = (if serial = 4294967295 then none else some (serial + 1)) ∧
        t.sales.sequences = put s.sales.sequences n
          (if row s.sales.sequences n = 999999 then 1 else row s.sales.sequences n + 1) ∧
        sameBut n s.sales.totals t.sales.totals ∧
        recordBecomes (today s) (saleAdded r.mode m s.cash.coins r.terms) (row s.sales.totals n) (row t.sales.totals n) ∧
        t.sales.pressure = (decide (3840 ≤ t.sales.log.length) || (s.sales.pressure && decide (3072 < t.sales.log.length))) ∧
        row t.faults.zone 3 = (if s.sales.pressure = false ∧ 3840 ≤ t.sales.log.length then (row s.faults.zone 3).raised (now s) none
          else if s.sales.pressure = true ∧ t.sales.log.length ≤ 3072 then clearedNow s (row s.faults.zone 3)
          else row s.faults.zone 3) ∧
        (∀ k, k ≠ 3 → row t.faults.zone k = row s.faults.zone k) ∧
        row t.table n = { row s.table n with lastHeard := now s } ∧ sameBut n s.table t.table ∧
        (terminalRecord t.faults n .lineSilent).state = .clear ∧
        recordsKeptBut (fun j k => j = n ∧ (k = .lineSilent ∨ k = .boxNearFull ∨ k = .boxFull)) s t ∧
        latchedWhere .faultOpened
          ((s.sales.pressure = false ∧ 3840 ≤ t.sales.log.length ∧ (row s.faults.zone 3).state ≠ .opened) ∨
            opensMark Tally.nearMark .boxNearFull n s t ∨ opensMark Tally.fullMark .boxFull n s t) s t ∧
        latchedWhere .faultCleared (stands s n .lineSilent ∨
          (s.sales.pressure = true ∧ t.sales.log.length ≤ 3072 ∧ (row s.faults.zone 3).state ≠ .clear)) s t ∧
        (graceKept s → graceFollows s t) ∧
        t.quotes = put s.quotes n none ∧
        answeredOn s t n .ok (.sold serial ticket r.start r.expiry r.terms.price sold.overpaid
          (match r.terms with
            | .visitor _ granted => some granted
            | .money _ _ _ => none)) ∧
        (∀ counts, m = .cash counts →
          let old := tallyOf s n
          let new := tallyOf t n
          let near := old.capacity * 9 / 10 ≤ total new.counts
          let full := old.capacity ≤ total new.counts
          sold.payment = .cash counts ∧ sold.overpaid = valueOf s.cash.coins counts - r.terms.price ∧ t.permits = s.permits ∧
            notLatched .permitExhausted s t ∧
            (∀ i, row new.counts i = row old.counts i + row counts i) ∧
            new = { old with
              counts := new.counts, nearMark := old.nearMark || decide near, fullMark := old.fullMark || decide full } ∧
            terminalRecord t.faults n .boxNearFull = (if old.nearMark = false ∧ near then
              (terminalRecord s.faults n .boxNearFull).raised (now s) (some (total new.counts))
              else terminalRecord s.faults n .boxNearFull) ∧
            terminalRecord t.faults n .boxFull = (if old.fullMark = false ∧ full then
              (terminalRecord s.faults n .boxFull).raised (now s) (some (total new.counts))
              else terminalRecord s.faults n .boxFull) ∧
            sameBut n s.cash.tallies t.cash.tallies ∧ t.cash.lifts = s.cash.lifts ∧ t.cash.coins = s.cash.coins) ∧
        (∀ paid, m = .card paid →
          sold.payment = .card paid ∧ sold.overpaid = 0 ∧ t.permits = s.permits ∧ t.cash = s.cash ∧
            notLatched .permitExhausted s t ∧
            ∀ k, k = .boxNearFull ∨ k = .boxFull → terminalRecord t.faults n k = terminalRecord s.faults n k) ∧
        ∀ permit granted, m = .visitor → r.terms = .visitor permit granted →
          sold.payment = .visitor permit granted ∧ sold.overpaid = 0 ∧ t.cash = s.cash ∧
            (∀ k, k = .boxNearFull ∨ k = .boxFull → terminalRecord t.faults n k = terminalRecord s.faults n k) ∧
            (∀ other, other ≠ permit → lookup Permit.number other t.permits = lookup Permit.number other s.permits) ∧
            ∀ p b, lookup Permit.number permit (refreshIn s.permits permit (today s)) = some p → p.kind = .visitorBook b →
              lookup Permit.number permit t.permits =
                some { p with kind := .visitorBook { b with allowance := b.allowance - granted } } ∧
              latchedWhere .permitExhausted (0 < b.allowance ∧ b.allowance ≤ granted) s t

/-- The refusals of a SALE in their order (section 5.2): a field out of range, CLOCK_UNSET, NO_QUOTE, STALE, the payment,
the service state, LOG_FULL. STALE clears the open quote; every other refusal keeps it; nothing is sold, and no allowance is
debited: the register stays, but for a visitor SALE refused at or after the permit check, which leaves the entry brought up to date
for today (log entry 25, beside R99). -/
def Obligations.SaleRefusedInOrder : Prop :=
  ∀ (n : Line) (f : SaleFields) (s : State), lineTakes s n →
    let v := serviceState (heard n s) n
    let refusedWith := fun (st : Status) (register : List Permit) =>
      ∃ t, exec (.sale n f) s = .next t ∧ answeredOn s t n st .empty ∧
        onlyChanges [.lines, .table, .faults, .notices, .quotes, .permits] s t ∧
        t.quotes = (if st = .stale then put s.quotes n none else s.quotes) ∧ t.permits = register
    (readSale f = none → refusedWith .badField s.permits) ∧
    ∀ number m, readSale f = some (number, m) →
      (s.clock.state = .unset → refusedWith .clockUnset s.permits) ∧
      (s.clock.state = .set → (∀ q, row s.quotes n = some q → q.number ≠ number) → refusedWith .noQuote s.permits) ∧
      ∀ q, s.clock.state = .set → row s.quotes n = some q → q.number = number →
        (¬ freshFor s q m.kind → refusedWith .stale s.permits) ∧
        (freshFor s q m.kind → m ≠ .visitor → ¬ paymentAgrees s q m → refusedWith .mismatch s.permits) ∧
        (∀ permit granted, freshFor s q m.kind → m = .visitor → q.result.terms = .visitor permit granted →
          let upToDate := refreshIn s.permits permit (today s)
          (lookup Permit.number permit s.permits = none → refusedWith .noPermit upToDate) ∧
          (∀ p, lookup Permit.number permit s.permits = some p →
            ((∀ b, p.kind ≠ .visitorBook b) ∨ p.covers q.result.plan (today s) = false) →
              refusedWith .permitInvalid upToDate) ∧
          ∀ p b, lookup Permit.number permit upToDate = some p → p.kind = .visitorBook b →
            p.covers q.result.plan (today s) = true → b.allowance < granted → refusedWith .stale upToDate) ∧
        (freshFor s q m.kind → paymentAgrees s q m → ∀ register,
          (m ≠ .visitor → register = s.permits) →
          (∀ permit granted, m = .visitor → q.result.terms = .visitor permit granted →
            register = refreshIn s.permits permit (today s)) →
          (v = .outOfService → refusedWith .outOfService register) ∧
          (m.kind = .cash → v = .cashOut ∨ v = .paymentOut → refusedWith .cashOut register) ∧
          (m.kind = .card → v = .cardOut ∨ v = .paymentOut → refusedWith .cardOut register) ∧
          (serviceAllows v m.kind →
            (s.sales.nextSerial = none ∨ (4096 ≤ s.sales.log.length ∧ ∀ x ∈ s.sales.log, now s < x.expiry)) →
              refusedWith .logFull register))

/-! ## Reads -/

/-- READ_TOTALS (R113): a number out of range is refused BAD_FIELD; otherwise the reply gives the terminal's day records as they
stand, at most eight, in rising order of day, whether the terminal is ACTIVE or not, and nothing changes. -/
def Obligations.ReadTotals : Prop :=
  ∀ (tag : Tag) (terminal : Nat) (s : State), officeTakes s → totalsKept s →
    (terminal < 1 ∨ 16 < terminal → exec (.readTotals tag terminal) s = .next (answering s .office tag .badField .empty)) ∧
    ∀ n : Line, terminal = n.val + 1 →
      exec (.readTotals tag terminal) s = .next (answering s .office tag .ok (.totals (row s.sales.totals n))) ∧
        (row s.sales.totals n).length ≤ 8 ∧ (row s.sales.totals n).Pairwise fun a b => a.day < b.day

/-- The reads of the session log, the lift list, the faults, the round and the status report (sections 5.6, 8.5, 8.6, 9.5, 10.5): a
field out of range is refused BAD_FIELD; otherwise the reply gives what the section lists, and nothing changes. That the reply to
FETCH_SESSIONS carries the held count, as R105 says and section 11.4 does not, is the model's choice (log entry 28), and so are the bits
of the summary's set of zone kinds and the rising order of terminals (log entry 10). -/
def Obligations.ReadsChangeNothing : Prop :=
  ∀ (source : Source) (tag : Tag) (badge : Nat) (s : State),
    let office := fun (c : Instr) (st : Status) (b : Body) => exec c s = .next (answering s .office tag st b)
    (officeTakes s → ∀ serial position count,
      (4294967295 < serial ∨ count < 1 ∨ 8 < count → office (.fetchSessions tag serial count) .badField .empty) ∧
      (95 < position ∨ count < 1 ∨ 8 < count → office (.readLifts tag position count) .badField .empty) ∧
      (1 ≤ count → count ≤ 8 → serial ≤ 4294967295 →
        office (.fetchSessions tag serial count) .ok (.sessions
          (match s.sales.log with
            | [] => 0
            | r :: _ => r.serial)
          s.sales.nextSerial ((s.sales.log.filter fun r => decide (serial ≤ r.serial)).take count)
          s.sales.log.length)) ∧
      (1 ≤ count → count ≤ 8 → position ≤ 95 →
        office (.readLifts tag position count) .ok
          (.lifts s.cash.lifts.length s.cash.nextLift ((s.cash.lifts.drop position).take count)))) ∧
    (sourceTakes s source .engineer →
      let read := fun (scope : Nat) (st : Status) (b : Body) =>
        exec (.readFaults source tag scope) s = .next (answering s source.port tag st b)
      (∀ scope, 17 < scope → read scope .badField .empty) ∧ read 0 .ok (.zoneFaults s.faults.zone) ∧
        (∀ n : Line, read n.number .ok (.terminalFaults (row s.faults.terminals n) (serviceState s n)
          (if (row s.table n).active then some (row s.faults.grace (row s.table n).plan) else none))) ∧
        ∃ (kinds : Line → BitVec 14) (zone : BitVec 4),
          (∀ n k, (kinds n).getLsbD k.index.val = true ↔ (terminalRecord s.faults n k).state ≠ .clear) ∧
          (∀ k : Fin 4, zone.getLsbD k.val = true ↔ (row s.faults.zone k).state ≠ .clear) ∧
          read 17 .ok (.faultSummary ((List.finRange 16).map fun n => (serviceState s n, kinds n)) zone s.faults.grace)) ∧
    (serviceTakes s badge .collector →
      let read := fun b : Body => exec (.roundStatus tag badge) s = .next (answering s .service tag .ok b)
      (s.cash.round = none → read (.roundStatus none noLines [] none)) ∧
        ∀ r, s.cash.round = some r → ∃ missed : LineSet,
          (∀ n, row missed n = true ↔ row r.planned n = true ∧ row r.lifted n = false) ∧
          read (.roundStatus (some r) missed
            (((List.finRange 16).filter fun n => row r.planned n).map fun n =>
              (n, (tallyOf s n).present, (tallyOf s n).box, total (tallyOf s n).counts))
            (if r.state = .opened then some (r.openTime + s.cash.roundLimit) else none))) ∧
    (sourceTakes s source .any →
      exec (.readStatus source tag) s = .next (answering s source.port tag .ok (.status
        { zoneId := s.ports.zoneId.toNat
          reason := match s.ports.reason with
            | .cold => 0
            | .supply => 1
            | .command => 2
          time := now s, clock := s.clock.state, overrides := s.clock.overrides.length
          activeState := s.books.activeState, stagedState := s.books.stagedState, retired := s.books.retired
          generation := s.books.generation, revision := s.books.revision
          activationDay := if s.books.stagedState = .armed ∨ s.books.stagedState = .checking then s.books.activationDay else none
          check := s.books.check, logHeld := s.sales.log.length
          lowestSerial := match s.sales.log with
            | [] => 0
            | r :: _ => r.serial
          nextSerial := s.sales.nextSerial, permitsHeld := s.permits.length
          liftsHeld := s.cash.lifts.length
          liftsAwaiting := (s.cash.lifts.filter fun l => decide (l.state = .awaiting)).length
          round := s.cash.round.map fun r => (r.state, r.number)
          tolerance := s.cash.tolerance, roundLimit := s.cash.roundLimit, window := s.cover.window
          officePending := s.notices.office, sitePending := s.notices.site, badgesHeld := s.ports.badges.length })))

/-! ## Permit unit -/

/-- PUT_PERMIT, DROP_PERMIT and SET_PERMIT_STATE (sections 6.3 to 6.5), with their refusals. A put stores the fields given at the
number's place and leaves every other entry; a visitor book put over a visitor book keeps the lesser of its allowance, first
brought up to date, and the grant, and its next refresh day; any other visitor book starts at the grant. The reply says
whether an entry was replaced. -/
def Obligations.PermitCommands : Prop :=
  ∀ (tag : Tag) (s : State), officeTakes s →
    let refused := fun (c : Instr) (st : Status) => exec c s = .next (answering s .office tag st .empty)
    let done := fun (c : Instr) (l : List Permit) (b : Body) =>
      exec c s = .next (answering { s with permits := l } .office tag .ok b)
    let found := fun number => lookup Permit.number number s.permits
    let othersKept := fun (number : Nat) (l : List Permit) =>
      (∀ m, m ≠ number → lookup Permit.number m l = lookup Permit.number m s.permits) ∧
        (Rising Permit.number s.permits → Rising Permit.number l)
    (∀ f, (readPermitFields f = none ∨ f.toDay + 7 ≤ today s → refused (.putPermit tag f) .badField) ∧
      ∀ suspended shape, readPermitFields f = some (suspended, shape) → today s < f.toDay + 7 →
        (found f.number = none → 1536 ≤ s.permits.length → refused (.putPermit tag f) .full) ∧
        (found f.number ≠ none ∨ s.permits.length < 1536 → ∃ e l,
          done (.putPermit tag f) l (.permitPut e (found f.number).isSome l.length) ∧
            lookup Permit.number f.number l = some e ∧
            othersKept f.number l ∧ e.suspended = suspended ∧ e.plans = f.plans ∧ e.fromDay = f.fromDay ∧ e.toDay = f.toDay ∧
            (∀ m, shape = .resident m → e.kind = .resident m) ∧ (∀ m, shape = .business m → e.kind = .business m) ∧
            ∀ grant period, shape = .visitorBook grant period →
              (∀ old b, found f.number = some old → old.kind = .visitorBook b →
                e.kind = .visitorBook { grant := grant, allowance := min (b.refreshed (today s)).allowance grant
                                        period := period, nextRefresh := (b.refreshed (today s)).nextRefresh }) ∧
              ((∀ old b, found f.number = some old → old.kind ≠ .visitorBook b) →
                e.kind = .visitorBook { grant := grant, allowance := grant, period := period
                                        nextRefresh := f.fromDay + period }))) ∧
    ∀ number,
      ((number < 1 ∨ 9999999 < number) →
        refused (.dropPermit tag number) .badField ∧ ∀ state, refused (.setPermitState tag number state) .badField) ∧
      (∀ state, state ≠ 1 → state ≠ 2 → refused (.setPermitState tag number state) .badField) ∧
      (1 ≤ number → number ≤ 9999999 →
        (found number = none →
          refused (.dropPermit tag number) .noPermit ∧ refused (.setPermitState tag number 1) .noPermit ∧
            refused (.setPermitState tag number 2) .noPermit) ∧
        ∀ p, found number = some p →
          (∃ l, l = s.permits.filter (fun q => decide (q.number ≠ number)) ∧
            done (.dropPermit tag number) l (.heldCount l.length)) ∧
          ∀ (state : Nat) (wanted : Bool), (state = 1 ∧ wanted = false ∨ state = 2 ∧ wanted = true) →
            (p.suspended = wanted → refused (.setPermitState tag number state) .already) ∧
            (p.suspended ≠ wanted → ∃ l,
              done (.setPermitState tag number state) l (.permitEntry { p with suspended := wanted }) ∧
                lookup Permit.number number l = some { p with suspended := wanted } ∧ othersKept number l))

/-- READ_PERMIT (sections 6.4, 6.5): EXACT gives the entry of the number, NEXT the one of the lowest number above it; the entry is first
brought up to date for today, which is written. A visitor book whose refresh day has come takes its grant, and its refresh
day passes on by whole periods to the first after today. Every reply carries the held count. -/
def Obligations.ReadPermit : Prop :=
  ∀ (tag : Tag) (number selector : Nat) (s : State), officeTakes s →
    let held := s.permits.length
    let reply := fun (t : State) (st : Status) (b : Body) =>
      exec (.readPermit tag number selector) s = .next (answering t .office tag st b)
    let shown := fun p : Permit => ∃ l q, reply { s with permits := l } .ok (.permit (some q) held) ∧ l.length = held ∧
      (∀ m, m ≠ p.number → lookup Permit.number m l = lookup Permit.number m s.permits) ∧
      lookup Permit.number p.number l = some q ∧
      ((∀ b, p.kind ≠ .visitorBook b) → q = p) ∧
      ∀ b, p.kind = .visitorBook b →
        (today s < b.nextRefresh → q = p) ∧
        (b.nextRefresh ≤ today s → 0 < b.period → ∃ k, today s < b.nextRefresh + b.period * k ∧
          b.nextRefresh + b.period * k ≤ today s + b.period ∧
          q = { p with kind := .visitorBook { b with allowance := b.grant, nextRefresh := b.nextRefresh + b.period * k } })
    (9999999 < number ∨ (selector ≠ 1 ∧ selector ≠ 2) ∨ (selector = 1 ∧ number = 0) → reply s .badField (.heldCount held)) ∧
    (selector = 1 → 1 ≤ number → number ≤ 9999999 →
      ((∀ p ∈ s.permits, p.number ≠ number) → reply s .noPermit (.heldCount held)) ∧
      ∀ p, lookup Permit.number number s.permits = some p → shown p) ∧
    (selector = 2 → number ≤ 9999999 →
      ((∀ p ∈ s.permits, p.number ≤ number) → reply s .ok (.permit none held)) ∧
      ∀ p, Rising Permit.number s.permits → lowestOf (fun q => number < q.number) s.permits p → shown p)

/-! ## Cover search unit -/

/-- COVER, from the office or an officer, SEARCH_BEGIN and SET_RECENT_WINDOW (sections 7.2, 7.5): the refusals of COVER in order; its
acceptance, answered late, into its source's slot, where it waits behind a search in flight and begins at once where the unit
is free; the choice of a free unit, which takes the source not served last where both wait. A search fixes its time and the
window as it begins. While the clock is UNSET every COVER that waits is refused CLOCK_UNSET in that order. -/
def Obligations.CoverBegins : Prop :=
  ∀ (source : Source) (tag : Tag) (f : CoverFields) (window : Nat) (s : State),
    let id := source.port
    let reply := fun st : Status => exec (.cover source tag f) s = .next (answering s id tag st .empty)
    let later := { s with ports := s.ports.onPort id fun p => { p with deferred := p.deferred + 1 } }
    let begun := fun (at_ : PortId) (r : CoverRequest) (c : CoverUnit) =>
      { c.setSlot at_ (.searching r) with
        last := at_
        search := some { source := at_, plan := r.plan, key := r.key, time := now s, window := s.cover.window, stage := .begun } }
    (sourceTakes s source .officer → (readCover f = none → reply .badField) ∧
      ∀ plan key, readCover f = some (plan, key) →
        (s.clock.state = .unset → reply .clockUnset) ∧
        (s.clock.state = .set → s.cover.slot id ≠ .empty → reply .busy) ∧
        (s.clock.state = .set → s.cover.slot id = .empty →
          let r := { tag := tag, plan := plan, key := key }
          (s.cover.search ≠ none →
            exec (.cover source tag f) s = .next { later with cover := s.cover.setSlot id (.waiting r) }) ∧
          (s.cover.search = none → (∀ other q, other ≠ id → s.cover.slot other ≠ .waiting q) →
            exec (.cover source tag f) s = .next { later with cover := begun id r s.cover }))) ∧
    (running s = true →
      ((s.cover.search ≠ none ∨ ∀ at_ r, s.cover.slot at_ ≠ .waiting r) → exec .searchBegin s = .next s) ∧
      ∀ at_ r, s.cover.search = none → s.clock.state = .set → s.cover.slot at_ = .waiting r →
        (s.cover.last ≠ at_ ∨ ∀ other q, other ≠ at_ → s.cover.slot other ≠ .waiting q) →
          exec .searchBegin s = .next { s with cover := begun at_ r s.cover }) ∧
    (running s = true → s.cover.search = none → s.clock.state = .unset →
      (∀ at_ r, s.cover.slot at_ = .waiting r → (∀ other q, other ≠ at_ → s.cover.slot other ≠ .waiting q) →
        exec .searchBegin s = .next (coverRefused at_ r s)) ∧
      ∀ a b ra rb, a ≠ b → s.cover.last = b → s.cover.slot a = .waiting ra → s.cover.slot b = .waiting rb →
        exec .searchBegin s = .next (coverRefused b rb (coverRefused a ra s))) ∧
    (officeTakes s →
      (30 < window → exec (.setRecentWindow tag window) s = .next (answering s .office tag .badField .empty)) ∧
      (window ≤ 30 → exec (.setRecentWindow tag window) s =
        .next (answering { s with cover := { s.cover with window := window } } .office tag .ok
          (.window s.cover.window window))))

/-- SEARCH_COMPLETE (sections 7.2 to 7.4): the answer goes to the port the COVER came from with its tag, its slot is emptied, and a
COVER that waits in the other slot begins, or, while the clock is UNSET, is refused CLOCK_UNSET. The verdict of a search from its
beginning is what the log, the register and the grace record give at its search time, in their order, for a register in number order
and a log in serial order. Nothing else changes. -/
def Obligations.SearchCompletes : Prop :=
  ∀ (q : Search) (r : CoverRequest) (s : State), running s = true → s.cover.search = some q →
    s.cover.slot q.source = .searching r →
      ∃ v t, exec .searchComplete s = .next t ∧ onlyChanges [.cover, .ports] s t ∧
        let done := { s with
          cover := { s.cover.setSlot q.source .empty with search := none }
          ports := withAnswer { s with ports := s.ports.onPort q.source fun p => { p with deferred := p.deferred - 1 } }
            q.source r.tag .ok (.verdict q.plan q.key q.time v) }
        ((∀ other w, other ≠ q.source → s.cover.slot other ≠ .waiting w) → t = done) ∧
        (∀ other w, other ≠ q.source → s.cover.slot other = .waiting w →
          (s.clock.state = .set → t = { done with cover := { done.cover.setSlot other (.searching w) with
            last := other
            search := some { source := other, plan := w.plan, key := w.key, time := now s, window := s.cover.window
                             stage := .begun } } }) ∧
          (s.clock.state = .unset → t = coverRefused other w done)) ∧
        (q.stage = .begun → Rising Permit.number s.permits → Rising Session.serial s.sales.log →
          (∀ ticket, q.key = .ticket ticket → ticketAnswer s q.plan ticket q.time v) ∧
          ∀ m, q.key = .mark m → markAnswer s q.plan m q.time q.window v)

/-! ## Cash unit -/

/-- BOX_OUT of a PRESENT box (section 8.4): a lift record with the box, the coins and their value joins the list, after room is made
in a full one; the tally is empty and ABSENT; BOX_ABSENT, BOX_IDENTITY for a label that differs and UNROUNDED_LIFT outside a
round are raised. BOX_IN at an ABSENT tally: a label of 0, or the number of the PRESENT box of another terminal, is refused
DUPLICATE and raises BOX_IDENTITY; else the tally is PRESENT with no coins, and its three marks with their faults are cleared.
A second BOX_OUT or BOX_IN is refused ALREADY. Each raise of a record not OPEN latches FAULT_OPENED, each clear of a standing one
FAULT_CLEARED, that of LINE_SILENT by the frame among them, and grace follows (sections 9.2, 9.7). That the lift serial rises by one
also where that repeats the serial of a record still held is the model's choice (log entry 31). -/
def Obligations.BoxOutAndIn : Prop :=
  ∀ (n : Line) (label : Nat) (s : State), lineTakes s n → label ≤ 65535 →
    let y := tallyOf s n
    let out := exec (.boxOut n label) s
    let into := exec (.boxIn n label) s
    let heard : List Part := [.lines, .table, .faults, .notices]
    let open_ := ∃ r, s.cash.round = some r ∧ r.state = .opened
    let record := fun (t : State) (k : TermFault) => terminalRecord t.faults n k
    (y.present = false → ∃ t, out = .next t ∧ onlyChanges heard s t ∧ answeredOn s t n .already .empty) ∧
    (y.present = true → ∃ t, into = .next t ∧ onlyChanges heard s t ∧ answeredOn s t n .already .empty) ∧
    (y.present = true → ∃ t l kept, out = .next t ∧ onlyChanges (.cash :: heard) s t ∧
      answeredOn s t n .ok (.lifted l.serial l.box l.counts l.expected) ∧
      l.serial = s.cash.nextLift ∧ l.terminal = n ∧ l.box = y.box ∧ l.label = (if label = y.box then none else some label) ∧
      l.lifted = now s ∧ l.counts = y.counts ∧ l.expected = valueOf s.cash.coins y.counts ∧ l.state = .awaiting ∧
      (∀ r, s.cash.round = some r → r.state = .opened → l.round = r.number) ∧ (¬ open_ → l.round = 0) ∧
      liftRoomMade s.cash.lifts kept ∧
      t.cash = { s.cash with
        tallies := put s.cash.tallies n { y with
          present := false, box := 0, counts := Vector.replicate 8 0, absentMark := true }
        lifts := kept ++ [l]
        nextLift := if s.cash.nextLift = 4294967295 then 1 else s.cash.nextLift + 1
        round := s.cash.round.map fun r => if r.state = .opened then { r with lifted := put r.lifted n true } else r } ∧
      record t .boxAbsent = (if y.absentMark then record s .boxAbsent else (record s .boxAbsent).raised (now s) none) ∧
      record t .boxIdentity =
        (if label = y.box then record s .boxIdentity else (record s .boxIdentity).raised (now s) (some label)) ∧
      ((∀ r, s.cash.round = some r → r.state = .opened → r.number ≠ 0) → record t .unroundedLift =
        if l.round = 0 then (record s .unroundedLift).raised (now s) (some l.serial) else record s .unroundedLift) ∧
      recordsKeptBut (fun m k => m = n ∧ (k = .lineSilent ∨ k = .boxAbsent ∨ k = .boxIdentity ∨ k = .unroundedLift)) s t ∧
      ((s.cash.lifts.length < 96 ∨ ∃ x ∈ s.cash.lifts, x.state ≠ .awaiting) → t.faults.zone = s.faults.zone) ∧
      (96 ≤ s.cash.lifts.length → (∀ x ∈ s.cash.lifts, x.state = .awaiting) → ∀ first rest, s.cash.lifts = first :: rest →
        t.faults.zone = put s.faults.zone 2 ((row s.faults.zone 2).raised (now s) (some first.box))) ∧
      latchedWhere .faultOpened (opensMark Tally.absentMark .boxAbsent n s t ∨
        (label ≠ y.box ∧ (record s .boxIdentity).state ≠ .opened) ∨ (l.round = 0 ∧ (record s .unroundedLift).state ≠ .opened) ∨
        (96 ≤ s.cash.lifts.length ∧ (∀ x ∈ s.cash.lifts, x.state = .awaiting) ∧ (row s.faults.zone 2).state ≠ .opened)) s t ∧
      latchedWhere .faultCleared (stands s n .lineSilent) s t ∧ (graceKept s → graceFollows s t)) ∧
    (y.present = false → (label = 0 ∨ ∃ m, m ≠ n ∧ (tallyOf s m).present = true ∧ (tallyOf s m).box = label) →
      ∃ t, into = .next t ∧ onlyChanges heard s t ∧ answeredOn s t n .duplicate .empty ∧
        record t .boxIdentity = (record s .boxIdentity).raised (now s) (some label) ∧ t.faults.zone = s.faults.zone ∧
        recordsKeptBut (fun m k => m = n ∧ (k = .lineSilent ∨ k = .boxIdentity)) s t ∧
        latchedWhere .faultOpened ((record s .boxIdentity).state ≠ .opened) s t ∧
        latchedWhere .faultCleared (stands s n .lineSilent) s t ∧ (graceKept s → graceFollows s t)) ∧
    (y.present = false → label ≠ 0 → (∀ m, m ≠ n → (tallyOf s m).present = true → (tallyOf s m).box ≠ label) →
      ∃ t, into = .next t ∧ onlyChanges (.cash :: heard) s t ∧ answeredOn s t n .ok .empty ∧
        t.cash = { s.cash with tallies := put s.cash.tallies n { y with
          present := true, box := label, counts := Vector.replicate 8 0
          absentMark := false, nearMark := false, fullMark := false } } ∧
        record t .boxAbsent = (if y.absentMark then clearedNow s (record s .boxAbsent) else record s .boxAbsent) ∧
        record t .boxNearFull = (if y.nearMark then clearedNow s (record s .boxNearFull) else record s .boxNearFull) ∧
        record t .boxFull = (if y.fullMark then clearedNow s (record s .boxFull) else record s .boxFull) ∧
        t.faults.zone = s.faults.zone ∧
        recordsKeptBut (fun m k => m = n ∧ (k = .lineSilent ∨ k = .boxAbsent ∨ k = .boxNearFull ∨ k = .boxFull)) s t ∧
        notLatched .faultOpened s t ∧
        latchedWhere .faultCleared (stands s n .lineSilent ∨ clearsMark Tally.absentMark .boxAbsent n s t ∨
          clearsMark Tally.nearMark .boxNearFull n s t ∨ clearsMark Tally.fullMark .boxFull n s t) s t ∧
        (graceKept s → graceFollows s t))

/-- OPEN_ROUND, CLOSE_ROUND and ROUND_LAPSE (section 8.6): the refusals in order. A round opens with the badge, the reading and the
ACTIVE terminals whose boxes are PRESENT with coins planned, clears ROUND_LAPSED and latches ROUND_OPENED; the collector who
opened it closes it, which latches ROUND_ENDED; and at its open time and limit it lapses, which raises ROUND_LAPSED too. That
ROUND_LAPSE may be taken by itself, between boundaries, is the model's choice (log entry 1). -/
def Obligations.Rounds : Prop :=
  ∀ (tag : Tag) (badge number : Nat) (s : State),
    let refused := fun (c : Instr) (st : Status) => exec c s = .next (answering s .service tag st .empty)
    let opening := Instr.openRound tag badge number
    let notOpen := ∀ r, s.cash.round = some r → r.state ≠ .opened
    (serviceTakes s badge .collector →
      ((number < 1 ∨ 65535 < number) → refused opening .badField) ∧
      (1 ≤ number → number ≤ 65535 →
        (s.clock.state = .unset → refused opening .clockUnset) ∧
        (s.clock.state = .set → ¬ notOpen → refused opening .busy) ∧
        (s.clock.state = .set → notOpen → ∃ t planned, exec opening s = .next (answering t .service tag .ok (.planned planned)) ∧
          onlyChanges [.cash, .faults, .notices] s t ∧
          (∀ n, row planned n = true ↔
            (row s.table n).active = true ∧ (tallyOf s n).present = true ∧ 0 < total (tallyOf s n).counts) ∧
          t.cash = { s.cash with round := some { state := .opened, number := number, badge := badge, openTime := now s
                                                 planned := planned, lifted := Vector.replicate 16 false } } ∧
          t.faults = { s.faults with zone := put s.faults.zone 1 (clearedNow s (row s.faults.zone 1)) } ∧
          latched .roundOpened s t ∧ notLatched .roundEnded s t ∧
          latchedWhere .faultCleared ((row s.faults.zone 1).state ≠ .clear) s t)) ∧
      (notOpen → refused (.closeRound tag badge) .noRound) ∧
      ∀ r, s.cash.round = some r → r.state = .opened →
        (r.badge ≠ badge → refused (.closeRound tag badge) .denied) ∧
        (r.badge = badge → ∃ missed : LineSet, (∀ n, row missed n = true ↔ row r.planned n = true ∧ row r.lifted n = false) ∧
          exec (.closeRound tag badge) s = .next (answering { s with
            cash := { s.cash with round := some { r with state := .closed (now s) } }
            notices := latchIn .roundEnded s.notices } .service tag .ok (.roundClosed r.planned r.lifted missed)))) ∧
    (running s = true →
      ((s.clock.state = .unset ∨ notOpen ∨ ∀ r, s.cash.round = some r → now s < r.openTime + s.cash.roundLimit) →
        exec .roundLapse s = .next s) ∧
      ∀ r, s.clock.state = .set → s.cash.round = some r → r.state = .opened → r.openTime + s.cash.roundLimit ≤ now s →
        ∃ t, exec .roundLapse s = .next t ∧ onlyChanges [.cash, .faults, .notices] s t ∧
          t.cash = { s.cash with round := some { r with state := .lapsed (now s) } } ∧
          t.faults = { s.faults with zone := put s.faults.zone 1 ((row s.faults.zone 1).raised (now s) (some r.number)) } ∧
          latched .roundEnded s t ∧ latchedWhere .faultOpened ((row s.faults.zone 1).state ≠ .opened) s t)

/-- SET_COINS, SET_CASH_LIMITS and COUNT_RESULT (sections 8.2, 8.7), with their refusals. A coin slot in use keeps its value, and a
command that would change one is refused IN_USE and names every such slot. A count judges the first lift of the box that
awaits one: reconciled within the tolerance, else a variance that raises CASH_VARIANCE at its terminal. -/
def Obligations.CashSettingsAndCounts : Prop :=
  ∀ (tag : Tag) (values : Vector Nat 8) (tolerance limit box value : Nat) (s : State), officeTakes s →
    let reply := fun (c : Instr) (t : State) (st : Status) (b : Body) => exec c s = .next (answering t .office tag st b)
    let coins := Instr.setCoins tag values
    let limits := Instr.setCashLimits tag tolerance limit
    let count := Instr.countResult tag box value
    let changes := fun i => coinInUse s.cash i ∧ row values i ≠ row s.cash.coins i
    ((∃ i, 500 < row values i) → reply coins s .badField .empty) ∧
    ((∀ i, row values i ≤ 500) →
      ((∃ i, changes i) → ∃ slots : List (Fin 8), (∀ i, i ∈ slots ↔ changes i) ∧ slots.Nodup ∧
        reply coins s .inUse (.slotsInUse slots)) ∧
      ((∀ i, ¬ changes i) → reply coins { s with cash := { s.cash with coins := values } } .ok (.coins values))) ∧
    ((500 < tolerance ∨ limit < 60 ∨ 480 < limit) → reply limits s .badField .empty) ∧
    (tolerance ≤ 500 → 60 ≤ limit → limit ≤ 480 →
      reply limits { s with cash := { s.cash with tolerance := tolerance, roundLimit := limit } } .ok
        (.limits s.cash.tolerance s.cash.roundLimit tolerance limit)) ∧
    ((box < 1 ∨ 65535 < box ∨ 4294967295 < value) → reply count s .badField .empty) ∧
    (1 ≤ box → box ≤ 65535 → value ≤ 4294967295 →
      ((∀ l ∈ s.cash.lifts, l.state = .awaiting → l.box ≠ box) → reply count s .noLift .empty) ∧
      ∀ before l after, s.cash.lifts = before ++ l :: after → l.state = .awaiting → l.box = box →
        (∀ x ∈ before, x.state = .awaiting → x.box ≠ box) →
          let variance : Int := (value : Int) - (l.expected : Int)
          let c : Count := { value := value, variance := variance, time := now s }
          let judged := fun st : LiftState => { s.cash with lifts := before ++ { l with state := st } :: after }
          (variance.natAbs ≤ s.cash.tolerance → reply count { s with cash := judged (.reconciled c) } .ok
            (.counted l.serial l.expected value variance true)) ∧
          (s.cash.tolerance < variance.natAbs → ∃ t,
            reply count t .ok (.counted l.serial l.expected value variance false) ∧
              onlyChanges [.cash, .faults, .notices] s t ∧ t.cash = judged (.variance c) ∧ t.faults.zone = s.faults.zone ∧
              terminalRecord t.faults l.terminal .cashVariance =
                (terminalRecord s.faults l.terminal .cashVariance).raised (now s) (some l.serial) ∧
              recordsKeptBut (fun m k => m = l.terminal ∧ k = .cashVariance) s t ∧ t.faults.grace = s.faults.grace ∧
              latchedWhere .faultOpened ((terminalRecord s.faults l.terminal .cashVariance).state ≠ .opened) s t))

/-! ## Fault unit -/

/-- FAULT, LINE_SILENCE and GRACE_TAIL_END (sections 9.2 to 9.4, 9.7). A report raises or clears the terminal's record and is answered
OK; a raise from CLEAR opens the record with count 1, one of a standing record reopens it and counts on to 255; FAULT_OPENED
is latched unless the record was OPEN already, or a DOOR_OPEN is raised while a round is OPEN. LINE_SILENT is raised ten minutes
after an ACTIVE terminal was heard. The service state of a terminal (section 9.6) is that of its entry and its standing records,
and a plan is unserved where every ACTIVE terminal it has, and it has one, is OUT_OF_SERVICE or PAYMENT_OUT (section 9.7). With every
raise and clear grace follows: NONE to ACTIVE, which latches GRACE_STARTED, ACTIVE to ENDING with 15 minutes to go, ENDING to ACTIVE
again with its since time. A grace tail ends at its until time. A FAULT whose kind or direction is out of range is
answered BAD_FIELD. That LINE_SILENCE and GRACE_TAIL_END may be taken by themselves, between boundaries, is the model's choice
(log entry 1). -/
def Obligations.FaultsAreRecorded : Prop :=
  ∀ (n : Line) (s : State),
    let record := fun (t : State) (k : TermFault) => terminalRecord t.faults n k
    let open_ := ∃ r, s.cash.round = some r ∧ r.state = .opened
    serviceFits s n (serviceState s n) ∧ (∀ p, unserved s p = true ↔ planUnserved s p) ∧
    (lineTakes s n → ∀ kind direction, (5 < kind ∨ (direction ≠ 1 ∧ direction ≠ 2)) →
      ∃ t, exec (.fault n kind direction) s = .next t ∧ onlyChanges [.lines, .table, .faults, .notices] s t ∧
        frameHeard s t n ∧ answeredOn s t n .badField .empty) ∧
    (lineTakes s n → ∀ kind direction k isRaise, faultReportOf kind direction = some (k, isRaise) →
      ∃ t, exec (.fault n kind direction) s = .next t ∧ onlyChanges [.lines, .table, .faults, .notices] s t ∧
        answeredOn s t n .ok .empty ∧ t.faults.zone = s.faults.zone ∧
        recordsKeptBut (fun m j => m = n ∧ (j = k ∨ j = .lineSilent)) s t ∧
        (record t .lineSilent).state = .clear ∧ (graceKept s → graceFollows s t) ∧
        latchedWhere .faultCleared (stands s n .lineSilent ∨ (isRaise = false ∧ stands s n k)) s t ∧
        (isRaise = false → record t k = clearedNow s (record s k) ∧ notLatched .faultOpened s t) ∧
        (isRaise = true →
          ((record s k).state = .clear →
            record t k = { state := .opened, first := now s, changed := now s, count := 1, detail := none }) ∧
          ((record s k).state ≠ .clear →
            record t k = { record s k with
              state := .opened, changed := now s, count := min 255 ((record s k).count + 1) }) ∧
          ((record s k).state ≠ .opened → ¬ (k = .doorOpen ∧ open_) → latched .faultOpened s t) ∧
          ((record s k).state = .opened ∨ (k = .doorOpen ∧ open_) → notLatched .faultOpened s t))) ∧
    (running s = true →
      let due := s.clock.state = .set ∧ (row s.table n).active = true ∧ (record s .lineSilent).state = .clear ∧
        (row s.table n).lastHeard + 10 ≤ now s
      (¬ due → exec (.lineSilence n) s = .next s) ∧
      (due → ∃ t, exec (.lineSilence n) s = .next t ∧ onlyChanges [.faults, .notices] s t ∧ t.faults.zone = s.faults.zone ∧
        record t .lineSilent =
          { state := .opened, first := now s, changed := now s, count := 1, detail := some (row s.table n).lastHeard } ∧
        recordsKeptBut (fun m j => m = n ∧ j = .lineSilent) s t ∧ serviceState t n = .outOfService ∧
        latched .faultOpened s t ∧ notLatched .faultCleared s t ∧ (graceKept s → graceFollows s t))) ∧
    ∀ p : Fin 8, running s = true →
      (∀ since until_, s.clock.state = .set → row s.faults.grace p = .ending since until_ → until_ ≤ now s →
        exec (.graceTailEnd p) s = .next { s with
          faults := { s.faults with grace := put s.faults.grace p .none }, notices := latchIn .graceEnded s.notices }) ∧
      ((s.clock.state = .unset ∨ ∀ since until_, row s.faults.grace p = .ending since until_ → now s < until_) →
        exec (.graceTailEnd p) s = .next s)

/-- ACK_FAULT and CLEAR_FAULT (section 9.5), with their refusals in order: an OPEN record becomes ACKNOWLEDGED without a notice; a
standing record of the five kinds that a command clears becomes CLEAR, keeping its first time, count and detail, and latches
FAULT_CLEARED; no other record changes; after a clear grace follows. -/
def Obligations.FaultCommands : Prop :=
  ∀ (source : Source) (tag : Tag) (scope kind : Nat) (s : State),
    let ack := fun (t : State) (st : Status) =>
      exec (.ackFault tag scope kind) s = .next (answering t .office tag st .empty)
    let clear := fun (t : State) (st : Status) =>
      exec (.clearFault source tag scope kind) s = .next (answering t source.port tag st .empty)
    (officeTakes s →
      (faultNameOf scope kind = none → ack s .badField) ∧
      (∀ z, faultNameOf scope kind = some (.zone z) →
        let r := row s.faults.zone z.index
        (r.state ≠ .opened → ack s .already) ∧
        (r.state = .opened → ack { s with faults := { s.faults with
          zone := put s.faults.zone z.index { r with state := .acknowledged, changed := now s } } } .ok)) ∧
      ∀ n k, faultNameOf scope kind = some (.terminal n k) →
        let r := terminalRecord s.faults n k
        (r.state ≠ .opened → ack s .already) ∧
        (r.state = .opened → ∃ t, ack t .ok ∧ onlyChanges [.faults] s t ∧ t.faults.zone = s.faults.zone ∧
          t.faults.grace = s.faults.grace ∧ terminalRecord t.faults n k = { r with state := .acknowledged, changed := now s } ∧
          recordsKeptBut (fun m j => m = n ∧ j = k) s t ∧ ∀ m, serviceState t m = serviceState s m)) ∧
    (sourceTakes s source .engineer →
      (faultNameOf scope kind = none → clear s .badField) ∧
      (∀ z, faultNameOf scope kind = some (.zone z) →
        let r := row s.faults.zone z.index
        (z ≠ .cashRecordLost → z ≠ .roundLapsed → clear s .badField) ∧
        (z = .cashRecordLost ∨ z = .roundLapsed →
          (r.state = .clear → clear s .already) ∧
          (r.state ≠ .clear → clear { s with
            faults := { s.faults with zone := put s.faults.zone z.index { r with state := .clear, changed := now s } }
            notices := latchIn .faultCleared s.notices } .ok))) ∧
      ∀ n k, faultNameOf scope kind = some (.terminal n k) →
        let r := terminalRecord s.faults n k
        let byCommand := k = .boxIdentity ∨ k = .unroundedLift ∨ k = .cashVariance
        (¬ byCommand → clear s .badField) ∧ (byCommand → r.state = .clear → clear s .already) ∧
        (byCommand → r.state ≠ .clear → ∃ t, clear t .ok ∧ onlyChanges [.faults, .notices] s t ∧
          t.faults.zone = s.faults.zone ∧ terminalRecord t.faults n k = { r with state := .clear, changed := now s } ∧
          recordsKeptBut (fun m j => m = n ∧ j = k) s t ∧ latched .faultCleared s t ∧ (graceKept s → graceFollows s t)))

/-- SET_NOTICES (R178): a set that names a source outside the twelve is refused BAD_FIELD and nothing changes; otherwise the enable
set and the two masks are written, the reply carries the settings before and after, and the pending sets stay; a latch taken
afterwards passes through the new settings. -/
def Obligations.SetNotices : Prop :=
  ∀ (tag : Tag) (enable call lamp : BitVec 16) (s : State), officeTakes s →
    ((4096 ≤ enable.toNat ∨ 4096 ≤ call.toNat ∨ 4096 ≤ lamp.toNat) →
      exec (.setNotices tag enable call lamp) s = .next (answering s .office tag .badField .empty)) ∧
    (enable.toNat < 4096 → call.toNat < 4096 → lamp.toNat < 4096 →
      let settings : NoticeState := { s.notices with
        enable := enable.setWidth 12, call := call.setWidth 12, lamp := lamp.setWidth 12 }
      exec (.setNotices tag enable call lamp) s = .next (answering { s with notices := settings } .office tag .ok
        (.noticeSettings s.notices.enable s.notices.call s.notices.lamp settings.enable settings.call settings.lamp)) ∧
      ∀ n m : Notice,
        m.isIn (latchIn n settings).office =
          (m.isIn s.notices.office ||
            (decide (m = n) && enable.getLsbD n.index && call.getLsbD n.index)) ∧
        m.isIn (latchIn n settings).site =
          (m.isIn s.notices.site || (decide (m = n) && enable.getLsbD n.index && lamp.getLsbD n.index)))

/-- READ_NOTICES and READ_SITE_NOTICES (section 9.8): each returns its pending set and empties that set alone. CALL is asserted exactly
while the office pending set is not empty, LAMP while the site pending set is not. SET_ADDRESSED and
RESET_ADDRESSED (section 9.9): the notices of the set join or leave those of the terminal named, or of all sixteen, ACTIVE or
not, and the reply gives each of the sixteen sets as it now stands; a number above 16, an empty set or one with notice 0 is refused
BAD_FIELD. -/
def Obligations.NoticeReadsAndAddressed : Prop :=
  ∀ (tag : Tag) (badge terminal : Nat) (set : BitVec 8) (s : State),
    let w := s.notices
    let reply := fun (c : Instr) (t : State) (st : Status) (b : Body) => exec c s = .next (answering t .office tag st b)
    let changed := fun f : Line → BitVec 8 => { s with table := Vector.ofFn fun n => { row s.table n with addressed := f n } }
    let replyAll := fun (c : Instr) (f : Line → BitVec 8) => reply c (changed f) .ok (.addressed (Vector.ofFn f))
    (callLine s = true ↔ w.office ≠ 0) ∧ (lampLine s = true ↔ w.site ≠ 0) ∧
    (officeTakes s → reply (.readNotices tag) { s with notices := { w with office := 0 } } .ok
      (.notices w.office w.enable w.call w.lamp)) ∧
    (serviceTakes s badge .engineer → exec (.readSiteNotices tag badge) s =
      .next (answering { s with notices := { w with site := 0 } } .service tag .ok (.siteNotices w.site))) ∧
    (officeTakes s →
      ((16 < terminal ∨ set = 0 ∨ set.getLsbD 0 = true) →
        reply (.setAddressed tag terminal set) s .badField .empty ∧
          reply (.resetAddressed tag terminal set) s .badField .empty) ∧
      (set ≠ 0 → set.getLsbD 0 = false →
        terminal ≤ 16 →
          let old := fun n : Line => (row s.table n).addressed
          let named := fun n : Line => terminal = 0 ∨ terminal = n.number
          replyAll (.setAddressed tag terminal set) (fun n => if named n then old n ||| set else old n) ∧
            replyAll (.resetAddressed tag terminal set) fun n => if named n then old n &&& ~~~set else old n))

/-! ## Port unit -/

/-- PUT_BADGE and DROP_BADGE (section 10.4), with their refusals: a badge has the roles put last, every other badge keeps its own, and
a dropped one is gone. PUT_BADGE always carries the held count. -/
def Obligations.Badges : Prop :=
  ∀ (tag : Tag) (number : Nat) (roles : BitVec 8) (s : State), officeTakes s →
    let list := s.ports.badges
    let held := list.length
    let reply := fun (c : Instr) (t : State) (st : Status) (b : Body) => exec c s = .next (answering t .office tag st b)
    let inRange := 1 ≤ number ∧ number ≤ 99999
    (¬ inRange → reply (.dropBadge tag number) s .badField .empty) ∧
    (¬ inRange ∨ roles = 0 ∨ 8 ≤ roles.toNat → reply (.putBadge tag number roles) s .badField (.badgesHeld held)) ∧
    (inRange →
      ((∀ b ∈ list, b.number ≠ number) → reply (.dropBadge tag number) s .already .empty) ∧
      ((∃ b ∈ list, b.number = number) →
        ∃ kept, kept = list.filter (fun b => decide (b.number ≠ number)) ∧
          reply (.dropBadge tag number) { s with ports := { s.ports with badges := kept } } .ok (.badgesHeld kept.length)) ∧
      (roles ≠ 0 → roles.toNat < 8 →
        (32 ≤ held → (∀ b ∈ list, b.number ≠ number) → reply (.putBadge tag number roles) s .full (.badgesHeld held)) ∧
        ((∃ b ∈ list, b.number = number) ∨ held < 32 → ∃ more,
          reply (.putBadge tag number roles) { s with ports := { s.ports with badges := more } } .ok (.badgesHeld more.length) ∧
            lookup Badge.number number more = some { number := number, roles := roles.setWidth 3 } ∧
            (∀ m, m ≠ number → lookup Badge.number m more = lookup Badge.number m list) ∧
            (Rising Badge.number list → Rising Badge.number more))))

/-- The events of a port (sections 10.2, 10.6). PORT_FRAME_DISCARD and PORT_RECEIVE_TIMEOUT drop the partial frame and nothing else; a
frame of no kind of the port is refused BAD_FIELD; at PORT_REPLY_END the next queued answer begins, with the reading and clock
state of that moment. RESTART is answered OK on the office link and from then on no frame is taken; on the service port it is
refused BAD_FIELD. When its answer has left the office link, which PORT_REPLY_END or COMMANDED_RESTART says, the part makes a
warm restart; COMMANDED_RESTART without that answer under way has no effect (log entry 19). -/
def Obligations.PortEvents : Prop :=
  ∀ (source : Source) (tag : Tag) (id : PortId) (straps : BitVec 8) (s : State),
    let p := s.ports.port id
    let onThis := fun q : Port => { s with ports := s.ports.onPort id fun _ => q }
    let leaving := ∃ r, s.ports.office.sending = some r ∧ r.answer.body = .restarting
    (running s = true →
      exec (.portFrameDiscard id) s = .next (onThis { p with frame := none }) ∧
      exec (.portReceiveTimeout id) s = .next (onThis { p with frame := none }) ∧
      (p.sending = none → (id = .service ∨ ¬ leaving) → exec (.portReplyEnd id) s = .next s) ∧
      (p.sending ≠ none → (id = .service ∨ ¬ leaving) →
        (p.queue = [] → exec (.portReplyEnd id) s = .next (onThis { p with sending := none })) ∧
        ∀ a rest, p.queue = a :: rest → exec (.portReplyEnd id) s = .next (onThis { p with
          sending := some { answer := a, time := now s, clock := s.clock.state }, queue := rest })) ∧
      (¬ leaving → exec (.commandedRestart straps) s = .next s) ∧
      (leaving →
        (∃ t, exec (.portReplyEnd .office) s = .next t ∧ restartedWarm .command s t) ∧
        ∃ t, exec (.commandedRestart straps) s = .next t ∧
          restartedWarm .command { s with pins := { s.pins with straps := straps } } t)) ∧
    (listening s source.port = true → (∀ badge, source = .service badge → 1 ≤ badge ∧ badge ≤ 99999) →
      exec (.unknownPortCommandKind source tag) s = .next (answering s source.port tag .badField .empty)) ∧
    (officeTakes s → exec (.restart .office tag) s =
      .next { s with ports := { withAnswer s .office tag .ok .restarting with restarting := true } }) ∧
    ∀ badge, listening s .service = true →
      exec (.restart (.service badge) tag) s = .next (answering s .service tag .badField .empty)

/-! ## Restarts -/

/-- POWER_UP and NRESET_RELEASE (section 10.6): with BACKUP GOOD low the part makes a cold start, in which every block has its cold
values; with it high a warm restart with reason SUPPLY; the straps give the zone id either way. A release while the supply is lost
makes no restart. SUPPLY_LOSS and NRESET_ASSERTION stop the blocks. A warm restart keeps the books, but clears their held marks,
releases a retired bank and abandons a check in progress (section 2.11); it latches RESTARTED, and where the clock passed to UNSET in
the meantime raises CLOCK_UNSET (sections 1.7, 9.10). That commands and characters not yet taken stay, and the
cold values that the spec names none of, are the model's choice (log entries 2 and 4), and so are what NRESET held low does (log
entry 7), and that the two events restart whatever the pins were before and a release without supply does not (log entry 18). -/
def Obligations.Restarts : Prop :=
  ∀ (straps : BitVec 8) (s : State),
    let found := fun (backup : Bool) (p : Pins) => { p with straps := straps, backupGood := backup }
    let cold := fun p : Pins => { State.reset with
      ports := { State.reset.ports with zoneId := straps }
      pins := p, wire := s.wire, choices := s.choices, pending := s.pending }
    let up := fun backup => { found backup s.pins with supply := true }
    let released := fun backup => { found backup s.pins with nresetLow := false }
    exec (.powerUp false straps) s = .next (cold (up false)) ∧
    (∃ t, exec (.powerUp true straps) s = .next t ∧ restartedWarm .supply { s with pins := up true } t) ∧
    (s.pins.supply = true →
      exec (.nresetRelease false straps) s = .next (cold (released false)) ∧
      ∃ t, exec (.nresetRelease true straps) s = .next t ∧ restartedWarm .supply { s with pins := released true } t) ∧
    (s.pins.supply = false → ∀ backup,
      exec (.nresetRelease backup straps) s = .next { s with pins := released backup }) ∧
    (∃ t, exec .supplyLoss s = .next t ∧ t = { s with pins := { s.pins with supply := false } } ∧ running t = false) ∧
    ∃ t, exec .nresetAssertion s = .next t ∧ t = { s with pins := { s.pins with nresetLow := true } } ∧ running t = false

/-! ## Frames on the wire -/

/-- A frame of chapter 11 on the wire (sections 4.2, 10.2, 11.2): characters that follow the flag, sent for content of 1 to 120
bytes, complete the frame with that content; content of another length, and a check that differs, make a frame that is discarded.
At a line that is not REPLYING, and at a port, the flag opens a frame, which takes an IDLE line to RECEIVING, and any other
character outside a frame is passed over; a character inside a frame joins it, spoils it, or completes it, and then the terminal
controller or the port unit takes the command it carries. A character at a line that is REPLYING is a COLLISION. A silence of four
character times is a time-out where a frame is being assembled, and nothing where none is. That the command is taken in the same step,
and that what arrives while the blocks are stopped is lost, are the model's choice (log entry 3). -/
def Obligations.FramesOnTheWire : Prop :=
  ∀ content : List Byte,
    (1 ≤ content.length → content.length ≤ 120 →
      assembleAll [] (requestFrame content).tail = .complete content ∧
        ∀ a b : Byte, [a, b] ≠ bytesOf 2 (checkOf (bytesOf 1 content.length ++ content)).toNat →
          assembleAll [] (bytesOf 1 content.length ++ content ++ [a, b]) = .bad) ∧
    (∀ c : Byte, c.toNat = 0 ∨ 120 < c.toNat → assembleAll [] [c] = .bad) ∧
    (∀ (s : State) (e : WireEvent) (rest : List WireEvent), s.pending = [] → s.wire = e :: rest →
      let next := { s with wire := rest }
      (running s = false → step s = .next next) ∧
      (running s = true →
        (∀ n : Line, e = .silence (.line n) →
          ((row s.lines n).frame ≠ none → step s = exec (.receiveTimeout n) next) ∧
          ((row s.lines n).frame = none → step s = .next next)) ∧
        (∀ id : PortId, e = .silence (.port id) →
          ((s.ports.port id).frame ≠ none → step s = exec (.portReceiveTimeout id) next) ∧
          ((s.ports.port id).frame = none → step s = .next next)) ∧
        ∀ (n : Line) (c : Byte) r back hit, e = .char (.line n) c → (row s.lines n).state = .replying r back hit →
          step s = exec (.collision n) next)) ∧
    ∀ (c : Byte) (s : State) (rest : List WireEvent), running s = true → s.pending = [] →
      let next := { s with wire := rest }
      (∀ n : Line, s.wire = .char (.line n) c :: rest → (∀ r back hit, (row s.lines n).state ≠ .replying r back hit) →
        let u := row s.lines n
        let with_ := fun v : LineUnit => (.next { next with lines := put s.lines n v } : Answered)
        (u.frame = none → c = 0xC3 → u.state = .idle → step s = with_ { u with state := .receiving, frame := some [] }) ∧
        (u.frame = none → c = 0xC3 → u.state ≠ .idle → step s = with_ { u with frame := some [] }) ∧
        (u.frame = none → c ≠ 0xC3 → step s = .next next) ∧
        ∀ partly, u.frame = some partly →
          (∀ more, assemble partly c = .growing more → step s = with_ { u with frame := some more }) ∧
          (assemble partly c = .bad → step s = exec (.frameDiscard n) next) ∧
          (assemble partly c = .complete content → step s = exec (decodeLine n content) next)) ∧
      ∀ id : PortId, s.wire = .char (.port id) c :: rest →
        let with_ := fun f : Option (List Byte) => { next with ports := s.ports.onPort id fun p => { p with frame := f } }
        ((s.ports.port id).frame = none →
          (c = 0xC3 → step s = .next (with_ (some []))) ∧ (c ≠ 0xC3 → step s = .next next)) ∧
        ∀ partly, (s.ports.port id).frame = some partly →
          (∀ more, assemble partly c = .growing more → step s = .next (with_ (some more))) ∧
          (assemble partly c = .bad → step s = exec (.portFrameDiscard id) next) ∧
          (assemble partly c = .complete content → step s = exec (decodePort id content) (with_ none))

end Statements
end

