-- ==== Sys2Proof/Laws/State.lean ====
section
/-!
SUPPORT. Laws/State.lean: for each update of the state, what every part of the state is after it: the part it writes, and
all the others as they were. All true by rfl, so that no later proof unfolds an update.
-/
namespace Sys2Proof.Machine

variable (s : State)

/-! ### latch -/

@[simp] theorem latch_clock (n : Notice) : (latch n s).clock = s.clock := rfl
@[simp] theorem latch_books (n : Notice) : (latch n s).books = s.books := rfl
@[simp] theorem latch_engine (n : Notice) : (latch n s).engine = s.engine := rfl
@[simp] theorem latch_lines (n : Notice) : (latch n s).lines = s.lines := rfl
@[simp] theorem latch_table (n : Notice) : (latch n s).table = s.table := rfl
@[simp] theorem latch_quotes (n : Notice) : (latch n s).quotes = s.quotes := rfl
@[simp] theorem latch_sales (n : Notice) : (latch n s).sales = s.sales := rfl
@[simp] theorem latch_permits (n : Notice) : (latch n s).permits = s.permits := rfl
@[simp] theorem latch_cover (n : Notice) : (latch n s).cover = s.cover := rfl
@[simp] theorem latch_cash (n : Notice) : (latch n s).cash = s.cash := rfl
@[simp] theorem latch_faults (n : Notice) : (latch n s).faults = s.faults := rfl
@[simp] theorem latch_notices (n : Notice) : (latch n s).notices = latchIn n s.notices := rfl
@[simp] theorem latch_ports (n : Notice) : (latch n s).ports = s.ports := rfl
@[simp] theorem latch_pins (n : Notice) : (latch n s).pins = s.pins := rfl
@[simp] theorem latch_wire (n : Notice) : (latch n s).wire = s.wire := rfl
@[simp] theorem latch_choices (n : Notice) : (latch n s).choices = s.choices := rfl
@[simp] theorem latch_pending (n : Notice) : (latch n s).pending = s.pending := rfl

/-! ### onFaults -/

@[simp] theorem onFaults_clock (f : Watch → Watch) : (onFaults f s).clock = s.clock := rfl
@[simp] theorem onFaults_books (f : Watch → Watch) : (onFaults f s).books = s.books := rfl
@[simp] theorem onFaults_engine (f : Watch → Watch) : (onFaults f s).engine = s.engine := rfl
@[simp] theorem onFaults_lines (f : Watch → Watch) : (onFaults f s).lines = s.lines := rfl
@[simp] theorem onFaults_table (f : Watch → Watch) : (onFaults f s).table = s.table := rfl
@[simp] theorem onFaults_quotes (f : Watch → Watch) : (onFaults f s).quotes = s.quotes := rfl
@[simp] theorem onFaults_sales (f : Watch → Watch) : (onFaults f s).sales = s.sales := rfl
@[simp] theorem onFaults_permits (f : Watch → Watch) : (onFaults f s).permits = s.permits := rfl
@[simp] theorem onFaults_cover (f : Watch → Watch) : (onFaults f s).cover = s.cover := rfl
@[simp] theorem onFaults_cash (f : Watch → Watch) : (onFaults f s).cash = s.cash := rfl
@[simp] theorem onFaults_faults (f : Watch → Watch) : (onFaults f s).faults = (f (s.faults, s.notices)).1 := rfl
@[simp] theorem onFaults_notices (f : Watch → Watch) : (onFaults f s).notices = (f (s.faults, s.notices)).2 := rfl
@[simp] theorem onFaults_ports (f : Watch → Watch) : (onFaults f s).ports = s.ports := rfl
@[simp] theorem onFaults_pins (f : Watch → Watch) : (onFaults f s).pins = s.pins := rfl
@[simp] theorem onFaults_wire (f : Watch → Watch) : (onFaults f s).wire = s.wire := rfl
@[simp] theorem onFaults_choices (f : Watch → Watch) : (onFaults f s).choices = s.choices := rfl
@[simp] theorem onFaults_pending (f : Watch → Watch) : (onFaults f s).pending = s.pending := rfl

/-! ### onEntry -/

@[simp] theorem onEntry_clock (n : Line) (f : Entry → Entry) : (onEntry n f s).clock = s.clock := rfl
@[simp] theorem onEntry_books (n : Line) (f : Entry → Entry) : (onEntry n f s).books = s.books := rfl
@[simp] theorem onEntry_engine (n : Line) (f : Entry → Entry) : (onEntry n f s).engine = s.engine := rfl
@[simp] theorem onEntry_lines (n : Line) (f : Entry → Entry) : (onEntry n f s).lines = s.lines := rfl
@[simp] theorem onEntry_table (n : Line) (f : Entry → Entry) : (onEntry n f s).table = change s.table n f := rfl
@[simp] theorem onEntry_quotes (n : Line) (f : Entry → Entry) : (onEntry n f s).quotes = s.quotes := rfl
@[simp] theorem onEntry_sales (n : Line) (f : Entry → Entry) : (onEntry n f s).sales = s.sales := rfl
@[simp] theorem onEntry_permits (n : Line) (f : Entry → Entry) : (onEntry n f s).permits = s.permits := rfl
@[simp] theorem onEntry_cover (n : Line) (f : Entry → Entry) : (onEntry n f s).cover = s.cover := rfl
@[simp] theorem onEntry_cash (n : Line) (f : Entry → Entry) : (onEntry n f s).cash = s.cash := rfl
@[simp] theorem onEntry_faults (n : Line) (f : Entry → Entry) : (onEntry n f s).faults = s.faults := rfl
@[simp] theorem onEntry_notices (n : Line) (f : Entry → Entry) : (onEntry n f s).notices = s.notices := rfl
@[simp] theorem onEntry_ports (n : Line) (f : Entry → Entry) : (onEntry n f s).ports = s.ports := rfl
@[simp] theorem onEntry_pins (n : Line) (f : Entry → Entry) : (onEntry n f s).pins = s.pins := rfl
@[simp] theorem onEntry_wire (n : Line) (f : Entry → Entry) : (onEntry n f s).wire = s.wire := rfl
@[simp] theorem onEntry_choices (n : Line) (f : Entry → Entry) : (onEntry n f s).choices = s.choices := rfl
@[simp] theorem onEntry_pending (n : Line) (f : Entry → Entry) : (onEntry n f s).pending = s.pending := rfl

/-! ### onEntries -/

@[simp] theorem onEntries_clock (ns : List Line) (f : Entry → Entry) :
    (onEntries ns f s).clock =
      s.clock := by unfold onEntries; rfl
@[simp] theorem onEntries_books (ns : List Line) (f : Entry → Entry) :
    (onEntries ns f s).books =
      s.books := by unfold onEntries; rfl
@[simp] theorem onEntries_engine (ns : List Line) (f : Entry → Entry) :
    (onEntries ns f s).engine =
      s.engine := by unfold onEntries; rfl
@[simp] theorem onEntries_lines (ns : List Line) (f : Entry → Entry) :
    (onEntries ns f s).lines =
      s.lines := by unfold onEntries; rfl
@[simp] theorem onEntries_table (ns : List Line) (f : Entry → Entry) :
    (onEntries ns f s).table =
      Vector.ofFn fun n => if ns.contains n then f (row s.table n) else row s.table n := by unfold onEntries; rfl
@[simp] theorem onEntries_quotes (ns : List Line) (f : Entry → Entry) :
    (onEntries ns f s).quotes =
      s.quotes := by unfold onEntries; rfl
@[simp] theorem onEntries_sales (ns : List Line) (f : Entry → Entry) :
    (onEntries ns f s).sales =
      s.sales := by unfold onEntries; rfl
@[simp] theorem onEntries_permits (ns : List Line) (f : Entry → Entry) :
    (onEntries ns f s).permits =
      s.permits := by unfold onEntries; rfl
@[simp] theorem onEntries_cover (ns : List Line) (f : Entry → Entry) :
    (onEntries ns f s).cover =
      s.cover := by unfold onEntries; rfl
@[simp] theorem onEntries_cash (ns : List Line) (f : Entry → Entry) : (onEntries ns f s).cash = s.cash := by unfold onEntries; rfl
@[simp] theorem onEntries_faults (ns : List Line) (f : Entry → Entry) :
    (onEntries ns f s).faults =
      s.faults := by unfold onEntries; rfl
@[simp] theorem onEntries_notices (ns : List Line) (f : Entry → Entry) :
    (onEntries ns f s).notices =
      s.notices := by unfold onEntries; rfl
@[simp] theorem onEntries_ports (ns : List Line) (f : Entry → Entry) :
    (onEntries ns f s).ports =
      s.ports := by unfold onEntries; rfl
@[simp] theorem onEntries_pins (ns : List Line) (f : Entry → Entry) : (onEntries ns f s).pins = s.pins := by unfold onEntries; rfl
@[simp] theorem onEntries_wire (ns : List Line) (f : Entry → Entry) : (onEntries ns f s).wire = s.wire := by unfold onEntries; rfl
@[simp] theorem onEntries_choices (ns : List Line) (f : Entry → Entry) :
    (onEntries ns f s).choices =
      s.choices := by unfold onEntries; rfl
@[simp] theorem onEntries_pending (ns : List Line) (f : Entry → Entry) :
    (onEntries ns f s).pending =
      s.pending := by unfold onEntries; rfl

/-! ### onLine -/

@[simp] theorem onLine_clock (n : Line) (f : LineUnit → LineUnit) : (onLine n f s).clock = s.clock := rfl
@[simp] theorem onLine_books (n : Line) (f : LineUnit → LineUnit) : (onLine n f s).books = s.books := rfl
@[simp] theorem onLine_engine (n : Line) (f : LineUnit → LineUnit) : (onLine n f s).engine = s.engine := rfl
@[simp] theorem onLine_lines (n : Line) (f : LineUnit → LineUnit) : (onLine n f s).lines = change s.lines n f := rfl
@[simp] theorem onLine_table (n : Line) (f : LineUnit → LineUnit) : (onLine n f s).table = s.table := rfl
@[simp] theorem onLine_quotes (n : Line) (f : LineUnit → LineUnit) : (onLine n f s).quotes = s.quotes := rfl
@[simp] theorem onLine_sales (n : Line) (f : LineUnit → LineUnit) : (onLine n f s).sales = s.sales := rfl
@[simp] theorem onLine_permits (n : Line) (f : LineUnit → LineUnit) : (onLine n f s).permits = s.permits := rfl
@[simp] theorem onLine_cover (n : Line) (f : LineUnit → LineUnit) : (onLine n f s).cover = s.cover := rfl
@[simp] theorem onLine_cash (n : Line) (f : LineUnit → LineUnit) : (onLine n f s).cash = s.cash := rfl
@[simp] theorem onLine_faults (n : Line) (f : LineUnit → LineUnit) : (onLine n f s).faults = s.faults := rfl
@[simp] theorem onLine_notices (n : Line) (f : LineUnit → LineUnit) : (onLine n f s).notices = s.notices := rfl
@[simp] theorem onLine_ports (n : Line) (f : LineUnit → LineUnit) : (onLine n f s).ports = s.ports := rfl
@[simp] theorem onLine_pins (n : Line) (f : LineUnit → LineUnit) : (onLine n f s).pins = s.pins := rfl
@[simp] theorem onLine_wire (n : Line) (f : LineUnit → LineUnit) : (onLine n f s).wire = s.wire := rfl
@[simp] theorem onLine_choices (n : Line) (f : LineUnit → LineUnit) : (onLine n f s).choices = s.choices := rfl
@[simp] theorem onLine_pending (n : Line) (f : LineUnit → LineUnit) : (onLine n f s).pending = s.pending := rfl

/-! ### answerPending -/

@[simp] theorem answerPending_clock (n : Line) (status : Status) (body : Body) :
    (answerPending n status body s).clock =
      s.clock := rfl
@[simp] theorem answerPending_books (n : Line) (status : Status) (body : Body) :
    (answerPending n status body s).books =
      s.books := rfl
@[simp] theorem answerPending_engine (n : Line) (status : Status) (body : Body) :
    (answerPending n status body s).engine =
      s.engine := rfl
@[simp] theorem answerPending_lines (n : Line) (status : Status) (body : Body) :
    (answerPending n status body s).lines =
      change s.lines n fun u => u.answered { status := status, body := body } (envelopeOf s n) := rfl
@[simp] theorem answerPending_table (n : Line) (status : Status) (body : Body) :
    (answerPending n status body s).table =
      s.table := rfl
@[simp] theorem answerPending_quotes (n : Line) (status : Status) (body : Body) :
    (answerPending n status body s).quotes =
      s.quotes := rfl
@[simp] theorem answerPending_sales (n : Line) (status : Status) (body : Body) :
    (answerPending n status body s).sales =
      s.sales := rfl
@[simp] theorem answerPending_permits (n : Line) (status : Status) (body : Body) :
    (answerPending n status body s).permits =
      s.permits := rfl
@[simp] theorem answerPending_cover (n : Line) (status : Status) (body : Body) :
    (answerPending n status body s).cover =
      s.cover := rfl
@[simp] theorem answerPending_cash (n : Line) (status : Status) (body : Body) :
    (answerPending n status body s).cash =
      s.cash := rfl
@[simp] theorem answerPending_faults (n : Line) (status : Status) (body : Body) :
    (answerPending n status body s).faults =
      s.faults := rfl
@[simp] theorem answerPending_notices (n : Line) (status : Status) (body : Body) :
    (answerPending n status body s).notices =
      s.notices := rfl
@[simp] theorem answerPending_ports (n : Line) (status : Status) (body : Body) :
    (answerPending n status body s).ports =
      s.ports := rfl
@[simp] theorem answerPending_pins (n : Line) (status : Status) (body : Body) :
    (answerPending n status body s).pins =
      s.pins := rfl
@[simp] theorem answerPending_wire (n : Line) (status : Status) (body : Body) :
    (answerPending n status body s).wire =
      s.wire := rfl
@[simp] theorem answerPending_choices (n : Line) (status : Status) (body : Body) :
    (answerPending n status body s).choices =
      s.choices := rfl
@[simp] theorem answerPending_pending (n : Line) (status : Status) (body : Body) :
    (answerPending n status body s).pending =
      s.pending := rfl

/-! ### replyAtOnce -/

@[simp] theorem replyAtOnce_clock (n : Line) (status : Status) (toPending : Bool) :
    (replyAtOnce n status toPending s).clock =
      s.clock := rfl
@[simp] theorem replyAtOnce_books (n : Line) (status : Status) (toPending : Bool) :
    (replyAtOnce n status toPending s).books =
      s.books := rfl
@[simp] theorem replyAtOnce_engine (n : Line) (status : Status) (toPending : Bool) :
    (replyAtOnce n status toPending s).engine =
      s.engine := rfl
@[simp] theorem replyAtOnce_lines (n : Line) (status : Status) (toPending : Bool) :
    (replyAtOnce n status toPending s).lines =
      change s.lines n fun u => LineUnit.reply { u with frame := none } { status := status, body := .empty } (envelopeOf s n) toPending := rfl
@[simp] theorem replyAtOnce_table (n : Line) (status : Status) (toPending : Bool) :
    (replyAtOnce n status toPending s).table =
      s.table := rfl
@[simp] theorem replyAtOnce_quotes (n : Line) (status : Status) (toPending : Bool) :
    (replyAtOnce n status toPending s).quotes =
      s.quotes := rfl
@[simp] theorem replyAtOnce_sales (n : Line) (status : Status) (toPending : Bool) :
    (replyAtOnce n status toPending s).sales =
      s.sales := rfl
@[simp] theorem replyAtOnce_permits (n : Line) (status : Status) (toPending : Bool) :
    (replyAtOnce n status toPending s).permits =
      s.permits := rfl
@[simp] theorem replyAtOnce_cover (n : Line) (status : Status) (toPending : Bool) :
    (replyAtOnce n status toPending s).cover =
      s.cover := rfl
@[simp] theorem replyAtOnce_cash (n : Line) (status : Status) (toPending : Bool) :
    (replyAtOnce n status toPending s).cash =
      s.cash := rfl
@[simp] theorem replyAtOnce_faults (n : Line) (status : Status) (toPending : Bool) :
    (replyAtOnce n status toPending s).faults =
      s.faults := rfl
@[simp] theorem replyAtOnce_notices (n : Line) (status : Status) (toPending : Bool) :
    (replyAtOnce n status toPending s).notices =
      s.notices := rfl
@[simp] theorem replyAtOnce_ports (n : Line) (status : Status) (toPending : Bool) :
    (replyAtOnce n status toPending s).ports =
      s.ports := rfl
@[simp] theorem replyAtOnce_pins (n : Line) (status : Status) (toPending : Bool) :
    (replyAtOnce n status toPending s).pins =
      s.pins := rfl
@[simp] theorem replyAtOnce_wire (n : Line) (status : Status) (toPending : Bool) :
    (replyAtOnce n status toPending s).wire =
      s.wire := rfl
@[simp] theorem replyAtOnce_choices (n : Line) (status : Status) (toPending : Bool) :
    (replyAtOnce n status toPending s).choices =
      s.choices := rfl
@[simp] theorem replyAtOnce_pending (n : Line) (status : Status) (toPending : Bool) :
    (replyAtOnce n status toPending s).pending =
      s.pending := rfl

/-! ### acceptRequest -/

@[simp] theorem acceptRequest_clock (n : Line) (k : RequestKind) : (acceptRequest n k s).clock = s.clock := rfl
@[simp] theorem acceptRequest_books (n : Line) (k : RequestKind) : (acceptRequest n k s).books = s.books := rfl
@[simp] theorem acceptRequest_engine (n : Line) (k : RequestKind) : (acceptRequest n k s).engine = s.engine := rfl
@[simp] theorem acceptRequest_lines (n : Line) (k : RequestKind) :
    (acceptRequest n k s).lines =
      change s.lines n fun u => { u with state := .pending, frame := none, request := some k, held := none } := rfl
@[simp] theorem acceptRequest_table (n : Line) (k : RequestKind) : (acceptRequest n k s).table = s.table := rfl
@[simp] theorem acceptRequest_quotes (n : Line) (k : RequestKind) : (acceptRequest n k s).quotes = s.quotes := rfl
@[simp] theorem acceptRequest_sales (n : Line) (k : RequestKind) : (acceptRequest n k s).sales = s.sales := rfl
@[simp] theorem acceptRequest_permits (n : Line) (k : RequestKind) : (acceptRequest n k s).permits = s.permits := rfl
@[simp] theorem acceptRequest_cover (n : Line) (k : RequestKind) : (acceptRequest n k s).cover = s.cover := rfl
@[simp] theorem acceptRequest_cash (n : Line) (k : RequestKind) : (acceptRequest n k s).cash = s.cash := rfl
@[simp] theorem acceptRequest_faults (n : Line) (k : RequestKind) : (acceptRequest n k s).faults = s.faults := rfl
@[simp] theorem acceptRequest_notices (n : Line) (k : RequestKind) : (acceptRequest n k s).notices = s.notices := rfl
@[simp] theorem acceptRequest_ports (n : Line) (k : RequestKind) : (acceptRequest n k s).ports = s.ports := rfl
@[simp] theorem acceptRequest_pins (n : Line) (k : RequestKind) : (acceptRequest n k s).pins = s.pins := rfl
@[simp] theorem acceptRequest_wire (n : Line) (k : RequestKind) : (acceptRequest n k s).wire = s.wire := rfl
@[simp] theorem acceptRequest_choices (n : Line) (k : RequestKind) : (acceptRequest n k s).choices = s.choices := rfl
@[simp] theorem acceptRequest_pending (n : Line) (k : RequestKind) : (acceptRequest n k s).pending = s.pending := rfl

/-! ### answerPort -/

@[simp] theorem answerPort_clock (id : PortId) (tag : Tag) (status : Status) (body : Body) :
    (answerPort id tag status body s).clock =
      s.clock := rfl
@[simp] theorem answerPort_books (id : PortId) (tag : Tag) (status : Status) (body : Body) :
    (answerPort id tag status body s).books =
      s.books := rfl
@[simp] theorem answerPort_engine (id : PortId) (tag : Tag) (status : Status) (body : Body) :
    (answerPort id tag status body s).engine =
      s.engine := rfl
@[simp] theorem answerPort_lines (id : PortId) (tag : Tag) (status : Status) (body : Body) :
    (answerPort id tag status body s).lines =
      s.lines := rfl
@[simp] theorem answerPort_table (id : PortId) (tag : Tag) (status : Status) (body : Body) :
    (answerPort id tag status body s).table =
      s.table := rfl
@[simp] theorem answerPort_quotes (id : PortId) (tag : Tag) (status : Status) (body : Body) :
    (answerPort id tag status body s).quotes =
      s.quotes := rfl
@[simp] theorem answerPort_sales (id : PortId) (tag : Tag) (status : Status) (body : Body) :
    (answerPort id tag status body s).sales =
      s.sales := rfl
@[simp] theorem answerPort_permits (id : PortId) (tag : Tag) (status : Status) (body : Body) :
    (answerPort id tag status body s).permits =
      s.permits := rfl
@[simp] theorem answerPort_cover (id : PortId) (tag : Tag) (status : Status) (body : Body) :
    (answerPort id tag status body s).cover =
      s.cover := rfl
@[simp] theorem answerPort_cash (id : PortId) (tag : Tag) (status : Status) (body : Body) :
    (answerPort id tag status body s).cash =
      s.cash := rfl
@[simp] theorem answerPort_faults (id : PortId) (tag : Tag) (status : Status) (body : Body) :
    (answerPort id tag status body s).faults =
      s.faults := rfl
@[simp] theorem answerPort_notices (id : PortId) (tag : Tag) (status : Status) (body : Body) :
    (answerPort id tag status body s).notices =
      s.notices := rfl
@[simp] theorem answerPort_ports (id : PortId) (tag : Tag) (status : Status) (body : Body) :
    (answerPort id tag status body s).ports =
      s.ports.onPort id fun p => p.append { tag := tag, status := status, body := body } s.clock.reading s.clock.state := rfl
@[simp] theorem answerPort_pins (id : PortId) (tag : Tag) (status : Status) (body : Body) :
    (answerPort id tag status body s).pins =
      s.pins := rfl
@[simp] theorem answerPort_wire (id : PortId) (tag : Tag) (status : Status) (body : Body) :
    (answerPort id tag status body s).wire =
      s.wire := rfl
@[simp] theorem answerPort_choices (id : PortId) (tag : Tag) (status : Status) (body : Body) :
    (answerPort id tag status body s).choices =
      s.choices := rfl
@[simp] theorem answerPort_pending (id : PortId) (tag : Tag) (status : Status) (body : Body) :
    (answerPort id tag status body s).pending =
      s.pending := rfl

/-! ### answerDeferred -/

@[simp] theorem answerDeferred_clock (id : PortId) (tag : Tag) (status : Status) (body : Body) :
    (answerDeferred id tag status body s).clock =
      s.clock := rfl
@[simp] theorem answerDeferred_books (id : PortId) (tag : Tag) (status : Status) (body : Body) :
    (answerDeferred id tag status body s).books =
      s.books := rfl
@[simp] theorem answerDeferred_engine (id : PortId) (tag : Tag) (status : Status) (body : Body) :
    (answerDeferred id tag status body s).engine =
      s.engine := rfl
@[simp] theorem answerDeferred_lines (id : PortId) (tag : Tag) (status : Status) (body : Body) :
    (answerDeferred id tag status body s).lines =
      s.lines := rfl
@[simp] theorem answerDeferred_table (id : PortId) (tag : Tag) (status : Status) (body : Body) :
    (answerDeferred id tag status body s).table =
      s.table := rfl
@[simp] theorem answerDeferred_quotes (id : PortId) (tag : Tag) (status : Status) (body : Body) :
    (answerDeferred id tag status body s).quotes =
      s.quotes := rfl
@[simp] theorem answerDeferred_sales (id : PortId) (tag : Tag) (status : Status) (body : Body) :
    (answerDeferred id tag status body s).sales =
      s.sales := rfl
@[simp] theorem answerDeferred_permits (id : PortId) (tag : Tag) (status : Status) (body : Body) :
    (answerDeferred id tag status body s).permits =
      s.permits := rfl
@[simp] theorem answerDeferred_cover (id : PortId) (tag : Tag) (status : Status) (body : Body) :
    (answerDeferred id tag status body s).cover =
      s.cover := rfl
@[simp] theorem answerDeferred_cash (id : PortId) (tag : Tag) (status : Status) (body : Body) :
    (answerDeferred id tag status body s).cash =
      s.cash := rfl
@[simp] theorem answerDeferred_faults (id : PortId) (tag : Tag) (status : Status) (body : Body) :
    (answerDeferred id tag status body s).faults =
      s.faults := rfl
@[simp] theorem answerDeferred_notices (id : PortId) (tag : Tag) (status : Status) (body : Body) :
    (answerDeferred id tag status body s).notices =
      s.notices := rfl
@[simp] theorem answerDeferred_ports (id : PortId) (tag : Tag) (status : Status) (body : Body) :
    (answerDeferred id tag status body s).ports =
      s.ports.onPort id fun p => Port.append { p with deferred := p.deferred - 1 } { tag := tag, status := status, body := body } s.clock.reading s.clock.state := rfl
@[simp] theorem answerDeferred_pins (id : PortId) (tag : Tag) (status : Status) (body : Body) :
    (answerDeferred id tag status body s).pins =
      s.pins := rfl
@[simp] theorem answerDeferred_wire (id : PortId) (tag : Tag) (status : Status) (body : Body) :
    (answerDeferred id tag status body s).wire =
      s.wire := rfl
@[simp] theorem answerDeferred_choices (id : PortId) (tag : Tag) (status : Status) (body : Body) :
    (answerDeferred id tag status body s).choices =
      s.choices := rfl
@[simp] theorem answerDeferred_pending (id : PortId) (tag : Tag) (status : Status) (body : Body) :
    (answerDeferred id tag status body s).pending =
      s.pending := rfl

/-! ### deferAnswer -/

@[simp] theorem deferAnswer_clock (id : PortId) : (deferAnswer id s).clock = s.clock := rfl
@[simp] theorem deferAnswer_books (id : PortId) : (deferAnswer id s).books = s.books := rfl
@[simp] theorem deferAnswer_engine (id : PortId) : (deferAnswer id s).engine = s.engine := rfl
@[simp] theorem deferAnswer_lines (id : PortId) : (deferAnswer id s).lines = s.lines := rfl
@[simp] theorem deferAnswer_table (id : PortId) : (deferAnswer id s).table = s.table := rfl
@[simp] theorem deferAnswer_quotes (id : PortId) : (deferAnswer id s).quotes = s.quotes := rfl
@[simp] theorem deferAnswer_sales (id : PortId) : (deferAnswer id s).sales = s.sales := rfl
@[simp] theorem deferAnswer_permits (id : PortId) : (deferAnswer id s).permits = s.permits := rfl
@[simp] theorem deferAnswer_cover (id : PortId) : (deferAnswer id s).cover = s.cover := rfl
@[simp] theorem deferAnswer_cash (id : PortId) : (deferAnswer id s).cash = s.cash := rfl
@[simp] theorem deferAnswer_faults (id : PortId) : (deferAnswer id s).faults = s.faults := rfl
@[simp] theorem deferAnswer_notices (id : PortId) : (deferAnswer id s).notices = s.notices := rfl
@[simp] theorem deferAnswer_ports (id : PortId) :
    (deferAnswer id s).ports =
      s.ports.onPort id fun p => { p with deferred := p.deferred + 1 } := rfl
@[simp] theorem deferAnswer_pins (id : PortId) : (deferAnswer id s).pins = s.pins := rfl
@[simp] theorem deferAnswer_wire (id : PortId) : (deferAnswer id s).wire = s.wire := rfl
@[simp] theorem deferAnswer_choices (id : PortId) : (deferAnswer id s).choices = s.choices := rfl
@[simp] theorem deferAnswer_pending (id : PortId) : (deferAnswer id s).pending = s.pending := rfl

/-! ### cancelQuote -/

@[simp] theorem cancelQuote_clock (n : Line) : (cancelQuote n s).clock = s.clock := rfl
@[simp] theorem cancelQuote_books (n : Line) : (cancelQuote n s).books = s.books := rfl
@[simp] theorem cancelQuote_engine (n : Line) : (cancelQuote n s).engine = s.engine := rfl
@[simp] theorem cancelQuote_lines (n : Line) : (cancelQuote n s).lines = s.lines := rfl
@[simp] theorem cancelQuote_table (n : Line) : (cancelQuote n s).table = s.table := rfl
@[simp] theorem cancelQuote_quotes (n : Line) : (cancelQuote n s).quotes = put s.quotes n none := rfl
@[simp] theorem cancelQuote_sales (n : Line) : (cancelQuote n s).sales = s.sales := rfl
@[simp] theorem cancelQuote_permits (n : Line) : (cancelQuote n s).permits = s.permits := rfl
@[simp] theorem cancelQuote_cover (n : Line) : (cancelQuote n s).cover = s.cover := rfl
@[simp] theorem cancelQuote_cash (n : Line) : (cancelQuote n s).cash = s.cash := rfl
@[simp] theorem cancelQuote_faults (n : Line) : (cancelQuote n s).faults = s.faults := rfl
@[simp] theorem cancelQuote_notices (n : Line) : (cancelQuote n s).notices = s.notices := rfl
@[simp] theorem cancelQuote_ports (n : Line) : (cancelQuote n s).ports = s.ports := rfl
@[simp] theorem cancelQuote_pins (n : Line) : (cancelQuote n s).pins = s.pins := rfl
@[simp] theorem cancelQuote_wire (n : Line) : (cancelQuote n s).wire = s.wire := rfl
@[simp] theorem cancelQuote_choices (n : Line) : (cancelQuote n s).choices = s.choices := rfl
@[simp] theorem cancelQuote_pending (n : Line) : (cancelQuote n s).pending = s.pending := rfl

/-! ### cancelAllQuotes -/

@[simp] theorem cancelAllQuotes_clock : (cancelAllQuotes s).clock = s.clock := rfl
@[simp] theorem cancelAllQuotes_books : (cancelAllQuotes s).books = s.books := rfl
@[simp] theorem cancelAllQuotes_engine : (cancelAllQuotes s).engine = s.engine := rfl
@[simp] theorem cancelAllQuotes_lines : (cancelAllQuotes s).lines = s.lines := rfl
@[simp] theorem cancelAllQuotes_table : (cancelAllQuotes s).table = s.table := rfl
@[simp] theorem cancelAllQuotes_quotes : (cancelAllQuotes s).quotes = Vector.replicate 16 none := rfl
@[simp] theorem cancelAllQuotes_sales : (cancelAllQuotes s).sales = s.sales := rfl
@[simp] theorem cancelAllQuotes_permits : (cancelAllQuotes s).permits = s.permits := rfl
@[simp] theorem cancelAllQuotes_cover : (cancelAllQuotes s).cover = s.cover := rfl
@[simp] theorem cancelAllQuotes_cash : (cancelAllQuotes s).cash = s.cash := rfl
@[simp] theorem cancelAllQuotes_faults : (cancelAllQuotes s).faults = s.faults := rfl
@[simp] theorem cancelAllQuotes_notices : (cancelAllQuotes s).notices = s.notices := rfl
@[simp] theorem cancelAllQuotes_ports : (cancelAllQuotes s).ports = s.ports := rfl
@[simp] theorem cancelAllQuotes_pins : (cancelAllQuotes s).pins = s.pins := rfl
@[simp] theorem cancelAllQuotes_wire : (cancelAllQuotes s).wire = s.wire := rfl
@[simp] theorem cancelAllQuotes_choices : (cancelAllQuotes s).choices = s.choices := rfl
@[simp] theorem cancelAllQuotes_pending : (cancelAllQuotes s).pending = s.pending := rfl

/-! ### onBooks -/

@[simp] theorem onBooks_clock (f : BookStore → BookStore) : (onBooks f s).clock = s.clock := rfl
@[simp] theorem onBooks_books (f : BookStore → BookStore) : (onBooks f s).books = f s.books := rfl
@[simp] theorem onBooks_engine (f : BookStore → BookStore) : (onBooks f s).engine = s.engine := rfl
@[simp] theorem onBooks_lines (f : BookStore → BookStore) : (onBooks f s).lines = s.lines := rfl
@[simp] theorem onBooks_table (f : BookStore → BookStore) : (onBooks f s).table = s.table := rfl
@[simp] theorem onBooks_quotes (f : BookStore → BookStore) : (onBooks f s).quotes = s.quotes := rfl
@[simp] theorem onBooks_sales (f : BookStore → BookStore) : (onBooks f s).sales = s.sales := rfl
@[simp] theorem onBooks_permits (f : BookStore → BookStore) : (onBooks f s).permits = s.permits := rfl
@[simp] theorem onBooks_cover (f : BookStore → BookStore) : (onBooks f s).cover = s.cover := rfl
@[simp] theorem onBooks_cash (f : BookStore → BookStore) : (onBooks f s).cash = s.cash := rfl
@[simp] theorem onBooks_faults (f : BookStore → BookStore) : (onBooks f s).faults = s.faults := rfl
@[simp] theorem onBooks_notices (f : BookStore → BookStore) : (onBooks f s).notices = s.notices := rfl
@[simp] theorem onBooks_ports (f : BookStore → BookStore) : (onBooks f s).ports = s.ports := rfl
@[simp] theorem onBooks_pins (f : BookStore → BookStore) : (onBooks f s).pins = s.pins := rfl
@[simp] theorem onBooks_wire (f : BookStore → BookStore) : (onBooks f s).wire = s.wire := rfl
@[simp] theorem onBooks_choices (f : BookStore → BookStore) : (onBooks f s).choices = s.choices := rfl
@[simp] theorem onBooks_pending (f : BookStore → BookStore) : (onBooks f s).pending = s.pending := rfl

/-! ### setBookChangeActive -/

@[simp] theorem setBookChangeActive_clock : (setBookChangeActive s).clock = s.clock := by unfold setBookChangeActive; rfl
@[simp] theorem setBookChangeActive_books : (setBookChangeActive s).books = s.books := by unfold setBookChangeActive; rfl
@[simp] theorem setBookChangeActive_engine : (setBookChangeActive s).engine = s.engine := by unfold setBookChangeActive; rfl
@[simp] theorem setBookChangeActive_lines : (setBookChangeActive s).lines = s.lines := by unfold setBookChangeActive; rfl
@[simp] theorem setBookChangeActive_table :
    (setBookChangeActive s).table =
      changeAll s.table fun e => if e.active then setBookChange e else e := by unfold setBookChangeActive; rfl
@[simp] theorem setBookChangeActive_quotes : (setBookChangeActive s).quotes = s.quotes := by unfold setBookChangeActive; rfl
@[simp] theorem setBookChangeActive_sales : (setBookChangeActive s).sales = s.sales := by unfold setBookChangeActive; rfl
@[simp] theorem setBookChangeActive_permits : (setBookChangeActive s).permits = s.permits := by unfold setBookChangeActive; rfl
@[simp] theorem setBookChangeActive_cover : (setBookChangeActive s).cover = s.cover := by unfold setBookChangeActive; rfl
@[simp] theorem setBookChangeActive_cash : (setBookChangeActive s).cash = s.cash := by unfold setBookChangeActive; rfl
@[simp] theorem setBookChangeActive_faults : (setBookChangeActive s).faults = s.faults := by unfold setBookChangeActive; rfl
@[simp] theorem setBookChangeActive_notices : (setBookChangeActive s).notices = s.notices := by unfold setBookChangeActive; rfl
@[simp] theorem setBookChangeActive_ports : (setBookChangeActive s).ports = s.ports := by unfold setBookChangeActive; rfl
@[simp] theorem setBookChangeActive_pins : (setBookChangeActive s).pins = s.pins := by unfold setBookChangeActive; rfl
@[simp] theorem setBookChangeActive_wire : (setBookChangeActive s).wire = s.wire := by unfold setBookChangeActive; rfl
@[simp] theorem setBookChangeActive_choices : (setBookChangeActive s).choices = s.choices := by unfold setBookChangeActive; rfl
@[simp] theorem setBookChangeActive_pending : (setBookChangeActive s).pending = s.pending := by unfold setBookChangeActive; rfl

/-! ### resetBookChangeAll -/

@[simp] theorem resetBookChangeAll_clock : (resetBookChangeAll s).clock = s.clock := rfl
@[simp] theorem resetBookChangeAll_books : (resetBookChangeAll s).books = s.books := rfl
@[simp] theorem resetBookChangeAll_engine : (resetBookChangeAll s).engine = s.engine := rfl
@[simp] theorem resetBookChangeAll_lines : (resetBookChangeAll s).lines = s.lines := rfl
@[simp] theorem resetBookChangeAll_table : (resetBookChangeAll s).table = changeAll s.table resetBookChange := rfl
@[simp] theorem resetBookChangeAll_quotes : (resetBookChangeAll s).quotes = s.quotes := rfl
@[simp] theorem resetBookChangeAll_sales : (resetBookChangeAll s).sales = s.sales := rfl
@[simp] theorem resetBookChangeAll_permits : (resetBookChangeAll s).permits = s.permits := rfl
@[simp] theorem resetBookChangeAll_cover : (resetBookChangeAll s).cover = s.cover := rfl
@[simp] theorem resetBookChangeAll_cash : (resetBookChangeAll s).cash = s.cash := rfl
@[simp] theorem resetBookChangeAll_faults : (resetBookChangeAll s).faults = s.faults := rfl
@[simp] theorem resetBookChangeAll_notices : (resetBookChangeAll s).notices = s.notices := rfl
@[simp] theorem resetBookChangeAll_ports : (resetBookChangeAll s).ports = s.ports := rfl
@[simp] theorem resetBookChangeAll_pins : (resetBookChangeAll s).pins = s.pins := rfl
@[simp] theorem resetBookChangeAll_wire : (resetBookChangeAll s).wire = s.wire := rfl
@[simp] theorem resetBookChangeAll_choices : (resetBookChangeAll s).choices = s.choices := rfl
@[simp] theorem resetBookChangeAll_pending : (resetBookChangeAll s).pending = s.pending := rfl

/-! ### refreshPermit -/

@[simp] theorem refreshPermit_clock (number : Nat) : (refreshPermit number s).clock = s.clock := rfl
@[simp] theorem refreshPermit_books (number : Nat) : (refreshPermit number s).books = s.books := rfl
@[simp] theorem refreshPermit_engine (number : Nat) : (refreshPermit number s).engine = s.engine := rfl
@[simp] theorem refreshPermit_lines (number : Nat) : (refreshPermit number s).lines = s.lines := rfl
@[simp] theorem refreshPermit_table (number : Nat) : (refreshPermit number s).table = s.table := rfl
@[simp] theorem refreshPermit_quotes (number : Nat) : (refreshPermit number s).quotes = s.quotes := rfl
@[simp] theorem refreshPermit_sales (number : Nat) : (refreshPermit number s).sales = s.sales := rfl
@[simp] theorem refreshPermit_permits (number : Nat) :
    (refreshPermit number s).permits =
      refreshIn s.permits number (today s) := rfl
@[simp] theorem refreshPermit_cover (number : Nat) : (refreshPermit number s).cover = s.cover := rfl
@[simp] theorem refreshPermit_cash (number : Nat) : (refreshPermit number s).cash = s.cash := rfl
@[simp] theorem refreshPermit_faults (number : Nat) : (refreshPermit number s).faults = s.faults := rfl
@[simp] theorem refreshPermit_notices (number : Nat) : (refreshPermit number s).notices = s.notices := rfl
@[simp] theorem refreshPermit_ports (number : Nat) : (refreshPermit number s).ports = s.ports := rfl
@[simp] theorem refreshPermit_pins (number : Nat) : (refreshPermit number s).pins = s.pins := rfl
@[simp] theorem refreshPermit_wire (number : Nat) : (refreshPermit number s).wire = s.wire := rfl
@[simp] theorem refreshPermit_choices (number : Nat) : (refreshPermit number s).choices = s.choices := rfl
@[simp] theorem refreshPermit_pending (number : Nat) : (refreshPermit number s).pending = s.pending := rfl

/-! ### removePermits -/

@[simp] theorem removePermits_clock : (removePermits s).clock = s.clock := rfl
@[simp] theorem removePermits_books : (removePermits s).books = s.books := rfl
@[simp] theorem removePermits_engine : (removePermits s).engine = s.engine := rfl
@[simp] theorem removePermits_lines : (removePermits s).lines = s.lines := rfl
@[simp] theorem removePermits_table : (removePermits s).table = s.table := rfl
@[simp] theorem removePermits_quotes : (removePermits s).quotes = s.quotes := rfl
@[simp] theorem removePermits_sales : (removePermits s).sales = s.sales := rfl
@[simp] theorem removePermits_permits : (removePermits s).permits = s.permits.filter fun p => !p.runOut (today s) := rfl
@[simp] theorem removePermits_cover : (removePermits s).cover = s.cover := rfl
@[simp] theorem removePermits_cash : (removePermits s).cash = s.cash := rfl
@[simp] theorem removePermits_faults : (removePermits s).faults = s.faults := rfl
@[simp] theorem removePermits_notices : (removePermits s).notices = s.notices := rfl
@[simp] theorem removePermits_ports : (removePermits s).ports = s.ports := rfl
@[simp] theorem removePermits_pins : (removePermits s).pins = s.pins := rfl
@[simp] theorem removePermits_wire : (removePermits s).wire = s.wire := rfl
@[simp] theorem removePermits_choices : (removePermits s).choices = s.choices := rfl
@[simp] theorem removePermits_pending : (removePermits s).pending = s.pending := rfl

/-! ### onOverrides -/

@[simp] theorem onOverrides_clock (f : List Override → List Override) :
    (onOverrides f s).clock =
      { s.clock with overrides := f s.clock.overrides } := rfl
@[simp] theorem onOverrides_books (f : List Override → List Override) : (onOverrides f s).books = s.books := rfl
@[simp] theorem onOverrides_engine (f : List Override → List Override) : (onOverrides f s).engine = s.engine := rfl
@[simp] theorem onOverrides_lines (f : List Override → List Override) : (onOverrides f s).lines = s.lines := rfl
@[simp] theorem onOverrides_table (f : List Override → List Override) : (onOverrides f s).table = s.table := rfl
@[simp] theorem onOverrides_quotes (f : List Override → List Override) : (onOverrides f s).quotes = s.quotes := rfl
@[simp] theorem onOverrides_sales (f : List Override → List Override) : (onOverrides f s).sales = s.sales := rfl
@[simp] theorem onOverrides_permits (f : List Override → List Override) : (onOverrides f s).permits = s.permits := rfl
@[simp] theorem onOverrides_cover (f : List Override → List Override) : (onOverrides f s).cover = s.cover := rfl
@[simp] theorem onOverrides_cash (f : List Override → List Override) : (onOverrides f s).cash = s.cash := rfl
@[simp] theorem onOverrides_faults (f : List Override → List Override) : (onOverrides f s).faults = s.faults := rfl
@[simp] theorem onOverrides_notices (f : List Override → List Override) : (onOverrides f s).notices = s.notices := rfl
@[simp] theorem onOverrides_ports (f : List Override → List Override) : (onOverrides f s).ports = s.ports := rfl
@[simp] theorem onOverrides_pins (f : List Override → List Override) : (onOverrides f s).pins = s.pins := rfl
@[simp] theorem onOverrides_wire (f : List Override → List Override) : (onOverrides f s).wire = s.wire := rfl
@[simp] theorem onOverrides_choices (f : List Override → List Override) : (onOverrides f s).choices = s.choices := rfl
@[simp] theorem onOverrides_pending (f : List Override → List Override) : (onOverrides f s).pending = s.pending := rfl

/-! ### onToday -/

@[simp] theorem onToday_clock (n : Line) (f : DayRecord → DayRecord) : (onToday n f s).clock = s.clock := rfl
@[simp] theorem onToday_books (n : Line) (f : DayRecord → DayRecord) : (onToday n f s).books = s.books := rfl
@[simp] theorem onToday_engine (n : Line) (f : DayRecord → DayRecord) : (onToday n f s).engine = s.engine := rfl
@[simp] theorem onToday_lines (n : Line) (f : DayRecord → DayRecord) : (onToday n f s).lines = s.lines := rfl
@[simp] theorem onToday_table (n : Line) (f : DayRecord → DayRecord) : (onToday n f s).table = s.table := rfl
@[simp] theorem onToday_quotes (n : Line) (f : DayRecord → DayRecord) : (onToday n f s).quotes = s.quotes := rfl
@[simp] theorem onToday_sales (n : Line) (f : DayRecord → DayRecord) :
    (onToday n f s).sales =
      { s.sales with totals := change s.sales.totals n (onDayRecord (today s) f) } := rfl
@[simp] theorem onToday_permits (n : Line) (f : DayRecord → DayRecord) : (onToday n f s).permits = s.permits := rfl
@[simp] theorem onToday_cover (n : Line) (f : DayRecord → DayRecord) : (onToday n f s).cover = s.cover := rfl
@[simp] theorem onToday_cash (n : Line) (f : DayRecord → DayRecord) : (onToday n f s).cash = s.cash := rfl
@[simp] theorem onToday_faults (n : Line) (f : DayRecord → DayRecord) : (onToday n f s).faults = s.faults := rfl
@[simp] theorem onToday_notices (n : Line) (f : DayRecord → DayRecord) : (onToday n f s).notices = s.notices := rfl
@[simp] theorem onToday_ports (n : Line) (f : DayRecord → DayRecord) : (onToday n f s).ports = s.ports := rfl
@[simp] theorem onToday_pins (n : Line) (f : DayRecord → DayRecord) : (onToday n f s).pins = s.pins := rfl
@[simp] theorem onToday_wire (n : Line) (f : DayRecord → DayRecord) : (onToday n f s).wire = s.wire := rfl
@[simp] theorem onToday_choices (n : Line) (f : DayRecord → DayRecord) : (onToday n f s).choices = s.choices := rfl
@[simp] theorem onToday_pending (n : Line) (f : DayRecord → DayRecord) : (onToday n f s).pending = s.pending := rfl

/-! ### openDayRecords -/

@[simp] theorem openDayRecords_clock : (openDayRecords s).clock = s.clock := by unfold openDayRecords; rfl
@[simp] theorem openDayRecords_books : (openDayRecords s).books = s.books := by unfold openDayRecords; rfl
@[simp] theorem openDayRecords_engine : (openDayRecords s).engine = s.engine := by unfold openDayRecords; rfl
@[simp] theorem openDayRecords_lines : (openDayRecords s).lines = s.lines := by unfold openDayRecords; rfl
@[simp] theorem openDayRecords_table : (openDayRecords s).table = s.table := by unfold openDayRecords; rfl
@[simp] theorem openDayRecords_quotes : (openDayRecords s).quotes = s.quotes := by unfold openDayRecords; rfl
@[simp] theorem openDayRecords_sales :
    (openDayRecords s).sales =
      { s.sales with totals := Vector.ofFn fun n => if (row s.table n).active then withDayRecord (today s) (row s.sales.totals n) else row s.sales.totals n } := by unfold openDayRecords; rfl
@[simp] theorem openDayRecords_permits : (openDayRecords s).permits = s.permits := by unfold openDayRecords; rfl
@[simp] theorem openDayRecords_cover : (openDayRecords s).cover = s.cover := by unfold openDayRecords; rfl
@[simp] theorem openDayRecords_cash : (openDayRecords s).cash = s.cash := by unfold openDayRecords; rfl
@[simp] theorem openDayRecords_faults : (openDayRecords s).faults = s.faults := by unfold openDayRecords; rfl
@[simp] theorem openDayRecords_notices : (openDayRecords s).notices = s.notices := by unfold openDayRecords; rfl
@[simp] theorem openDayRecords_ports : (openDayRecords s).ports = s.ports := by unfold openDayRecords; rfl
@[simp] theorem openDayRecords_pins : (openDayRecords s).pins = s.pins := by unfold openDayRecords; rfl
@[simp] theorem openDayRecords_wire : (openDayRecords s).wire = s.wire := by unfold openDayRecords; rfl
@[simp] theorem openDayRecords_choices : (openDayRecords s).choices = s.choices := by unfold openDayRecords; rfl
@[simp] theorem openDayRecords_pending : (openDayRecords s).pending = s.pending := by unfold openDayRecords; rfl

/-! ### onEngine -/

@[simp] theorem onEngine_clock (f : Engine → Engine) : (onEngine f s).clock = s.clock := rfl
@[simp] theorem onEngine_books (f : Engine → Engine) : (onEngine f s).books = s.books := rfl
@[simp] theorem onEngine_engine (f : Engine → Engine) : (onEngine f s).engine = f s.engine := rfl
@[simp] theorem onEngine_lines (f : Engine → Engine) : (onEngine f s).lines = s.lines := rfl
@[simp] theorem onEngine_table (f : Engine → Engine) : (onEngine f s).table = s.table := rfl
@[simp] theorem onEngine_quotes (f : Engine → Engine) : (onEngine f s).quotes = s.quotes := rfl
@[simp] theorem onEngine_sales (f : Engine → Engine) : (onEngine f s).sales = s.sales := rfl
@[simp] theorem onEngine_permits (f : Engine → Engine) : (onEngine f s).permits = s.permits := rfl
@[simp] theorem onEngine_cover (f : Engine → Engine) : (onEngine f s).cover = s.cover := rfl
@[simp] theorem onEngine_cash (f : Engine → Engine) : (onEngine f s).cash = s.cash := rfl
@[simp] theorem onEngine_faults (f : Engine → Engine) : (onEngine f s).faults = s.faults := rfl
@[simp] theorem onEngine_notices (f : Engine → Engine) : (onEngine f s).notices = s.notices := rfl
@[simp] theorem onEngine_ports (f : Engine → Engine) : (onEngine f s).ports = s.ports := rfl
@[simp] theorem onEngine_pins (f : Engine → Engine) : (onEngine f s).pins = s.pins := rfl
@[simp] theorem onEngine_wire (f : Engine → Engine) : (onEngine f s).wire = s.wire := rfl
@[simp] theorem onEngine_choices (f : Engine → Engine) : (onEngine f s).choices = s.choices := rfl
@[simp] theorem onEngine_pending (f : Engine → Engine) : (onEngine f s).pending = s.pending := rfl

/-! ### startWalk -/

@[simp] theorem startWalk_clock (w : Walk) : (startWalk w s).clock = s.clock := rfl
@[simp] theorem startWalk_books (w : Walk) : (startWalk w s).books = s.books.hold w.view := rfl
@[simp] theorem startWalk_engine (w : Walk) : (startWalk w s).engine = { s.engine with walk := some w } := rfl
@[simp] theorem startWalk_lines (w : Walk) : (startWalk w s).lines = s.lines := rfl
@[simp] theorem startWalk_table (w : Walk) : (startWalk w s).table = s.table := rfl
@[simp] theorem startWalk_quotes (w : Walk) : (startWalk w s).quotes = s.quotes := rfl
@[simp] theorem startWalk_sales (w : Walk) : (startWalk w s).sales = s.sales := rfl
@[simp] theorem startWalk_permits (w : Walk) : (startWalk w s).permits = s.permits := rfl
@[simp] theorem startWalk_cover (w : Walk) : (startWalk w s).cover = s.cover := rfl
@[simp] theorem startWalk_cash (w : Walk) : (startWalk w s).cash = s.cash := rfl
@[simp] theorem startWalk_faults (w : Walk) : (startWalk w s).faults = s.faults := rfl
@[simp] theorem startWalk_notices (w : Walk) : (startWalk w s).notices = s.notices := rfl
@[simp] theorem startWalk_ports (w : Walk) : (startWalk w s).ports = s.ports := rfl
@[simp] theorem startWalk_pins (w : Walk) : (startWalk w s).pins = s.pins := rfl
@[simp] theorem startWalk_wire (w : Walk) : (startWalk w s).wire = s.wire := rfl
@[simp] theorem startWalk_choices (w : Walk) : (startWalk w s).choices = s.choices := rfl
@[simp] theorem startWalk_pending (w : Walk) : (startWalk w s).pending = s.pending := rfl

/-! ### onCash -/

@[simp] theorem onCash_clock (f : CashUnit → CashUnit) : (onCash f s).clock = s.clock := rfl
@[simp] theorem onCash_books (f : CashUnit → CashUnit) : (onCash f s).books = s.books := rfl
@[simp] theorem onCash_engine (f : CashUnit → CashUnit) : (onCash f s).engine = s.engine := rfl
@[simp] theorem onCash_lines (f : CashUnit → CashUnit) : (onCash f s).lines = s.lines := rfl
@[simp] theorem onCash_table (f : CashUnit → CashUnit) : (onCash f s).table = s.table := rfl
@[simp] theorem onCash_quotes (f : CashUnit → CashUnit) : (onCash f s).quotes = s.quotes := rfl
@[simp] theorem onCash_sales (f : CashUnit → CashUnit) : (onCash f s).sales = s.sales := rfl
@[simp] theorem onCash_permits (f : CashUnit → CashUnit) : (onCash f s).permits = s.permits := rfl
@[simp] theorem onCash_cover (f : CashUnit → CashUnit) : (onCash f s).cover = s.cover := rfl
@[simp] theorem onCash_cash (f : CashUnit → CashUnit) : (onCash f s).cash = f s.cash := rfl
@[simp] theorem onCash_faults (f : CashUnit → CashUnit) : (onCash f s).faults = s.faults := rfl
@[simp] theorem onCash_notices (f : CashUnit → CashUnit) : (onCash f s).notices = s.notices := rfl
@[simp] theorem onCash_ports (f : CashUnit → CashUnit) : (onCash f s).ports = s.ports := rfl
@[simp] theorem onCash_pins (f : CashUnit → CashUnit) : (onCash f s).pins = s.pins := rfl
@[simp] theorem onCash_wire (f : CashUnit → CashUnit) : (onCash f s).wire = s.wire := rfl
@[simp] theorem onCash_choices (f : CashUnit → CashUnit) : (onCash f s).choices = s.choices := rfl
@[simp] theorem onCash_pending (f : CashUnit → CashUnit) : (onCash f s).pending = s.pending := rfl

/-! ### onTally -/

@[simp] theorem onTally_clock (n : Line) (f : Tally → Tally) : (onTally n f s).clock = s.clock := rfl
@[simp] theorem onTally_books (n : Line) (f : Tally → Tally) : (onTally n f s).books = s.books := rfl
@[simp] theorem onTally_engine (n : Line) (f : Tally → Tally) : (onTally n f s).engine = s.engine := rfl
@[simp] theorem onTally_lines (n : Line) (f : Tally → Tally) : (onTally n f s).lines = s.lines := rfl
@[simp] theorem onTally_table (n : Line) (f : Tally → Tally) : (onTally n f s).table = s.table := rfl
@[simp] theorem onTally_quotes (n : Line) (f : Tally → Tally) : (onTally n f s).quotes = s.quotes := rfl
@[simp] theorem onTally_sales (n : Line) (f : Tally → Tally) : (onTally n f s).sales = s.sales := rfl
@[simp] theorem onTally_permits (n : Line) (f : Tally → Tally) : (onTally n f s).permits = s.permits := rfl
@[simp] theorem onTally_cover (n : Line) (f : Tally → Tally) : (onTally n f s).cover = s.cover := rfl
@[simp] theorem onTally_cash (n : Line) (f : Tally → Tally) :
    (onTally n f s).cash =
      { s.cash with tallies := change s.cash.tallies n f } := rfl
@[simp] theorem onTally_faults (n : Line) (f : Tally → Tally) : (onTally n f s).faults = s.faults := rfl
@[simp] theorem onTally_notices (n : Line) (f : Tally → Tally) : (onTally n f s).notices = s.notices := rfl
@[simp] theorem onTally_ports (n : Line) (f : Tally → Tally) : (onTally n f s).ports = s.ports := rfl
@[simp] theorem onTally_pins (n : Line) (f : Tally → Tally) : (onTally n f s).pins = s.pins := rfl
@[simp] theorem onTally_wire (n : Line) (f : Tally → Tally) : (onTally n f s).wire = s.wire := rfl
@[simp] theorem onTally_choices (n : Line) (f : Tally → Tally) : (onTally n f s).choices = s.choices := rfl
@[simp] theorem onTally_pending (n : Line) (f : Tally → Tally) : (onTally n f s).pending = s.pending := rfl

/-! ### onSales -/

@[simp] theorem onSales_clock (f : SaleUnit → SaleUnit) : (onSales f s).clock = s.clock := rfl
@[simp] theorem onSales_books (f : SaleUnit → SaleUnit) : (onSales f s).books = s.books := rfl
@[simp] theorem onSales_engine (f : SaleUnit → SaleUnit) : (onSales f s).engine = s.engine := rfl
@[simp] theorem onSales_lines (f : SaleUnit → SaleUnit) : (onSales f s).lines = s.lines := rfl
@[simp] theorem onSales_table (f : SaleUnit → SaleUnit) : (onSales f s).table = s.table := rfl
@[simp] theorem onSales_quotes (f : SaleUnit → SaleUnit) : (onSales f s).quotes = s.quotes := rfl
@[simp] theorem onSales_sales (f : SaleUnit → SaleUnit) : (onSales f s).sales = f s.sales := rfl
@[simp] theorem onSales_permits (f : SaleUnit → SaleUnit) : (onSales f s).permits = s.permits := rfl
@[simp] theorem onSales_cover (f : SaleUnit → SaleUnit) : (onSales f s).cover = s.cover := rfl
@[simp] theorem onSales_cash (f : SaleUnit → SaleUnit) : (onSales f s).cash = s.cash := rfl
@[simp] theorem onSales_faults (f : SaleUnit → SaleUnit) : (onSales f s).faults = s.faults := rfl
@[simp] theorem onSales_notices (f : SaleUnit → SaleUnit) : (onSales f s).notices = s.notices := rfl
@[simp] theorem onSales_ports (f : SaleUnit → SaleUnit) : (onSales f s).ports = s.ports := rfl
@[simp] theorem onSales_pins (f : SaleUnit → SaleUnit) : (onSales f s).pins = s.pins := rfl
@[simp] theorem onSales_wire (f : SaleUnit → SaleUnit) : (onSales f s).wire = s.wire := rfl
@[simp] theorem onSales_choices (f : SaleUnit → SaleUnit) : (onSales f s).choices = s.choices := rfl
@[simp] theorem onSales_pending (f : SaleUnit → SaleUnit) : (onSales f s).pending = s.pending := rfl

/-! ### onCover -/

@[simp] theorem onCover_clock (f : CoverUnit → CoverUnit) : (onCover f s).clock = s.clock := rfl
@[simp] theorem onCover_books (f : CoverUnit → CoverUnit) : (onCover f s).books = s.books := rfl
@[simp] theorem onCover_engine (f : CoverUnit → CoverUnit) : (onCover f s).engine = s.engine := rfl
@[simp] theorem onCover_lines (f : CoverUnit → CoverUnit) : (onCover f s).lines = s.lines := rfl
@[simp] theorem onCover_table (f : CoverUnit → CoverUnit) : (onCover f s).table = s.table := rfl
@[simp] theorem onCover_quotes (f : CoverUnit → CoverUnit) : (onCover f s).quotes = s.quotes := rfl
@[simp] theorem onCover_sales (f : CoverUnit → CoverUnit) : (onCover f s).sales = s.sales := rfl
@[simp] theorem onCover_permits (f : CoverUnit → CoverUnit) : (onCover f s).permits = s.permits := rfl
@[simp] theorem onCover_cover (f : CoverUnit → CoverUnit) : (onCover f s).cover = f s.cover := rfl
@[simp] theorem onCover_cash (f : CoverUnit → CoverUnit) : (onCover f s).cash = s.cash := rfl
@[simp] theorem onCover_faults (f : CoverUnit → CoverUnit) : (onCover f s).faults = s.faults := rfl
@[simp] theorem onCover_notices (f : CoverUnit → CoverUnit) : (onCover f s).notices = s.notices := rfl
@[simp] theorem onCover_ports (f : CoverUnit → CoverUnit) : (onCover f s).ports = s.ports := rfl
@[simp] theorem onCover_pins (f : CoverUnit → CoverUnit) : (onCover f s).pins = s.pins := rfl
@[simp] theorem onCover_wire (f : CoverUnit → CoverUnit) : (onCover f s).wire = s.wire := rfl
@[simp] theorem onCover_choices (f : CoverUnit → CoverUnit) : (onCover f s).choices = s.choices := rfl
@[simp] theorem onCover_pending (f : CoverUnit → CoverUnit) : (onCover f s).pending = s.pending := rfl

/-! ### onClock -/

@[simp] theorem onClock_clock (f : Clock → Clock) : (onClock f s).clock = f s.clock := rfl
@[simp] theorem onClock_books (f : Clock → Clock) : (onClock f s).books = s.books := rfl
@[simp] theorem onClock_engine (f : Clock → Clock) : (onClock f s).engine = s.engine := rfl
@[simp] theorem onClock_lines (f : Clock → Clock) : (onClock f s).lines = s.lines := rfl
@[simp] theorem onClock_table (f : Clock → Clock) : (onClock f s).table = s.table := rfl
@[simp] theorem onClock_quotes (f : Clock → Clock) : (onClock f s).quotes = s.quotes := rfl
@[simp] theorem onClock_sales (f : Clock → Clock) : (onClock f s).sales = s.sales := rfl
@[simp] theorem onClock_permits (f : Clock → Clock) : (onClock f s).permits = s.permits := rfl
@[simp] theorem onClock_cover (f : Clock → Clock) : (onClock f s).cover = s.cover := rfl
@[simp] theorem onClock_cash (f : Clock → Clock) : (onClock f s).cash = s.cash := rfl
@[simp] theorem onClock_faults (f : Clock → Clock) : (onClock f s).faults = s.faults := rfl
@[simp] theorem onClock_notices (f : Clock → Clock) : (onClock f s).notices = s.notices := rfl
@[simp] theorem onClock_ports (f : Clock → Clock) : (onClock f s).ports = s.ports := rfl
@[simp] theorem onClock_pins (f : Clock → Clock) : (onClock f s).pins = s.pins := rfl
@[simp] theorem onClock_wire (f : Clock → Clock) : (onClock f s).wire = s.wire := rfl
@[simp] theorem onClock_choices (f : Clock → Clock) : (onClock f s).choices = s.choices := rfl
@[simp] theorem onClock_pending (f : Clock → Clock) : (onClock f s).pending = s.pending := rfl

/-! ### onPorts -/

@[simp] theorem onPorts_clock (f : PortUnit → PortUnit) : (onPorts f s).clock = s.clock := rfl
@[simp] theorem onPorts_books (f : PortUnit → PortUnit) : (onPorts f s).books = s.books := rfl
@[simp] theorem onPorts_engine (f : PortUnit → PortUnit) : (onPorts f s).engine = s.engine := rfl
@[simp] theorem onPorts_lines (f : PortUnit → PortUnit) : (onPorts f s).lines = s.lines := rfl
@[simp] theorem onPorts_table (f : PortUnit → PortUnit) : (onPorts f s).table = s.table := rfl
@[simp] theorem onPorts_quotes (f : PortUnit → PortUnit) : (onPorts f s).quotes = s.quotes := rfl
@[simp] theorem onPorts_sales (f : PortUnit → PortUnit) : (onPorts f s).sales = s.sales := rfl
@[simp] theorem onPorts_permits (f : PortUnit → PortUnit) : (onPorts f s).permits = s.permits := rfl
@[simp] theorem onPorts_cover (f : PortUnit → PortUnit) : (onPorts f s).cover = s.cover := rfl
@[simp] theorem onPorts_cash (f : PortUnit → PortUnit) : (onPorts f s).cash = s.cash := rfl
@[simp] theorem onPorts_faults (f : PortUnit → PortUnit) : (onPorts f s).faults = s.faults := rfl
@[simp] theorem onPorts_notices (f : PortUnit → PortUnit) : (onPorts f s).notices = s.notices := rfl
@[simp] theorem onPorts_ports (f : PortUnit → PortUnit) : (onPorts f s).ports = f s.ports := rfl
@[simp] theorem onPorts_pins (f : PortUnit → PortUnit) : (onPorts f s).pins = s.pins := rfl
@[simp] theorem onPorts_wire (f : PortUnit → PortUnit) : (onPorts f s).wire = s.wire := rfl
@[simp] theorem onPorts_choices (f : PortUnit → PortUnit) : (onPorts f s).choices = s.choices := rfl
@[simp] theorem onPorts_pending (f : PortUnit → PortUnit) : (onPorts f s).pending = s.pending := rfl

/-! ### acknowledge -/

@[simp] theorem acknowledge_clock (k : FaultName) : (acknowledge k s).clock = s.clock := rfl
@[simp] theorem acknowledge_books (k : FaultName) : (acknowledge k s).books = s.books := rfl
@[simp] theorem acknowledge_engine (k : FaultName) : (acknowledge k s).engine = s.engine := rfl
@[simp] theorem acknowledge_lines (k : FaultName) : (acknowledge k s).lines = s.lines := rfl
@[simp] theorem acknowledge_table (k : FaultName) : (acknowledge k s).table = s.table := rfl
@[simp] theorem acknowledge_quotes (k : FaultName) : (acknowledge k s).quotes = s.quotes := rfl
@[simp] theorem acknowledge_sales (k : FaultName) : (acknowledge k s).sales = s.sales := rfl
@[simp] theorem acknowledge_permits (k : FaultName) : (acknowledge k s).permits = s.permits := rfl
@[simp] theorem acknowledge_cover (k : FaultName) : (acknowledge k s).cover = s.cover := rfl
@[simp] theorem acknowledge_cash (k : FaultName) : (acknowledge k s).cash = s.cash := rfl
@[simp] theorem acknowledge_faults (k : FaultName) :
    (acknowledge k s).faults =
      k.put_ s.faults { k.record s.faults with state := .acknowledged, changed := now s } := rfl
@[simp] theorem acknowledge_notices (k : FaultName) : (acknowledge k s).notices = s.notices := rfl
@[simp] theorem acknowledge_ports (k : FaultName) : (acknowledge k s).ports = s.ports := rfl
@[simp] theorem acknowledge_pins (k : FaultName) : (acknowledge k s).pins = s.pins := rfl
@[simp] theorem acknowledge_wire (k : FaultName) : (acknowledge k s).wire = s.wire := rfl
@[simp] theorem acknowledge_choices (k : FaultName) : (acknowledge k s).choices = s.choices := rfl
@[simp] theorem acknowledge_pending (k : FaultName) : (acknowledge k s).pending = s.pending := rfl

end Sys2Proof.Machine
end

