-- ==== Sys2Proof/Laws/Tables.lean ====
section
/-!
SUPPORT. Laws/Tables.lean: reading after writing a table row, the lists kept in rising order of a key, and counts that
saturate.
-/
namespace Sys2Proof

/-! ## Rows -/

@[simp] theorem row_put_self {α : Type} {n : Nat} (t : Vector α n) (i : Fin n) (x : α) : row (put t i x) i = x := by
  simp [row, put]

theorem row_put_other {α : Type} {n : Nat} (t : Vector α n) {i j : Fin n} (x : α) (h : j ≠ i) :
    row (put t i x) j = row t j := by
  have : i.val ≠ j.val := fun e => h (Fin.ext e.symm)
  simp [row, put, this]

theorem row_put {α : Type} {n : Nat} (t : Vector α n) (i j : Fin n) (x : α) :
    row (put t i x) j = if j = i then x else row t j := by
  by_cases h : j = i
  · subst h; simp
  · rw [row_put_other t x h, if_neg h]

@[simp] theorem row_change_self {α : Type} {n : Nat} (t : Vector α n) (i : Fin n) (f : α → α) :
    row (change t i f) i = f (row t i) := by simp [change]

theorem row_change_other {α : Type} {n : Nat} (t : Vector α n) {i j : Fin n} (f : α → α) (h : j ≠ i) :
    row (change t i f) j = row t j := row_put_other t _ h

theorem row_change {α : Type} {n : Nat} (t : Vector α n) (i j : Fin n) (f : α → α) :
    row (change t i f) j = if j = i then f (row t i) else row t j := row_put t i j _

@[simp] theorem row_ofFn {α : Type} {n : Nat} (f : Fin n → α) (i : Fin n) : row (Vector.ofFn f) i = f i := by
  simp [row]

@[simp] theorem row_changeAll {α β : Type} {n : Nat} (t : Vector α n) (f : α → β) (i : Fin n) :
    row (changeAll t f) i = f (row t i) := by simp [changeAll]

@[simp] theorem row_replicate {α : Type} {n : Nat} (x : α) (i : Fin n) : row (Vector.replicate n x) i = x := by
  simp [row]

/-- Tables with equal rows are equal. -/
theorem table_ext {α : Type} {n : Nat} {s t : Vector α n} (h : ∀ i, row s i = row t i) : s = t := by
  apply Vector.ext
  intro i hi
  exact h ⟨i, hi⟩

theorem put_row_self {α : Type} {n : Nat} (t : Vector α n) (i : Fin n) : put t i (row t i) = t := by
  apply table_ext
  intro j
  rw [row_put]
  split
  · subst_vars; rfl
  · rfl

theorem someRow_iff {n : Nat} (p : Fin n → Bool) : someRow p = true ↔ ∃ i, p i = true := by
  simp [someRow]

theorem allRows_iff {n : Nat} (p : Fin n → Bool) : allRows p = true ↔ ∀ i, p i = true := by
  simp [allRows]

/-! ## Lists by key -/

/-- Reading the key just put gives what was put. -/
theorem lookup_upsert_self {α : Type} (key : α → Nat) (x : α) (l : List α) :
    lookup key (key x) (upsert key x l) = some x := by
  induction l with
  | nil => simp [upsert, lookup]
  | cons y ys ih =>
    unfold upsert
    split
    · simp [lookup]
    · split
      · simp [lookup]
      · rename_i h1 h2
        have : key y ≠ key x := fun e => h2 e.symm
        simpa [lookup, this] using ih

/-- Every other key reads as before. -/
theorem lookup_upsert_other {α : Type} (key : α → Nat) (x : α) (l : List α) {k : Nat} (h : k ≠ key x) :
    lookup key k (upsert key x l) = lookup key k l := by
  have hx : key x ≠ k := fun e => h e.symm
  induction l with
  | nil => simp [upsert, lookup, hx]
  | cons y ys ih =>
    unfold upsert
    split
    · simp [lookup, hx]
    · split
      · rename_i h1 h2
        have hy : key y ≠ k := fun e => hx (h2.trans e)
        simp [lookup, hx, hy]
      · by_cases hy : key y = k
        · simp [lookup, hy]
        · simpa [lookup, hy] using ih

/-- A dropped key reads as none. -/
theorem lookup_dropKey_self {α : Type} (key : α → Nat) (k : Nat) (l : List α) : lookup key k (dropKey key k l) = none := by
  simp [lookup, dropKey]

/-- Every other key reads as before. -/
theorem lookup_dropKey_other {α : Type} (key : α → Nat) (l : List α) {j k : Nat} (h : j ≠ k) :
    lookup key j (dropKey key k l) = lookup key j l := by
  induction l with
  | nil => rfl
  | cons y ys ih =>
    by_cases hy : key y = k
    · have hj : key y ≠ j := fun e => h (e.symm.trans hy)
      have h1 : dropKey key k (y :: ys) = dropKey key k ys := by simp [dropKey, hy]
      have h2 : lookup key j (y :: ys) = lookup key j ys := by simp [lookup, hj]
      rw [h1, h2, ih]
    · have h1 : dropKey key k (y :: ys) = y :: dropKey key k ys := by simp [dropKey, hy]
      by_cases hj : key y = j
      · simp [h1, lookup, hj]
      · have h2 : lookup key j (y :: ys) = lookup key j ys := by simp [lookup, hj]
        have h3 : lookup key j (y :: dropKey key k ys) = lookup key j (dropKey key k ys) := by simp [lookup, hj]
        rw [h1, h3, h2, ih]

/-- What `upsert` holds: what was put, or what was held. -/
theorem mem_of_mem_upsert {α : Type} (key : α → Nat) (x : α) (l : List α) {z : α} (h : z ∈ upsert key x l) :
    z = x ∨ z ∈ l := by
  induction l with
  | nil => simpa [upsert] using h
  | cons y ys ih =>
    unfold upsert at h
    split at h
    · simpa using h
    · split at h
      · rcases List.mem_cons.mp h with h | h
        · exact .inl h
        · exact .inr (List.mem_cons_of_mem _ h)
      · rcases List.mem_cons.mp h with h | h
        · exact .inr (h ▸ List.mem_cons_self)
        · rcases ih h with h | h
          · exact .inl h
          · exact .inr (List.mem_cons_of_mem _ h)

/-- `upsert` keeps a list in rising order. -/
theorem rising_upsert {α : Type} (key : α → Nat) (x : α) {l : List α} (h : Rising key l) : Rising key (upsert key x l) := by
  induction l with
  | nil => simp [upsert]
  | cons y ys ih =>
    have hy := List.pairwise_cons.mp h
    unfold upsert
    split
    · rename_i hlt
      refine List.pairwise_cons.mpr ⟨fun z hz => ?_, h⟩
      rcases List.mem_cons.mp hz with hz | hz
      · exact hz ▸ hlt
      · exact Nat.lt_trans hlt (hy.1 z hz)
    · split
      · rename_i _ heq
        exact List.pairwise_cons.mpr ⟨fun z hz => heq ▸ hy.1 z hz, hy.2⟩
      · rename_i h1 h2
        refine List.pairwise_cons.mpr ⟨fun z hz => ?_, ih hy.2⟩
        rcases mem_of_mem_upsert key x ys hz with hz | hz
        · subst hz; omega
        · exact hy.1 z hz

/-- `upsert` makes a list at most one longer. -/
theorem length_upsert_le {α : Type} (key : α → Nat) (x : α) (l : List α) : (upsert key x l).length ≤ l.length + 1 := by
  induction l with
  | nil => simp [upsert]
  | cons y ys ih =>
    unfold upsert
    split
    · simp
    · split
      · simp
      · simpa using ih

/-- `upsert` of a key the rising list holds keeps its length. -/
theorem length_upsert_of_held {α : Type} (key : α → Nat) (x : α) {l : List α} (h : Rising key l)
    (hk : (lookup key (key x) l).isSome = true) : (upsert key x l).length = l.length := by
  induction l with
  | nil => simp [lookup] at hk
  | cons y ys ih =>
    have hy := List.pairwise_cons.mp h
    unfold upsert
    split
    · rename_i hlt
      exfalso
      obtain ⟨z, hz⟩ := Option.isSome_iff_exists.mp hk
      have hmem := List.mem_of_find?_eq_some hz
      have hkey : key z = key x := by simpa using List.find?_some hz
      rcases List.mem_cons.mp hmem with e | e
      · subst e; omega
      · have := hy.1 z e; omega
    · split
      · simp
      · rename_i h1 h2
        have h3 : key y ≠ key x := fun e => h2 e.symm
        have : (lookup key (key x) ys).isSome = true := by simpa [lookup, h3] using hk
        simp [ih hy.2 this]

/-- A filtered list keeps its rising order. -/
theorem rising_filter {α : Type} (key : α → Nat) (p : α → Bool) {l : List α} (h : Rising key l) :
    Rising key (l.filter p) := List.Pairwise.sublist List.filter_sublist h

/-- A dropped key keeps the rising order. -/
theorem rising_dropKey {α : Type} (key : α → Nat) (k : Nat) {l : List α} (h : Rising key l) :
    Rising key (dropKey key k l) := rising_filter key _ h

/-- Changing elements without their key keeps the rising order. -/
theorem rising_map {α : Type} (key : α → Nat) (f : α → α) (hf : ∀ x, key (f x) = key x) {l : List α}
    (h : Rising key l) : Rising key (l.map f) := by
  unfold Rising at *
  rw [List.pairwise_map]
  exact h.imp (by intro a b hab; rw [hf, hf]; exact hab)

/-- Dropping the first elements keeps the rising order. -/
theorem rising_drop {α : Type} (key : α → Nat) (k : Nat) {l : List α} (h : Rising key l) : Rising key (l.drop k) :=
  List.Pairwise.sublist (List.drop_sublist k l) h

/-- A list with a key above all of its keys appended rises. -/
theorem rising_append_one {α : Type} (key : α → Nat) (x : α) {l : List α} (h : Rising key l)
    (hx : ∀ y ∈ l, key y < key x) : Rising key (l ++ [x]) := by
  unfold Rising at *
  rw [List.pairwise_append]
  exact ⟨h, by simp, fun a ha b hb => by rw [List.mem_singleton.mp hb]; exact hx a ha⟩

/-- Dropping a key the list holds makes it shorter. -/
theorem length_dropKey_of_mem {α : Type} (key : α → Nat) {x : α} {l : List α} (h : x ∈ l) :
    (dropKey key (key x) l).length < l.length := by
  unfold dropKey
  exact List.length_filter_lt_length_iff_exists.mpr ⟨x, h, by simp⟩

theorem length_dropKey_le {α : Type} (key : α → Nat) (k : Nat) (l : List α) : (dropKey key k l).length ≤ l.length :=
  List.length_filter_le ..

/-! ## Numbers -/

theorem saturate_le (top n k : Nat) : saturate top n k ≤ top := Nat.min_le_left ..

theorem rowNumber_some {rows n : Nat} (h : 1 ≤ n ∧ n ≤ rows) : rowNumber rows n = some ⟨n - 1, by omega⟩ := by
  simp [rowNumber, h]

theorem rowIndex_some {rows n : Nat} (h : n < rows) : rowIndex rows n = some ⟨n, h⟩ := by simp [rowIndex, h]

end Sys2Proof
end

