-- ==== Sys2Proof/Laws/Frames.lean ====
section
/-!
SUPPORT. Laws/Frames.lean: for each shared operation of the blocks, the parts of the state it may change: one frame lemma, and
for every other part the equation simp uses.
-/
namespace Sys2Proof.Machine

/-! ## Frames compose -/

theorem onlyChanges_refl (parts : List Part) (s : State) : onlyChanges parts s s := fun p _ => by cases p <;> rfl

theorem Part.agree_trans {p : Part} {s t u : State} (h : p.agree s t) (k : p.agree t u) : p.agree s u := by
  cases p <;> exact Eq.trans k h

theorem onlyChanges.trans {a b : List Part} {s t u : State} (h : onlyChanges a s t) (k : onlyChanges b t u) :
    onlyChanges (a ++ b) s u := fun p hp =>
  Part.agree_trans (h p fun hm => hp (List.mem_append_left _ hm)) (k p fun hm => hp (List.mem_append_right _ hm))

theorem onlyChanges.mono {a b : List Part} {s t : State} (h : onlyChanges a s t) (hab : ∀ p ∈ a, p ∈ b) :
    onlyChanges b s t := fun p hp => h p fun hm => hp (hab p hm)

/-- Steps of one footprint, taken one after another, have that footprint. -/
theorem foldl_frame {α : Type} (parts : List Part) (f : State → α → State) (h : ∀ s a, onlyChanges parts s (f s a))
    (l : List α) (s : State) : onlyChanges parts s (l.foldl f s) := by
  induction l generalizing s with
  | nil => exact onlyChanges_refl _ s
  | cons a l ih => exact ((h s a).trans (ih _)).mono (by simp)

variable (s : State)

/-! ## The plain updates -/

theorem latch_frame (n : Notice) : onlyChanges [.notices] s (latch n s) := by
  intro p hp; cases p <;> first | exact absurd (by decide) hp | rfl

theorem onEntry_frame (n : Line) (f : Entry → Entry) : onlyChanges [.table] s (onEntry n f s) := by
  intro p hp; cases p <;> first | exact absurd (by decide) hp | rfl

theorem onLine_frame (n : Line) (f : LineUnit → LineUnit) : onlyChanges [.lines] s (onLine n f s) := by
  intro p hp; cases p <;> first | exact absurd (by decide) hp | rfl

theorem onFaults_frame (f : Watch → Watch) : onlyChanges [.faults, .notices] s (onFaults f s) := by
  intro p hp; cases p <;> first | exact absurd (by decide) hp | rfl

theorem onEntries_frame (ns : List Line) (f : Entry → Entry) : onlyChanges [.table] s (onEntries ns f s) := by
  unfold onEntries; intro p hp; cases p <;> first | exact absurd (by decide) hp | rfl

theorem answerPending_frame (n : Line) (status : Status) (body : Body) : onlyChanges [.lines] s (answerPending n status body s) := by
  intro p hp; cases p <;> first | exact absurd (by decide) hp | rfl

theorem replyAtOnce_frame (n : Line) (status : Status) (toPending : Bool) : onlyChanges [.lines] s (replyAtOnce n status toPending s) := by
  intro p hp; cases p <;> first | exact absurd (by decide) hp | rfl

theorem acceptRequest_frame (n : Line) (k : RequestKind) : onlyChanges [.lines] s (acceptRequest n k s) := by
  intro p hp; cases p <;> first | exact absurd (by decide) hp | rfl

theorem answerPort_frame (id : PortId) (tag : Tag) (status : Status) (body : Body) : onlyChanges [.ports] s (answerPort id tag status body s) := by
  intro p hp; cases p <;> first | exact absurd (by decide) hp | rfl

theorem answerDeferred_frame (id : PortId) (tag : Tag) (status : Status) (body : Body) : onlyChanges [.ports] s (answerDeferred id tag status body s) := by
  intro p hp; cases p <;> first | exact absurd (by decide) hp | rfl

theorem deferAnswer_frame (id : PortId) : onlyChanges [.ports] s (deferAnswer id s) := by
  intro p hp; cases p <;> first | exact absurd (by decide) hp | rfl

theorem cancelQuote_frame (n : Line) : onlyChanges [.quotes] s (cancelQuote n s) := by
  intro p hp; cases p <;> first | exact absurd (by decide) hp | rfl

theorem cancelAllQuotes_frame : onlyChanges [.quotes] s (cancelAllQuotes s) := by
  intro p hp; cases p <;> first | exact absurd (by decide) hp | rfl

theorem onBooks_frame (f : BookStore → BookStore) : onlyChanges [.books] s (onBooks f s) := by
  intro p hp; cases p <;> first | exact absurd (by decide) hp | rfl

theorem setBookChangeActive_frame : onlyChanges [.table] s (setBookChangeActive s) := by
  unfold setBookChangeActive; intro p hp; cases p <;> first | exact absurd (by decide) hp | rfl

theorem resetBookChangeAll_frame : onlyChanges [.table] s (resetBookChangeAll s) := by
  unfold resetBookChangeAll; intro p hp; cases p <;> first | exact absurd (by decide) hp | rfl

theorem refreshPermit_frame (number : Nat) : onlyChanges [.permits] s (refreshPermit number s) := by
  intro p hp; cases p <;> first | exact absurd (by decide) hp | rfl

theorem removePermits_frame : onlyChanges [.permits] s (removePermits s) := by
  intro p hp; cases p <;> first | exact absurd (by decide) hp | rfl

theorem onOverrides_frame (f : List Override → List Override) : onlyChanges [.clock] s (onOverrides f s) := by
  intro p hp; cases p <;> first | exact absurd (by decide) hp | rfl

theorem onToday_frame (n : Line) (f : DayRecord → DayRecord) : onlyChanges [.sales] s (onToday n f s) := by
  intro p hp; cases p <;> first | exact absurd (by decide) hp | rfl

theorem openDayRecords_frame : onlyChanges [.sales] s (openDayRecords s) := by
  unfold openDayRecords; intro p hp; cases p <;> first | exact absurd (by decide) hp | rfl

theorem onEngine_frame (f : Engine → Engine) : onlyChanges [.engine] s (onEngine f s) := by
  intro p hp; cases p <;> first | exact absurd (by decide) hp | rfl

theorem startWalk_frame (w : Walk) : onlyChanges [.engine, .books] s (startWalk w s) := by
  intro p hp; cases p <;> first | exact absurd (by decide) hp | rfl

theorem onCash_frame (f : CashUnit → CashUnit) : onlyChanges [.cash] s (onCash f s) := by
  intro p hp; cases p <;> first | exact absurd (by decide) hp | rfl

theorem onTally_frame (n : Line) (f : Tally → Tally) : onlyChanges [.cash] s (onTally n f s) := by
  intro p hp; cases p <;> first | exact absurd (by decide) hp | rfl

theorem onSales_frame (f : SaleUnit → SaleUnit) : onlyChanges [.sales] s (onSales f s) := by
  intro p hp; cases p <;> first | exact absurd (by decide) hp | rfl

theorem onCover_frame (f : CoverUnit → CoverUnit) : onlyChanges [.cover] s (onCover f s) := by
  intro p hp; cases p <;> first | exact absurd (by decide) hp | rfl

theorem onClock_frame (f : Clock → Clock) : onlyChanges [.clock] s (onClock f s) := by
  intro p hp; cases p <;> first | exact absurd (by decide) hp | rfl

theorem onPorts_frame (f : PortUnit → PortUnit) : onlyChanges [.ports] s (onPorts f s) := by
  intro p hp; cases p <;> first | exact absurd (by decide) hp | rfl

theorem acknowledge_frame (k : FaultName) : onlyChanges [.faults] s (acknowledge k s) := by
  intro p hp; cases p <;> first | exact absurd (by decide) hp | rfl

/-! ## The operations of the blocks -/

/-! ### raiseFault -/

theorem raiseFault_frame (n : Line) (k : TermFault) (detail : Option Nat) :
    onlyChanges [.faults, .notices] s (raiseFault n k detail s) := by
  intro p hp; cases p <;> first | exact absurd (by decide) hp | rfl

@[simp] theorem raiseFault_clock (n : Line) (k : TermFault) (detail : Option Nat) : (raiseFault n k detail s).clock = s.clock :=
  raiseFault_frame s n k detail .clock (by decide)
@[simp] theorem raiseFault_books (n : Line) (k : TermFault) (detail : Option Nat) : (raiseFault n k detail s).books = s.books :=
  raiseFault_frame s n k detail .books (by decide)
@[simp] theorem raiseFault_engine (n : Line) (k : TermFault) (detail : Option Nat) : (raiseFault n k detail s).engine = s.engine :=
  raiseFault_frame s n k detail .engine (by decide)
@[simp] theorem raiseFault_lines (n : Line) (k : TermFault) (detail : Option Nat) : (raiseFault n k detail s).lines = s.lines :=
  raiseFault_frame s n k detail .lines (by decide)
@[simp] theorem raiseFault_table (n : Line) (k : TermFault) (detail : Option Nat) : (raiseFault n k detail s).table = s.table :=
  raiseFault_frame s n k detail .table (by decide)
@[simp] theorem raiseFault_quotes (n : Line) (k : TermFault) (detail : Option Nat) : (raiseFault n k detail s).quotes = s.quotes :=
  raiseFault_frame s n k detail .quotes (by decide)
@[simp] theorem raiseFault_sales (n : Line) (k : TermFault) (detail : Option Nat) : (raiseFault n k detail s).sales = s.sales :=
  raiseFault_frame s n k detail .sales (by decide)
@[simp] theorem raiseFault_permits (n : Line) (k : TermFault) (detail : Option Nat) : (raiseFault n k detail s).permits = s.permits :=
  raiseFault_frame s n k detail .permits (by decide)
@[simp] theorem raiseFault_cover (n : Line) (k : TermFault) (detail : Option Nat) : (raiseFault n k detail s).cover = s.cover :=
  raiseFault_frame s n k detail .cover (by decide)
@[simp] theorem raiseFault_cash (n : Line) (k : TermFault) (detail : Option Nat) : (raiseFault n k detail s).cash = s.cash :=
  raiseFault_frame s n k detail .cash (by decide)
@[simp] theorem raiseFault_ports (n : Line) (k : TermFault) (detail : Option Nat) : (raiseFault n k detail s).ports = s.ports :=
  raiseFault_frame s n k detail .ports (by decide)
@[simp] theorem raiseFault_pins (n : Line) (k : TermFault) (detail : Option Nat) : (raiseFault n k detail s).pins = s.pins :=
  raiseFault_frame s n k detail .pins (by decide)
@[simp] theorem raiseFault_wire (n : Line) (k : TermFault) (detail : Option Nat) : (raiseFault n k detail s).wire = s.wire :=
  raiseFault_frame s n k detail .wire (by decide)
@[simp] theorem raiseFault_choices (n : Line) (k : TermFault) (detail : Option Nat) : (raiseFault n k detail s).choices = s.choices :=
  raiseFault_frame s n k detail .choices (by decide)
@[simp] theorem raiseFault_pending (n : Line) (k : TermFault) (detail : Option Nat) : (raiseFault n k detail s).pending = s.pending :=
  raiseFault_frame s n k detail .pending (by decide)

/-! ### clearFaultOf -/

theorem clearFaultOf_frame (n : Line) (k : TermFault) :
    onlyChanges [.faults, .notices] s (clearFaultOf n k s) := by
  intro p hp; cases p <;> first | exact absurd (by decide) hp | rfl

@[simp] theorem clearFaultOf_clock (n : Line) (k : TermFault) : (clearFaultOf n k s).clock = s.clock :=
  clearFaultOf_frame s n k .clock (by decide)
@[simp] theorem clearFaultOf_books (n : Line) (k : TermFault) : (clearFaultOf n k s).books = s.books :=
  clearFaultOf_frame s n k .books (by decide)
@[simp] theorem clearFaultOf_engine (n : Line) (k : TermFault) : (clearFaultOf n k s).engine = s.engine :=
  clearFaultOf_frame s n k .engine (by decide)
@[simp] theorem clearFaultOf_lines (n : Line) (k : TermFault) : (clearFaultOf n k s).lines = s.lines :=
  clearFaultOf_frame s n k .lines (by decide)
@[simp] theorem clearFaultOf_table (n : Line) (k : TermFault) : (clearFaultOf n k s).table = s.table :=
  clearFaultOf_frame s n k .table (by decide)
@[simp] theorem clearFaultOf_quotes (n : Line) (k : TermFault) : (clearFaultOf n k s).quotes = s.quotes :=
  clearFaultOf_frame s n k .quotes (by decide)
@[simp] theorem clearFaultOf_sales (n : Line) (k : TermFault) : (clearFaultOf n k s).sales = s.sales :=
  clearFaultOf_frame s n k .sales (by decide)
@[simp] theorem clearFaultOf_permits (n : Line) (k : TermFault) : (clearFaultOf n k s).permits = s.permits :=
  clearFaultOf_frame s n k .permits (by decide)
@[simp] theorem clearFaultOf_cover (n : Line) (k : TermFault) : (clearFaultOf n k s).cover = s.cover :=
  clearFaultOf_frame s n k .cover (by decide)
@[simp] theorem clearFaultOf_cash (n : Line) (k : TermFault) : (clearFaultOf n k s).cash = s.cash :=
  clearFaultOf_frame s n k .cash (by decide)
@[simp] theorem clearFaultOf_ports (n : Line) (k : TermFault) : (clearFaultOf n k s).ports = s.ports :=
  clearFaultOf_frame s n k .ports (by decide)
@[simp] theorem clearFaultOf_pins (n : Line) (k : TermFault) : (clearFaultOf n k s).pins = s.pins :=
  clearFaultOf_frame s n k .pins (by decide)
@[simp] theorem clearFaultOf_wire (n : Line) (k : TermFault) : (clearFaultOf n k s).wire = s.wire :=
  clearFaultOf_frame s n k .wire (by decide)
@[simp] theorem clearFaultOf_choices (n : Line) (k : TermFault) : (clearFaultOf n k s).choices = s.choices :=
  clearFaultOf_frame s n k .choices (by decide)
@[simp] theorem clearFaultOf_pending (n : Line) (k : TermFault) : (clearFaultOf n k s).pending = s.pending :=
  clearFaultOf_frame s n k .pending (by decide)

/-! ### raiseZone -/

theorem raiseZone_frame (k : ZoneFault) (detail : Option Nat) :
    onlyChanges [.faults, .notices] s (raiseZone k detail s) := by
  intro p hp; cases p <;> first | exact absurd (by decide) hp | rfl

@[simp] theorem raiseZone_clock (k : ZoneFault) (detail : Option Nat) : (raiseZone k detail s).clock = s.clock :=
  raiseZone_frame s k detail .clock (by decide)
@[simp] theorem raiseZone_books (k : ZoneFault) (detail : Option Nat) : (raiseZone k detail s).books = s.books :=
  raiseZone_frame s k detail .books (by decide)
@[simp] theorem raiseZone_engine (k : ZoneFault) (detail : Option Nat) : (raiseZone k detail s).engine = s.engine :=
  raiseZone_frame s k detail .engine (by decide)
@[simp] theorem raiseZone_lines (k : ZoneFault) (detail : Option Nat) : (raiseZone k detail s).lines = s.lines :=
  raiseZone_frame s k detail .lines (by decide)
@[simp] theorem raiseZone_table (k : ZoneFault) (detail : Option Nat) : (raiseZone k detail s).table = s.table :=
  raiseZone_frame s k detail .table (by decide)
@[simp] theorem raiseZone_quotes (k : ZoneFault) (detail : Option Nat) : (raiseZone k detail s).quotes = s.quotes :=
  raiseZone_frame s k detail .quotes (by decide)
@[simp] theorem raiseZone_sales (k : ZoneFault) (detail : Option Nat) : (raiseZone k detail s).sales = s.sales :=
  raiseZone_frame s k detail .sales (by decide)
@[simp] theorem raiseZone_permits (k : ZoneFault) (detail : Option Nat) : (raiseZone k detail s).permits = s.permits :=
  raiseZone_frame s k detail .permits (by decide)
@[simp] theorem raiseZone_cover (k : ZoneFault) (detail : Option Nat) : (raiseZone k detail s).cover = s.cover :=
  raiseZone_frame s k detail .cover (by decide)
@[simp] theorem raiseZone_cash (k : ZoneFault) (detail : Option Nat) : (raiseZone k detail s).cash = s.cash :=
  raiseZone_frame s k detail .cash (by decide)
@[simp] theorem raiseZone_ports (k : ZoneFault) (detail : Option Nat) : (raiseZone k detail s).ports = s.ports :=
  raiseZone_frame s k detail .ports (by decide)
@[simp] theorem raiseZone_pins (k : ZoneFault) (detail : Option Nat) : (raiseZone k detail s).pins = s.pins :=
  raiseZone_frame s k detail .pins (by decide)
@[simp] theorem raiseZone_wire (k : ZoneFault) (detail : Option Nat) : (raiseZone k detail s).wire = s.wire :=
  raiseZone_frame s k detail .wire (by decide)
@[simp] theorem raiseZone_choices (k : ZoneFault) (detail : Option Nat) : (raiseZone k detail s).choices = s.choices :=
  raiseZone_frame s k detail .choices (by decide)
@[simp] theorem raiseZone_pending (k : ZoneFault) (detail : Option Nat) : (raiseZone k detail s).pending = s.pending :=
  raiseZone_frame s k detail .pending (by decide)

/-! ### clearZone -/

theorem clearZone_frame (k : ZoneFault) :
    onlyChanges [.faults, .notices] s (clearZone k s) := by
  intro p hp; cases p <;> first | exact absurd (by decide) hp | rfl

@[simp] theorem clearZone_clock (k : ZoneFault) : (clearZone k s).clock = s.clock :=
  clearZone_frame s k .clock (by decide)
@[simp] theorem clearZone_books (k : ZoneFault) : (clearZone k s).books = s.books :=
  clearZone_frame s k .books (by decide)
@[simp] theorem clearZone_engine (k : ZoneFault) : (clearZone k s).engine = s.engine :=
  clearZone_frame s k .engine (by decide)
@[simp] theorem clearZone_lines (k : ZoneFault) : (clearZone k s).lines = s.lines :=
  clearZone_frame s k .lines (by decide)
@[simp] theorem clearZone_table (k : ZoneFault) : (clearZone k s).table = s.table :=
  clearZone_frame s k .table (by decide)
@[simp] theorem clearZone_quotes (k : ZoneFault) : (clearZone k s).quotes = s.quotes :=
  clearZone_frame s k .quotes (by decide)
@[simp] theorem clearZone_sales (k : ZoneFault) : (clearZone k s).sales = s.sales :=
  clearZone_frame s k .sales (by decide)
@[simp] theorem clearZone_permits (k : ZoneFault) : (clearZone k s).permits = s.permits :=
  clearZone_frame s k .permits (by decide)
@[simp] theorem clearZone_cover (k : ZoneFault) : (clearZone k s).cover = s.cover :=
  clearZone_frame s k .cover (by decide)
@[simp] theorem clearZone_cash (k : ZoneFault) : (clearZone k s).cash = s.cash :=
  clearZone_frame s k .cash (by decide)
@[simp] theorem clearZone_ports (k : ZoneFault) : (clearZone k s).ports = s.ports :=
  clearZone_frame s k .ports (by decide)
@[simp] theorem clearZone_pins (k : ZoneFault) : (clearZone k s).pins = s.pins :=
  clearZone_frame s k .pins (by decide)
@[simp] theorem clearZone_wire (k : ZoneFault) : (clearZone k s).wire = s.wire :=
  clearZone_frame s k .wire (by decide)
@[simp] theorem clearZone_choices (k : ZoneFault) : (clearZone k s).choices = s.choices :=
  clearZone_frame s k .choices (by decide)
@[simp] theorem clearZone_pending (k : ZoneFault) : (clearZone k s).pending = s.pending :=
  clearZone_frame s k .pending (by decide)

/-! ### clearNamed -/

theorem clearNamed_frame (k : FaultName) :
    onlyChanges [.faults, .notices] s (clearNamed k s) := by
  unfold clearNamed; cases k
  · exact clearZone_frame s _
  · exact clearFaultOf_frame s _ _

@[simp] theorem clearNamed_clock (k : FaultName) : (clearNamed k s).clock = s.clock :=
  clearNamed_frame s k .clock (by decide)
@[simp] theorem clearNamed_books (k : FaultName) : (clearNamed k s).books = s.books :=
  clearNamed_frame s k .books (by decide)
@[simp] theorem clearNamed_engine (k : FaultName) : (clearNamed k s).engine = s.engine :=
  clearNamed_frame s k .engine (by decide)
@[simp] theorem clearNamed_lines (k : FaultName) : (clearNamed k s).lines = s.lines :=
  clearNamed_frame s k .lines (by decide)
@[simp] theorem clearNamed_table (k : FaultName) : (clearNamed k s).table = s.table :=
  clearNamed_frame s k .table (by decide)
@[simp] theorem clearNamed_quotes (k : FaultName) : (clearNamed k s).quotes = s.quotes :=
  clearNamed_frame s k .quotes (by decide)
@[simp] theorem clearNamed_sales (k : FaultName) : (clearNamed k s).sales = s.sales :=
  clearNamed_frame s k .sales (by decide)
@[simp] theorem clearNamed_permits (k : FaultName) : (clearNamed k s).permits = s.permits :=
  clearNamed_frame s k .permits (by decide)
@[simp] theorem clearNamed_cover (k : FaultName) : (clearNamed k s).cover = s.cover :=
  clearNamed_frame s k .cover (by decide)
@[simp] theorem clearNamed_cash (k : FaultName) : (clearNamed k s).cash = s.cash :=
  clearNamed_frame s k .cash (by decide)
@[simp] theorem clearNamed_ports (k : FaultName) : (clearNamed k s).ports = s.ports :=
  clearNamed_frame s k .ports (by decide)
@[simp] theorem clearNamed_pins (k : FaultName) : (clearNamed k s).pins = s.pins :=
  clearNamed_frame s k .pins (by decide)
@[simp] theorem clearNamed_wire (k : FaultName) : (clearNamed k s).wire = s.wire :=
  clearNamed_frame s k .wire (by decide)
@[simp] theorem clearNamed_choices (k : FaultName) : (clearNamed k s).choices = s.choices :=
  clearNamed_frame s k .choices (by decide)
@[simp] theorem clearNamed_pending (k : FaultName) : (clearNamed k s).pending = s.pending :=
  clearNamed_frame s k .pending (by decide)

/-! ### regrace -/

theorem regrace_frame (p : Fin 8) :
    onlyChanges [.faults, .notices] s (regrace p s) := by
  intro p hp; cases p <;> first | exact absurd (by decide) hp | rfl

@[simp] theorem regrace_clock (p : Fin 8) : (regrace p s).clock = s.clock :=
  regrace_frame s p .clock (by decide)
@[simp] theorem regrace_books (p : Fin 8) : (regrace p s).books = s.books :=
  regrace_frame s p .books (by decide)
@[simp] theorem regrace_engine (p : Fin 8) : (regrace p s).engine = s.engine :=
  regrace_frame s p .engine (by decide)
@[simp] theorem regrace_lines (p : Fin 8) : (regrace p s).lines = s.lines :=
  regrace_frame s p .lines (by decide)
@[simp] theorem regrace_table (p : Fin 8) : (regrace p s).table = s.table :=
  regrace_frame s p .table (by decide)
@[simp] theorem regrace_quotes (p : Fin 8) : (regrace p s).quotes = s.quotes :=
  regrace_frame s p .quotes (by decide)
@[simp] theorem regrace_sales (p : Fin 8) : (regrace p s).sales = s.sales :=
  regrace_frame s p .sales (by decide)
@[simp] theorem regrace_permits (p : Fin 8) : (regrace p s).permits = s.permits :=
  regrace_frame s p .permits (by decide)
@[simp] theorem regrace_cover (p : Fin 8) : (regrace p s).cover = s.cover :=
  regrace_frame s p .cover (by decide)
@[simp] theorem regrace_cash (p : Fin 8) : (regrace p s).cash = s.cash :=
  regrace_frame s p .cash (by decide)
@[simp] theorem regrace_ports (p : Fin 8) : (regrace p s).ports = s.ports :=
  regrace_frame s p .ports (by decide)
@[simp] theorem regrace_pins (p : Fin 8) : (regrace p s).pins = s.pins :=
  regrace_frame s p .pins (by decide)
@[simp] theorem regrace_wire (p : Fin 8) : (regrace p s).wire = s.wire :=
  regrace_frame s p .wire (by decide)
@[simp] theorem regrace_choices (p : Fin 8) : (regrace p s).choices = s.choices :=
  regrace_frame s p .choices (by decide)
@[simp] theorem regrace_pending (p : Fin 8) : (regrace p s).pending = s.pending :=
  regrace_frame s p .pending (by decide)

/-! ### reportFault -/

theorem reportFault_frame (n : Line) (k : TermFault) (isRaise : Bool) :
    onlyChanges [.faults, .notices] s (reportFault n k isRaise s) := by
  unfold reportFault; split
  · intro p hp; cases p <;> first | exact absurd (by decide) hp | rfl
  · exact clearFaultOf_frame s _ _

@[simp] theorem reportFault_clock (n : Line) (k : TermFault) (isRaise : Bool) : (reportFault n k isRaise s).clock = s.clock :=
  reportFault_frame s n k isRaise .clock (by decide)
@[simp] theorem reportFault_books (n : Line) (k : TermFault) (isRaise : Bool) : (reportFault n k isRaise s).books = s.books :=
  reportFault_frame s n k isRaise .books (by decide)
@[simp] theorem reportFault_engine (n : Line) (k : TermFault) (isRaise : Bool) : (reportFault n k isRaise s).engine = s.engine :=
  reportFault_frame s n k isRaise .engine (by decide)
@[simp] theorem reportFault_lines (n : Line) (k : TermFault) (isRaise : Bool) : (reportFault n k isRaise s).lines = s.lines :=
  reportFault_frame s n k isRaise .lines (by decide)
@[simp] theorem reportFault_table (n : Line) (k : TermFault) (isRaise : Bool) : (reportFault n k isRaise s).table = s.table :=
  reportFault_frame s n k isRaise .table (by decide)
@[simp] theorem reportFault_quotes (n : Line) (k : TermFault) (isRaise : Bool) : (reportFault n k isRaise s).quotes = s.quotes :=
  reportFault_frame s n k isRaise .quotes (by decide)
@[simp] theorem reportFault_sales (n : Line) (k : TermFault) (isRaise : Bool) : (reportFault n k isRaise s).sales = s.sales :=
  reportFault_frame s n k isRaise .sales (by decide)
@[simp] theorem reportFault_permits (n : Line) (k : TermFault) (isRaise : Bool) : (reportFault n k isRaise s).permits = s.permits :=
  reportFault_frame s n k isRaise .permits (by decide)
@[simp] theorem reportFault_cover (n : Line) (k : TermFault) (isRaise : Bool) : (reportFault n k isRaise s).cover = s.cover :=
  reportFault_frame s n k isRaise .cover (by decide)
@[simp] theorem reportFault_cash (n : Line) (k : TermFault) (isRaise : Bool) : (reportFault n k isRaise s).cash = s.cash :=
  reportFault_frame s n k isRaise .cash (by decide)
@[simp] theorem reportFault_ports (n : Line) (k : TermFault) (isRaise : Bool) : (reportFault n k isRaise s).ports = s.ports :=
  reportFault_frame s n k isRaise .ports (by decide)
@[simp] theorem reportFault_pins (n : Line) (k : TermFault) (isRaise : Bool) : (reportFault n k isRaise s).pins = s.pins :=
  reportFault_frame s n k isRaise .pins (by decide)
@[simp] theorem reportFault_wire (n : Line) (k : TermFault) (isRaise : Bool) : (reportFault n k isRaise s).wire = s.wire :=
  reportFault_frame s n k isRaise .wire (by decide)
@[simp] theorem reportFault_choices (n : Line) (k : TermFault) (isRaise : Bool) : (reportFault n k isRaise s).choices = s.choices :=
  reportFault_frame s n k isRaise .choices (by decide)
@[simp] theorem reportFault_pending (n : Line) (k : TermFault) (isRaise : Bool) : (reportFault n k isRaise s).pending = s.pending :=
  reportFault_frame s n k isRaise .pending (by decide)

/-! ### heard -/

theorem heard_frame (n : Line) :
    onlyChanges [.table, .faults, .notices] s (heard n s) := by
  intro p hp; cases p <;> first | exact absurd (by decide) hp | rfl

@[simp] theorem heard_clock (n : Line) : (heard n s).clock = s.clock :=
  heard_frame s n .clock (by decide)
@[simp] theorem heard_books (n : Line) : (heard n s).books = s.books :=
  heard_frame s n .books (by decide)
@[simp] theorem heard_engine (n : Line) : (heard n s).engine = s.engine :=
  heard_frame s n .engine (by decide)
@[simp] theorem heard_lines (n : Line) : (heard n s).lines = s.lines :=
  heard_frame s n .lines (by decide)
@[simp] theorem heard_quotes (n : Line) : (heard n s).quotes = s.quotes :=
  heard_frame s n .quotes (by decide)
@[simp] theorem heard_sales (n : Line) : (heard n s).sales = s.sales :=
  heard_frame s n .sales (by decide)
@[simp] theorem heard_permits (n : Line) : (heard n s).permits = s.permits :=
  heard_frame s n .permits (by decide)
@[simp] theorem heard_cover (n : Line) : (heard n s).cover = s.cover :=
  heard_frame s n .cover (by decide)
@[simp] theorem heard_cash (n : Line) : (heard n s).cash = s.cash :=
  heard_frame s n .cash (by decide)
@[simp] theorem heard_ports (n : Line) : (heard n s).ports = s.ports :=
  heard_frame s n .ports (by decide)
@[simp] theorem heard_pins (n : Line) : (heard n s).pins = s.pins :=
  heard_frame s n .pins (by decide)
@[simp] theorem heard_wire (n : Line) : (heard n s).wire = s.wire :=
  heard_frame s n .wire (by decide)
@[simp] theorem heard_choices (n : Line) : (heard n s).choices = s.choices :=
  heard_frame s n .choices (by decide)
@[simp] theorem heard_pending (n : Line) : (heard n s).pending = s.pending :=
  heard_frame s n .pending (by decide)

/-! ### countDiscard -/

theorem countDiscard_frame (n : Line) :
    onlyChanges [.table, .faults, .notices] s (countDiscard n s) := by
  unfold countDiscard; dsimp only; split
  · intro p hp; cases p <;> first | exact absurd (by decide) hp | rfl
  · intro p hp; cases p <;> first | exact absurd (by decide) hp | rfl

@[simp] theorem countDiscard_clock (n : Line) : (countDiscard n s).clock = s.clock :=
  countDiscard_frame s n .clock (by decide)
@[simp] theorem countDiscard_books (n : Line) : (countDiscard n s).books = s.books :=
  countDiscard_frame s n .books (by decide)
@[simp] theorem countDiscard_engine (n : Line) : (countDiscard n s).engine = s.engine :=
  countDiscard_frame s n .engine (by decide)
@[simp] theorem countDiscard_lines (n : Line) : (countDiscard n s).lines = s.lines :=
  countDiscard_frame s n .lines (by decide)
@[simp] theorem countDiscard_quotes (n : Line) : (countDiscard n s).quotes = s.quotes :=
  countDiscard_frame s n .quotes (by decide)
@[simp] theorem countDiscard_sales (n : Line) : (countDiscard n s).sales = s.sales :=
  countDiscard_frame s n .sales (by decide)
@[simp] theorem countDiscard_permits (n : Line) : (countDiscard n s).permits = s.permits :=
  countDiscard_frame s n .permits (by decide)
@[simp] theorem countDiscard_cover (n : Line) : (countDiscard n s).cover = s.cover :=
  countDiscard_frame s n .cover (by decide)
@[simp] theorem countDiscard_cash (n : Line) : (countDiscard n s).cash = s.cash :=
  countDiscard_frame s n .cash (by decide)
@[simp] theorem countDiscard_ports (n : Line) : (countDiscard n s).ports = s.ports :=
  countDiscard_frame s n .ports (by decide)
@[simp] theorem countDiscard_pins (n : Line) : (countDiscard n s).pins = s.pins :=
  countDiscard_frame s n .pins (by decide)
@[simp] theorem countDiscard_wire (n : Line) : (countDiscard n s).wire = s.wire :=
  countDiscard_frame s n .wire (by decide)
@[simp] theorem countDiscard_choices (n : Line) : (countDiscard n s).choices = s.choices :=
  countDiscard_frame s n .choices (by decide)
@[simp] theorem countDiscard_pending (n : Line) : (countDiscard n s).pending = s.pending :=
  countDiscard_frame s n .pending (by decide)

/-! ### discardFrame -/

theorem discardFrame_frame (n : Line) :
    onlyChanges [.lines, .table, .faults, .notices] s (discardFrame n s) := by
  unfold discardFrame
  exact ((countDiscard_frame s n).trans (onLine_frame _ _ _)).mono (by decide)

@[simp] theorem discardFrame_clock (n : Line) : (discardFrame n s).clock = s.clock :=
  discardFrame_frame s n .clock (by decide)
@[simp] theorem discardFrame_books (n : Line) : (discardFrame n s).books = s.books :=
  discardFrame_frame s n .books (by decide)
@[simp] theorem discardFrame_engine (n : Line) : (discardFrame n s).engine = s.engine :=
  discardFrame_frame s n .engine (by decide)
@[simp] theorem discardFrame_quotes (n : Line) : (discardFrame n s).quotes = s.quotes :=
  discardFrame_frame s n .quotes (by decide)
@[simp] theorem discardFrame_sales (n : Line) : (discardFrame n s).sales = s.sales :=
  discardFrame_frame s n .sales (by decide)
@[simp] theorem discardFrame_permits (n : Line) : (discardFrame n s).permits = s.permits :=
  discardFrame_frame s n .permits (by decide)
@[simp] theorem discardFrame_cover (n : Line) : (discardFrame n s).cover = s.cover :=
  discardFrame_frame s n .cover (by decide)
@[simp] theorem discardFrame_cash (n : Line) : (discardFrame n s).cash = s.cash :=
  discardFrame_frame s n .cash (by decide)
@[simp] theorem discardFrame_ports (n : Line) : (discardFrame n s).ports = s.ports :=
  discardFrame_frame s n .ports (by decide)
@[simp] theorem discardFrame_pins (n : Line) : (discardFrame n s).pins = s.pins :=
  discardFrame_frame s n .pins (by decide)
@[simp] theorem discardFrame_wire (n : Line) : (discardFrame n s).wire = s.wire :=
  discardFrame_frame s n .wire (by decide)
@[simp] theorem discardFrame_choices (n : Line) : (discardFrame n s).choices = s.choices :=
  discardFrame_frame s n .choices (by decide)
@[simp] theorem discardFrame_pending (n : Line) : (discardFrame n s).pending = s.pending :=
  discardFrame_frame s n .pending (by decide)

/-! ### collide -/

theorem collide_frame (n : Line) :
    onlyChanges [.lines, .table, .faults, .notices] s (collide n s) := by
  unfold collide; split
  · exact ((onLine_frame _ _ _).trans (countDiscard_frame _ n)).mono (by decide)
  · exact onlyChanges_refl _ s

@[simp] theorem collide_clock (n : Line) : (collide n s).clock = s.clock :=
  collide_frame s n .clock (by decide)
@[simp] theorem collide_books (n : Line) : (collide n s).books = s.books :=
  collide_frame s n .books (by decide)
@[simp] theorem collide_engine (n : Line) : (collide n s).engine = s.engine :=
  collide_frame s n .engine (by decide)
@[simp] theorem collide_quotes (n : Line) : (collide n s).quotes = s.quotes :=
  collide_frame s n .quotes (by decide)
@[simp] theorem collide_sales (n : Line) : (collide n s).sales = s.sales :=
  collide_frame s n .sales (by decide)
@[simp] theorem collide_permits (n : Line) : (collide n s).permits = s.permits :=
  collide_frame s n .permits (by decide)
@[simp] theorem collide_cover (n : Line) : (collide n s).cover = s.cover :=
  collide_frame s n .cover (by decide)
@[simp] theorem collide_cash (n : Line) : (collide n s).cash = s.cash :=
  collide_frame s n .cash (by decide)
@[simp] theorem collide_ports (n : Line) : (collide n s).ports = s.ports :=
  collide_frame s n .ports (by decide)
@[simp] theorem collide_pins (n : Line) : (collide n s).pins = s.pins :=
  collide_frame s n .pins (by decide)
@[simp] theorem collide_wire (n : Line) : (collide n s).wire = s.wire :=
  collide_frame s n .wire (by decide)
@[simp] theorem collide_choices (n : Line) : (collide n s).choices = s.choices :=
  collide_frame s n .choices (by decide)
@[simp] theorem collide_pending (n : Line) : (collide n s).pending = s.pending :=
  collide_frame s n .pending (by decide)

/-! ### withdraw -/

theorem withdraw_frame (n : Line) (byReset : Bool) :
    onlyChanges [.lines, .engine] s (withdraw n byReset s) := by
  unfold withdraw; split
  · dsimp only; split <;> (intro p hp; cases p <;> first | exact absurd (by decide) hp | rfl)
  · exact onlyChanges_refl _ s

@[simp] theorem withdraw_clock (n : Line) (byReset : Bool) : (withdraw n byReset s).clock = s.clock :=
  withdraw_frame s n byReset .clock (by decide)
@[simp] theorem withdraw_books (n : Line) (byReset : Bool) : (withdraw n byReset s).books = s.books :=
  withdraw_frame s n byReset .books (by decide)
@[simp] theorem withdraw_table (n : Line) (byReset : Bool) : (withdraw n byReset s).table = s.table :=
  withdraw_frame s n byReset .table (by decide)
@[simp] theorem withdraw_quotes (n : Line) (byReset : Bool) : (withdraw n byReset s).quotes = s.quotes :=
  withdraw_frame s n byReset .quotes (by decide)
@[simp] theorem withdraw_sales (n : Line) (byReset : Bool) : (withdraw n byReset s).sales = s.sales :=
  withdraw_frame s n byReset .sales (by decide)
@[simp] theorem withdraw_permits (n : Line) (byReset : Bool) : (withdraw n byReset s).permits = s.permits :=
  withdraw_frame s n byReset .permits (by decide)
@[simp] theorem withdraw_cover (n : Line) (byReset : Bool) : (withdraw n byReset s).cover = s.cover :=
  withdraw_frame s n byReset .cover (by decide)
@[simp] theorem withdraw_cash (n : Line) (byReset : Bool) : (withdraw n byReset s).cash = s.cash :=
  withdraw_frame s n byReset .cash (by decide)
@[simp] theorem withdraw_faults (n : Line) (byReset : Bool) : (withdraw n byReset s).faults = s.faults :=
  withdraw_frame s n byReset .faults (by decide)
@[simp] theorem withdraw_notices (n : Line) (byReset : Bool) : (withdraw n byReset s).notices = s.notices :=
  withdraw_frame s n byReset .notices (by decide)
@[simp] theorem withdraw_ports (n : Line) (byReset : Bool) : (withdraw n byReset s).ports = s.ports :=
  withdraw_frame s n byReset .ports (by decide)
@[simp] theorem withdraw_pins (n : Line) (byReset : Bool) : (withdraw n byReset s).pins = s.pins :=
  withdraw_frame s n byReset .pins (by decide)
@[simp] theorem withdraw_wire (n : Line) (byReset : Bool) : (withdraw n byReset s).wire = s.wire :=
  withdraw_frame s n byReset .wire (by decide)
@[simp] theorem withdraw_choices (n : Line) (byReset : Bool) : (withdraw n byReset s).choices = s.choices :=
  withdraw_frame s n byReset .choices (by decide)
@[simp] theorem withdraw_pending (n : Line) (byReset : Bool) : (withdraw n byReset s).pending = s.pending :=
  withdraw_frame s n byReset .pending (by decide)

/-! ### markWalk -/

theorem markWalk_frame (n : Line) (byReset : Bool) :
    onlyChanges [.engine] s (markWalk n byReset s) := by
  intro p hp; cases p <;> first | exact absurd (by decide) hp | rfl

@[simp] theorem markWalk_clock (n : Line) (byReset : Bool) : (markWalk n byReset s).clock = s.clock :=
  markWalk_frame s n byReset .clock (by decide)
@[simp] theorem markWalk_books (n : Line) (byReset : Bool) : (markWalk n byReset s).books = s.books :=
  markWalk_frame s n byReset .books (by decide)
@[simp] theorem markWalk_lines (n : Line) (byReset : Bool) : (markWalk n byReset s).lines = s.lines :=
  markWalk_frame s n byReset .lines (by decide)
@[simp] theorem markWalk_table (n : Line) (byReset : Bool) : (markWalk n byReset s).table = s.table :=
  markWalk_frame s n byReset .table (by decide)
@[simp] theorem markWalk_quotes (n : Line) (byReset : Bool) : (markWalk n byReset s).quotes = s.quotes :=
  markWalk_frame s n byReset .quotes (by decide)
@[simp] theorem markWalk_sales (n : Line) (byReset : Bool) : (markWalk n byReset s).sales = s.sales :=
  markWalk_frame s n byReset .sales (by decide)
@[simp] theorem markWalk_permits (n : Line) (byReset : Bool) : (markWalk n byReset s).permits = s.permits :=
  markWalk_frame s n byReset .permits (by decide)
@[simp] theorem markWalk_cover (n : Line) (byReset : Bool) : (markWalk n byReset s).cover = s.cover :=
  markWalk_frame s n byReset .cover (by decide)
@[simp] theorem markWalk_cash (n : Line) (byReset : Bool) : (markWalk n byReset s).cash = s.cash :=
  markWalk_frame s n byReset .cash (by decide)
@[simp] theorem markWalk_faults (n : Line) (byReset : Bool) : (markWalk n byReset s).faults = s.faults :=
  markWalk_frame s n byReset .faults (by decide)
@[simp] theorem markWalk_notices (n : Line) (byReset : Bool) : (markWalk n byReset s).notices = s.notices :=
  markWalk_frame s n byReset .notices (by decide)
@[simp] theorem markWalk_ports (n : Line) (byReset : Bool) : (markWalk n byReset s).ports = s.ports :=
  markWalk_frame s n byReset .ports (by decide)
@[simp] theorem markWalk_pins (n : Line) (byReset : Bool) : (markWalk n byReset s).pins = s.pins :=
  markWalk_frame s n byReset .pins (by decide)
@[simp] theorem markWalk_wire (n : Line) (byReset : Bool) : (markWalk n byReset s).wire = s.wire :=
  markWalk_frame s n byReset .wire (by decide)
@[simp] theorem markWalk_choices (n : Line) (byReset : Bool) : (markWalk n byReset s).choices = s.choices :=
  markWalk_frame s n byReset .choices (by decide)
@[simp] theorem markWalk_pending (n : Line) (byReset : Bool) : (markWalk n byReset s).pending = s.pending :=
  markWalk_frame s n byReset .pending (by decide)

/-! ### disturb -/

theorem disturb_frame (n : Line) (byReset : Bool) :
    onlyChanges [.lines, .engine, .quotes] s (disturb n byReset s) := by
  unfold disturb
  exact (((cancelQuote_frame s n).trans (withdraw_frame _ n byReset)).trans (markWalk_frame _ n byReset)).mono (by decide)

@[simp] theorem disturb_clock (n : Line) (byReset : Bool) : (disturb n byReset s).clock = s.clock :=
  disturb_frame s n byReset .clock (by decide)
@[simp] theorem disturb_books (n : Line) (byReset : Bool) : (disturb n byReset s).books = s.books :=
  disturb_frame s n byReset .books (by decide)
@[simp] theorem disturb_table (n : Line) (byReset : Bool) : (disturb n byReset s).table = s.table :=
  disturb_frame s n byReset .table (by decide)
@[simp] theorem disturb_sales (n : Line) (byReset : Bool) : (disturb n byReset s).sales = s.sales :=
  disturb_frame s n byReset .sales (by decide)
@[simp] theorem disturb_permits (n : Line) (byReset : Bool) : (disturb n byReset s).permits = s.permits :=
  disturb_frame s n byReset .permits (by decide)
@[simp] theorem disturb_cover (n : Line) (byReset : Bool) : (disturb n byReset s).cover = s.cover :=
  disturb_frame s n byReset .cover (by decide)
@[simp] theorem disturb_cash (n : Line) (byReset : Bool) : (disturb n byReset s).cash = s.cash :=
  disturb_frame s n byReset .cash (by decide)
@[simp] theorem disturb_faults (n : Line) (byReset : Bool) : (disturb n byReset s).faults = s.faults :=
  disturb_frame s n byReset .faults (by decide)
@[simp] theorem disturb_notices (n : Line) (byReset : Bool) : (disturb n byReset s).notices = s.notices :=
  disturb_frame s n byReset .notices (by decide)
@[simp] theorem disturb_ports (n : Line) (byReset : Bool) : (disturb n byReset s).ports = s.ports :=
  disturb_frame s n byReset .ports (by decide)
@[simp] theorem disturb_pins (n : Line) (byReset : Bool) : (disturb n byReset s).pins = s.pins :=
  disturb_frame s n byReset .pins (by decide)
@[simp] theorem disturb_wire (n : Line) (byReset : Bool) : (disturb n byReset s).wire = s.wire :=
  disturb_frame s n byReset .wire (by decide)
@[simp] theorem disturb_choices (n : Line) (byReset : Bool) : (disturb n byReset s).choices = s.choices :=
  disturb_frame s n byReset .choices (by decide)
@[simp] theorem disturb_pending (n : Line) (byReset : Bool) : (disturb n byReset s).pending = s.pending :=
  disturb_frame s n byReset .pending (by decide)

/-! ### changeMode -/

theorem changeMode_frame (n : Line) (f : Entry → Entry) :
    onlyChanges [.lines, .engine, .quotes, .table] s (changeMode n f s) := by
  unfold changeMode
  exact ((onEntry_frame s n f).trans (disturb_frame _ n false)).mono (by decide)

@[simp] theorem changeMode_clock (n : Line) (f : Entry → Entry) : (changeMode n f s).clock = s.clock :=
  changeMode_frame s n f .clock (by decide)
@[simp] theorem changeMode_books (n : Line) (f : Entry → Entry) : (changeMode n f s).books = s.books :=
  changeMode_frame s n f .books (by decide)
@[simp] theorem changeMode_sales (n : Line) (f : Entry → Entry) : (changeMode n f s).sales = s.sales :=
  changeMode_frame s n f .sales (by decide)
@[simp] theorem changeMode_permits (n : Line) (f : Entry → Entry) : (changeMode n f s).permits = s.permits :=
  changeMode_frame s n f .permits (by decide)
@[simp] theorem changeMode_cover (n : Line) (f : Entry → Entry) : (changeMode n f s).cover = s.cover :=
  changeMode_frame s n f .cover (by decide)
@[simp] theorem changeMode_cash (n : Line) (f : Entry → Entry) : (changeMode n f s).cash = s.cash :=
  changeMode_frame s n f .cash (by decide)
@[simp] theorem changeMode_faults (n : Line) (f : Entry → Entry) : (changeMode n f s).faults = s.faults :=
  changeMode_frame s n f .faults (by decide)
@[simp] theorem changeMode_notices (n : Line) (f : Entry → Entry) : (changeMode n f s).notices = s.notices :=
  changeMode_frame s n f .notices (by decide)
@[simp] theorem changeMode_ports (n : Line) (f : Entry → Entry) : (changeMode n f s).ports = s.ports :=
  changeMode_frame s n f .ports (by decide)
@[simp] theorem changeMode_pins (n : Line) (f : Entry → Entry) : (changeMode n f s).pins = s.pins :=
  changeMode_frame s n f .pins (by decide)
@[simp] theorem changeMode_wire (n : Line) (f : Entry → Entry) : (changeMode n f s).wire = s.wire :=
  changeMode_frame s n f .wire (by decide)
@[simp] theorem changeMode_choices (n : Line) (f : Entry → Entry) : (changeMode n f s).choices = s.choices :=
  changeMode_frame s n f .choices (by decide)
@[simp] theorem changeMode_pending (n : Line) (f : Entry → Entry) : (changeMode n f s).pending = s.pending :=
  changeMode_frame s n f .pending (by decide)

/-! ### endTestIfDue -/

theorem endTestIfDue_frame (n : Line) :
    onlyChanges [.lines, .engine, .quotes, .table] s (endTestIfDue n s) := by
  unfold endTestIfDue; split
  · exact changeMode_frame s n _
  · exact onlyChanges_refl _ s

@[simp] theorem endTestIfDue_clock (n : Line) : (endTestIfDue n s).clock = s.clock :=
  endTestIfDue_frame s n .clock (by decide)
@[simp] theorem endTestIfDue_books (n : Line) : (endTestIfDue n s).books = s.books :=
  endTestIfDue_frame s n .books (by decide)
@[simp] theorem endTestIfDue_sales (n : Line) : (endTestIfDue n s).sales = s.sales :=
  endTestIfDue_frame s n .sales (by decide)
@[simp] theorem endTestIfDue_permits (n : Line) : (endTestIfDue n s).permits = s.permits :=
  endTestIfDue_frame s n .permits (by decide)
@[simp] theorem endTestIfDue_cover (n : Line) : (endTestIfDue n s).cover = s.cover :=
  endTestIfDue_frame s n .cover (by decide)
@[simp] theorem endTestIfDue_cash (n : Line) : (endTestIfDue n s).cash = s.cash :=
  endTestIfDue_frame s n .cash (by decide)
@[simp] theorem endTestIfDue_faults (n : Line) : (endTestIfDue n s).faults = s.faults :=
  endTestIfDue_frame s n .faults (by decide)
@[simp] theorem endTestIfDue_notices (n : Line) : (endTestIfDue n s).notices = s.notices :=
  endTestIfDue_frame s n .notices (by decide)
@[simp] theorem endTestIfDue_ports (n : Line) : (endTestIfDue n s).ports = s.ports :=
  endTestIfDue_frame s n .ports (by decide)
@[simp] theorem endTestIfDue_pins (n : Line) : (endTestIfDue n s).pins = s.pins :=
  endTestIfDue_frame s n .pins (by decide)
@[simp] theorem endTestIfDue_wire (n : Line) : (endTestIfDue n s).wire = s.wire :=
  endTestIfDue_frame s n .wire (by decide)
@[simp] theorem endTestIfDue_choices (n : Line) : (endTestIfDue n s).choices = s.choices :=
  endTestIfDue_frame s n .choices (by decide)
@[simp] theorem endTestIfDue_pending (n : Line) : (endTestIfDue n s).pending = s.pending :=
  endTestIfDue_frame s n .pending (by decide)

/-! ### endTests -/

theorem endTests_frame :
    onlyChanges [.lines, .engine, .quotes, .table] s (endTests s) := by
  unfold endTests
  exact foldl_frame _ _ (fun s n => endTestIfDue_frame s n) _ s

@[simp] theorem endTests_clock : (endTests s).clock = s.clock :=
  endTests_frame s .clock (by decide)
@[simp] theorem endTests_books : (endTests s).books = s.books :=
  endTests_frame s .books (by decide)
@[simp] theorem endTests_sales : (endTests s).sales = s.sales :=
  endTests_frame s .sales (by decide)
@[simp] theorem endTests_permits : (endTests s).permits = s.permits :=
  endTests_frame s .permits (by decide)
@[simp] theorem endTests_cover : (endTests s).cover = s.cover :=
  endTests_frame s .cover (by decide)
@[simp] theorem endTests_cash : (endTests s).cash = s.cash :=
  endTests_frame s .cash (by decide)
@[simp] theorem endTests_faults : (endTests s).faults = s.faults :=
  endTests_frame s .faults (by decide)
@[simp] theorem endTests_notices : (endTests s).notices = s.notices :=
  endTests_frame s .notices (by decide)
@[simp] theorem endTests_ports : (endTests s).ports = s.ports :=
  endTests_frame s .ports (by decide)
@[simp] theorem endTests_pins : (endTests s).pins = s.pins :=
  endTests_frame s .pins (by decide)
@[simp] theorem endTests_wire : (endTests s).wire = s.wire :=
  endTests_frame s .wire (by decide)
@[simp] theorem endTests_choices : (endTests s).choices = s.choices :=
  endTests_frame s .choices (by decide)
@[simp] theorem endTests_pending : (endTests s).pending = s.pending :=
  endTests_frame s .pending (by decide)

/-! ### resetLine -/

theorem resetLine_frame (n : Line) :
    onlyChanges [.lines, .engine, .quotes, .table] s (resetLine n s) := by
  unfold resetLine
  exact (((onLine_frame s n _).trans (onEntry_frame _ n _)).trans (disturb_frame _ n true)).mono (by decide)

@[simp] theorem resetLine_clock (n : Line) : (resetLine n s).clock = s.clock :=
  resetLine_frame s n .clock (by decide)
@[simp] theorem resetLine_books (n : Line) : (resetLine n s).books = s.books :=
  resetLine_frame s n .books (by decide)
@[simp] theorem resetLine_sales (n : Line) : (resetLine n s).sales = s.sales :=
  resetLine_frame s n .sales (by decide)
@[simp] theorem resetLine_permits (n : Line) : (resetLine n s).permits = s.permits :=
  resetLine_frame s n .permits (by decide)
@[simp] theorem resetLine_cover (n : Line) : (resetLine n s).cover = s.cover :=
  resetLine_frame s n .cover (by decide)
@[simp] theorem resetLine_cash (n : Line) : (resetLine n s).cash = s.cash :=
  resetLine_frame s n .cash (by decide)
@[simp] theorem resetLine_faults (n : Line) : (resetLine n s).faults = s.faults :=
  resetLine_frame s n .faults (by decide)
@[simp] theorem resetLine_notices (n : Line) : (resetLine n s).notices = s.notices :=
  resetLine_frame s n .notices (by decide)
@[simp] theorem resetLine_ports (n : Line) : (resetLine n s).ports = s.ports :=
  resetLine_frame s n .ports (by decide)
@[simp] theorem resetLine_pins (n : Line) : (resetLine n s).pins = s.pins :=
  resetLine_frame s n .pins (by decide)
@[simp] theorem resetLine_wire (n : Line) : (resetLine n s).wire = s.wire :=
  resetLine_frame s n .wire (by decide)
@[simp] theorem resetLine_choices (n : Line) : (resetLine n s).choices = s.choices :=
  resetLine_frame s n .choices (by decide)
@[simp] theorem resetLine_pending (n : Line) : (resetLine n s).pending = s.pending :=
  resetLine_frame s n .pending (by decide)

/-! ### markAbsent -/

theorem markAbsent_frame (n : Line) :
    onlyChanges [.cash, .faults, .notices] s (markAbsent n s) := by
  unfold markAbsent; split <;> (intro p hp; cases p <;> first | exact absurd (by decide) hp | rfl)

@[simp] theorem markAbsent_clock (n : Line) : (markAbsent n s).clock = s.clock :=
  markAbsent_frame s n .clock (by decide)
@[simp] theorem markAbsent_books (n : Line) : (markAbsent n s).books = s.books :=
  markAbsent_frame s n .books (by decide)
@[simp] theorem markAbsent_engine (n : Line) : (markAbsent n s).engine = s.engine :=
  markAbsent_frame s n .engine (by decide)
@[simp] theorem markAbsent_lines (n : Line) : (markAbsent n s).lines = s.lines :=
  markAbsent_frame s n .lines (by decide)
@[simp] theorem markAbsent_table (n : Line) : (markAbsent n s).table = s.table :=
  markAbsent_frame s n .table (by decide)
@[simp] theorem markAbsent_quotes (n : Line) : (markAbsent n s).quotes = s.quotes :=
  markAbsent_frame s n .quotes (by decide)
@[simp] theorem markAbsent_sales (n : Line) : (markAbsent n s).sales = s.sales :=
  markAbsent_frame s n .sales (by decide)
@[simp] theorem markAbsent_permits (n : Line) : (markAbsent n s).permits = s.permits :=
  markAbsent_frame s n .permits (by decide)
@[simp] theorem markAbsent_cover (n : Line) : (markAbsent n s).cover = s.cover :=
  markAbsent_frame s n .cover (by decide)
@[simp] theorem markAbsent_ports (n : Line) : (markAbsent n s).ports = s.ports :=
  markAbsent_frame s n .ports (by decide)
@[simp] theorem markAbsent_pins (n : Line) : (markAbsent n s).pins = s.pins :=
  markAbsent_frame s n .pins (by decide)
@[simp] theorem markAbsent_wire (n : Line) : (markAbsent n s).wire = s.wire :=
  markAbsent_frame s n .wire (by decide)
@[simp] theorem markAbsent_choices (n : Line) : (markAbsent n s).choices = s.choices :=
  markAbsent_frame s n .choices (by decide)
@[simp] theorem markAbsent_pending (n : Line) : (markAbsent n s).pending = s.pending :=
  markAbsent_frame s n .pending (by decide)

/-! ### unmarkAbsent -/

theorem unmarkAbsent_frame (n : Line) :
    onlyChanges [.cash, .faults, .notices] s (unmarkAbsent n s) := by
  unfold unmarkAbsent; split <;> (intro p hp; cases p <;> first | exact absurd (by decide) hp | rfl)

@[simp] theorem unmarkAbsent_clock (n : Line) : (unmarkAbsent n s).clock = s.clock :=
  unmarkAbsent_frame s n .clock (by decide)
@[simp] theorem unmarkAbsent_books (n : Line) : (unmarkAbsent n s).books = s.books :=
  unmarkAbsent_frame s n .books (by decide)
@[simp] theorem unmarkAbsent_engine (n : Line) : (unmarkAbsent n s).engine = s.engine :=
  unmarkAbsent_frame s n .engine (by decide)
@[simp] theorem unmarkAbsent_lines (n : Line) : (unmarkAbsent n s).lines = s.lines :=
  unmarkAbsent_frame s n .lines (by decide)
@[simp] theorem unmarkAbsent_table (n : Line) : (unmarkAbsent n s).table = s.table :=
  unmarkAbsent_frame s n .table (by decide)
@[simp] theorem unmarkAbsent_quotes (n : Line) : (unmarkAbsent n s).quotes = s.quotes :=
  unmarkAbsent_frame s n .quotes (by decide)
@[simp] theorem unmarkAbsent_sales (n : Line) : (unmarkAbsent n s).sales = s.sales :=
  unmarkAbsent_frame s n .sales (by decide)
@[simp] theorem unmarkAbsent_permits (n : Line) : (unmarkAbsent n s).permits = s.permits :=
  unmarkAbsent_frame s n .permits (by decide)
@[simp] theorem unmarkAbsent_cover (n : Line) : (unmarkAbsent n s).cover = s.cover :=
  unmarkAbsent_frame s n .cover (by decide)
@[simp] theorem unmarkAbsent_ports (n : Line) : (unmarkAbsent n s).ports = s.ports :=
  unmarkAbsent_frame s n .ports (by decide)
@[simp] theorem unmarkAbsent_pins (n : Line) : (unmarkAbsent n s).pins = s.pins :=
  unmarkAbsent_frame s n .pins (by decide)
@[simp] theorem unmarkAbsent_wire (n : Line) : (unmarkAbsent n s).wire = s.wire :=
  unmarkAbsent_frame s n .wire (by decide)
@[simp] theorem unmarkAbsent_choices (n : Line) : (unmarkAbsent n s).choices = s.choices :=
  unmarkAbsent_frame s n .choices (by decide)
@[simp] theorem unmarkAbsent_pending (n : Line) : (unmarkAbsent n s).pending = s.pending :=
  unmarkAbsent_frame s n .pending (by decide)

/-! ### markNear -/

theorem markNear_frame (n : Line) :
    onlyChanges [.cash, .faults, .notices] s (markNear n s) := by
  unfold markNear; dsimp only; split <;> (intro p hp; cases p <;> first | exact absurd (by decide) hp | rfl)

@[simp] theorem markNear_clock (n : Line) : (markNear n s).clock = s.clock :=
  markNear_frame s n .clock (by decide)
@[simp] theorem markNear_books (n : Line) : (markNear n s).books = s.books :=
  markNear_frame s n .books (by decide)
@[simp] theorem markNear_engine (n : Line) : (markNear n s).engine = s.engine :=
  markNear_frame s n .engine (by decide)
@[simp] theorem markNear_lines (n : Line) : (markNear n s).lines = s.lines :=
  markNear_frame s n .lines (by decide)
@[simp] theorem markNear_table (n : Line) : (markNear n s).table = s.table :=
  markNear_frame s n .table (by decide)
@[simp] theorem markNear_quotes (n : Line) : (markNear n s).quotes = s.quotes :=
  markNear_frame s n .quotes (by decide)
@[simp] theorem markNear_sales (n : Line) : (markNear n s).sales = s.sales :=
  markNear_frame s n .sales (by decide)
@[simp] theorem markNear_permits (n : Line) : (markNear n s).permits = s.permits :=
  markNear_frame s n .permits (by decide)
@[simp] theorem markNear_cover (n : Line) : (markNear n s).cover = s.cover :=
  markNear_frame s n .cover (by decide)
@[simp] theorem markNear_ports (n : Line) : (markNear n s).ports = s.ports :=
  markNear_frame s n .ports (by decide)
@[simp] theorem markNear_pins (n : Line) : (markNear n s).pins = s.pins :=
  markNear_frame s n .pins (by decide)
@[simp] theorem markNear_wire (n : Line) : (markNear n s).wire = s.wire :=
  markNear_frame s n .wire (by decide)
@[simp] theorem markNear_choices (n : Line) : (markNear n s).choices = s.choices :=
  markNear_frame s n .choices (by decide)
@[simp] theorem markNear_pending (n : Line) : (markNear n s).pending = s.pending :=
  markNear_frame s n .pending (by decide)

/-! ### unmarkNear -/

theorem unmarkNear_frame (n : Line) :
    onlyChanges [.cash, .faults, .notices] s (unmarkNear n s) := by
  unfold unmarkNear; split <;> (intro p hp; cases p <;> first | exact absurd (by decide) hp | rfl)

@[simp] theorem unmarkNear_clock (n : Line) : (unmarkNear n s).clock = s.clock :=
  unmarkNear_frame s n .clock (by decide)
@[simp] theorem unmarkNear_books (n : Line) : (unmarkNear n s).books = s.books :=
  unmarkNear_frame s n .books (by decide)
@[simp] theorem unmarkNear_engine (n : Line) : (unmarkNear n s).engine = s.engine :=
  unmarkNear_frame s n .engine (by decide)
@[simp] theorem unmarkNear_lines (n : Line) : (unmarkNear n s).lines = s.lines :=
  unmarkNear_frame s n .lines (by decide)
@[simp] theorem unmarkNear_table (n : Line) : (unmarkNear n s).table = s.table :=
  unmarkNear_frame s n .table (by decide)
@[simp] theorem unmarkNear_quotes (n : Line) : (unmarkNear n s).quotes = s.quotes :=
  unmarkNear_frame s n .quotes (by decide)
@[simp] theorem unmarkNear_sales (n : Line) : (unmarkNear n s).sales = s.sales :=
  unmarkNear_frame s n .sales (by decide)
@[simp] theorem unmarkNear_permits (n : Line) : (unmarkNear n s).permits = s.permits :=
  unmarkNear_frame s n .permits (by decide)
@[simp] theorem unmarkNear_cover (n : Line) : (unmarkNear n s).cover = s.cover :=
  unmarkNear_frame s n .cover (by decide)
@[simp] theorem unmarkNear_ports (n : Line) : (unmarkNear n s).ports = s.ports :=
  unmarkNear_frame s n .ports (by decide)
@[simp] theorem unmarkNear_pins (n : Line) : (unmarkNear n s).pins = s.pins :=
  unmarkNear_frame s n .pins (by decide)
@[simp] theorem unmarkNear_wire (n : Line) : (unmarkNear n s).wire = s.wire :=
  unmarkNear_frame s n .wire (by decide)
@[simp] theorem unmarkNear_choices (n : Line) : (unmarkNear n s).choices = s.choices :=
  unmarkNear_frame s n .choices (by decide)
@[simp] theorem unmarkNear_pending (n : Line) : (unmarkNear n s).pending = s.pending :=
  unmarkNear_frame s n .pending (by decide)

/-! ### markFull -/

theorem markFull_frame (n : Line) :
    onlyChanges [.cash, .faults, .notices] s (markFull n s) := by
  unfold markFull; dsimp only; split <;> (intro p hp; cases p <;> first | exact absurd (by decide) hp | rfl)

@[simp] theorem markFull_clock (n : Line) : (markFull n s).clock = s.clock :=
  markFull_frame s n .clock (by decide)
@[simp] theorem markFull_books (n : Line) : (markFull n s).books = s.books :=
  markFull_frame s n .books (by decide)
@[simp] theorem markFull_engine (n : Line) : (markFull n s).engine = s.engine :=
  markFull_frame s n .engine (by decide)
@[simp] theorem markFull_lines (n : Line) : (markFull n s).lines = s.lines :=
  markFull_frame s n .lines (by decide)
@[simp] theorem markFull_table (n : Line) : (markFull n s).table = s.table :=
  markFull_frame s n .table (by decide)
@[simp] theorem markFull_quotes (n : Line) : (markFull n s).quotes = s.quotes :=
  markFull_frame s n .quotes (by decide)
@[simp] theorem markFull_sales (n : Line) : (markFull n s).sales = s.sales :=
  markFull_frame s n .sales (by decide)
@[simp] theorem markFull_permits (n : Line) : (markFull n s).permits = s.permits :=
  markFull_frame s n .permits (by decide)
@[simp] theorem markFull_cover (n : Line) : (markFull n s).cover = s.cover :=
  markFull_frame s n .cover (by decide)
@[simp] theorem markFull_ports (n : Line) : (markFull n s).ports = s.ports :=
  markFull_frame s n .ports (by decide)
@[simp] theorem markFull_pins (n : Line) : (markFull n s).pins = s.pins :=
  markFull_frame s n .pins (by decide)
@[simp] theorem markFull_wire (n : Line) : (markFull n s).wire = s.wire :=
  markFull_frame s n .wire (by decide)
@[simp] theorem markFull_choices (n : Line) : (markFull n s).choices = s.choices :=
  markFull_frame s n .choices (by decide)
@[simp] theorem markFull_pending (n : Line) : (markFull n s).pending = s.pending :=
  markFull_frame s n .pending (by decide)

/-! ### unmarkFull -/

theorem unmarkFull_frame (n : Line) :
    onlyChanges [.cash, .faults, .notices] s (unmarkFull n s) := by
  unfold unmarkFull; split <;> (intro p hp; cases p <;> first | exact absurd (by decide) hp | rfl)

@[simp] theorem unmarkFull_clock (n : Line) : (unmarkFull n s).clock = s.clock :=
  unmarkFull_frame s n .clock (by decide)
@[simp] theorem unmarkFull_books (n : Line) : (unmarkFull n s).books = s.books :=
  unmarkFull_frame s n .books (by decide)
@[simp] theorem unmarkFull_engine (n : Line) : (unmarkFull n s).engine = s.engine :=
  unmarkFull_frame s n .engine (by decide)
@[simp] theorem unmarkFull_lines (n : Line) : (unmarkFull n s).lines = s.lines :=
  unmarkFull_frame s n .lines (by decide)
@[simp] theorem unmarkFull_table (n : Line) : (unmarkFull n s).table = s.table :=
  unmarkFull_frame s n .table (by decide)
@[simp] theorem unmarkFull_quotes (n : Line) : (unmarkFull n s).quotes = s.quotes :=
  unmarkFull_frame s n .quotes (by decide)
@[simp] theorem unmarkFull_sales (n : Line) : (unmarkFull n s).sales = s.sales :=
  unmarkFull_frame s n .sales (by decide)
@[simp] theorem unmarkFull_permits (n : Line) : (unmarkFull n s).permits = s.permits :=
  unmarkFull_frame s n .permits (by decide)
@[simp] theorem unmarkFull_cover (n : Line) : (unmarkFull n s).cover = s.cover :=
  unmarkFull_frame s n .cover (by decide)
@[simp] theorem unmarkFull_ports (n : Line) : (unmarkFull n s).ports = s.ports :=
  unmarkFull_frame s n .ports (by decide)
@[simp] theorem unmarkFull_pins (n : Line) : (unmarkFull n s).pins = s.pins :=
  unmarkFull_frame s n .pins (by decide)
@[simp] theorem unmarkFull_wire (n : Line) : (unmarkFull n s).wire = s.wire :=
  unmarkFull_frame s n .wire (by decide)
@[simp] theorem unmarkFull_choices (n : Line) : (unmarkFull n s).choices = s.choices :=
  unmarkFull_frame s n .choices (by decide)
@[simp] theorem unmarkFull_pending (n : Line) : (unmarkFull n s).pending = s.pending :=
  unmarkFull_frame s n .pending (by decide)

/-! ### addCoins -/

theorem addCoins_frame (n : Line) (counts : Vector Nat 8) :
    onlyChanges [.cash, .faults, .notices] s (addCoins n counts s) := by
  unfold addCoins
  exact (((onTally_frame s n _).trans (markNear_frame _ n)).trans (markFull_frame _ n)).mono (by decide)

@[simp] theorem addCoins_clock (n : Line) (counts : Vector Nat 8) : (addCoins n counts s).clock = s.clock :=
  addCoins_frame s n counts .clock (by decide)
@[simp] theorem addCoins_books (n : Line) (counts : Vector Nat 8) : (addCoins n counts s).books = s.books :=
  addCoins_frame s n counts .books (by decide)
@[simp] theorem addCoins_engine (n : Line) (counts : Vector Nat 8) : (addCoins n counts s).engine = s.engine :=
  addCoins_frame s n counts .engine (by decide)
@[simp] theorem addCoins_lines (n : Line) (counts : Vector Nat 8) : (addCoins n counts s).lines = s.lines :=
  addCoins_frame s n counts .lines (by decide)
@[simp] theorem addCoins_table (n : Line) (counts : Vector Nat 8) : (addCoins n counts s).table = s.table :=
  addCoins_frame s n counts .table (by decide)
@[simp] theorem addCoins_quotes (n : Line) (counts : Vector Nat 8) : (addCoins n counts s).quotes = s.quotes :=
  addCoins_frame s n counts .quotes (by decide)
@[simp] theorem addCoins_sales (n : Line) (counts : Vector Nat 8) : (addCoins n counts s).sales = s.sales :=
  addCoins_frame s n counts .sales (by decide)
@[simp] theorem addCoins_permits (n : Line) (counts : Vector Nat 8) : (addCoins n counts s).permits = s.permits :=
  addCoins_frame s n counts .permits (by decide)
@[simp] theorem addCoins_cover (n : Line) (counts : Vector Nat 8) : (addCoins n counts s).cover = s.cover :=
  addCoins_frame s n counts .cover (by decide)
@[simp] theorem addCoins_ports (n : Line) (counts : Vector Nat 8) : (addCoins n counts s).ports = s.ports :=
  addCoins_frame s n counts .ports (by decide)
@[simp] theorem addCoins_pins (n : Line) (counts : Vector Nat 8) : (addCoins n counts s).pins = s.pins :=
  addCoins_frame s n counts .pins (by decide)
@[simp] theorem addCoins_wire (n : Line) (counts : Vector Nat 8) : (addCoins n counts s).wire = s.wire :=
  addCoins_frame s n counts .wire (by decide)
@[simp] theorem addCoins_choices (n : Line) (counts : Vector Nat 8) : (addCoins n counts s).choices = s.choices :=
  addCoins_frame s n counts .choices (by decide)
@[simp] theorem addCoins_pending (n : Line) (counts : Vector Nat 8) : (addCoins n counts s).pending = s.pending :=
  addCoins_frame s n counts .pending (by decide)

/-! ### setCapacity -/

theorem setCapacity_frame (n : Line) (capacity : Nat) :
    onlyChanges [.cash, .faults, .notices] s (setCapacity n capacity s) := by
  unfold setCapacity; dsimp only; split
  · exact ((onTally_frame s n _).trans (markAbsent_frame _ n)).mono (by decide)
  · have h := onTally_frame s n fun t => { t with capacity := capacity }
    split <;> split
    · exact ((h.trans (markNear_frame _ n)).trans (markFull_frame _ n)).mono (by decide)
    · exact ((h.trans (markNear_frame _ n)).trans (unmarkFull_frame _ n)).mono (by decide)
    · exact ((h.trans (unmarkNear_frame _ n)).trans (markFull_frame _ n)).mono (by decide)
    · exact ((h.trans (unmarkNear_frame _ n)).trans (unmarkFull_frame _ n)).mono (by decide)

@[simp] theorem setCapacity_clock (n : Line) (capacity : Nat) : (setCapacity n capacity s).clock = s.clock :=
  setCapacity_frame s n capacity .clock (by decide)
@[simp] theorem setCapacity_books (n : Line) (capacity : Nat) : (setCapacity n capacity s).books = s.books :=
  setCapacity_frame s n capacity .books (by decide)
@[simp] theorem setCapacity_engine (n : Line) (capacity : Nat) : (setCapacity n capacity s).engine = s.engine :=
  setCapacity_frame s n capacity .engine (by decide)
@[simp] theorem setCapacity_lines (n : Line) (capacity : Nat) : (setCapacity n capacity s).lines = s.lines :=
  setCapacity_frame s n capacity .lines (by decide)
@[simp] theorem setCapacity_table (n : Line) (capacity : Nat) : (setCapacity n capacity s).table = s.table :=
  setCapacity_frame s n capacity .table (by decide)
@[simp] theorem setCapacity_quotes (n : Line) (capacity : Nat) : (setCapacity n capacity s).quotes = s.quotes :=
  setCapacity_frame s n capacity .quotes (by decide)
@[simp] theorem setCapacity_sales (n : Line) (capacity : Nat) : (setCapacity n capacity s).sales = s.sales :=
  setCapacity_frame s n capacity .sales (by decide)
@[simp] theorem setCapacity_permits (n : Line) (capacity : Nat) : (setCapacity n capacity s).permits = s.permits :=
  setCapacity_frame s n capacity .permits (by decide)
@[simp] theorem setCapacity_cover (n : Line) (capacity : Nat) : (setCapacity n capacity s).cover = s.cover :=
  setCapacity_frame s n capacity .cover (by decide)
@[simp] theorem setCapacity_ports (n : Line) (capacity : Nat) : (setCapacity n capacity s).ports = s.ports :=
  setCapacity_frame s n capacity .ports (by decide)
@[simp] theorem setCapacity_pins (n : Line) (capacity : Nat) : (setCapacity n capacity s).pins = s.pins :=
  setCapacity_frame s n capacity .pins (by decide)
@[simp] theorem setCapacity_wire (n : Line) (capacity : Nat) : (setCapacity n capacity s).wire = s.wire :=
  setCapacity_frame s n capacity .wire (by decide)
@[simp] theorem setCapacity_choices (n : Line) (capacity : Nat) : (setCapacity n capacity s).choices = s.choices :=
  setCapacity_frame s n capacity .choices (by decide)
@[simp] theorem setCapacity_pending (n : Line) (capacity : Nat) : (setCapacity n capacity s).pending = s.pending :=
  setCapacity_frame s n capacity .pending (by decide)

/-! ### makeLiftRoom -/

theorem makeLiftRoom_frame :
    onlyChanges [.cash, .faults, .notices] s (makeLiftRoom s) := by
  unfold makeLiftRoom; split
  · exact onlyChanges_refl _ s
  · split
    · intro p hp; cases p <;> first | exact absurd (by decide) hp | rfl
    · split
      · exact onlyChanges_refl _ s
      · intro p hp; cases p <;> first | exact absurd (by decide) hp | rfl

@[simp] theorem makeLiftRoom_clock : (makeLiftRoom s).clock = s.clock :=
  makeLiftRoom_frame s .clock (by decide)
@[simp] theorem makeLiftRoom_books : (makeLiftRoom s).books = s.books :=
  makeLiftRoom_frame s .books (by decide)
@[simp] theorem makeLiftRoom_engine : (makeLiftRoom s).engine = s.engine :=
  makeLiftRoom_frame s .engine (by decide)
@[simp] theorem makeLiftRoom_lines : (makeLiftRoom s).lines = s.lines :=
  makeLiftRoom_frame s .lines (by decide)
@[simp] theorem makeLiftRoom_table : (makeLiftRoom s).table = s.table :=
  makeLiftRoom_frame s .table (by decide)
@[simp] theorem makeLiftRoom_quotes : (makeLiftRoom s).quotes = s.quotes :=
  makeLiftRoom_frame s .quotes (by decide)
@[simp] theorem makeLiftRoom_sales : (makeLiftRoom s).sales = s.sales :=
  makeLiftRoom_frame s .sales (by decide)
@[simp] theorem makeLiftRoom_permits : (makeLiftRoom s).permits = s.permits :=
  makeLiftRoom_frame s .permits (by decide)
@[simp] theorem makeLiftRoom_cover : (makeLiftRoom s).cover = s.cover :=
  makeLiftRoom_frame s .cover (by decide)
@[simp] theorem makeLiftRoom_ports : (makeLiftRoom s).ports = s.ports :=
  makeLiftRoom_frame s .ports (by decide)
@[simp] theorem makeLiftRoom_pins : (makeLiftRoom s).pins = s.pins :=
  makeLiftRoom_frame s .pins (by decide)
@[simp] theorem makeLiftRoom_wire : (makeLiftRoom s).wire = s.wire :=
  makeLiftRoom_frame s .wire (by decide)
@[simp] theorem makeLiftRoom_choices : (makeLiftRoom s).choices = s.choices :=
  makeLiftRoom_frame s .choices (by decide)
@[simp] theorem makeLiftRoom_pending : (makeLiftRoom s).pending = s.pending :=
  makeLiftRoom_frame s .pending (by decide)

/-! ### lapseIfDue -/

theorem lapseIfDue_frame :
    onlyChanges [.cash, .faults, .notices] s (lapseIfDue s) := by
  unfold lapseIfDue; split
  · exact onlyChanges_refl _ s
  · split
    · intro p hp; cases p <;> first | exact absurd (by decide) hp | rfl
    · exact onlyChanges_refl _ s

@[simp] theorem lapseIfDue_clock : (lapseIfDue s).clock = s.clock :=
  lapseIfDue_frame s .clock (by decide)
@[simp] theorem lapseIfDue_books : (lapseIfDue s).books = s.books :=
  lapseIfDue_frame s .books (by decide)
@[simp] theorem lapseIfDue_engine : (lapseIfDue s).engine = s.engine :=
  lapseIfDue_frame s .engine (by decide)
@[simp] theorem lapseIfDue_lines : (lapseIfDue s).lines = s.lines :=
  lapseIfDue_frame s .lines (by decide)
@[simp] theorem lapseIfDue_table : (lapseIfDue s).table = s.table :=
  lapseIfDue_frame s .table (by decide)
@[simp] theorem lapseIfDue_quotes : (lapseIfDue s).quotes = s.quotes :=
  lapseIfDue_frame s .quotes (by decide)
@[simp] theorem lapseIfDue_sales : (lapseIfDue s).sales = s.sales :=
  lapseIfDue_frame s .sales (by decide)
@[simp] theorem lapseIfDue_permits : (lapseIfDue s).permits = s.permits :=
  lapseIfDue_frame s .permits (by decide)
@[simp] theorem lapseIfDue_cover : (lapseIfDue s).cover = s.cover :=
  lapseIfDue_frame s .cover (by decide)
@[simp] theorem lapseIfDue_ports : (lapseIfDue s).ports = s.ports :=
  lapseIfDue_frame s .ports (by decide)
@[simp] theorem lapseIfDue_pins : (lapseIfDue s).pins = s.pins :=
  lapseIfDue_frame s .pins (by decide)
@[simp] theorem lapseIfDue_wire : (lapseIfDue s).wire = s.wire :=
  lapseIfDue_frame s .wire (by decide)
@[simp] theorem lapseIfDue_choices : (lapseIfDue s).choices = s.choices :=
  lapseIfDue_frame s .choices (by decide)
@[simp] theorem lapseIfDue_pending : (lapseIfDue s).pending = s.pending :=
  lapseIfDue_frame s .pending (by decide)

/-! ### debitPermit -/

theorem debitPermit_frame (number minutes : Nat) :
    onlyChanges [.permits, .notices] s (debitPermit number minutes s) := by
  unfold debitPermit; dsimp only; split <;> (intro p hp; cases p <;> first | exact absurd (by decide) hp | rfl)

@[simp] theorem debitPermit_clock (number minutes : Nat) : (debitPermit number minutes s).clock = s.clock :=
  debitPermit_frame s number minutes .clock (by decide)
@[simp] theorem debitPermit_books (number minutes : Nat) : (debitPermit number minutes s).books = s.books :=
  debitPermit_frame s number minutes .books (by decide)
@[simp] theorem debitPermit_engine (number minutes : Nat) : (debitPermit number minutes s).engine = s.engine :=
  debitPermit_frame s number minutes .engine (by decide)
@[simp] theorem debitPermit_lines (number minutes : Nat) : (debitPermit number minutes s).lines = s.lines :=
  debitPermit_frame s number minutes .lines (by decide)
@[simp] theorem debitPermit_table (number minutes : Nat) : (debitPermit number minutes s).table = s.table :=
  debitPermit_frame s number minutes .table (by decide)
@[simp] theorem debitPermit_quotes (number minutes : Nat) : (debitPermit number minutes s).quotes = s.quotes :=
  debitPermit_frame s number minutes .quotes (by decide)
@[simp] theorem debitPermit_sales (number minutes : Nat) : (debitPermit number minutes s).sales = s.sales :=
  debitPermit_frame s number minutes .sales (by decide)
@[simp] theorem debitPermit_cover (number minutes : Nat) : (debitPermit number minutes s).cover = s.cover :=
  debitPermit_frame s number minutes .cover (by decide)
@[simp] theorem debitPermit_cash (number minutes : Nat) : (debitPermit number minutes s).cash = s.cash :=
  debitPermit_frame s number minutes .cash (by decide)
@[simp] theorem debitPermit_faults (number minutes : Nat) : (debitPermit number minutes s).faults = s.faults :=
  debitPermit_frame s number minutes .faults (by decide)
@[simp] theorem debitPermit_ports (number minutes : Nat) : (debitPermit number minutes s).ports = s.ports :=
  debitPermit_frame s number minutes .ports (by decide)
@[simp] theorem debitPermit_pins (number minutes : Nat) : (debitPermit number minutes s).pins = s.pins :=
  debitPermit_frame s number minutes .pins (by decide)
@[simp] theorem debitPermit_wire (number minutes : Nat) : (debitPermit number minutes s).wire = s.wire :=
  debitPermit_frame s number minutes .wire (by decide)
@[simp] theorem debitPermit_choices (number minutes : Nat) : (debitPermit number minutes s).choices = s.choices :=
  debitPermit_frame s number minutes .choices (by decide)
@[simp] theorem debitPermit_pending (number minutes : Nat) : (debitPermit number minutes s).pending = s.pending :=
  debitPermit_frame s number minutes .pending (by decide)

/-! ### easePressure -/

theorem easePressure_frame :
    onlyChanges [.sales, .faults, .notices] s (easePressure s) := by
  unfold easePressure; split <;> (intro p hp; cases p <;> first | exact absurd (by decide) hp | rfl)

@[simp] theorem easePressure_clock : (easePressure s).clock = s.clock :=
  easePressure_frame s .clock (by decide)
@[simp] theorem easePressure_books : (easePressure s).books = s.books :=
  easePressure_frame s .books (by decide)
@[simp] theorem easePressure_engine : (easePressure s).engine = s.engine :=
  easePressure_frame s .engine (by decide)
@[simp] theorem easePressure_lines : (easePressure s).lines = s.lines :=
  easePressure_frame s .lines (by decide)
@[simp] theorem easePressure_table : (easePressure s).table = s.table :=
  easePressure_frame s .table (by decide)
@[simp] theorem easePressure_quotes : (easePressure s).quotes = s.quotes :=
  easePressure_frame s .quotes (by decide)
@[simp] theorem easePressure_permits : (easePressure s).permits = s.permits :=
  easePressure_frame s .permits (by decide)
@[simp] theorem easePressure_cover : (easePressure s).cover = s.cover :=
  easePressure_frame s .cover (by decide)
@[simp] theorem easePressure_cash : (easePressure s).cash = s.cash :=
  easePressure_frame s .cash (by decide)
@[simp] theorem easePressure_ports : (easePressure s).ports = s.ports :=
  easePressure_frame s .ports (by decide)
@[simp] theorem easePressure_pins : (easePressure s).pins = s.pins :=
  easePressure_frame s .pins (by decide)
@[simp] theorem easePressure_wire : (easePressure s).wire = s.wire :=
  easePressure_frame s .wire (by decide)
@[simp] theorem easePressure_choices : (easePressure s).choices = s.choices :=
  easePressure_frame s .choices (by decide)
@[simp] theorem easePressure_pending : (easePressure s).pending = s.pending :=
  easePressure_frame s .pending (by decide)

/-! ### feelPressure -/

theorem feelPressure_frame :
    onlyChanges [.sales, .faults, .notices] s (feelPressure s) := by
  unfold feelPressure; split <;> (intro p hp; cases p <;> first | exact absurd (by decide) hp | rfl)

@[simp] theorem feelPressure_clock : (feelPressure s).clock = s.clock :=
  feelPressure_frame s .clock (by decide)
@[simp] theorem feelPressure_books : (feelPressure s).books = s.books :=
  feelPressure_frame s .books (by decide)
@[simp] theorem feelPressure_engine : (feelPressure s).engine = s.engine :=
  feelPressure_frame s .engine (by decide)
@[simp] theorem feelPressure_lines : (feelPressure s).lines = s.lines :=
  feelPressure_frame s .lines (by decide)
@[simp] theorem feelPressure_table : (feelPressure s).table = s.table :=
  feelPressure_frame s .table (by decide)
@[simp] theorem feelPressure_quotes : (feelPressure s).quotes = s.quotes :=
  feelPressure_frame s .quotes (by decide)
@[simp] theorem feelPressure_permits : (feelPressure s).permits = s.permits :=
  feelPressure_frame s .permits (by decide)
@[simp] theorem feelPressure_cover : (feelPressure s).cover = s.cover :=
  feelPressure_frame s .cover (by decide)
@[simp] theorem feelPressure_cash : (feelPressure s).cash = s.cash :=
  feelPressure_frame s .cash (by decide)
@[simp] theorem feelPressure_ports : (feelPressure s).ports = s.ports :=
  feelPressure_frame s .ports (by decide)
@[simp] theorem feelPressure_pins : (feelPressure s).pins = s.pins :=
  feelPressure_frame s .pins (by decide)
@[simp] theorem feelPressure_wire : (feelPressure s).wire = s.wire :=
  feelPressure_frame s .wire (by decide)
@[simp] theorem feelPressure_choices : (feelPressure s).choices = s.choices :=
  feelPressure_frame s .choices (by decide)
@[simp] theorem feelPressure_pending : (feelPressure s).pending = s.pending :=
  feelPressure_frame s .pending (by decide)

/-! ### pruneLog -/

theorem pruneLog_frame :
    onlyChanges [.sales, .faults, .notices] s (pruneLog s) := by
  unfold pruneLog
  exact ((onSales_frame s _).trans (easePressure_frame _)).mono (by decide)

@[simp] theorem pruneLog_clock : (pruneLog s).clock = s.clock :=
  pruneLog_frame s .clock (by decide)
@[simp] theorem pruneLog_books : (pruneLog s).books = s.books :=
  pruneLog_frame s .books (by decide)
@[simp] theorem pruneLog_engine : (pruneLog s).engine = s.engine :=
  pruneLog_frame s .engine (by decide)
@[simp] theorem pruneLog_lines : (pruneLog s).lines = s.lines :=
  pruneLog_frame s .lines (by decide)
@[simp] theorem pruneLog_table : (pruneLog s).table = s.table :=
  pruneLog_frame s .table (by decide)
@[simp] theorem pruneLog_quotes : (pruneLog s).quotes = s.quotes :=
  pruneLog_frame s .quotes (by decide)
@[simp] theorem pruneLog_permits : (pruneLog s).permits = s.permits :=
  pruneLog_frame s .permits (by decide)
@[simp] theorem pruneLog_cover : (pruneLog s).cover = s.cover :=
  pruneLog_frame s .cover (by decide)
@[simp] theorem pruneLog_cash : (pruneLog s).cash = s.cash :=
  pruneLog_frame s .cash (by decide)
@[simp] theorem pruneLog_ports : (pruneLog s).ports = s.ports :=
  pruneLog_frame s .ports (by decide)
@[simp] theorem pruneLog_pins : (pruneLog s).pins = s.pins :=
  pruneLog_frame s .pins (by decide)
@[simp] theorem pruneLog_wire : (pruneLog s).wire = s.wire :=
  pruneLog_frame s .wire (by decide)
@[simp] theorem pruneLog_choices : (pruneLog s).choices = s.choices :=
  pruneLog_frame s .choices (by decide)
@[simp] theorem pruneLog_pending : (pruneLog s).pending = s.pending :=
  pruneLog_frame s .pending (by decide)

/-! ### takePayment -/

theorem takePayment_frame (n : Line) (m : SaleMoney) (t : Terms) :
    onlyChanges [.cash, .permits, .faults, .notices] s (takePayment n m t s) := by
  unfold takePayment; split
  · exact (addCoins_frame s n _).mono (by decide)
  · exact (debitPermit_frame s _ _).mono (by decide)
  · exact onlyChanges_refl _ s

@[simp] theorem takePayment_clock (n : Line) (m : SaleMoney) (t : Terms) : (takePayment n m t s).clock = s.clock :=
  takePayment_frame s n m t .clock (by decide)
@[simp] theorem takePayment_books (n : Line) (m : SaleMoney) (t : Terms) : (takePayment n m t s).books = s.books :=
  takePayment_frame s n m t .books (by decide)
@[simp] theorem takePayment_engine (n : Line) (m : SaleMoney) (t : Terms) : (takePayment n m t s).engine = s.engine :=
  takePayment_frame s n m t .engine (by decide)
@[simp] theorem takePayment_lines (n : Line) (m : SaleMoney) (t : Terms) : (takePayment n m t s).lines = s.lines :=
  takePayment_frame s n m t .lines (by decide)
@[simp] theorem takePayment_table (n : Line) (m : SaleMoney) (t : Terms) : (takePayment n m t s).table = s.table :=
  takePayment_frame s n m t .table (by decide)
@[simp] theorem takePayment_quotes (n : Line) (m : SaleMoney) (t : Terms) : (takePayment n m t s).quotes = s.quotes :=
  takePayment_frame s n m t .quotes (by decide)
@[simp] theorem takePayment_sales (n : Line) (m : SaleMoney) (t : Terms) : (takePayment n m t s).sales = s.sales :=
  takePayment_frame s n m t .sales (by decide)
@[simp] theorem takePayment_cover (n : Line) (m : SaleMoney) (t : Terms) : (takePayment n m t s).cover = s.cover :=
  takePayment_frame s n m t .cover (by decide)
@[simp] theorem takePayment_ports (n : Line) (m : SaleMoney) (t : Terms) : (takePayment n m t s).ports = s.ports :=
  takePayment_frame s n m t .ports (by decide)
@[simp] theorem takePayment_pins (n : Line) (m : SaleMoney) (t : Terms) : (takePayment n m t s).pins = s.pins :=
  takePayment_frame s n m t .pins (by decide)
@[simp] theorem takePayment_wire (n : Line) (m : SaleMoney) (t : Terms) : (takePayment n m t s).wire = s.wire :=
  takePayment_frame s n m t .wire (by decide)
@[simp] theorem takePayment_choices (n : Line) (m : SaleMoney) (t : Terms) : (takePayment n m t s).choices = s.choices :=
  takePayment_frame s n m t .choices (by decide)
@[simp] theorem takePayment_pending (n : Line) (m : SaleMoney) (t : Terms) : (takePayment n m t s).pending = s.pending :=
  takePayment_frame s n m t .pending (by decide)

/-! ### reportWalk -/

theorem reportWalk_frame (n : Line) (o : WalkOutcome) :
    onlyChanges [.sales] s (reportWalk n o s) := by
  intro p hp; cases p <;> first | exact absurd (by decide) hp | rfl

@[simp] theorem reportWalk_clock (n : Line) (o : WalkOutcome) : (reportWalk n o s).clock = s.clock :=
  reportWalk_frame s n o .clock (by decide)
@[simp] theorem reportWalk_books (n : Line) (o : WalkOutcome) : (reportWalk n o s).books = s.books :=
  reportWalk_frame s n o .books (by decide)
@[simp] theorem reportWalk_engine (n : Line) (o : WalkOutcome) : (reportWalk n o s).engine = s.engine :=
  reportWalk_frame s n o .engine (by decide)
@[simp] theorem reportWalk_lines (n : Line) (o : WalkOutcome) : (reportWalk n o s).lines = s.lines :=
  reportWalk_frame s n o .lines (by decide)
@[simp] theorem reportWalk_table (n : Line) (o : WalkOutcome) : (reportWalk n o s).table = s.table :=
  reportWalk_frame s n o .table (by decide)
@[simp] theorem reportWalk_quotes (n : Line) (o : WalkOutcome) : (reportWalk n o s).quotes = s.quotes :=
  reportWalk_frame s n o .quotes (by decide)
@[simp] theorem reportWalk_permits (n : Line) (o : WalkOutcome) : (reportWalk n o s).permits = s.permits :=
  reportWalk_frame s n o .permits (by decide)
@[simp] theorem reportWalk_cover (n : Line) (o : WalkOutcome) : (reportWalk n o s).cover = s.cover :=
  reportWalk_frame s n o .cover (by decide)
@[simp] theorem reportWalk_cash (n : Line) (o : WalkOutcome) : (reportWalk n o s).cash = s.cash :=
  reportWalk_frame s n o .cash (by decide)
@[simp] theorem reportWalk_faults (n : Line) (o : WalkOutcome) : (reportWalk n o s).faults = s.faults :=
  reportWalk_frame s n o .faults (by decide)
@[simp] theorem reportWalk_notices (n : Line) (o : WalkOutcome) : (reportWalk n o s).notices = s.notices :=
  reportWalk_frame s n o .notices (by decide)
@[simp] theorem reportWalk_ports (n : Line) (o : WalkOutcome) : (reportWalk n o s).ports = s.ports :=
  reportWalk_frame s n o .ports (by decide)
@[simp] theorem reportWalk_pins (n : Line) (o : WalkOutcome) : (reportWalk n o s).pins = s.pins :=
  reportWalk_frame s n o .pins (by decide)
@[simp] theorem reportWalk_wire (n : Line) (o : WalkOutcome) : (reportWalk n o s).wire = s.wire :=
  reportWalk_frame s n o .wire (by decide)
@[simp] theorem reportWalk_choices (n : Line) (o : WalkOutcome) : (reportWalk n o s).choices = s.choices :=
  reportWalk_frame s n o .choices (by decide)
@[simp] theorem reportWalk_pending (n : Line) (o : WalkOutcome) : (reportWalk n o s).pending = s.pending :=
  reportWalk_frame s n o .pending (by decide)

/-! ### addSticky -/

theorem addSticky_frame (n : Line) (o : WalkOutcome) :
    onlyChanges [.table, .notices] s (addSticky n o s) := by
  unfold addSticky; dsimp only
  have h : ∀ b : Bool, onlyChanges [.notices] s (if b then latch .conditionHeld s else s) := by
    intro b; cases b
    · exact onlyChanges_refl _ s
    · exact latch_frame s _
  exact ((h _).trans (onEntry_frame _ n _)).mono (by decide)

@[simp] theorem addSticky_clock (n : Line) (o : WalkOutcome) : (addSticky n o s).clock = s.clock :=
  addSticky_frame s n o .clock (by decide)
@[simp] theorem addSticky_books (n : Line) (o : WalkOutcome) : (addSticky n o s).books = s.books :=
  addSticky_frame s n o .books (by decide)
@[simp] theorem addSticky_engine (n : Line) (o : WalkOutcome) : (addSticky n o s).engine = s.engine :=
  addSticky_frame s n o .engine (by decide)
@[simp] theorem addSticky_lines (n : Line) (o : WalkOutcome) : (addSticky n o s).lines = s.lines :=
  addSticky_frame s n o .lines (by decide)
@[simp] theorem addSticky_quotes (n : Line) (o : WalkOutcome) : (addSticky n o s).quotes = s.quotes :=
  addSticky_frame s n o .quotes (by decide)
@[simp] theorem addSticky_sales (n : Line) (o : WalkOutcome) : (addSticky n o s).sales = s.sales :=
  addSticky_frame s n o .sales (by decide)
@[simp] theorem addSticky_permits (n : Line) (o : WalkOutcome) : (addSticky n o s).permits = s.permits :=
  addSticky_frame s n o .permits (by decide)
@[simp] theorem addSticky_cover (n : Line) (o : WalkOutcome) : (addSticky n o s).cover = s.cover :=
  addSticky_frame s n o .cover (by decide)
@[simp] theorem addSticky_cash (n : Line) (o : WalkOutcome) : (addSticky n o s).cash = s.cash :=
  addSticky_frame s n o .cash (by decide)
@[simp] theorem addSticky_faults (n : Line) (o : WalkOutcome) : (addSticky n o s).faults = s.faults :=
  addSticky_frame s n o .faults (by decide)
@[simp] theorem addSticky_ports (n : Line) (o : WalkOutcome) : (addSticky n o s).ports = s.ports :=
  addSticky_frame s n o .ports (by decide)
@[simp] theorem addSticky_pins (n : Line) (o : WalkOutcome) : (addSticky n o s).pins = s.pins :=
  addSticky_frame s n o .pins (by decide)
@[simp] theorem addSticky_wire (n : Line) (o : WalkOutcome) : (addSticky n o s).wire = s.wire :=
  addSticky_frame s n o .wire (by decide)
@[simp] theorem addSticky_choices (n : Line) (o : WalkOutcome) : (addSticky n o s).choices = s.choices :=
  addSticky_frame s n o .choices (by decide)
@[simp] theorem addSticky_pending (n : Line) (o : WalkOutcome) : (addSticky n o s).pending = s.pending :=
  addSticky_frame s n o .pending (by decide)

/-! ### openQuote -/

theorem openQuote_frame (n : Line) (r : WalkResult) :
    onlyChanges [.quotes, .table, .lines] s (openQuote n r s) := by
  intro p hp; cases p <;> first | exact absurd (by decide) hp | rfl

@[simp] theorem openQuote_clock (n : Line) (r : WalkResult) : (openQuote n r s).clock = s.clock :=
  openQuote_frame s n r .clock (by decide)
@[simp] theorem openQuote_books (n : Line) (r : WalkResult) : (openQuote n r s).books = s.books :=
  openQuote_frame s n r .books (by decide)
@[simp] theorem openQuote_engine (n : Line) (r : WalkResult) : (openQuote n r s).engine = s.engine :=
  openQuote_frame s n r .engine (by decide)
@[simp] theorem openQuote_sales (n : Line) (r : WalkResult) : (openQuote n r s).sales = s.sales :=
  openQuote_frame s n r .sales (by decide)
@[simp] theorem openQuote_permits (n : Line) (r : WalkResult) : (openQuote n r s).permits = s.permits :=
  openQuote_frame s n r .permits (by decide)
@[simp] theorem openQuote_cover (n : Line) (r : WalkResult) : (openQuote n r s).cover = s.cover :=
  openQuote_frame s n r .cover (by decide)
@[simp] theorem openQuote_cash (n : Line) (r : WalkResult) : (openQuote n r s).cash = s.cash :=
  openQuote_frame s n r .cash (by decide)
@[simp] theorem openQuote_faults (n : Line) (r : WalkResult) : (openQuote n r s).faults = s.faults :=
  openQuote_frame s n r .faults (by decide)
@[simp] theorem openQuote_notices (n : Line) (r : WalkResult) : (openQuote n r s).notices = s.notices :=
  openQuote_frame s n r .notices (by decide)
@[simp] theorem openQuote_ports (n : Line) (r : WalkResult) : (openQuote n r s).ports = s.ports :=
  openQuote_frame s n r .ports (by decide)
@[simp] theorem openQuote_pins (n : Line) (r : WalkResult) : (openQuote n r s).pins = s.pins :=
  openQuote_frame s n r .pins (by decide)
@[simp] theorem openQuote_wire (n : Line) (r : WalkResult) : (openQuote n r s).wire = s.wire :=
  openQuote_frame s n r .wire (by decide)
@[simp] theorem openQuote_choices (n : Line) (r : WalkResult) : (openQuote n r s).choices = s.choices :=
  openQuote_frame s n r .choices (by decide)
@[simp] theorem openQuote_pending (n : Line) (r : WalkResult) : (openQuote n r s).pending = s.pending :=
  openQuote_frame s n r .pending (by decide)

/-! ### terminalOutcome -/

theorem terminalOutcome_frame (n : Line) (w : Walk) (o : WalkOutcome) :
    onlyChanges [.quotes, .table, .lines, .sales, .notices] s (terminalOutcome n w o s) := by
  have hs : onlyChanges [.table, .notices, .sales] s
      (match w.mode with
        | .normal => addSticky n o (reportWalk n o s)
        | .test => s) := by
    split
    · exact ((reportWalk_frame s n o).trans (addSticky_frame _ n o)).mono (by decide)
    · exact onlyChanges_refl _ s
  unfold terminalOutcome
  split
  · split
    · exact onlyChanges_refl _ s
    · exact (answerPending_frame s n _ _).mono (by decide)
  · dsimp only
    split
    · exact (hs.trans (openQuote_frame _ n _)).mono (by decide)
    · exact (hs.trans (answerPending_frame _ n _ _)).mono (by decide)
    · exact (hs.trans (answerPending_frame _ n _ _)).mono (by decide)

@[simp] theorem terminalOutcome_clock (n : Line) (w : Walk) (o : WalkOutcome) : (terminalOutcome n w o s).clock = s.clock :=
  terminalOutcome_frame s n w o .clock (by decide)
@[simp] theorem terminalOutcome_books (n : Line) (w : Walk) (o : WalkOutcome) : (terminalOutcome n w o s).books = s.books :=
  terminalOutcome_frame s n w o .books (by decide)
@[simp] theorem terminalOutcome_engine (n : Line) (w : Walk) (o : WalkOutcome) : (terminalOutcome n w o s).engine = s.engine :=
  terminalOutcome_frame s n w o .engine (by decide)
@[simp] theorem terminalOutcome_permits (n : Line) (w : Walk) (o : WalkOutcome) : (terminalOutcome n w o s).permits = s.permits :=
  terminalOutcome_frame s n w o .permits (by decide)
@[simp] theorem terminalOutcome_cover (n : Line) (w : Walk) (o : WalkOutcome) : (terminalOutcome n w o s).cover = s.cover :=
  terminalOutcome_frame s n w o .cover (by decide)
@[simp] theorem terminalOutcome_cash (n : Line) (w : Walk) (o : WalkOutcome) : (terminalOutcome n w o s).cash = s.cash :=
  terminalOutcome_frame s n w o .cash (by decide)
@[simp] theorem terminalOutcome_faults (n : Line) (w : Walk) (o : WalkOutcome) : (terminalOutcome n w o s).faults = s.faults :=
  terminalOutcome_frame s n w o .faults (by decide)
@[simp] theorem terminalOutcome_ports (n : Line) (w : Walk) (o : WalkOutcome) : (terminalOutcome n w o s).ports = s.ports :=
  terminalOutcome_frame s n w o .ports (by decide)
@[simp] theorem terminalOutcome_pins (n : Line) (w : Walk) (o : WalkOutcome) : (terminalOutcome n w o s).pins = s.pins :=
  terminalOutcome_frame s n w o .pins (by decide)
@[simp] theorem terminalOutcome_wire (n : Line) (w : Walk) (o : WalkOutcome) : (terminalOutcome n w o s).wire = s.wire :=
  terminalOutcome_frame s n w o .wire (by decide)
@[simp] theorem terminalOutcome_choices (n : Line) (w : Walk) (o : WalkOutcome) : (terminalOutcome n w o s).choices = s.choices :=
  terminalOutcome_frame s n w o .choices (by decide)
@[simp] theorem terminalOutcome_pending (n : Line) (w : Walk) (o : WalkOutcome) : (terminalOutcome n w o s).pending = s.pending :=
  terminalOutcome_frame s n w o .pending (by decide)

/-! ### officeOutcome -/

theorem officeOutcome_frame (tag : Tag) (o : WalkOutcome) :
    onlyChanges [.ports] s (officeOutcome tag o s) := by
  unfold officeOutcome; split <;> exact answerDeferred_frame s _ _ _ _

@[simp] theorem officeOutcome_clock (tag : Tag) (o : WalkOutcome) : (officeOutcome tag o s).clock = s.clock :=
  officeOutcome_frame s tag o .clock (by decide)
@[simp] theorem officeOutcome_books (tag : Tag) (o : WalkOutcome) : (officeOutcome tag o s).books = s.books :=
  officeOutcome_frame s tag o .books (by decide)
@[simp] theorem officeOutcome_engine (tag : Tag) (o : WalkOutcome) : (officeOutcome tag o s).engine = s.engine :=
  officeOutcome_frame s tag o .engine (by decide)
@[simp] theorem officeOutcome_lines (tag : Tag) (o : WalkOutcome) : (officeOutcome tag o s).lines = s.lines :=
  officeOutcome_frame s tag o .lines (by decide)
@[simp] theorem officeOutcome_table (tag : Tag) (o : WalkOutcome) : (officeOutcome tag o s).table = s.table :=
  officeOutcome_frame s tag o .table (by decide)
@[simp] theorem officeOutcome_quotes (tag : Tag) (o : WalkOutcome) : (officeOutcome tag o s).quotes = s.quotes :=
  officeOutcome_frame s tag o .quotes (by decide)
@[simp] theorem officeOutcome_sales (tag : Tag) (o : WalkOutcome) : (officeOutcome tag o s).sales = s.sales :=
  officeOutcome_frame s tag o .sales (by decide)
@[simp] theorem officeOutcome_permits (tag : Tag) (o : WalkOutcome) : (officeOutcome tag o s).permits = s.permits :=
  officeOutcome_frame s tag o .permits (by decide)
@[simp] theorem officeOutcome_cover (tag : Tag) (o : WalkOutcome) : (officeOutcome tag o s).cover = s.cover :=
  officeOutcome_frame s tag o .cover (by decide)
@[simp] theorem officeOutcome_cash (tag : Tag) (o : WalkOutcome) : (officeOutcome tag o s).cash = s.cash :=
  officeOutcome_frame s tag o .cash (by decide)
@[simp] theorem officeOutcome_faults (tag : Tag) (o : WalkOutcome) : (officeOutcome tag o s).faults = s.faults :=
  officeOutcome_frame s tag o .faults (by decide)
@[simp] theorem officeOutcome_notices (tag : Tag) (o : WalkOutcome) : (officeOutcome tag o s).notices = s.notices :=
  officeOutcome_frame s tag o .notices (by decide)
@[simp] theorem officeOutcome_pins (tag : Tag) (o : WalkOutcome) : (officeOutcome tag o s).pins = s.pins :=
  officeOutcome_frame s tag o .pins (by decide)
@[simp] theorem officeOutcome_wire (tag : Tag) (o : WalkOutcome) : (officeOutcome tag o s).wire = s.wire :=
  officeOutcome_frame s tag o .wire (by decide)
@[simp] theorem officeOutcome_choices (tag : Tag) (o : WalkOutcome) : (officeOutcome tag o s).choices = s.choices :=
  officeOutcome_frame s tag o .choices (by decide)
@[simp] theorem officeOutcome_pending (tag : Tag) (o : WalkOutcome) : (officeOutcome tag o s).pending = s.pending :=
  officeOutcome_frame s tag o .pending (by decide)

/-! ### deliver -/

theorem deliver_frame (w : Walk) (o : WalkOutcome) :
    onlyChanges [.quotes, .table, .lines, .sales, .notices, .ports] s (deliver w o s) := by
  unfold deliver; split
  · exact (officeOutcome_frame s _ o).mono (by decide)
  · exact (terminalOutcome_frame s _ w o).mono (by decide)

@[simp] theorem deliver_clock (w : Walk) (o : WalkOutcome) : (deliver w o s).clock = s.clock :=
  deliver_frame s w o .clock (by decide)
@[simp] theorem deliver_books (w : Walk) (o : WalkOutcome) : (deliver w o s).books = s.books :=
  deliver_frame s w o .books (by decide)
@[simp] theorem deliver_engine (w : Walk) (o : WalkOutcome) : (deliver w o s).engine = s.engine :=
  deliver_frame s w o .engine (by decide)
@[simp] theorem deliver_permits (w : Walk) (o : WalkOutcome) : (deliver w o s).permits = s.permits :=
  deliver_frame s w o .permits (by decide)
@[simp] theorem deliver_cover (w : Walk) (o : WalkOutcome) : (deliver w o s).cover = s.cover :=
  deliver_frame s w o .cover (by decide)
@[simp] theorem deliver_cash (w : Walk) (o : WalkOutcome) : (deliver w o s).cash = s.cash :=
  deliver_frame s w o .cash (by decide)
@[simp] theorem deliver_faults (w : Walk) (o : WalkOutcome) : (deliver w o s).faults = s.faults :=
  deliver_frame s w o .faults (by decide)
@[simp] theorem deliver_pins (w : Walk) (o : WalkOutcome) : (deliver w o s).pins = s.pins :=
  deliver_frame s w o .pins (by decide)
@[simp] theorem deliver_wire (w : Walk) (o : WalkOutcome) : (deliver w o s).wire = s.wire :=
  deliver_frame s w o .wire (by decide)
@[simp] theorem deliver_choices (w : Walk) (o : WalkOutcome) : (deliver w o s).choices = s.choices :=
  deliver_frame s w o .choices (by decide)
@[simp] theorem deliver_pending (w : Walk) (o : WalkOutcome) : (deliver w o s).pending = s.pending :=
  deliver_frame s w o .pending (by decide)

/-! ### arbitrate -/

theorem arbitrate_frame (fuel : Nat) :
    onlyChanges [.quotes, .table, .lines, .sales, .notices, .ports, .engine, .books] s (arbitrate fuel s) := by
  induction fuel generalizing s with
  | zero => exact onlyChanges_refl _ s
  | succ k ih =>
    unfold arbitrate
    split
    · split
      · exact onlyChanges_refl _ s
      · split
        · exact ((onEngine_frame s _).trans (startWalk_frame _ _)).mono (by decide)
        · exact (((onEngine_frame s _).trans (deliver_frame _ _ _)).trans (ih _)).mono (by decide)
    · exact onlyChanges_refl _ s

@[simp] theorem arbitrate_clock (fuel : Nat) : (arbitrate fuel s).clock = s.clock :=
  arbitrate_frame s fuel .clock (by decide)
@[simp] theorem arbitrate_permits (fuel : Nat) : (arbitrate fuel s).permits = s.permits :=
  arbitrate_frame s fuel .permits (by decide)
@[simp] theorem arbitrate_cover (fuel : Nat) : (arbitrate fuel s).cover = s.cover :=
  arbitrate_frame s fuel .cover (by decide)
@[simp] theorem arbitrate_cash (fuel : Nat) : (arbitrate fuel s).cash = s.cash :=
  arbitrate_frame s fuel .cash (by decide)
@[simp] theorem arbitrate_faults (fuel : Nat) : (arbitrate fuel s).faults = s.faults :=
  arbitrate_frame s fuel .faults (by decide)
@[simp] theorem arbitrate_pins (fuel : Nat) : (arbitrate fuel s).pins = s.pins :=
  arbitrate_frame s fuel .pins (by decide)
@[simp] theorem arbitrate_wire (fuel : Nat) : (arbitrate fuel s).wire = s.wire :=
  arbitrate_frame s fuel .wire (by decide)
@[simp] theorem arbitrate_choices (fuel : Nat) : (arbitrate fuel s).choices = s.choices :=
  arbitrate_frame s fuel .choices (by decide)
@[simp] theorem arbitrate_pending (fuel : Nat) : (arbitrate fuel s).pending = s.pending :=
  arbitrate_frame s fuel .pending (by decide)

/-! ### chooseWalk -/

theorem chooseWalk_frame :
    onlyChanges [.quotes, .table, .lines, .sales, .notices, .ports, .engine, .books] s (chooseWalk s) := arbitrate_frame s 17

@[simp] theorem chooseWalk_clock : (chooseWalk s).clock = s.clock :=
  chooseWalk_frame s .clock (by decide)
@[simp] theorem chooseWalk_permits : (chooseWalk s).permits = s.permits :=
  chooseWalk_frame s .permits (by decide)
@[simp] theorem chooseWalk_cover : (chooseWalk s).cover = s.cover :=
  chooseWalk_frame s .cover (by decide)
@[simp] theorem chooseWalk_cash : (chooseWalk s).cash = s.cash :=
  chooseWalk_frame s .cash (by decide)
@[simp] theorem chooseWalk_faults : (chooseWalk s).faults = s.faults :=
  chooseWalk_frame s .faults (by decide)
@[simp] theorem chooseWalk_pins : (chooseWalk s).pins = s.pins :=
  chooseWalk_frame s .pins (by decide)
@[simp] theorem chooseWalk_wire : (chooseWalk s).wire = s.wire :=
  chooseWalk_frame s .wire (by decide)
@[simp] theorem chooseWalk_choices : (chooseWalk s).choices = s.choices :=
  chooseWalk_frame s .choices (by decide)
@[simp] theorem chooseWalk_pending : (chooseWalk s).pending = s.pending :=
  chooseWalk_frame s .pending (by decide)

/-! ### placeRequest -/

theorem placeRequest_frame (i : Fin 17) (r : WalkRequest) :
    onlyChanges [.quotes, .table, .lines, .sales, .notices, .ports, .engine, .books] s (placeRequest i r s) := by
  unfold placeRequest
  exact ((onEngine_frame s _).trans (chooseWalk_frame _)).mono (by decide)

@[simp] theorem placeRequest_clock (i : Fin 17) (r : WalkRequest) : (placeRequest i r s).clock = s.clock :=
  placeRequest_frame s i r .clock (by decide)
@[simp] theorem placeRequest_permits (i : Fin 17) (r : WalkRequest) : (placeRequest i r s).permits = s.permits :=
  placeRequest_frame s i r .permits (by decide)
@[simp] theorem placeRequest_cover (i : Fin 17) (r : WalkRequest) : (placeRequest i r s).cover = s.cover :=
  placeRequest_frame s i r .cover (by decide)
@[simp] theorem placeRequest_cash (i : Fin 17) (r : WalkRequest) : (placeRequest i r s).cash = s.cash :=
  placeRequest_frame s i r .cash (by decide)
@[simp] theorem placeRequest_faults (i : Fin 17) (r : WalkRequest) : (placeRequest i r s).faults = s.faults :=
  placeRequest_frame s i r .faults (by decide)
@[simp] theorem placeRequest_pins (i : Fin 17) (r : WalkRequest) : (placeRequest i r s).pins = s.pins :=
  placeRequest_frame s i r .pins (by decide)
@[simp] theorem placeRequest_wire (i : Fin 17) (r : WalkRequest) : (placeRequest i r s).wire = s.wire :=
  placeRequest_frame s i r .wire (by decide)
@[simp] theorem placeRequest_choices (i : Fin 17) (r : WalkRequest) : (placeRequest i r s).choices = s.choices :=
  placeRequest_frame s i r .choices (by decide)
@[simp] theorem placeRequest_pending (i : Fin 17) (r : WalkRequest) : (placeRequest i r s).pending = s.pending :=
  placeRequest_frame s i r .pending (by decide)

/-! ### completeWalk -/

theorem completeWalk_frame (w : Walk) (o : WalkOutcome) :
    onlyChanges [.quotes, .table, .lines, .sales, .notices, .ports, .engine, .books] s (completeWalk w o s) := by
  unfold completeWalk
  exact ((((onBooks_frame s _).trans (onEngine_frame _ _)).trans (deliver_frame _ w o)).trans (chooseWalk_frame _)).mono (by decide)

@[simp] theorem completeWalk_clock (w : Walk) (o : WalkOutcome) : (completeWalk w o s).clock = s.clock :=
  completeWalk_frame s w o .clock (by decide)
@[simp] theorem completeWalk_permits (w : Walk) (o : WalkOutcome) : (completeWalk w o s).permits = s.permits :=
  completeWalk_frame s w o .permits (by decide)
@[simp] theorem completeWalk_cover (w : Walk) (o : WalkOutcome) : (completeWalk w o s).cover = s.cover :=
  completeWalk_frame s w o .cover (by decide)
@[simp] theorem completeWalk_cash (w : Walk) (o : WalkOutcome) : (completeWalk w o s).cash = s.cash :=
  completeWalk_frame s w o .cash (by decide)
@[simp] theorem completeWalk_faults (w : Walk) (o : WalkOutcome) : (completeWalk w o s).faults = s.faults :=
  completeWalk_frame s w o .faults (by decide)
@[simp] theorem completeWalk_pins (w : Walk) (o : WalkOutcome) : (completeWalk w o s).pins = s.pins :=
  completeWalk_frame s w o .pins (by decide)
@[simp] theorem completeWalk_wire (w : Walk) (o : WalkOutcome) : (completeWalk w o s).wire = s.wire :=
  completeWalk_frame s w o .wire (by decide)
@[simp] theorem completeWalk_choices (w : Walk) (o : WalkOutcome) : (completeWalk w o s).choices = s.choices :=
  completeWalk_frame s w o .choices (by decide)
@[simp] theorem completeWalk_pending (w : Walk) (o : WalkOutcome) : (completeWalk w o s).pending = s.pending :=
  completeWalk_frame s w o .pending (by decide)

/-! ### markForStep -/

theorem markForStep_frame :
    onlyChanges [.engine] s (markForStep s) := by
  intro p hp; cases p <;> first | exact absurd (by decide) hp | rfl

@[simp] theorem markForStep_clock : (markForStep s).clock = s.clock :=
  markForStep_frame s .clock (by decide)
@[simp] theorem markForStep_books : (markForStep s).books = s.books :=
  markForStep_frame s .books (by decide)
@[simp] theorem markForStep_lines : (markForStep s).lines = s.lines :=
  markForStep_frame s .lines (by decide)
@[simp] theorem markForStep_table : (markForStep s).table = s.table :=
  markForStep_frame s .table (by decide)
@[simp] theorem markForStep_quotes : (markForStep s).quotes = s.quotes :=
  markForStep_frame s .quotes (by decide)
@[simp] theorem markForStep_sales : (markForStep s).sales = s.sales :=
  markForStep_frame s .sales (by decide)
@[simp] theorem markForStep_permits : (markForStep s).permits = s.permits :=
  markForStep_frame s .permits (by decide)
@[simp] theorem markForStep_cover : (markForStep s).cover = s.cover :=
  markForStep_frame s .cover (by decide)
@[simp] theorem markForStep_cash : (markForStep s).cash = s.cash :=
  markForStep_frame s .cash (by decide)
@[simp] theorem markForStep_faults : (markForStep s).faults = s.faults :=
  markForStep_frame s .faults (by decide)
@[simp] theorem markForStep_notices : (markForStep s).notices = s.notices :=
  markForStep_frame s .notices (by decide)
@[simp] theorem markForStep_ports : (markForStep s).ports = s.ports :=
  markForStep_frame s .ports (by decide)
@[simp] theorem markForStep_pins : (markForStep s).pins = s.pins :=
  markForStep_frame s .pins (by decide)
@[simp] theorem markForStep_wire : (markForStep s).wire = s.wire :=
  markForStep_frame s .wire (by decide)
@[simp] theorem markForStep_choices : (markForStep s).choices = s.choices :=
  markForStep_frame s .choices (by decide)
@[simp] theorem markForStep_pending : (markForStep s).pending = s.pending :=
  markForStep_frame s .pending (by decide)

/-! ### activateIfDue -/

theorem activateIfDue_frame :
    onlyChanges [.books, .table, .notices] s (activateIfDue s) := by
  unfold activateIfDue; split
  · exact (((onBooks_frame s _).trans (latch_frame _ _)).trans (resetBookChangeAll_frame _)).mono (by decide)
  · exact onlyChanges_refl _ s

@[simp] theorem activateIfDue_clock : (activateIfDue s).clock = s.clock :=
  activateIfDue_frame s .clock (by decide)
@[simp] theorem activateIfDue_engine : (activateIfDue s).engine = s.engine :=
  activateIfDue_frame s .engine (by decide)
@[simp] theorem activateIfDue_lines : (activateIfDue s).lines = s.lines :=
  activateIfDue_frame s .lines (by decide)
@[simp] theorem activateIfDue_quotes : (activateIfDue s).quotes = s.quotes :=
  activateIfDue_frame s .quotes (by decide)
@[simp] theorem activateIfDue_sales : (activateIfDue s).sales = s.sales :=
  activateIfDue_frame s .sales (by decide)
@[simp] theorem activateIfDue_permits : (activateIfDue s).permits = s.permits :=
  activateIfDue_frame s .permits (by decide)
@[simp] theorem activateIfDue_cover : (activateIfDue s).cover = s.cover :=
  activateIfDue_frame s .cover (by decide)
@[simp] theorem activateIfDue_cash : (activateIfDue s).cash = s.cash :=
  activateIfDue_frame s .cash (by decide)
@[simp] theorem activateIfDue_faults : (activateIfDue s).faults = s.faults :=
  activateIfDue_frame s .faults (by decide)
@[simp] theorem activateIfDue_ports : (activateIfDue s).ports = s.ports :=
  activateIfDue_frame s .ports (by decide)
@[simp] theorem activateIfDue_pins : (activateIfDue s).pins = s.pins :=
  activateIfDue_frame s .pins (by decide)
@[simp] theorem activateIfDue_wire : (activateIfDue s).wire = s.wire :=
  activateIfDue_frame s .wire (by decide)
@[simp] theorem activateIfDue_choices : (activateIfDue s).choices = s.choices :=
  activateIfDue_frame s .choices (by decide)
@[simp] theorem activateIfDue_pending : (activateIfDue s).pending = s.pending :=
  activateIfDue_frame s .pending (by decide)

/-! ### hourCounts -/

theorem hourCounts_frame :
    onlyChanges [.table, .faults, .notices] s (hourCounts s) := by
  unfold hourCounts; intro p hp; cases p <;> first | exact absurd (by decide) hp | rfl

@[simp] theorem hourCounts_clock : (hourCounts s).clock = s.clock :=
  hourCounts_frame s .clock (by decide)
@[simp] theorem hourCounts_books : (hourCounts s).books = s.books :=
  hourCounts_frame s .books (by decide)
@[simp] theorem hourCounts_engine : (hourCounts s).engine = s.engine :=
  hourCounts_frame s .engine (by decide)
@[simp] theorem hourCounts_lines : (hourCounts s).lines = s.lines :=
  hourCounts_frame s .lines (by decide)
@[simp] theorem hourCounts_quotes : (hourCounts s).quotes = s.quotes :=
  hourCounts_frame s .quotes (by decide)
@[simp] theorem hourCounts_sales : (hourCounts s).sales = s.sales :=
  hourCounts_frame s .sales (by decide)
@[simp] theorem hourCounts_permits : (hourCounts s).permits = s.permits :=
  hourCounts_frame s .permits (by decide)
@[simp] theorem hourCounts_cover : (hourCounts s).cover = s.cover :=
  hourCounts_frame s .cover (by decide)
@[simp] theorem hourCounts_cash : (hourCounts s).cash = s.cash :=
  hourCounts_frame s .cash (by decide)
@[simp] theorem hourCounts_ports : (hourCounts s).ports = s.ports :=
  hourCounts_frame s .ports (by decide)
@[simp] theorem hourCounts_pins : (hourCounts s).pins = s.pins :=
  hourCounts_frame s .pins (by decide)
@[simp] theorem hourCounts_wire : (hourCounts s).wire = s.wire :=
  hourCounts_frame s .wire (by decide)
@[simp] theorem hourCounts_choices : (hourCounts s).choices = s.choices :=
  hourCounts_frame s .choices (by decide)
@[simp] theorem hourCounts_pending : (hourCounts s).pending = s.pending :=
  hourCounts_frame s .pending (by decide)

/-! ### watchLines -/

theorem watchLines_frame :
    onlyChanges [.choices, .faults, .notices] s (watchLines s) := by
  have h : ∀ (f : Watch → Watch) (k : Nat), onlyChanges [.choices, .faults, .notices] s { onFaults f s with choices := k } := by
    intro f k p hp; cases p <;> first | exact absurd (by decide) hp | rfl
  unfold watchLines; exact h _ _

@[simp] theorem watchLines_clock : (watchLines s).clock = s.clock :=
  watchLines_frame s .clock (by decide)
@[simp] theorem watchLines_books : (watchLines s).books = s.books :=
  watchLines_frame s .books (by decide)
@[simp] theorem watchLines_engine : (watchLines s).engine = s.engine :=
  watchLines_frame s .engine (by decide)
@[simp] theorem watchLines_lines : (watchLines s).lines = s.lines :=
  watchLines_frame s .lines (by decide)
@[simp] theorem watchLines_table : (watchLines s).table = s.table :=
  watchLines_frame s .table (by decide)
@[simp] theorem watchLines_quotes : (watchLines s).quotes = s.quotes :=
  watchLines_frame s .quotes (by decide)
@[simp] theorem watchLines_sales : (watchLines s).sales = s.sales :=
  watchLines_frame s .sales (by decide)
@[simp] theorem watchLines_permits : (watchLines s).permits = s.permits :=
  watchLines_frame s .permits (by decide)
@[simp] theorem watchLines_cover : (watchLines s).cover = s.cover :=
  watchLines_frame s .cover (by decide)
@[simp] theorem watchLines_cash : (watchLines s).cash = s.cash :=
  watchLines_frame s .cash (by decide)
@[simp] theorem watchLines_ports : (watchLines s).ports = s.ports :=
  watchLines_frame s .ports (by decide)
@[simp] theorem watchLines_pins : (watchLines s).pins = s.pins :=
  watchLines_frame s .pins (by decide)
@[simp] theorem watchLines_wire : (watchLines s).wire = s.wire :=
  watchLines_frame s .wire (by decide)
@[simp] theorem watchLines_pending : (watchLines s).pending = s.pending :=
  watchLines_frame s .pending (by decide)

/-! ### removeOverrides -/

theorem removeOverrides_frame :
    onlyChanges [.clock] s (removeOverrides s) := by
  intro p hp; cases p <;> first | exact absurd (by decide) hp | rfl

@[simp] theorem removeOverrides_books : (removeOverrides s).books = s.books :=
  removeOverrides_frame s .books (by decide)
@[simp] theorem removeOverrides_engine : (removeOverrides s).engine = s.engine :=
  removeOverrides_frame s .engine (by decide)
@[simp] theorem removeOverrides_lines : (removeOverrides s).lines = s.lines :=
  removeOverrides_frame s .lines (by decide)
@[simp] theorem removeOverrides_table : (removeOverrides s).table = s.table :=
  removeOverrides_frame s .table (by decide)
@[simp] theorem removeOverrides_quotes : (removeOverrides s).quotes = s.quotes :=
  removeOverrides_frame s .quotes (by decide)
@[simp] theorem removeOverrides_sales : (removeOverrides s).sales = s.sales :=
  removeOverrides_frame s .sales (by decide)
@[simp] theorem removeOverrides_permits : (removeOverrides s).permits = s.permits :=
  removeOverrides_frame s .permits (by decide)
@[simp] theorem removeOverrides_cover : (removeOverrides s).cover = s.cover :=
  removeOverrides_frame s .cover (by decide)
@[simp] theorem removeOverrides_cash : (removeOverrides s).cash = s.cash :=
  removeOverrides_frame s .cash (by decide)
@[simp] theorem removeOverrides_faults : (removeOverrides s).faults = s.faults :=
  removeOverrides_frame s .faults (by decide)
@[simp] theorem removeOverrides_notices : (removeOverrides s).notices = s.notices :=
  removeOverrides_frame s .notices (by decide)
@[simp] theorem removeOverrides_ports : (removeOverrides s).ports = s.ports :=
  removeOverrides_frame s .ports (by decide)
@[simp] theorem removeOverrides_pins : (removeOverrides s).pins = s.pins :=
  removeOverrides_frame s .pins (by decide)
@[simp] theorem removeOverrides_wire : (removeOverrides s).wire = s.wire :=
  removeOverrides_frame s .wire (by decide)
@[simp] theorem removeOverrides_choices : (removeOverrides s).choices = s.choices :=
  removeOverrides_frame s .choices (by decide)
@[simp] theorem removeOverrides_pending : (removeOverrides s).pending = s.pending :=
  removeOverrides_frame s .pending (by decide)

/-! ### dayWork -/

theorem dayWork_frame :
    onlyChanges [.clock, .sales, .permits] s (dayWork s) := by
  unfold dayWork
  exact (((removeOverrides_frame s).trans (openDayRecords_frame _)).trans (removePermits_frame _)).mono (by decide)

@[simp] theorem dayWork_books : (dayWork s).books = s.books :=
  dayWork_frame s .books (by decide)
@[simp] theorem dayWork_engine : (dayWork s).engine = s.engine :=
  dayWork_frame s .engine (by decide)
@[simp] theorem dayWork_lines : (dayWork s).lines = s.lines :=
  dayWork_frame s .lines (by decide)
@[simp] theorem dayWork_table : (dayWork s).table = s.table :=
  dayWork_frame s .table (by decide)
@[simp] theorem dayWork_quotes : (dayWork s).quotes = s.quotes :=
  dayWork_frame s .quotes (by decide)
@[simp] theorem dayWork_cover : (dayWork s).cover = s.cover :=
  dayWork_frame s .cover (by decide)
@[simp] theorem dayWork_cash : (dayWork s).cash = s.cash :=
  dayWork_frame s .cash (by decide)
@[simp] theorem dayWork_faults : (dayWork s).faults = s.faults :=
  dayWork_frame s .faults (by decide)
@[simp] theorem dayWork_notices : (dayWork s).notices = s.notices :=
  dayWork_frame s .notices (by decide)
@[simp] theorem dayWork_ports : (dayWork s).ports = s.ports :=
  dayWork_frame s .ports (by decide)
@[simp] theorem dayWork_pins : (dayWork s).pins = s.pins :=
  dayWork_frame s .pins (by decide)
@[simp] theorem dayWork_wire : (dayWork s).wire = s.wire :=
  dayWork_frame s .wire (by decide)
@[simp] theorem dayWork_choices : (dayWork s).choices = s.choices :=
  dayWork_frame s .choices (by decide)
@[simp] theorem dayWork_pending : (dayWork s).pending = s.pending :=
  dayWork_frame s .pending (by decide)

/-! ### handOver -/

theorem handOver_frame (isDay isHour : Bool) :
    onlyChanges [.clock, .books, .engine, .lines, .table, .quotes, .sales, .permits, .cash, .choices, .faults, .notices] s (handOver isDay isHour s) := by
  have h1 : onlyChanges [.clock, .sales, .permits] s (if isDay then dayWork s else s) := by
    split
    · exact dayWork_frame s
    · exact onlyChanges_refl _ s
  have h2 := (h1.trans (activateIfDue_frame _)).trans (endTests_frame _)
  unfold handOver
  dsimp only
  have h3 : ∀ t, onlyChanges [.table, .faults, .notices] t (if isHour then hourCounts t else t) := by
    intro t; split
    · exact hourCounts_frame _
    · exact onlyChanges_refl _ _
  exact ((((h2.trans (h3 _)).trans (pruneLog_frame _)).trans (lapseIfDue_frame _)).trans (watchLines_frame _)).mono (by decide)

@[simp] theorem handOver_cover (isDay isHour : Bool) : (handOver isDay isHour s).cover = s.cover :=
  handOver_frame s isDay isHour .cover (by decide)
@[simp] theorem handOver_ports (isDay isHour : Bool) : (handOver isDay isHour s).ports = s.ports :=
  handOver_frame s isDay isHour .ports (by decide)
@[simp] theorem handOver_pins (isDay isHour : Bool) : (handOver isDay isHour s).pins = s.pins :=
  handOver_frame s isDay isHour .pins (by decide)
@[simp] theorem handOver_wire (isDay isHour : Bool) : (handOver isDay isHour s).wire = s.wire :=
  handOver_frame s isDay isHour .wire (by decide)
@[simp] theorem handOver_pending (isDay isHour : Bool) : (handOver isDay isHour s).pending = s.pending :=
  handOver_frame s isDay isHour .pending (by decide)

/-! ### overflow -/

theorem overflow_frame :
    onlyChanges [.clock, .faults, .notices] s (overflow s) := by
  unfold overflow; split <;> (intro p hp; cases p <;> first | exact absurd (by decide) hp | rfl)

@[simp] theorem overflow_books : (overflow s).books = s.books :=
  overflow_frame s .books (by decide)
@[simp] theorem overflow_engine : (overflow s).engine = s.engine :=
  overflow_frame s .engine (by decide)
@[simp] theorem overflow_lines : (overflow s).lines = s.lines :=
  overflow_frame s .lines (by decide)
@[simp] theorem overflow_table : (overflow s).table = s.table :=
  overflow_frame s .table (by decide)
@[simp] theorem overflow_quotes : (overflow s).quotes = s.quotes :=
  overflow_frame s .quotes (by decide)
@[simp] theorem overflow_sales : (overflow s).sales = s.sales :=
  overflow_frame s .sales (by decide)
@[simp] theorem overflow_permits : (overflow s).permits = s.permits :=
  overflow_frame s .permits (by decide)
@[simp] theorem overflow_cover : (overflow s).cover = s.cover :=
  overflow_frame s .cover (by decide)
@[simp] theorem overflow_cash : (overflow s).cash = s.cash :=
  overflow_frame s .cash (by decide)
@[simp] theorem overflow_ports : (overflow s).ports = s.ports :=
  overflow_frame s .ports (by decide)
@[simp] theorem overflow_pins : (overflow s).pins = s.pins :=
  overflow_frame s .pins (by decide)
@[simp] theorem overflow_wire : (overflow s).wire = s.wire :=
  overflow_frame s .wire (by decide)
@[simp] theorem overflow_choices : (overflow s).choices = s.choices :=
  overflow_frame s .choices (by decide)
@[simp] theorem overflow_pending : (overflow s).pending = s.pending :=
  overflow_frame s .pending (by decide)

/-! ### startSearch -/

theorem startSearch_frame (id : PortId) (r : CoverRequest) :
    onlyChanges [.cover] s (startSearch id r s) := by
  intro p hp; cases p <;> first | exact absurd (by decide) hp | rfl

@[simp] theorem startSearch_clock (id : PortId) (r : CoverRequest) : (startSearch id r s).clock = s.clock :=
  startSearch_frame s id r .clock (by decide)
@[simp] theorem startSearch_books (id : PortId) (r : CoverRequest) : (startSearch id r s).books = s.books :=
  startSearch_frame s id r .books (by decide)
@[simp] theorem startSearch_engine (id : PortId) (r : CoverRequest) : (startSearch id r s).engine = s.engine :=
  startSearch_frame s id r .engine (by decide)
@[simp] theorem startSearch_lines (id : PortId) (r : CoverRequest) : (startSearch id r s).lines = s.lines :=
  startSearch_frame s id r .lines (by decide)
@[simp] theorem startSearch_table (id : PortId) (r : CoverRequest) : (startSearch id r s).table = s.table :=
  startSearch_frame s id r .table (by decide)
@[simp] theorem startSearch_quotes (id : PortId) (r : CoverRequest) : (startSearch id r s).quotes = s.quotes :=
  startSearch_frame s id r .quotes (by decide)
@[simp] theorem startSearch_sales (id : PortId) (r : CoverRequest) : (startSearch id r s).sales = s.sales :=
  startSearch_frame s id r .sales (by decide)
@[simp] theorem startSearch_permits (id : PortId) (r : CoverRequest) : (startSearch id r s).permits = s.permits :=
  startSearch_frame s id r .permits (by decide)
@[simp] theorem startSearch_cash (id : PortId) (r : CoverRequest) : (startSearch id r s).cash = s.cash :=
  startSearch_frame s id r .cash (by decide)
@[simp] theorem startSearch_faults (id : PortId) (r : CoverRequest) : (startSearch id r s).faults = s.faults :=
  startSearch_frame s id r .faults (by decide)
@[simp] theorem startSearch_notices (id : PortId) (r : CoverRequest) : (startSearch id r s).notices = s.notices :=
  startSearch_frame s id r .notices (by decide)
@[simp] theorem startSearch_ports (id : PortId) (r : CoverRequest) : (startSearch id r s).ports = s.ports :=
  startSearch_frame s id r .ports (by decide)
@[simp] theorem startSearch_pins (id : PortId) (r : CoverRequest) : (startSearch id r s).pins = s.pins :=
  startSearch_frame s id r .pins (by decide)
@[simp] theorem startSearch_wire (id : PortId) (r : CoverRequest) : (startSearch id r s).wire = s.wire :=
  startSearch_frame s id r .wire (by decide)
@[simp] theorem startSearch_choices (id : PortId) (r : CoverRequest) : (startSearch id r s).choices = s.choices :=
  startSearch_frame s id r .choices (by decide)
@[simp] theorem startSearch_pending (id : PortId) (r : CoverRequest) : (startSearch id r s).pending = s.pending :=
  startSearch_frame s id r .pending (by decide)

/-! ### chooseCover -/

theorem chooseCover_frame (fuel : Nat) :
    onlyChanges [.cover, .ports] s (chooseCover fuel s) := by
  induction fuel generalizing s with
  | zero => exact onlyChanges_refl _ s
  | succ k ih =>
    unfold chooseCover
    split
    · split
      · exact (startSearch_frame s _ _).mono (by decide)
      · exact (((onCover_frame s _).trans (answerDeferred_frame _ _ _ _ _)).trans (ih _)).mono (by decide)
    · exact onlyChanges_refl _ s

@[simp] theorem chooseCover_clock (fuel : Nat) : (chooseCover fuel s).clock = s.clock :=
  chooseCover_frame s fuel .clock (by decide)
@[simp] theorem chooseCover_books (fuel : Nat) : (chooseCover fuel s).books = s.books :=
  chooseCover_frame s fuel .books (by decide)
@[simp] theorem chooseCover_engine (fuel : Nat) : (chooseCover fuel s).engine = s.engine :=
  chooseCover_frame s fuel .engine (by decide)
@[simp] theorem chooseCover_lines (fuel : Nat) : (chooseCover fuel s).lines = s.lines :=
  chooseCover_frame s fuel .lines (by decide)
@[simp] theorem chooseCover_table (fuel : Nat) : (chooseCover fuel s).table = s.table :=
  chooseCover_frame s fuel .table (by decide)
@[simp] theorem chooseCover_quotes (fuel : Nat) : (chooseCover fuel s).quotes = s.quotes :=
  chooseCover_frame s fuel .quotes (by decide)
@[simp] theorem chooseCover_sales (fuel : Nat) : (chooseCover fuel s).sales = s.sales :=
  chooseCover_frame s fuel .sales (by decide)
@[simp] theorem chooseCover_permits (fuel : Nat) : (chooseCover fuel s).permits = s.permits :=
  chooseCover_frame s fuel .permits (by decide)
@[simp] theorem chooseCover_cash (fuel : Nat) : (chooseCover fuel s).cash = s.cash :=
  chooseCover_frame s fuel .cash (by decide)
@[simp] theorem chooseCover_faults (fuel : Nat) : (chooseCover fuel s).faults = s.faults :=
  chooseCover_frame s fuel .faults (by decide)
@[simp] theorem chooseCover_notices (fuel : Nat) : (chooseCover fuel s).notices = s.notices :=
  chooseCover_frame s fuel .notices (by decide)
@[simp] theorem chooseCover_pins (fuel : Nat) : (chooseCover fuel s).pins = s.pins :=
  chooseCover_frame s fuel .pins (by decide)
@[simp] theorem chooseCover_wire (fuel : Nat) : (chooseCover fuel s).wire = s.wire :=
  chooseCover_frame s fuel .wire (by decide)
@[simp] theorem chooseCover_choices (fuel : Nat) : (chooseCover fuel s).choices = s.choices :=
  chooseCover_frame s fuel .choices (by decide)
@[simp] theorem chooseCover_pending (fuel : Nat) : (chooseCover fuel s).pending = s.pending :=
  chooseCover_frame s fuel .pending (by decide)

/-! ### chooseSearch -/

theorem chooseSearch_frame :
    onlyChanges [.cover, .ports] s (chooseSearch s) := chooseCover_frame s 2

@[simp] theorem chooseSearch_clock : (chooseSearch s).clock = s.clock :=
  chooseSearch_frame s .clock (by decide)
@[simp] theorem chooseSearch_books : (chooseSearch s).books = s.books :=
  chooseSearch_frame s .books (by decide)
@[simp] theorem chooseSearch_engine : (chooseSearch s).engine = s.engine :=
  chooseSearch_frame s .engine (by decide)
@[simp] theorem chooseSearch_lines : (chooseSearch s).lines = s.lines :=
  chooseSearch_frame s .lines (by decide)
@[simp] theorem chooseSearch_table : (chooseSearch s).table = s.table :=
  chooseSearch_frame s .table (by decide)
@[simp] theorem chooseSearch_quotes : (chooseSearch s).quotes = s.quotes :=
  chooseSearch_frame s .quotes (by decide)
@[simp] theorem chooseSearch_sales : (chooseSearch s).sales = s.sales :=
  chooseSearch_frame s .sales (by decide)
@[simp] theorem chooseSearch_permits : (chooseSearch s).permits = s.permits :=
  chooseSearch_frame s .permits (by decide)
@[simp] theorem chooseSearch_cash : (chooseSearch s).cash = s.cash :=
  chooseSearch_frame s .cash (by decide)
@[simp] theorem chooseSearch_faults : (chooseSearch s).faults = s.faults :=
  chooseSearch_frame s .faults (by decide)
@[simp] theorem chooseSearch_notices : (chooseSearch s).notices = s.notices :=
  chooseSearch_frame s .notices (by decide)
@[simp] theorem chooseSearch_pins : (chooseSearch s).pins = s.pins :=
  chooseSearch_frame s .pins (by decide)
@[simp] theorem chooseSearch_wire : (chooseSearch s).wire = s.wire :=
  chooseSearch_frame s .wire (by decide)
@[simp] theorem chooseSearch_choices : (chooseSearch s).choices = s.choices :=
  chooseSearch_frame s .choices (by decide)
@[simp] theorem chooseSearch_pending : (chooseSearch s).pending = s.pending :=
  chooseSearch_frame s .pending (by decide)

/-! ### completeSearch -/

theorem completeSearch_frame (q : Search) (v : Verdict) :
    onlyChanges [.cover, .ports] s (completeSearch q v s) := by
  unfold completeSearch
  exact (((onCover_frame s _).trans (answerDeferred_frame _ _ _ _ _)).trans (chooseSearch_frame _)).mono (by decide)

@[simp] theorem completeSearch_clock (q : Search) (v : Verdict) : (completeSearch q v s).clock = s.clock :=
  completeSearch_frame s q v .clock (by decide)
@[simp] theorem completeSearch_books (q : Search) (v : Verdict) : (completeSearch q v s).books = s.books :=
  completeSearch_frame s q v .books (by decide)
@[simp] theorem completeSearch_engine (q : Search) (v : Verdict) : (completeSearch q v s).engine = s.engine :=
  completeSearch_frame s q v .engine (by decide)
@[simp] theorem completeSearch_lines (q : Search) (v : Verdict) : (completeSearch q v s).lines = s.lines :=
  completeSearch_frame s q v .lines (by decide)
@[simp] theorem completeSearch_table (q : Search) (v : Verdict) : (completeSearch q v s).table = s.table :=
  completeSearch_frame s q v .table (by decide)
@[simp] theorem completeSearch_quotes (q : Search) (v : Verdict) : (completeSearch q v s).quotes = s.quotes :=
  completeSearch_frame s q v .quotes (by decide)
@[simp] theorem completeSearch_sales (q : Search) (v : Verdict) : (completeSearch q v s).sales = s.sales :=
  completeSearch_frame s q v .sales (by decide)
@[simp] theorem completeSearch_permits (q : Search) (v : Verdict) : (completeSearch q v s).permits = s.permits :=
  completeSearch_frame s q v .permits (by decide)
@[simp] theorem completeSearch_cash (q : Search) (v : Verdict) : (completeSearch q v s).cash = s.cash :=
  completeSearch_frame s q v .cash (by decide)
@[simp] theorem completeSearch_faults (q : Search) (v : Verdict) : (completeSearch q v s).faults = s.faults :=
  completeSearch_frame s q v .faults (by decide)
@[simp] theorem completeSearch_notices (q : Search) (v : Verdict) : (completeSearch q v s).notices = s.notices :=
  completeSearch_frame s q v .notices (by decide)
@[simp] theorem completeSearch_pins (q : Search) (v : Verdict) : (completeSearch q v s).pins = s.pins :=
  completeSearch_frame s q v .pins (by decide)
@[simp] theorem completeSearch_wire (q : Search) (v : Verdict) : (completeSearch q v s).wire = s.wire :=
  completeSearch_frame s q v .wire (by decide)
@[simp] theorem completeSearch_choices (q : Search) (v : Verdict) : (completeSearch q v s).choices = s.choices :=
  completeSearch_frame s q v .choices (by decide)
@[simp] theorem completeSearch_pending (q : Search) (v : Verdict) : (completeSearch q v s).pending = s.pending :=
  completeSearch_frame s q v .pending (by decide)

/-! ### acceptCover -/

theorem acceptCover_frame (id : PortId) (r : CoverRequest) :
    onlyChanges [.cover, .ports] s (acceptCover id r s) := by
  unfold acceptCover
  exact (((onCover_frame s _).trans (deferAnswer_frame _ _)).trans (chooseSearch_frame _)).mono (by decide)

@[simp] theorem acceptCover_clock (id : PortId) (r : CoverRequest) : (acceptCover id r s).clock = s.clock :=
  acceptCover_frame s id r .clock (by decide)
@[simp] theorem acceptCover_books (id : PortId) (r : CoverRequest) : (acceptCover id r s).books = s.books :=
  acceptCover_frame s id r .books (by decide)
@[simp] theorem acceptCover_engine (id : PortId) (r : CoverRequest) : (acceptCover id r s).engine = s.engine :=
  acceptCover_frame s id r .engine (by decide)
@[simp] theorem acceptCover_lines (id : PortId) (r : CoverRequest) : (acceptCover id r s).lines = s.lines :=
  acceptCover_frame s id r .lines (by decide)
@[simp] theorem acceptCover_table (id : PortId) (r : CoverRequest) : (acceptCover id r s).table = s.table :=
  acceptCover_frame s id r .table (by decide)
@[simp] theorem acceptCover_quotes (id : PortId) (r : CoverRequest) : (acceptCover id r s).quotes = s.quotes :=
  acceptCover_frame s id r .quotes (by decide)
@[simp] theorem acceptCover_sales (id : PortId) (r : CoverRequest) : (acceptCover id r s).sales = s.sales :=
  acceptCover_frame s id r .sales (by decide)
@[simp] theorem acceptCover_permits (id : PortId) (r : CoverRequest) : (acceptCover id r s).permits = s.permits :=
  acceptCover_frame s id r .permits (by decide)
@[simp] theorem acceptCover_cash (id : PortId) (r : CoverRequest) : (acceptCover id r s).cash = s.cash :=
  acceptCover_frame s id r .cash (by decide)
@[simp] theorem acceptCover_faults (id : PortId) (r : CoverRequest) : (acceptCover id r s).faults = s.faults :=
  acceptCover_frame s id r .faults (by decide)
@[simp] theorem acceptCover_notices (id : PortId) (r : CoverRequest) : (acceptCover id r s).notices = s.notices :=
  acceptCover_frame s id r .notices (by decide)
@[simp] theorem acceptCover_pins (id : PortId) (r : CoverRequest) : (acceptCover id r s).pins = s.pins :=
  acceptCover_frame s id r .pins (by decide)
@[simp] theorem acceptCover_wire (id : PortId) (r : CoverRequest) : (acceptCover id r s).wire = s.wire :=
  acceptCover_frame s id r .wire (by decide)
@[simp] theorem acceptCover_choices (id : PortId) (r : CoverRequest) : (acceptCover id r s).choices = s.choices :=
  acceptCover_frame s id r .choices (by decide)
@[simp] theorem acceptCover_pending (id : PortId) (r : CoverRequest) : (acceptCover id r s).pending = s.pending :=
  acceptCover_frame s id r .pending (by decide)

/-! ### answerOverrides -/

theorem answerOverrides_frame (tag : Tag) (status : Status) :
    onlyChanges [.ports] s (answerOverrides tag status s) := by
  intro p hp; cases p <;> first | exact absurd (by decide) hp | rfl

@[simp] theorem answerOverrides_clock (tag : Tag) (status : Status) : (answerOverrides tag status s).clock = s.clock :=
  answerOverrides_frame s tag status .clock (by decide)
@[simp] theorem answerOverrides_books (tag : Tag) (status : Status) : (answerOverrides tag status s).books = s.books :=
  answerOverrides_frame s tag status .books (by decide)
@[simp] theorem answerOverrides_engine (tag : Tag) (status : Status) : (answerOverrides tag status s).engine = s.engine :=
  answerOverrides_frame s tag status .engine (by decide)
@[simp] theorem answerOverrides_lines (tag : Tag) (status : Status) : (answerOverrides tag status s).lines = s.lines :=
  answerOverrides_frame s tag status .lines (by decide)
@[simp] theorem answerOverrides_table (tag : Tag) (status : Status) : (answerOverrides tag status s).table = s.table :=
  answerOverrides_frame s tag status .table (by decide)
@[simp] theorem answerOverrides_quotes (tag : Tag) (status : Status) : (answerOverrides tag status s).quotes = s.quotes :=
  answerOverrides_frame s tag status .quotes (by decide)
@[simp] theorem answerOverrides_sales (tag : Tag) (status : Status) : (answerOverrides tag status s).sales = s.sales :=
  answerOverrides_frame s tag status .sales (by decide)
@[simp] theorem answerOverrides_permits (tag : Tag) (status : Status) : (answerOverrides tag status s).permits = s.permits :=
  answerOverrides_frame s tag status .permits (by decide)
@[simp] theorem answerOverrides_cover (tag : Tag) (status : Status) : (answerOverrides tag status s).cover = s.cover :=
  answerOverrides_frame s tag status .cover (by decide)
@[simp] theorem answerOverrides_cash (tag : Tag) (status : Status) : (answerOverrides tag status s).cash = s.cash :=
  answerOverrides_frame s tag status .cash (by decide)
@[simp] theorem answerOverrides_faults (tag : Tag) (status : Status) : (answerOverrides tag status s).faults = s.faults :=
  answerOverrides_frame s tag status .faults (by decide)
@[simp] theorem answerOverrides_notices (tag : Tag) (status : Status) : (answerOverrides tag status s).notices = s.notices :=
  answerOverrides_frame s tag status .notices (by decide)
@[simp] theorem answerOverrides_pins (tag : Tag) (status : Status) : (answerOverrides tag status s).pins = s.pins :=
  answerOverrides_frame s tag status .pins (by decide)
@[simp] theorem answerOverrides_wire (tag : Tag) (status : Status) : (answerOverrides tag status s).wire = s.wire :=
  answerOverrides_frame s tag status .wire (by decide)
@[simp] theorem answerOverrides_choices (tag : Tag) (status : Status) : (answerOverrides tag status s).choices = s.choices :=
  answerOverrides_frame s tag status .choices (by decide)
@[simp] theorem answerOverrides_pending (tag : Tag) (status : Status) : (answerOverrides tag status s).pending = s.pending :=
  answerOverrides_frame s tag status .pending (by decide)

/-! ### answerBadges -/

theorem answerBadges_frame (tag : Tag) (status : Status) :
    onlyChanges [.ports] s (answerBadges tag status s) := by
  intro p hp; cases p <;> first | exact absurd (by decide) hp | rfl

@[simp] theorem answerBadges_clock (tag : Tag) (status : Status) : (answerBadges tag status s).clock = s.clock :=
  answerBadges_frame s tag status .clock (by decide)
@[simp] theorem answerBadges_books (tag : Tag) (status : Status) : (answerBadges tag status s).books = s.books :=
  answerBadges_frame s tag status .books (by decide)
@[simp] theorem answerBadges_engine (tag : Tag) (status : Status) : (answerBadges tag status s).engine = s.engine :=
  answerBadges_frame s tag status .engine (by decide)
@[simp] theorem answerBadges_lines (tag : Tag) (status : Status) : (answerBadges tag status s).lines = s.lines :=
  answerBadges_frame s tag status .lines (by decide)
@[simp] theorem answerBadges_table (tag : Tag) (status : Status) : (answerBadges tag status s).table = s.table :=
  answerBadges_frame s tag status .table (by decide)
@[simp] theorem answerBadges_quotes (tag : Tag) (status : Status) : (answerBadges tag status s).quotes = s.quotes :=
  answerBadges_frame s tag status .quotes (by decide)
@[simp] theorem answerBadges_sales (tag : Tag) (status : Status) : (answerBadges tag status s).sales = s.sales :=
  answerBadges_frame s tag status .sales (by decide)
@[simp] theorem answerBadges_permits (tag : Tag) (status : Status) : (answerBadges tag status s).permits = s.permits :=
  answerBadges_frame s tag status .permits (by decide)
@[simp] theorem answerBadges_cover (tag : Tag) (status : Status) : (answerBadges tag status s).cover = s.cover :=
  answerBadges_frame s tag status .cover (by decide)
@[simp] theorem answerBadges_cash (tag : Tag) (status : Status) : (answerBadges tag status s).cash = s.cash :=
  answerBadges_frame s tag status .cash (by decide)
@[simp] theorem answerBadges_faults (tag : Tag) (status : Status) : (answerBadges tag status s).faults = s.faults :=
  answerBadges_frame s tag status .faults (by decide)
@[simp] theorem answerBadges_notices (tag : Tag) (status : Status) : (answerBadges tag status s).notices = s.notices :=
  answerBadges_frame s tag status .notices (by decide)
@[simp] theorem answerBadges_pins (tag : Tag) (status : Status) : (answerBadges tag status s).pins = s.pins :=
  answerBadges_frame s tag status .pins (by decide)
@[simp] theorem answerBadges_wire (tag : Tag) (status : Status) : (answerBadges tag status s).wire = s.wire :=
  answerBadges_frame s tag status .wire (by decide)
@[simp] theorem answerBadges_choices (tag : Tag) (status : Status) : (answerBadges tag status s).choices = s.choices :=
  answerBadges_frame s tag status .choices (by decide)
@[simp] theorem answerBadges_pending (tag : Tag) (status : Status) : (answerBadges tag status s).pending = s.pending :=
  answerBadges_frame s tag status .pending (by decide)

/-! ### refuseOffice -/

theorem refuseOffice_frame (tag : Tag) (status : Status) :
    onlyChanges [.ports] s (refuseOffice tag status s) := by
  intro p hp; cases p <;> first | exact absurd (by decide) hp | rfl

@[simp] theorem refuseOffice_clock (tag : Tag) (status : Status) : (refuseOffice tag status s).clock = s.clock :=
  refuseOffice_frame s tag status .clock (by decide)
@[simp] theorem refuseOffice_books (tag : Tag) (status : Status) : (refuseOffice tag status s).books = s.books :=
  refuseOffice_frame s tag status .books (by decide)
@[simp] theorem refuseOffice_engine (tag : Tag) (status : Status) : (refuseOffice tag status s).engine = s.engine :=
  refuseOffice_frame s tag status .engine (by decide)
@[simp] theorem refuseOffice_lines (tag : Tag) (status : Status) : (refuseOffice tag status s).lines = s.lines :=
  refuseOffice_frame s tag status .lines (by decide)
@[simp] theorem refuseOffice_table (tag : Tag) (status : Status) : (refuseOffice tag status s).table = s.table :=
  refuseOffice_frame s tag status .table (by decide)
@[simp] theorem refuseOffice_quotes (tag : Tag) (status : Status) : (refuseOffice tag status s).quotes = s.quotes :=
  refuseOffice_frame s tag status .quotes (by decide)
@[simp] theorem refuseOffice_sales (tag : Tag) (status : Status) : (refuseOffice tag status s).sales = s.sales :=
  refuseOffice_frame s tag status .sales (by decide)
@[simp] theorem refuseOffice_permits (tag : Tag) (status : Status) : (refuseOffice tag status s).permits = s.permits :=
  refuseOffice_frame s tag status .permits (by decide)
@[simp] theorem refuseOffice_cover (tag : Tag) (status : Status) : (refuseOffice tag status s).cover = s.cover :=
  refuseOffice_frame s tag status .cover (by decide)
@[simp] theorem refuseOffice_cash (tag : Tag) (status : Status) : (refuseOffice tag status s).cash = s.cash :=
  refuseOffice_frame s tag status .cash (by decide)
@[simp] theorem refuseOffice_faults (tag : Tag) (status : Status) : (refuseOffice tag status s).faults = s.faults :=
  refuseOffice_frame s tag status .faults (by decide)
@[simp] theorem refuseOffice_notices (tag : Tag) (status : Status) : (refuseOffice tag status s).notices = s.notices :=
  refuseOffice_frame s tag status .notices (by decide)
@[simp] theorem refuseOffice_pins (tag : Tag) (status : Status) : (refuseOffice tag status s).pins = s.pins :=
  refuseOffice_frame s tag status .pins (by decide)
@[simp] theorem refuseOffice_wire (tag : Tag) (status : Status) : (refuseOffice tag status s).wire = s.wire :=
  refuseOffice_frame s tag status .wire (by decide)
@[simp] theorem refuseOffice_choices (tag : Tag) (status : Status) : (refuseOffice tag status s).choices = s.choices :=
  refuseOffice_frame s tag status .choices (by decide)
@[simp] theorem refuseOffice_pending (tag : Tag) (status : Status) : (refuseOffice tag status s).pending = s.pending :=
  refuseOffice_frame s tag status .pending (by decide)

/-! ### dropPortFrame -/

theorem dropPortFrame_frame (id : PortId) :
    onlyChanges [.ports] s (dropPortFrame id s) := by
  intro p hp; cases p <;> first | exact absurd (by decide) hp | rfl

@[simp] theorem dropPortFrame_clock (id : PortId) : (dropPortFrame id s).clock = s.clock :=
  dropPortFrame_frame s id .clock (by decide)
@[simp] theorem dropPortFrame_books (id : PortId) : (dropPortFrame id s).books = s.books :=
  dropPortFrame_frame s id .books (by decide)
@[simp] theorem dropPortFrame_engine (id : PortId) : (dropPortFrame id s).engine = s.engine :=
  dropPortFrame_frame s id .engine (by decide)
@[simp] theorem dropPortFrame_lines (id : PortId) : (dropPortFrame id s).lines = s.lines :=
  dropPortFrame_frame s id .lines (by decide)
@[simp] theorem dropPortFrame_table (id : PortId) : (dropPortFrame id s).table = s.table :=
  dropPortFrame_frame s id .table (by decide)
@[simp] theorem dropPortFrame_quotes (id : PortId) : (dropPortFrame id s).quotes = s.quotes :=
  dropPortFrame_frame s id .quotes (by decide)
@[simp] theorem dropPortFrame_sales (id : PortId) : (dropPortFrame id s).sales = s.sales :=
  dropPortFrame_frame s id .sales (by decide)
@[simp] theorem dropPortFrame_permits (id : PortId) : (dropPortFrame id s).permits = s.permits :=
  dropPortFrame_frame s id .permits (by decide)
@[simp] theorem dropPortFrame_cover (id : PortId) : (dropPortFrame id s).cover = s.cover :=
  dropPortFrame_frame s id .cover (by decide)
@[simp] theorem dropPortFrame_cash (id : PortId) : (dropPortFrame id s).cash = s.cash :=
  dropPortFrame_frame s id .cash (by decide)
@[simp] theorem dropPortFrame_faults (id : PortId) : (dropPortFrame id s).faults = s.faults :=
  dropPortFrame_frame s id .faults (by decide)
@[simp] theorem dropPortFrame_notices (id : PortId) : (dropPortFrame id s).notices = s.notices :=
  dropPortFrame_frame s id .notices (by decide)
@[simp] theorem dropPortFrame_pins (id : PortId) : (dropPortFrame id s).pins = s.pins :=
  dropPortFrame_frame s id .pins (by decide)
@[simp] theorem dropPortFrame_wire (id : PortId) : (dropPortFrame id s).wire = s.wire :=
  dropPortFrame_frame s id .wire (by decide)
@[simp] theorem dropPortFrame_choices (id : PortId) : (dropPortFrame id s).choices = s.choices :=
  dropPortFrame_frame s id .choices (by decide)
@[simp] theorem dropPortFrame_pending (id : PortId) : (dropPortFrame id s).pending = s.pending :=
  dropPortFrame_frame s id .pending (by decide)

end Sys2Proof.Machine
end

