-- ==== Sys2Proof/Laws/Ops.lean ====
section
/-!
SUPPORT. Laws/Ops.lean: for each shared operation, once, all it does: a latch, a raise or clear of a fault record, a command and its
answer on a port, a frame and its answer on a line.
-/
namespace Sys2Proof.Machine

/-! ## Notices (R176) -/

theorem Notice.isIn_or (n : Notice) (a b : NoticeSet) : n.isIn (a ||| b) = (n.isIn a || n.isIn b) := by
  simp [Notice.isIn]

theorem Notice.isIn_bit (m n : Notice) : m.isIn n.bit = decide (m = n) := by cases m <;> cases n <;> decide

@[simp] theorem latchIn_enable (n : Notice) (w : NoticeState) : (latchIn n w).enable = w.enable := rfl
@[simp] theorem latchIn_call (n : Notice) (w : NoticeState) : (latchIn n w).call = w.call := rfl
@[simp] theorem latchIn_lamp (n : Notice) (w : NoticeState) : (latchIn n w).lamp = w.lamp := rfl

/-- A latch adds its source, through the enable set and the call mask, to the office pending set. -/
theorem latchIn_office (m n : Notice) (w : NoticeState) : m.isIn (latchIn n w).office =
    (m.isIn w.office || (decide (m = n) && n.isIn w.enable && n.isIn w.call)) := by
  unfold latchIn
  by_cases h : (n.isIn w.enable && n.isIn w.call) = true
  · simp only [h, if_true, Notice.isIn_or, Notice.isIn_bit, Bool.and_assoc, Bool.and_true]
  · simp only [Bool.not_eq_true] at h
    simp [h, Bool.and_assoc]

/-- A latch adds its source, through the enable set and the lamp mask, to the site pending set. -/
theorem latchIn_site (m n : Notice) (w : NoticeState) : m.isIn (latchIn n w).site =
    (m.isIn w.site || (decide (m = n) && n.isIn w.enable && n.isIn w.lamp)) := by
  unfold latchIn
  by_cases h : (n.isIn w.enable && n.isIn w.lamp) = true
  · simp only [h, if_true, Notice.isIn_or, Notice.isIn_bit, Bool.and_assoc, Bool.and_true]
  · simp only [Bool.not_eq_true] at h
    simp [h, Bool.and_assoc]

/-! ## Fault records (R162, R163) -/

theorem TermFault.index_injective : Function.Injective TermFault.index := by
  intro a b h; cases a <;> cases b <;> first | rfl | exact absurd h (by decide)

@[simp] theorem putTerminal_zone (f : FaultTable) (n : Line) (k : TermFault) (r : FaultRecord) :
    (putTerminal f n k r).zone = f.zone := rfl
@[simp] theorem putTerminal_grace (f : FaultTable) (n : Line) (k : TermFault) (r : FaultRecord) :
    (putTerminal f n k r).grace = f.grace := rfl

/-- One record of the table is replaced, and every other stays. -/
theorem terminalRecord_put (f : FaultTable) (n m : Line) (k j : TermFault) (r : FaultRecord) :
    terminalRecord (putTerminal f n k r) m j = if m = n ∧ j = k then r else terminalRecord f m j := by
  unfold terminalRecord putTerminal
  dsimp only
  rw [row_change]
  by_cases hm : m = n
  · subst hm
    rw [if_pos rfl, row_put]
    by_cases hj : j = k
    · subst hj; simp
    · rw [if_neg (fun h => hj (TermFault.index_injective h)), if_neg (fun h => hj h.2)]
  · rw [if_neg hm, if_neg (fun h => hm h.1)]

@[simp] theorem regraceIn_terminals (table : Vector Entry 16) (z : ZoneMinute) (p : Fin 8) (w : Watch) :
    (regraceIn table z p w).1.terminals = w.1.terminals := rfl
@[simp] theorem regraceIn_zone (table : Vector Entry 16) (z : ZoneMinute) (p : Fin 8) (w : Watch) :
    (regraceIn table z p w).1.zone = w.1.zone := rfl

/-- A re-evaluation latches GRACE_STARTED or nothing. -/
theorem regraceIn_notices (table : Vector Entry 16) (z : ZoneMinute) (p : Fin 8) (w : Watch) :
    (regraceIn table z p w).2 = w.2 ∨ (regraceIn table z p w).2 = latchIn .graceStarted w.2 := by
  unfold regraceIn; dsimp only; split <;> simp

@[simp] theorem followService_terminals (table : Vector Entry 16) (z : ZoneMinute) (n : Line) (v : Service) (w : Watch) :
    (followService table z n v w).1.terminals = w.1.terminals := by unfold followService; split <;> rfl
@[simp] theorem followService_zone (table : Vector Entry 16) (z : ZoneMinute) (n : Line) (v : Service) (w : Watch) :
    (followService table z n v w).1.zone = w.1.zone := by unfold followService; split <;> rfl

theorem followService_notices (table : Vector Entry 16) (z : ZoneMinute) (n : Line) (v : Service) (w : Watch) :
    (followService table z n v w).2 = w.2 ∨ (followService table z n v w).2 = latchIn .graceStarted w.2 := by
  unfold followService; split
  · exact regraceIn_notices ..
  · exact Or.inl rfl

theorem terminalRecord_congr {f g : FaultTable} (h : f.terminals = g.terminals) (n : Line) (k : TermFault) :
    terminalRecord f n k = terminalRecord g n k := by unfold terminalRecord; rw [h]

/-- A raise of a terminal kind replaces its record, and no other (R162). -/
theorem raiseIn_record (table : Vector Entry 16) (z : ZoneMinute) (spared : Bool) (n m : Line) (k j : TermFault)
    (d : Option Nat) (w : Watch) : terminalRecord (raiseIn table z spared n k d w).1 m j =
      if m = n ∧ j = k then (terminalRecord w.1 n k).raised z d else terminalRecord w.1 m j := by
  rw [← terminalRecord_put]
  exact terminalRecord_congr (by unfold raiseIn; simp) m j

@[simp] theorem raiseIn_zone (table : Vector Entry 16) (z : ZoneMinute) (spared : Bool) (n : Line) (k : TermFault)
    (d : Option Nat) (w : Watch) : (raiseIn table z spared n k d w).1.zone = w.1.zone := by unfold raiseIn; simp

/-- A clear of a terminal kind: a standing record becomes CLEAR, and nothing else changes (R163). -/
theorem clearIn_record (table : Vector Entry 16) (z : ZoneMinute) (n m : Line) (k j : TermFault) (w : Watch) :
    terminalRecord (clearIn table z n k w).1 m j =
      if m = n ∧ j = k then
        (if (terminalRecord w.1 n k).state = .clear then terminalRecord w.1 n k else (terminalRecord w.1 n k).cleared z)
      else terminalRecord w.1 m j := by
  unfold clearIn
  dsimp only
  by_cases h : (terminalRecord w.1 n k).state = .clear
  · have hs : (terminalRecord w.1 n k).standing = false := by simp [FaultRecord.standing, h]
    rw [hs]
    simp only [Bool.false_eq_true, if_false, h, if_true]
    split
    · rename_i hm; rw [hm.1, hm.2]
    · rfl
  · have hs : (terminalRecord w.1 n k).standing = true := by simp [FaultRecord.standing, h]
    rw [hs]
    simp only [if_true, h, if_false]
    rw [← terminalRecord_put]
    exact terminalRecord_congr (by simp) m j

@[simp] theorem clearIn_zone (table : Vector Entry 16) (z : ZoneMinute) (n : Line) (k : TermFault) (w : Watch) :
    (clearIn table z n k w).1.zone = w.1.zone := by unfold clearIn; dsimp only; split <;> simp

/-- What a raise latches besides GRACE_STARTED: FAULT_OPENED, unless the record was OPEN or the notice is spared. -/
theorem raiseIn_notices (table : Vector Entry 16) (z : ZoneMinute) (spared : Bool) (n : Line) (k : TermFault)
    (d : Option Nat) (w : Watch) :
    let v := if (terminalRecord w.1 n k).state ≠ .opened ∧ spared = false then latchIn .faultOpened w.2 else w.2
    (raiseIn table z spared n k d w).2 = v ∨ (raiseIn table z spared n k d w).2 = latchIn .graceStarted v := by
  intro v
  have h : ((terminalRecord w.1 n k).state != .opened && !spared) = true ↔
      ((terminalRecord w.1 n k).state ≠ .opened ∧ spared = false) := by simp
  have hv : v = if ((terminalRecord w.1 n k).state != .opened && !spared) = true then latchIn .faultOpened w.2 else w.2 :=
    if_congr h.symm rfl rfl
  rw [hv]
  unfold raiseIn
  exact followService_notices ..

/-- What a clear latches besides GRACE_STARTED: FAULT_CLEARED where the record stood. -/
theorem clearIn_notices (table : Vector Entry 16) (z : ZoneMinute) (n : Line) (k : TermFault) (w : Watch) :
    let v := if (terminalRecord w.1 n k).state ≠ .clear then latchIn .faultCleared w.2 else w.2
    (clearIn table z n k w).2 = v ∨ (clearIn table z n k w).2 = latchIn .graceStarted v := by
  intro v
  unfold clearIn
  dsimp only
  by_cases h : (terminalRecord w.1 n k).state = .clear
  · simp [FaultRecord.standing, h, v]
  · have : (terminalRecord w.1 n k).standing = true := by simp [FaultRecord.standing, h]
    simp only [this, if_true, v, ne_eq, h, not_false_eq_true]
    exact followService_notices ..

/-- A clear of a zone kind: a standing record becomes CLEAR, a CLEAR one stays, and no other zone record changes (R163). -/
theorem clearZoneIn_zone (z : ZoneMinute) (k : ZoneFault) (w : Watch) : (clearZoneIn z k w).1.zone =
    put w.1.zone k.index
      (if (row w.1.zone k.index).state = .clear then row w.1.zone k.index else (row w.1.zone k.index).cleared z) := by
  unfold clearZoneIn
  dsimp only
  by_cases h : (row w.1.zone k.index).state = .clear
  · have hs : (row w.1.zone k.index).standing = false := by simp [FaultRecord.standing, h]
    rw [hs, if_pos h, put_row_self]; rfl
  · have hs : (row w.1.zone k.index).standing = true := by simp [FaultRecord.standing, h]
    rw [hs, if_neg h]; rfl

theorem clearZoneIn_notices (z : ZoneMinute) (k : ZoneFault) (w : Watch) : (clearZoneIn z k w).2 =
    if (row w.1.zone k.index).state = .clear then w.2 else latchIn .faultCleared w.2 := by
  unfold clearZoneIn
  dsimp only
  by_cases h : (row w.1.zone k.index).state = .clear
  · have hs : (row w.1.zone k.index).standing = false := by simp [FaultRecord.standing, h]
    rw [hs, if_pos h]; rfl
  · have hs : (row w.1.zone k.index).standing = true := by simp [FaultRecord.standing, h]
    rw [hs, if_neg h]; rfl

/-- A clear of a zone kind leaves the terminal records and the grace of every plan. -/
theorem clearZoneIn_others (z : ZoneMinute) (k : ZoneFault) (w : Watch) :
    (clearZoneIn z k w).1.terminals = w.1.terminals ∧ (clearZoneIn z k w).1.grace = w.1.grace := by
  unfold clearZoneIn; dsimp only; split <;> exact ⟨rfl, rfl⟩

theorem raiseZoneIn_notices (z : ZoneMinute) (k : ZoneFault) (d : Option Nat) (w : Watch) : (raiseZoneIn z k d w).2 =
    if (row w.1.zone k.index).state = .opened then w.2 else latchIn .faultOpened w.2 := by
  unfold raiseZoneIn
  dsimp only
  by_cases h : (row w.1.zone k.index).state = .opened
  · rw [if_pos h, h]; rfl
  · rw [if_neg h, if_pos (by simpa using h)]

/-- A terminal is named by its number. -/
theorem terminalOf_number (n : Line) : terminalOf n.number = some n := by
  unfold terminalOf Line.number
  rw [rowNumber_some (by omega)]; congr 1

theorem oneBit14 (i a : Fin 14) : (1#14 <<< a.val).getLsbD i.val = decide (i = a) := by revert i a; decide

/-- The set of a terminal's kinds holds exactly the kinds whose records satisfy `p`. -/
theorem kindSet_bit (records : Vector FaultRecord 14) (p : FaultRecord → Bool) (i : Fin 14) :
    (kindSet records p).getLsbD i.val = p (row records i) := by
  have h : ∀ (l : List (Fin 14)) (acc : BitVec 14),
      (l.foldl (fun acc i => if p (row records i) then acc ||| (1#14 <<< i.val) else acc) acc).getLsbD i.val =
        (acc.getLsbD i.val || (decide (i ∈ l) && p (row records i))) := by
    intro l
    induction l with
    | nil => intro acc; simp
    | cons a l ih =>
      intro acc
      rw [List.foldl_cons, ih]
      by_cases hp : p (row records a) = true
      · rw [if_pos hp, BitVec.getLsbD_or, oneBit14]
        by_cases ha : i = a
        · subst ha; simp [hp]
        · simp [ha]
      · rw [if_neg hp]
        by_cases ha : i = a
        · subst ha; simp [hp]
        · simp [ha]
  unfold kindSet
  rw [h]; simp [List.mem_finRange]

theorem oneBit4 (i a : Fin 4) : (1#4 <<< a.val).getLsbD i.val = decide (i = a) := by revert i a; decide

/-- The set of zone kinds holds exactly those not CLEAR. -/
theorem zoneSet_bit (records : Vector FaultRecord 4) (i : Fin 4) :
    (zoneSet records).getLsbD i.val = (row records i).standing := by
  have h : ∀ (l : List (Fin 4)) (acc : BitVec 4),
      (l.foldl (fun acc i => if (row records i).standing then acc ||| (1#4 <<< i.val) else acc) acc).getLsbD i.val =
        (acc.getLsbD i.val || (decide (i ∈ l) && (row records i).standing)) := by
    intro l
    induction l with
    | nil => intro acc; simp
    | cons a l ih =>
      intro acc
      rw [List.foldl_cons, ih]
      by_cases hp : (row records a).standing = true
      · rw [if_pos hp, BitVec.getLsbD_or, oneBit4]
        by_cases ha : i = a
        · subst ha; simp [hp]
        · simp [ha]
      · rw [if_neg hp]
        by_cases ha : i = a
        · subst ha; simp [hp]
        · simp [ha]
  unfold zoneSet
  rw [h]; simp [List.mem_finRange]

theorem standing_iff (r : FaultRecord) : r.standing = true ↔ r.state ≠ .clear := by simp [FaultRecord.standing]

/-! ## Commands and answers on a port (R182 to R186) -/

/-- An answer given at once is the answer of the claims. -/
theorem answerPort_eq (s : State) (id : PortId) (tag : Tag) (st : Status) (b : Body) :
    answerPort id tag st b s = answering s id tag st b := by
  unfold answerPort answering withAnswer
  congr 2
  funext p
  unfold Port.append Port.start
  rcases p with ⟨frame, queue, sending, deferred⟩
  cases sending <;> cases queue <;> rfl

theorem answerDeferred_eq (s : State) (id : PortId) (tag : Tag) (st : Status) (b : Body) :
    answerDeferred id tag st b s = answering { s with ports := s.ports.onPort id fun p => { p with deferred := p.deferred - 1 } }
      id tag st b := by
  rw [← answerPort_eq]
  unfold answerDeferred answerPort
  cases id <;> rfl

/-- A command that its port takes: refused BAD_FIELD for a field out of range, else handed to its block. -/
theorem takeCommand_taken {source : Source} {role : Role} {s : State} (h : sourceTakes s source role) (tag : Tag) (ok : Bool)
    (act : State → State) : takeCommand source tag ok role act s =
      if ok = true then act s else answering s source.port tag .badField .empty := by
  unfold takeCommand
  cases source with
  | office =>
    have hl : listening s .office = true := h
    simp only [Source.port, hl, badgeInRange, badgePasses, answerPort_eq]
    cases ok <;> rfl
  | service b =>
    obtain ⟨hl, h1, h2, hp⟩ := h
    simp only [Source.port, hl, badgeInRange, hp, h1, h2, answerPort_eq]
    cases ok <;> rfl

theorem officeCommand_taken {s : State} (h : officeTakes s) (tag : Tag) (ok : Bool) (act : State → State) :
    officeCommand tag ok act s = if ok = true then act s else answering s .office tag .badField .empty :=
  takeCommand_taken (source := .office) (role := .any) h tag ok act

theorem takeService_taken {badge : Nat} {role : Role} {s : State} (h : serviceTakes s badge role) (tag : Tag) (ok : Bool)
    (act : State → State) : takeCommand (.service badge) tag ok role act s =
      if ok = true then act s else answering s .service tag .badField .empty :=
  takeCommand_taken (source := .service badge) (role := role) h tag ok act

/-! ## Frames and answers on a line (R73 to R79) -/

theorem sameBut_change {α : Type} {k : Nat} (i : Fin k) (a : Vector α k) (f : α → α) : sameBut i a (change a i f) :=
  fun _ hj => row_change_other a f hj

theorem sameBut_put {α : Type} {k : Nat} (i : Fin k) (a : Vector α k) (x : α) : sameBut i a (put a i x) :=
  fun _ hj => row_put_other a x hj

theorem sameBut_refl {α : Type} {k : Nat} (i : Fin k) (a : Vector α k) : sameBut i a a := fun _ _ => rfl

theorem sameBut.trans {α : Type} {k : Nat} {i : Fin k} {a b c : Vector α k} (h : sameBut i a b) (g : sameBut i b c) :
    sameBut i a c := fun j hj => (g j hj).trans (h j hj)

/-- The envelope is formed from the clock, the terminal table and the fault table. -/
theorem envelopeOf_congr {s t : State} (n : Line) (hc : t.clock = s.clock) (ht : t.table = s.table) (hf : t.faults = s.faults) :
    envelopeOf t n = envelopeOf s n := by unfold envelopeOf serviceState; rw [hc, ht, hf]

/-- An answer to the request of a PENDING line on which no frame is being assembled is transmitted. -/
theorem answerPending_answered {s u : State} {n : Line} (hl : sameBut n s.lines u.lines)
    (hp : (row u.lines n).state = .pending) (hr : (row u.lines n).request.isSome = true) (hf : (row u.lines n).frame = none)
    (st : Status) (b : Body) : answeredOn s (answerPending n st b u) n st b := by
  have hrow : row (answerPending n st b u).lines n =
      (row u.lines n).sendAnswer { status := st, body := b } (envelopeOf u n) := by
    rw [answerPending_lines, row_change_self]
    unfold LineUnit.answered
    have : (row u.lines n).request.isNone = false := by
      cases h : (row u.lines n).request <;> simp_all
    simp [this, hp, hf]
  have he : envelopeOf (answerPending n st b u) n = envelopeOf u n := envelopeOf_congr n rfl rfl rfl
  refine ⟨?_, ?_, ?_, ?_, ?_⟩
  · rw [hrow, he]; rfl
  · rw [hrow]; rfl
  · rw [hrow]; rfl
  · rw [hrow]; exact hf
  · rw [answerPending_lines]; exact hl.trans (sameBut_change n _ _)

/-- The line as the owning block finds it when a request is accepted. -/
theorem asTaken_row (s : State) (n : Line) (k : RequestKind) : row (asTaken s n k).lines n =
    { row s.lines n with state := .pending, frame := none, request := some k, held := none } := by
  unfold asTaken; rw [acceptRequest_lines, row_change_self]

theorem asTaken_lines (s : State) (n : Line) (k : RequestKind) : sameBut n s.lines (asTaken s n k).lines := by
  unfold asTaken; rw [acceptRequest_lines, heard_lines]; exact sameBut_change n _ _

theorem asTaken_frame (s : State) (n : Line) (k : RequestKind) :
    onlyChanges [.lines, .table, .faults, .notices] s (asTaken s n k) :=
  ((heard_frame s n).trans (acceptRequest_frame _ n k)).mono (by decide)

/-- The answer that a block gives at once to an accepted request, when it has not touched the lines. -/
theorem answerTaken {s u : State} {n : Line} {k : RequestKind} (hu : u.lines = (asTaken s n k).lines) (st : Status) (b : Body) :
    answeredOn s (answerPending n st b u) n st b := by
  apply answerPending_answered
  · rw [hu]; exact asTaken_lines s n k
  · rw [hu, asTaken_row]
  · rw [hu, asTaken_row]; rfl
  · rw [hu, asTaken_row]

/-- An answer that comes to a line unit (R77, R78). -/
theorem answered_comes {s t : State} {n : Line} {st : Status} {b : Body} {e : Envelope} (he : e = envelopeOf t n)
    (h : row t.lines n = (row s.lines n).answered { status := st, body := b } e) : answerComes s t n st b := by
  subst he
  unfold answerComes
  dsimp only
  rw [h]
  unfold LineUnit.answered
  refine ⟨?_, ?_, ?_⟩
  · intro hr; rw [hr]; rfl
  · intro hr hp hf
    rw [if_neg (by rw [Option.isSome_iff_ne_none] at hr; simpa using hr), hp, hf]
    unfold LineUnit.sendAnswer; simp [hf]
  · intro hr hp
    rw [if_neg (by rw [Option.isSome_iff_ne_none] at hr; simpa using hr)]
    rcases hp with ⟨hp, hf⟩ | ⟨r, c, hp⟩
    · rw [hp, hf]; rfl
    · rw [hp]

/-- The answer of a block to the request of a line, in the terms of the claims. -/
theorem answerPending_comes {s u : State} {n : Line} (hl : u.lines = s.lines) (st : Status) (b : Body) :
    answerComes s (answerPending n st b u) n st b ∧ sameBut n s.lines (answerPending n st b u).lines := by
  refine ⟨answered_comes (e := envelopeOf u n) (envelopeOf_congr n rfl rfl rfl).symm ?_, ?_⟩
  · rw [answerPending_lines, row_change_self, hl]
  · rw [answerPending_lines, hl]; exact sameBut_change n _ _

/-- A frame of a request in range on the line of an ACTIVE terminal is accepted and handed to its block. -/
theorem takeFrame_accepted {s : State} {n : Line} (h : lineTakes s n) (k : RequestKind) (act : State → State) :
    takeFrame n (some k) true act s = act (asTaken s n k) := by
  obtain ⟨⟨-, hst, -, -⟩, ha⟩ := h
  unfold takeFrame asTaken
  rcases hst with hst | hst <;> simp [hst, ha]

/-- An answer given at once, without the request being accepted. -/
theorem replyAtOnce_answered {s : State} {n : Line} (h : lineFree s n) (st : Status) :
    answeredOn s (replyAtOnce n st false (heard n s)) n st .empty := by
  obtain ⟨-, -, hr, hh⟩ := h
  have he : envelopeOf (replyAtOnce n st false (heard n s)) n = envelopeOf (heard n s) n := envelopeOf_congr n rfl rfl rfl
  unfold answeredOn
  rw [he, replyAtOnce_lines, row_change_self, heard_lines]
  refine ⟨rfl, hr, hh, rfl, sameBut_change n _ _⟩

/-- A frame of a request whose fields do not lie in range is answered BAD_FIELD at once. -/
theorem takeFrame_badField {s : State} {n : Line} (h : lineFree s n) (k : RequestKind) (act : State → State) :
    takeFrame n (some k) false act s = replyAtOnce n .badField false (heard n s) := by
  obtain ⟨-, hst, -, -⟩ := h
  unfold takeFrame
  rcases hst with hst | hst <;> simp [hst]

theorem replyAtOnce_heard_frame (s : State) (n : Line) (st : Status) (back : Bool) :
    onlyChanges [.lines, .table, .faults, .notices] s (replyAtOnce n st back (heard n s)) :=
  ((heard_frame s n).trans (replyAtOnce_frame _ n st back)).mono (by decide)

/-- What a valid frame changes at the terminal table and the fault table (R76, R166). -/
theorem heard_records (s : State) (n : Line) :
    row (heard n s).table n = { row s.table n with lastHeard := now s } ∧ sameBut n s.table (heard n s).table ∧
      (terminalRecord (heard n s).faults n .lineSilent).state = .clear ∧ (heard n s).faults.zone = s.faults.zone ∧
      ∀ m k, (m ≠ n ∨ k ≠ .lineSilent) → terminalRecord (heard n s).faults m k = terminalRecord s.faults m k := by
  have htab : (heard n s).table = change s.table n (fun e => { e with lastHeard := s.clock.reading }) := rfl
  have hfa : (heard n s).faults =
      (clearIn (change s.table n (fun e => { e with lastHeard := s.clock.reading })) s.clock.reading n .lineSilent
        (s.faults, s.notices)).1 := rfl
  refine ⟨by rw [htab, row_change_self]; rfl, by rw [htab]; exact sameBut_change n _ _, ?_, ?_, ?_⟩
  · rw [hfa, clearIn_record, if_pos ⟨rfl, rfl⟩]
    split
    · assumption
    · rfl
  · rw [hfa, clearIn_zone]
  · intro m k h
    rw [hfa, clearIn_record, if_neg]
    rintro ⟨rfl, rfl⟩
    rcases h with h | h <;> exact h rfl

end Sys2Proof.Machine
end

