-- ==== Sys2Proof/Laws/Units.lean ====
section
/-!
SUPPORT. Laws/Units.lean: for the units of the part, once, what their shared operations do: terminals and lines, permits, cover
searches, the book store, the fault unit.
-/
namespace Sys2Proof.Machine

/-! ## Notices -/

/-- A set that names a source outside the twelve is no notice set (R178). -/
theorem noticeSetOf_none {b : BitVec 16} (h : 4096 ≤ b.toNat) : noticeSetOf b = none := by
  unfold noticeSetOf; rw [if_neg (by omega)]

/-- A set of the twelve sources, as it is read (R178). -/
theorem noticeSetOf_some {b : BitVec 16} (h : b.toNat < 4096) : noticeSetOf b = some (b.setWidth 12) := by
  unfold noticeSetOf; rw [if_pos h]

/-! ## Permits and overrides -/

/-- A refresh keeps the number of an entry. -/
theorem refreshed_number (p : Permit) (d : Nat) : (p.refreshed d).number = p.number := by
  unfold Permit.refreshed; split <;> rfl

/-- The register after the permit read of one number: that entry refreshed, every other as before (R124). -/
theorem lookup_refreshIn (l : List Permit) (n d m : Nat) :
    lookup Permit.number m (refreshIn l n d) =
      (lookup Permit.number m l).map fun p => if m = n then p.refreshed d else p := by
  induction l with
  | nil => rfl
  | cons p l ih =>
    unfold refreshIn lookup at *
    rw [List.map_cons, List.find?_cons, List.find?_cons]
    have hk : Permit.number (if p.number = n then p.refreshed d else p) = p.number := by
      split
      · exact refreshed_number p d
      · rfl
    rw [hk]
    by_cases h : p.number = m
    · simp [h]
    · have : (p.number == m) = false := by simpa using h
      rw [this]; exact ih

/-- In a register kept in its order the first entry found is the one of lowest number. -/
theorem find_lowest (P : Permit → Prop) (f : Permit → Bool) (hf : ∀ p, f p = true ↔ P p) (l : List Permit)
    (hr : Rising Permit.number l) (p : Permit) (h : lowestOf P l p) : l.find? f = some p := by
  obtain ⟨hm, hp, hlow⟩ := h
  induction l with
  | nil => cases hm
  | cons a l ih =>
    rw [List.find?_cons]
    by_cases ha : P a
    · rw [(hf a).mpr ha]
      rcases List.mem_cons.mp hm with rfl | hml
      · rfl
      · have h1 := (List.pairwise_cons.mp hr).1 p hml
        have h2 := hlow a (by simp) ha
        exact absurd h1 (by omega)
    · rw [show f a = false from by rw [Bool.eq_false_iff]; exact fun hh => ha ((hf a).mp hh)]
      rcases List.mem_cons.mp hm with rfl | hml
      · exact absurd hp ha
      · exact ih hr.tail hml (fun q hq => hlow q (List.mem_cons_of_mem _ hq))

/-- The entry of lowest number is the first one found. -/
theorem lowest_find (P : Permit → Prop) (f : Permit → Bool) (hf : ∀ p, f p = true ↔ P p) (l : List Permit)
    (hr : Rising Permit.number l) (p : Permit) (h : l.find? f = some p) : lowestOf P l p := by
  induction l with
  | nil => cases h
  | cons a l ih =>
    rw [List.find?_cons] at h
    by_cases ha : f a = true
    · rw [ha] at h; cases h
      refine ⟨by simp, (hf _).mp ha, ?_⟩
      intro q hq _
      rcases List.mem_cons.mp hq with rfl | hq
      · exact Nat.le_refl _
      · exact Nat.le_of_lt ((List.pairwise_cons.mp hr).1 q hq)
    · simp only [Bool.not_eq_true] at ha
      rw [ha] at h
      obtain ⟨h1, h2, h3⟩ := ih hr.tail h
      refine ⟨List.mem_cons_of_mem _ h1, h2, ?_⟩
      intro q hq hP
      rcases List.mem_cons.mp hq with rfl | hq
      · rw [(hf _).mpr hP] at ha; cases ha
      · exact h3 q hq hP

/-! ## Terminals -/

/-- A number out of range names no terminal. -/
theorem terminalOf_none {k : Nat} (h : k < 1 ∨ 16 < k) : terminalOf k = none := by
  unfold terminalOf rowNumber; rw [dif_neg (by omega)]

/-- A number of 1 to 16 names one terminal. -/
theorem terminalsOf_number (n : Line) : terminalsOf n.number = some [n] := by
  unfold terminalsOf; rw [if_neg (by simp [Line.number]), terminalOf_number]; rfl

/-- A number above 16 names none. -/
theorem terminalsOf_none {k : Nat} (h : 16 < k) : terminalsOf k = none := by
  unfold terminalsOf; rw [if_neg (by omega), terminalOf_none (Or.inr h)]; rfl

/-- A change of the entries of one terminal. -/
theorem onEntries_one (n : Line) (f : Entry → Entry) (s : State) : onEntries [n] f s = onEntry n f s := by
  have : (onEntries [n] f s).table = (onEntry n f s).table := by
    rw [onEntries_table, onEntry_table]
    apply table_ext; intro i
    rw [row_ofFn, row_change]
    by_cases h : i = n
    · subst h; simp
    · simp [h]
  unfold onEntries onEntry at *
  simp only at this
  rw [this]

/-- A change of the entries of all terminals. -/
theorem onEntries_all (f : Entry → Entry) (s : State) :
    onEntries (List.finRange 16) f s = { s with table := Vector.ofFn fun n => f (row s.table n) } := by
  unfold onEntries
  have : (Vector.ofFn fun n => if (List.finRange 16).contains n then f (row s.table n) else row s.table n) = Vector.ofFn fun n => f (row s.table n) := by
    apply table_ext; intro n
    rw [row_ofFn, row_ofFn, if_pos (by simp)]
  rw [this]

/-- While the blocks run an event is taken. -/
theorem whenRunning_true {s : State} (h : running s = true) (f : State → State) : whenRunning f s = f s := by
  unfold whenRunning; rw [h]; rfl

/-- A frame of no request kind on a free line is answered BAD_FIELD at once. -/
theorem takeFrame_free_none {s : State} {n : Line} (h : lineFree s n) (ok : Bool) (act : State → State) :
    takeFrame n none ok act s = replyAtOnce n .badField false (heard n s) := by
  obtain ⟨-, hst, -, -⟩ := h
  unfold takeFrame
  rcases hst with hst | hst <;> simp [hst]

/-- A request in range from an UNCONFIGURED terminal is answered NOT_CONFIGURED at once. -/
theorem takeFrame_notConfigured {s : State} {n : Line} (h : lineFree s n) (ha : (row s.table n).active = false) (k : RequestKind)
    (hk : k ≠ .hello) (act : State → State) :
    takeFrame n (some k) true act s = replyAtOnce n .notConfigured false (heard n s) := by
  obtain ⟨-, hst, -, -⟩ := h
  unfold takeFrame
  rcases hst with hst | hst <;> simp [hst, ha, hk]

/-- A HELLO on a free line is accepted, whether or not the terminal is ACTIVE. -/
theorem takeFrame_hello {s : State} {n : Line} (h : lineFree s n) (act : State → State) :
    takeFrame n (some .hello) true act s = act (asTaken s n .hello) := by
  obtain ⟨-, hst, -, -⟩ := h
  unfold takeFrame asTaken
  rcases hst with hst | hst <;> simp [hst]

/-- A frame on a PENDING line is answered BUSY. -/
theorem takeFrame_pending {s : State} {n : Line} (h : (row s.lines n).state = .pending) (k : Option RequestKind) (ok : Bool)
    (act : State → State) : takeFrame n k ok act s = replyAtOnce n .busy true (heard n s) := by
  unfold takeFrame; rw [h]

/-- What a withdrawal does at the quote engine. -/
theorem withdraw_engine (n : Line) (b : Bool) (s : State) :
    (withdraw n b s).engine = { s.engine with slots := put s.engine.slots (lineSlot n) none } := by
  unfold withdraw
  by_cases h : (row s.engine.slots (lineSlot n)).isSome = true
  · rw [if_pos h]; cases b <;> rfl
  · rw [if_neg h]
    have : row s.engine.slots (lineSlot n) = none := by simpa using h
    have hp : put s.engine.slots (lineSlot n) none = s.engine.slots := by
      conv_rhs => rw [← put_row_self s.engine.slots (lineSlot n), this]
    rw [hp]

/-- A disturbance has the effects of R89 on the transaction. -/
theorem disturb_disturbed (n : Line) (b : Bool) (s : State) : disturbed n b s (disturb n b s) := by
  unfold disturbed
  have hq : (disturb n b s).quotes = put s.quotes n none := by unfold disturb; rw [markWalk_quotes, withdraw_quotes]; rfl
  have he : (disturb n b s).engine = { s.engine with
      slots := put s.engine.slots (lineSlot n) none
      walk := s.engine.walk.map fun w => if w.slot = lineSlot n then w.marked b else w } := by
    unfold disturb markWalk
    rw [onEngine_engine, withdraw_engine, cancelQuote_engine]
  rw [hq, he]
  exact ⟨row_put_self _ _ _, sameBut_put _ _ _, row_put_self _ _ _, sameBut_put _ _ _, rfl, rfl⟩

/-- A line reset withdraws without an answer. -/
theorem disturb_lines_reset (n : Line) (s : State) : (disturb n true s).lines = s.lines := by
  unfold disturb markWalk
  rw [onEngine_lines]
  unfold withdraw
  split <;> rfl

/-- The request withdrawn is answered. -/
theorem disturb_withdrawn (n : Line) (s u : State) (st : Status) (hl : u.lines = s.lines) (he : u.engine = s.engine) (hst : goneStatus u n = st) :
    withdrawnAnswered s (disturb n false u) n st := by
  constructor
  · intro hn
    unfold disturb markWalk
    rw [onEngine_lines]
    unfold withdraw
    rw [cancelQuote_engine, he, hn]
    exact hl
  · intro hn
    have hs : (row (cancelQuote n u).engine.slots (lineSlot n)).isSome = true := by
      rw [cancelQuote_engine, he]; cases h : row s.engine.slots (lineSlot n) <;> simp_all
    let v := onEngine (fun e => { e with slots := put e.slots (lineSlot n) none }) (cancelQuote n u)
    have hv : withdraw n false (cancelQuote n u) = answerPending n (goneStatus v n) .empty v := by
      unfold withdraw; rw [if_pos hs]; rfl
    have hg : goneStatus v n = st := by rw [← hst]; rfl
    have hd : disturb n false u = markWalk n false (answerPending n st .empty v) := by
      unfold disturb; rw [hv, hg]
    have he2 : envelopeOf (markWalk n false (answerPending n st .empty v)) n = envelopeOf (answerPending n st .empty v) n := envelopeOf_congr n rfl rfl rfl
    have ha := answerPending_comes (u := v) (n := n) (s := s) hl st .empty
    rw [hd]
    unfold answerComes at *
    rw [he2]
    exact ha

/-- What a change of mode does (R89, R90, R91). -/
theorem changeMode_spec (n : Line) (f : Entry → Entry) (s : State) (hf : ∀ e, (f e).active = e.active) :
    onlyChanges [.table, .quotes, .engine, .lines] s (changeMode n f s) ∧ row (changeMode n f s).table n = f (row s.table n) ∧
      sameBut n s.table (changeMode n f s).table ∧
      disturbed n false s (changeMode n f s) ∧
      withdrawnAnswered s (changeMode n f s) n (if (row s.table n).active then .stale else .notConfigured) := by
  refine ⟨(changeMode_frame s n f).mono (by decide), ?_, ?_, ?_, ?_⟩
  · unfold changeMode; rw [disturb_table, onEntry_table, row_change_self]
  · unfold changeMode; rw [disturb_table, onEntry_table]; exact sameBut_change _ _ _
  · exact disturb_disturbed n false (onEntry n f s)
  · apply disturb_withdrawn n s (onEntry n f s) _ rfl rfl
    unfold goneStatus; rw [onEntry_table, row_change_self, hf]

theorem find_first {α} (p : α → Bool) : ∀ (l : List α) (x : α), x ∈ l → p x = true → (∃ a, l.find? p = some a)
  | [], _, h, _ => by cases h
  | a :: l, x, h, hp => by
    rw [List.find?_cons]
    by_cases ha : p a = true
    · exact ⟨a, by rw [ha]⟩
    · simp only [Bool.not_eq_true] at ha
      rw [ha]
      rcases List.mem_cons.mp h with rfl | h
      · rw [ha] at hp; cases hp
      · exact find_first p l x h hp

theorem bool_eq_of_iff {a b : Bool} {P : Prop} (h1 : a = true ↔ P) (h2 : b = true ↔ P) : a = b := by
  cases a <;> cases b <;> simp_all

/-! ## Cover searches -/

/-- No record of the log has the ticket. -/
theorem sessionByTicket_none (log : List Session) (t : Ticket) (h : ∀ r ∈ log, r.ticket ≠ t) : sessionByTicket log t = none := by
  unfold sessionByTicket
  rw [List.find?_eq_none]; intro x hx; simpa using h x (List.mem_reverse.mp hx)

/-- The record of highest serial that has the ticket. -/
theorem sessionByTicket_some (log : List Session) (t : Ticket) (hr : Rising Session.serial log) (r : Session) (h : r ∈ log)
    (ht : r.ticket = t) (hm : ∀ q ∈ log, q.ticket = t → q.serial ≤ r.serial) : sessionByTicket log t = some r := by
  unfold sessionByTicket
  have hrev : log.reverse.Pairwise (fun x y => y.serial < x.serial) := List.pairwise_reverse.mpr hr
  have hmem : r ∈ log.reverse := List.mem_reverse.mpr h
  have hm' : ∀ q ∈ log.reverse, q.ticket = t → q.serial ≤ r.serial := fun q hq => hm q (List.mem_reverse.mp hq)
  generalize log.reverse = l at *
  clear hr h hm
  induction l with
  | nil => cases hmem
  | cons a l ih =>
    rw [List.find?_cons]
    by_cases ha : a.ticket = t
    · rw [show (a.ticket == t) = true from by simpa using ha]
      rcases List.mem_cons.mp hmem with rfl | hml
      · rfl
      · have h1 := (List.pairwise_cons.mp hrev).1 r hml
        have h2 := hm' a (by simp) ha
        exact absurd h1 (by omega)
    · rw [show (a.ticket == t) = false from by simpa using ha]
      rcases List.mem_cons.mp hmem with rfl | hml
      · exact absurd ht ha
      · exact ih hrev.tail hml (fun q hq => hm' q (List.mem_cons_of_mem _ hq))

theorem names_iff (plan : Fin 8) (m : Mark) (p : Permit) : p.names plan m = true ↔ namesMark plan m p := by
  unfold Permit.names namesMark Permit.marks
  cases hk : p.kind <;> simp

theorem inDays_iff (d : Nat) (p : Permit) : p.inDays d = true ↔ withinDays d p := by
  unfold Permit.inDays withinDays; simp

theorem business_iff (p : Permit) : p.isBusiness = true ↔ ∃ m, p.kind = .business m := by
  unfold Permit.isBusiness; cases hk : p.kind <;> simp

/-- What the read of the register in a search gives (R137 to R139). -/
theorem permitStage_cases (l : List Permit) (plan : Fin 8) (m : Mark) (d : Nat) (c : Option Session) :
    (∃ v, permitStage l plan m d c = .decided v) ∨ ∃ o, permitStage l plan m d c = .permitRead c o := by
  unfold permitStage; dsimp only; split
  · exact Or.inl ⟨_, rfl⟩
  · exact Or.inl ⟨_, rfl⟩
  · exact Or.inr ⟨_, rfl⟩

/-- No COVER waits. -/
theorem nextCover_none (c : CoverUnit) (h : ∀ id r, c.slot id ≠ .waiting r) : nextCover c = none := by
  have ho := h .office
  have hs := h .service
  simp only [CoverUnit.slot] at ho hs
  unfold nextCover
  split
  · exact absurd (by assumption) (ho _)
  · exact absurd (by assumption) (ho _)
  · exact absurd (by assumption) (hs _)
  · rfl

/-- The COVER the unit takes next. -/
theorem nextCover_one (c : CoverUnit) (id : PortId) (r : CoverRequest) (h : c.slot id = .waiting r)
    (hn : (∀ other w, other ≠ id → c.slot other ≠ .waiting w) ∨ c.last ≠ id) : nextCover c = some (id, r) := by
  unfold nextCover
  cases id with
  | office =>
    have ho : c.office = .waiting r := h
    rw [ho]
    cases hv : c.service with
    | waiting b =>
      dsimp only
      rcases hn with hn | hn
      · exact absurd hv (hn .service b (by decide))
      · rw [if_neg hn]
    | _ => rfl
  | service =>
    have ho : c.service = .waiting r := h
    rw [ho]
    cases hv : c.office with
    | waiting b =>
      dsimp only
      rcases hn with hn | hn
      · exact absurd hv (hn .office b (by decide))
      · rw [if_pos]; cases hl : c.last <;> simp_all
    | _ => rfl

theorem slot_setSlot (c : CoverUnit) (i j : PortId) (x : CoverSlot) : (c.setSlot i x).slot j = if j = i then x else c.slot j := by
  cases i <;> cases j <;> rfl

/-! ## Book store -/

/-- A load into a free staged book (R22, R23). -/
theorem load_eq {α : Type} {s : State} (hf : stagedFree s.books) (tag : Tag) (part : Option α) (further : Book → α → Except Status Book) :
    load tag part further s = match part with
      | none => answering s .office tag .badField .empty
      | some a =>
        match further s.books.stagedBook a with
        | .error r => answering s .office tag r .empty
        | .ok k => answering { s with books := { s.books.setStaged k with stagedState := .editing, revision := s.books.revision + 1 } }
            .office tag .ok (.revision (s.books.revision + 1)) := by
  obtain ⟨h1, h2, h3, h4⟩ := hf
  have hr : s.books.loadRefusal = none := by
    unfold BookStore.loadRefusal
    rw [h1, h4]
    cases hs : s.books.stagedState <;> simp_all
  unfold load
  rw [hr]
  cases part with
  | none => dsimp only; unfold refuseOffice; rw [answerPort_eq]
  | some a =>
    dsimp only
    cases further s.books.stagedBook a with
    | error r => dsimp only; unfold refuseOffice; rw [answerPort_eq]
    | ok k =>
      dsimp only
      unfold acceptLoad
      dsimp only
      rw [answerPort_eq]
      rfl

/-- A load that is refused (R29). -/
theorem load_refused {α : Type} {s : State} (tag : Tag) (part : Option α) (further : Book → α → Except Status Book) (st : Status)
    (h : s.books.loadRefusal = some st) : load tag part further s = answering s .office tag st .empty := by
  unfold load; rw [h]; dsimp only; unfold refuseOffice; rw [answerPort_eq]

theorem risesByDay_iff (l : List CalendarEntry) : risesByDay l = true ↔ Rising CalendarEntry.day l := by
  induction l with
  | nil => simp [risesByDay]
  | cons a l ih =>
    cases l with
    | nil => simp [risesByDay]
    | cons b l =>
      unfold risesByDay
      rw [Bool.and_eq_true, ih, decide_eq_true_eq]
      constructor
      · rintro ⟨h1, h2⟩
        refine List.pairwise_cons.mpr ⟨?_, h2⟩
        intro x hx
        rcases List.mem_cons.mp hx with rfl | hx
        · exact h1
        · exact Nat.lt_trans h1 ((List.pairwise_cons.mp h2).1 x hx)
      · intro h
        obtain ⟨h1, h2⟩ := List.pairwise_cons.mp h
        exact ⟨h1 b (by simp), h2⟩

theorem firstNotRising_iff (i prev : Nat) (l : List Nat) : firstNotRising i prev l = none ↔ (prev :: l).Pairwise (· < ·) := by
  induction l generalizing i prev with
  | nil => simp [firstNotRising]
  | cons a l ih =>
    unfold firstNotRising
    by_cases h : prev < a
    · rw [if_pos h, ih]
      constructor
      · intro hh
        refine List.pairwise_cons.mpr ⟨?_, hh⟩
        intro x hx
        rcases List.mem_cons.mp hx with rfl | hx
        · exact h
        · exact Nat.lt_trans h ((List.pairwise_cons.mp hh).1 x hx)
      · intro hh; exact (List.pairwise_cons.mp hh).2
    · rw [if_neg h]
      constructor
      · intro hh; cases hh
      · intro hh; exact absurd ((List.pairwise_cons.mp hh).1 a (by simp)) h

theorem ladderFinding_iff (l : Fin 16) (steps : List LadderStep) : ladderFinding l steps = [] ↔ wellOrderedLadder steps := by
  unfold ladderFinding wellOrderedLadder
  cases steps with
  | nil => simp
  | cons st rest =>
    dsimp only
    have hp : (st :: rest).Pairwise (fun a b => a.limit < b.limit) ↔ firstNotRising 2 st.limit (rest.map LadderStep.limit) = none := by
      rw [firstNotRising_iff, ← List.map_cons, List.pairwise_map]
    rw [hp]
    cases hf : firstNotRising 2 st.limit (rest.map LadderStep.limit) with
    | some i => simp
    | none => simp

theorem periodFinding_iff (p : Fin 8) (t : Fin 9) (l : List Period) : periodFinding p t l = [] ↔ wellOrderedPattern l := by
  unfold periodFinding wellOrderedPattern
  cases l with
  | nil => simp
  | cons st rest =>
    dsimp only
    have hp : (st :: rest).Pairwise (fun a b => a.start < b.start) ↔ firstNotRising 2 st.start (rest.map Period.start) = none := by
      rw [firstNotRising_iff, ← List.map_cons, List.pairwise_map]
    rw [hp]
    by_cases h0 : st.start = 0
    · rw [if_neg (by simpa using h0)]
      cases hf : firstNotRising 2 st.start (rest.map Period.start) with
      | some i => simp
      | none => simp [h0]
    · rw [if_pos h0]; simp [h0]

theorem missingLadders_iff (k : Book) (p : Fin 8) (t : Fin 9) (i : Nat) (l : List Period) : missingLadders k p t i l = [] ↔
    ∀ q ∈ l, ∀ n m, q.kind = .charged n m → (row k.ladders n).isSome = true := by
  induction l generalizing i with
  | nil => simp [missingLadders]
  | cons q l ih =>
    unfold missingLadders
    rw [List.append_eq_nil_iff, ih]
    simp only [List.mem_cons, forall_eq_or_imp]
    apply and_congr_left'
    cases hk : q.kind with
    | charged n m => 
      simp only
      cases hn : row k.ladders n <;> simp [hn]
    | free => simp
    | noSale => simp

/-! ## Fault unit -/

/-- A replaced record of another kind does not show. -/
theorem hasFault_put (f : FaultTable) (n m : Line) (k j : TermFault) (r : FaultRecord) (h : j ≠ k) :
    hasFault (row (putTerminal f n k r).terminals m) j = hasFault (row f.terminals m) j := by
  show (terminalRecord (putTerminal f n k r) m j).standing = (terminalRecord f m j).standing
  rw [terminalRecord_put, if_neg (fun hh => h hh.2)]

/-- The kinds the service state counts (R171). -/
def countsForService : TermFault → Bool
  | .printerEmpty | .coinJam | .cardFault | .doorOpen | .lineSilent | .boxFull | .boxAbsent | .boxIdentity => true
  | _ => false

/-- A replaced record of a kind the service state does not count leaves the service state. -/
theorem serviceIn_put (table : Vector Entry 16) (f : FaultTable) (n m : Line) (k : TermFault) (r : FaultRecord)
    (h : countsForService k = false) : serviceIn table (putTerminal f n k r) m = serviceIn table f m := by
  have hh : ∀ j, countsForService j = true → hasFault (row (putTerminal f n k r).terminals m) j = hasFault (row f.terminals m) j := by
    intro j hj; apply hasFault_put; rintro rfl; rw [h] at hj; cases hj
  unfold serviceIn serviceOf hasCashFault
  rw [hh .printerEmpty rfl, hh .coinJam rfl, hh .cardFault rfl, hh .doorOpen rfl, hh .lineSilent rfl, hh .boxFull rfl, hh .boxAbsent rfl, hh .boxIdentity rfl]

/-- Records that stand alike give one service state. -/
theorem serviceIn_congr (table : Vector Entry 16) (f g : FaultTable) (m : Line)
    (h : ∀ k, (terminalRecord f m k).standing = (terminalRecord g m k).standing) : serviceIn table f m = serviceIn table g m := by
  have hf : ∀ k, hasFault (row f.terminals m) k = hasFault (row g.terminals m) k := fun k => h k
  unfold serviceIn serviceOf hasCashFault
  simp only [hf]

/-- A raise that leaves the service state leaves every grace record. -/
theorem raiseIn_grace (table : Vector Entry 16) (z : ZoneMinute) (spared : Bool) (n : Line) (k : TermFault) (d : Option Nat) (w : Watch)
    (h : countsForService k = false) : (raiseIn table z spared n k d w).1.grace = w.1.grace := by
  unfold raiseIn followService
  dsimp only
  rw [serviceIn_put _ _ _ _ _ _ h]
  simp

/-- All that counting a discarded frame does (R76, R167). -/
theorem countDiscard_spec (n : Line) (s : State) :
    let count := min 65535 ((row s.table n).discards + 1)
    let t := countDiscard n s
    onlyChanges [.table, .faults, .notices] s t ∧ row t.table n = { row s.table n with discards := count } ∧
        sameBut n s.table t.table ∧ t.faults.zone = s.faults.zone ∧ t.faults.grace = s.faults.grace ∧
        (terminalRecord t.faults n .lineNoisy = if count = 16
          then (terminalRecord s.faults n .lineNoisy).raised (now s) (some 16) else terminalRecord s.faults n .lineNoisy) ∧
        ∀ m k, (m ≠ n ∨ k ≠ .lineNoisy) → terminalRecord t.faults m k = terminalRecord s.faults m k := by
  intro count t
  refine ⟨countDiscard_frame s n, ?_⟩
  have ht : t.table = change s.table n (fun e => { e with discards := count }) := by
    show (countDiscard n s).table = _
    unfold countDiscard
    dsimp only
    split <;> rfl
  by_cases h16 : saturate 65535 (row s.table n).discards 1 = 16
  · have hc : count = 16 := h16
    have hf : t.faults = (raiseIn t.table s.clock.reading false n .lineNoisy (some 16) (s.faults, s.notices)).1 := by
      rw [ht]
      show (countDiscard n s).faults = _
      unfold countDiscard
      dsimp only
      rw [if_pos h16, h16]; rw [hc]; rfl
    refine ⟨by rw [ht, row_change_self], by rw [ht]; exact sameBut_change n _ _, by rw [hf, raiseIn_zone], by rw [hf, raiseIn_grace _ _ _ _ _ _ _ rfl], ?_, ?_⟩
    · rw [hf, raiseIn_record, if_pos ⟨rfl, rfl⟩, if_pos hc]; rfl
    · intro m k hmk; rw [hf, raiseIn_record, if_neg (by rintro ⟨rfl, rfl⟩; rcases hmk with h | h <;> exact h rfl)]
  · have hc : count ≠ 16 := h16
    have hf : t.faults = s.faults := by
      show (countDiscard n s).faults = _
      unfold countDiscard
      dsimp only
      rw [if_neg h16]; rfl
    refine ⟨by rw [ht, row_change_self], by rw [ht]; exact sameBut_change n _ _, by rw [hf], by rw [hf], ?_, ?_⟩
    · rw [hf, if_neg hc]
    · intro m k _; rw [hf]

/-- A re-evaluation replaces one grace record (R174). -/
theorem regraceIn_grace (table : Vector Entry 16) (z : ZoneMinute) (p : Fin 8) (w : Watch) :
    (regraceIn table z p w).1.grace = put w.1.grace p ((row w.1.grace p).reevaluated z (unservedIn table w.1 p)) := rfl

/-- Whether a plan is unserved is read from the terminal records. -/
theorem unservedIn_congr (table : Vector Entry 16) (f g : FaultTable) (h : f.terminals = g.terminals) (p : Fin 8) :
    unservedIn table f p = unservedIn table g p := by
  have : ∀ n, serviceIn table f n = serviceIn table g n := fun n => by unfold serviceIn; rw [h]
  unfold unservedIn; simp only [this]

/-- After a re-evaluation a record is ACTIVE exactly where the plan is unserved (R173). -/
theorem reevaluated_active (g : Grace) (z : ZoneMinute) (u : Bool) : (∃ since, g.reevaluated z u = .active since) ↔ u = true := by
  unfold Grace.reevaluated
  split <;> simp

/-! ## The findings of the book check -/

/-- The first place at which a list does not rise, counted from i. -/
theorem firstNotRising_some (i prev j : Nat) (l : List Nat) : firstNotRising i prev l = some j ↔
    ∃ m, j = i + m ∧ m < l.length ∧ (prev :: l.take m).Pairwise (· < ·) ∧ ¬ (prev :: l.take (m + 1)).Pairwise (· < ·) := by
  induction l generalizing i prev with
  | nil => simp [firstNotRising]
  | cons a l ih =>
    unfold firstNotRising
    have hchain : ∀ k : List Nat, prev < a → ((prev :: a :: k).Pairwise (· < ·) ↔ (a :: k).Pairwise (· < ·)) := by
      intro k hp
      constructor
      · intro h; exact (List.pairwise_cons.mp h).2
      · intro h
        refine List.pairwise_cons.mpr ⟨?_, h⟩
        intro x hx
        rcases List.mem_cons.mp hx with rfl | hx
        · exact hp
        · exact Nat.lt_trans hp ((List.pairwise_cons.mp h).1 x hx)
    by_cases h : prev < a
    · rw [if_pos h, ih]
      constructor
      · rintro ⟨m, h1, h2, h3, h4⟩
        refine ⟨m + 1, by omega, by simpa using h2, ?_, ?_⟩
        · rw [List.take_succ_cons, hchain _ h]; exact h3
        · rw [List.take_succ_cons, hchain _ h]; exact h4
      · rintro ⟨m, h1, h2, h3, h4⟩
        cases m with
        | zero => exfalso; apply h4; simp [h]
        | succ m =>
          rw [List.take_succ_cons, hchain _ h] at h3 h4
          exact ⟨m, by omega, by simpa using h2, h3, h4⟩
    · rw [if_neg h]
      constructor
      · intro hh; cases hh; exact ⟨0, by simp, by simp, by simp, by simp [h]⟩
      · rintro ⟨m, h1, h2, h3, h4⟩
        cases m with
        | zero => simp [h1]
        | succ m =>
          exfalso; apply h
          exact (List.pairwise_cons.mp h3).1 a (by simp)

/-- Counted from 2, it is the first fall of the claims. -/
theorem firstNotRising_fall (prev j : Nat) (l : List Nat) : firstNotRising 2 prev l = some j ↔ firstFall (prev :: l) j := by
  rw [firstNotRising_some]
  unfold firstFall
  constructor
  · rintro ⟨m, h1, h2, h3, h4⟩
    subst h1
    refine ⟨by omega, by simp; omega, ?_, ?_⟩
    · have : 2 + m - 1 = m + 1 := by omega
      rw [this]; exact h3
    · have : 2 + m = m + 1 + 1 := by omega
      rw [this]; exact h4
  · rintro ⟨h1, h2, h3, h4⟩
    obtain ⟨m, rfl⟩ : ∃ m, j = 2 + m := ⟨j - 2, by omega⟩
    have a1 : 2 + m - 1 = m + 1 := by omega
    have a2 : 2 + m = m + 1 + 1 := by omega
    rw [a1] at h3; rw [a2] at h4
    exact ⟨m, rfl, by simp at h2; omega, h3, h4⟩

/-- The finding of a ladder (R30): its first fall, or an end that is not 1,440. -/
theorem mem_ladderFinding (l : Fin 16) (steps : List LadderStep) (f : Finding) : f ∈ ladderFinding l steps ↔
    ∃ i, f = .ladderOrder l i ∧ (firstFall (steps.map LadderStep.limit) i ∨
      ((steps.map LadderStep.limit).Pairwise (· < ·) ∧ (steps.map LadderStep.limit).getLast? ≠ some 1440 ∧ i = max 1 steps.length)) := by
  unfold ladderFinding
  cases steps with
  | nil => simp [firstFall]
  | cons st rest =>
    dsimp only
    have hf := fun j => firstNotRising_fall st.limit j (rest.map LadderStep.limit)
    have hn := firstNotRising_iff 2 st.limit (rest.map LadderStep.limit)
    rw [List.map_cons]
    cases hx : firstNotRising 2 st.limit (rest.map LadderStep.limit) with
    | some j =>
      have hno : ¬ (st.limit :: rest.map LadderStep.limit).Pairwise (· < ·) := by
        intro hh; rw [hn.mpr hh] at hx; cases hx
      simp only [List.mem_singleton]
      constructor
      · rintro rfl; exact ⟨j, rfl, Or.inl ((hf j).mp hx)⟩
      · rintro ⟨i, rfl, h | h⟩
        · rw [(hf i).mpr h] at hx; cases hx; rfl
        · exact absurd h.1 hno
    | none =>
      have hp := hn.mp hx
      have hno : ∀ j, ¬ firstFall (st.limit :: rest.map LadderStep.limit) j := by
        intro j hj; rw [(hf j).mpr hj] at hx; cases hx
      have hl : ((st :: rest).getLast?.map LadderStep.limit) = (st.limit :: rest.map LadderStep.limit).getLast? := by
        rw [← List.map_cons, List.getLast?_map]
      dsimp only
      rw [hl]
      by_cases h : (st.limit :: rest.map LadderStep.limit).getLast? = some 1440
      · rw [if_pos (by simpa using h)]
        simp only [List.not_mem_nil, false_iff]
        rintro ⟨i, rfl, h' | h'⟩
        · exact hno _ h'
        · exact h'.2.1 h
      · rw [if_neg (by simpa using h)]
        simp only [List.mem_singleton]
        have hm : max 1 (st :: rest).length = (st :: rest).length := by simp
        constructor
        · rintro rfl; exact ⟨_, rfl, Or.inr ⟨hp, h, hm.symm⟩⟩
        · rintro ⟨i, rfl, h' | h'⟩
          · exact absurd h' (hno _)
          · rw [h'.2.2, hm]

/-- The finding of a pattern (R30): a first period that does not begin the day, or the first fall. -/
theorem mem_periodFinding (p : Fin 8) (t : Fin 9) (l : List Period) (f : Finding) : f ∈ periodFinding p t l ↔
    ∃ i, f = .periodOrder p t i ∧ (((l.map Period.start).head? ≠ some 0 ∧ i = 1) ∨
      ((l.map Period.start).head? = some 0 ∧ firstFall (l.map Period.start) i)) := by
  unfold periodFinding
  cases l with
  | nil => simp
  | cons q rest =>
    dsimp only
    have hf := fun j => firstNotRising_fall q.start j (rest.map Period.start)
    rw [List.map_cons]
    by_cases h0 : q.start = 0
    · rw [if_neg (by simpa using h0)]
      cases hx : firstNotRising 2 q.start (rest.map Period.start) with
      | some j =>
        simp only [List.mem_singleton, List.head?_cons, h0]
        rw [h0] at hf hx
        constructor
        · rintro rfl; exact ⟨j, rfl, Or.inr ⟨by simp, (hf j).mp hx⟩⟩
        · rintro ⟨i, rfl, h | h⟩
          · exact absurd rfl h.1
          · rw [(hf i).mpr h.2] at hx; cases hx; rfl
      | none =>
        simp only [List.not_mem_nil, false_iff]
        rintro ⟨i, rfl, h | h⟩
        · exact h.1 (by simp [h0])
        · rw [(hf i).mpr h.2] at hx; cases hx
    · rw [if_pos h0]; simp [h0]

/-- The findings of the ladders that a pattern's periods lack (R30). -/
theorem mem_missingLadders (k : Book) (p : Fin 8) (t : Fin 9) (i : Nat) (l : List Period) (f : Finding) : f ∈ missingLadders k p t i l ↔
    ∃ j q n stay, f = .ladderMissing p t (i + j) ∧ l[j]? = some q ∧ q.kind = .charged n stay ∧ row k.ladders n = none := by
  induction l generalizing i with
  | nil => simp [missingLadders]
  | cons q l ih =>
    unfold missingLadders
    rw [List.mem_append, ih]
    constructor
    · rintro (h | ⟨j, q', n, stay, h1, h2, h3, h4⟩)
      · cases hk : q.kind with
        | charged n m =>
          rw [hk] at h
          dsimp only at h
          split at h
          · rename_i hn
            simp at h hn
            exact ⟨0, q, n, m, by simpa using h, by simp, hk, hn⟩
          · simp at h
        | free => rw [hk] at h; simp at h
        | noSale => rw [hk] at h; simp at h
      · exact ⟨j + 1, q', n, stay, by rw [h1]; congr 1; omega, by simpa using h2, h3, h4⟩
    · rintro ⟨j, q', n, stay, h1, h2, h3, h4⟩
      cases j with
      | zero =>
        left
        simp at h2; subst h2
        rw [h3]
        dsimp only
        rw [h4]; simp [h1]
      | succ j => right; exact ⟨j, q', n, stay, by rw [h1]; congr 1; omega, by simpa using h2, h3, h4⟩

end Sys2Proof.Machine
end

