-- ==== Sys2Proof/Laws/Boundary.lean ====
section
/-!
SUPPORT. Laws/Boundary.lean: what a minute boundary, a step and a restart do to every block.
-/
namespace Sys2Proof.Machine

/-- A clear of LINE_NOISY leaves the grace records. -/
theorem clearIn_noisy_grace (table : Vector Entry 16) (z : ZoneMinute) (n : Line) (w : Watch) :
    (clearIn table z n .lineNoisy w).1.grace = w.1.grace := by
  unfold clearIn
  dsimp only
  split
  · unfold followService
    rw [if_neg]
    · rfl
    · rw [serviceIn_put _ _ _ _ _ _ (by decide)]; simp
  · rfl

/-- Clearing LINE_NOISY on a list of lines: each record it names, and nothing else (R167). -/
theorem noisyFold (table : Vector Entry 16) (z : ZoneMinute) : ∀ (l : List Line) (w : Watch), l.Nodup →
    let v := l.foldl (fun w n => if (row table n).discards < 16 then clearIn table z n .lineNoisy w else w) w
    v.1.grace = w.1.grace ∧ v.1.zone = w.1.zone ∧ ∀ n k, terminalRecord v.1 n k =
      if n ∈ l ∧ k = .lineNoisy ∧ (row table n).discards < 16 ∧ (terminalRecord w.1 n .lineNoisy).state ≠ .clear then
        (terminalRecord w.1 n .lineNoisy).cleared z else terminalRecord w.1 n k := by
  intro l
  induction l with
  | nil => intro w _; simp
  | cons a l ih =>
    intro w hn
    obtain ⟨ha, hn⟩ := List.nodup_cons.mp hn
    rw [List.foldl_cons]
    obtain ⟨h1, h2, h3⟩ := ih (if (row table a).discards < 16 then clearIn table z a .lineNoisy w else w) hn
    refine ⟨?_, ?_, ?_⟩
    · rw [h1]; split
      · exact clearIn_noisy_grace ..
      · rfl
    · rw [h2]; split
      · exact clearIn_zone ..
      · rfl
    · intro n k
      rw [h3]
      by_cases hna : n = a
      · subst hna
        have : ¬ (n ∈ l ∧ k = .lineNoisy ∧ (row table n).discards < 16 ∧ (terminalRecord (if (row table n).discards < 16 then clearIn table z n .lineNoisy w else w).1 n .lineNoisy).state ≠ .clear) := fun h => ha h.1
        rw [if_neg this]
        split
        · rename_i hd
          rw [clearIn_record]
          by_cases hk : k = .lineNoisy
          · subst hk
            rw [if_pos ⟨rfl, rfl⟩]
            by_cases hc : (terminalRecord w.1 n .lineNoisy).state = .clear
            · rw [if_pos hc, if_neg]; simp [hc]
            · rw [if_neg hc, if_pos]; simp [hc, hd]
          · rw [if_neg (fun h => hk h.2), if_neg]; simp [hk]
        · rename_i hd
          rw [if_neg]; simp [hd]
      · have hrec : ∀ j, terminalRecord (if (row table a).discards < 16 then clearIn table z a .lineNoisy w else w).1 n j = terminalRecord w.1 n j := by
          intro j; split
          · rw [clearIn_record, if_neg (fun h => hna h.1)]
          · rfl
        simp only [hrec, List.mem_cons, hna, false_or]

/-- An hour boundary: LINE_NOISY cleared where the count is below 16, and every count zeroed (R76, R167). -/
theorem hourCounts_spec (s : State) :
    (hourCounts s).table = changeAll s.table (fun e => { e with discards := 0 }) ∧
    (hourCounts s).faults.grace = s.faults.grace ∧ (hourCounts s).faults.zone = s.faults.zone ∧
    ∀ n k, terminalRecord (hourCounts s).faults n k =
      if k = .lineNoisy ∧ (row s.table n).discards < 16 ∧ (terminalRecord s.faults n .lineNoisy).state ≠ .clear then
        (terminalRecord s.faults n .lineNoisy).cleared (now s) else terminalRecord s.faults n k := by
  have h := noisyFold s.table s.clock.reading (List.finRange 16) (s.faults, s.notices) (List.nodup_finRange 16)
  refine ⟨rfl, h.1, h.2.1, ?_⟩
  intro n k
  have := h.2.2 n k
  simp only [List.mem_finRange, true_and] at this
  exact this

/-- Silence. -/
theorem silenceIn_record (table : Vector Entry 16) (z : ZoneMinute) (n m : Line) (k : TermFault) (w : Watch) :
    terminalRecord (silenceIn table z n w).1 m k =
      if m = n ∧ k = .lineSilent ∧ silentDue table z n w.1 = true then
        (terminalRecord w.1 n .lineSilent).raised z (some (row table n).lastHeard) else terminalRecord w.1 m k := by
  unfold silenceIn
  by_cases h : silentDue table z n w.1 = true
  · rw [if_pos h, raiseIn_record]; simp [h]
  · rw [if_neg h, if_neg (fun hh => h hh.2.2)]

/-- The comparison of R166 leaves the zone records. -/
theorem silenceIn_zone (table : Vector Entry 16) (z : ZoneMinute) (n : Line) (w : Watch) :
    (silenceIn table z n w).1.zone = w.1.zone := by
  unfold silenceIn; split
  · exact raiseIn_zone ..
  · rfl

/-- LINE_SILENT standing puts an ACTIVE terminal out of service (R171). -/
theorem outOfService_of_silent (table : Vector Entry 16) (f : FaultTable) (n : Line) (ha : (row table n).active = true)
    (h : (terminalRecord f n .lineSilent).state ≠ .clear) : serviceIn table f n = .outOfService := by
  unfold serviceIn serviceOf
  rw [if_pos ha, if_pos]
  have : hasFault (row f.terminals n) .lineSilent = true := by
    unfold hasFault; rw [standing_iff]; exact h
  simp [this]

/-- The service state is read from the terminal's own records. -/
theorem serviceIn_other (table : Vector Entry 16) (f g : FaultTable) (m : Line) (h : row f.terminals m = row g.terminals m) :
    serviceIn table f m = serviceIn table g m := by unfold serviceIn; rw [h]

/-- Fourteen records alike are one row of records. -/
theorem row_ext14 (f g : FaultTable) (m : Line) (h : ∀ k, terminalRecord f m k = terminalRecord g m k) :
    row f.terminals m = row g.terminals m := by
  apply table_ext
  intro i
  have hs : ∃ k : TermFault, k.index = i := by
    fin_cases i
    exacts [⟨.printerLow, rfl⟩, ⟨.printerEmpty, rfl⟩, ⟨.coinJam, rfl⟩, ⟨.cardFault, rfl⟩, ⟨.doorOpen, rfl⟩, ⟨.supplyLow, rfl⟩,
      ⟨.lineSilent, rfl⟩, ⟨.lineNoisy, rfl⟩, ⟨.boxNearFull, rfl⟩, ⟨.boxFull, rfl⟩, ⟨.boxAbsent, rfl⟩, ⟨.boxIdentity, rfl⟩,
      ⟨.unroundedLift, rfl⟩, ⟨.cashVariance, rfl⟩]
  obtain ⟨k, rfl⟩ := hs
  exact h k

/-- Silence only takes terminals out of service. -/
theorem silence_service (table : Vector Entry 16) (z : ZoneMinute) (n m : Line) (w : Watch) :
    serviceIn table (silenceIn table z n w).1 m = serviceIn table w.1 m ∨
      serviceIn table (silenceIn table z n w).1 m = .outOfService := by
  by_cases h : m = n ∧ silentDue table z n w.1 = true
  · right
    obtain ⟨rfl, hd⟩ := h
    have ha : (row table m).active = true := by
      unfold silentDue at hd; simp at hd; exact hd.1.1
    apply outOfService_of_silent _ _ _ ha
    rw [silenceIn_record, if_pos ⟨rfl, rfl, hd⟩]
    unfold FaultRecord.raised; split <;> simp
  · left
    apply serviceIn_other
    apply row_ext14
    intro k
    rw [silenceIn_record, if_neg (fun hh => h ⟨hh.1, hh.2.2⟩)]

/-- A line that falls silent leaves no unserved plan served (R173). -/
theorem silence_mono (table : Vector Entry 16) (z : ZoneMinute) (n : Line) (w : Watch) (p : Fin 8)
    (h : unservedIn table w.1 p = true) : unservedIn table (silenceIn table z n w).1 p = true := by
  unfold unservedIn at *
  rw [Bool.and_eq_true] at *
  refine ⟨h.1, ?_⟩
  rw [allRows_iff] at *
  intro m
  have := h.2 m
  rcases silence_service table z n m w with e | e
  · rw [e]; exact this
  · rw [e]; simp [Service.outOfPayment]

/-- What following a service state leaves of a grace record (R174). -/
theorem followService_grace (table : Vector Entry 16) (z : ZoneMinute) (n : Line) (v : Service) (w : Watch) (p : Fin 8) :
    row (followService table z n v w).1.grace p = row w.1.grace p ∨
      row (followService table z n v w).1.grace p = (row w.1.grace p).reevaluated z (unservedIn table w.1 p) := by
  unfold followService
  split
  · rw [regraceIn_grace, row_put]
    split
    · rename_i h; rw [h]; exact Or.inr rfl
    · exact Or.inl rfl
  · exact Or.inl rfl

/-- One comparison of R166: a grace record stays, or is re-evaluated for an unserved plan. -/
theorem silenceIn_graceStep (table : Vector Entry 16) (z : ZoneMinute) (n : Line) (w : Watch) (p : Fin 8) :
    row (silenceIn table z n w).1.grace p = row w.1.grace p ∨
      row (silenceIn table z n w).1.grace p = (row w.1.grace p).reevaluated z (unservedIn table (silenceIn table z n w).1 p) := by
  unfold silenceIn
  split
  · unfold raiseIn
    dsimp only
    have hu : unservedIn table (followService table z n (serviceIn table w.1 n)
      (putTerminal w.1 n .lineSilent ((terminalRecord w.1 n .lineSilent).raised z (some (row table n).lastHeard)),
      if (terminalRecord w.1 n .lineSilent).state != .opened && !false then latchIn .faultOpened w.2 else w.2)).1 p = unservedIn table (putTerminal w.1 n .lineSilent ((terminalRecord w.1 n .lineSilent).raised z (some (row table n).lastHeard))) p := by
      apply unservedIn_congr; simp
    rw [hu]
    exact followService_grace ..
  · exact Or.inl rfl

/-- What a grace record may have become while lines fall silent. -/
def graceOnTheWay (z : ZoneMinute) (g g' : Grace) (u : Bool) : Prop :=
  g' = g ∨ g' = g.reevaluated z false ∨ (u = true ∧ g' = g.reevaluated z true)

/-- A grace record on its way through a boundary stays on its way. -/
theorem onTheWay_step (z : ZoneMinute) (g g' : Grace) (u u' : Bool) (h : graceOnTheWay z g g' u) (hu : u = true → u' = true) :
    graceOnTheWay z g g' u' ∧ graceOnTheWay z g (g'.reevaluated z u') u' := by
  constructor
  · rcases h with h | h | h
    · exact Or.inl h
    · exact Or.inr (Or.inl h)
    · exact Or.inr (Or.inr ⟨hu h.1, h.2⟩)
  · rcases h with h | h | ⟨h1, h⟩ <;> subst h
    · cases u' <;> simp [graceOnTheWay]
    · cases u' <;> cases g <;> simp [graceOnTheWay, Grace.reevaluated]
    · rw [hu h1]; cases g <;> simp [graceOnTheWay, Grace.reevaluated]

/-- Every line of a list compared (R166). -/
theorem silenceFold (table : Vector Entry 16) (z : ZoneMinute) : ∀ (l : List Line) (w : Watch), l.Nodup →
    let v := l.foldl (fun w n => silenceIn table z n w) w
    v.1.zone = w.1.zone ∧
    (∀ n k, terminalRecord v.1 n k = if n ∈ l ∧ k = .lineSilent ∧ silentDue table z n w.1 = true then
        (terminalRecord w.1 n .lineSilent).raised z (some (row table n).lastHeard) else terminalRecord w.1 n k) ∧
    (∀ p, unservedIn table w.1 p = true → unservedIn table v.1 p = true) ∧
    ∀ p g, graceOnTheWay z g (row w.1.grace p) (unservedIn table w.1 p) → graceOnTheWay z g (row v.1.grace p) (unservedIn table v.1 p) := by
  intro l
  induction l with
  | nil => intro w _; simp
  | cons a l ih =>
    intro w hn
    obtain ⟨ha, hn⟩ := List.nodup_cons.mp hn
    rw [List.foldl_cons]
    obtain ⟨h1, h2, h3, h4⟩ := ih (silenceIn table z a w) hn
    refine ⟨by rw [h1, silenceIn_zone], ?_, fun p hp => h3 p (silence_mono _ _ _ _ _ hp), ?_⟩
    · intro n k
      rw [h2]
      by_cases hna : n = a
      · subst hna
        rw [if_neg (fun h => ha h.1), silenceIn_record]
        simp
      · have hrec : ∀ j, terminalRecord (silenceIn table z a w).1 n j = terminalRecord w.1 n j := by
          intro j; rw [silenceIn_record, if_neg (fun h => hna h.1)]
        have hd : silentDue table z n (silenceIn table z a w).1 = silentDue table z n w.1 := by
          unfold silentDue; rw [hrec]
        simp only [hrec, hd, List.mem_cons, hna, false_or]
    · intro p g hg
      apply h4
      have := onTheWay_step z g _ _ _ hg (silence_mono table z a w p)
      rcases silenceIn_graceStep table z a w p with e | e
      · rw [e]; exact this.1
      · rw [e]; exact this.2

/-- Tails. -/
theorem endTailIn_terminals (z : ZoneMinute) (p : Fin 8) (w : Watch) : (endTailIn z p w).1.terminals = w.1.terminals := by
  unfold endTailIn; split <;> rfl

/-- A tail's end leaves the zone records. -/
theorem endTailIn_zone (z : ZoneMinute) (p : Fin 8) (w : Watch) : (endTailIn z p w).1.zone = w.1.zone := by
  unfold endTailIn; split <;> rfl

/-- A tail's end makes NONE of a record at its until time (R175). -/
theorem endTailIn_grace (z : ZoneMinute) (p q : Fin 8) (w : Watch) :
    row (endTailIn z p w).1.grace q = if q = p ∧ (row w.1.grace p).due z = true then .none else row w.1.grace q := by
  unfold endTailIn
  split
  · rename_i h
    dsimp only
    rw [row_put]; by_cases hq : q = p <;> simp [hq, h]
  · rename_i h
    rw [if_neg (fun hh => h hh.2)]

/-- The tails of a list of plans ended. -/
theorem tailFold (z : ZoneMinute) : ∀ (l : List (Fin 8)) (w : Watch), l.Nodup →
    let v := l.foldl (fun w p => endTailIn z p w) w
    v.1.zone = w.1.zone ∧ v.1.terminals = w.1.terminals ∧
    ∀ p, row v.1.grace p = if p ∈ l ∧ (row w.1.grace p).due z = true then .none else row w.1.grace p := by
  intro l
  induction l with
  | nil => intro w _; simp
  | cons a l ih =>
    intro w hn
    obtain ⟨ha, hn⟩ := List.nodup_cons.mp hn
    rw [List.foldl_cons]
    obtain ⟨h1, h2, h3⟩ := ih (endTailIn z a w) hn
    refine ⟨by rw [h1, endTailIn_zone], by rw [h2, endTailIn_terminals], ?_⟩
    intro p
    rw [h3]
    by_cases hpa : p = a
    · subst hpa
      rw [if_neg (fun h => ha h.1), endTailIn_grace]; simp
    · have : row (endTailIn z a w).1.grace p = row w.1.grace p := by rw [endTailIn_grace, if_neg (fun h => hpa h.1)]
      rw [this]; simp [hpa]

/-- The tails that the free choice takes first (R175, log entry 6). -/
theorem firstFold (table : Vector Entry 16) (z : ZoneMinute) (choices : Nat) (w : Watch) : ∀ (l : List (Fin 8)) (acc : Watch), l.Nodup →
    let v := l.foldl (fun acc p => if racing table z w p && Config.tailEndFirst (choices + p.val) then endTailIn z p acc else acc) acc
    v.1.zone = acc.1.zone ∧ v.1.terminals = acc.1.terminals ∧
    ∀ p, row v.1.grace p = row acc.1.grace p ∨ (racing table z w p = true ∧ row v.1.grace p = .none) := by
  intro l
  induction l with
  | nil => intro w _; simp
  | cons a l ih =>
    intro acc hn
    obtain ⟨ha, hn⟩ := List.nodup_cons.mp hn
    rw [List.foldl_cons]
    obtain ⟨h1, h2, h3⟩ := ih (if racing table z w a && Config.tailEndFirst (choices + a.val) then endTailIn z a acc else acc) hn
    refine ⟨?_, ?_, ?_⟩
    · rw [h1]; split
      · exact endTailIn_zone ..
      · rfl
    · rw [h2]; split
      · exact endTailIn_terminals ..
      · rfl
    · intro p
      rcases h3 p with h | h
      · by_cases hc : (racing table z w a && Config.tailEndFirst (choices + a.val)) = true
        · simp only [hc, if_true] at h ⊢
          rw [h, endTailIn_grace]
          by_cases hpa : p = a ∧ (row acc.1.grace a).due z = true
          · rw [if_pos hpa]; right; rw [hpa.1]; exact ⟨(Bool.and_eq_true _ _ ▸ hc).1, rfl⟩
          · rw [if_neg hpa]; exact Or.inl rfl
        · rw [if_neg hc] at h ⊢; exact Or.inl h
      · exact Or.inr h

/-- A list of plans re-evaluated (R174). -/
theorem regraceFold (table : Vector Entry 16) (z : ZoneMinute) : ∀ (l : List (Fin 8)) (w : Watch), l.Nodup →
    let v := l.foldl (fun w p => regraceIn table z p w) w
    v.1.zone = w.1.zone ∧ v.1.terminals = w.1.terminals ∧
    ∀ p, row v.1.grace p = if p ∈ l then (row w.1.grace p).reevaluated z (unservedIn table w.1 p) else row w.1.grace p := by
  intro l
  induction l with
  | nil => intro w _; simp
  | cons a l ih =>
    intro w hn
    obtain ⟨ha, hn⟩ := List.nodup_cons.mp hn
    rw [List.foldl_cons]
    obtain ⟨h1, h2, h3⟩ := ih (regraceIn table z a w) hn
    refine ⟨by rw [h1, regraceIn_zone], by rw [h2, regraceIn_terminals], ?_⟩
    intro p
    rw [h3, unservedIn_congr table (regraceIn table z a w).1 w.1 (regraceIn_terminals ..) p]
    by_cases hpa : p = a
    · subst hpa
      rw [if_neg ha, regraceIn_grace, row_put_self]; simp
    · rw [regraceIn_grace, row_put_other _ _ hpa]; simp [hpa]

/-- A grace record at the end of a boundary. -/
theorem graceEnd (z : ZoneMinute) (g g' : Grace) (u : Bool) (h : graceOnTheWay z g g' u) (hu : u = false ∨ g.due z = false) :
    (if g'.due z = true then Grace.none else g').reevaluated z u = if g.due z = true then .none else g.reevaluated z u := by
  have same : ∀ g : Grace, u = false ∨ g.due z = false →
      (if g.due z = true then Grace.none else g).reevaluated z u = if g.due z = true then .none else g.reevaluated z u := by
    intro g hu
    by_cases hd : g.due z = true
    · have : u = false := by rcases hu with h | h; exacts [h, by rw [hd] at h; cases h]
      rw [if_pos hd, if_pos hd, this]; rfl
    · rw [if_neg hd, if_neg hd]
  rcases h with e | e | ⟨hu', e⟩
  · subst e; exact same _ hu
  · subst e
    cases g with
    | none => cases u <;> simp [Grace.due, Grace.reevaluated]
    | active a => cases u <;> simp [Grace.due, Grace.reevaluated]
    | ending a b => exact same _ hu
  · subst e; subst hu'; cases g <;> simp_all [Grace.due, Grace.reevaluated]

/-- The fault unit at a boundary: silent lines raised, tails ended, every plan re-evaluated (R166, R175). -/
theorem watchBoundary_spec (table : Vector Entry 16) (z : ZoneMinute) (choices : Nat) (w : Watch) :
    let v := watchBoundary table z choices w
    v.1.zone = w.1.zone ∧
    (∀ n k, terminalRecord v.1 n k = if k = .lineSilent ∧ silentDue table z n w.1 = true then
        (terminalRecord w.1 n .lineSilent).raised z (some (row table n).lastHeard) else terminalRecord w.1 n k) ∧
    (∀ p, (∃ since, row v.1.grace p = .active since) ↔ unservedIn table v.1 p = true) ∧
    ∀ p, ((unservedIn table v.1 p = false ∨ (row w.1.grace p).due z = false) →
        row v.1.grace p = if (row w.1.grace p).due z then .none else (row w.1.grace p).reevaluated z (unservedIn table v.1 p)) ∧
      (unservedIn table v.1 p = true → ∀ since until_, row w.1.grace p = .ending since until_ → until_ ≤ z →
        row v.1.grace p = .active z ∨ row v.1.grace p = .active since) := by
  intro v
  obtain ⟨wa, hwa⟩ : ∃ x, x = tailsTakenFirst table z choices w := ⟨_, rfl⟩
  obtain ⟨wb, hwb⟩ : ∃ x, x = silenceAll table z wa := ⟨_, rfl⟩
  obtain ⟨wc, hwc⟩ : ∃ x, x = (List.finRange 8).foldl (fun w p => endTailIn z p w) wb := ⟨_, rfl⟩
  have hv : v = (List.finRange 8).foldl (fun w p => regraceIn table z p w) wc := by rw [hwc, hwb, hwa]; rfl
  obtain ⟨a1, a2, a3⟩ : wa.1.zone = w.1.zone ∧ wa.1.terminals = w.1.terminals ∧
      ∀ p, row wa.1.grace p = row w.1.grace p ∨ (racing table z w p = true ∧ row wa.1.grace p = .none) := by
    rw [hwa]; exact firstFold table z choices w (List.finRange 8) w (List.nodup_finRange 8)
  obtain ⟨b1, b2, b4⟩ : wb.1.zone = wa.1.zone ∧
    (∀ n k, terminalRecord wb.1 n k = if k = .lineSilent ∧ silentDue table z n wa.1 = true then
        (terminalRecord wa.1 n .lineSilent).raised z (some (row table n).lastHeard) else terminalRecord wa.1 n k) ∧
    ∀ p g, graceOnTheWay z g (row wa.1.grace p) (unservedIn table wa.1 p) → graceOnTheWay z g (row wb.1.grace p) (unservedIn table wb.1 p) := by
    rw [hwb]
    obtain ⟨b1, b2, -, b4⟩ := silenceFold table z (List.finRange 16) wa (List.nodup_finRange 16)
    simp only [List.mem_finRange, true_and] at b2
    exact ⟨b1, b2, b4⟩
  obtain ⟨c1, c2, c3⟩ : wc.1.zone = wb.1.zone ∧ wc.1.terminals = wb.1.terminals ∧
      ∀ p, row wc.1.grace p = if (row wb.1.grace p).due z = true then .none else row wb.1.grace p := by
    rw [hwc]
    obtain ⟨c1, c2, c3⟩ := tailFold z (List.finRange 8) wb (List.nodup_finRange 8)
    simp only [List.mem_finRange, true_and] at c3
    exact ⟨c1, c2, c3⟩
  obtain ⟨d1, d2, d3⟩ : v.1.zone = wc.1.zone ∧ v.1.terminals = wc.1.terminals ∧
      ∀ p, row v.1.grace p = (row wc.1.grace p).reevaluated z (unservedIn table wc.1 p) := by
    rw [hv]
    obtain ⟨d1, d2, d3⟩ := regraceFold table z (List.finRange 8) wc (List.nodup_finRange 8)
    simp only [List.mem_finRange, if_true] at d3
    exact ⟨d1, d2, d3⟩
  have hsil : ∀ n, silentDue table z n wa.1 = silentDue table z n w.1 := by
    intro n; unfold silentDue; rw [terminalRecord_congr a2]
  have hvt : v.1.terminals = wb.1.terminals := by rw [d2, c2]
  have huv : ∀ p, unservedIn table v.1 p = unservedIn table wb.1 p := fun p => unservedIn_congr table _ _ hvt p
  have huc : ∀ p, unservedIn table wc.1 p = unservedIn table wb.1 p := fun p => unservedIn_congr table _ _ c2 p
  have hua : ∀ p, unservedIn table wa.1 p = unservedIn table w.1 p := fun p => unservedIn_congr table _ _ a2 p
  have hgv : ∀ p, row v.1.grace p = (row wc.1.grace p).reevaluated z (unservedIn table v.1 p) := by
    intro p; rw [huv, d3, huc]
  have hrace : ∀ p, racing table z w p = true → (row w.1.grace p).due z = true ∧ unservedIn table v.1 p = true := by
    intro p h
    unfold racing at h
    simp only [Bool.and_eq_true] at h
    refine ⟨h.1.1, ?_⟩
    rw [huv]
    have : unservedIn table (silenceAll table z w).1 p = unservedIn table wb.1 p := by
      have e := (silenceFold table z (List.finRange 16) w (List.nodup_finRange 16)).2.1
      simp only [List.mem_finRange, true_and] at e
      apply unservedIn_congr
      apply table_ext; intro n
      apply row_ext14; intro k
      have e1 := e n k
      have e2 := b2 n k
      rw [hsil, terminalRecord_congr a2, terminalRecord_congr a2] at e2
      exact e1.trans e2.symm
    rw [← this]; exact h.2
  refine ⟨by rw [d1, c1, b1, a1], ?_, ?_, ?_⟩
  · intro n k
    rw [terminalRecord_congr hvt]
    have e2 := b2 n k
    rw [hsil, terminalRecord_congr a2, terminalRecord_congr a2] at e2
    exact e2
  · intro p; rw [hgv]; exact reevaluated_active ..
  · intro p
    have hway := b4 p (row wa.1.grace p) (Or.inl rfl)
    have hwb2 : graceOnTheWay z (row wa.1.grace p) (row wb.1.grace p) (unservedIn table v.1 p) := by rw [huv]; exact hway
    have hc := c3 p
    constructor
    · intro h
      have ha : row wa.1.grace p = row w.1.grace p := by
        rcases a3 p with e | e
        · exact e
        · have := hrace p e.1; rcases h with h | h
          · rw [this.2] at h; cases h
          · rw [this.1] at h; cases h
      rw [ha] at hwb2
      rw [hgv, hc]
      exact graceEnd z _ _ _ hwb2 h
    · intro hu since until_ hg hle
      have ha : row wa.1.grace p = row w.1.grace p ∨ row wa.1.grace p = .none := by
        rcases a3 p with e | e
        · exact Or.inl e
        · exact Or.inr e.2
      rw [hgv, hc]
      rw [hu] at *
      rcases ha with e | e <;> rw [e] at hwb2
      · rw [hg] at hwb2
        rcases hwb2 with e | e | ⟨-, e⟩ <;> rw [e] <;> simp [Grace.due, Grace.reevaluated, hle]
      · rcases hwb2 with e | e | ⟨-, e⟩ <;> rw [e] <;> simp [Grace.due, Grace.reevaluated]

/-- Whether a test is at its limit is read from the entry and the clock. -/
theorem testDue_congr {s t : State} (n : Line) (h1 : row t.table n = row s.table n) (h2 : t.clock = s.clock) : testDue t n = testDue s n := by
  unfold testDue now; rw [h1, h2]

/-- The three effects of R89 cancel the terminal's open quote. -/
theorem disturb_quotes (n : Line) (b : Bool) (s : State) : (disturb n b s).quotes = put s.quotes n none := by
  unfold disturb; rw [markWalk_quotes, withdraw_quotes]; rfl

/-- The comparison of R91 (ii) for one terminal. -/
theorem endTestIfDue_spec (n : Line) (s : State) :
    (endTestIfDue n s).table = (if testDue s n then change s.table n Entry.toNormal else s.table) ∧
    (endTestIfDue n s).quotes = (if testDue s n then put s.quotes n none else s.quotes) := by
  unfold endTestIfDue
  split
  · unfold changeMode
    rw [disturb_table, disturb_quotes]; exact ⟨rfl, rfl⟩
  · exact ⟨rfl, rfl⟩

/-- The comparison of R91 (ii) for a list of terminals. -/
theorem endTestsFold : ∀ (l : List Line) (s : State), l.Nodup →
    let v := l.foldl (fun s n => endTestIfDue n s) s
    (∀ n, row v.table n = if n ∈ l ∧ testDue s n = true then (row s.table n).toNormal else row s.table n) ∧
    (∀ n, row v.quotes n = if n ∈ l ∧ testDue s n = true then none else row s.quotes n) ∧
    ((∀ n, testDue s n = false) → v = s) := by
  intro l
  induction l with
  | nil => intro s _; simp
  | cons a l ih =>
    intro s hn
    obtain ⟨ha, hn⟩ := List.nodup_cons.mp hn
    rw [List.foldl_cons]
    obtain ⟨h1, h2, h3⟩ := ih (endTestIfDue a s) hn
    obtain ⟨e1, e2⟩ := endTestIfDue_spec a s
    have ht : ∀ n, n ≠ a → row (endTestIfDue a s).table n = row s.table n := by
      intro n hna; rw [e1]; split
      · exact row_change_other _ _ hna
      · rfl
    have hd : ∀ n, n ≠ a → testDue (endTestIfDue a s) n = testDue s n := fun n hna =>
      testDue_congr n (ht n hna) (endTestIfDue_clock ..)
    refine ⟨?_, ?_, ?_⟩
    · intro n
      rw [h1]
      by_cases hna : n = a
      · subst hna
        rw [if_neg (fun h => ha h.1), e1]
        by_cases hdue : testDue s n = true <;> simp [hdue]
      · rw [hd n hna, ht n hna]; simp [hna]
    · intro n
      rw [h2]
      by_cases hna : n = a
      · subst hna
        rw [if_neg (fun h => ha h.1), e2]
        by_cases hdue : testDue s n = true <;> simp [hdue]
      · rw [hd n hna]
        have : row (endTestIfDue a s).quotes n = row s.quotes n := by
          rw [e2]; split
          · exact row_put_other _ _ hna
          · rfl
        rw [this]; simp [hna]
    · intro hall
      have : endTestIfDue a s = s := by unfold endTestIfDue; rw [hall a]; rfl
      rw [this] at h3 ⊢
      exact h3 hall

/-- The comparison of R91 (ii) for every terminal. -/
theorem endTests_spec (s : State) :
    (∀ n, row (endTests s).table n = if testDue s n = true then (row s.table n).toNormal else row s.table n) ∧
    (∀ n, row (endTests s).quotes n = if testDue s n = true then none else row s.quotes n) ∧
    ((∀ n, testDue s n = false) → endTests s = s) := by
  have := endTestsFold (List.finRange 16) s (List.nodup_finRange 16)
  simp only [List.mem_finRange, true_and] at this
  exact this

/-- The fault unit's part of a boundary, on the state. -/
theorem watchLines_spec (s : State) :
    (watchLines s).faults.zone = s.faults.zone ∧
    (∀ n k, terminalRecord (watchLines s).faults n k = if k = .lineSilent ∧ silentDue s.table (now s) n s.faults = true then
        (terminalRecord s.faults n .lineSilent).raised (now s) (some (row s.table n).lastHeard) else terminalRecord s.faults n k) ∧
    (∀ p, (∃ since, row (watchLines s).faults.grace p = .active since) ↔ unserved (watchLines s) p = true) ∧
    ∀ p, ((unserved (watchLines s) p = false ∨ (row s.faults.grace p).due (now s) = false) →
        row (watchLines s).faults.grace p = if (row s.faults.grace p).due (now s) then .none else (row s.faults.grace p).reevaluated (now s) (unserved (watchLines s) p)) ∧
      (unserved (watchLines s) p = true → ∀ since until_, row s.faults.grace p = .ending since until_ → until_ ≤ now s →
        row (watchLines s).faults.grace p = .active (now s) ∨ row (watchLines s).faults.grace p = .active since) := by
  obtain ⟨h1, h2, h3, h4⟩ := watchBoundary_spec s.table s.clock.reading s.choices (s.faults, s.notices)
  have e : (watchLines s).faults = (watchBoundary s.table s.clock.reading s.choices (s.faults, s.notices)).1 := rfl
  have u : ∀ p, unserved (watchLines s) p = unservedIn s.table (watchBoundary s.table s.clock.reading s.choices (s.faults, s.notices)).1 p := by
    intro p; unfold unserved; rw [watchLines_table, e]
  refine ⟨by rw [e]; exact h1, ?_, ?_, ?_⟩
  · intro n k; rw [e]; exact h2 n k
  · intro p; rw [e, u]; exact h3 p
  · intro p; rw [e, u]; exact h4 p

/-- LOG_PRESSURE ends when the log has fallen to 3,072 records (R108). -/
theorem easePressure_spec (s : State) :
    (easePressure s).sales.log = s.sales.log ∧ (easePressure s).sales.totals = s.sales.totals ∧
    (easePressure s).sales.nextSerial = s.sales.nextSerial ∧ (easePressure s).sales.sequences = s.sales.sequences ∧
    (easePressure s).faults.terminals = s.faults.terminals ∧ (easePressure s).faults.grace = s.faults.grace ∧
    (easePressure s).sales.pressure = (s.sales.pressure && decide (3072 < s.sales.log.length)) ∧
    (s.sales.pressure = true ∧ s.sales.log.length ≤ 3072 →
      (easePressure s).faults.zone = put s.faults.zone 3 (clearedNow s (row s.faults.zone 3))) ∧
    (¬ (s.sales.pressure = true ∧ s.sales.log.length ≤ 3072) → (easePressure s).faults.zone = s.faults.zone) := by
  unfold easePressure
  by_cases hp : s.sales.pressure = true ∧ s.sales.log.length ≤ 3072
  · rw [if_pos (by simp [hp])]
    obtain ⟨h1, h2⟩ := clearZoneIn_others s.clock.reading .logPressure (s.faults, s.notices)
    rw [clearZone_sales]
    refine ⟨rfl, rfl, rfl, rfl, h1, h2, ?_, fun _ => clearZoneIn_zone s.clock.reading .logPressure (s.faults, s.notices), fun h => absurd hp h⟩
    have : ¬ 3072 < s.sales.log.length := Nat.not_lt.mpr hp.2
    simp [this]
  · rw [if_neg (by simpa using hp)]
    refine ⟨rfl, rfl, rfl, rfl, rfl, rfl, ?_, fun h => absurd h hp, fun _ => rfl⟩
    cases hq : s.sales.pressure
    · rfl
    · have : 3072 < s.sales.log.length := Nat.lt_of_not_le fun h => hp ⟨hq, h⟩
      simp [this]

/-- A round at its limit lapses (R157). -/
theorem lapse_spec (s : State) :
    (lapseIfDue s).cash = (match s.cash.round with
      | some r =>
        if r.state = .opened ∧ r.openTime + s.cash.roundLimit ≤ now s then
          { s.cash with round := some { r with state := .lapsed (now s) } }
        else s.cash
      | none => s.cash) ∧
    (lapseIfDue s).faults.terminals = s.faults.terminals ∧ (lapseIfDue s).faults.grace = s.faults.grace ∧
    (∀ k, k ≠ 1 → row (lapseIfDue s).faults.zone k = row s.faults.zone k) ∧
    row (lapseIfDue s).faults.zone 1 = (match s.cash.round with
      | some r =>
        if r.state = .opened ∧ r.openTime + s.cash.roundLimit ≤ now s then
          (row s.faults.zone 1).raised (now s) (some r.number)
        else row s.faults.zone 1
      | none => row s.faults.zone 1) := by
  unfold lapseIfDue roundDue
  cases hr : s.cash.round with
  | none => exact ⟨rfl, rfl, rfl, fun _ _ => rfl, rfl⟩
  | some r =>
    dsimp only
    by_cases hd : r.state = .opened ∧ r.openTime + s.cash.roundLimit ≤ now s
    · rw [if_pos hd, if_pos (by simp [hd.1, hd.2]), latch_cash, raiseZone_cash, onCash_cash]
      refine ⟨rfl, rfl, rfl, ?_, ?_⟩
      · intro k hk; rw [latch_faults]; exact row_put_other _ _ hk
      · rw [if_pos hd, latch_faults]; exact row_put_self _ _ _
    · rw [if_neg hd, if_neg (by simpa using hd)]
      exact ⟨rfl, rfl, rfl, fun _ _ => rfl, by rw [if_neg hd]⟩

/-- The activation of a due book (R35). -/
theorem activate_spec (s : State) :
    (activateIfDue s).books = (if s.books.due (today s) then s.books.activated else s.books) ∧
    (∀ n, row (activateIfDue s).table n = if s.books.due (today s) then resetBookChange (row s.table n) else row s.table n) := by
  unfold activateIfDue
  split
  · refine ⟨rfl, fun n => ?_⟩
    unfold resetBookChangeAll; rw [row_changeAll]; rfl
  · exact ⟨rfl, fun _ => rfl⟩

/-! ## Notices latched at a boundary -/

/-- From `w` to `v` the settings stay, and source n is added where `b` says so, as a latch adds it (R176). -/
def adds (n : Notice) (b : Bool) (w v : NoticeState) : Prop :=
  v.enable = w.enable ∧ v.call = w.call ∧ v.lamp = w.lamp ∧
    n.isIn v.office = (n.isIn w.office || (b && n.isIn w.enable && n.isIn w.call)) ∧
    n.isIn v.site = (n.isIn w.site || (b && n.isIn w.enable && n.isIn w.lamp))

theorem adds_refl (n : Notice) (w : NoticeState) : adds n false w w := by simp [adds]

/-- Additions one after the other. -/
theorem adds_trans {n : Notice} {a b : Bool} {w v u : NoticeState} (h : adds n a w v) (k : adds n b v u) : adds n (a || b) w u := by
  obtain ⟨h1, h2, h3, h4, h5⟩ := h
  obtain ⟨k1, k2, k3, k4, k5⟩ := k
  refine ⟨k1.trans h1, k2.trans h2, k3.trans h3, ?_, ?_⟩
  · rw [k4, h4, h1, h2]; cases a <;> cases b <;> simp
  · rw [k5, h5, h1, h3]; cases a <;> cases b <;> simp

/-- A latch adds its own source. -/
theorem adds_latchIn (n m : Notice) (w : NoticeState) : adds n (decide (n = m)) w (latchIn m w) := by
  refine ⟨rfl, rfl, rfl, ?_, ?_⟩
  · rw [latchIn_office]; by_cases h : n = m <;> simp [h]
  · rw [latchIn_site]; by_cases h : n = m <;> simp [h]

theorem adds_cond (n m : Notice) (c : Bool) (w : NoticeState) : adds n (decide (n = m) && c) w (if c = true then latchIn m w else w) := by
  cases c
  · simpa using adds_refl n w
  · simpa using adds_latchIn n m w

/-- The free order of tails (R175) ends tails: it adds GRACE_ENDED where one is ended, and nothing else. -/
theorem firstFold_adds (table : Vector Entry 16) (z : ZoneMinute) (choices : Nat) (w : Watch) : ∀ (l : List (Fin 8)) (acc : Watch), l.Nodup →
    (∀ p ∈ l, row acc.1.grace p = row w.1.grace p) →
    let v := l.foldl (fun acc p => if racing table z w p && Config.tailEndFirst (choices + p.val) then endTailIn z p acc else acc) acc
    (∀ n, adds n (decide (n = .graceEnded) && l.any fun p => racing table z w p && Config.tailEndFirst (choices + p.val)) acc.2 v.2) ∧
    ∀ p, row v.1.grace p = if p ∈ l ∧ (racing table z w p && Config.tailEndFirst (choices + p.val)) = true then .none else row acc.1.grace p := by
  intro l
  induction l with
  | nil => intro acc _ _; simpa using fun n => adds_refl n _
  | cons a l ih =>
    intro acc hn hg
    obtain ⟨ha, hn⟩ := List.nodup_cons.mp hn
    rw [List.foldl_cons]
    by_cases hc : (racing table z w a && Config.tailEndFirst (choices + a.val)) = true
    · have hdue : (row acc.1.grace a).due z = true := by
        rw [hg a (by simp)]
        unfold racing at hc
        simp only [Bool.and_eq_true] at hc
        exact hc.1.1.1
      have he : endTailIn z a acc = ({ acc.1 with grace := put acc.1.grace a .none }, latchIn .graceEnded acc.2) := by
        unfold endTailIn; rw [if_pos hdue]
      rw [if_pos hc]
      obtain ⟨h1, h2⟩ := ih (endTailIn z a acc) hn (by
        intro p hp
        rw [endTailIn_grace, if_neg (by rintro ⟨rfl, -⟩; exact ha hp)]
        exact hg p (by simp [hp]))
      refine ⟨fun n => ?_, fun p => ?_⟩
      · have h3 : adds n (decide (n = .graceEnded)) acc.2 (endTailIn z a acc).2 := by rw [he]; exact adds_latchIn ..
        have h4 := adds_trans h3 (h1 n)
        rw [List.any_cons, hc]
        cases hd : decide (n = Notice.graceEnded) <;> simpa [hd] using h4
      · rw [h2, endTailIn_grace]
        by_cases hpa : p = a
        · subst hpa; simp [ha, hdue, hc]
        · simp [hpa]
    · rw [if_neg hc]
      obtain ⟨h1, h2⟩ := ih acc hn (fun p hp => hg p (by simp [hp]))
      refine ⟨fun n => ?_, fun p => ?_⟩
      · rw [List.any_cons, Bool.eq_false_iff.mpr hc, Bool.false_or]; exact h1 n
      · rw [h2]
        by_cases hpa : p = a
        · subst hpa; simp [ha, hc]
        · simp [hpa]

/-- The tails of a list of plans ended: GRACE_ENDED where one was due. -/
theorem tailFold_adds (z : ZoneMinute) : ∀ (l : List (Fin 8)) (w : Watch), l.Nodup →
    ∀ n, adds n (decide (n = .graceEnded) && l.any fun p => (row w.1.grace p).due z) w.2 (l.foldl (fun w p => endTailIn z p w) w).2 := by
  intro l
  induction l with
  | nil => intro w _ n; simpa using adds_refl n _
  | cons a l ih =>
    intro w hn n
    obtain ⟨ha, hn⟩ := List.nodup_cons.mp hn
    rw [List.foldl_cons]
    have h1 := ih (endTailIn z a w) hn n
    have he : l.any (fun p => (row (endTailIn z a w).1.grace p).due z) = l.any fun p => (row w.1.grace p).due z := by
      rw [Bool.eq_iff_iff, List.any_eq_true, List.any_eq_true]
      constructor
      all_goals
        rintro ⟨p, hp, h⟩
        refine ⟨p, hp, ?_⟩
        have hpa : ¬ (p = a ∧ (row w.1.grace a).due z = true) := by rintro ⟨rfl, -⟩; exact ha hp
        rw [endTailIn_grace, if_neg hpa] at *
        exact h
    rw [he] at h1
    have h2 : adds n (decide (n = .graceEnded) && (row w.1.grace a).due z) w.2 (endTailIn z a w).2 := by
      unfold endTailIn
      cases hd : (row w.1.grace a).due z
      · simpa using adds_refl n _
      · simpa using adds_latchIn n _ _
    have h3 := adds_trans h2 h1
    rw [List.any_cons]
    cases hd : decide (n = Notice.graceEnded) <;> simpa [hd] using h3

/-- A list of plans re-evaluated: GRACE_STARTED where a record leaves NONE (R174). -/
theorem regraceFold_adds (table : Vector Entry 16) (z : ZoneMinute) : ∀ (l : List (Fin 8)) (w : Watch), l.Nodup →
    ∀ n, adds n (decide (n = .graceStarted) && l.any fun p => row w.1.grace p == .none && unservedIn table w.1 p)
      w.2 (l.foldl (fun w p => regraceIn table z p w) w).2 := by
  intro l
  induction l with
  | nil => intro w _ n; simpa using adds_refl n _
  | cons a l ih =>
    intro w hn n
    obtain ⟨ha, hn⟩ := List.nodup_cons.mp hn
    rw [List.foldl_cons]
    have h1 := ih (regraceIn table z a w) hn n
    have he : l.any (fun p => row (regraceIn table z a w).1.grace p == .none && unservedIn table (regraceIn table z a w).1 p) =
        l.any fun p => row w.1.grace p == .none && unservedIn table w.1 p := by
      rw [Bool.eq_iff_iff, List.any_eq_true, List.any_eq_true]
      constructor
      all_goals
        rintro ⟨p, hp, h⟩
        refine ⟨p, hp, ?_⟩
        have hpa : p ≠ a := by rintro rfl; exact ha hp
        rw [regraceIn_grace, row_put_other _ _ hpa, unservedIn_congr table (regraceIn table z a w).1 w.1 (regraceIn_terminals ..)] at *
        exact h
    rw [he] at h1
    have h2 : adds n (decide (n = .graceStarted) && (row w.1.grace a == .none && unservedIn table w.1 a)) w.2 (regraceIn table z a w).2 :=
      adds_cond n .graceStarted (row w.1.grace a == .none && unservedIn table w.1 a) w.2
    have h3 := adds_trans h2 h1
    rw [List.any_cons]
    cases hd : decide (n = Notice.graceStarted) <;> simpa [hd] using h3

/-- What following a service state latches: GRACE_STARTED where the plan's record leaves NONE (R174). -/
theorem followService_adds (table : Vector Entry 16) (z : ZoneMinute) (n : Line) (before : Service) (w : Watch) :
    (∀ m, m ≠ .graceStarted → adds m false w.2 (followService table z n before w).2) ∧
    ∃ b, adds .graceStarted b w.2 (followService table z n before w).2 ∧
      (b = true → ∃ p, row w.1.grace p = .none ∧ unservedIn table (followService table z n before w).1 p = true) ∧
      ∀ p, row w.1.grace p = .none → row (followService table z n before w).1.grace p ≠ .none → b = true := by
  unfold followService
  by_cases hc : (serviceIn table w.1 n != before) = true
  · rw [if_pos hc]
    generalize (row table n).plan = q
    have h := adds_cond (w := w.2) (m := .graceStarted) (c := row w.1.grace q == .none && unservedIn table w.1 q)
    refine ⟨fun m hm => ?_, row w.1.grace q == .none && unservedIn table w.1 q, ?_, ?_, ?_⟩
    · have := h m; rw [decide_eq_false hm] at this; exact this
    · have := h .graceStarted; rw [decide_eq_true rfl, Bool.true_and] at this; exact this
    · intro hb
      simp only [Bool.and_eq_true, beq_iff_eq] at hb
      refine ⟨q, hb.1, ?_⟩
      rw [unservedIn_congr table _ w.1 (regraceIn_terminals ..)]; exact hb.2
    · intro p h1 h2
      rw [regraceIn_grace, row_put] at h2
      split at h2
      · subst p
        rw [h1] at h2 ⊢
        cases hu : unservedIn table w.1 q
        · rw [hu] at h2; exact absurd rfl h2
        · rfl
      · exact absurd h1 h2
  · rw [if_neg hc]
    exact ⟨fun m _ => adds_refl m _, false, adds_refl _ _, fun h => (by cases h), fun p h1 h2 => absurd h1 h2⟩

/-- One comparison of R166: FAULT_OPENED where the line falls silent, and GRACE_STARTED where that leaves a plan unserved. -/
theorem silenceIn_adds (table : Vector Entry 16) (z : ZoneMinute) (n : Line) (w : Watch) :
    (∀ m, m ≠ .graceStarted → adds m (decide (m = .faultOpened) && silentDue table z n w.1) w.2 (silenceIn table z n w).2) ∧
    ∃ b, adds .graceStarted b w.2 (silenceIn table z n w).2 ∧
      (b = true → ∃ p, row w.1.grace p = .none ∧ unservedIn table (silenceIn table z n w).1 p = true) ∧
      ∀ p, row w.1.grace p = .none → row (silenceIn table z n w).1.grace p ≠ .none → b = true := by
  unfold silenceIn
  by_cases hd : silentDue table z n w.1 = true
  · rw [if_pos hd]
    have ho : ((terminalRecord w.1 n .lineSilent).state != .opened && !false) = true := by
      unfold silentDue FaultRecord.standing at hd
      simp at hd ⊢
      rw [hd.1.2]; decide
    unfold raiseIn
    dsimp only
    rw [if_pos ho, hd]
    obtain ⟨h1, b, h2, h3, h4⟩ := followService_adds table z n (serviceIn table w.1 n)
      (putTerminal w.1 n .lineSilent ((terminalRecord w.1 n .lineSilent).raised z (some (row table n).lastHeard)), latchIn .faultOpened w.2)
    dsimp only at h1 h2 h3 h4
    refine ⟨fun m hm => ?_, b, ?_, ?_, ?_⟩
    · have := adds_trans (adds_latchIn m .faultOpened w.2) (h1 m hm)
      simpa using this
    · have := adds_trans (adds_latchIn .graceStarted .faultOpened w.2) h2
      simpa using this
    · intro hb; obtain ⟨p, h5, h6⟩ := h3 hb; exact ⟨p, by simpa using h5, h6⟩
    · intro p h5 h6; exact h4 p (by simpa using h5) h6
  · rw [if_neg hd, Bool.eq_false_iff.mpr hd]
    exact ⟨fun m _ => by simpa using adds_refl m _, false, adds_refl _ _, fun h => (by cases h), fun p h1 h2 => absurd h1 h2⟩

/-- Every line of a list compared (R166). -/
theorem silenceFold_adds (table : Vector Entry 16) (z : ZoneMinute) : ∀ (l : List Line) (w : Watch), l.Nodup →
    let v := l.foldl (fun w n => silenceIn table z n w) w
    (∀ m, m ≠ .graceStarted → adds m (decide (m = .faultOpened) && l.any fun n => silentDue table z n w.1) w.2 v.2) ∧
    ∃ b, adds .graceStarted b w.2 v.2 ∧ (b = true → ∃ p, row w.1.grace p = .none ∧ unservedIn table v.1 p = true) ∧
      ∀ p, row w.1.grace p = .none → row v.1.grace p ≠ .none → b = true := by
  intro l
  induction l with
  | nil =>
    intro w _
    exact ⟨fun m _ => by simpa using adds_refl m _, false, adds_refl _ _, fun h => (by cases h), fun p h1 h2 => absurd h1 h2⟩
  | cons a l ih =>
    intro w hn
    obtain ⟨ha, hn⟩ := List.nodup_cons.mp hn
    rw [List.foldl_cons]
    obtain ⟨k1, b, k2, k3, k4⟩ := silenceIn_adds table z a w
    obtain ⟨h1, c, h2, h3, h4⟩ := ih (silenceIn table z a w) hn
    have he : l.any (fun n => silentDue table z n (silenceIn table z a w).1) = l.any fun n => silentDue table z n w.1 := by
      rw [Bool.eq_iff_iff, List.any_eq_true, List.any_eq_true]
      have hs : ∀ n ∈ l, silentDue table z n (silenceIn table z a w).1 = silentDue table z n w.1 := by
        intro n hnl
        unfold silentDue
        rw [silenceIn_record, if_neg (by rintro ⟨rfl, -⟩; exact ha hnl)]
      constructor <;> (rintro ⟨n, hnl, h⟩; exact ⟨n, hnl, by rw [hs n hnl] at *; exact h⟩)
    refine ⟨fun m hm => ?_, b || c, adds_trans k2 h2, ?_, ?_⟩
    · have := adds_trans (k1 m hm) (h1 m hm)
      rw [he] at this
      rw [List.any_cons]
      cases hd : decide (m = Notice.faultOpened) <;> simpa [hd] using this
    · intro hb
      rw [Bool.or_eq_true] at hb
      rcases hb with hb | hb
      · obtain ⟨p, h5, h6⟩ := k3 hb
        exact ⟨p, h5, (silenceFold table z l (silenceIn table z a w) hn).2.2.1 p h6⟩
      · obtain ⟨p, h5, h6⟩ := h3 hb
        refine ⟨p, ?_, h6⟩
        rcases silenceIn_graceStep table z a w p with e | e
        · rw [← e]; exact h5
        · rw [h5] at e
          cases hg : row w.1.grace p with
          | none => rfl
          | active x => rw [hg] at e; revert e; cases unservedIn table (silenceIn table z a w).1 p <;> simp [Grace.reevaluated]
          | ending x y => rw [hg] at e; revert e; cases unservedIn table (silenceIn table z a w).1 p <;> simp [Grace.reevaluated]
    · intro p h5 h6
      by_cases h7 : row (silenceIn table z a w).1.grace p = .none
      · rw [h4 p h7 h6, Bool.or_true]
      · rw [k4 p h5 h7, Bool.true_or]

/-- What the fault unit latches at a boundary: FAULT_OPENED where a line falls silent, GRACE_ENDED where a tail ends, and
GRACE_STARTED where the record of an unserved plan leaves NONE, be it after a tail that ended at this boundary (R166, R174, R175). -/
theorem watchBoundary_adds (table : Vector Entry 16) (z : ZoneMinute) (choices : Nat) (w : Watch) :
    let v := watchBoundary table z choices w
    (∀ m, m ≠ .graceStarted → m ≠ .graceEnded →
      adds m (decide (m = .faultOpened) && (List.finRange 16).any fun n => silentDue table z n w.1) w.2 v.2) ∧
    ∃ ended : Fin 8 → Bool, adds .graceEnded ((List.finRange 8).any ended) w.2 v.2 ∧
      adds .graceStarted ((List.finRange 8).any fun p => unservedIn table v.1 p && (row w.1.grace p == .none || ended p)) w.2 v.2 ∧
      (∀ p, ended p = true → (row w.1.grace p).due z = true) ∧
      ∀ p since until_, row w.1.grace p = .ending since until_ → until_ ≤ z →
        row v.1.grace p = if ended p = true then (if unservedIn table v.1 p = true then .active z else .none) else .active since := by
  intro v
  obtain ⟨wa, hwa⟩ : ∃ x, x = tailsTakenFirst table z choices w := ⟨_, rfl⟩
  obtain ⟨wb, hwb⟩ : ∃ x, x = silenceAll table z wa := ⟨_, rfl⟩
  obtain ⟨wc, hwc⟩ : ∃ x, x = (List.finRange 8).foldl (fun w p => endTailIn z p w) wb := ⟨_, rfl⟩
  have hv : v = (List.finRange 8).foldl (fun w p => regraceIn table z p w) wc := by rw [hwc, hwb, hwa]; rfl
  have a2 : wa.1.terminals = w.1.terminals := by
    rw [hwa]; exact (firstFold table z choices w (List.finRange 8) w (List.nodup_finRange 8)).2.1
  obtain ⟨a1, a3⟩ : (∀ n, adds n (decide (n = .graceEnded) && (List.finRange 8).any fun p => racing table z w p && Config.tailEndFirst (choices + p.val)) w.2 wa.2) ∧
      ∀ p, row wa.1.grace p = if (racing table z w p && Config.tailEndFirst (choices + p.val)) = true then .none else row w.1.grace p := by
    rw [hwa]
    have := firstFold_adds table z choices w (List.finRange 8) w (List.nodup_finRange 8) (fun _ _ => rfl)
    simp only [List.mem_finRange, true_and] at this
    exact this
  obtain ⟨b1, c, b2, b3, b4⟩ : (∀ m, m ≠ .graceStarted → adds m (decide (m = .faultOpened) && (List.finRange 16).any fun n => silentDue table z n wa.1) wa.2 wb.2) ∧
    ∃ b, adds .graceStarted b wa.2 wb.2 ∧ (b = true → ∃ p, row wa.1.grace p = .none ∧ unservedIn table wb.1 p = true) ∧
      ∀ p, row wa.1.grace p = .none → row wb.1.grace p ≠ .none → b = true := by
    rw [hwb]; exact silenceFold_adds table z (List.finRange 16) wa (List.nodup_finRange 16)
  obtain ⟨-, b5, -, b6⟩ : wb.1.zone = wa.1.zone ∧
    (∀ n k, terminalRecord wb.1 n k = if k = .lineSilent ∧ silentDue table z n wa.1 = true then
        (terminalRecord wa.1 n .lineSilent).raised z (some (row table n).lastHeard) else terminalRecord wa.1 n k) ∧ True ∧
    ∀ p, graceOnTheWay z (row wa.1.grace p) (row wb.1.grace p) (unservedIn table wb.1 p) := by
    rw [hwb]
    obtain ⟨b1, b2, -, b4⟩ := silenceFold table z (List.finRange 16) wa (List.nodup_finRange 16)
    simp only [List.mem_finRange, true_and] at b2
    exact ⟨b1, b2, trivial, fun p => b4 p _ (Or.inl rfl)⟩
  obtain ⟨c2, c3⟩ : wc.1.terminals = wb.1.terminals ∧
      ∀ p, row wc.1.grace p = if (row wb.1.grace p).due z = true then .none else row wb.1.grace p := by
    rw [hwc]
    obtain ⟨c1, c2, c3⟩ := tailFold z (List.finRange 8) wb (List.nodup_finRange 8)
    simp only [List.mem_finRange, true_and] at c3
    exact ⟨c2, c3⟩
  have c1 : ∀ n, adds n (decide (n = .graceEnded) && (List.finRange 8).any fun p => (row wb.1.grace p).due z) wb.2 wc.2 := by
    rw [hwc]; exact tailFold_adds z (List.finRange 8) wb (List.nodup_finRange 8)
  obtain ⟨d2, d3⟩ : v.1.terminals = wc.1.terminals ∧
      ∀ p, row v.1.grace p = (row wc.1.grace p).reevaluated z (unservedIn table wc.1 p) := by
    rw [hv]
    obtain ⟨d1, d2, d3⟩ := regraceFold table z (List.finRange 8) wc (List.nodup_finRange 8)
    simp only [List.mem_finRange, if_true] at d3
    exact ⟨d2, d3⟩
  have d1 : ∀ n, adds n (decide (n = .graceStarted) && (List.finRange 8).any fun p => row wc.1.grace p == .none && unservedIn table wc.1 p) wc.2 v.2 := by
    rw [hv]; exact regraceFold_adds table z (List.finRange 8) wc (List.nodup_finRange 8)
  have hsil : ∀ n, silentDue table z n wa.1 = silentDue table z n w.1 := by
    intro n; unfold silentDue; rw [terminalRecord_congr a2]
  have hvt : v.1.terminals = wb.1.terminals := by rw [d2, c2]
  have huv : ∀ p, unservedIn table v.1 p = unservedIn table wb.1 p := fun p => unservedIn_congr table _ _ hvt p
  have huc : ∀ p, unservedIn table wc.1 p = unservedIn table wb.1 p := fun p => unservedIn_congr table _ _ c2 p
  have hrace : ∀ p, racing table z w p = true → (row w.1.grace p).due z = true ∧ unservedIn table wb.1 p = true := by
    intro p h
    unfold racing at h
    simp only [Bool.and_eq_true] at h
    refine ⟨h.1.1, ?_⟩
    have : unservedIn table (silenceAll table z w).1 p = unservedIn table wb.1 p := by
      have e := (silenceFold table z (List.finRange 16) w (List.nodup_finRange 16)).2.1
      simp only [List.mem_finRange, true_and] at e
      apply unservedIn_congr
      apply table_ext; intro n
      apply row_ext14; intro k
      have e1 := e n k
      have e2 := b5 n k
      rw [hsil, terminalRecord_congr a2, terminalRecord_congr a2] at e2
      exact e1.trans e2.symm
    rw [← this]; exact h.2
  -- which tails end
  let first := fun p : Fin 8 => racing table z w p && Config.tailEndFirst (choices + p.val)
  let ended := fun p : Fin 8 => first p || (row wb.1.grace p).due z
  have hfirst : ∀ p, first p = true → racing table z w p = true := fun p h => by
    simp only [first, Bool.and_eq_true] at h; exact h.1
  have hdue : ∀ p, (row wb.1.grace p).due z = true → first p = false ∧ row wb.1.grace p = row w.1.grace p := by
    intro p h
    have h3 := a3 p
    cases hf : first p
    · refine ⟨rfl, ?_⟩
      rw [if_neg (by rw [show (racing table z w p && Config.tailEndFirst (choices + p.val)) = false from hf]; decide)] at h3
      rcases b6 p with e | e | ⟨-, e⟩
      · rw [e, h3]
      · rw [e] at h; rw [h3] at e h
        cases hg : row w.1.grace p with
        | none => rw [hg] at h; cases h
        | active x => rw [hg] at h; simp [Grace.reevaluated, Grace.due] at h
        | ending x y => rw [e, hg]; rfl
      · rw [e] at h; cases hg : row wa.1.grace p <;> rw [hg] at h <;> cases h
    · rw [if_pos (show (racing table z w p && Config.tailEndFirst (choices + p.val)) = true from hf)] at h3
      rcases b6 p with e | e | ⟨-, e⟩ <;> rw [e, h3] at h <;> cases h
  refine ⟨fun m h1 h2 => ?_, ended, ?_, ?_, ?_, ?_⟩
  · have := adds_trans (adds_trans (adds_trans (a1 m) (b1 m h1)) (c1 m)) (d1 m)
    rw [decide_eq_false h1, decide_eq_false h2] at this
    simp only [hsil] at this
    simpa using this
  · have := adds_trans (adds_trans (adds_trans (a1 .graceEnded) (b1 .graceEnded (by decide))) (c1 .graceEnded)) (d1 .graceEnded)
    have e : (List.finRange 8).any ended = ((List.finRange 8).any first || (List.finRange 8).any fun p => (row wb.1.grace p).due z) := by
      rw [Bool.eq_iff_iff]; simp [ended, exists_or]
    rw [e]
    simpa using this
  · have := adds_trans (adds_trans (adds_trans (a1 .graceStarted) b2) (c1 .graceStarted)) (d1 .graceStarted)
    have e : ((List.finRange 8).any fun p => unservedIn table v.1 p && (row w.1.grace p == .none || ended p)) =
        (c || (List.finRange 8).any fun p => row wc.1.grace p == .none && unservedIn table wc.1 p) := by
      rw [Bool.eq_iff_iff, Bool.or_eq_true]
      simp only [List.any_eq_true, List.mem_finRange, true_and, Bool.and_eq_true, Bool.or_eq_true, beq_iff_eq, ended, huv, huc]
      constructor
      · rintro ⟨p, hu, h⟩
        by_cases hd : (row wb.1.grace p).due z = true
        · exact Or.inr ⟨p, by rw [c3, if_pos hd], hu⟩
        · have hwa0 : row wa.1.grace p = .none := by
            rcases h with h | h | h
            · rw [a3, h]; split <;> rfl
            · rw [a3, if_pos h]
            · exact absurd h hd
          by_cases hwb0 : row wb.1.grace p = .none
          · exact Or.inr ⟨p, by rw [c3, if_neg hd, hwb0], hu⟩
          · exact Or.inl (b4 p hwa0 hwb0)
      · rintro (h | ⟨p, h, hu⟩)
        · obtain ⟨p, h5, h6⟩ := b3 h
          refine ⟨p, h6, ?_⟩
          rw [a3] at h5
          by_cases hf : (racing table z w p && Config.tailEndFirst (choices + p.val)) = true
          · exact Or.inr (Or.inl hf)
          · rw [if_neg hf] at h5; exact Or.inl h5
        · refine ⟨p, hu, ?_⟩
          rw [c3] at h
          by_cases hd : (row wb.1.grace p).due z = true
          · exact Or.inr (Or.inr hd)
          · rw [if_neg hd] at h
            have hwa0 : row wa.1.grace p = .none := by
              rcases b6 p with e | e | ⟨-, e⟩
              · rw [← e]; exact h
              · rw [h] at e; cases hg : row wa.1.grace p with
                | none => rfl
                | active x => rw [hg] at e; cases e
                | ending x y => rw [hg] at e; cases e
              · rw [h] at e; cases hg : row wa.1.grace p <;> rw [hg] at e <;> cases e
            rw [a3] at hwa0
            by_cases hf : (racing table z w p && Config.tailEndFirst (choices + p.val)) = true
            · exact Or.inr (Or.inl hf)
            · rw [if_neg hf] at hwa0; exact Or.inl hwa0
    rw [e]
    simpa using this
  · intro p h
    simp only [ended, Bool.or_eq_true] at h
    rcases h with h | h
    · exact (hrace p (hfirst p h)).1
    · rw [← (hdue p h).2]; exact h
  · intro p since until_ hg hle
    have hdw : (row w.1.grace p).due z = true := by rw [hg]; simp [Grace.due, hle]
    rw [d3, huc, huv, c3]
    by_cases hf : first p = true
    · have hu := (hrace p (hfirst p hf)).2
      have h3 := a3 p
      rw [if_pos (show (racing table z w p && Config.tailEndFirst (choices + p.val)) = true from hf)] at h3
      rw [if_pos (show ended p = true by simp [ended, hf]), hu]
      rcases b6 p with e | e | ⟨-, e⟩ <;> rw [e, h3] <;> simp [Grace.due, Grace.reevaluated]
    · by_cases hd : (row wb.1.grace p).due z = true
      · rw [if_pos hd, if_pos (show ended p = true by simp [ended, hd])]
        cases unservedIn table wb.1 p <;> simp [Grace.reevaluated]
      · rw [if_neg hd, if_neg (show ¬ ended p = true by simp [ended, hf, hd])]
        have h3 := a3 p
        rw [if_neg hf, hg] at h3
        rcases b6 p with e | e | ⟨hu, e⟩
        · rw [e, h3] at hd; exact absurd (by simp [Grace.due, hle]) hd
        · rw [e, h3] at hd; exact absurd (by simp [Grace.due, Grace.reevaluated, hle]) hd
        · rw [e, h3, hu]; rfl

/-- Clearing LINE_NOISY on a list of lines: FAULT_CLEARED where a record stood (R167). -/
theorem noisyFold_adds (table : Vector Entry 16) (z : ZoneMinute) : ∀ (l : List Line) (w : Watch), l.Nodup → ∀ m,
    adds m (decide (m = .faultCleared) &&
        l.any fun n => decide ((row table n).discards < 16) && (terminalRecord w.1 n .lineNoisy).standing) w.2
      (l.foldl (fun w n => if (row table n).discards < 16 then clearIn table z n .lineNoisy w else w) w).2 := by
  intro l
  induction l with
  | nil => intro w _ m; simpa using adds_refl m _
  | cons a l ih =>
    intro w hn m
    obtain ⟨ha, hn⟩ := List.nodup_cons.mp hn
    rw [List.foldl_cons]
    have h1 := ih (if (row table a).discards < 16 then clearIn table z a .lineNoisy w else w) hn m
    have he : (l.any fun n => decide ((row table n).discards < 16) &&
        (terminalRecord (if (row table a).discards < 16 then clearIn table z a .lineNoisy w else w).1 n .lineNoisy).standing) =
        l.any fun n => decide ((row table n).discards < 16) && (terminalRecord w.1 n .lineNoisy).standing := by
      have hs : ∀ n ∈ l, terminalRecord (if (row table a).discards < 16 then clearIn table z a .lineNoisy w else w).1 n .lineNoisy =
          terminalRecord w.1 n .lineNoisy := by
        intro n hnl
        split
        · rw [clearIn_record, if_neg (by rintro ⟨rfl, -⟩; exact ha hnl)]
        · rfl
      rw [Bool.eq_iff_iff, List.any_eq_true, List.any_eq_true]
      constructor <;> (rintro ⟨n, hnl, h⟩; exact ⟨n, hnl, by rw [hs n hnl] at *; exact h⟩)
    rw [he] at h1
    have h2 : adds m (decide (m = .faultCleared) && (decide ((row table a).discards < 16) && (terminalRecord w.1 a .lineNoisy).standing)) w.2
        (if (row table a).discards < 16 then clearIn table z a .lineNoisy w else w).2 := by
      by_cases hd : (row table a).discards < 16
      · rw [if_pos hd, decide_eq_true hd, Bool.true_and]
        unfold clearIn
        dsimp only
        cases hst : (terminalRecord w.1 a .lineNoisy).standing
        · simpa using adds_refl m _
        · rw [if_pos rfl]
          unfold followService
          rw [if_neg]
          · simpa using adds_latchIn m .faultCleared w.2
          · rw [serviceIn_put _ _ _ _ _ _ (by decide)]; simp
      · rw [if_neg hd, decide_eq_false hd]; simpa using adds_refl m _
    have h3 := adds_trans h2 h1
    rw [List.any_cons]
    cases hd : decide (m = Notice.faultCleared) <;> simpa [hd] using h3

/-- What an hour boundary latches (R167). -/
theorem hourCounts_adds (s : State) (m : Notice) :
    adds m (decide (m = .faultCleared) && (List.finRange 16).any fun n =>
      decide ((row s.table n).discards < 16) && (terminalRecord s.faults n .lineNoisy).standing) s.notices (hourCounts s).notices :=
  noisyFold_adds s.table s.clock.reading (List.finRange 16) (s.faults, s.notices) (List.nodup_finRange 16) m

/-- What the comparison of the log latches (R108). -/
theorem easePressure_adds (s : State) (m : Notice) :
    adds m (decide (m = .faultCleared) && (s.sales.pressure && decide (s.sales.log.length ≤ 3072) && (row s.faults.zone 3).standing))
      s.notices (easePressure s).notices := by
  unfold easePressure
  by_cases hp : (s.sales.pressure && decide (s.sales.log.length ≤ 3072)) = true
  · rw [if_pos hp, hp, Bool.true_and]
    show adds m _ s.notices (clearZoneIn s.clock.reading .logPressure (s.faults, s.notices)).2
    unfold clearZoneIn
    dsimp only
    cases hst : (row s.faults.zone ZoneFault.logPressure.index).standing
    · rw [show (row s.faults.zone 3).standing = false from hst]; simpa using adds_refl m _
    · rw [show (row s.faults.zone 3).standing = true from hst]; simpa using adds_latchIn m .faultCleared s.notices
  · rw [if_neg hp, Bool.eq_false_iff.mpr hp]; simpa using adds_refl m _

/-- What a lapse latches (R157). -/
theorem lapse_adds (s : State) (m : Notice) :
    adds m (roundDue s && (decide (m = .roundEnded) || decide (m = .faultOpened) && (row s.faults.zone 1).state != .opened))
      s.notices (lapseIfDue s).notices := by
  unfold lapseIfDue
  cases hr : s.cash.round with
  | none => have : roundDue s = false := by unfold roundDue; rw [hr]
            rw [this]; simpa using adds_refl m _
  | some r =>
    dsimp only
    cases hd : roundDue s
    · simpa using adds_refl m _
    · rw [if_pos rfl]
      have h1 : adds m (decide (m = .faultOpened) && (row s.faults.zone 1).state != .opened) s.notices
          (raiseZoneIn s.clock.reading .roundLapsed (some r.number) (s.faults, s.notices)).2 :=
        adds_cond m .faultOpened ((row s.faults.zone 1).state != .opened) s.notices
      have h2 := adds_trans h1 (adds_latchIn m .roundEnded _)
      rw [Bool.or_comm] at h2
      exact h2

/-- What an activation latches (R35). -/
theorem activate_adds (s : State) (m : Notice) :
    adds m (decide (m = .bookActivated) && s.books.due (today s)) s.notices (activateIfDue s).notices := by
  unfold activateIfDue
  cases hd : s.books.due (today s)
  · simpa using adds_refl m _
  · rw [if_pos rfl]; simpa using adds_latchIn m .bookActivated s.notices

/-- An addition, in the terms of the claims. -/
theorem latchedWhere_of_adds {n : Notice} {b : Bool} {c : Prop} {s t : State} (h : adds n b s.notices t.notices) (hc : b = true ↔ c) :
    latchedWhere n c s t := by
  obtain ⟨-, -, -, h4, h5⟩ := h
  constructor
  · intro h; rw [hc.mpr h] at h4 h5; exact ⟨by simpa using h4, by simpa using h5⟩
  · intro h
    have : b = false := Bool.eq_false_iff.mpr fun hb => h (hc.mp hb)
    rw [this] at h4 h5; exact ⟨by simpa using h4, by simpa using h5⟩

/-- The clauses on the grace notices follow from which tails ended (R174, R175). -/
theorem boundaryNotices_of {isHour : Bool} {s t : State} {bits : Notice → Bool} {ended : Fin 8 → Bool}
    (h : ∀ m, adds m (bits m) s.notices t.notices)
    (hb : bits .bookActivated = true ↔ s.books.due (today s) = true) (hr : bits .roundEnded = true ↔ roundLapses s)
    (ho : bits .faultOpened = true ↔ (roundLapses s ∧ (row s.faults.zone 1).state ≠ .opened) ∨ ∃ n, fallsSilent s n)
    (hc : bits .faultCleared = true ↔ (s.sales.pressure = true ∧ t.sales.log.length ≤ 3072 ∧ (row s.faults.zone 3).state ≠ .clear) ∨
        ∃ n, isHour = true ∧ (row s.table n).discards < 16 ∧ (terminalRecord s.faults n .lineNoisy).state ≠ .clear)
    (he : bits .graceEnded = true ↔ ∃ p, ended p = true)
    (hs : bits .graceStarted = true ↔ ∃ p, unserved t p = true ∧ (row s.faults.grace p = .none ∨ ended p = true))
    (hd : ∀ p, ended p = true → (row s.faults.grace p).due (now s) = true)
    (hg : ∀ p since until_, row s.faults.grace p = .ending since until_ → until_ ≤ now s →
        row t.faults.grace p = if ended p = true then (if unserved t p = true then .active (now s) else .none) else .active since)
    (hn : ∀ n, n = .conditionHeld ∨ n = .bookChecked ∨ n = .roundOpened ∨ n = .serviceDenied ∨ n = .permitExhausted ∨ n = .restarted →
      bits n = false) : boundaryNotices isHour s t := by
  have hends : ∀ p, (∃ since, (∃ until_, row s.faults.grace p = .ending since until_ ∧ until_ ≤ now s) ∧ row t.faults.grace p ≠ .active since) →
      ended p = true := by
    rintro p ⟨since, ⟨u, h1, h2⟩, h3⟩
    by_contra hne
    rw [hg p since u h1 h2, if_neg hne] at h3
    exact h3 rfl
  have hlives : ∀ p, (∀ since, (∃ until_, row s.faults.grace p = .ending since until_ ∧ until_ ≤ now s) →
      row t.faults.grace p = .active since ∧ since ≠ now s) → ended p ≠ true := by
    intro p hl hep
    have := hd p hep
    cases hgp : row s.faults.grace p with
    | none => rw [hgp] at this; cases this
    | active x => rw [hgp] at this; cases this
    | ending since u =>
      have hu : u ≤ now s := by rw [hgp] at this; simpa [Grace.due] using this
      obtain ⟨h1, h2⟩ := hl since ⟨u, hgp, hu⟩
      rw [hg p since u hgp hu, if_pos hep] at h1
      split at h1
      · cases h1; exact h2 rfl
      · cases h1
  refine ⟨(h .faultOpened).1, (h .faultOpened).2.1, (h .faultOpened).2.2.1, latchedWhere_of_adds (h _) hb, latchedWhere_of_adds (h _) hr,
    latchedWhere_of_adds (h _) ho, latchedWhere_of_adds (h _) hc, ?_, ?_, ?_, ?_, ?_⟩
  · rintro ⟨p, hp⟩; exact (latchedWhere_of_adds (h .graceEnded) he).1 ⟨p, hends p hp⟩
  · intro hl; exact (latchedWhere_of_adds (h .graceEnded) he).2 fun ⟨p, hp⟩ => hlives p (hl p) hp
  · rintro ⟨p, hu, hp⟩
    exact (latchedWhere_of_adds (h .graceStarted) hs).1 ⟨p, hu, hp.imp id (hends p)⟩
  · intro hl
    refine (latchedWhere_of_adds (h .graceStarted) hs).2 fun ⟨p, hu, hp⟩ => ?_
    obtain ⟨h1, h2⟩ := hl p hu
    rcases hp with hp | hp
    · exact h1 hp
    · exact hlives p h2 hp
  · intro n hn'
    exact (latchedWhere_of_adds (c := False) (h n) (by simp [hn n hn'])).2 id

/-- The fault table after the fault unit's part of a boundary. -/
theorem watchLines_faults (s : State) :
    (watchLines s).faults = (watchBoundary s.table s.clock.reading s.choices (s.faults, s.notices)).1 := by
  unfold watchLines onFaults; dsimp only

/-- The notices after the fault unit's part of a boundary. -/
theorem watchLines_notices (s : State) :
    (watchLines s).notices = (watchBoundary s.table s.clock.reading s.choices (s.faults, s.notices)).2 := by
  unfold watchLines onFaults; dsimp only

/-- The notices of a boundary, stage by stage: what each stage latches, and what it reads of the state before it. -/
theorem notices_of_stages (isDay isHour : Bool) (s s1 s2 s3 s4 s5 s6 t : State)
    (h1 : s1 = (if isDay then dayWork s else s)) (h2 : s2 = activateIfDue s1) (h3 : s3 = endTests s2)
    (h4 : s4 = (if isHour then hourCounts s3 else s3)) (h5 : s5 = pruneLog s4) (h6 : s6 = lapseIfDue s5) (ht : t = watchLines s6)
    (k1 : s1.books = s.books ∧ s1.faults = s.faults ∧ today s1 = today s)
    (hdis : ∀ n, (row s3.table n).discards = (row s.table n).discards) (k3 : s3.faults = s.faults ∧ now s3 = now s)
    (k4 : s4.sales.pressure = s.sales.pressure ∧ s4.faults.zone = s.faults.zone ∧
      t.sales.log = s4.sales.log.filter (fun r => !r.prunable (now s4)))
    (k5 : row s5.faults.zone 1 = row s.faults.zone 1) (k6 : s5.cash = s.cash ∧ now s5 = now s)
    (h6g : s6.faults.grace = s.faults.grace) (g0 : now s6 = now s)
    (hsd : ∀ n, silentDue s6.table (now s) n s6.faults = true ↔ fallsSilent s n) : boundaryNotices isHour s t := by
  have n1 : s1.notices = s.notices := by rw [h1]; cases isDay <;> rfl
  have n2 : ∀ m, adds m (decide (m = .bookActivated) && s.books.due (today s)) s.notices s2.notices := by
    intro m; have := activate_adds s1 m; rw [← h2, n1, k1.1, k1.2.2] at this; exact this
  have n3 : s3.notices = s2.notices := by rw [h3]; simp
  have n4 : ∀ m, adds m (decide (m = .faultCleared) && (isHour && (List.finRange 16).any fun n =>
      decide ((row s.table n).discards < 16) && (terminalRecord s.faults n .lineNoisy).standing)) s2.notices s4.notices := by
    intro m; rw [h4]; cases isHour
    · rw [← n3]; simpa using adds_refl m _
    · have := hourCounts_adds s3 m
      rw [n3] at this
      simp only [hdis, k3.1] at this
      exact this
  have n5 : ∀ m, adds m (decide (m = .faultCleared) && (s.sales.pressure && decide (t.sales.log.length ≤ 3072) &&
      (row s.faults.zone 3).standing)) s4.notices s5.notices := by
    intro m
    have := easePressure_adds (onSales (fun u => { u with log := u.log.filter fun r => !r.prunable (now s4) }) s4) m
    simp only [onSales_sales, onSales_faults, onSales_notices] at this
    rw [k4.2.2, ← k4.2.1, ← k4.1, h5]
    exact this
  have n6 : ∀ m, adds m (roundDue s5 && (decide (m = .roundEnded) || decide (m = .faultOpened) &&
      (row s.faults.zone 1).state != .opened)) s5.notices s6.notices := by
    intro m; have := lapse_adds s5 m; rw [← h6, k5] at this; exact this
  have hlapse : roundDue s5 = true ↔ roundLapses s := by
    unfold roundDue roundLapses
    rw [k6.1, k6.2]
    cases s.cash.round with
    | none => simp
    | some r => simp
  have tn : t.notices = (watchBoundary s6.table s6.clock.reading s6.choices (s6.faults, s6.notices)).2 :=
    (congrArg State.notices ht).trans (watchLines_notices s6)
  have tf : t.faults = (watchBoundary s6.table s6.clock.reading s6.choices (s6.faults, s6.notices)).1 :=
    (congrArg State.faults ht).trans (watchLines_faults s6)
  have tu : ∀ p, unserved t p = unservedIn s6.table (watchBoundary s6.table s6.clock.reading s6.choices (s6.faults, s6.notices)).1 p := by
    intro p; unfold unserved; rw [← tf, show t.table = s6.table by rw [ht]; simp]
  obtain ⟨m1, ended, m2, m3, m4, m5⟩ := watchBoundary_adds s6.table s6.clock.reading s6.choices (s6.faults, s6.notices)
  rw [← tn] at m1 m2 m3
  rw [← tf] at m5
  simp only [← tu] at m3
  rw [← tf] at tu
  simp only [← tu] at m5
  have gr : s6.clock.reading = now s := g0
  rw [gr] at m1 m4 m5
  dsimp only at m1 m2 m3 m4 m5
  rw [h6g] at m3 m4 m5
  have hsil : ((List.finRange 16).any fun n => silentDue s6.table (now s) n s6.faults) = true ↔ ∃ n, fallsSilent s n := by
    simp only [List.any_eq_true, List.mem_finRange, true_and]
    exact exists_congr hsd
  have hall := fun m => adds_trans (adds_trans (adds_trans (n2 m) (n4 m)) (n5 m)) (n6 m)
  refine boundaryNotices_of (ended := ended) (bits := fun m => (decide (m = .bookActivated) && s.books.due (today s) ||
      decide (m = .faultCleared) && (isHour && (List.finRange 16).any fun n =>
        decide ((row s.table n).discards < 16) && (terminalRecord s.faults n .lineNoisy).standing) ||
      decide (m = .faultCleared) && (s.sales.pressure && decide (t.sales.log.length ≤ 3072) && (row s.faults.zone 3).standing) ||
      roundDue s5 && (decide (m = .roundEnded) || decide (m = .faultOpened) && (row s.faults.zone 1).state != .opened)) ||
      (if m = .graceEnded then (List.finRange 8).any ended else if m = .graceStarted then
          (List.finRange 8).any fun p => unserved t p && (row s.faults.grace p == .none || ended p)
          else decide (m = .faultOpened) && (List.finRange 16).any fun n => silentDue s6.table (now s) n s6.faults))
      (fun m => adds_trans (hall m) ?_) ?_ ?_ ?_ ?_ ?_ ?_ m4 m5 ?_
  · by_cases he : m = .graceEnded
    · rw [if_pos he, he]; exact m2
    · rw [if_neg he]
      by_cases hs : m = .graceStarted
      · rw [if_pos hs, hs]; exact m3
      · rw [if_neg hs]; exact m1 m hs he
  · simp
  · simp [hlapse]
  · simp only [← hsil, ← hlapse]; simp
  · simp [FaultRecord.standing, and_assoc, or_comm]
  · simp
  · simp
  · rintro n (rfl | rfl | rfl | rfl | rfl | rfl) <;> simp

/-- What a boundary or step does to every block, in the terms of the claims (R6). -/
theorem handOver_done (isDay isHour : Bool) (s : State) : boundaryDone isDay isHour s (handOver isDay isHour s) := by
  obtain ⟨s1, h1⟩ : ∃ x, x = (if isDay then dayWork s else s) := ⟨_, rfl⟩
  obtain ⟨s2, h2⟩ : ∃ x, x = activateIfDue s1 := ⟨_, rfl⟩
  obtain ⟨s3, h3⟩ : ∃ x, x = endTests s2 := ⟨_, rfl⟩
  obtain ⟨s4, h4⟩ : ∃ x, x = (if isHour then hourCounts s3 else s3) := ⟨_, rfl⟩
  obtain ⟨s5, h5⟩ : ∃ x, x = pruneLog s4 := ⟨_, rfl⟩
  obtain ⟨s6, h6⟩ : ∃ x, x = lapseIfDue s5 := ⟨_, rfl⟩
  obtain ⟨t, ht⟩ : ∃ x, x = watchLines s6 := ⟨_, rfl⟩
  have hT : handOver isDay isHour s = t := by rw [ht, h6, h5, h4, h3, h2, h1]; rfl
  have hfr := handOver_frame s isDay isHour
  rw [hT] at hfr ⊢
  -- stage 1
  have a1 : s1.clock = { s.clock with overrides := if isDay then s.clock.overrides.filter (fun o => decide (today s ≤ o.day)) else s.clock.overrides } := by
    rw [h1]; cases isDay <;> rfl
  have a2 : s1.permits = (if isDay then s.permits.filter fun p => decide (today s ≤ p.toDay + 7) else s.permits) := by
    rw [h1]; cases isDay
    · rfl
    · show (s.permits.filter fun p => !p.runOut (today s)) = _
      simp only [if_true]
      congr 1; funext p; unfold Permit.runOut
      by_cases hh : today s ≤ p.toDay + 7 <;> simp [hh]
      exact Nat.lt_of_not_le hh
  have a3 : s1.sales.log = s.sales.log := by rw [h1]; cases isDay <;> rfl
  have a3' : s1.sales.pressure = s.sales.pressure ∧ s1.sales.nextSerial = s.sales.nextSerial ∧ s1.sales.sequences = s.sales.sequences := by
    rw [h1]; cases isDay <;> exact ⟨rfl, rfl, rfl⟩
  have a4 : ∀ n, row s1.sales.totals n = if isDay && (row s.table n).active then withDayRecord (today s) (row s.sales.totals n) else row s.sales.totals n := by
    intro n; rw [h1]; cases isDay
    · rfl
    · show row (Vector.ofFn _) n = _
      rw [row_ofFn]; rfl
  have a5 : s1.books = s.books := by rw [h1]; cases isDay <;> rfl
  have a6 : s1.table = s.table := by rw [h1]; cases isDay <;> rfl
  have a7 : s1.faults = s.faults := by rw [h1]; cases isDay <;> rfl
  have a8 : s1.engine = s.engine := by rw [h1]; cases isDay <;> rfl
  have a9 : s1.lines = s.lines := by rw [h1]; cases isDay <;> rfl
  have a10 : s1.quotes = s.quotes := by rw [h1]; cases isDay <;> rfl
  have a11 : s1.cash = s.cash := by rw [h1]; cases isDay <;> rfl
  have ar : s1.clock.reading = s.clock.reading := by rw [a1]
  have at1 : today s1 = today s := by unfold today; rw [ar]
  -- stage 2
  obtain ⟨b1, b2⟩ := activate_spec s1
  rw [← h2, at1, a5] at b1
  rw [← h2, at1, a5, a6] at b2
  have b3 : s2.clock = s1.clock := by rw [h2]; simp
  have b4 : s2.faults = s1.faults := by rw [h2]; simp
  have b5 : s2.sales = s1.sales := by rw [h2]; simp
  have b6 : s2.permits = s1.permits := by rw [h2]; simp
  have b7 : s2.cash = s1.cash := by rw [h2]; simp
  have b8 : s2.engine = s1.engine ∧ s2.lines = s1.lines ∧ s2.quotes = s1.quotes := by rw [h2]; simp
  -- stage 3
  have hdue : ∀ n, testDue s2 n = testDue s n := by
    intro n
    unfold testDue now
    rw [b2, b3, ar]
    split <;> rfl
  obtain ⟨c1, c2, c3⟩ := endTests_spec s2
  rw [← h3] at c1 c2 c3
  simp only [hdue] at c1 c2 c3
  have c4 : s3.clock = s1.clock := by rw [h3]; simp [b3]
  have c5 : s3.faults = s.faults := by rw [h3]; simp [b4, a7]
  have c6 : s3.sales = s1.sales := by rw [h3]; simp [b5]
  have c7 : s3.permits = s1.permits := by rw [h3]; simp [b6]
  have c8 : s3.cash = s.cash := by rw [h3]; simp [b7, a11]
  have c9 : s3.books = s2.books := by rw [h3]; simp
  -- stage 4
  have d1 : s4.clock = s1.clock := by rw [h4]; cases isHour <;> simp [c4]
  have d2 : s4.sales = s1.sales := by rw [h4]; cases isHour <;> simp [c6]
  have d3 : s4.permits = s1.permits := by rw [h4]; cases isHour <;> simp [c7]
  have d4 : s4.cash = s.cash := by rw [h4]; cases isHour <;> simp [c8]
  have d5 : s4.books = s2.books := by rw [h4]; cases isHour <;> simp [c9]
  have d6 : s4.engine = s3.engine ∧ s4.lines = s3.lines ∧ s4.quotes = s3.quotes := by rw [h4]; cases isHour <;> simp
  have d7 : ∀ n, row s4.table n = if isHour then { row s3.table n with discards := 0 } else row s3.table n := by
    intro n; rw [h4]; cases isHour
    · rfl
    · simp only [if_true]; rw [(hourCounts_spec s3).1, row_changeAll]
  have cnow : now s3 = now s := by unfold now; rw [c4, ar]
  have hdis : ∀ n, (row s3.table n).discards = (row s.table n).discards := by
    intro n; rw [c1, b2]; split <;> split <;> rfl
  have hact : ∀ n, (row s4.table n).active = (row s.table n).active := by
    intro n; rw [d7, c1, b2]; split <;> split <;> split <;> rfl
  have hlast : ∀ n, (row s4.table n).lastHeard = (row s.table n).lastHeard := by
    intro n; rw [d7, c1, b2]; split <;> split <;> split <;> rfl
  have d8 : ∀ n k, terminalRecord s4.faults n k =
      if isHour = true ∧ k = .lineNoisy ∧ (row s.table n).discards < 16 ∧ (terminalRecord s.faults n .lineNoisy).state ≠ .clear then
        (terminalRecord s.faults n .lineNoisy).cleared (now s) else terminalRecord s.faults n k := by
    intro n k; rw [h4]; cases isHour
    · simp [c5]
    · simp only [if_true, true_and]
      rw [(hourCounts_spec s3).2.2.2, hdis, c5, cnow]
  have d9 : s4.faults.grace = s.faults.grace := by
    rw [h4]; cases isHour
    · simp [c5]
    · simp only [if_true]; rw [(hourCounts_spec s3).2.1, c5]
  -- stage 5
  have e0 : now s4 = now s := by unfold now; rw [d1, ar]
  obtain ⟨e1, e2, e3, e4, e5, e6, e8, e9, e9'⟩ := easePressure_spec (onSales (fun u => { u with log := u.log.filter fun r => !r.prunable (now s4) }) s4)
  have hp : easePressure (onSales (fun u => { u with log := u.log.filter fun r => !r.prunable (now s4) }) s4) = s5 := by rw [h5]; rfl
  rw [hp] at e1 e2 e3 e4 e5 e6 e8 e9 e9'
  simp only [onSales_sales, onSales_faults] at e1 e2 e3 e4 e5 e6 e8 e9 e9'
  have e7 : s5.clock = s1.clock ∧ s5.permits = s1.permits ∧ s5.cash = s.cash ∧ s5.books = s2.books ∧ s5.table = s4.table ∧
      s5.engine = s3.engine ∧ s5.lines = s3.lines ∧ s5.quotes = s3.quotes := by
    rw [h5]; simp [d1, d3, d4, d5, d6]
  -- stage 6
  obtain ⟨f1, f2, f3, f5, f6⟩ := lapse_spec s5
  rw [← h6] at f1 f2 f3 f5 f6
  have f0 : now s5 = now s := by unfold now; rw [e7.1, ar]
  rw [e7.2.2.1, f0] at f1 f6
  have f4 : s6.clock = s1.clock ∧ s6.permits = s1.permits ∧ s6.books = s2.books ∧ s6.table = s4.table ∧
      s6.engine = s3.engine ∧ s6.lines = s3.lines ∧ s6.quotes = s3.quotes ∧ s6.sales = s5.sales := by
    rw [h6]; simp [e7]
  -- stage 7
  obtain ⟨g1, g2, g3, g4⟩ := watchLines_spec s6
  rw [← ht] at g1 g2 g3 g4
  have g0 : now s6 = now s := by unfold now; rw [f4.1, ar]
  have g5 : t.clock = s1.clock ∧ t.permits = s1.permits ∧ t.books = s2.books ∧ t.table = s4.table ∧
      t.engine = s3.engine ∧ t.lines = s3.lines ∧ t.quotes = s3.quotes ∧ t.sales = s5.sales ∧ t.cash = s6.cash := by
    rw [ht]; simp [f4]
  have h6r : ∀ n k, terminalRecord s6.faults n k = terminalRecord s4.faults n k := by
    intro n k; rw [terminalRecord_congr f2, terminalRecord_congr e5]
  have h6g : s6.faults.grace = s.faults.grace := by rw [f3, e6, d9]
  have hsilent : ∀ n, terminalRecord s4.faults n .lineSilent = terminalRecord s.faults n .lineSilent := by
    intro n; rw [d8, if_neg (by simp)]
  have hsd : ∀ n, silentDue s6.table (now s6) n s6.faults = true ↔ ((row s.table n).active = true ∧ (terminalRecord s.faults n .lineSilent).state = .clear ∧
          (row s.table n).lastHeard + 10 ≤ now s) := by
    intro n
    unfold silentDue
    rw [h6r, hsilent, f4.2.2.2.1, hact, hlast, g0]
    unfold FaultRecord.standing
    simp [and_assoc]
  have d10 : s4.faults.zone = s.faults.zone := by
    rw [h4]; cases isHour
    · simp [c5]
    · simp only [if_true]; rw [(hourCounts_spec s3).2.2.1, c5]
  have hlog : t.sales.log = s4.sales.log.filter (fun r => !r.prunable (now s4)) := by rw [g5.2.2.2.2.2.2.2.1, e1]
  have hz5 : ∀ k, k ≠ 3 → row s5.faults.zone k = row s.faults.zone k := by
    intro k hk
    by_cases hc : s4.sales.pressure = true ∧ (s4.sales.log.filter (fun r => !r.prunable (now s4))).length ≤ 3072
    · rw [e9 hc, row_put_other _ _ hk, d10]
    · rw [e9' hc, d10]
  refine ⟨hfr.mono (by decide), ?_, ?_, ?_, ?_, ?_, ?_, ?_, ?_, ?_, ?_, ?_, ?_, ?_, ?_, ?_, ?_, ?_, ?_, ?_, ?_⟩
  · rw [g5.1, a1]
  · rw [g5.2.1, a2]
  · rw [g5.2.2.1, b1]
  · rw [g5.2.2.2.2.2.2.2.1, e1, d2, a3, e0]
    congr 1; funext r; unfold Session.prunable keptAfter
    by_cases hh : now s ≤ r.expiry + 1440 <;> simp [hh]
    exact Nat.lt_of_not_le hh
  · have hpr : s4.sales.pressure = s.sales.pressure := by rw [d2, a3'.1]
    rw [hlog, g5.2.2.2.2.2.2.2.1]; refine e8.trans ?_; rw [hpr]; rfl
  · rw [g5.2.2.2.2.2.2.2.1, e3, d2, a3'.2.1]
  · rw [g5.2.2.2.2.2.2.2.1, e4, d2, a3'.2.2]
  · intro n; rw [g5.2.2.2.2.2.2.2.1, e2, d2, a4]
  · rw [g5.2.2.2.2.2.2.2.2, f1]
    first | done | (cases s.cash.round <;> rfl)
  · intro n
    rw [g5.2.2.2.1, d7, c1, b2]
    unfold testDue
    by_cases hd : (row s.table n).testStart + 30 ≤ now s <;> by_cases hb : s.books.due (today s) = true <;> cases isHour <;>
      cases hm : (row s.table n).mode <;> simp [hd, hb, hm, Entry.toNormal, resetBookChange, bookChangeBit]
    all_goals (rw [← hm])
  · intro hno
    have := c3 hno
    rw [g5.2.2.2.2.1, g5.2.2.2.2.2.1, g5.2.2.2.2.2.2.1, this, b8.1, b8.2.1, b8.2.2, a8, a9, a10]
    exact ⟨rfl, rfl, rfl⟩
  · intro n hd
    rw [g5.2.2.2.2.2.2.1, c2, if_pos hd]
  · intro k hk1 hk3
    rw [g1, f5 k hk1, hz5 k hk3]
  · rw [g1, f6, hz5 1 (by decide)]
    first | done | (cases s.cash.round <;> rfl)
  · rw [g1, f5 3 (by decide), hlog]
    have hpr : s4.sales.pressure = s.sales.pressure := by rw [d2, a3'.1]
    rw [hpr] at e9 e9'
    by_cases hc : s.sales.pressure = true ∧ (s4.sales.log.filter (fun r => !r.prunable (now s4))).length ≤ 3072
    · rw [if_pos hc, e9 hc, row_put_self]; unfold clearedNow; rw [show now (onSales _ s4) = now s from e0, d10]
    · rw [if_neg hc, e9' hc, d10]
  · intro n k h1 h2
    rw [g2, if_neg (fun h => h1 h.1), h6r, d8, if_neg (fun h => h2 h.2.1)]
  · intro n
    rw [g2, g0, h6r, hsilent, f4.2.2.2.1, hlast]
    have := hsd n
    rw [g0, f4.2.2.2.1] at this
    exact if_congr (by simp [this]) rfl rfl
  · intro n
    rw [g2, if_neg (by simp), h6r, d8]
    simp
  · intro p
    have := g4 p
    rw [h6g, g0] at this
    exact this
  · refine notices_of_stages isDay isHour s s1 s2 s3 s4 s5 s6 t h1 h2 h3 h4 h5 h6 ht ⟨a5, a7, at1⟩ hdis ⟨c5, cnow⟩
      ⟨by rw [d2, a3'.1], d10, hlog⟩ (hz5 1 (by decide)) ⟨e7.2.2.1, f0⟩ h6g g0 ?_
    intro n; have := hsd n; rw [g0] at this; exact this

/-- A boundary or step opens no quote. -/
theorem handOver_quotes (isDay isHour : Bool) (s : State) (n : Line) (h : row s.quotes n = none) :
    row (handOver isDay isHour s).quotes n = none := by
  unfold handOver
  dsimp only
  simp only [watchLines_quotes, lapseIfDue_quotes, pruneLog_quotes]
  have hq : ∀ u : State, row u.quotes n = none → row (endTests u).quotes n = none := by
    intro u hu; rw [(endTests_spec u).2.1]; split
    · rfl
    · exact hu
  have h1 : row (endTests (activateIfDue (if isDay = true then dayWork s else s))).quotes n = none := by
    apply hq; rw [activateIfDue_quotes]; cases isDay
    · exact h
    · simp only [if_true, dayWork_quotes]; exact h
  cases isHour
  · exact h1
  · simp only [if_true, hourCounts_quotes]; exact h1

/-- A clear of a zone kind changes its record alone (R163). -/
theorem clearZoneIn_faults (z : ZoneMinute) (k : ZoneFault) (w : Watch) : (clearZoneIn z k w).1 =
    { w.1 with zone := put w.1.zone k.index (if (row w.1.zone k.index).state = .clear then row w.1.zone k.index
                                             else (row w.1.zone k.index).cleared z) } := by
  have e := clearZoneIn_zone z k w
  have e2 := clearZoneIn_others z k w
  generalize clearZoneIn z k w = v at *
  obtain ⟨⟨t', z', g'⟩, n'⟩ := v
  obtain ⟨⟨t, z, g⟩, n⟩ := w
  dsimp only at *
  obtain ⟨rfl, rfl⟩ := e2
  rw [e]

/-- A raise of a zone kind changes its record alone (R162). -/
theorem raiseZoneIn_faults (z : ZoneMinute) (k : ZoneFault) (d : Option Nat) (w : Watch) : (raiseZoneIn z k d w).1 =
    { w.1 with zone := put w.1.zone k.index ((row w.1.zone k.index).raised z d) } := rfl

/-- All that a warm restart does to the book store (R39). -/
theorem warm_eq (b : BookStore) : b.warm = booksWarm b := by
  cases b with
  | mk bankX bankY active activeState stagedState retired heldX heldY activationDay firstBook generation revision check =>
    cases retired <;> cases active <;> cases stagedState <;> rfl

/-- The blocks before the restart step of a warm restart stand at their warm values (R188, R189). -/
theorem warm_values (reason : RestartReason) (s : State) :
    warmValues reason s (latch .restarted (tellOverrun (warmBlocks reason s))) := by
  have hkeep : ∀ u : State, u.lines = Vector.replicate 16 LineUnit.cold → u.table = changeAll s.table (fun e => e.warm s.clock.reading) →
      u.quotes = Vector.replicate 16 none → u.engine = Engine.cold →
      (∀ i, row u.engine.slots i = none) ∧ u.engine.last = officeSlot ∧ u.engine.walk = none ∧ (∀ n, row u.lines n = LineUnit.cold) ∧
    (∀ n, row u.table n = { row s.table n with mode := .normal, lastHeard := now s }) ∧
    (∀ n, row u.quotes n = none) := by
    intro u h1 h2 h3 h4
    rw [h1, h2, h3, h4]
    refine ⟨?_, rfl, rfl, ?_, ?_, ?_⟩
    · intro i; exact row_replicate _ _
    · intro i; exact row_replicate _ _
    · intro i; rw [row_changeAll]; rfl
    · intro i; exact row_replicate _ _
  cases ho : s.clock.overran
  · have ht : tellOverrun (warmBlocks reason s) = warmBlocks reason s := by
      unfold tellOverrun; rw [if_neg]; show ¬ (s.clock.overran = true); simp [ho]
    rw [ht]
    obtain ⟨k1, k2, k3, k4, k5, k6⟩ := hkeep (latch .restarted (warmBlocks reason s)) rfl rfl rfl rfl
    refine ⟨?_, warm_eq s.books, k1, k2, k3, k4, k5, k6, rfl, rfl, rfl, rfl, rfl, rfl, ?_, ?_, rfl, rfl, rfl, rfl, rfl⟩
    · show s.clock = _
      rw [← ho]
    · intro k; rw [if_neg (by simp [ho])]; rfl
    · rw [if_neg (by simp [ho])]; rfl
  · have ht : tellOverrun (warmBlocks reason s) = raiseZone .clockUnset none (onClock (fun c => { c with overran := false }) (warmBlocks reason s)) := by
      unfold tellOverrun; rw [if_pos]; exact ho
    rw [ht]
    obtain ⟨k1, k2, k3, k4, k5, k6⟩ := hkeep (latch .restarted (raiseZone .clockUnset none (onClock (fun c => { c with overran := false }) (warmBlocks reason s)))) rfl rfl rfl rfl
    refine ⟨rfl, warm_eq s.books, k1, k2, k3, k4, k5, k6, rfl, rfl, rfl, rfl, rfl, rfl, ?_, ?_, rfl, rfl, rfl, rfl, rfl⟩
    · intro k
      show row (put s.faults.zone 0 ((row s.faults.zone 0).raised (now s) none)) k = _
      rw [row_put]
      by_cases hk : k = 0
      · rw [if_pos hk, if_pos ⟨hk, ho⟩]
      · rw [if_neg hk, if_neg (fun h => hk h.1)]
    · show latchIn .restarted (if (row s.faults.zone 0).state != .opened then latchIn .faultOpened s.notices else s.notices) = _
      congr 1
      exact if_congr (by simp [ho]) rfl rfl

/-- A change of one port. -/
theorem onPorts_eq (id : PortId) (f : Port → Port) (s : State) :
    onPorts (fun u => u.onPort id f) s = { s with ports := s.ports.onPort id fun _ => f (s.ports.port id) } := by
  cases id <;> rfl

end Sys2Proof.Machine
end

