-- ==== Sys2Proof/Laws/Cash.lean ====
section
/-!
SUPPORT. Laws/Cash.lean: what the operations of the cash unit do.
-/
namespace Sys2Proof.Machine

/-- A raise changes one terminal record. -/
theorem raiseFault_terminals (n : Line) (k : TermFault) (d : Option Nat) (s : State) (m : Line) (j : TermFault) :
    terminalRecord (raiseFault n k d s).faults m j = if m = n ∧ j = k then (terminalRecord s.faults n k).raised (now s) d else terminalRecord s.faults m j :=
  raiseIn_record ..

/-- A clear changes one terminal record. -/
theorem clearFaultOf_terminals (n : Line) (k : TermFault) (s : State) (m : Line) (j : TermFault) :
    terminalRecord (clearFaultOf n k s).faults m j = if m = n ∧ j = k then clearedNow s (terminalRecord s.faults n k) else terminalRecord s.faults m j :=
  clearIn_record ..

/-- Two cash units alike in every field. -/
theorem cash_eq {a b : CashUnit} (h1 : a.coins = b.coins) (h2 : a.tallies = b.tallies) (h3 : a.lifts = b.lifts) (h4 : a.nextLift = b.nextLift)
    (h5 : a.round = b.round) (h6 : a.tolerance = b.tolerance) (h7 : a.roundLimit = b.roundLimit) : a = b := by
  cases a; cases b; simp_all

/-- A row replaced twice. -/
theorem put_put {α : Type} {k : Nat} (t : Vector α k) (i : Fin k) (x y : α) : put (put t i x) i y = put t i y := by
  apply table_ext; intro j
  by_cases h : j = i
  · subst h; rw [row_put_self, row_put_self]
  · rw [row_put_other _ _ h, row_put_other _ _ h, row_put_other _ _ h]

/-- A change of one tally. -/
theorem onTally_put (n : Line) (f : Tally → Tally) (s : State) : (onTally n f s).cash = { s.cash with tallies := put s.cash.tallies n (f (tallyOf s n)) } := rfl

/-- The tally changed. -/
theorem onTally_tally (n : Line) (f : Tally → Tally) (s : State) : tallyOf (onTally n f s) n = f (tallyOf s n) := by
  unfold tallyOf; rw [onTally_put]; exact row_put_self _ _ _

/-- A tally put back where it stood. -/
theorem put_tally (s : State) (n : Line) : { s.cash with tallies := put s.cash.tallies n (tallyOf s n) } = s.cash := by
  unfold tallyOf; rw [put_row_self]

/-- The cash unit after the near-full comparison (R145). -/
theorem markNear_cash (n : Line) (s : State) : (markNear n s).cash = { s.cash with tallies := put s.cash.tallies n { tallyOf s n with
    nearMark := (tallyOf s n).nearMark || (tallyOf s n).nearReached } } := by
  unfold markNear
  dsimp only
  split
  · rename_i h
    rw [raiseFault_cash, onTally_put]; simp at h; simp [h]
  · rename_i h
    have : { tallyOf s n with nearMark := (tallyOf s n).nearMark || (tallyOf s n).nearReached } = tallyOf s n := by
      cases h1 : (tallyOf s n).nearMark <;> cases h2 : (tallyOf s n).nearReached <;> simp_all
      all_goals (rw [← h1])
    rw [this, put_tally]

/-- The cash unit after the near-full mark is taken back. -/
theorem unmarkNear_cash (n : Line) (s : State) : (unmarkNear n s).cash = { s.cash with tallies := put s.cash.tallies n { tallyOf s n with
    nearMark := false } } := by
  unfold unmarkNear
  split
  · rw [clearFaultOf_cash, onTally_put]
  · rename_i h
    have : { tallyOf s n with nearMark := false } = tallyOf s n := by
      have h1 : (tallyOf s n).nearMark = false := by simpa using h
      rw [← h1]
    rw [this, put_tally]

/-- The cash unit after the full comparison (R145). -/
theorem markFull_cash (n : Line) (s : State) : (markFull n s).cash = { s.cash with tallies := put s.cash.tallies n { tallyOf s n with
    fullMark := (tallyOf s n).fullMark || (tallyOf s n).fullReached } } := by
  unfold markFull
  dsimp only
  split
  · rename_i h
    rw [raiseFault_cash, onTally_put]; simp at h; simp [h]
  · rename_i h
    have : { tallyOf s n with fullMark := (tallyOf s n).fullMark || (tallyOf s n).fullReached } = tallyOf s n := by
      cases h1 : (tallyOf s n).fullMark <;> cases h2 : (tallyOf s n).fullReached <;> simp_all
      all_goals (rw [← h1])
    rw [this, put_tally]

/-- The cash unit after the full mark is taken back. -/
theorem unmarkFull_cash (n : Line) (s : State) : (unmarkFull n s).cash = { s.cash with tallies := put s.cash.tallies n { tallyOf s n with
    fullMark := false } } := by
  unfold unmarkFull
  split
  · rw [clearFaultOf_cash, onTally_put]
  · rename_i h
    have : { tallyOf s n with fullMark := false } = tallyOf s n := by
      have h1 : (tallyOf s n).fullMark = false := by simpa using h
      rw [← h1]
    rw [this, put_tally]

/-- The cash unit after the absent mark is set. -/
theorem markAbsent_cash (n : Line) (s : State) : (markAbsent n s).cash = { s.cash with tallies := put s.cash.tallies n { tallyOf s n with
    absentMark := true } } := by
  unfold markAbsent
  split
  · rename_i h
    have : { tallyOf s n with absentMark := true } = tallyOf s n := by rw [← h]
    rw [this, put_tally]
  · rw [raiseFault_cash, onTally_put]

/-- The cash unit after the absent mark is taken back. -/
theorem unmarkAbsent_cash (n : Line) (s : State) : (unmarkAbsent n s).cash = { s.cash with tallies := put s.cash.tallies n { tallyOf s n with
    absentMark := false } } := by
  unfold unmarkAbsent
  split
  · rw [clearFaultOf_cash, onTally_put]
  · rename_i h
    have : { tallyOf s n with absentMark := false } = tallyOf s n := by
      have h1 : (tallyOf s n).absentMark = false := by simpa using h
      rw [← h1]
    rw [this, put_tally]

/-- A tally read from the cash unit. -/
theorem tally_of_cash {t : State} {n : Line} {x : Tally} {c : CashUnit} (h : t.cash = { c with tallies := put c.tallies n x }) : tallyOf t n = x := by
  unfold tallyOf; rw [h]; exact row_put_self _ _ _

/-- The cash unit after a capacity is set: the capacity and the marks alone (R81, R146). -/
theorem setCapacity_cash (n : Line) (c : Nat) (s : State) : (setCapacity n c s).cash = { s.cash with
    tallies := put s.cash.tallies n { tallyOf s n with
          capacity := c
          absentMark := (tallyOf s n).absentMark || !(tallyOf s n).present
          nearMark := if (tallyOf s n).present then decide (c * 9 / 10 ≤ total (tallyOf s n).counts) else (tallyOf s n).nearMark
          fullMark := if (tallyOf s n).present then decide (c ≤ total (tallyOf s n).counts) else (tallyOf s n).fullMark } } := by
  unfold setCapacity
  obtain ⟨u, hu⟩ : ∃ x, x = onTally n (fun t => { t with capacity := c }) s := ⟨_, rfl⟩
  have hc : u.cash = { s.cash with tallies := put s.cash.tallies n { tallyOf s n with capacity := c } } := by rw [hu]; rfl
  have ht : tallyOf u n = { tallyOf s n with capacity := c } := by rw [hu]; exact onTally_tally _ _ _
  dsimp only
  rw [← hu]
  cases hp : (tallyOf s n).present
  · rw [if_pos (by rw [ht]; simp [hp]), markAbsent_cash, ht, hc]
    simp [put_put, hp]
  · rw [if_neg (by rw [ht]; simp [hp])]
    obtain ⟨v, hv⟩ : ∃ x, x = (if (tallyOf u n).nearReached = true then markNear n u else unmarkNear n u) := ⟨_, rfl⟩
    have hvc : v.cash = { s.cash with tallies := put s.cash.tallies n { tallyOf s n with capacity := c, nearMark := decide (c * 9 / 10 ≤ total (tallyOf s n).counts) } } := by
      rw [hv]
      have hr : (tallyOf u n).nearReached = decide (c * 9 / 10 ≤ total (tallyOf s n).counts) := by rw [ht]; rfl
      split
      · rename_i hh; rw [markNear_cash, hh, ht, hc]; rw [hr] at hh; simp [hh, put_put]
      · rename_i hh; rw [unmarkNear_cash, ht, hc]; rw [hr] at hh
        have hh' : decide (c * 9 / 10 ≤ total (tallyOf s n).counts) = false := by simpa using hh
        simp only [put_put, hh']
    have hvt : tallyOf v n = { tallyOf s n with capacity := c, nearMark := decide (c * 9 / 10 ≤ total (tallyOf s n).counts) } := tally_of_cash hvc
    rw [← hv]
    have hr : (tallyOf v n).fullReached = decide (c ≤ total (tallyOf s n).counts) := by rw [hvt]; rfl
    split
    · rename_i hh; rw [markFull_cash, hh, hvt, hvc]; rw [hr] at hh; simp [hh, put_put, hp]
    · rename_i hh; rw [unmarkFull_cash, hvt, hvc]; rw [hr] at hh
      have hh' : decide (c ≤ total (tallyOf s n).counts) = false := by simpa using hh
      simp [put_put, hh', hp]

/-- A capacity set at an unmarked ABSENT tally raises BOX_ABSENT. -/
theorem setCapacity_absent (n : Line) (c : Nat) (s : State) (hp : (tallyOf s n).present = false) (hm : (tallyOf s n).absentMark = false) :
    terminalRecord (setCapacity n c s).faults n .boxAbsent = (terminalRecord s.faults n .boxAbsent).raised (now s) none := by
  unfold setCapacity
  dsimp only
  have ht : tallyOf (onTally n (fun t => { t with capacity := c }) s) n = { tallyOf s n with capacity := c } := onTally_tally _ _ _
  rw [if_pos (by rw [ht]; simp [hp])]
  unfold markAbsent
  rw [if_neg (by rw [ht]; simp [hm]), raiseFault_terminals, if_pos ⟨rfl, rfl⟩]
  rfl

/-- A re-evaluation leaves the terminal records. -/
theorem regrace_terminals (p : Fin 8) (s : State) : (regrace p s).faults.terminals = s.faults.terminals := rfl

/-- A re-evaluation leaves what is unserved. -/
theorem unserved_regrace (p q : Fin 8) (s : State) : unserved (regrace p s) q = unserved s q := by
  unfold unserved; rw [regrace_table]; exact unservedIn_congr _ _ _ (regrace_terminals p s) q

/-- After a re-evaluation the record is ACTIVE exactly where the plan is unserved (R173). -/
theorem regrace_self (p : Fin 8) (s : State) : (∃ since, row (regrace p s).faults.grace p = .active since) ↔ unserved (regrace p s) p = true := by
  rw [unserved_regrace]
  have : (regrace p s).faults.grace = put s.faults.grace p ((row s.faults.grace p).reevaluated (now s) (unserved s p)) := rfl
  rw [this, row_put_self, reevaluated_active]

/-- A re-evaluation leaves the other plans' records. -/
theorem regrace_other (p q : Fin 8) (s : State) (h : q ≠ p) : row (regrace p s).faults.grace q = row s.faults.grace q := by
  have : (regrace p s).faults.grace = put s.faults.grace p ((row s.faults.grace p).reevaluated (now s) (unserved s p)) := rfl
  rw [this, row_put_other _ _ h]

/-- A clear of a zone kind, on the state. -/
theorem clearZone_faults (k : ZoneFault) (s : State) : (clearZone k s).faults = { s.faults with zone := put s.faults.zone k.index (clearedNow s (row s.faults.zone k.index)) } := by
  have h1 := clearZoneIn_zone s.clock.reading k (s.faults, s.notices)
  have h2 := clearZoneIn_others s.clock.reading k (s.faults, s.notices)
  have : (clearZone k s).faults = (clearZoneIn s.clock.reading k (s.faults, s.notices)).1 := rfl
  rw [this]
  cases hx : (clearZoneIn s.clock.reading k (s.faults, s.notices)).1 with
  | mk a b c => rw [hx] at h1 h2; simp only at h1 h2; rw [h1, h2.1, h2.2]; rfl

/-- A raise of a zone kind, on the state. -/
theorem raiseZone_faults (k : ZoneFault) (d : Option Nat) (s : State) : (raiseZone k d s).faults = { s.faults with zone := put s.faults.zone k.index ((row s.faults.zone k.index).raised (now s) d) } := rfl

/-- A latch, in the terms of the claims. -/
theorem isIn_latched (n : Notice) (s t : State) (h : t.notices = latchIn n s.notices) : latched n s t := by
  unfold latched
  rw [h, latchIn_office, latchIn_site]; simp

/-- A coin slot in use (R142). -/
theorem slotInUse_iff (c : CashUnit) (i : Fin 8) : slotInUse c i = true ↔ coinInUse c i := by
  unfold slotInUse coinInUse Lift.awaiting
  rw [Bool.or_eq_true, someRow_iff]
  simp

/-- A count result reaches the first lift that awaits it (R158). -/
theorem countFirst_split (box value tol : Nat) (z : ZoneMinute) : ∀ (before : List Lift) (l : Lift) (after : List Lift),
    l.state = .awaiting → l.box = box → (∀ x ∈ before, x.state = .awaiting → x.box ≠ box) →
    countFirst box value tol z (before ++ l :: after) = before ++ l.counted value tol z :: after ∧
      (before ++ l :: after).find? (fun l => l.awaits box) = some l := by
  intro before
  induction before with
  | nil =>
    intro l after hs hb _
    have : l.awaits box = true := by simp [Lift.awaits, Lift.awaiting, hs, hb]
    simp [countFirst, this]
  | cons a before ih =>
    intro l after hs hb hno
    have ha : a.awaits box = false := by
      have := hno a (by simp)
      simp [Lift.awaits, Lift.awaiting]
      exact this
    obtain ⟨h1, h2⟩ := ih l after hs hb (fun x hx => hno x (List.mem_cons_of_mem _ hx))
    simp [countFirst, ha, h1, h2]

/-- The first element that satisfies a test, removed. -/
theorem removeFirst_spec (p : Lift → Bool) : ∀ l : List Lift,
    (removeFirst p l = none → ∀ x ∈ l, p x = false) ∧
    (∀ r, removeFirst p l = some r → ∃ before after, l = before ++ r.1 :: after ∧ r.2 = before ++ after ∧ p r.1 = true ∧ ∀ x ∈ before, p x = false) := by
  intro l
  induction l with
  | nil => simp [removeFirst]
  | cons a l ih =>
    unfold removeFirst
    by_cases ha : p a = true
    · rw [if_pos ha]
      refine ⟨by simp, ?_⟩
      rintro r hr; cases hr
      exact ⟨[], l, rfl, rfl, ha, by simp⟩
    · rw [if_neg ha]
      have ha' : p a = false := by simpa using ha
      constructor
      · intro h
        have : removeFirst p l = none := by
          cases hx : removeFirst p l
          · rfl
          · rw [hx] at h; simp at h
        intro x hx
        rcases List.mem_cons.mp hx with rfl | hx
        · exact ha'
        · exact ih.1 this x hx
      · intro r hr
        cases hx : removeFirst p l with
        | none => rw [hx] at hr; simp at hr
        | some q =>
          rw [hx] at hr; simp at hr; subst hr
          obtain ⟨before, after, h1, h2, h3, h4⟩ := ih.2 q hx
          refine ⟨a :: before, after, by simp [h1], by simp [h2], h3, ?_⟩
          intro x hx
          rcases List.mem_cons.mp hx with rfl | hx
          · exact ha'
          · exact h4 x hx

/-- Room made in the lift list (R151). -/
theorem makeLiftRoom_spec (s : State) : ∃ kept, liftRoomMade s.cash.lifts kept ∧ (makeLiftRoom s).cash = { s.cash with lifts := kept } ∧
    (makeLiftRoom s).faults.terminals = s.faults.terminals ∧ (makeLiftRoom s).table = s.table ∧ (makeLiftRoom s).clock = s.clock ∧
    ((s.cash.lifts.length < 96 ∨ ∃ x ∈ s.cash.lifts, x.state ≠ .awaiting) → (makeLiftRoom s).faults.zone = s.faults.zone) ∧
      (96 ≤ s.cash.lifts.length → (∀ x ∈ s.cash.lifts, x.state = .awaiting) → ∀ first rest, s.cash.lifts = first :: rest →
        (makeLiftRoom s).faults.zone = put s.faults.zone 2 ((row s.faults.zone 2).raised (now s) (some first.box))) := by
  have hsp := removeFirst_spec (fun l => !l.awaiting) s.cash.lifts
  have haw : ∀ x : Lift, (!x.awaiting) = false ↔ x.state = .awaiting := by intro x; simp [Lift.awaiting]
  by_cases hl : s.cash.lifts.length < 96
  · have : makeLiftRoom s = s := by unfold makeLiftRoom; rw [if_pos hl]
    rw [this]
    refine ⟨s.cash.lifts, ⟨fun _ => rfl, fun h => absurd hl (Nat.not_lt.mpr h)⟩, rfl, rfl, rfl, rfl, fun _ => rfl, fun h => absurd hl (Nat.not_lt.mpr h)⟩
  · cases hr : removeFirst (fun l => !l.awaiting) s.cash.lifts with
    | some r =>
      obtain ⟨before, after, h1, h2, h3, h4⟩ := hsp.2 r hr
      have : makeLiftRoom s = onCash (fun c => { c with lifts := r.2 }) s := by unfold makeLiftRoom; rw [if_neg hl, hr]
      rw [this]
      refine ⟨r.2, ⟨fun h => absurd h hl, fun _ => ⟨before, r.1, after, h1, h2, Or.inl ⟨?_, fun l hx => (haw l).mp (h4 l hx)⟩⟩⟩, rfl, rfl, rfl, rfl, fun _ => rfl, ?_⟩
      · intro hh; rw [(haw r.1).mpr hh] at h3; cases h3
      · intro _ hall
        have := hall r.1 (by rw [h1]; simp)
        rw [(haw r.1).mpr this] at h3; cases h3
    | none =>
      have hall : ∀ x ∈ s.cash.lifts, x.state = .awaiting := fun x hx => (haw x).mp (hsp.1 hr x hx)
      cases hc : s.cash.lifts with
      | nil => rw [hc] at hl; simp at hl
      | cons l rest =>
        have : makeLiftRoom s = raiseZone .cashRecordLost (some l.box) (onCash (fun c => { c with lifts := rest }) s) := by unfold makeLiftRoom; rw [if_neg hl, hr, hc]
        rw [this, ← hc]
        refine ⟨rest, ⟨fun h => absurd h hl, fun _ => ⟨[], l, rest, hc, rfl, Or.inr ⟨rfl, hall⟩⟩⟩, rfl, rfl, rfl, rfl, ?_, ?_⟩
        · rintro (h | ⟨x, hx, hn⟩)
          · exact absurd h hl
          · exact absurd (hall x hx) hn
        · intro _ _ first rest' he; rw [hc] at he; cases he; rfl

/-- The records after the absent mark is set. -/
theorem markAbsent_record (n : Line) (s : State) (m : Line) (k : TermFault) : terminalRecord (markAbsent n s).faults m k =
    if m = n ∧ k = .boxAbsent ∧ (tallyOf s n).absentMark = false then (terminalRecord s.faults n .boxAbsent).raised (now s) none else terminalRecord s.faults m k := by
  unfold markAbsent
  by_cases h : (tallyOf s n).absentMark = true
  · rw [if_pos h, if_neg]; rintro ⟨-, -, h'⟩; rw [h] at h'; cases h'
  · rw [if_neg h, raiseFault_terminals]
    have h' : (tallyOf s n).absentMark = false := by simpa using h
    by_cases hm : m = n ∧ k = .boxAbsent
    · rw [if_pos hm, if_pos ⟨hm.1, hm.2, h'⟩]; rfl
    · rw [if_neg hm, if_neg (fun hh => hm ⟨hh.1, hh.2.1⟩)]; rfl

/-- The absent mark leaves the zone records. -/
theorem markAbsent_zone (n : Line) (s : State) : (markAbsent n s).faults.zone = s.faults.zone := by
  unfold markAbsent; split
  · rfl
  · exact raiseIn_zone ..

/-- The records after a mark is taken back. -/
theorem unmark_record (n : Line) (s : State) (m : Line) (j k : TermFault) (b : Bool) (f : State → State) (hf : (f s).faults = s.faults) (hn : now (f s) = now s) :
    terminalRecord (if b = true then clearFaultOf n k (f s) else s).faults m j =
    if m = n ∧ j = k ∧ b = true then clearedNow s (terminalRecord s.faults n k) else terminalRecord s.faults m j := by
  by_cases h : b = true
  · rw [if_pos h, clearFaultOf_terminals, hf]
    by_cases hm : m = n ∧ j = k
    · rw [if_pos hm, if_pos ⟨hm.1, hm.2, h⟩]; unfold clearedNow; rw [hn]
    · rw [if_neg hm, if_neg (fun hh => hm ⟨hh.1, hh.2.1⟩)]
  · rw [if_neg h, if_neg (fun hh => h hh.2.2)]

/-- A mark taken back leaves the zone records. -/
theorem unmark_zone (n : Line) (s : State) (k : TermFault) (b : Bool) (f : State → State) (hf : (f s).faults = s.faults) :
    (if b = true then clearFaultOf n k (f s) else s).faults.zone = s.faults.zone := by
  split
  · rw [← hf]; exact clearIn_zone ..
  · rfl

/-- The records after the absent mark is taken back. -/
theorem unmarkAbsent_record (n : Line) (s : State) (m : Line) (j : TermFault) : terminalRecord (unmarkAbsent n s).faults m j =
    if m = n ∧ j = .boxAbsent ∧ (tallyOf s n).absentMark = true then clearedNow s (terminalRecord s.faults n .boxAbsent) else terminalRecord s.faults m j :=
  unmark_record n s m j .boxAbsent _ (onTally n fun t => { t with absentMark := false }) rfl rfl

/-- The records after the near-full mark is taken back. -/
theorem unmarkNear_record (n : Line) (s : State) (m : Line) (j : TermFault) : terminalRecord (unmarkNear n s).faults m j =
    if m = n ∧ j = .boxNearFull ∧ (tallyOf s n).nearMark = true then clearedNow s (terminalRecord s.faults n .boxNearFull) else terminalRecord s.faults m j :=
  unmark_record n s m j .boxNearFull _ (onTally n fun t => { t with nearMark := false }) rfl rfl

/-- The records after the full mark is taken back. -/
theorem unmarkFull_record (n : Line) (s : State) (m : Line) (j : TermFault) : terminalRecord (unmarkFull n s).faults m j =
    if m = n ∧ j = .boxFull ∧ (tallyOf s n).fullMark = true then clearedNow s (terminalRecord s.faults n .boxFull) else terminalRecord s.faults m j :=
  unmark_record n s m j .boxFull _ (onTally n fun t => { t with fullMark := false }) rfl rfl

/-- The records after the near-full comparison (R145). -/
theorem markNear_record (n : Line) (s : State) (m : Line) (k : TermFault) : terminalRecord (markNear n s).faults m k =
    if m = n ∧ k = .boxNearFull ∧ (tallyOf s n).nearMark = false ∧ (tallyOf s n).nearReached = true then
      (terminalRecord s.faults n .boxNearFull).raised (now s) (some (tallyOf s n).coins) else terminalRecord s.faults m k := by
  unfold markNear
  dsimp only
  by_cases h : ((tallyOf s n).nearReached && !(tallyOf s n).nearMark) = true
  · rw [if_pos h, raiseFault_terminals]
    simp at h
    by_cases hm : m = n ∧ k = .boxNearFull
    · rw [if_pos hm, if_pos ⟨hm.1, hm.2, h.2, h.1⟩]; rfl
    · rw [if_neg hm, if_neg (fun hh => hm ⟨hh.1, hh.2.1⟩)]; rfl
  · rw [if_neg h, if_neg]
    rintro ⟨-, -, h1, h2⟩; simp [h1, h2] at h

/-- The records after the full comparison (R145). -/
theorem markFull_record (n : Line) (s : State) (m : Line) (k : TermFault) : terminalRecord (markFull n s).faults m k =
    if m = n ∧ k = .boxFull ∧ (tallyOf s n).fullMark = false ∧ (tallyOf s n).fullReached = true then
      (terminalRecord s.faults n .boxFull).raised (now s) (some (tallyOf s n).coins) else terminalRecord s.faults m k := by
  unfold markFull
  dsimp only
  by_cases h : ((tallyOf s n).fullReached && !(tallyOf s n).fullMark) = true
  · rw [if_pos h, raiseFault_terminals]
    simp at h
    by_cases hm : m = n ∧ k = .boxFull
    · rw [if_pos hm, if_pos ⟨hm.1, hm.2, h.2, h.1⟩]; rfl
    · rw [if_neg hm, if_neg (fun hh => hm ⟨hh.1, hh.2.1⟩)]; rfl
  · rw [if_neg h, if_neg]
    rintro ⟨-, -, h1, h2⟩; simp [h1, h2] at h

/-- A raise adds none of the sources but FAULT_OPENED and GRACE_STARTED. -/
theorem raiseIn_adds (table : Vector Entry 16) (z : ZoneMinute) (spared : Bool) (n : Line) (k : TermFault) (d : Option Nat) (w : Watch)
    (m : Notice) (h1 : m ≠ .faultOpened) (h2 : m ≠ .graceStarted) : adds m false w.2 (raiseIn table z spared n k d w).2 := by
  unfold raiseIn
  dsimp only
  have h := adds_cond m .faultOpened ((terminalRecord w.1 n k).state != .opened && !spared) w.2
  rw [decide_eq_false h1] at h
  have := adds_trans h ((followService_adds table z n (serviceIn table w.1 n)
    (putTerminal w.1 n k ((terminalRecord w.1 n k).raised z d),
      if (terminalRecord w.1 n k).state != .opened && !spared then latchIn .faultOpened w.2 else w.2)).1 m h2)
  simpa only [Bool.false_and, Bool.or_false] using this

/-- A clear adds none of the sources but FAULT_CLEARED and GRACE_STARTED. -/
theorem clearIn_adds (table : Vector Entry 16) (z : ZoneMinute) (n : Line) (k : TermFault) (w : Watch)
    (m : Notice) (h1 : m ≠ .faultCleared) (h2 : m ≠ .graceStarted) : adds m false w.2 (clearIn table z n k w).2 := by
  unfold clearIn
  dsimp only
  split
  · have h := adds_latchIn m .faultCleared w.2
    rw [decide_eq_false h1] at h
    have := adds_trans h ((followService_adds table z n (serviceIn table w.1 n)
      (putTerminal w.1 n k ((terminalRecord w.1 n k).cleared z), latchIn .faultCleared w.2)).1 m h2)
    simpa using this
  · exact adds_refl _ _

/-- Coins added: the cash unit (R145). -/
theorem addCoins_tally (n : Line) (counts : Vector Nat 8) (s : State) :
    let old := tallyOf s n
    let new := tallyOf (addCoins n counts s) n
    new = { old with
      counts := new.counts
      nearMark := old.nearMark || decide (old.capacity * 9 / 10 ≤ total new.counts)
      fullMark := old.fullMark || decide (old.capacity ≤ total new.counts) } ∧
    (∀ m k, terminalRecord (addCoins n counts s).faults m k =
      if m = n ∧ k = .boxNearFull ∧ old.nearMark = false ∧ old.capacity * 9 / 10 ≤ total new.counts then
        (terminalRecord s.faults n .boxNearFull).raised (now s) (some (total new.counts))
      else if m = n ∧ k = .boxFull ∧ old.fullMark = false ∧ old.capacity ≤ total new.counts then
        (terminalRecord s.faults n .boxFull).raised (now s) (some (total new.counts))
      else terminalRecord s.faults m k) ∧
    (addCoins n counts s).faults.zone = s.faults.zone ∧ ∀ m, m ≠ .faultOpened → m ≠ .graceStarted → adds m false s.notices (addCoins n counts s).notices := by
  intro old new
  obtain ⟨u, hu⟩ : ∃ x, x = onTally n (fun t => { t with counts := Vector.ofFn fun i => row t.counts i + row counts i }) s := ⟨_, rfl⟩
  have hdef : addCoins n counts s = markFull n (markNear n u) := by rw [hu]; rfl
  have hut : tallyOf u n = { old with counts := Vector.ofFn fun i => row old.counts i + row counts i } := by rw [hu]; exact onTally_tally _ _ _
  have h1t := tally_of_cash (markNear_cash n u)
  have h2t := tally_of_cash (markFull_cash n (markNear n u))
  have hnew : new = tallyOf (markFull n (markNear n u)) n := by rw [← hdef]
  have hcounts : new.counts = (tallyOf u n).counts := by rw [hnew, h2t]; show (tallyOf (markNear n u) n).counts = _; rw [h1t]
  have hnr : (tallyOf u n).nearReached = decide (old.capacity * 9 / 10 ≤ total new.counts) := by
    rw [hcounts]; unfold Tally.nearReached Tally.nearLevel Tally.coins; rw [hut]
  have hfr : (tallyOf (markNear n u) n).fullReached = decide (old.capacity ≤ total new.counts) := by
    rw [hcounts]; unfold Tally.fullReached Tally.coins; rw [h1t, hut]
  have hfm : (tallyOf (markNear n u) n).fullMark = old.fullMark := by rw [h1t, hut]
  have hcoins : (tallyOf u n).coins = total new.counts := by rw [hcounts]; rfl
  have hcoins2 : (tallyOf (markNear n u) n).coins = total new.counts := by rw [hcounts]; unfold Tally.coins; rw [h1t]
  refine ⟨?_, ?_, ?_, ?_⟩
  · have e : new = { tallyOf (markNear n u) n with fullMark := (tallyOf (markNear n u) n).fullMark || (tallyOf (markNear n u) n).fullReached } :=
      hnew.trans h2t
    rw [hfr, hfm, h1t, hnr] at e
    rw [hcounts]
    rw [hcounts] at e
    rw [e, hut]
  · intro m k
    rw [hdef, markFull_record, hfr, hfm, hcoins2, markNear_record, markNear_record, hnr, hcoins]
    have e1 : now (markNear n u) = now s := by unfold now; rw [markNear_clock, hu]; rfl
    have e2 : now u = now s := by rw [hu]; rfl
    have e3 : u.faults = s.faults := by rw [hu]; rfl
    have e4 : (tallyOf u n).nearMark = old.nearMark := by rw [hut]
    rw [e1, e2, e3, e4]
    simp only [decide_eq_true_eq]
    by_cases hk : k = .boxFull
    · subst hk; simp
    · simp [hk]
  · rw [hdef]
    have : ∀ v : State, (markFull n v).faults.zone = v.faults.zone := by
      intro v; unfold markFull; dsimp only; split
      · exact raiseIn_zone ..
      · rfl
    have h2 : ∀ v : State, (markNear n v).faults.zone = v.faults.zone := by
      intro v; unfold markNear; dsimp only; split
      · exact raiseIn_zone ..
      · rfl
    rw [this, h2, hu]; rfl
  · intro m h1 h2
    rw [hdef]
    have hf : ∀ v : State, adds m false v.notices (markFull n v).notices := by
      intro v; unfold markFull; dsimp only; split
      · exact raiseIn_adds _ _ _ _ _ _ _ m h1 h2
      · exact adds_refl _ _
    have hn : ∀ v : State, adds m false v.notices (markNear n v).notices := by
      intro v; unfold markNear; dsimp only; split
      · exact raiseIn_adds _ _ _ _ _ _ _ m h1 h2
      · exact adds_refl _ _
    have := adds_trans (hn u) (hf (markNear n u))
    rw [show u.notices = s.notices by rw [hu]; rfl] at this
    exact this

end Sys2Proof.Machine
end

