-- ==== Sys2Proof/Laws/Commands.lean ====
section
/-!
SUPPORT. Laws/Commands.lean: the frames of the operations that a command hands its work to: a load, a QUOTE or PRICE, the stages of a
walk, CONFIGURE-TERMINAL, RETIRE-TERMINAL, a SALE, the boxes, addressed notices and badges.
-/
namespace Sys2Proof.Machine
variable (s : State)

theorem load_frame {α : Type} (tag : Tag) (part : Option α) (further : Book → α → Except Status Book) :
    onlyChanges [.books, .ports] s (load tag part further s) := by
  unfold load
  repeat' split
  all_goals first
    | exact (refuseOffice_frame _ _ _).mono (by decide)
    | exact ((onBooks_frame _ _).trans (answerPort_frame _ _ _ _ _)).mono (by decide)

theorem acceptAsk_frame (n : Line) (r : WalkRequest) :
    onlyChanges [.books, .engine, .lines, .table, .quotes, .sales, .permits, .ports, .notices] s (acceptAsk n r s) :=
  ((cancelQuote_frame s n).trans (placeRequest_frame _ (lineSlot n) r)).mono (by decide)

theorem takeAsk_frame (n : Line) (r : WalkRequest) :
    onlyChanges [.books, .engine, .lines, .table, .quotes, .sales, .permits, .ports, .notices] s (takeAsk n r s) := by
  unfold takeAsk
  split
  · exact (answerPending_frame _ _ _ _).mono (by decide)
  · split
    · dsimp only
      split
      · exact onlyChanges.mono (onlyChanges.trans (refreshPermit_frame _ _) (answerPending_frame _ _ _ _)) (by decide)
      · exact onlyChanges.mono (onlyChanges.trans (refreshPermit_frame _ _) (acceptAsk_frame _ _ _)) (by decide)
    · exact acceptAsk_frame _ _ _

theorem stageOf_frame (w : Walk) : onlyChanges [.permits] s (stageOf s w).1 := by
  unfold stageOf readAllowance
  repeat' split
  all_goals first
    | exact onlyChanges_refl _ _
    | exact refreshPermit_frame _ _

theorem runStages_frame (fuel : Nat) (w : Walk) : onlyChanges [.permits] s (runStages fuel s w).1 := by
  induction fuel generalizing s w with
  | zero => exact onlyChanges_refl _ s
  | succ fuel ih =>
    unfold runStages
    split
    · exact onlyChanges_refl _ s
    · exact ((stageOf_frame s w).trans (ih _ _)).mono (by decide)

theorem regracePlans_frame (before : Entry) (after : Fin 8) : onlyChanges [.faults, .notices] s (regracePlans before after s) := by
  unfold regracePlans
  split
  · exact ((regrace_frame _ _).trans (regrace_frame _ _)).mono (by decide)
  · exact regrace_frame _ _

theorem configure_frame (n : Line) (f : TerminalFields) (p : Fin 8) (c : CondSet) :
    onlyChanges [.table, .cash, .faults, .notices, .quotes, .engine, .lines] s (configure n f p c s) := by
  unfold configure
  exact ((((onEntry_frame _ _ _).trans (setCapacity_frame _ _ _)).trans (regracePlans_frame _ _ _)).trans (disturb_frame _ _ _)).mono (by decide)

theorem retire_frame (n : Line) : onlyChanges [.table, .faults, .notices, .quotes, .engine, .lines] s (retire n s) :=
  (((onEntry_frame s n _).trans (regrace_frame _ _)).trans (disturb_frame _ n false)).mono (by decide)

theorem refuseSale_frame (n : Line) (st : Status) : onlyChanges [.quotes, .lines] s (refuseSale n st s) := by
  unfold refuseSale
  split
  · exact ((cancelQuote_frame _ _).trans (answerPending_frame _ _ _ _)).mono (by decide)
  · exact (answerPending_frame _ _ _ _).mono (by decide)

theorem commitSale_frame (n : Line) (q : OpenQuote) (m : SaleMoney) (serial : Nat) :
    onlyChanges [.sales, .cash, .permits, .faults, .notices, .quotes, .lines] s (commitSale n q m serial s) := by
  unfold commitSale
  exact ((((((onSales_frame _ _).trans (takePayment_frame _ _ _ _)).trans (onToday_frame _ _ _)).trans (cancelQuote_frame _ _)).trans
    (feelPressure_frame _)).trans (easePressure_frame _)).trans (answerPending_frame _ _ _ _) |>.mono (by decide)

theorem refreshForSale_frame (q : OpenQuote) (m : SaleMoney) : onlyChanges [.permits] s (refreshForSale q m s) := by
  unfold refreshForSale
  split
  · exact refreshPermit_frame _ _
  · exact onlyChanges_refl _ _

theorem trySale_frame (n : Line) (q : OpenQuote) (m : SaleMoney) :
    onlyChanges [.sales, .cash, .permits, .faults, .notices, .quotes, .lines] s (trySale n q m s) := by
  unfold trySale
  have h := refreshForSale_frame s q m
  dsimp only
  split
  · exact (h.trans (refuseSale_frame _ _ _)).mono (by decide)
  · exact (h.trans (refuseSale_frame _ _ _)).mono (by decide)
  · exact (h.trans (refuseSale_frame _ _ _)).mono (by decide)
  · exact (h.trans (commitSale_frame _ _ _ _ _)).mono (by decide)

theorem takeSale_frame (n : Line) (number : Nat) (m : SaleMoney) :
    onlyChanges [.sales, .cash, .permits, .faults, .notices, .quotes, .lines] s (takeSale n number m s) := by
  unfold takeSale
  repeat' split
  all_goals first
    | exact (refuseSale_frame _ _ _).mono (by decide)
    | exact trySale_frame _ _ _ _

theorem takeBox_frame (n : Line) (label : Nat) : onlyChanges [.cash, .faults, .notices, .lines] s (takeBox n label s) := by
  unfold takeBox
  dsimp only
  have h := ((makeLiftRoom_frame s).trans (onCash_frame _ (fun c => joinLifted n (appendLift (liftOf s n label) c)))).trans
    (onTally_frame _ n Tally.emptied)
  have h2 := h.trans (markAbsent_frame _ n)
  refine onlyChanges.mono (onlyChanges.trans (b := [.lines]) (a := [.cash, .faults, .notices]) ?_ (answerPending_frame _ _ _ _)) (by decide)
  repeat' split
  · exact ((h2.trans (raiseFault_frame _ _ _ _)).trans (raiseFault_frame _ _ _ _)).mono (by decide)
  · exact (h2.trans (raiseFault_frame _ _ _ _)).mono (by decide)
  · exact (h2.trans (raiseFault_frame _ _ _ _)).mono (by decide)
  · exact h2.mono (by decide)

theorem putBox_frame (n : Line) (label : Nat) : onlyChanges [.cash, .faults, .notices, .lines] s (putBox n label s) := by
  unfold putBox
  split
  · exact ((raiseFault_frame _ _ _ _).trans (answerPending_frame _ _ _ _)).mono (by decide)
  · exact (((((onTally_frame _ _ _).trans (unmarkAbsent_frame _ _)).trans (unmarkNear_frame _ _)).trans (unmarkFull_frame _ _)).trans
      (answerPending_frame _ _ _ _)).mono (by decide)

theorem changeAddressed_frame (tag : Tag) (terminal : Nat) (f : BitVec 8 → BitVec 8) :
    onlyChanges [.table, .ports] s (changeAddressed tag terminal f s) := by
  unfold changeAddressed
  split
  · exact onlyChanges_refl _ _
  · exact ((onEntries_frame _ _ _).trans (answerPort_frame _ _ _ _ _)).mono (by decide)

theorem putBadge_frame (tag : Tag) (number : Nat) (roles : BitVec 3) : onlyChanges [.ports] s (putBadge tag number roles s) := by
  unfold putBadge
  split
  · exact answerBadges_frame _ _ _
  · exact ((onPorts_frame _ _).trans (answerBadges_frame _ _ _)).mono (by decide)

end Sys2Proof.Machine
end

