-- ==== Sys2Proof/Laws/Grace.lean ====
section
/-!
SUPPORT. Laws/Grace.lean: grace follows the service states (R172 to R174): what the raises and clears of one event make of the grace
records and of the notices, in the terms of graceFollows; and what the marks of a box tally do to the fault unit.
-/
namespace Sys2Proof.Machine

/-! ## One event on the fault table and the notices -/

/-- From `w0` to `w` the grace records of the plans `done` are those that one re-evaluation of `w0`'s gives, the others stand as they
stood, and GRACE_STARTED is added where a record has left NONE (R174). -/
def follows (table : Vector Entry 16) (z : ZoneMinute) (done : Fin 8 → Prop) (w0 w : Watch) : Prop :=
  (∀ p, done p → row w.1.grace p = (row w0.1.grace p).reevaluated z (unservedIn table w.1 p)) ∧
    (∀ p, ¬ done p → row w.1.grace p = row w0.1.grace p) ∧
    ∃ b, adds .graceStarted b w0.2 w.2 ∧ (b = true ↔ ∃ p, row w0.1.grace p = .none ∧ row w.1.grace p ≠ .none)

theorem follows_none (table : Vector Entry 16) (z : ZoneMinute) (w : Watch) : follows table z (fun _ => False) w w :=
  ⟨fun _ h => h.elim, fun _ _ => rfl, false, adds_refl _ _, by
    constructor
    · intro h; cases h
    · rintro ⟨p, h1, h2⟩; exact absurd h1 h2⟩

/-- A second re-evaluation for the same answer changes nothing. -/
theorem reevaluated_again (g : Grace) (z : ZoneMinute) (u : Bool) : (g.reevaluated z u).reevaluated z u = g.reevaluated z u := by
  cases g <;> cases u <;> rfl

/-- A re-evaluation of plan q joins it to those done, where it gives what one re-evaluation of `w0`'s record gives. -/
theorem follows_put {table : Vector Entry 16} {z : ZoneMinute} {done : Fin 8 → Prop} {w0 w : Watch} {b : Bool} (q : Fin 8)
    (h1 : ∀ p, p ≠ q → done p → row w.1.grace p = (row w0.1.grace p).reevaluated z (unservedIn table w.1 p))
    (h2 : ∀ p, p ≠ q → ¬ done p → row w.1.grace p = row w0.1.grace p) (h3 : adds .graceStarted b w0.2 w.2)
    (h4 : b = true ↔ ∃ p, row w0.1.grace p = .none ∧ row w.1.grace p ≠ .none)
    (hq : (row w.1.grace q).reevaluated z (unservedIn table w.1 q) = (row w0.1.grace q).reevaluated z (unservedIn table w.1 q))
    (hn : row w.1.grace q = .none → row w0.1.grace q = .none) :
    follows table z (fun p => done p ∨ p = q) w0 (regraceIn table z q w) := by
  have hu : ∀ p, unservedIn table (regraceIn table z q w).1 p = unservedIn table w.1 p := fun p =>
    unservedIn_congr table _ _ (regraceIn_terminals ..) p
  have hnone : ∀ g : Grace, ∀ u, g.reevaluated z u = .none → g = .none ∧ u = false := by
    intro g u; cases g <;> cases u <;> simp [Grace.reevaluated]
  refine ⟨?_, ?_, b || (row w.1.grace q == .none && unservedIn table w.1 q), ?_, ?_⟩
  · intro p hp
    rw [hu, regraceIn_grace, row_put]
    split
    · rename_i e; rw [e, hq]
    · rename_i e; exact h1 p e (hp.resolve_right e)
  · intro p hp
    rw [regraceIn_grace, row_put, if_neg (fun e => hp (Or.inr e))]
    exact h2 p (fun e => hp (Or.inr e)) (fun hd => hp (Or.inl hd))
  · have h5 := adds_cond .graceStarted .graceStarted (row w.1.grace q == .none && unservedIn table w.1 q) w.2
    rw [decide_eq_true rfl, Bool.true_and] at h5
    exact adds_trans h3 h5
  · rw [Bool.or_eq_true, h4, Bool.and_eq_true, beq_iff_eq]
    constructor
    · rintro (⟨p, hp1, hp2⟩ | ⟨hp1, hp2⟩)
      · refine ⟨p, hp1, ?_⟩
        rw [regraceIn_grace, row_put]
        split
        · rename_i e; subst e
          exact fun hh => hp2 (hnone _ _ hh).1
        · exact hp2
      · refine ⟨q, hn hp1, ?_⟩
        rw [regraceIn_grace, row_put, if_pos rfl, hp2]
        exact fun hh => by have := (hnone _ _ hh).2; cases this
    · rintro ⟨p, hp1, hp2⟩
      by_cases hw : row w.1.grace p = .none
      · right
        rw [regraceIn_grace, row_put] at hp2
        split at hp2
        · rename_i e; subst e
          refine ⟨hw, ?_⟩
          rw [hw] at hp2
          cases hu' : unservedIn table w.1 p
          · rw [hu'] at hp2; exact absurd rfl hp2
          · rfl
        · exact absurd hw hp2
      · exact Or.inl ⟨p, hp1, hw⟩

/-- A record that a re-evaluation has not moved from NONE was NONE. -/
theorem none_of_reevaluated {g : Grace} {z : ZoneMinute} {u : Bool} (h : g.reevaluated z u = .none) : g = .none := by
  cases g <;> cases u <;> simp [Grace.reevaluated] at h ⊢

/-- A re-evaluation of one plan joins it to those done. -/
theorem follows_regrace {table : Vector Entry 16} {z : ZoneMinute} {done : Fin 8 → Prop} {w0 w : Watch} (p : Fin 8)
    (h : follows table z done w0 w) : follows table z (fun q => done q ∨ q = p) w0 (regraceIn table z p w) := by
  obtain ⟨h1, h2, b, h3, h4⟩ := h
  refine follows_put p (fun q _ => h1 q) (fun q _ => h2 q) h3 h4 ?_ ?_
  · by_cases hd : done p
    · rw [h1 p hd, reevaluated_again]
    · rw [h2 p hd]
  · intro hh
    by_cases hd : done p
    · rw [h1 p hd] at hh; exact none_of_reevaluated hh
    · rw [← h2 p hd]; exact hh

/-- Whether a plan is unserved turns on the service states of its terminals. -/
theorem unservedIn_same (table : Vector Entry 16) (f g : FaultTable) (p : Fin 8)
    (h : ∀ m, (row table m).active = true → (row table m).plan = p → serviceIn table f m = serviceIn table g m) :
    unservedIn table f p = unservedIn table g p := by
  unfold unservedIn
  congr 1
  have : ∀ m, (!servesPlan table p m || (serviceIn table f m).outOfPayment) = (!servesPlan table p m || (serviceIn table g m).outOfPayment) := by
    intro m
    cases hs : servesPlan table p m
    · rfl
    · unfold servesPlan at hs
      rw [Bool.and_eq_true, beq_iff_eq] at hs
      rw [h m hs.1 hs.2]
  simp only [this]

theorem follows_iff {table : Vector Entry 16} {z : ZoneMinute} {a b : Fin 8 → Prop} {w0 w : Watch} (hab : ∀ p, a p ↔ b p)
    (h : follows table z a w0 w) : follows table z b w0 w :=
  ⟨fun p hp => h.1 p ((hab p).mpr hp), fun p hp => h.2.1 p (fun ha => hp ((hab p).mp ha)), h.2.2⟩

/-- Following a service state after a change of one terminal's records (R172, R174): the plan joins those done where the service state
has changed. A plan done before must have had an ACTIVE record, or have become no more served by the change. -/
theorem follows_service {table : Vector Entry 16} {z : ZoneMinute} {done : Fin 8 → Prop} {w0 w w1 : Watch} (n : Line)
    (h : follows table z done w0 w) (hg : w1.1.grace = w.1.grace) (hn : adds .graceStarted false w.2 w1.2)
    (ho : ∀ m, m ≠ n → serviceIn table w1.1 m = serviceIn table w.1 m)
    (hm : ∀ p, done p → (∃ since, row w0.1.grace p = .active since) ∨
      (unservedIn table w.1 p = true → unservedIn table w1.1 p = true)) :
    ∃ more, (∀ p, done p → more p) ∧ (∀ p, more p → done p ∨ p = (row table n).plan) ∧
      (serviceIn table w1.1 n = serviceIn table w.1 n → ∀ p, more p → done p) ∧
      follows table z more w0 (followService table z n (serviceIn table w.1 n) w1) := by
  have hu0 : ∀ p, (serviceIn table w1.1 n = serviceIn table w.1 n ∨ p ≠ (row table n).plan) →
      unservedIn table w1.1 p = unservedIn table w.1 p := by
    intro p hp
    apply unservedIn_same
    intro m _ hpl
    by_cases hmn : m = n
    · subst hmn
      exact hp.resolve_right (fun hne => hne hpl.symm)
    · exact ho m hmn
  obtain ⟨h1, h2, b, h3, h4⟩ := h
  have h3' : adds .graceStarted b w0.2 w1.2 := by simpa using adds_trans h3 hn
  unfold followService
  by_cases hc : (serviceIn table w1.1 n != serviceIn table w.1 n) = true
  · rw [if_pos hc]
    refine ⟨_, fun p hp => Or.inl hp, fun p hp => hp, fun he => absurd he (by simpa using hc), follows_put _ ?_ ?_ h3' (by rw [hg]; exact h4) ?_ ?_⟩
    · intro p hp hd; rw [hg, h1 p hd, hu0 p (Or.inr hp)]
    · intro p _ hd; rw [hg]; exact h2 p hd
    · rw [hg]
      by_cases hd : done (row table n).plan
      · rw [h1 _ hd]
        rcases hm _ hd with ⟨since, ha⟩ | hmono
        · rw [ha]
          cases unservedIn table w.1 (row table n).plan <;> cases unservedIn table w1.1 (row table n).plan <;> rfl
        · generalize row w0.1.grace (row table n).plan = g
          revert hmono
          cases unservedIn table w.1 (row table n).plan <;> cases unservedIn table w1.1 (row table n).plan <;> intro hmono <;>
            first
              | (cases g <;> rfl)
              | exact absurd (hmono rfl) (by simp)
      · rw [h2 _ hd]
    · intro hh
      rw [hg] at hh
      by_cases hd : done (row table n).plan
      · rw [h1 _ hd] at hh; exact none_of_reevaluated hh
      · rw [← h2 _ hd]; exact hh
  · rw [if_neg hc]
    have he : serviceIn table w1.1 n = serviceIn table w.1 n := by simpa using hc
    refine ⟨done, fun _ h => h, fun _ h => Or.inl h, fun _ _ h => h, ?_, ?_, b, h3', by rw [hg]; exact h4⟩
    · intro p hp; rw [hg, h1 p hp, hu0 p (Or.inl he)]
    · intro p hp; rw [hg]; exact h2 p hp

/-- Out of payment service, in terms of the standing records (R171, R173). -/
theorem outOfPayment_serviceOf (r : Vector FaultRecord 14) : (serviceOf r).outOfPayment =
    (hasFault r .printerEmpty || hasFault r .doorOpen || hasFault r .lineSilent || (hasCashFault r && hasFault r .cardFault)) := by
  unfold serviceOf
  cases hasFault r .printerEmpty <;> cases hasFault r .doorOpen <;> cases hasFault r .lineSilent <;> cases hasCashFault r <;>
    cases hasFault r .cardFault <;> rfl

/-- More standing records leave no terminal less out of payment service. -/
theorem outOfPayment_mono (table : Vector Entry 16) (f g : FaultTable) (m : Line)
    (h : ∀ k, (terminalRecord f m k).standing = true → (terminalRecord g m k).standing = true)
    (ho : (serviceIn table f m).outOfPayment = true) : (serviceIn table g m).outOfPayment = true := by
  have hf : ∀ k, hasFault (row f.terminals m) k = true → hasFault (row g.terminals m) k = true := fun k => h k
  unfold serviceIn at *
  by_cases ha : (row table m).active = true
  · rw [if_pos ha] at *
    rw [outOfPayment_serviceOf] at *
    unfold hasCashFault at *
    simp only [Bool.or_eq_true, Bool.and_eq_true] at *
    exact ho.imp (Or.imp (Or.imp (hf _) (hf _)) (hf _)) (And.imp (Or.imp (Or.imp (Or.imp (hf _) (hf _)) (hf _)) (hf _)) (hf _))
  · rw [if_neg ha] at ho; cases ho

/-- More standing records leave no unserved plan served (R173). -/
theorem unservedIn_mono (table : Vector Entry 16) (f g : FaultTable) (p : Fin 8)
    (h : ∀ m k, (terminalRecord f m k).standing = true → (terminalRecord g m k).standing = true)
    (hu : unservedIn table f p = true) : unservedIn table g p = true := by
  unfold unservedIn at *
  rw [Bool.and_eq_true, allRows_iff] at *
  refine ⟨hu.1, fun m => ?_⟩
  have := hu.2 m
  rw [Bool.or_eq_true] at *
  exact this.imp_right (outOfPayment_mono table f g m (h m))

theorem standing_of_raised (r : FaultRecord) (z : ZoneMinute) (d : Option Nat) : (r.raised z d).standing = true := by
  unfold FaultRecord.raised FaultRecord.standing; cases r.state <;> rfl

theorem standing_of_cleared (r : FaultRecord) (z : ZoneMinute) : (r.cleared z).standing = false := rfl

theorem serviceIn_putOther (table : Vector Entry 16) (f : FaultTable) (n m : Line) (k : TermFault) (r : FaultRecord) (h : m ≠ n) :
    serviceIn table (putTerminal f n k r) m = serviceIn table f m := by
  apply serviceIn_congr
  intro j
  rw [terminalRecord_put, if_neg (fun hh => h hh.1)]

/-- A raise, in the terms of R174. -/
theorem follows_raise {table : Vector Entry 16} {z : ZoneMinute} {done : Fin 8 → Prop} {w0 w : Watch} (spared : Bool) (n : Line)
    (k : TermFault) (d : Option Nat) (h : follows table z done w0 w) :
    ∃ more, (∀ p, done p → more p) ∧ (∀ p, more p → done p ∨ p = (row table n).plan) ∧
      (countsForService k = false → ∀ p, more p → done p) ∧ follows table z more w0 (raiseIn table z spared n k d w) := by
  unfold raiseIn
  dsimp only
  have hn := adds_cond .graceStarted .faultOpened ((terminalRecord w.1 n k).state != .opened && !spared) w.2
  have hu : ∀ p, unservedIn table w.1 p = true → unservedIn table (putTerminal w.1 n k ((terminalRecord w.1 n k).raised z d)) p = true := by
    intro p
    apply unservedIn_mono
    intro m j hj
    rw [terminalRecord_put]
    split
    · exact standing_of_raised ..
    · exact hj
  obtain ⟨more, m1, m2, m3, m4⟩ := follows_service (w1 := (putTerminal w.1 n k ((terminalRecord w.1 n k).raised z d),
      if (terminalRecord w.1 n k).state != .opened && !spared then latchIn .faultOpened w.2 else w.2))
    n h rfl hn (fun m hm => serviceIn_putOther _ _ _ _ _ _ hm) (fun p _ => Or.inr (hu p))
  exact ⟨more, m1, m2, fun hk => m3 (serviceIn_put _ _ _ _ _ _ hk), m4⟩

/-- A clear, in the terms of R174. -/
theorem follows_clear {table : Vector Entry 16} {z : ZoneMinute} {done : Fin 8 → Prop} {w0 w : Watch} (n : Line)
    (k : TermFault) (h : follows table z done w0 w)
    (hd : ∀ p, done p → unservedIn table w.1 p = true → ∃ since, row w0.1.grace p = .active since) :
    (∃ more, (∀ p, done p → more p) ∧ (∀ p, more p → done p ∨ p = (row table n).plan) ∧
      (countsForService k = false → ∀ p, more p → done p) ∧ follows table z more w0 (clearIn table z n k w)) ∧
    ∀ p, unservedIn table (clearIn table z n k w).1 p = true → unservedIn table w.1 p = true := by
  constructor
  · unfold clearIn
    dsimp only
    split
    · have hu : ∀ p, done p → (∃ since, row w0.1.grace p = .active since) ∨ (unservedIn table w.1 p = true →
          unservedIn table (putTerminal w.1 n k ((terminalRecord w.1 n k).cleared z)) p = true) := by
        intro p hp
        cases hu : unservedIn table w.1 p
        · right; intro hh; cases hh
        · exact Or.inl (hd p hp hu)
      obtain ⟨more, m1, m2, m3, m4⟩ := follows_service (w1 := (putTerminal w.1 n k ((terminalRecord w.1 n k).cleared z),
          latchIn .faultCleared w.2))
        n h rfl (adds_latchIn .graceStarted .faultCleared w.2) (fun m hm => serviceIn_putOther _ _ _ _ _ _ hm) hu
      exact ⟨more, m1, m2, fun hk => m3 (serviceIn_put _ _ _ _ _ _ hk), m4⟩
    · exact ⟨done, fun _ h => h, fun _ h => Or.inl h, fun _ _ h => h, h⟩
  · intro p
    apply unservedIn_mono
    intro m j
    rw [clearIn_record]
    split
    · rename_i e; rw [e.1, e.2]
      split
      · exact fun h => h
      · intro hh; cases hh
    · exact fun h => h

/-- Every plan done is every plan done. -/
theorem follows_all {table : Vector Entry 16} {z : ZoneMinute} {done : Fin 8 → Prop} {w0 w : Watch} (hd : ∀ p, done p)
    (h : follows table z done w0 w) : follows table z (fun _ => True) w0 w :=
  ⟨fun p _ => h.1 p (hd p), fun _ hp => (hp trivial).elim, h.2.2⟩

/-- From `s` to `t`, in which the time is the same, every plan has followed (R174). -/
def graceTracks (s t : State) : Prop :=
  follows t.table (now s) (fun _ => True) (s.faults, s.notices) (t.faults, t.notices) ∧ now t = now s

theorem graceTracks_follows {s t : State} (h : graceTracks s t) : graceFollows s t := by
  obtain ⟨⟨h1, -, b, h3, h4⟩, -⟩ := h
  have h1 : ∀ p, row t.faults.grace p = (row s.faults.grace p).reevaluated (now s) (unserved t p) := fun p => h1 p trivial
  refine ⟨fun p => ⟨?_, ?_, ?_⟩, latchedWhere_of_adds h3 (h4.trans ?_)⟩
  · intro hg; rw [h1, hg]; cases unserved t p <;> rfl
  · intro a hg; rw [h1, hg]; cases unserved t p <;> rfl
  · intro a u hg; rw [h1, hg]; cases unserved t p <;> rfl
  · constructor
    · rintro ⟨p, hp1, hp2⟩
      refine ⟨p, hp1, ?_⟩
      have hp1 : row s.faults.grace p = .none := hp1
      have hp2 : row t.faults.grace p ≠ .none := hp2
      rw [h1, hp1] at hp2
      cases hu : unserved t p
      · rw [hu] at hp2; exact absurd rfl hp2
      · rfl
    · rintro ⟨p, hp1, hp2⟩
      refine ⟨p, hp1, ?_⟩
      show row t.faults.grace p ≠ .none
      rw [h1, hp1, hp2]; simp [Grace.reevaluated]

/-- In a state whose grace records are true (R173) a re-evaluation of any plan changes nothing. -/
theorem graceTracks_refl {s : State} (h : graceKept s) : graceTracks s s := by
  refine ⟨⟨fun p _ => ?_, fun _ hp => (hp trivial).elim, (follows_none s.table (now s) (s.faults, s.notices)).2.2⟩, rfl⟩
  show row s.faults.grace p = (row s.faults.grace p).reevaluated (now s) (unserved s p)
  have := h p
  cases hu : unserved s p
  · rw [hu] at this
    cases hg : row s.faults.grace p with
    | none => rfl
    | active since => have := this.mp ⟨since, hg⟩; cases this
    | ending a b => rfl
  · obtain ⟨since, hg⟩ := this.mpr hu
    rw [hg]; rfl

/-- The service states and plans of two tables alike in activity and plan are alike. -/
theorem unservedIn_table (t t' : Vector Entry 16) (f : FaultTable) (p : Fin 8)
    (h : ∀ n, (row t n).active = (row t' n).active ∧ (row t n).plan = (row t' n).plan) : unservedIn t f p = unservedIn t' f p := by
  unfold unservedIn servesPlan serviceIn
  simp only [(h _).1, (h _).2]

/-- What touches neither the fault table, nor GRACE_STARTED, nor what terminals are ACTIVE with which plan. -/
theorem graceTracks_same {s t u : State} (h : graceTracks s t) (hf : u.faults = t.faults) (hn : adds .graceStarted false t.notices u.notices)
    (hz : now u = now t) (ht : ∀ n, (row u.table n).active = (row t.table n).active ∧ (row u.table n).plan = (row t.table n).plan) :
    graceTracks s u := by
  obtain ⟨⟨h1, h2, b, h3, h4⟩, hz'⟩ := h
  refine ⟨⟨fun p hp => ?_, fun p hp => (hp trivial).elim, b, by simpa using adds_trans h3 hn, by rw [hf]; exact h4⟩, hz.trans hz'⟩
  rw [hf, unservedIn_table _ _ _ _ ht]; exact h1 p hp

theorem graceTracks_raise {s t : State} (n : Line) (k : TermFault) (d : Option Nat) (h : graceTracks s t) :
    graceTracks s (raiseFault n k d t) := by
  obtain ⟨h, hz⟩ := h
  have hz' : t.clock.reading = now s := hz
  obtain ⟨more, hm, -, -, hf⟩ := follows_raise false n k d h
  refine ⟨?_, hz⟩
  unfold raiseFault onFaults
  rw [hz']
  exact follows_all (fun p => hm p trivial) hf

theorem graceTracks_raiseSpared {s t : State} (spared : Bool) (n : Line) (k : TermFault) (d : Option Nat) (h : graceTracks s t) :
    graceTracks s (onFaults (raiseIn t.table t.clock.reading spared n k d) t) := by
  obtain ⟨h, hz⟩ := h
  have hz' : t.clock.reading = now s := hz
  obtain ⟨more, hm, -, -, hf⟩ := follows_raise spared n k d h
  refine ⟨?_, hz⟩
  unfold onFaults
  rw [hz']
  exact follows_all (fun p => hm p trivial) hf

/-- The plans unserved in `t` have ACTIVE records in `s`: so it is while only clears have come between. -/
def graceDown (s t : State) : Prop := ∀ p, unserved t p = true → ∃ since, row s.faults.grace p = .active since

theorem graceTracks_clear {s t : State} (n : Line) (k : TermFault) (h : graceTracks s t) (hd : graceDown s t) :
    graceTracks s (clearFaultOf n k t) ∧ graceDown s (clearFaultOf n k t) := by
  obtain ⟨h, hz⟩ := h
  have hz' : t.clock.reading = now s := hz
  obtain ⟨⟨more, hm, -, -, hf⟩, hmono⟩ := follows_clear n k h (fun p _ => hd p)
  constructor
  · refine ⟨?_, hz⟩
    unfold clearFaultOf onFaults
    rw [hz']
    exact follows_all (fun p => hm p trivial) hf
  · intro p hu
    apply hd p
    apply hmono p
    have hu' : unservedIn t.table (clearIn t.table t.clock.reading n k (t.faults, t.notices)).1 p = true := hu
    rw [hz'] at hu'
    exact hu'

/-! ## What raises and clears latch -/

/-- A raise adds FAULT_OPENED unless the record was OPEN or the notice is spared, and no FAULT_CLEARED (R162). -/
theorem raiseIn_opened (table : Vector Entry 16) (z : ZoneMinute) (spared : Bool) (n : Line) (k : TermFault) (d : Option Nat) (w : Watch) :
    adds .faultOpened ((terminalRecord w.1 n k).state != .opened && !spared) w.2 (raiseIn table z spared n k d w).2 := by
  unfold raiseIn
  dsimp only
  have h := adds_cond .faultOpened .faultOpened ((terminalRecord w.1 n k).state != .opened && !spared) w.2
  rw [decide_eq_true rfl, Bool.true_and] at h
  simpa only [Bool.or_false] using adds_trans h ((followService_adds table z n (serviceIn table w.1 n)
    (putTerminal w.1 n k ((terminalRecord w.1 n k).raised z d),
      if (terminalRecord w.1 n k).state != .opened && !spared then latchIn .faultOpened w.2 else w.2)).1 .faultOpened (by decide))

/-- A clear adds FAULT_CLEARED where the record stood (R163). -/
theorem clearIn_cleared (table : Vector Entry 16) (z : ZoneMinute) (n : Line) (k : TermFault) (w : Watch) :
    adds .faultCleared (terminalRecord w.1 n k).standing w.2 (clearIn table z n k w).2 := by
  unfold clearIn
  dsimp only
  split
  · rename_i hs
    have h := adds_latchIn .faultCleared .faultCleared w.2
    rw [decide_eq_true rfl] at h
    rw [hs]
    simpa only [Bool.or_false] using adds_trans h ((followService_adds table z n (serviceIn table w.1 n)
      (putTerminal w.1 n k ((terminalRecord w.1 n k).cleared z), latchIn .faultCleared w.2)).1 .faultCleared (by decide))
  · rename_i hs
    rw [Bool.eq_false_iff.mpr hs]
    exact adds_refl _ _

theorem standing_eq (r : FaultRecord) : r.standing = true ↔ r.state ≠ .clear := by simp [FaultRecord.standing]

/-- A clear turns a record CLEAR and leaves every other (R163). -/
theorem clearFaultOf_record (n m : Line) (k j : TermFault) (s : State) : terminalRecord (clearFaultOf n k s).faults m j =
    if m = n ∧ j = k then clearedNow s (terminalRecord s.faults n k) else terminalRecord s.faults m j := by
  have := clearIn_record s.table s.clock.reading n m k j (s.faults, s.notices)
  exact this

/-- A raise, and every other record (R162). -/
theorem raiseFault_record (n m : Line) (k j : TermFault) (d : Option Nat) (s : State) : terminalRecord (raiseFault n k d s).faults m j =
    if m = n ∧ j = k then (terminalRecord s.faults n k).raised (now s) d else terminalRecord s.faults m j :=
  raiseIn_record s.table s.clock.reading false n m k j d (s.faults, s.notices)

/-- A valid frame heard, in the terms of R174: only a clear comes of it. -/
theorem heard_tracks {s : State} (h : graceKept s) (n : Line) : graceTracks s (heard n s) ∧ graceDown s (heard n s) := by
  have h1 : graceTracks s (onEntry n (fun e => { e with lastHeard := s.clock.reading }) s) := by
    refine graceTracks_same (graceTracks_refl h) rfl (adds_refl _ _) rfl (fun m => ?_)
    show (row (change s.table n _) m).active = _ ∧ (row (change s.table n _) m).plan = _
    rw [row_change]
    split
    · rename_i e; rw [e]; exact ⟨rfl, rfl⟩
    · exact ⟨rfl, rfl⟩
  refine graceTracks_clear n .lineSilent h1 (fun p hu => (h p).mpr ?_)
  have ht : unserved (onEntry n (fun e => { e with lastHeard := s.clock.reading }) s) p = unserved s p := by
    apply unservedIn_table
    intro m
    show (row (change s.table n _) m).active = _ ∧ (row (change s.table n _) m).plan = _
    rw [row_change]
    split
    · rename_i e; rw [e]; exact ⟨rfl, rfl⟩
    · exact ⟨rfl, rfl⟩
  rw [ht] at hu
  exact hu

/-- What a valid frame adds to the notices: FAULT_CLEARED where LINE_SILENT stood, and no FAULT_OPENED. -/
theorem heard_adds (n : Line) (s : State) :
    adds .faultCleared (terminalRecord s.faults n .lineSilent).standing s.notices (heard n s).notices ∧
      adds .faultOpened false s.notices (heard n s).notices := by
  let u := onEntry n (fun e => { e with lastHeard := s.clock.reading }) s
  exact ⟨clearIn_cleared u.table u.clock.reading n .lineSilent (s.faults, s.notices),
    clearIn_adds u.table u.clock.reading n .lineSilent (s.faults, s.notices) .faultOpened (by decide) (by decide)⟩

/-- What changes neither the fault unit, nor the notices, nor the table, nor the time. -/
theorem graceTracks_frame {s t u : State} {parts : List Part} (h : graceTracks s t) (hf : onlyChanges parts t u)
    (h1 : Part.faults ∉ parts) (h2 : Part.notices ∉ parts) (h3 : Part.clock ∉ parts) (h4 : Part.table ∉ parts) : graceTracks s u := by
  have hn : u.notices = t.notices := hf .notices h2
  have hc : u.clock = t.clock := hf .clock h3
  have ht : u.table = t.table := hf .table h4
  exact graceTracks_same h (hf .faults h1) (by rw [hn]; exact adds_refl _ _) (by unfold now; rw [hc]) (fun n => by rw [ht]; exact ⟨rfl, rfl⟩)

/-- What a valid frame changes, at the terminal table, the fault unit and the notices (R76, R163, R166, R174). -/
theorem heard_heard (s : State) (n : Line) : frameHeard s (heard n s) n := by
  obtain ⟨h1, h2, h3, h4, h5⟩ := heard_records s n
  refine ⟨h1, h2, h3, h4, h5, latchedWhere_of_adds (heard_adds n s).1 (standing_eq _), ?_, fun h => graceTracks_follows (heard_tracks h n).1⟩
  obtain ⟨-, -, -, h6, h7⟩ := (heard_adds n s).2
  exact ⟨by simpa using h6, by simpa using h7⟩

/-- What a frame heard has changed is read from the table, the fault unit, the notices and the time. -/
theorem frameHeard_congr {s t u : State} {n : Line} (h : frameHeard s t n) (ht : u.table = t.table) (hf : u.faults = t.faults)
    (hn : u.notices = t.notices) : frameHeard s u n := by
  unfold frameHeard latchedWhere latched notLatched graceFollows latchedWhere latched notLatched unserved at *
  rw [ht, hf, hn]; exact h

/-! ## The cash unit's raises and clears -/

theorem graceTracks_cash {s t : State} (h : graceTracks s t) (f : CashUnit → CashUnit) : graceTracks s (onCash f t) :=
  graceTracks_same h rfl (adds_refl _ _) rfl fun _ => ⟨rfl, rfl⟩

theorem graceTracks_tally {s t : State} (h : graceTracks s t) (n : Line) (f : Tally → Tally) : graceTracks s (onTally n f t) :=
  graceTracks_cash h _

theorem graceTracks_markAbsent {s t : State} (h : graceTracks s t) (n : Line) : graceTracks s (markAbsent n t) := by
  unfold markAbsent
  split
  · exact h
  · exact graceTracks_raise _ _ _ (graceTracks_tally h _ _)

theorem graceTracks_markNear {s t : State} (h : graceTracks s t) (n : Line) : graceTracks s (markNear n t) := by
  unfold markNear
  dsimp only
  split
  · exact graceTracks_raise _ _ _ (graceTracks_tally h _ _)
  · exact h

theorem graceTracks_markFull {s t : State} (h : graceTracks s t) (n : Line) : graceTracks s (markFull n t) := by
  unfold markFull
  dsimp only
  split
  · exact graceTracks_raise _ _ _ (graceTracks_tally h _ _)
  · exact h

theorem graceTracks_addCoins {s t : State} (h : graceTracks s t) (n : Line) (counts : Vector Nat 8) :
    graceTracks s (addCoins n counts t) :=
  graceTracks_markFull (graceTracks_markNear (graceTracks_tally h _ _) _) _

theorem graceDown_tally {s t : State} (h : graceDown s t) (n : Line) (f : Tally → Tally) : graceDown s (onTally n f t) := h

theorem graceTracks_unmarkAbsent {s t : State} (h : graceTracks s t) (hd : graceDown s t) (n : Line) :
    graceTracks s (unmarkAbsent n t) ∧ graceDown s (unmarkAbsent n t) := by
  unfold unmarkAbsent
  split
  · exact graceTracks_clear _ _ (graceTracks_tally h _ _) (graceDown_tally hd _ _)
  · exact ⟨h, hd⟩

theorem graceTracks_unmarkNear {s t : State} (h : graceTracks s t) (hd : graceDown s t) (n : Line) :
    graceTracks s (unmarkNear n t) ∧ graceDown s (unmarkNear n t) := by
  unfold unmarkNear
  split
  · exact graceTracks_clear _ _ (graceTracks_tally h _ _) (graceDown_tally hd _ _)
  · exact ⟨h, hd⟩

theorem graceTracks_unmarkFull {s t : State} (h : graceTracks s t) (hd : graceDown s t) (n : Line) :
    graceTracks s (unmarkFull n t) ∧ graceDown s (unmarkFull n t) := by
  unfold unmarkFull
  split
  · exact graceTracks_clear _ _ (graceTracks_tally h _ _) (graceDown_tally hd _ _)
  · exact ⟨h, hd⟩

/-- What a zone kind does is no matter of grace. -/
theorem graceTracks_zone {s t : State} (h : graceTracks s t) (f : Watch → Watch)
    (ht : ∀ w, (f w).1.terminals = w.1.terminals) (hg : ∀ w, (f w).1.grace = w.1.grace) (ha : ∀ w, adds .graceStarted false w.2 (f w).2) :
    graceTracks s (onFaults f t) := by
  obtain ⟨⟨h1, h2, b, h3, h4⟩, hz⟩ := h
  refine ⟨⟨fun p hp => ?_, fun p hp => (hp trivial).elim, b, by simpa using adds_trans h3 (ha (t.faults, t.notices)), ?_⟩, hz⟩
  · show row (f (t.faults, t.notices)).1.grace p = _
    rw [hg]
    have hu : unservedIn t.table (f (t.faults, t.notices)).1 p = unservedIn t.table t.faults p := unservedIn_congr _ _ _ (ht _) p
    refine (h1 p hp).trans ?_
    show _ = (row s.faults.grace p).reevaluated (now s) (unservedIn t.table (f (t.faults, t.notices)).1 p)
    rw [hu]
  · show b = true ↔ ∃ p, _ ∧ row (f (t.faults, t.notices)).1.grace p ≠ .none
    rw [hg]; exact h4

theorem graceTracks_raiseZone {s t : State} (h : graceTracks s t) (k : ZoneFault) (d : Option Nat) : graceTracks s (raiseZone k d t) := by
  unfold raiseZone
  refine graceTracks_zone h _ (fun _ => rfl) (fun _ => rfl) (fun w => ?_)
  have := adds_cond .graceStarted .faultOpened ((row w.1.zone k.index).state != .opened) w.2
  exact this

theorem graceTracks_clearZone {s t : State} (h : graceTracks s t) (k : ZoneFault) : graceTracks s (clearZone k t) := by
  unfold clearZone
  refine graceTracks_zone h _ (fun w => ?_) (fun w => ?_) (fun w => ?_)
  · unfold clearZoneIn; dsimp only; split <;> rfl
  · unfold clearZoneIn; dsimp only; split <;> rfl
  · unfold clearZoneIn; dsimp only; split
    · simpa using adds_latchIn .graceStarted .faultCleared w.2
    · exact adds_refl _ _

theorem graceTracks_makeLiftRoom {s t : State} (h : graceTracks s t) : graceTracks s (makeLiftRoom t) := by
  unfold makeLiftRoom
  split
  · exact h
  · split
    · exact graceTracks_cash h _
    · split
      · exact h
      · exact graceTracks_raiseZone (graceTracks_cash h _) _ _

theorem graceTracks_answer {s t : State} (h : graceTracks s t) (n : Line) (st : Status) (b : Body) : graceTracks s (answerPending n st b t) :=
  graceTracks_same h rfl (adds_refl _ _) rfl fun _ => ⟨rfl, rfl⟩

theorem graceTracks_takeBox {s t : State} (h : graceTracks s t) (n : Line) (label : Nat) : graceTracks s (takeBox n label t) := by
  unfold takeBox
  dsimp only
  apply graceTracks_answer
  have h1 := graceTracks_markAbsent (graceTracks_tally (graceTracks_cash (graceTracks_makeLiftRoom h)
    (fun c => joinLifted n (appendLift (liftOf t n label) c))) n Tally.emptied) n
  have h2 : ∀ (c : Bool) (v : State), graceTracks s v → graceTracks s (if c = true then raiseFault n .boxIdentity (some label) v else v) := by
    intro c v hv; cases c
    · exact hv
    · exact graceTracks_raise _ _ _ hv
  have h3 := h2 (liftOf t n label).label.isSome _ h1
  split
  · exact graceTracks_raise _ _ _ h3
  · exact h3

theorem graceTracks_putBox {s t : State} (h : graceTracks s t) (hd : graceDown s t) (n : Line) (label : Nat) :
    graceTracks s (putBox n label t) := by
  unfold putBox
  split
  · exact graceTracks_answer (graceTracks_raise _ _ _ h) _ _ _
  · apply graceTracks_answer
    obtain ⟨a1, d1⟩ := graceTracks_unmarkAbsent (graceTracks_tally h n (fun t => t.filled label)) hd n
    obtain ⟨a2, d2⟩ := graceTracks_unmarkNear a1 d1 n
    exact (graceTracks_unmarkFull a2 d2 n).1

/-! ## The marks of a box tally -/

/-- What a mark of a box tally does to the fault unit: its fault is raised as it turns ON, and cleared as it turns OFF (R144). -/
def markOp (table : Vector Entry 16) (z : ZoneMinute) (n : Line) (k : TermFault) (turnsOn turnsOff : Bool) (d : Option Nat) (w : Watch) : Watch :=
  if turnsOn then raiseIn table z false n k d w else if turnsOff then clearIn table z n k w else w

/-- The fault unit's side of a state. -/
def watchOf (s : State) : Watch := (s.faults, s.notices)

theorem markOp_record (table : Vector Entry 16) (z : ZoneMinute) (n m : Line) (k j : TermFault) (a b : Bool) (d : Option Nat) (w : Watch) :
    terminalRecord (markOp table z n k a b d w).1 m j =
      if m = n ∧ j = k then
        (if a then (terminalRecord w.1 n k).raised z d
          else if b = true ∧ (terminalRecord w.1 n k).state ≠ .clear then (terminalRecord w.1 n k).cleared z else terminalRecord w.1 n k)
      else terminalRecord w.1 m j := by
  unfold markOp
  cases a
  · cases b
    · simp only [Bool.false_eq_true, if_false, false_and]
      split
      · rename_i h; rw [h.1, h.2]
      · rfl
    · simp only [Bool.false_eq_true, if_false, if_true, true_and]
      rw [clearIn_record]
      split
      · by_cases h : (terminalRecord w.1 n k).state = .clear <;> simp [h]
      · rfl
  · exact raiseIn_record ..

theorem markOp_zone (table : Vector Entry 16) (z : ZoneMinute) (n : Line) (k : TermFault) (a b : Bool) (d : Option Nat) (w : Watch) :
    (markOp table z n k a b d w).1.zone = w.1.zone := by
  unfold markOp; split
  · exact raiseIn_zone ..
  · split
    · exact clearIn_zone ..
    · rfl

theorem markOp_opened (table : Vector Entry 16) (z : ZoneMinute) (n : Line) (k : TermFault) (a b : Bool) (d : Option Nat) (w : Watch) :
    adds .faultOpened (a && (terminalRecord w.1 n k).state != .opened) w.2 (markOp table z n k a b d w).2 := by
  unfold markOp; cases a
  · cases b
    · exact adds_refl _ _
    · exact clearIn_adds _ _ _ _ _ .faultOpened (by decide) (by decide)
  · simpa using raiseIn_opened table z false n k d w

theorem markOp_cleared (table : Vector Entry 16) (z : ZoneMinute) (n : Line) (k : TermFault) (a b : Bool) (d : Option Nat) (w : Watch) :
    adds .faultCleared (!a && b && (terminalRecord w.1 n k).standing) w.2 (markOp table z n k a b d w).2 := by
  unfold markOp; cases a
  · cases b
    · exact adds_refl _ _
    · simpa using clearIn_cleared table z n k w
  · exact raiseIn_adds _ _ _ _ _ _ _ .faultCleared (by decide) (by decide)

theorem markOp_other (table : Vector Entry 16) (z : ZoneMinute) (n : Line) (k : TermFault) (a b : Bool) (d : Option Nat) (w : Watch)
    (m : Notice) (h1 : m ≠ .faultOpened) (h2 : m ≠ .faultCleared) (h3 : m ≠ .graceStarted) :
    adds m false w.2 (markOp table z n k a b d w).2 := by
  unfold markOp; split
  · exact raiseIn_adds _ _ _ _ _ _ _ m h1 h3
  · split
    · exact clearIn_adds _ _ _ _ _ m h2 h3
    · exact adds_refl _ _

theorem onTally_watch (n : Line) (f : Tally → Tally) (s : State) : watchOf (onTally n f s) = watchOf s := rfl

theorem markAbsent_watch (n : Line) (s : State) : watchOf (markAbsent n s) =
    markOp s.table (now s) n .boxAbsent (!(tallyOf s n).absentMark) false none (watchOf s) := by
  unfold markAbsent markOp
  cases (tallyOf s n).absentMark <;> rfl

theorem markNear_watch (n : Line) (s : State) : watchOf (markNear n s) =
    markOp s.table (now s) n .boxNearFull ((tallyOf s n).nearReached && !(tallyOf s n).nearMark) false (some (tallyOf s n).coins) (watchOf s) := by
  unfold markNear markOp
  dsimp only
  cases ((tallyOf s n).nearReached && !(tallyOf s n).nearMark) <;> rfl

theorem markFull_watch (n : Line) (s : State) : watchOf (markFull n s) =
    markOp s.table (now s) n .boxFull ((tallyOf s n).fullReached && !(tallyOf s n).fullMark) false (some (tallyOf s n).coins) (watchOf s) := by
  unfold markFull markOp
  dsimp only
  cases ((tallyOf s n).fullReached && !(tallyOf s n).fullMark) <;> rfl

theorem unmarkAbsent_watch (n : Line) (s : State) : watchOf (unmarkAbsent n s) =
    markOp s.table (now s) n .boxAbsent false (tallyOf s n).absentMark none (watchOf s) := by
  unfold unmarkAbsent markOp
  cases (tallyOf s n).absentMark <;> rfl

theorem unmarkNear_watch (n : Line) (s : State) : watchOf (unmarkNear n s) =
    markOp s.table (now s) n .boxNearFull false (tallyOf s n).nearMark none (watchOf s) := by
  unfold unmarkNear markOp
  cases (tallyOf s n).nearMark <;> rfl

theorem unmarkFull_watch (n : Line) (s : State) : watchOf (unmarkFull n s) =
    markOp s.table (now s) n .boxFull false (tallyOf s n).fullMark none (watchOf s) := by
  unfold unmarkFull markOp
  cases (tallyOf s n).fullMark <;> rfl

/-- The fault unit's side of a capacity set (R146): BOX_ABSENT, or the two levels judged anew. -/
theorem setCapacity_watch (n : Line) (c : Nat) (s : State) :
    let t := tallyOf s n
    let near := decide (c * 9 / 10 ≤ total t.counts)
    let full := decide (c ≤ total t.counts)
    watchOf (setCapacity n c s) =
      if t.present then
        markOp s.table (now s) n .boxFull (full && !t.fullMark) (!full && t.fullMark) (some (total t.counts))
          (markOp s.table (now s) n .boxNearFull (near && !t.nearMark) (!near && t.nearMark) (some (total t.counts)) (watchOf s))
      else markOp s.table (now s) n .boxAbsent (!t.absentMark) false none (watchOf s) := by
  intro t near full
  unfold setCapacity
  obtain ⟨u, hu⟩ : ∃ x, x = onTally n (fun t => { t with capacity := c }) s := ⟨_, rfl⟩
  have huw : watchOf u = watchOf s := by rw [hu]; rfl
  have hut : u.table = s.table := by rw [hu]; rfl
  have huz : now u = now s := by rw [hu]; rfl
  have ht : tallyOf u n = { t with capacity := c } := by rw [hu]; exact onTally_tally _ _ _
  have hnr : (tallyOf u n).nearReached = near := by rw [ht]; rfl
  have hfr : (tallyOf u n).fullReached = full := by rw [ht]; rfl
  have hco : (tallyOf u n).coins = total t.counts := by rw [ht]; rfl
  have hpr : (tallyOf u n).present = t.present := by rw [ht]
  have ham : (tallyOf u n).absentMark = t.absentMark := by rw [ht]
  have hnm : (tallyOf u n).nearMark = t.nearMark := by rw [ht]
  have hfm : (tallyOf u n).fullMark = t.fullMark := by rw [ht]
  dsimp only
  rw [← hu, hpr, hnr]
  cases hp : t.present
  · rw [if_pos (by rfl), if_neg (by simp), markAbsent_watch, hut, huz, huw, ham]
  · rw [if_neg (by simp), if_pos rfl]
    obtain ⟨v, hv⟩ : ∃ x, x = (if near = true then markNear n u else unmarkNear n u) := ⟨_, rfl⟩
    have hvw : watchOf v = markOp s.table (now s) n .boxNearFull (near && !t.nearMark) (!near && t.nearMark) (some (total t.counts)) (watchOf s) := by
      rw [hv]
      cases hn : near
      · rw [if_neg (by simp), unmarkNear_watch, hut, huz, huw, hnm]
        unfold markOp; cases t.nearMark <;> rfl
      · rw [if_pos rfl, markNear_watch, hut, huz, huw, hnm, hnr, hco, hn]
        unfold markOp; cases t.nearMark <;> rfl
    have hvc : v.cash = { u.cash with tallies := put u.cash.tallies n { tallyOf u n with nearMark := if near then (tallyOf u n).nearMark || (tallyOf u n).nearReached else false } } := by
      rw [hv]
      cases hn : near
      · rw [if_neg (by simp), unmarkNear_cash]; rfl
      · rw [if_pos rfl, markNear_cash]; rfl
    have hvt : tallyOf v n = { tallyOf u n with nearMark := if near then (tallyOf u n).nearMark || (tallyOf u n).nearReached else false } := tally_of_cash hvc
    have hvtab : v.table = s.table := by rw [← hut, hv]; split <;> simp
    have hvz : now v = now s := by
      rw [← huz]; unfold now; rw [hv]; split <;> simp
    have hvf : (tallyOf v n).fullReached = full := by rw [hvt]; exact hfr
    have hvfm : (tallyOf v n).fullMark = t.fullMark := by rw [hvt]; exact hfm
    have hvco : (tallyOf v n).coins = total t.counts := by rw [hvt]; exact hco
    rw [← hv, hvf]
    cases hfl : full
    · rw [if_neg (by simp), unmarkFull_watch, hvtab, hvz, hvw, hvfm]
      unfold markOp; cases t.fullMark <;> rfl
    · rw [if_pos rfl, markFull_watch, hvtab, hvz, hvw, hvfm, hvf, hvco, hfl]
      unfold markOp; cases t.fullMark <;> rfl

end Sys2Proof.Machine
end

