-- ==== Sys2Proof/Laws/Notices.lean ====
section
/-!
SUPPORT. Laws/Notices.lean: what the larger operations latch, each once: configuration, the sale unit's pressure mark, coins, boxes and
the lift list, with what becomes of grace; and the refusal of a waiting COVER while the clock is UNSET.
-/
namespace Sys2Proof.Machine

/-! ## Configuration (R83, R84, R174) -/

/-- A re-evaluation adds no source but GRACE_STARTED. -/
theorem regraceIn_adds (table : Vector Entry 16) (z : ZoneMinute) (p : Fin 8) (w : Watch) (m : Notice) (h : m ≠ .graceStarted) :
    adds m false w.2 (regraceIn table z p w).2 := by
  have := adds_cond m .graceStarted (row w.1.grace p == .none && unservedIn table w.1 p) w.2
  rw [decide_eq_false h] at this
  exact this

/-- A mark of a box tally, in the terms of R174: the plan joins those done where the service state has changed. -/
theorem follows_markOp {table : Vector Entry 16} {z : ZoneMinute} {w0 w : Watch} (n : Line) (k : TermFault) (a b : Bool) (d : Option Nat)
    (h : follows table z (fun _ => False) w0 w) :
    ∃ more, (∀ p, more p → p = (row table n).plan) ∧ (countsForService k = false → ∀ p, ¬ more p) ∧
      follows table z more w0 (markOp table z n k a b d w) := by
  unfold markOp
  cases a
  · cases b
    · exact ⟨_, fun _ h => h.elim, fun _ _ h => h, h⟩
    · obtain ⟨⟨more, -, h2, h3, h4⟩, -⟩ := follows_clear n k h (fun _ h => h.elim)
      exact ⟨more, fun p hp => (h2 p hp).resolve_left id, fun hk p hp => h3 hk p hp, h4⟩
  · obtain ⟨more, -, h2, h3, h4⟩ := follows_raise false n k d h
    exact ⟨more, fun p hp => (h2 p hp).resolve_left id, fun hk p hp => h3 hk p hp, h4⟩

/-- A capacity set, in the terms of R174: the plan of the terminal is done or stands as it stood. -/
theorem follows_setCapacity (n : Line) (c : Nat) (s : State) :
    ∃ more, (∀ p, more p → p = (row s.table n).plan) ∧ follows s.table (now s) more (watchOf s) (watchOf (setCapacity n c s)) := by
  have h0 := follows_none s.table (now s) (watchOf s)
  have hw := setCapacity_watch n c s
  dsimp only at hw
  rw [hw]
  split
  · obtain ⟨m1, -, h2, h3⟩ := follows_markOp n .boxNearFull
      (decide (c * 9 / 10 ≤ total (tallyOf s n).counts) && !(tallyOf s n).nearMark)
      (!decide (c * 9 / 10 ≤ total (tallyOf s n).counts) && (tallyOf s n).nearMark) (some (total (tallyOf s n).counts)) h0
    have h3' := follows_iff (b := fun _ => False) (fun p => ⟨fun hp => h2 rfl p hp, fun hp => hp.elim⟩) h3
    obtain ⟨m2, h4, -, h5⟩ := follows_markOp n .boxFull (decide (c ≤ total (tallyOf s n).counts) && !(tallyOf s n).fullMark)
      (!decide (c ≤ total (tallyOf s n).counts) && (tallyOf s n).fullMark) (some (total (tallyOf s n).counts)) h3'
    exact ⟨m2, h4, h5⟩
  · obtain ⟨m2, h4, -, h5⟩ := follows_markOp n .boxAbsent (!(tallyOf s n).absentMark) false none h0
    exact ⟨m2, h4, h5⟩

/-- Whether a plan is unserved turns on its ACTIVE terminals and their service states. -/
theorem unservedIn_move (t t' : Vector Entry 16) (f g : FaultTable) (p : Fin 8)
    (h : ∀ m, servesPlan t p m = servesPlan t' p m)
    (hs : ∀ m, servesPlan t p m = true → serviceIn t f m = serviceIn t' g m) : unservedIn t f p = unservedIn t' g p := by
  unfold unservedIn
  have h1 : servesPlan t p = servesPlan t' p := funext h
  have h2 : (fun n => !servesPlan t p n || (serviceIn t f n).outOfPayment) = fun n => !servesPlan t' p n || (serviceIn t' g n).outOfPayment := by
    funext m
    rw [← h1]
    cases hm : servesPlan t p m
    · rfl
    · rw [hs m hm]
  rw [h2, h1]

theorem regrace_watch (p : Fin 8) (s : State) : watchOf (regrace p s) = regraceIn s.table (now s) p (watchOf s) := rfl

/-- The plans a change of configuration re-evaluates, in the terms of R174. -/
theorem follows_regracePlans {s : State} {done : Fin 8 → Prop} {w0 : Watch} (before : Entry) (p : Fin 8)
    (h : follows s.table (now s) done w0 (watchOf s)) :
    follows s.table (now s) (fun q => done q ∨ (before.active = true ∧ q = before.plan) ∨ q = p) w0 (watchOf (regracePlans before p s)) := by
  unfold regracePlans
  cases hb : before.active && before.plan != p
  · rw [if_neg (by simp), regrace_watch]
    refine follows_iff (fun q => ?_) (follows_regrace p h)
    constructor
    · rintro (h | h)
      · exact Or.inl h
      · exact Or.inr (Or.inr h)
    · rintro (h | ⟨h1, h2⟩ | h)
      · exact Or.inl h
      · right; rw [h1] at hb; simp at hb; rw [h2, hb]
      · exact Or.inr h
  · rw [if_pos rfl, regrace_watch]
    have ha : before.active = true := by cases h : before.active <;> simp [h] at hb ⊢
    refine follows_iff (fun q => ?_) (follows_regrace p (follows_regrace before.plan h))
    constructor
    · rintro ((h | h) | h)
      · exact Or.inl h
      · exact Or.inr (Or.inl ⟨ha, h⟩)
      · exact Or.inr (Or.inr h)
    · rintro (h | ⟨h1, h2⟩ | h)
      · exact Or.inl (Or.inl h)
      · exact Or.inl (Or.inr h2)
      · exact Or.inr h

/-- A plan not concerned by an event follows too, in a state whose grace records are true. -/
theorem graceTracks_of_follows {s t : State} {done : Fin 8 → Prop} (hg : graceKept s) (hz : now t = now s)
    (h : follows t.table (now s) done (watchOf s) (watchOf t)) (hu : ∀ p, ¬ done p → unserved t p = unserved s p) : graceTracks s t := by
  obtain ⟨h1, h2, h3⟩ := h
  refine ⟨⟨fun p _ => ?_, fun _ hp => (hp trivial).elim, h3⟩, hz⟩
  by_cases hd : done p
  · exact h1 p hd
  · have h4 := (graceTracks_refl hg).1.1 p trivial
    have h5 : row t.faults.grace p = row s.faults.grace p := h2 p hd
    show row t.faults.grace p = (row s.faults.grace p).reevaluated (now s) (unserved t p)
    rw [h5, hu p hd]
    exact h4

/-- Grace follows a CONFIGURE-TERMINAL (R83, R174). -/
theorem configure_tracks (n : Line) (f : TerminalFields) (p : Fin 8) (c : CondSet) (s : State) (hg : graceKept s) :
    graceTracks s (configure n f p c s) := by
  obtain ⟨u, hu⟩ : ∃ u, u = onEntry n (fun e => e.configured f p c (now s) (s.books.stagedState == .armed)) s := ⟨_, rfl⟩
  obtain ⟨v, hv⟩ : ∃ v, v = setCapacity n f.capacity u := ⟨_, rfl⟩
  obtain ⟨x, hx⟩ : ∃ x, x = regracePlans (row s.table n) p v := ⟨_, rfl⟩
  have hc : configure n f p c s = disturb n false x := by rw [hx, hv, hu]; rfl
  have huw : watchOf u = watchOf s := by rw [hu]; rfl
  have huz : now u = now s := by rw [hu]; rfl
  have hvt : v.table = u.table := by rw [hv]; simp
  have hvz : now v = now s := by rw [← huz]; unfold now; rw [hv]; simp
  have hxt : x.table = u.table := by
    rw [← hvt, hx]; exact regracePlans_frame v _ _ .table (by decide)
  have hxz : now x = now s := by
    rw [← hvz]; unfold now; rw [hx]; rw [(regracePlans_frame v (row s.table n) p .clock (by decide) : _ = v.clock)]
  have hpl : (row u.table n).plan = p := by
    rw [hu]; show (row (change s.table n _) n).plan = p; rw [row_change_self]; unfold Entry.configured setBookChange; dsimp only; split <;> rfl
  have hact : (row u.table n).active = true := by
    rw [hu]; show (row (change s.table n _) n).active = true; rw [row_change_self]; unfold Entry.configured setBookChange; dsimp only; split <;> rfl
  have hoth : ∀ m, m ≠ n → row u.table m = row s.table m := by
    intro m hm; rw [hu]; show row (change s.table n _) m = _; rw [row_change, if_neg hm]
  rw [hc]
  refine graceTracks_frame (t := x) ?_ (disturb_frame x n false) (by decide) (by decide) (by decide) (by decide)
  obtain ⟨more, hm1, hm2⟩ := follows_setCapacity n f.capacity u
  rw [← hv, huw, huz, ← hvt] at hm2
  rw [hpl] at hm1
  have h3 := follows_regracePlans (s := v) (w0 := watchOf s) (row s.table n) p (by rw [hvz]; exact hm2)
  rw [← hx, hvz] at h3
  refine graceTracks_of_follows hg hxz (by rw [hxt, ← hvt]; exact h3) (fun q hq => ?_)
  have hqp : q ≠ p := fun e => hq (Or.inr (Or.inr e))
  have hqo : ¬ ((row s.table n).active = true ∧ q = (row s.table n).plan) := fun e => hq (Or.inr (Or.inl e))
  apply unservedIn_move
  · intro m
    rw [hxt]
    by_cases hmn : m = n
    · subst hmn
      unfold servesPlan
      rw [hpl, hact]
      have h1 : (p == q) = false := by simpa using Ne.symm hqp
      rw [h1]
      cases ha : (row s.table m).active
      · rfl
      · have : (row s.table m).plan ≠ q := fun e => hqo ⟨ha, e.symm⟩
        have h2 : ((row s.table m).plan == q) = false := by simpa using this
        rw [h2]
    · unfold servesPlan; rw [hoth m hmn]
  · intro m hm
    have hmn : m ≠ n := by
      rintro rfl
      unfold servesPlan at hm
      rw [hxt, hpl] at hm
      simp at hm
      exact hqp hm.2.symm
    have h4 : ∀ k, terminalRecord x.faults m k = terminalRecord s.faults m k := by
      intro k
      have e1 : x.faults.terminals = v.faults.terminals := by rw [hx]; unfold regracePlans; split <;> rfl
      rw [terminalRecord_congr e1]
      have e2 : v.faults = (watchOf v).1 := rfl
      have e3 : s.faults = (watchOf u).1 := by rw [huw]; rfl
      rw [e2, e3, hv]
      have hw := setCapacity_watch n f.capacity u
      dsimp only at hw
      rw [hw]
      split
      · rw [markOp_record, if_neg (fun h => hmn h.1), markOp_record, if_neg (fun h => hmn h.1)]
      · rw [markOp_record, if_neg (fun h => hmn h.1)]
    unfold serviceIn
    rw [hxt, hoth m hmn]
    have : row x.faults.terminals m = row s.faults.terminals m := row_ext14 x.faults s.faults m h4
    rw [this]

/-- Grace follows a RETIRE-TERMINAL (R84, R174). -/
theorem retire_tracks (n : Line) (s : State) (hg : graceKept s) : graceTracks s (retire n s) := by
  obtain ⟨u, hu⟩ : ∃ u, u = onEntry n Entry.retired s := ⟨_, rfl⟩
  have hc : retire n s = disturb n false (regrace (row s.table n).plan u) := by rw [hu]; rfl
  rw [hc]
  refine graceTracks_frame (t := regrace (row s.table n).plan u) ?_ (disturb_frame _ n false) (by decide) (by decide) (by decide) (by decide)
  have huw : watchOf u = watchOf s := by rw [hu]; rfl
  have hut : (regrace (row s.table n).plan u).table = u.table := rfl
  have h := follows_regrace (row s.table n).plan (follows_none u.table (now s) (watchOf s))
  have hz : now u = now s := by rw [hu]; rfl
  refine graceTracks_of_follows (done := fun q => False ∨ q = (row s.table n).plan) hg hz ?_ (fun q hq => ?_)
  · rw [regrace_watch, hut, hz, huw]; exact h
  · have hq : q ≠ (row s.table n).plan := fun e => hq (Or.inr e)
    have hoth : ∀ m, m ≠ n → row u.table m = row s.table m := by
      intro m hm; rw [hu]; show row (change s.table n _) m = _; rw [row_change, if_neg hm]
    have hself : servesPlan u.table q n = false := by
      unfold servesPlan; rw [hu]; show ((row (change s.table n _) n).active && _) = false; rw [row_change_self]; rfl
    apply unservedIn_move
    · intro m
      rw [hut]
      by_cases hmn : m = n
      · subst hmn
        rw [hself]
        unfold servesPlan
        have h2 : ((row s.table m).plan == q) = false := by simpa using Ne.symm hq
        rw [h2, Bool.and_false]
      · unfold servesPlan; rw [hoth m hmn]
    · intro m hm
      have hmn : m ≠ n := by rintro rfl; rw [hut, hself] at hm; cases hm
      unfold serviceIn
      rw [hut, hoth m hmn]
      have : (regrace (row s.table n).plan u).faults.terminals = s.faults.terminals := by rw [hu]; rfl
      rw [this]

/-- The fault unit after a CONFIGURE-TERMINAL: the marks of its box, and then re-evaluations, which add GRACE_STARTED alone. -/
theorem configure_watch (n : Line) (f : TerminalFields) (p : Fin 8) (c : CondSet) (s : State) :
    ∃ T : Vector Entry 16, ∃ w : Watch, w = (if (tallyOf s n).present then
        markOp T (now s) n .boxFull (decide (f.capacity ≤ total (tallyOf s n).counts) && !(tallyOf s n).fullMark)
            (!decide (f.capacity ≤ total (tallyOf s n).counts) && (tallyOf s n).fullMark) (some (total (tallyOf s n).counts))
          (markOp T (now s) n .boxNearFull (decide (f.capacity * 9 / 10 ≤ total (tallyOf s n).counts) && !(tallyOf s n).nearMark)
            (!decide (f.capacity * 9 / 10 ≤ total (tallyOf s n).counts) && (tallyOf s n).nearMark) (some (total (tallyOf s n).counts)) (watchOf s))
      else markOp T (now s) n .boxAbsent (!(tallyOf s n).absentMark) false none (watchOf s)) ∧
      (configure n f p c s).faults.terminals = w.1.terminals ∧ (configure n f p c s).faults.zone = w.1.zone ∧
      ∀ m, m ≠ Notice.graceStarted → adds m false w.2 (configure n f p c s).notices := by
  obtain ⟨u, hu⟩ : ∃ u, u = onEntry n (fun e => e.configured f p c (now s) (s.books.stagedState == .armed)) s := ⟨_, rfl⟩
  obtain ⟨v, hv⟩ : ∃ v, v = setCapacity n f.capacity u := ⟨_, rfl⟩
  obtain ⟨x, hx⟩ : ∃ x, x = regracePlans (row s.table n) p v := ⟨_, rfl⟩
  have hc : configure n f p c s = disturb n false x := by rw [hx, hv, hu]; rfl
  have huw : watchOf u = watchOf s := by rw [hu]; rfl
  have huz : now u = now s := by rw [hu]; rfl
  have hut : tallyOf u n = tallyOf s n := by rw [hu]; rfl
  have hw := setCapacity_watch n f.capacity u
  dsimp only at hw
  rw [huw, huz, hut, ← hv] at hw
  have hfx : (disturb n false x).faults = x.faults := disturb_frame x n false .faults (by decide)
  have hnx : (disturb n false x).notices = x.notices := disturb_frame x n false .notices (by decide)
  refine ⟨u.table, watchOf v, hw, ?_, ?_, ?_⟩
  · rw [hc, hfx, hx]; unfold regracePlans; split <;> rfl
  · rw [hc, hfx, hx]; unfold regracePlans; split <;> rfl
  · intro m hm
    rw [hc, hnx, hx]
    unfold regracePlans
    split
    · exact adds_trans (regraceIn_adds v.table (now v) (row s.table n).plan (watchOf v) m hm)
        (regraceIn_adds v.table (now v) p (watchOf (regrace (row s.table n).plan v)) m hm)
    · exact regraceIn_adds v.table (now v) p (watchOf v) m hm

/-! ## The sale unit (R108, R126, R145) -/

/-- What the sale unit's pressure mark does to the fault unit. -/
theorem pressure_notices (p : State) :
    let t := easePressure (feelPressure p)
    t.sales.log = p.sales.log ∧ t.cash = p.cash ∧
    adds .faultOpened (!p.sales.pressure && decide (3840 ≤ p.sales.log.length) && (row p.faults.zone 3).state != .opened) p.notices t.notices ∧
    adds .faultCleared (p.sales.pressure && decide (p.sales.log.length ≤ 3072) && (row p.faults.zone 3).standing) p.notices t.notices ∧
    (∀ s, graceTracks s p → graceTracks s t) := by
  intro t
  by_cases h1 : (!p.sales.pressure && decide (3840 ≤ p.sales.log.length)) = true
  · have hp : p.sales.pressure = false := by simp at h1; exact h1.1
    have hl : ¬ p.sales.log.length ≤ 3072 := by simp at h1; omega
    have ht : t = raiseZone .logPressure none (onSales (fun u => { u with pressure := true }) p) := by
      show easePressure (feelPressure p) = _
      unfold feelPressure
      rw [if_pos h1]
      unfold easePressure
      rw [if_neg]
      intro hh
      have : (raiseZone .logPressure none (onSales (fun u => { u with pressure := true }) p)).sales.log = p.sales.log := rfl
      rw [Bool.and_eq_true, this] at hh
      exact hl (of_decide_eq_true hh.2)
    rw [ht]
    refine ⟨rfl, rfl, ?_, ?_, ?_⟩
    · rw [h1, Bool.true_and]
      have := adds_cond .faultOpened .faultOpened ((row p.faults.zone 3).state != .opened) p.notices
      rw [decide_eq_true rfl, Bool.true_and] at this
      exact this
    · rw [hp]
      have := adds_cond .faultCleared .faultOpened ((row p.faults.zone 3).state != .opened) p.notices
      exact this
    · intro s hs
      exact graceTracks_raiseZone (t := onSales (fun u => { u with pressure := true }) p) (graceTracks_same hs rfl (adds_refl _ _) rfl fun _ => ⟨rfl, rfl⟩) _ _
  · have hf : feelPressure p = p := by unfold feelPressure; rw [if_neg h1]
    have h1' : (!p.sales.pressure && decide (3840 ≤ p.sales.log.length)) = false := by simpa using h1
    by_cases h2 : (p.sales.pressure && decide (p.sales.log.length ≤ 3072)) = true
    · have ht : t = clearZone .logPressure (onSales (fun u => { u with pressure := false }) p) := by
        show easePressure (feelPressure p) = _
        rw [hf]; unfold easePressure; rw [if_pos h2]
      rw [ht, h1', h2]
      refine ⟨rfl, rfl, ?_, ?_, ?_⟩
      · show adds _ _ _ (clearZoneIn _ .logPressure (p.faults, p.notices)).2
        unfold clearZoneIn
        dsimp only
        split
        · exact adds_latchIn .faultOpened .faultCleared p.notices
        · exact adds_refl _ _
      · show adds _ _ _ (clearZoneIn _ .logPressure (p.faults, p.notices)).2
        unfold clearZoneIn
        dsimp only
        have hz : ZoneFault.logPressure.index = 3 := rfl
        rw [hz]
        split
        · rename_i hh; rw [hh]; exact adds_latchIn .faultCleared .faultCleared p.notices
        · rename_i hh; rw [Bool.eq_false_iff.mpr hh]; exact adds_refl _ _
      · intro s hs
        exact graceTracks_clearZone (t := onSales (fun u => { u with pressure := false }) p) (graceTracks_same hs rfl (adds_refl _ _) rfl fun _ => ⟨rfl, rfl⟩) _
    · have ht : t = p := by
        show easePressure (feelPressure p) = _
        rw [hf]; unfold easePressure; rw [if_neg h2]
      have h2' : (p.sales.pressure && decide (p.sales.log.length ≤ 3072)) = false := by simpa using h2
      rw [ht, h1', h2']
      exact ⟨rfl, rfl, adds_refl _ _, adds_refl _ _, fun _ h => h⟩

/-- Coins added, in the terms of the notices and of grace (R145). -/
theorem addCoins_notices (n : Line) (counts : Vector Nat 8) (a : State) :
    let t := addCoins n counts a
    let old := tallyOf a n
    let new := tallyOf t n
    adds .faultOpened ((!old.nearMark && new.nearMark && (terminalRecord a.faults n .boxNearFull).state != .opened) ||
        (!old.fullMark && new.fullMark && (terminalRecord a.faults n .boxFull).state != .opened)) a.notices t.notices ∧
      adds .faultCleared false a.notices t.notices ∧ t.faults.zone = a.faults.zone := by
  intro t old new
  obtain ⟨u, hu⟩ : ∃ u, u = onTally n (fun t => { t with counts := Vector.ofFn fun i => row t.counts i + row counts i }) a := ⟨_, rfl⟩
  obtain ⟨v, hv⟩ : ∃ v, v = markNear n u := ⟨_, rfl⟩
  have ht : t = markFull n v := by rw [hv, hu]; rfl
  have huw : watchOf u = watchOf a := by rw [hu]; rfl
  have hut : tallyOf u n = { old with counts := (tallyOf u n).counts } := by
    rw [hu, onTally_tally]
  have hvt : tallyOf v n = { tallyOf u n with nearMark := (tallyOf u n).nearMark || (tallyOf u n).nearReached } := by
    rw [hv]; exact tally_of_cash (markNear_cash n u)
  have hnt : new = { tallyOf v n with fullMark := (tallyOf v n).fullMark || (tallyOf v n).fullReached } := by
    show tallyOf t n = _
    rw [ht]; exact tally_of_cash (markFull_cash n v)
  have hw1 := markNear_watch n u
  rw [← hv, huw] at hw1
  have hw2 := markFull_watch n v
  rw [← ht] at hw2
  have hnear : new.nearMark = (old.nearMark || (tallyOf u n).nearReached) := by rw [hnt, hvt, hut]
  have hfull : new.fullMark = (old.fullMark || (tallyOf v n).fullReached) := by rw [hnt, hvt, hut]
  have hm1 : (tallyOf u n).nearMark = old.nearMark := by rw [hut]
  have hm2 : (tallyOf v n).fullMark = old.fullMark := by rw [hvt, hut]
  have hf : (terminalRecord v.faults n .boxFull) = terminalRecord a.faults n .boxFull := by
    have : v.faults = (watchOf v).1 := rfl
    rw [this, hw1, markOp_record, if_neg (fun e => by cases e.2)]; rfl
  have o1 := markOp_opened u.table (now u) n .boxNearFull ((tallyOf u n).nearReached && !(tallyOf u n).nearMark) false (some (tallyOf u n).coins) (watchOf a)
  have o2 := markOp_opened v.table (now v) n .boxFull ((tallyOf v n).fullReached && !(tallyOf v n).fullMark) false (some (tallyOf v n).coins) (watchOf v)
  have c1 := markOp_cleared u.table (now u) n .boxNearFull ((tallyOf u n).nearReached && !(tallyOf u n).nearMark) false (some (tallyOf u n).coins) (watchOf a)
  have c2 := markOp_cleared v.table (now v) n .boxFull ((tallyOf v n).fullReached && !(tallyOf v n).fullMark) false (some (tallyOf v n).coins) (watchOf v)
  rw [← hw1] at o1 c1
  rw [← hw2] at o2 c2
  refine ⟨?_, ?_, ?_⟩
  · have h := adds_trans o1 o2
    have e1 : (terminalRecord (watchOf a).1 n .boxNearFull) = terminalRecord a.faults n .boxNearFull := rfl
    have e2 : (terminalRecord (watchOf v).1 n .boxFull) = terminalRecord a.faults n .boxFull := hf
    rw [e1, e2, hm1, hm2] at h
    have hb : ((((tallyOf u n).nearReached && !old.nearMark) && (terminalRecord a.faults n .boxNearFull).state != .opened) ||
        (((tallyOf v n).fullReached && !old.fullMark) && (terminalRecord a.faults n .boxFull).state != .opened)) =
        ((!old.nearMark && new.nearMark && (terminalRecord a.faults n .boxNearFull).state != .opened) ||
        (!old.fullMark && new.fullMark && (terminalRecord a.faults n .boxFull).state != .opened)) := by
      rw [hnear, hfull]
      cases old.nearMark <;> cases old.fullMark <;> simp
    rw [hb] at h
    exact h
  · have h := adds_trans c1 c2
    simp only [Bool.and_false, Bool.false_and, Bool.or_false] at h
    exact h
  · have : t.faults = (watchOf t).1 := rfl
    rw [this, hw2, markOp_zone, hw1, markOp_zone]; rfl

/-- A debit adds no source but PERMIT_EXHAUSTED (R126). -/
theorem debitPermit_adds (pn g : Nat) (b : State) (k : Notice) (hk : k ≠ .permitExhausted) :
    adds k false b.notices (debitPermit pn g b).notices := by
  unfold debitPermit
  dsimp only
  split
  · have := adds_latchIn k .permitExhausted b.notices
    rw [decide_eq_false hk] at this
    exact this
  · exact adds_refl _ _

/-! ## Zone faults, boxes and the lift list (R148, R151, R162, R163) -/

/-- Nothing is removed where no record satisfies the test. -/
theorem removeFirst_none (p : Lift → Bool) (l : List Lift) : removeFirst p l = none ↔ ∀ x ∈ l, p x = false := by
  induction l with
  | nil => simp [removeFirst]
  | cons a l ih =>
    unfold removeFirst
    cases h : p a
    · simp [h, ih]
    · simp [h]

/-- What making room in the lift list latches (R151). -/
theorem makeLiftRoom_notices (a : State) :
    let t := makeLiftRoom a
    adds .faultOpened (decide (96 ≤ a.cash.lifts.length ∧ (∀ x ∈ a.cash.lifts, x.state = .awaiting) ∧ (row a.faults.zone 2).state ≠ .opened))
      a.notices t.notices ∧ adds .faultCleared false a.notices t.notices := by
  intro t
  show adds _ _ _ (makeLiftRoom a).notices ∧ adds _ _ _ (makeLiftRoom a).notices
  unfold makeLiftRoom
  by_cases hl : a.cash.lifts.length < liftRoom
  · rw [if_pos hl, decide_eq_false (fun h => by have := h.1; unfold liftRoom at hl; omega)]
    exact ⟨adds_refl _ _, adds_refl _ _⟩
  · rw [if_neg hl]
    have hl' : 96 ≤ a.cash.lifts.length := Nat.not_lt.mp hl
    have hall : removeFirst (fun l => !l.awaiting) a.cash.lifts = none ↔ ∀ x ∈ a.cash.lifts, x.state = .awaiting := by
      rw [removeFirst_none]
      simp [Lift.awaiting]
    cases hr : removeFirst (fun l => !l.awaiting) a.cash.lifts with
    | some v =>
      rw [decide_eq_false (fun h => by rw [hall.mpr h.2.1] at hr; cases hr)]
      exact ⟨adds_refl _ _, adds_refl _ _⟩
    | none =>
      cases hc : a.cash.lifts with
      | nil => rw [hc] at hl'; simp at hl'
      | cons l rest =>
        have hd : decide (96 ≤ (l :: rest).length ∧ (∀ x ∈ (l :: rest), x.state = .awaiting) ∧ (row a.faults.zone 2).state ≠ .opened) = ((row a.faults.zone 2).state != .opened) := by
          rw [← hc]
          have hh := hall.mp hr
          by_cases ho : (row a.faults.zone 2).state = .opened
          · rw [decide_eq_false (fun h => h.2.2 ho)]; simp [ho]
          · rw [decide_eq_true ⟨hl', hh, ho⟩]; simp [ho]
        rw [hd]
        constructor
        · have := adds_cond .faultOpened .faultOpened ((row a.faults.zone 2).state != .opened) a.notices
          rw [decide_eq_true rfl, Bool.true_and] at this
          exact this
        · exact adds_cond .faultCleared .faultOpened ((row a.faults.zone 2).state != .opened) a.notices

/-- A raise adds FAULT_OPENED unless the record was OPEN (R162). -/
theorem raiseFault_opened (n : Line) (k : TermFault) (d : Option Nat) (a : State) :
    adds .faultOpened ((terminalRecord a.faults n k).state != .opened) a.notices (raiseFault n k d a).notices := by
  have := raiseIn_opened a.table a.clock.reading false n k d (a.faults, a.notices)
  rw [Bool.not_false, Bool.and_true] at this
  exact this

/-- A raise never adds FAULT_CLEARED. -/
theorem raiseFault_uncleared (n : Line) (k : TermFault) (d : Option Nat) (a : State) : adds .faultCleared false a.notices (raiseFault n k d a).notices :=
  raiseIn_adds a.table a.clock.reading false n k d (a.faults, a.notices) .faultCleared (by decide) (by decide)

/-- What a BOX-OUT latches: with its raises FAULT_OPENED, and FAULT_CLEARED never (R148, R162). -/
theorem takeBox_notices (n : Line) (label : Nat) (a : State) :
    let t := takeBox n label a
    let y := tallyOf a n
    let l := liftOf a n label
    adds .faultOpened (decide (96 ≤ a.cash.lifts.length ∧ (∀ x ∈ a.cash.lifts, x.state = .awaiting) ∧ (row a.faults.zone 2).state ≠ .opened) ||
      (!y.absentMark && (terminalRecord a.faults n .boxAbsent).state != .opened) ||
      (l.label.isSome && (terminalRecord a.faults n .boxIdentity).state != .opened) ||
      (decide (l.round = 0) && (terminalRecord a.faults n .unroundedLift).state != .opened)) a.notices t.notices ∧
    adds .faultCleared false a.notices t.notices := by
  intro t y l
  obtain ⟨b, hb⟩ : ∃ b, b = makeLiftRoom a := ⟨_, rfl⟩
  obtain ⟨c, hc⟩ : ∃ c, c = onTally n Tally.emptied (onCash (fun c => joinLifted n (appendLift l c)) b) := ⟨_, rfl⟩
  obtain ⟨d, hd⟩ : ∃ d, d = markAbsent n c := ⟨_, rfl⟩
  obtain ⟨e, he⟩ : ∃ e, e = (if l.label.isSome then raiseFault n .boxIdentity (some label) d else d) := ⟨_, rfl⟩
  obtain ⟨f, hf⟩ : ∃ f, f = (if l.round = 0 then raiseFault n .unroundedLift (some l.serial) e else e) := ⟨_, rfl⟩
  have ht : t.notices = f.notices := by
    show (takeBox n label a).notices = _
    rw [hf, he, hd, hc, hb]; rfl
  have hbr : ∀ m k, terminalRecord b.faults m k = terminalRecord a.faults m k := by
    intro m k; apply terminalRecord_congr
    rw [hb]; unfold makeLiftRoom; split
    · rfl
    · split
      · rfl
      · split <;> rfl
  have hbt : tallyOf b n = tallyOf a n := by
    rw [hb]; unfold makeLiftRoom tallyOf; split
    · rfl
    · split
      · rfl
      · split <;> rfl
  have hcf : c.faults = b.faults := by rw [hc]; rfl
  have hcn : c.notices = b.notices := by rw [hc]; rfl
  have hct : (tallyOf c n).absentMark = y.absentMark := by
    rw [hc, onTally_tally]
    show (tallyOf (onCash (fun c => joinLifted n (appendLift l c)) b) n).absentMark = _
    have : tallyOf (onCash (fun c => joinLifted n (appendLift l c)) b) n = tallyOf b n := by
      unfold tallyOf onCash joinLifted appendLift; dsimp only; split <;> rfl
    rw [this, hbt]
  obtain ⟨b1, b2⟩ := makeLiftRoom_notices a
  rw [← hb] at b1 b2
  have hdw := markAbsent_watch n c
  rw [← hd] at hdw
  have hcr : ∀ k, terminalRecord (watchOf c).1 n k = terminalRecord a.faults n k := fun k => by
    show terminalRecord c.faults n k = _; rw [hcf, hbr]
  have d1 := markOp_opened c.table (now c) n .boxAbsent (!(tallyOf c n).absentMark) false none (watchOf c)
  have d2 := markOp_cleared c.table (now c) n .boxAbsent (!(tallyOf c n).absentMark) false none (watchOf c)
  rw [← hdw, hct, hcr] at d1 d2
  have d1 : adds .faultOpened _ c.notices d.notices := d1
  have d2 : adds .faultCleared _ c.notices d.notices := d2
  rw [hcn] at d1 d2
  have hdr : ∀ k, k ≠ .boxAbsent → terminalRecord d.faults n k = terminalRecord a.faults n k := by
    intro k hk
    have : d.faults = (watchOf d).1 := rfl
    rw [this, hdw, markOp_record, if_neg (fun h => hk h.2), hcr]
  have e1 : adds .faultOpened (l.label.isSome && (terminalRecord a.faults n .boxIdentity).state != .opened) d.notices e.notices ∧
      adds .faultCleared false d.notices e.notices := by
    rw [he]
    cases l.label.isSome
    · exact ⟨adds_refl _ _, adds_refl _ _⟩
    · rw [if_pos rfl, Bool.true_and, ← hdr .boxIdentity (by decide)]
      exact ⟨raiseFault_opened .., raiseFault_uncleared ..⟩
  have her : terminalRecord e.faults n .unroundedLift = terminalRecord a.faults n .unroundedLift := by
    rw [he]; split
    · rw [raiseFault_record, if_neg (fun h => by cases h.2), hdr _ (by decide)]
    · rw [hdr _ (by decide)]
  have f1 : adds .faultOpened (decide (l.round = 0) && (terminalRecord a.faults n .unroundedLift).state != .opened) e.notices f.notices ∧
      adds .faultCleared false e.notices f.notices := by
    rw [hf]
    by_cases hz : l.round = 0
    · rw [if_pos hz, decide_eq_true hz, Bool.true_and, ← her]
      exact ⟨raiseFault_opened .., raiseFault_uncleared ..⟩
    · rw [if_neg hz, decide_eq_false hz]
      exact ⟨adds_refl _ _, adds_refl _ _⟩
  rw [ht]
  constructor
  · exact adds_trans (adds_trans (adds_trans b1 d1) e1.1) f1.1
  · have := adds_trans (adds_trans (adds_trans b2 d2) e1.2) f1.2
    simpa only [Bool.and_false, Bool.false_and, Bool.or_false] using this

/-- What a raise of a zone kind latches: FAULT_OPENED unless the record was OPEN, and nothing else (R162). -/
theorem raiseZone_latches (k : ZoneFault) (d : Option Nat) (s : State) :
    latchedWhere .faultOpened ((row s.faults.zone k.index).state ≠ .opened) s (raiseZone k d s) ∧
    ∀ n, n ≠ .faultOpened → notLatched n s (raiseZone k d s) := by
  have h : ∀ n, adds n (decide (n = .faultOpened) && (row s.faults.zone k.index).state != .opened) s.notices (raiseZone k d s).notices :=
    fun n => adds_cond n .faultOpened _ s.notices
  refine ⟨latchedWhere_of_adds (h _) (by simp), fun n hn => ?_⟩
  obtain ⟨-, -, -, h4, h5⟩ := h n
  exact ⟨by simpa [hn] using h4, by simpa [hn] using h5⟩

/-- What a clear of a zone kind latches: FAULT_CLEARED where the record stood (R163). -/
theorem clearZone_notices (k : ZoneFault) (s : State) :
    (clearZone k s).notices = if (row s.faults.zone k.index).state = .clear then s.notices else latchIn .faultCleared s.notices := by
  show (clearZoneIn _ k (s.faults, s.notices)).2 = _
  unfold clearZoneIn
  dsimp only
  by_cases h : (row s.faults.zone k.index).state = .clear
  · have : (row s.faults.zone k.index).standing = false := by simp [FaultRecord.standing, h]
    rw [this, if_pos h]; rfl
  · have : (row s.faults.zone k.index).standing = true := by simp [FaultRecord.standing, h]
    rw [this, if_neg h]; rfl

/-- A kind that no service state counts leaves grace. -/
theorem raiseFault_grace (n : Line) (k : TermFault) (d : Option Nat) (s : State) (hk : k = .lineNoisy ∨ k = .cashVariance) :
    (raiseFault n k d s).faults.grace = s.faults.grace ∧
    latchedWhere .faultOpened ((terminalRecord s.faults n k).state ≠ .opened) s (raiseFault n k d s) := by
  constructor
  · apply raiseIn_grace
    rcases hk with rfl | rfl <;> decide
  · exact latchedWhere_of_adds (raiseFault_opened n k d s) (by simp)

/-! ## The cover search unit (R132, R133) -/

/-- The refusal of a COVER as its search would begin, in the terms of the claims (R133). -/
theorem refused_eq (id : PortId) (r : CoverRequest) (s : State) : answerDeferred id r.tag .clockUnset .empty
        (onCover (fun c => { c.setSlot id .empty with last := id }) s) = coverRefused id r s := by
  unfold answerDeferred coverRefused withAnswer onCover Port.append Port.start
  cases id <;> (dsimp only [PortUnit.onPort]; congr 2)
  · cases s.ports.office.sending <;> cases s.ports.office.queue <;> simp
  · cases s.ports.service.sending <;> cases s.ports.service.queue <;> simp

/-- The one COVER that waits is the next. -/
theorem next_one (c : CoverUnit) (a : PortId) (r : CoverRequest) (h : c.slot a = .waiting r)
    (ho : ∀ other q, other ≠ a → c.slot other ≠ .waiting q) : nextCover c = some (a, r) := by
  cases a
  · have h : c.office = .waiting r := h
    have h2 := fun q => ho .service q (by decide)
    have h2 : ∀ q, c.service ≠ .waiting q := h2
    unfold nextCover; rw [h]
    cases hs : c.service <;> first | rfl | exact absurd hs (h2 _)
  · have h : c.service = .waiting r := h
    have h2 : ∀ q, c.office ≠ .waiting q := fun q => ho .office q (by decide)
    unfold nextCover; rw [h]
    cases hs : c.office <;> first | rfl | exact absurd hs (h2 _)

/-- Where no COVER waits there is no next. -/
theorem next_none (c : CoverUnit) (h : ∀ a q, c.slot a ≠ .waiting q) : nextCover c = none := by
  have h1 : ∀ q, c.office ≠ .waiting q := h .office
  have h2 : ∀ q, c.service ≠ .waiting q := h .service
  unfold nextCover
  cases ho : c.office <;> cases hs : c.service <;> first | rfl | exact absurd ho (h1 _) | exact absurd hs (h2 _)

/-! What a refusal leaves of the cover search unit. -/

theorem refused_slot_self (id : PortId) (r : CoverRequest) (s : State) : (coverRefused id r s).cover.slot id = .empty := by cases id <;> rfl
theorem refused_slot_other (id o : PortId) (r : CoverRequest) (s : State) (h : o ≠ id) : (coverRefused id r s).cover.slot o = s.cover.slot o := by
  cases id <;> cases o <;> first | rfl | exact absurd rfl h
theorem refused_search (id : PortId) (r : CoverRequest) (s : State) : (coverRefused id r s).cover.search = s.cover.search := by cases id <;> rfl
theorem refused_clock (id : PortId) (r : CoverRequest) (s : State) : (coverRefused id r s).clock = s.clock := by cases id <;> rfl

/-- While the clock is UNSET the next COVER is refused, and the choice goes on (R133). -/
theorem choose_unset (fuel : Nat) (s : State) (id : PortId) (r : CoverRequest) (hs : s.cover.search = none) (hc : s.clock.state = .unset)
    (hn : nextCover s.cover = some (id, r)) : chooseCover (fuel + 1) s = chooseCover fuel (coverRefused id r s) := by
  conv_lhs => unfold chooseCover
  rw [hs, hn]
  dsimp only
  rw [if_neg (by simp [clockSet, hc]), refused_eq]

/-- Where no COVER waits nothing is chosen. -/
theorem choose_idle (fuel : Nat) (s : State) (hn : nextCover s.cover = none) : chooseCover fuel s = s := by
  cases fuel with
  | zero => rfl
  | succ f => unfold chooseCover; rw [hn]; cases s.cover.search <;> rfl

/-- While the clock is UNSET the one COVER that waits is refused, and nothing else happens. -/
theorem choose_unset_one (s : State) (a : PortId) (r : CoverRequest) (hs : s.cover.search = none) (hc : s.clock.state = .unset)
    (h : s.cover.slot a = .waiting r) (ho : ∀ other q, other ≠ a → s.cover.slot other ≠ .waiting q) : chooseSearch s = coverRefused a r s := by
  unfold chooseSearch
  rw [choose_unset 1 s a r hs hc (next_one _ _ _ h ho)]
  apply choose_idle
  apply next_none
  intro b q
  by_cases hb : b = a
  · rw [hb, refused_slot_self]; intro h; cases h
  · rw [refused_slot_other _ _ _ _ hb]; exact ho b q hb

end Sys2Proof.Machine
end

