-- ==== Sys2Proof/Laws/Parts.lean ====
section
/-!
SUPPORT. Laws/Parts.lean: what each command may change, one line per command, and the proof of it.
-/
namespace Sys2Proof.Machine

/-- The parts of the state a command may change. -/
def partsOf : Instr → List Part
  | .minuteBoundary => [.clock, .books, .engine, .lines, .table, .quotes, .sales, .permits, .cash, .faults, .notices, .choices]
  | .overrideRemoval => [.clock]
  | .setClock _ _ _ => [.clock, .books, .engine, .lines, .table, .quotes, .sales, .permits, .cash, .faults, .notices, .ports, .choices]
  | .setOverride _ _ _ => [.clock, .ports]
  | .dropOverride _ _ => [.clock, .ports]
  | .loadPlan _ _ => [.books, .ports]
  | .loadDay _ _ => [.books, .ports]
  | .loadLadder _ _ => [.books, .ports]
  | .loadCalendar _ _ => [.books, .ports]
  | .copyActive _ => [.books, .ports]
  | .clearStaged _ => [.books, .ports]
  | .armBook _ _ => [.books, .ports]
  | .bookCheckComplete => [.books, .table, .notices]
  | .disarmBook _ => [.books, .table, .ports]
  | .bookActivation => [.books, .table, .notices]
  | .readBook _ _ _ => [.ports]
  | .quote _ _ => [.books, .engine, .lines, .table, .quotes, .sales, .permits, .faults, .notices, .ports]
  | .price _ _ => [.books, .engine, .lines, .table, .quotes, .sales, .permits, .faults, .notices, .ports]
  | .previewQuote _ _ => [.books, .engine, .lines, .table, .quotes, .sales, .notices, .ports]
  | .walkBegin => [.books, .engine, .lines, .table, .quotes, .sales, .notices, .ports]
  | .walkComplete => [.books, .engine, .lines, .table, .quotes, .sales, .permits, .notices, .ports]
  | .hello _ => [.lines, .table, .faults, .notices]
  | .unknownRequestKind _ => [.lines, .table, .faults, .notices]
  | .frameDiscard _ => [.lines, .table, .faults, .notices]
  | .receiveTimeout _ => [.lines, .table, .faults, .notices]
  | .collision _ => [.lines, .table, .faults, .notices]
  | .replyEnd _ => [.lines]
  | .configureTerminal _ _ => [.engine, .lines, .table, .quotes, .cash, .faults, .notices, .ports]
  | .retireTerminal _ _ => [.engine, .lines, .table, .quotes, .faults, .notices, .ports]
  | .setConditions _ _ _ => [.table, .ports]
  | .clearConditions _ _ => [.table, .ports]
  | .lineReset _ _ _ => [.engine, .lines, .table, .quotes, .notices, .ports]
  | .testLine _ _ _ => [.engine, .lines, .table, .quotes, .notices, .ports]
  | .endTest _ _ _ => [.engine, .lines, .table, .quotes, .notices, .ports]
  | .testLimit _ => [.engine, .lines, .table, .quotes]
  | .sale _ _ => [.lines, .table, .quotes, .sales, .permits, .cash, .faults, .notices]
  | .logPruning => [.sales, .faults, .notices]
  | .fetchSessions _ _ _ => [.ports]
  | .readTotals _ _ => [.ports]
  | .putPermit _ _ => [.permits, .ports]
  | .dropPermit _ _ => [.permits, .ports]
  | .setPermitState _ _ _ => [.permits, .ports]
  | .readPermit _ _ _ => [.permits, .ports]
  | .permitRemoval => [.permits]
  | .cover _ _ _ => [.cover, .notices, .ports]
  | .searchBegin => [.cover, .ports]
  | .searchComplete => [.cover, .ports]
  | .setRecentWindow _ _ => [.cover, .ports]
  | .setCoins _ _ => [.cash, .ports]
  | .boxOut _ _ => [.lines, .table, .cash, .faults, .notices]
  | .boxIn _ _ => [.lines, .table, .cash, .faults, .notices]
  | .readLifts _ _ _ => [.ports]
  | .openRound _ _ _ => [.cash, .faults, .notices, .ports]
  | .roundStatus _ _ => [.notices, .ports]
  | .closeRound _ _ => [.cash, .notices, .ports]
  | .roundLapse => [.cash, .faults, .notices]
  | .countResult _ _ _ => [.cash, .faults, .notices, .ports]
  | .setCashLimits _ _ _ => [.cash, .ports]
  | .fault _ _ _ => [.lines, .table, .faults, .notices]
  | .lineSilence _ => [.faults, .notices]
  | .graceTailEnd _ => [.faults, .notices]
  | .ackFault _ _ _ => [.faults, .ports]
  | .clearFault _ _ _ _ => [.faults, .notices, .ports]
  | .readFaults _ _ _ => [.notices, .ports]
  | .readNotices _ => [.notices, .ports]
  | .readSiteNotices _ _ => [.notices, .ports]
  | .setNotices _ _ _ _ => [.notices, .ports]
  | .setAddressed _ _ _ => [.table, .ports]
  | .resetAddressed _ _ _ => [.table, .ports]
  | .putBadge _ _ _ => [.ports]
  | .dropBadge _ _ => [.ports]
  | .readStatus _ _ => [.notices, .ports]
  | .portFrameDiscard _ => [.ports]
  | .portReplyEnd _ => [.clock, .books, .engine, .lines, .table, .quotes, .sales, .permits, .cover, .cash, .faults, .notices, .ports, .choices]
  | .restart _ _ => [.notices, .ports]
  | .commandedRestart _ => [.clock, .books, .engine, .lines, .table, .quotes, .sales, .permits, .cover, .cash, .faults, .notices, .ports, .pins, .choices]
  | .powerUp _ _ => [.clock, .books, .engine, .lines, .table, .quotes, .sales, .permits, .cover, .cash, .faults, .notices, .ports, .pins, .choices]
  | .nresetRelease _ _ => [.clock, .books, .engine, .lines, .table, .quotes, .sales, .permits, .cover, .cash, .faults, .notices, .ports, .pins, .choices]
  | .supplyLoss => [.pins]
  | .portReceiveTimeout _ => [.ports]
  | .unknownPortCommandKind _ _ => [.notices, .ports]
  | .nresetAssertion => [.pins]

/-! ## What stands around a command -/

theorem whenRunning_frame {parts : List Part} (act : State → State) (s : State) (h : ∀ s, onlyChanges parts s (act s)) :
    onlyChanges parts s (whenRunning act s) := by
  unfold whenRunning; split
  · exact h s
  · exact onlyChanges_refl _ s

theorem takeCommand_frame {parts : List Part} (source : Source) (tag : Tag) (ok : Bool) (role : Role) (act : State → State)
    (s : State) (hp : Part.ports ∈ parts) (hn : Part.notices ∈ parts) (h : ∀ s, onlyChanges parts s (act s)) :
    onlyChanges parts s (takeCommand source tag ok role act s) := by
  have hpn : ∀ p, p = .ports ∨ p = .notices → p ∈ parts := fun p hh => by rcases hh with rfl | rfl <;> assumption
  unfold takeCommand
  split
  · exact onlyChanges_refl _ s
  · split
    · exact (answerPort_frame s _ _ _ _).mono (by simpa using hp)
    · split
      · exact ((latch_frame s _).trans (answerPort_frame _ _ _ _ _)).mono (by simpa using ⟨hn, hp⟩)
      · exact h s

/-- An office command is never refused by the badge check. -/
theorem officeCommand_frame {parts : List Part} (tag : Tag) (ok : Bool) (act : State → State) (s : State)
    (hp : Part.ports ∈ parts) (h : ∀ s, onlyChanges parts s (act s)) : onlyChanges parts s (officeCommand tag ok act s) := by
  unfold officeCommand takeCommand
  split
  · exact onlyChanges_refl _ s
  · split
    · exact (answerPort_frame s _ _ _ _).mono (by simpa using hp)
    · split
      · rename_i hb; exact absurd hb (by simp [badgePasses])
      · exact h s

theorem takeFrame_frame {parts : List Part} (n : Line) (k : Option RequestKind) (ok : Bool) (act : State → State) (s : State)
    (hp : ∀ p ∈ [Part.lines, .table, .faults, .notices], p ∈ parts) (h : ∀ s, onlyChanges parts s (act s)) :
    onlyChanges parts s (takeFrame n k ok act s) := by
  have h1 : ∀ st b, onlyChanges parts s (replyAtOnce n st b (heard n s)) := fun st b =>
    (((heard_frame s n).trans (replyAtOnce_frame _ n st b)).mono (by decide)).mono hp
  have h2 : ∀ k, onlyChanges parts s (acceptRequest n k (heard n s)) := fun k =>
    (((heard_frame s n).trans (acceptRequest_frame _ n k)).mono (by decide)).mono hp
  unfold takeFrame
  split
  · exact ((collide_frame s n).mono (by decide)).mono hp
  · exact h1 _ _
  · split
    · exact h1 _ _
    · split
      · exact h1 _ _
      · split
        · exact h1 _ _
        · exact ((h2 _).trans (h _)).mono (by simp)

/-! ## Boundaries and restarts -/

variable (s : State)

theorem permitsUpdate_frame (l : List Permit) : onlyChanges [.permits] s { s with permits := l } := by
  intro p hp; cases p <;> first | exact absurd (by decide) hp | rfl

theorem noticesUpdate_frame (w : NoticeState) : onlyChanges [.notices] s { s with notices := w } := by
  intro p hp; cases p <;> first | exact absurd (by decide) hp | rfl

theorem pinsUpdate_frame (x : Pins) : onlyChanges [.pins] s { s with pins := x } := by
  intro p hp; cases p <;> first | exact absurd (by decide) hp | rfl

theorem minuteBoundary_frame : onlyChanges [.clock, .books, .engine, .lines, .table, .quotes, .sales, .permits, .cash, .choices, .faults, .notices] s (minuteBoundary s) := by
  unfold minuteBoundary
  split
  · exact onlyChanges_refl _ s
  · split
    · exact (overflow_frame s).mono (by decide)
    · dsimp only; split
      · exact (((onClock_frame s _).trans (onClock_frame _ _)).trans (handOver_frame _ _ _)).mono (by decide)
      · exact (onClock_frame s _).mono (by decide)

theorem setClock_frame (z : ZoneMinute) : onlyChanges [.clock, .books, .engine, .lines, .table, .quotes, .sales, .permits, .cash, .choices, .faults, .notices] s (setClock z s) := by
  unfold setClock
  exact (((((onClock_frame s _).trans (clearZone_frame _ _)).trans (cancelAllQuotes_frame _)).trans (markForStep_frame _)).trans
    (handOver_frame _ _ _)).mono (by decide)

theorem tick_frame : onlyChanges [.clock, .books, .engine, .lines, .table, .quotes, .sales, .permits, .cash, .choices, .faults, .notices] s (tick s) := by
  unfold tick
  split
  · exact onlyChanges_refl _ s
  · split
    · exact (onClock_frame s _).mono (by decide)
    · exact minuteBoundary_frame s

theorem restartStep_frame : onlyChanges [.clock, .books, .engine, .lines, .table, .quotes, .sales, .permits, .cash, .choices, .faults, .notices] s (restartStep s) := by
  unfold restartStep; split
  · exact ((onClock_frame s _).trans (handOver_frame _ _ _)).mono (by decide)
  · exact onlyChanges_refl _ s

theorem warmBlocks_frame (r : RestartReason) : onlyChanges [.books, .engine, .lines, .table, .quotes, .cover, .ports] s (warmBlocks r s) := by
  intro p hp; cases p <;> first | exact absurd (by decide) hp | rfl

theorem tellOverrun_frame : onlyChanges [.clock, .faults, .notices] s (tellOverrun s) := by
  unfold tellOverrun; split
  · exact ((onClock_frame s _).trans (raiseZone_frame _ _ _)).mono (by decide)
  · exact onlyChanges_refl _ s

theorem warmRestart_frame (r : RestartReason) : onlyChanges [.clock, .books, .engine, .lines, .table, .quotes, .sales, .permits, .cash, .choices, .faults, .notices, .cover, .ports] s (warmRestart r s) := by
  unfold warmRestart
  exact ((((warmBlocks_frame s r).trans (tellOverrun_frame _)).trans (latch_frame _ _)).trans (restartStep_frame _)).mono (by decide)

theorem coldStart_frame : onlyChanges [.clock, .books, .engine, .lines, .table, .quotes, .sales, .permits, .cash, .choices, .faults, .notices, .cover, .ports] s (coldStart s) := by
  intro p hp; cases p <;> first | exact absurd (by decide) hp | rfl

theorem restartBySample_frame : onlyChanges [.clock, .books, .engine, .lines, .table, .quotes, .sales, .permits, .cash, .choices, .faults, .notices, .cover, .ports] s (restartBySample s) := by
  unfold restartBySample; split
  · exact warmRestart_frame s _
  · exact coldStart_frame s

/-! ## The commands -/

theorem execMinuteBoundary_parts :
    ∃ t, exec (.minuteBoundary) s = .next t ∧ onlyChanges (partsOf (.minuteBoundary)) s t := by
  refine ⟨_, rfl, ?_⟩
  dsimp only [partsOf]
  exact (minuteBoundary_frame _).mono (by decide)

theorem execOverrideRemoval_parts :
    ∃ t, exec (.overrideRemoval) s = .next t ∧ onlyChanges (partsOf (.overrideRemoval)) s t := by
  refine ⟨_, rfl, ?_⟩
  dsimp only [partsOf]
  refine whenRunning_frame _ _ fun s => ?_
  (repeat' split) <;> first
    | exact (removeOverrides_frame _).mono (by decide)
    | exact (answerPort_frame _ _ _ _ _).mono (by decide)
    | exact onlyChanges_refl _ _

theorem execSetClock_parts (tag : Tag) (day : Nat) (minute : Nat) :
    ∃ t, exec (.setClock tag day minute) s = .next t ∧ onlyChanges (partsOf (.setClock tag day minute)) s t := by
  refine ⟨_, rfl, ?_⟩
  dsimp only [partsOf]
  refine officeCommand_frame _ _ _ _ (by decide) fun s => ?_
  exact ((setClock_frame _ _).trans (answerPort_frame _ _ _ _ _)).mono (by decide)

theorem execSetOverride_parts (tag : Tag) (day : Nat) (dayType : Nat) :
    ∃ t, exec (.setOverride tag day dayType) s = .next t ∧ onlyChanges (partsOf (.setOverride tag day dayType)) s t := by
  refine ⟨_, rfl, ?_⟩
  dsimp only [partsOf]
  refine officeCommand_frame _ _ _ _ (by decide) fun s => ?_
  (repeat' split) <;> first
    | exact ((onOverrides_frame _ _).trans (answerPort_frame _ _ _ _ _)).mono (by decide)
    | exact (answerPort_frame _ _ _ _ _).mono (by decide)

theorem execDropOverride_parts (tag : Tag) (day : Nat) :
    ∃ t, exec (.dropOverride tag day) s = .next t ∧ onlyChanges (partsOf (.dropOverride tag day)) s t := by
  refine ⟨_, rfl, ?_⟩
  dsimp only [partsOf]
  refine officeCommand_frame _ _ _ _ (by decide) fun s => ?_
  (repeat' split) <;> first
    | exact ((onOverrides_frame _ _).trans (answerPort_frame _ _ _ _ _)).mono (by decide)
    | exact (answerPort_frame _ _ _ _ _).mono (by decide)

theorem execLoadPlan_parts (tag : Tag) (part : PlanPart) :
    ∃ t, exec (.loadPlan tag part) s = .next t ∧ onlyChanges (partsOf (.loadPlan tag part)) s t := by
  refine ⟨_, rfl, ?_⟩
  dsimp only [partsOf]
  refine officeCommand_frame _ _ _ _ (by decide) fun s => ?_
  exact (load_frame _ _ _ _).mono (by decide)

theorem execLoadDay_parts (tag : Tag) (part : DayPart) :
    ∃ t, exec (.loadDay tag part) s = .next t ∧ onlyChanges (partsOf (.loadDay tag part)) s t := by
  refine ⟨_, rfl, ?_⟩
  dsimp only [partsOf]
  refine officeCommand_frame _ _ _ _ (by decide) fun s => ?_
  exact (load_frame _ _ _ _).mono (by decide)

theorem execLoadLadder_parts (tag : Tag) (part : LadderPart) :
    ∃ t, exec (.loadLadder tag part) s = .next t ∧ onlyChanges (partsOf (.loadLadder tag part)) s t := by
  refine ⟨_, rfl, ?_⟩
  dsimp only [partsOf]
  refine officeCommand_frame _ _ _ _ (by decide) fun s => ?_
  exact (load_frame _ _ _ _).mono (by decide)

theorem execLoadCalendar_parts (tag : Tag) (part : CalendarPart) :
    ∃ t, exec (.loadCalendar tag part) s = .next t ∧ onlyChanges (partsOf (.loadCalendar tag part)) s t := by
  refine ⟨_, rfl, ?_⟩
  dsimp only [partsOf]
  refine officeCommand_frame _ _ _ _ (by decide) fun s => ?_
  exact (load_frame _ _ _ _).mono (by decide)

theorem execCopyActive_parts (tag : Tag) :
    ∃ t, exec (.copyActive tag) s = .next t ∧ onlyChanges (partsOf (.copyActive tag)) s t := by
  refine ⟨_, rfl, ?_⟩
  dsimp only [partsOf]
  refine officeCommand_frame _ _ _ _ (by decide) fun s => ?_
  (repeat' split) <;> exact (load_frame _ _ _ _).mono (by decide)

theorem execClearStaged_parts (tag : Tag) :
    ∃ t, exec (.clearStaged tag) s = .next t ∧ onlyChanges (partsOf (.clearStaged tag)) s t := by
  refine ⟨_, rfl, ?_⟩
  dsimp only [partsOf]
  refine officeCommand_frame _ _ _ _ (by decide) fun s => ?_
  (repeat' split) <;> first
    | exact ((onBooks_frame _ _).trans (answerPort_frame _ _ _ _ _)).mono (by decide)
    | exact (answerPort_frame _ _ _ _ _).mono (by decide)

theorem execArmBook_parts (tag : Tag) (day : Nat) :
    ∃ t, exec (.armBook tag day) s = .next t ∧ onlyChanges (partsOf (.armBook tag day)) s t := by
  refine ⟨_, rfl, ?_⟩
  dsimp only [partsOf]
  refine officeCommand_frame _ _ _ _ (by decide) fun s => ?_
  (repeat' split) <;> first
    | exact ((onBooks_frame _ _).trans (answerPort_frame _ _ _ _ _)).mono (by decide)
    | exact (answerPort_frame _ _ _ _ _).mono (by decide)

theorem execBookCheckComplete_parts :
    ∃ t, exec (.bookCheckComplete) s = .next t ∧ onlyChanges (partsOf (.bookCheckComplete)) s t := by
  refine ⟨_, rfl, ?_⟩
  dsimp only [partsOf]
  refine whenRunning_frame _ _ fun s => ?_
  (repeat' split) <;> first
    | exact ((onBooks_frame _ _).trans (latch_frame _ _)).mono (by decide)
    | exact (((onBooks_frame _ _).trans (latch_frame _ _)).trans (setBookChangeActive_frame _)).mono (by decide)
    | exact (answerPort_frame _ _ _ _ _).mono (by decide)
    | exact onlyChanges_refl _ _

theorem execDisarmBook_parts (tag : Tag) :
    ∃ t, exec (.disarmBook tag) s = .next t ∧ onlyChanges (partsOf (.disarmBook tag)) s t := by
  refine ⟨_, rfl, ?_⟩
  dsimp only [partsOf]
  refine officeCommand_frame _ _ _ _ (by decide) fun s => ?_
  (repeat' split) <;> first
    | exact (((onBooks_frame _ _).trans (resetBookChangeAll_frame _)).trans (answerPort_frame _ _ _ _ _)).mono (by decide)
    | exact (answerPort_frame _ _ _ _ _).mono (by decide)

theorem execBookActivation_parts :
    ∃ t, exec (.bookActivation) s = .next t ∧ onlyChanges (partsOf (.bookActivation)) s t := by
  refine ⟨_, rfl, ?_⟩
  dsimp only [partsOf]
  refine whenRunning_frame _ _ fun s => ?_
  (repeat' split) <;> first
    | exact (activateIfDue_frame _).mono (by decide)
    | exact (answerPort_frame _ _ _ _ _).mono (by decide)
    | exact onlyChanges_refl _ _

theorem execReadBook_parts (tag : Tag) (book : BookSelector) (part : Nat) :
    ∃ t, exec (.readBook tag book part) s = .next t ∧ onlyChanges (partsOf (.readBook tag book part)) s t := by
  refine ⟨_, rfl, ?_⟩
  dsimp only [partsOf]
  refine officeCommand_frame _ _ _ _ (by decide) fun s => ?_
  (repeat' split) <;> exact (answerPort_frame _ _ _ _ _).mono (by decide)

theorem execQuote_parts (line : Line) (fields : QuoteFields) :
    ∃ t, exec (.quote line fields) s = .next t ∧ onlyChanges (partsOf (.quote line fields)) s t := by
  refine ⟨_, rfl, ?_⟩
  dsimp only [partsOf]
  refine whenRunning_frame _ _ fun s => ?_
  unfold takeAskFrame; split
  · exact takeFrame_frame _ _ _ _ _ (by decide) fun s => onlyChanges_refl _ s
  · exact takeFrame_frame _ _ _ _ _ (by decide) fun s => (takeAsk_frame s _ _).mono (by decide)

theorem execPrice_parts (line : Line) (fields : PriceFields) :
    ∃ t, exec (.price line fields) s = .next t ∧ onlyChanges (partsOf (.price line fields)) s t := by
  refine ⟨_, rfl, ?_⟩
  dsimp only [partsOf]
  refine whenRunning_frame _ _ fun s => ?_
  unfold takeAskFrame; split
  · exact takeFrame_frame _ _ _ _ _ (by decide) fun s => onlyChanges_refl _ s
  · exact takeFrame_frame _ _ _ _ _ (by decide) fun s => (takeAsk_frame s _ _).mono (by decide)

theorem execPreviewQuote_parts (tag : Tag) (fields : PreviewFields) :
    ∃ t, exec (.previewQuote tag fields) s = .next t ∧ onlyChanges (partsOf (.previewQuote tag fields)) s t := by
  refine ⟨_, rfl, ?_⟩
  dsimp only [partsOf]
  refine officeCommand_frame _ _ _ _ (by decide) fun s => ?_
  (repeat' split) <;> first
    | exact ((deferAnswer_frame _ _).trans (placeRequest_frame _ _ _)).mono (by decide)
    | exact (answerPort_frame _ _ _ _ _).mono (by decide)
    | exact onlyChanges_refl _ _

theorem execWalkBegin_parts :
    ∃ t, exec (.walkBegin) s = .next t ∧ onlyChanges (partsOf (.walkBegin)) s t := by
  refine ⟨_, rfl, ?_⟩
  dsimp only [partsOf]
  refine whenRunning_frame _ _ fun s => ?_
  exact (chooseWalk_frame _).mono (by decide)

theorem execWalkComplete_parts :
    ∃ t, exec (.walkComplete) s = .next t ∧ onlyChanges (partsOf (.walkComplete)) s t := by
  refine ⟨_, rfl, ?_⟩
  dsimp only [partsOf]
  refine whenRunning_frame _ _ fun s => ?_
  (repeat' split) <;> first
    | exact ((runStages_frame _ _ _).trans (completeWalk_frame _ _ _)).mono (by decide)
    | exact (answerPort_frame _ _ _ _ _).mono (by decide)
    | exact onlyChanges_refl _ _

theorem execHello_parts (line : Line) :
    ∃ t, exec (.hello line) s = .next t ∧ onlyChanges (partsOf (.hello line)) s t := by
  refine ⟨_, rfl, ?_⟩
  dsimp only [partsOf]
  refine whenRunning_frame _ _ fun s => ?_
  refine takeFrame_frame _ _ _ _ _ (by decide) fun s => ?_
  first
    | exact onlyChanges_refl _ _
    | exact (answerPending_frame _ _ _ _).mono (by decide)

theorem execUnknownRequestKind_parts (line : Line) :
    ∃ t, exec (.unknownRequestKind line) s = .next t ∧ onlyChanges (partsOf (.unknownRequestKind line)) s t := by
  refine ⟨_, rfl, ?_⟩
  dsimp only [partsOf]
  refine whenRunning_frame _ _ fun s => ?_
  refine takeFrame_frame _ _ _ _ _ (by decide) fun s => ?_
  exact onlyChanges_refl _ _

theorem execFrameDiscard_parts (line : Line) :
    ∃ t, exec (.frameDiscard line) s = .next t ∧ onlyChanges (partsOf (.frameDiscard line)) s t := by
  refine ⟨_, rfl, ?_⟩
  dsimp only [partsOf]
  refine whenRunning_frame _ _ fun s => ?_
  (repeat' split) <;> first
    | exact (discardFrame_frame _ _).mono (by decide)
    | exact (collide_frame _ _).mono (by decide)

theorem execReceiveTimeout_parts (line : Line) :
    ∃ t, exec (.receiveTimeout line) s = .next t ∧ onlyChanges (partsOf (.receiveTimeout line)) s t := by
  refine ⟨_, rfl, ?_⟩
  dsimp only [partsOf]
  refine whenRunning_frame _ _ fun s => ?_
  (repeat' split) <;> first
    | exact (discardFrame_frame _ _).mono (by decide)
    | exact (collide_frame _ _).mono (by decide)
    | exact (answerPort_frame _ _ _ _ _).mono (by decide)
    | exact onlyChanges_refl _ _

theorem execCollision_parts (line : Line) :
    ∃ t, exec (.collision line) s = .next t ∧ onlyChanges (partsOf (.collision line)) s t := by
  refine ⟨_, rfl, ?_⟩
  dsimp only [partsOf]
  refine whenRunning_frame _ _ fun s => ?_
  exact (collide_frame _ _).mono (by decide)

theorem execReplyEnd_parts (line : Line) :
    ∃ t, exec (.replyEnd line) s = .next t ∧ onlyChanges (partsOf (.replyEnd line)) s t := by
  refine ⟨_, rfl, ?_⟩
  dsimp only [partsOf]
  refine whenRunning_frame _ _ fun s => ?_
  exact (onLine_frame _ _ _).mono (by decide)

theorem execConfigureTerminal_parts (tag : Tag) (fields : TerminalFields) :
    ∃ t, exec (.configureTerminal tag fields) s = .next t ∧ onlyChanges (partsOf (.configureTerminal tag fields)) s t := by
  refine ⟨_, rfl, ?_⟩
  dsimp only [partsOf]
  refine officeCommand_frame _ _ _ _ (by decide) fun s => ?_
  (repeat' split) <;> first
    | exact ((configure_frame _ _ _ _ _).trans (answerPort_frame _ _ _ _ _)).mono (by decide)
    | exact (answerPort_frame _ _ _ _ _).mono (by decide)
    | exact onlyChanges_refl _ _

theorem execRetireTerminal_parts (tag : Tag) (terminal : Nat) :
    ∃ t, exec (.retireTerminal tag terminal) s = .next t ∧ onlyChanges (partsOf (.retireTerminal tag terminal)) s t := by
  refine ⟨_, rfl, ?_⟩
  dsimp only [partsOf]
  refine officeCommand_frame _ _ _ _ (by decide) fun s => ?_
  (repeat' split) <;> first
    | exact ((retire_frame _ _).trans (answerPort_frame _ _ _ _ _)).mono (by decide)
    | exact (answerPort_frame _ _ _ _ _).mono (by decide)
    | exact onlyChanges_refl _ _

theorem execSetConditions_parts (tag : Tag) (terminal : Nat) (pass : BitVec 16) :
    ∃ t, exec (.setConditions tag terminal pass) s = .next t ∧ onlyChanges (partsOf (.setConditions tag terminal pass)) s t := by
  refine ⟨_, rfl, ?_⟩
  dsimp only [partsOf]
  refine officeCommand_frame _ _ _ _ (by decide) fun s => ?_
  (repeat' split) <;> first
    | exact ((onEntry_frame _ _ _).trans (answerPort_frame _ _ _ _ _)).mono (by decide)
    | exact (answerPort_frame _ _ _ _ _).mono (by decide)
    | exact onlyChanges_refl _ _

theorem execClearConditions_parts (tag : Tag) (terminal : Nat) :
    ∃ t, exec (.clearConditions tag terminal) s = .next t ∧ onlyChanges (partsOf (.clearConditions tag terminal)) s t := by
  refine ⟨_, rfl, ?_⟩
  dsimp only [partsOf]
  refine officeCommand_frame _ _ _ _ (by decide) fun s => ?_
  split
  · exact onlyChanges_refl _ _
  · exact ((onEntries_frame _ _ _).trans (answerPort_frame _ _ _ _ _)).mono (by decide)

theorem execLineReset_parts (source : Source) (tag : Tag) (terminal : Nat) :
    ∃ t, exec (.lineReset source tag terminal) s = .next t ∧ onlyChanges (partsOf (.lineReset source tag terminal)) s t := by
  refine ⟨_, rfl, ?_⟩
  dsimp only [partsOf]
  refine takeCommand_frame _ _ _ _ _ _ (by decide) (by decide) fun s => ?_
  (repeat' split) <;> first
    | exact ((resetLine_frame _ _).trans (answerPort_frame _ _ _ _ _)).mono (by decide)
    | exact (answerPort_frame _ _ _ _ _).mono (by decide)
    | exact onlyChanges_refl _ _

theorem execTestLine_parts (tag : Tag) (badge : Nat) (terminal : Nat) :
    ∃ t, exec (.testLine tag badge terminal) s = .next t ∧ onlyChanges (partsOf (.testLine tag badge terminal)) s t := by
  refine ⟨_, rfl, ?_⟩
  dsimp only [partsOf]
  refine takeCommand_frame _ _ _ _ _ _ (by decide) (by decide) fun s => ?_
  (repeat' split) <;> first
    | exact ((changeMode_frame _ _ _).trans (answerPort_frame _ _ _ _ _)).mono (by decide)
    | exact (answerPort_frame _ _ _ _ _).mono (by decide)
    | exact onlyChanges_refl _ _

theorem execEndTest_parts (tag : Tag) (badge : Nat) (terminal : Nat) :
    ∃ t, exec (.endTest tag badge terminal) s = .next t ∧ onlyChanges (partsOf (.endTest tag badge terminal)) s t := by
  refine ⟨_, rfl, ?_⟩
  dsimp only [partsOf]
  refine takeCommand_frame _ _ _ _ _ _ (by decide) (by decide) fun s => ?_
  (repeat' split) <;> first
    | exact ((changeMode_frame _ _ _).trans (answerPort_frame _ _ _ _ _)).mono (by decide)
    | exact (answerPort_frame _ _ _ _ _).mono (by decide)
    | exact onlyChanges_refl _ _

theorem execTestLimit_parts (line : Line) :
    ∃ t, exec (.testLimit line) s = .next t ∧ onlyChanges (partsOf (.testLimit line)) s t := by
  refine ⟨_, rfl, ?_⟩
  dsimp only [partsOf]
  refine whenRunning_frame _ _ fun s => ?_
  (repeat' split) <;> first
    | exact (endTestIfDue_frame _ _).mono (by decide)
    | exact (answerPort_frame _ _ _ _ _).mono (by decide)
    | exact onlyChanges_refl _ _

theorem execSale_parts (line : Line) (fields : SaleFields) :
    ∃ t, exec (.sale line fields) s = .next t ∧ onlyChanges (partsOf (.sale line fields)) s t := by
  refine ⟨_, rfl, ?_⟩
  dsimp only [partsOf]
  refine whenRunning_frame _ _ fun s => ?_
  split
  · exact takeFrame_frame _ _ _ _ _ (by decide) fun s => onlyChanges_refl _ s
  · refine takeFrame_frame _ _ _ _ _ (by decide) fun s => ?_
    exact (takeSale_frame _ _ _ _).mono (by decide)

theorem execLogPruning_parts :
    ∃ t, exec (.logPruning) s = .next t ∧ onlyChanges (partsOf (.logPruning)) s t := by
  refine ⟨_, rfl, ?_⟩
  dsimp only [partsOf]
  refine whenRunning_frame _ _ fun s => ?_
  (repeat' split) <;> first
    | exact (pruneLog_frame _).mono (by decide)
    | exact (answerPort_frame _ _ _ _ _).mono (by decide)
    | exact onlyChanges_refl _ _

theorem execFetchSessions_parts (tag : Tag) (serial : Nat) (count : Nat) :
    ∃ t, exec (.fetchSessions tag serial count) s = .next t ∧ onlyChanges (partsOf (.fetchSessions tag serial count)) s t := by
  refine ⟨_, rfl, ?_⟩
  dsimp only [partsOf]
  refine officeCommand_frame _ _ _ _ (by decide) fun s => ?_
  exact (answerPort_frame _ _ _ _ _).mono (by decide)

theorem execReadTotals_parts (tag : Tag) (terminal : Nat) :
    ∃ t, exec (.readTotals tag terminal) s = .next t ∧ onlyChanges (partsOf (.readTotals tag terminal)) s t := by
  refine ⟨_, rfl, ?_⟩
  dsimp only [partsOf]
  refine officeCommand_frame _ _ _ _ (by decide) fun s => ?_
  (repeat' split) <;> first
    | exact (answerPort_frame _ _ _ _ _).mono (by decide)
    | exact onlyChanges_refl _ _

theorem execPutPermit_parts (tag : Tag) (fields : PermitFields) :
    ∃ t, exec (.putPermit tag fields) s = .next t ∧ onlyChanges (partsOf (.putPermit tag fields)) s t := by
  refine ⟨_, rfl, ?_⟩
  dsimp only [partsOf]
  refine officeCommand_frame _ _ _ _ (by decide) fun s => ?_
  (repeat' split) <;> exact ((permitsUpdate_frame _ _).trans (answerPort_frame _ _ _ _ _)).mono (by decide)

theorem execDropPermit_parts (tag : Tag) (number : Nat) :
    ∃ t, exec (.dropPermit tag number) s = .next t ∧ onlyChanges (partsOf (.dropPermit tag number)) s t := by
  refine ⟨_, rfl, ?_⟩
  dsimp only [partsOf]
  refine officeCommand_frame _ _ _ _ (by decide) fun s => ?_
  (repeat' split) <;> exact ((permitsUpdate_frame _ _).trans (answerPort_frame _ _ _ _ _)).mono (by decide)

theorem execSetPermitState_parts (tag : Tag) (number : Nat) (state : Nat) :
    ∃ t, exec (.setPermitState tag number state) s = .next t ∧ onlyChanges (partsOf (.setPermitState tag number state)) s t := by
  refine ⟨_, rfl, ?_⟩
  dsimp only [partsOf]
  refine officeCommand_frame _ _ _ _ (by decide) fun s => ?_
  (repeat' split) <;> exact ((permitsUpdate_frame _ _).trans (answerPort_frame _ _ _ _ _)).mono (by decide)

theorem execReadPermit_parts (tag : Tag) (number : Nat) (selector : Nat) :
    ∃ t, exec (.readPermit tag number selector) s = .next t ∧ onlyChanges (partsOf (.readPermit tag number selector)) s t := by
  refine ⟨_, rfl, ?_⟩
  dsimp only [partsOf]
  refine officeCommand_frame _ _ _ _ (by decide) fun s => ?_
  (repeat' split) <;> first
    | exact ((refreshPermit_frame _ _).trans (answerPort_frame _ _ _ _ _)).mono (by decide)
    | exact (answerPort_frame _ _ _ _ _).mono (by decide)

theorem execPermitRemoval_parts :
    ∃ t, exec (.permitRemoval) s = .next t ∧ onlyChanges (partsOf (.permitRemoval)) s t := by
  refine ⟨_, rfl, ?_⟩
  dsimp only [partsOf]
  refine whenRunning_frame _ _ fun s => ?_
  (repeat' split) <;> first
    | exact (removePermits_frame _).mono (by decide)
    | exact (answerPort_frame _ _ _ _ _).mono (by decide)
    | exact onlyChanges_refl _ _

theorem execCover_parts (source : Source) (tag : Tag) (fields : CoverFields) :
    ∃ t, exec (.cover source tag fields) s = .next t ∧ onlyChanges (partsOf (.cover source tag fields)) s t := by
  refine ⟨_, rfl, ?_⟩
  dsimp only [partsOf]
  refine takeCommand_frame _ _ _ _ _ _ (by decide) (by decide) fun s => ?_
  (repeat' split) <;> first
    | exact (acceptCover_frame _ _ _).mono (by decide)
    | exact (answerPort_frame _ _ _ _ _).mono (by decide)
    | exact onlyChanges_refl _ _

theorem execSearchBegin_parts :
    ∃ t, exec (.searchBegin) s = .next t ∧ onlyChanges (partsOf (.searchBegin)) s t := by
  refine ⟨_, rfl, ?_⟩
  dsimp only [partsOf]
  refine whenRunning_frame _ _ fun s => ?_
  exact (chooseSearch_frame _).mono (by decide)

theorem execSearchComplete_parts :
    ∃ t, exec (.searchComplete) s = .next t ∧ onlyChanges (partsOf (.searchComplete)) s t := by
  refine ⟨_, rfl, ?_⟩
  dsimp only [partsOf]
  refine whenRunning_frame _ _ fun s => ?_
  (repeat' split) <;> first
    | exact (completeSearch_frame _ _ _).mono (by decide)
    | exact (answerPort_frame _ _ _ _ _).mono (by decide)
    | exact onlyChanges_refl _ _

theorem execSetRecentWindow_parts (tag : Tag) (window : Nat) :
    ∃ t, exec (.setRecentWindow tag window) s = .next t ∧ onlyChanges (partsOf (.setRecentWindow tag window)) s t := by
  refine ⟨_, rfl, ?_⟩
  dsimp only [partsOf]
  refine officeCommand_frame _ _ _ _ (by decide) fun s => ?_
  exact ((onCover_frame _ _).trans (answerPort_frame _ _ _ _ _)).mono (by decide)

theorem execSetCoins_parts (tag : Tag) (values : Vector Nat 8) :
    ∃ t, exec (.setCoins tag values) s = .next t ∧ onlyChanges (partsOf (.setCoins tag values)) s t := by
  refine ⟨_, rfl, ?_⟩
  dsimp only [partsOf]
  refine officeCommand_frame _ _ _ _ (by decide) fun s => ?_
  (repeat' split) <;> first
    | exact ((onCash_frame _ _).trans (answerPort_frame _ _ _ _ _)).mono (by decide)
    | exact (answerPort_frame _ _ _ _ _).mono (by decide)

theorem execBoxOut_parts (line : Line) (label : Nat) :
    ∃ t, exec (.boxOut line label) s = .next t ∧ onlyChanges (partsOf (.boxOut line label)) s t := by
  refine ⟨_, rfl, ?_⟩
  dsimp only [partsOf]
  refine whenRunning_frame _ _ fun s => ?_
  refine takeFrame_frame _ _ _ _ _ (by decide) fun s => ?_
  (repeat' split) <;> first
    | exact onlyChanges_refl _ _
    | exact (answerPending_frame _ _ _ _).mono (by decide)
    | exact (takeBox_frame _ _ _).mono (by decide)

theorem execBoxIn_parts (line : Line) (label : Nat) :
    ∃ t, exec (.boxIn line label) s = .next t ∧ onlyChanges (partsOf (.boxIn line label)) s t := by
  refine ⟨_, rfl, ?_⟩
  dsimp only [partsOf]
  refine whenRunning_frame _ _ fun s => ?_
  refine takeFrame_frame _ _ _ _ _ (by decide) fun s => ?_
  (repeat' split) <;> first
    | exact onlyChanges_refl _ _
    | exact (answerPending_frame _ _ _ _).mono (by decide)
    | exact (putBox_frame _ _ _).mono (by decide)

theorem execReadLifts_parts (tag : Tag) (position : Nat) (count : Nat) :
    ∃ t, exec (.readLifts tag position count) s = .next t ∧ onlyChanges (partsOf (.readLifts tag position count)) s t := by
  refine ⟨_, rfl, ?_⟩
  dsimp only [partsOf]
  refine officeCommand_frame _ _ _ _ (by decide) fun s => ?_
  exact (answerPort_frame _ _ _ _ _).mono (by decide)

theorem execOpenRound_parts (tag : Tag) (badge : Nat) (number : Nat) :
    ∃ t, exec (.openRound tag badge number) s = .next t ∧ onlyChanges (partsOf (.openRound tag badge number)) s t := by
  refine ⟨_, rfl, ?_⟩
  dsimp only [partsOf]
  refine takeCommand_frame _ _ _ _ _ _ (by decide) (by decide) fun s => ?_
  (repeat' split) <;> first
    | exact onlyChanges_refl _ _
    | exact (answerPort_frame _ _ _ _ _).mono (by decide)
    | exact ((((onCash_frame _ _).trans (clearZone_frame _ _)).trans (latch_frame _ _)).trans (answerPort_frame _ _ _ _ _)).mono (by decide)

theorem execRoundStatus_parts (tag : Tag) (badge : Nat) :
    ∃ t, exec (.roundStatus tag badge) s = .next t ∧ onlyChanges (partsOf (.roundStatus tag badge)) s t := by
  refine ⟨_, rfl, ?_⟩
  dsimp only [partsOf]
  refine takeCommand_frame _ _ _ _ _ _ (by decide) (by decide) fun s => ?_
  (repeat' split) <;> exact (answerPort_frame _ _ _ _ _).mono (by decide)

theorem execCloseRound_parts (tag : Tag) (badge : Nat) :
    ∃ t, exec (.closeRound tag badge) s = .next t ∧ onlyChanges (partsOf (.closeRound tag badge)) s t := by
  refine ⟨_, rfl, ?_⟩
  dsimp only [partsOf]
  refine takeCommand_frame _ _ _ _ _ _ (by decide) (by decide) fun s => ?_
  (repeat' split) <;> first
    | exact (((onCash_frame _ _).trans (latch_frame _ _)).trans (answerPort_frame _ _ _ _ _)).mono (by decide)
    | exact (answerPort_frame _ _ _ _ _).mono (by decide)

theorem execRoundLapse_parts :
    ∃ t, exec (.roundLapse) s = .next t ∧ onlyChanges (partsOf (.roundLapse)) s t := by
  refine ⟨_, rfl, ?_⟩
  dsimp only [partsOf]
  refine whenRunning_frame _ _ fun s => ?_
  (repeat' split) <;> first
    | exact (lapseIfDue_frame _).mono (by decide)
    | exact (answerPort_frame _ _ _ _ _).mono (by decide)
    | exact onlyChanges_refl _ _

theorem execCountResult_parts (tag : Tag) (box : Nat) (value : Nat) :
    ∃ t, exec (.countResult tag box value) s = .next t ∧ onlyChanges (partsOf (.countResult tag box value)) s t := by
  refine ⟨_, rfl, ?_⟩
  dsimp only [partsOf]
  refine officeCommand_frame _ _ _ _ (by decide) fun s => ?_
  (repeat' split) <;> first
    | exact (((onCash_frame _ _).trans (raiseFault_frame _ _ _ _)).trans (answerPort_frame _ _ _ _ _)).mono (by decide)
    | exact ((onCash_frame _ _).trans (answerPort_frame _ _ _ _ _)).mono (by decide)
    | exact (answerPort_frame _ _ _ _ _).mono (by decide)

theorem execSetCashLimits_parts (tag : Tag) (tolerance : Nat) (limit : Nat) :
    ∃ t, exec (.setCashLimits tag tolerance limit) s = .next t ∧ onlyChanges (partsOf (.setCashLimits tag tolerance limit)) s t := by
  refine ⟨_, rfl, ?_⟩
  dsimp only [partsOf]
  refine officeCommand_frame _ _ _ _ (by decide) fun s => ?_
  exact ((onCash_frame _ _).trans (answerPort_frame _ _ _ _ _)).mono (by decide)

theorem execFault_parts (line : Line) (kind : Nat) (direction : Nat) :
    ∃ t, exec (.fault line kind direction) s = .next t ∧ onlyChanges (partsOf (.fault line kind direction)) s t := by
  refine ⟨_, rfl, ?_⟩
  dsimp only [partsOf]
  refine whenRunning_frame _ _ fun s => ?_
  split
  · exact takeFrame_frame _ _ _ _ _ (by decide) fun s => onlyChanges_refl _ s
  · refine takeFrame_frame _ _ _ _ _ (by decide) fun s => ?_
    exact ((reportFault_frame _ _ _ _).trans (answerPending_frame _ _ _ _)).mono (by decide)

theorem execLineSilence_parts (line : Line) :
    ∃ t, exec (.lineSilence line) s = .next t ∧ onlyChanges (partsOf (.lineSilence line)) s t := by
  refine ⟨_, rfl, ?_⟩
  dsimp only [partsOf]
  refine whenRunning_frame _ _ fun s => ?_
  (repeat' split) <;> first
    | exact (onFaults_frame _ _).mono (by decide)
    | exact (answerPort_frame _ _ _ _ _).mono (by decide)
    | exact onlyChanges_refl _ _

theorem execGraceTailEnd_parts (plan : Fin 8) :
    ∃ t, exec (.graceTailEnd plan) s = .next t ∧ onlyChanges (partsOf (.graceTailEnd plan)) s t := by
  refine ⟨_, rfl, ?_⟩
  dsimp only [partsOf]
  refine whenRunning_frame _ _ fun s => ?_
  (repeat' split) <;> first
    | exact (onFaults_frame _ _).mono (by decide)
    | exact (answerPort_frame _ _ _ _ _).mono (by decide)
    | exact onlyChanges_refl _ _

theorem execAckFault_parts (tag : Tag) (scope : Nat) (kind : Nat) :
    ∃ t, exec (.ackFault tag scope kind) s = .next t ∧ onlyChanges (partsOf (.ackFault tag scope kind)) s t := by
  refine ⟨_, rfl, ?_⟩
  dsimp only [partsOf]
  refine officeCommand_frame _ _ _ _ (by decide) fun s => ?_
  (repeat' split) <;> first
    | exact ((acknowledge_frame _ _).trans (answerPort_frame _ _ _ _ _)).mono (by decide)
    | exact (answerPort_frame _ _ _ _ _).mono (by decide)
    | exact onlyChanges_refl _ _

theorem execClearFault_parts (source : Source) (tag : Tag) (scope : Nat) (kind : Nat) :
    ∃ t, exec (.clearFault source tag scope kind) s = .next t ∧ onlyChanges (partsOf (.clearFault source tag scope kind)) s t := by
  refine ⟨_, rfl, ?_⟩
  dsimp only [partsOf]
  refine takeCommand_frame _ _ _ _ _ _ (by decide) (by decide) fun s => ?_
  (repeat' split) <;> first
    | exact ((clearNamed_frame _ _).trans (answerPort_frame _ _ _ _ _)).mono (by decide)
    | exact (answerPort_frame _ _ _ _ _).mono (by decide)
    | exact onlyChanges_refl _ _

theorem execReadFaults_parts (source : Source) (tag : Tag) (scope : Nat) :
    ∃ t, exec (.readFaults source tag scope) s = .next t ∧ onlyChanges (partsOf (.readFaults source tag scope)) s t := by
  refine ⟨_, rfl, ?_⟩
  dsimp only [partsOf]
  refine takeCommand_frame _ _ _ _ _ _ (by decide) (by decide) fun s => ?_
  exact (answerPort_frame _ _ _ _ _).mono (by decide)

theorem execReadNotices_parts (tag : Tag) :
    ∃ t, exec (.readNotices tag) s = .next t ∧ onlyChanges (partsOf (.readNotices tag)) s t := by
  refine ⟨_, rfl, ?_⟩
  dsimp only [partsOf]
  refine officeCommand_frame _ _ _ _ (by decide) fun s => ?_
  exact ((noticesUpdate_frame _ _).trans (answerPort_frame _ _ _ _ _)).mono (by decide)

theorem execReadSiteNotices_parts (tag : Tag) (badge : Nat) :
    ∃ t, exec (.readSiteNotices tag badge) s = .next t ∧ onlyChanges (partsOf (.readSiteNotices tag badge)) s t := by
  refine ⟨_, rfl, ?_⟩
  dsimp only [partsOf]
  refine takeCommand_frame _ _ _ _ _ _ (by decide) (by decide) fun s => ?_
  exact ((noticesUpdate_frame _ _).trans (answerPort_frame _ _ _ _ _)).mono (by decide)

theorem execSetNotices_parts (tag : Tag) (enable : BitVec 16) (call : BitVec 16) (lamp : BitVec 16) :
    ∃ t, exec (.setNotices tag enable call lamp) s = .next t ∧ onlyChanges (partsOf (.setNotices tag enable call lamp)) s t := by
  refine ⟨_, rfl, ?_⟩
  dsimp only [partsOf]
  refine officeCommand_frame _ _ _ _ (by decide) fun s => ?_
  (repeat' split) <;> first
    | exact ((noticesUpdate_frame _ _).trans (answerPort_frame _ _ _ _ _)).mono (by decide)
    | exact (answerPort_frame _ _ _ _ _).mono (by decide)
    | exact onlyChanges_refl _ _

theorem execSetAddressed_parts (tag : Tag) (terminal : Nat) (notices : BitVec 8) :
    ∃ t, exec (.setAddressed tag terminal notices) s = .next t ∧ onlyChanges (partsOf (.setAddressed tag terminal notices)) s t := by
  refine ⟨_, rfl, ?_⟩
  dsimp only [partsOf]
  refine officeCommand_frame _ _ _ _ (by decide) fun s => ?_
  exact (changeAddressed_frame _ _ _ _).mono (by decide)

theorem execResetAddressed_parts (tag : Tag) (terminal : Nat) (notices : BitVec 8) :
    ∃ t, exec (.resetAddressed tag terminal notices) s = .next t ∧ onlyChanges (partsOf (.resetAddressed tag terminal notices)) s t := by
  refine ⟨_, rfl, ?_⟩
  dsimp only [partsOf]
  refine officeCommand_frame _ _ _ _ (by decide) fun s => ?_
  exact (changeAddressed_frame _ _ _ _).mono (by decide)

theorem execPutBadge_parts (tag : Tag) (number : Nat) (roles : BitVec 8) :
    ∃ t, exec (.putBadge tag number roles) s = .next t ∧ onlyChanges (partsOf (.putBadge tag number roles)) s t := by
  refine ⟨_, rfl, ?_⟩
  dsimp only [partsOf]
  refine officeCommand_frame _ _ _ _ (by decide) fun s => ?_
  (repeat' split) <;> first
    | exact (answerBadges_frame _ _ _).mono (by decide)
    | exact (putBadge_frame _ _ _ _).mono (by decide)

theorem execDropBadge_parts (tag : Tag) (number : Nat) :
    ∃ t, exec (.dropBadge tag number) s = .next t ∧ onlyChanges (partsOf (.dropBadge tag number)) s t := by
  refine ⟨_, rfl, ?_⟩
  dsimp only [partsOf]
  refine officeCommand_frame _ _ _ _ (by decide) fun s => ?_
  (repeat' split) <;> first
    | exact ((onPorts_frame _ _).trans (answerBadges_frame _ _ _)).mono (by decide)
    | exact (answerPort_frame _ _ _ _ _).mono (by decide)

theorem execReadStatus_parts (source : Source) (tag : Tag) :
    ∃ t, exec (.readStatus source tag) s = .next t ∧ onlyChanges (partsOf (.readStatus source tag)) s t := by
  refine ⟨_, rfl, ?_⟩
  dsimp only [partsOf]
  refine takeCommand_frame _ _ _ _ _ _ (by decide) (by decide) fun s => ?_
  exact (answerPort_frame _ _ _ _ _).mono (by decide)

theorem execPortFrameDiscard_parts (port : PortId) :
    ∃ t, exec (.portFrameDiscard port) s = .next t ∧ onlyChanges (partsOf (.portFrameDiscard port)) s t := by
  refine ⟨_, rfl, ?_⟩
  dsimp only [partsOf]
  refine whenRunning_frame _ _ fun s => ?_
  exact (dropPortFrame_frame _ _).mono (by decide)

theorem execPortReplyEnd_parts (port : PortId) :
    ∃ t, exec (.portReplyEnd port) s = .next t ∧ onlyChanges (partsOf (.portReplyEnd port)) s t := by
  refine ⟨_, rfl, ?_⟩
  dsimp only [partsOf]
  refine whenRunning_frame _ _ fun s => ?_
  (repeat' split) <;> first
    | exact (onPorts_frame _ _).mono (by decide)
    | exact (warmRestart_frame _ _).mono (by decide)

theorem execRestart_parts (source : Source) (tag : Tag) :
    ∃ t, exec (.restart source tag) s = .next t ∧ onlyChanges (partsOf (.restart source tag)) s t := by
  refine ⟨_, rfl, ?_⟩
  dsimp only [partsOf]
  refine takeCommand_frame _ _ _ _ _ _ (by decide) (by decide) fun s => ?_
  exact ((answerPort_frame _ _ _ _ _).trans (onPorts_frame _ _)).mono (by decide)

theorem execCommandedRestart_parts (straps : BitVec 8) :
    ∃ t, exec (.commandedRestart straps) s = .next t ∧ onlyChanges (partsOf (.commandedRestart straps)) s t := by
  refine ⟨_, rfl, ?_⟩
  dsimp only [partsOf]
  refine whenRunning_frame _ _ fun s => ?_
  (repeat' split) <;> first
    | exact ((pinsUpdate_frame _ _).trans (warmRestart_frame _ _)).mono (by decide)
    | exact (answerPort_frame _ _ _ _ _).mono (by decide)
    | exact onlyChanges_refl _ _

theorem execPowerUp_parts (backupGood : Bool) (straps : BitVec 8) :
    ∃ t, exec (.powerUp backupGood straps) s = .next t ∧ onlyChanges (partsOf (.powerUp backupGood straps)) s t := by
  refine ⟨_, rfl, ?_⟩
  dsimp only [partsOf]
  first
    | exact onlyChanges_refl _ _
    | exact ((pinsUpdate_frame _ _).trans (restartBySample_frame _)).mono (by decide)

theorem execNresetRelease_parts (backupGood : Bool) (straps : BitVec 8) :
    ∃ t, exec (.nresetRelease backupGood straps) s = .next t ∧ onlyChanges (partsOf (.nresetRelease backupGood straps)) s t := by
  refine ⟨_, rfl, ?_⟩
  dsimp only [partsOf]
  (repeat' split) <;> first
    | exact onlyChanges_refl _ _
    | exact (pinsUpdate_frame _ _).mono (by decide)
    | exact ((pinsUpdate_frame _ _).trans (restartBySample_frame _)).mono (by decide)

theorem execSupplyLoss_parts :
    ∃ t, exec (.supplyLoss) s = .next t ∧ onlyChanges (partsOf (.supplyLoss)) s t := by
  refine ⟨_, rfl, ?_⟩
  dsimp only [partsOf]
  first
    | exact onlyChanges_refl _ _
    | exact (pinsUpdate_frame _ _).mono (by decide)

theorem execPortReceiveTimeout_parts (port : PortId) :
    ∃ t, exec (.portReceiveTimeout port) s = .next t ∧ onlyChanges (partsOf (.portReceiveTimeout port)) s t := by
  refine ⟨_, rfl, ?_⟩
  dsimp only [partsOf]
  refine whenRunning_frame _ _ fun s => ?_
  exact (dropPortFrame_frame _ _).mono (by decide)

theorem execUnknownPortCommandKind_parts (source : Source) (tag : Tag) :
    ∃ t, exec (.unknownPortCommandKind source tag) s = .next t ∧ onlyChanges (partsOf (.unknownPortCommandKind source tag)) s t := by
  refine ⟨_, rfl, ?_⟩
  dsimp only [partsOf]
  refine takeCommand_frame _ _ _ _ _ _ (by decide) (by decide) fun s => ?_
  first
    | exact (answerPort_frame _ _ _ _ _).mono (by decide)
    | exact onlyChanges_refl _ _

theorem execNresetAssertion_parts :
    ∃ t, exec (.nresetAssertion) s = .next t ∧ onlyChanges (partsOf (.nresetAssertion)) s t := by
  refine ⟨_, rfl, ?_⟩
  dsimp only [partsOf]
  first
    | exact onlyChanges_refl _ _
    | exact (pinsUpdate_frame _ _).mono (by decide)

/-- What a command changes lies within its parts. -/
theorem exec_parts (c : Instr) : ∃ t, exec c s = .next t ∧ onlyChanges (partsOf c) s t := by
  cases c
  case minuteBoundary => exact execMinuteBoundary_parts s
  case overrideRemoval => exact execOverrideRemoval_parts s
  case setClock => exact execSetClock_parts s _ _ _
  case setOverride => exact execSetOverride_parts s _ _ _
  case dropOverride => exact execDropOverride_parts s _ _
  case loadPlan => exact execLoadPlan_parts s _ _
  case loadDay => exact execLoadDay_parts s _ _
  case loadLadder => exact execLoadLadder_parts s _ _
  case loadCalendar => exact execLoadCalendar_parts s _ _
  case copyActive => exact execCopyActive_parts s _
  case clearStaged => exact execClearStaged_parts s _
  case armBook => exact execArmBook_parts s _ _
  case bookCheckComplete => exact execBookCheckComplete_parts s
  case disarmBook => exact execDisarmBook_parts s _
  case bookActivation => exact execBookActivation_parts s
  case readBook => exact execReadBook_parts s _ _ _
  case quote => exact execQuote_parts s _ _
  case price => exact execPrice_parts s _ _
  case previewQuote => exact execPreviewQuote_parts s _ _
  case walkBegin => exact execWalkBegin_parts s
  case walkComplete => exact execWalkComplete_parts s
  case hello => exact execHello_parts s _
  case unknownRequestKind => exact execUnknownRequestKind_parts s _
  case frameDiscard => exact execFrameDiscard_parts s _
  case receiveTimeout => exact execReceiveTimeout_parts s _
  case collision => exact execCollision_parts s _
  case replyEnd => exact execReplyEnd_parts s _
  case configureTerminal => exact execConfigureTerminal_parts s _ _
  case retireTerminal => exact execRetireTerminal_parts s _ _
  case setConditions => exact execSetConditions_parts s _ _ _
  case clearConditions => exact execClearConditions_parts s _ _
  case lineReset => exact execLineReset_parts s _ _ _
  case testLine => exact execTestLine_parts s _ _ _
  case endTest => exact execEndTest_parts s _ _ _
  case testLimit => exact execTestLimit_parts s _
  case sale => exact execSale_parts s _ _
  case logPruning => exact execLogPruning_parts s
  case fetchSessions => exact execFetchSessions_parts s _ _ _
  case readTotals => exact execReadTotals_parts s _ _
  case putPermit => exact execPutPermit_parts s _ _
  case dropPermit => exact execDropPermit_parts s _ _
  case setPermitState => exact execSetPermitState_parts s _ _ _
  case readPermit => exact execReadPermit_parts s _ _ _
  case permitRemoval => exact execPermitRemoval_parts s
  case cover => exact execCover_parts s _ _ _
  case searchBegin => exact execSearchBegin_parts s
  case searchComplete => exact execSearchComplete_parts s
  case setRecentWindow => exact execSetRecentWindow_parts s _ _
  case setCoins => exact execSetCoins_parts s _ _
  case boxOut => exact execBoxOut_parts s _ _
  case boxIn => exact execBoxIn_parts s _ _
  case readLifts => exact execReadLifts_parts s _ _ _
  case openRound => exact execOpenRound_parts s _ _ _
  case roundStatus => exact execRoundStatus_parts s _ _
  case closeRound => exact execCloseRound_parts s _ _
  case roundLapse => exact execRoundLapse_parts s
  case countResult => exact execCountResult_parts s _ _ _
  case setCashLimits => exact execSetCashLimits_parts s _ _ _
  case fault => exact execFault_parts s _ _ _
  case lineSilence => exact execLineSilence_parts s _
  case graceTailEnd => exact execGraceTailEnd_parts s _
  case ackFault => exact execAckFault_parts s _ _ _
  case clearFault => exact execClearFault_parts s _ _ _ _
  case readFaults => exact execReadFaults_parts s _ _ _
  case readNotices => exact execReadNotices_parts s _
  case readSiteNotices => exact execReadSiteNotices_parts s _ _
  case setNotices => exact execSetNotices_parts s _ _ _ _
  case setAddressed => exact execSetAddressed_parts s _ _ _
  case resetAddressed => exact execResetAddressed_parts s _ _ _
  case putBadge => exact execPutBadge_parts s _ _ _
  case dropBadge => exact execDropBadge_parts s _ _
  case readStatus => exact execReadStatus_parts s _ _
  case portFrameDiscard => exact execPortFrameDiscard_parts s _
  case portReplyEnd => exact execPortReplyEnd_parts s _
  case restart => exact execRestart_parts s _ _
  case commandedRestart => exact execCommandedRestart_parts s _
  case powerUp => exact execPowerUp_parts s _ _
  case nresetRelease => exact execNresetRelease_parts s _ _
  case supplyLoss => exact execSupplyLoss_parts s
  case portReceiveTimeout => exact execPortReceiveTimeout_parts s _
  case unknownPortCommandKind => exact execUnknownPortCommandKind_parts s _ _
  case nresetAssertion => exact execNresetAssertion_parts s

end Sys2Proof.Machine
end

