-- ==== Sys2Proof/Laws/PerInstr.lean ====
section
/-!
SUPPORT. Laws/PerInstr.lean: what is shown for each command as syntax, one lemma per constructor of Instr. BadgeFits: the
badge number of a well-formed service-port request fits its 3 bytes (section 11.2).
-/
namespace Sys2Proof.Laws

/-- The badge a source carries. -/
def badgeOf : Source → Option Nat
  | .office => none
  | .service b => some b

/-- The badge an origin carries. -/
def badgeAt : Origin → Option Nat
  | .port source _ => badgeOf source
  | .line _ => none
  | .part => none

/-- The badge a well-formed command carries fits 3 bytes. -/
def BadgeFits.Statement (i : Instr) : Prop :=
  i.wellFormed = true → ∀ b, badgeAt i.origin = some b → fitsBytes 3 b = true

theorem badgeFits_of_none (i : Instr) (h : badgeAt i.origin = none) : BadgeFits.Statement i := by
  intro _ b e
  rw [h] at e
  cases e

theorem badgeFits_of_source (i : Instr) (source : Source) (h : badgeAt i.origin = badgeOf source)
    (f : i.wellFormed = true → source.fits = true) : BadgeFits.Statement i := by
  intro w b e
  rw [h] at e
  cases source with
  | office => cases e
  | service c => cases e; exact f w

theorem left_of_and {a b : Bool} (h : (a && b) = true) : a = true := (Bool.and_eq_true_iff.mp h).1

theorem BadgeFits.minuteBoundary : BadgeFits.Statement (.minuteBoundary) :=
  badgeFits_of_none _ rfl

theorem BadgeFits.overrideRemoval : BadgeFits.Statement (.overrideRemoval) :=
  badgeFits_of_none _ rfl

theorem BadgeFits.setClock (tag : Tag) (day minute : Nat) : BadgeFits.Statement (.setClock tag day minute) :=
  badgeFits_of_none _ rfl

theorem BadgeFits.setOverride (tag : Tag) (day dayType : Nat) : BadgeFits.Statement (.setOverride tag day dayType) :=
  badgeFits_of_none _ rfl

theorem BadgeFits.dropOverride (tag : Tag) (day : Nat) : BadgeFits.Statement (.dropOverride tag day) :=
  badgeFits_of_none _ rfl

theorem BadgeFits.loadPlan (tag : Tag) (part : PlanPart) : BadgeFits.Statement (.loadPlan tag part) :=
  badgeFits_of_none _ rfl

theorem BadgeFits.loadDay (tag : Tag) (part : DayPart) : BadgeFits.Statement (.loadDay tag part) :=
  badgeFits_of_none _ rfl

theorem BadgeFits.loadLadder (tag : Tag) (part : LadderPart) : BadgeFits.Statement (.loadLadder tag part) :=
  badgeFits_of_none _ rfl

theorem BadgeFits.loadCalendar (tag : Tag) (part : CalendarPart) : BadgeFits.Statement (.loadCalendar tag part) :=
  badgeFits_of_none _ rfl

theorem BadgeFits.copyActive (tag : Tag) : BadgeFits.Statement (.copyActive tag) :=
  badgeFits_of_none _ rfl

theorem BadgeFits.clearStaged (tag : Tag) : BadgeFits.Statement (.clearStaged tag) :=
  badgeFits_of_none _ rfl

theorem BadgeFits.armBook (tag : Tag) (day : Nat) : BadgeFits.Statement (.armBook tag day) :=
  badgeFits_of_none _ rfl

theorem BadgeFits.bookCheckComplete : BadgeFits.Statement (.bookCheckComplete) :=
  badgeFits_of_none _ rfl

theorem BadgeFits.disarmBook (tag : Tag) : BadgeFits.Statement (.disarmBook tag) :=
  badgeFits_of_none _ rfl

theorem BadgeFits.bookActivation : BadgeFits.Statement (.bookActivation) :=
  badgeFits_of_none _ rfl

theorem BadgeFits.readBook (tag : Tag) (book : BookSelector) (part : Nat) : BadgeFits.Statement (.readBook tag book part) :=
  badgeFits_of_none _ rfl

theorem BadgeFits.quote (line : Line) (fields : QuoteFields) : BadgeFits.Statement (.quote line fields) :=
  badgeFits_of_none _ rfl

theorem BadgeFits.price (line : Line) (fields : PriceFields) : BadgeFits.Statement (.price line fields) :=
  badgeFits_of_none _ rfl

theorem BadgeFits.previewQuote (tag : Tag) (fields : PreviewFields) : BadgeFits.Statement (.previewQuote tag fields) :=
  badgeFits_of_none _ rfl

theorem BadgeFits.walkBegin : BadgeFits.Statement (.walkBegin) :=
  badgeFits_of_none _ rfl

theorem BadgeFits.walkComplete : BadgeFits.Statement (.walkComplete) :=
  badgeFits_of_none _ rfl

theorem BadgeFits.hello (line : Line) : BadgeFits.Statement (.hello line) :=
  badgeFits_of_none _ rfl

theorem BadgeFits.unknownRequestKind (line : Line) : BadgeFits.Statement (.unknownRequestKind line) :=
  badgeFits_of_none _ rfl

theorem BadgeFits.frameDiscard (line : Line) : BadgeFits.Statement (.frameDiscard line) :=
  badgeFits_of_none _ rfl

theorem BadgeFits.receiveTimeout (line : Line) : BadgeFits.Statement (.receiveTimeout line) :=
  badgeFits_of_none _ rfl

theorem BadgeFits.collision (line : Line) : BadgeFits.Statement (.collision line) :=
  badgeFits_of_none _ rfl

theorem BadgeFits.replyEnd (line : Line) : BadgeFits.Statement (.replyEnd line) :=
  badgeFits_of_none _ rfl

theorem BadgeFits.configureTerminal (tag : Tag) (fields : TerminalFields) : BadgeFits.Statement (.configureTerminal tag fields) :=
  badgeFits_of_none _ rfl

theorem BadgeFits.retireTerminal (tag : Tag) (terminal : Nat) : BadgeFits.Statement (.retireTerminal tag terminal) :=
  badgeFits_of_none _ rfl

theorem BadgeFits.setConditions (tag : Tag) (terminal : Nat) (pass : BitVec 16) : BadgeFits.Statement (.setConditions tag terminal pass) :=
  badgeFits_of_none _ rfl

theorem BadgeFits.clearConditions (tag : Tag) (terminal : Nat) : BadgeFits.Statement (.clearConditions tag terminal) :=
  badgeFits_of_none _ rfl

theorem BadgeFits.lineReset (source : Source) (tag : Tag) (terminal : Nat) : BadgeFits.Statement (.lineReset source tag terminal) :=
  badgeFits_of_source _ source rfl (left_of_and)

theorem BadgeFits.testLine (tag : Tag) (badge terminal : Nat) : BadgeFits.Statement (.testLine tag badge terminal) :=
  badgeFits_of_source _ (.service badge) rfl (left_of_and)

theorem BadgeFits.endTest (tag : Tag) (badge terminal : Nat) : BadgeFits.Statement (.endTest tag badge terminal) :=
  badgeFits_of_source _ (.service badge) rfl (left_of_and)

theorem BadgeFits.testLimit (line : Line) : BadgeFits.Statement (.testLimit line) :=
  badgeFits_of_none _ rfl

theorem BadgeFits.sale (line : Line) (fields : SaleFields) : BadgeFits.Statement (.sale line fields) :=
  badgeFits_of_none _ rfl

theorem BadgeFits.logPruning : BadgeFits.Statement (.logPruning) :=
  badgeFits_of_none _ rfl

theorem BadgeFits.fetchSessions (tag : Tag) (serial count : Nat) : BadgeFits.Statement (.fetchSessions tag serial count) :=
  badgeFits_of_none _ rfl

theorem BadgeFits.readTotals (tag : Tag) (terminal : Nat) : BadgeFits.Statement (.readTotals tag terminal) :=
  badgeFits_of_none _ rfl

theorem BadgeFits.putPermit (tag : Tag) (fields : PermitFields) : BadgeFits.Statement (.putPermit tag fields) :=
  badgeFits_of_none _ rfl

theorem BadgeFits.dropPermit (tag : Tag) (number : Nat) : BadgeFits.Statement (.dropPermit tag number) :=
  badgeFits_of_none _ rfl

theorem BadgeFits.setPermitState (tag : Tag) (number state : Nat) : BadgeFits.Statement (.setPermitState tag number state) :=
  badgeFits_of_none _ rfl

theorem BadgeFits.readPermit (tag : Tag) (number selector : Nat) : BadgeFits.Statement (.readPermit tag number selector) :=
  badgeFits_of_none _ rfl

theorem BadgeFits.permitRemoval : BadgeFits.Statement (.permitRemoval) :=
  badgeFits_of_none _ rfl

theorem BadgeFits.cover (source : Source) (tag : Tag) (fields : CoverFields) : BadgeFits.Statement (.cover source tag fields) :=
  badgeFits_of_source _ source rfl (left_of_and)

theorem BadgeFits.searchBegin : BadgeFits.Statement (.searchBegin) :=
  badgeFits_of_none _ rfl

theorem BadgeFits.searchComplete : BadgeFits.Statement (.searchComplete) :=
  badgeFits_of_none _ rfl

theorem BadgeFits.setRecentWindow (tag : Tag) (window : Nat) : BadgeFits.Statement (.setRecentWindow tag window) :=
  badgeFits_of_none _ rfl

theorem BadgeFits.setCoins (tag : Tag) (values : Vector Nat 8) : BadgeFits.Statement (.setCoins tag values) :=
  badgeFits_of_none _ rfl

theorem BadgeFits.boxOut (line : Line) (label : Nat) : BadgeFits.Statement (.boxOut line label) :=
  badgeFits_of_none _ rfl

theorem BadgeFits.boxIn (line : Line) (label : Nat) : BadgeFits.Statement (.boxIn line label) :=
  badgeFits_of_none _ rfl

theorem BadgeFits.readLifts (tag : Tag) (position count : Nat) : BadgeFits.Statement (.readLifts tag position count) :=
  badgeFits_of_none _ rfl

theorem BadgeFits.openRound (tag : Tag) (badge number : Nat) : BadgeFits.Statement (.openRound tag badge number) :=
  badgeFits_of_source _ (.service badge) rfl (left_of_and)

theorem BadgeFits.roundStatus (tag : Tag) (badge : Nat) : BadgeFits.Statement (.roundStatus tag badge) :=
  badgeFits_of_source _ (.service badge) rfl (fun h => h)

theorem BadgeFits.closeRound (tag : Tag) (badge : Nat) : BadgeFits.Statement (.closeRound tag badge) :=
  badgeFits_of_source _ (.service badge) rfl (fun h => h)

theorem BadgeFits.roundLapse : BadgeFits.Statement (.roundLapse) :=
  badgeFits_of_none _ rfl

theorem BadgeFits.countResult (tag : Tag) (box value : Nat) : BadgeFits.Statement (.countResult tag box value) :=
  badgeFits_of_none _ rfl

theorem BadgeFits.setCashLimits (tag : Tag) (tolerance limit : Nat) : BadgeFits.Statement (.setCashLimits tag tolerance limit) :=
  badgeFits_of_none _ rfl

theorem BadgeFits.fault (line : Line) (kind direction : Nat) : BadgeFits.Statement (.fault line kind direction) :=
  badgeFits_of_none _ rfl

theorem BadgeFits.lineSilence (line : Line) : BadgeFits.Statement (.lineSilence line) :=
  badgeFits_of_none _ rfl

theorem BadgeFits.graceTailEnd (plan : Fin 8) : BadgeFits.Statement (.graceTailEnd plan) :=
  badgeFits_of_none _ rfl

theorem BadgeFits.ackFault (tag : Tag) (scope kind : Nat) : BadgeFits.Statement (.ackFault tag scope kind) :=
  badgeFits_of_none _ rfl

theorem BadgeFits.clearFault (source : Source) (tag : Tag) (scope kind : Nat) : BadgeFits.Statement (.clearFault source tag scope kind) :=
  badgeFits_of_source _ source rfl (fun h => left_of_and (left_of_and h))

theorem BadgeFits.readFaults (source : Source) (tag : Tag) (scope : Nat) : BadgeFits.Statement (.readFaults source tag scope) :=
  badgeFits_of_source _ source rfl (left_of_and)

theorem BadgeFits.readNotices (tag : Tag) : BadgeFits.Statement (.readNotices tag) :=
  badgeFits_of_none _ rfl

theorem BadgeFits.readSiteNotices (tag : Tag) (badge : Nat) : BadgeFits.Statement (.readSiteNotices tag badge) :=
  badgeFits_of_source _ (.service badge) rfl (fun h => h)

theorem BadgeFits.setNotices (tag : Tag) (enable call lamp : BitVec 16) : BadgeFits.Statement (.setNotices tag enable call lamp) :=
  badgeFits_of_none _ rfl

theorem BadgeFits.setAddressed (tag : Tag) (terminal : Nat) (notices : BitVec 8) : BadgeFits.Statement (.setAddressed tag terminal notices) :=
  badgeFits_of_none _ rfl

theorem BadgeFits.resetAddressed (tag : Tag) (terminal : Nat) (notices : BitVec 8) : BadgeFits.Statement (.resetAddressed tag terminal notices) :=
  badgeFits_of_none _ rfl

theorem BadgeFits.putBadge (tag : Tag) (number : Nat) (roles : BitVec 8) : BadgeFits.Statement (.putBadge tag number roles) :=
  badgeFits_of_none _ rfl

theorem BadgeFits.dropBadge (tag : Tag) (number : Nat) : BadgeFits.Statement (.dropBadge tag number) :=
  badgeFits_of_none _ rfl

theorem BadgeFits.readStatus (source : Source) (tag : Tag) : BadgeFits.Statement (.readStatus source tag) :=
  badgeFits_of_source _ source rfl (fun h => h)

theorem BadgeFits.portFrameDiscard (port : PortId) : BadgeFits.Statement (.portFrameDiscard port) :=
  badgeFits_of_none _ rfl

theorem BadgeFits.portReplyEnd (port : PortId) : BadgeFits.Statement (.portReplyEnd port) :=
  badgeFits_of_none _ rfl

theorem BadgeFits.restart (source : Source) (tag : Tag) : BadgeFits.Statement (.restart source tag) :=
  badgeFits_of_source _ source rfl (fun h => h)

theorem BadgeFits.commandedRestart (straps : BitVec 8) : BadgeFits.Statement (.commandedRestart straps) :=
  badgeFits_of_none _ rfl

theorem BadgeFits.powerUp (backupGood : Bool) (straps : BitVec 8) : BadgeFits.Statement (.powerUp backupGood straps) :=
  badgeFits_of_none _ rfl

theorem BadgeFits.nresetRelease (backupGood : Bool) (straps : BitVec 8) : BadgeFits.Statement (.nresetRelease backupGood straps) :=
  badgeFits_of_none _ rfl

theorem BadgeFits.supplyLoss : BadgeFits.Statement (.supplyLoss) :=
  badgeFits_of_none _ rfl

theorem BadgeFits.portReceiveTimeout (port : PortId) : BadgeFits.Statement (.portReceiveTimeout port) :=
  badgeFits_of_none _ rfl

theorem BadgeFits.unknownPortCommandKind (source : Source) (tag : Tag) : BadgeFits.Statement (.unknownPortCommandKind source tag) :=
  badgeFits_of_source _ source rfl (fun h => h)

theorem BadgeFits.nresetAssertion : BadgeFits.Statement (.nresetAssertion) :=
  badgeFits_of_none _ rfl

end Sys2Proof.Laws
end

