-- ==== Sys2Proof/Laws/Walks.lean ====
section
/-!
SUPPORT. Laws/Walks.lean: what the arbiter, the checks of a request and of a sale, the commit of a sale, the hand-over of an
outcome and the stages of a walk do.
-/
namespace Sys2Proof.Machine

/-- With no request waiting the arbiter finds none. -/
theorem nextSlot_none {e : Engine} (h : noRequests e) : nextSlot e = none := by
  unfold nextSlot
  rw [List.find?_eq_none]
  intro i _; simp [h i]

/-- A walk in flight keeps the arbiter from choosing (R41). -/
theorem chooseWalk_busy {s : State} (h : s.engine.walk.isSome = true) : chooseWalk s = s := by
  unfold chooseWalk arbitrate
  cases hw : s.engine.walk with
  | none => rw [hw] at h; cases h
  | some w => rfl

/-- With no request waiting nothing begins. -/
theorem chooseWalk_idle {s : State} (h : noRequests s.engine) : chooseWalk s = s := by
  unfold chooseWalk arbitrate
  rw [nextSlot_none h]
  cases hw : s.engine.walk <;> rfl

/-- The first element that satisfies a test, by its place. -/
theorem find_at {α : Type} (p : α → Bool) : ∀ (l : List α) (i : Nat) (h : i < l.length), p (l[i]) = true → (∀ j (hj : j < i), p (l[j]) = false) →
    l.find? p = some l[i] := by
  intro l
  induction l with
  | nil => intro i h; exact absurd h (Nat.not_lt_zero _)
  | cons a l ih =>
    intro i h hp hb
    cases i with
    | zero => simp at hp ⊢; simp [hp]
    | succ i =>
      have h0 := hb 0 (by omega)
      simp at h0
      rw [List.find?_cons, h0]
      simp only [List.getElem_cons_succ] at hp ⊢
      apply ih i _ hp
      intro j hj
      have := hb (j + 1) (by omega)
      simpa using this

/-- The first request in turn is the one found (R41). -/
theorem nextSlot_first {e : Engine} {i : Fin 17} {r : WalkRequest} (h : firstInTurn e i r) : nextSlot e = some i := by
  obtain ⟨hr, k, hk, hb⟩ := h
  unfold nextSlot slotOrder
  have hl : ((List.finRange 17).map fun i => e.last + 1 + i).length = 17 := by simp
  have := find_at (fun i => (row e.slots i).isSome) ((List.finRange 17).map fun i => e.last + 1 + i) k.val (by rw [hl]; exact k.isLt)
    (by simp [← hk, hr]) (by intro j hj; simp [hb ⟨j, by omega⟩ hj])
  rw [this]
  simp [← hk]

/-- The first request in turn begins, while the clock is SET (R41, R42). -/
theorem chooseWalk_first {s : State} {i : Fin 17} {r : WalkRequest} (hw : s.engine.walk = none) (hc : s.clock.state = .set)
    (h : firstInTurn s.engine i r) : chooseWalk s = startWalk (walkOf s i r) (onEngine (fun e => e.taken i) s) := by
  unfold chooseWalk arbitrate
  rw [hw, nextSlot_first h]
  dsimp only
  rw [h.1]
  dsimp only
  rw [if_pos (by simp [clockSet, hc])]

/-- A terminal's slot is its own. -/
theorem slotLine_lineSlot (n : Line) : slotLine (lineSlot n) = n := by
  unfold slotLine lineSlot
  apply Fin.ext
  simp [Fin.ofNat]

/-- Every slot has its turn. -/
theorem exists_turn (last i : Fin 17) : ∃ k : Fin 17, i = last + 1 + k := ⟨i - (last + 1), by omega⟩

/-- A request put where no other waits is the first in turn. -/
theorem only_first {e : Engine} (h : noRequests e) (i : Fin 17) (r : WalkRequest) :
    firstInTurn { e with slots := put e.slots i (some r) } i r := by
  refine ⟨row_put_self _ _ _, i - (e.last + 1), by dsimp only; omega, ?_⟩
  intro j hj
  dsimp only
  rw [row_put_other]
  · exact h _
  · intro he
    have : j = i - (e.last + 1) := by omega
    rw [this] at hj; exact absurd hj (by omega)

/-- A request placed while a walk is in flight waits (R41). -/
theorem placeRequest_waits {s : State} (i : Fin 17) (r : WalkRequest) (h : s.engine.walk.isSome = true) :
    placeRequest i r s = onEngine (fun e => { e with slots := put e.slots i (some r) }) s := by
  unfold placeRequest; rw [chooseWalk_busy]; exact h

/-- A request placed while the engine is free begins at once (R41). -/
theorem placeRequest_begins {s : State} (i : Fin 17) (r : WalkRequest) (hw : s.engine.walk = none) (hc : s.clock.state = .set)
    (h : noRequests s.engine) : placeRequest i r s = { s with
      books := s.books.hold s.books.view
      engine := { s.engine with last := i, walk := some (walkOf s i r) } } := by
  unfold placeRequest
  rw [chooseWalk_first (s := onEngine (fun e => { e with slots := put e.slots i (some r) }) s) (i := i) (r := r) hw hc (only_first h i r)]
  have hs : put (put s.engine.slots i (some r)) i none = s.engine.slots := by
    apply table_ext; intro j
    rw [row_put]; split
    · rename_i hj; rw [hj, h i]
    · rename_i hj; rw [row_put_other _ _ hj]
  have hwalk : walkOf (onEngine (fun e => { e with slots := put e.slots i (some r) }) s) i r = walkOf s i r := by
    unfold walkOf; rfl
  rw [hwalk]
  show ({ s with books := s.books.hold (walkOf s i r).view, engine := _ } : State) = _
  have hv : (walkOf s i r).view = s.books.view := by unfold walkOf; split <;> rfl
  rw [hv]
  unfold Engine.taken
  dsimp only
  congr 1
  show ({ slots := put (put s.engine.slots i (some r)) i none, last := i, walk := some (walkOf s i r) } : Engine) = _
  rw [hs]

/-- A permit that carries a visitor payment (R87). -/
theorem visitorRefusal_none (p : Option Permit) (plan : Fin 8) (day : Nat) :
    visitorRefusal p plan day = none ↔ ∃ q b, p = some q ∧ q.kind = .visitorBook b ∧ q.covers plan day = true := by
  unfold visitorRefusal
  cases p with
  | none => simp
  | some q =>
    dsimp only
    cases hk : q.kind <;> cases hc : q.covers plan day <;> simp [Permit.visitorBook?, hk, hc]

/-- A service state that allows a pay kind (R87). -/
theorem serviceRefusal_none (v : Service) (k : PayKind) : serviceRefusal v k = none ↔
    v ≠ .outOfService ∧ (k = .cash → v ≠ .cashOut ∧ v ≠ .paymentOut) ∧ (k = .card → v ≠ .cardOut ∧ v ≠ .paymentOut) := by
  unfold serviceRefusal
  cases v <;> cases k <;> simp

/-- A request that no check of R87 refuses. -/
theorem askRefusal_none (s : State) (n : Line) (r : WalkRequest) : askRefusal s n r = none ↔
    (Ask.payKind r.ask = .cash → (row s.table n).takesCoins = true) ∧
    (Ask.payKind r.ask = .card → (row s.table n).takesCards = true) ∧
    ((row s.table n).asksMark = true ∨ Ask.payKind r.ask = .visitor → r.mark.isSome = true) ∧
    s.books.activeState = .inForce ∧ s.clock.state = .set ∧ serviceState s n ≠ .outOfService ∧
    (Ask.payKind r.ask = .cash → serviceState s n ≠ .cashOut ∧ serviceState s n ≠ .paymentOut) ∧
    (Ask.payKind r.ask = .card → serviceState s n ≠ .cardOut ∧ serviceState s n ≠ .paymentOut) := by
  have hs := serviceRefusal_none (serviceState s n) (Ask.payKind r.ask)
  unfold askRefusal
  dsimp only
  generalize serviceRefusal (serviceState s n) (Ask.payKind r.ask) = x at *
  generalize serviceState s n = v at *
  unfold clockSet
  cases hk : Ask.payKind r.ask <;> cases h1 : (row s.table n).takesCoins <;> cases h2 : (row s.table n).takesCards <;>
    cases h3 : (row s.table n).asksMark <;> cases h4 : r.mark <;> cases h5 : s.books.activeState <;> cases h6 : s.clock.state <;>
    simp [hs, hk]

/-- A QUOTE the line takes reaches the checks of R87. -/
theorem execQuote_taken {s : State} {n : Line} (h : lineTakes s n) (f : QuoteFields) (r : WalkRequest) (hf : quoteRequest f = some r) :
    exec (.quote n f) s = .next (takeAsk n r (asTaken s n .quote)) := by
  show Host.Outcome.next _ = _
  rw [whenRunning_true h.1.1, hf]
  show Host.Outcome.next (takeFrame n (some .quote) true (takeAsk n r) s) = _
  rw [takeFrame_accepted h]

/-- A PRICE the line takes reaches the checks of R87. -/
theorem execPrice_taken {s : State} {n : Line} (h : lineTakes s n) (f : PriceFields) (r : WalkRequest) (hf : priceRequest f = some r) :
    exec (.price n f) s = .next (takeAsk n r (asTaken s n .price)) := by
  show Host.Outcome.next _ = _
  rw [whenRunning_true h.1.1, hf]
  show Host.Outcome.next (takeFrame n (some .price) true (takeAsk n r) s) = _
  rw [takeFrame_accepted h]

/-- A request that passes the checks is placed (R87). -/
theorem takeAsk_allowed {s : State} {n : Line} {r : WalkRequest} (h : askAllowed s n r) :
    takeAsk n r s = acceptAsk n r { s with permits := permitsAsRead s n r } := by
  obtain ⟨a1, a2, a3, a4, a5, a6, a7, a8, a9⟩ := h
  unfold takeAsk
  rw [(askRefusal_none s n r).mpr ⟨a1, a2, a3, a4, a5, a6, a7, a8⟩]
  dsimp only
  unfold permitsAsRead
  cases hmode : (row s.table n).mode with
  | test => cases r.ask with
    | forward p => cases p <;> rfl
    | reverse _ _ => rfl
  | normal => cases hask : r.ask with
    | reverse _ _ => rfl
    | forward p => cases p with
      | cash _ => rfl
      | card _ => rfl
      | visitor minutes permit =>
        have hv : visitorRefusal (findPermit (refreshPermit permit s).permits permit) (row (refreshPermit permit s).table n).plan (today (refreshPermit permit s)) = none := by
          rw [visitorRefusal_none]
          obtain ⟨p, b, h1, h2, h3⟩ := a9 minutes permit hask hmode
          exact ⟨p, b, h1, h2, h3⟩
        dsimp only
        rw [hv]
        rfl

/-- The permits a request reads are those of the state before it was taken. -/
theorem permitsAsRead_taken (s : State) (n : Line) (k : RequestKind) (r : WalkRequest) :
    permitsAsRead (asTaken s n k) n r = permitsAsRead s n r := by
  unfold permitsAsRead
  have hm : (row (asTaken s n k).table n).mode = (row s.table n).mode := by
    unfold asTaken; rw [acceptRequest_table, heard_records s n |>.1]
  rw [hm]; rfl

/-- A SALE the line takes reaches the checks of R99. -/
theorem execSale_taken {s : State} {n : Line} (h : lineTakes s n) (f : SaleFields) (number : Nat) (m : SaleMoney) (hf : readSale f = some (number, m)) :
    exec (.sale n f) s = .next (takeSale n number m (asTaken s n .sale)) := by
  show Host.Outcome.next _ = _
  rw [whenRunning_true h.1.1, hf]
  show Host.Outcome.next (takeFrame n (some .sale) true (takeSale n number m) s) = _
  rw [takeFrame_accepted h]

/-- A fresh quote, in the terms of the claims (R100). -/
theorem quoteIsFresh_iff (s : State) (q : OpenQuote) (k : PayKind) : quoteIsFresh s q k = true ↔ freshFor s q k := by
  unfold quoteIsFresh freshFor
  simp [and_assoc]

/-- Freshness is read from the state before the request was taken. -/
theorem quoteIsFresh_taken (s : State) (n : Line) (j : RequestKind) (q : OpenQuote) (k : PayKind) : quoteIsFresh (asTaken s n j) q k = quoteIsFresh s q k := rfl

/-- The register after the refresh a visitor SALE makes (R124). -/
theorem refreshForSale_permits (q : OpenQuote) (m : SaleMoney) (s : State) : (refreshForSale q m s).permits =
    match m, q.result.terms with
    | .visitor, .visitor permit _ => refreshIn s.permits permit (today s)
    | _, _ => s.permits := by
  unfold refreshForSale
  cases m <;> cases q.result.terms <;> rfl

/-- That refresh changes the register alone. -/
theorem refreshForSale_eq (q : OpenQuote) (m : SaleMoney) (s : State) : refreshForSale q m s = { s with permits :=
    match m, q.result.terms with
    | .visitor, .visitor permit _ => refreshIn s.permits permit (today s)
    | _, _ => s.permits } := by
  unfold refreshForSale
  cases m <;> cases q.result.terms <;> rfl

/-- Counts that amount to what is declared and reach the price (R101). -/
theorem cashMatches_iff (coins counts : Vector Nat 8) (a p : Nat) : cashMatches coins counts a p = true ↔
    (∀ i, row counts i = 0 ∨ 0 < row coins i) ∧ (valueOf coins counts = a ∨ valueOf coins counts = p) := by
  unfold cashMatches
  rw [Bool.and_eq_true, allRows_iff]
  simp

/-- The payment checks of a money SALE, in order (R99, R101). -/
theorem paymentRefusal_money (s : State) (q : OpenQuote) (m : SaleMoney) (hm : m ≠ .visitor) :
    (paymentAgrees s q m → paymentRefusal s q m = none) ∧ (¬ paymentAgrees s q m → paymentRefusal s q m = some .mismatch) := by
  unfold paymentRefusal paymentAgrees
  cases m with
  | visitor => exact absurd rfl hm
  | cash counts =>
    dsimp only
    cases ht : q.result.terms with
    | visitor a b => simp [moneyMatches]
    | money a p e =>
      have := cashMatches_iff s.cash.coins counts a p
      have hmm : moneyMatches s (.cash counts) (.money a p e) = cashMatches s.cash.coins counts a p := rfl
      constructor
      · rintro ⟨a', p', e', he, h1, h2⟩
        cases he
        rw [if_pos (hmm.trans (this.mpr ⟨h1, h2⟩))]
      · intro hno
        rw [if_neg]; rw [hmm]; intro hh; exact hno ⟨a, p, e, rfl, (this.mp hh).1, (this.mp hh).2⟩
  | card paid =>
    dsimp only
    cases ht : q.result.terms with
    | visitor a b => simp [moneyMatches]
    | money a p e =>
      have hmm : moneyMatches s (.card paid) (.money a p e) = decide (paid = p) := rfl
      constructor
      · rintro ⟨a', e', he⟩
        cases he; rw [if_pos (by rw [hmm]; simp)]
      · intro hno
        rw [if_neg]; rw [hmm]; intro hh; exact hno ⟨a, e, by simp at hh; rw [hh]⟩

/-- A permit found after a refresh. -/
theorem findPermit_refresh (l : List Permit) (n d : Nat) : findPermit (refreshIn l n d) n = (lookup Permit.number n l).map fun p => p.refreshed d := by
  have := lookup_refreshIn l n d n
  unfold findPermit
  rw [this]; simp

/-- Only a visitor book is refreshed (R124). -/
theorem refreshed_other (p : Permit) (d : Nat) (h : ∀ b, p.kind ≠ .visitorBook b) : p.refreshed d = p := by
  unfold Permit.refreshed; cases hk : p.kind <;> first | rfl | (exact absurd hk (h _))

/-- A refresh leaves what a permit covers. -/
theorem refreshed_covers (p : Permit) (d : Nat) (plan : Fin 8) (day : Nat) : (p.refreshed d).covers plan day = p.covers plan day := by
  unfold Permit.refreshed; cases hk : p.kind <;> rfl

/-- The late checks of R99 pass. -/
theorem lateRefusal_none (s : State) (n : Line) (k : PayKind) : lateRefusal s n k = none ↔ serviceAllows (serviceState s n) k ∧
    s.sales.nextSerial ≠ none ∧ logHasRoom s.sales.log (now s) = true := by
  unfold lateRefusal serviceAllows
  have := serviceRefusal_none (serviceState s n) k
  cases hs : serviceRefusal (serviceState s n) k with
  | some st =>
    rw [hs] at this
    constructor
    · intro h; cases h
    · intro h; exact absurd (this.mpr h.1) (by simp)
  | none =>
    dsimp only
    have t := this.mp hs
    cases hn : s.sales.nextSerial <;> cases hl : logHasRoom s.sales.log (now s) <;> first | (simp; exact t) | simp

/-- The log takes a record: below its room, or with an expired record to drop (R107). -/
theorem logHasRoom_iff (log : List Session) (z : ZoneMinute) : logHasRoom log z = true ↔ log.length < 4096 ∨ ∃ r ∈ log, r.expiry ≤ z := by
  unfold logHasRoom expiredRecord
  simp

/-- A debit keeps the permit's number. -/
theorem debited_number (p : Permit) (d : Nat) : (p.debited d).number = p.number := by
  unfold Permit.debited; split <;> rfl

/-- A list changed at one number, looked up. -/
theorem lookup_mapAt (l : List Permit) (g : Permit → Permit) (hg : ∀ p, (g p).number = p.number) (n m : Nat) :
    lookup Permit.number m (l.map fun p => if p.number = n then g p else p) =
      (lookup Permit.number m l).map fun p => if m = n then g p else p := by
  induction l with
  | nil => rfl
  | cons p l ih =>
    unfold lookup at *
    rw [List.map_cons, List.find?_cons, List.find?_cons]
    have hk : Permit.number (if p.number = n then g p else p) = p.number := by
      split
      · exact hg p
      · rfl
    rw [hk]
    by_cases h : p.number = m
    · simp [h]
    · have : (p.number == m) = false := by simpa using h
      rw [this]; exact ih

/-- The register after a debit (R126). -/
theorem debitPermit_permits (number minutes : Nat) (s : State) : (debitPermit number minutes s).permits =
    s.permits.map fun p => if p.number = number then p.debited minutes else p := by
  unfold debitPermit; dsimp only; split <;> rfl

/-- The cash unit after coins are added: one tally alone (R145). -/
theorem addCoins_cash (n : Line) (counts : Vector Nat 8) (s : State) :
    (∀ i, row (tallyOf (addCoins n counts s) n).counts i = row (tallyOf s n).counts i + row counts i) ∧
      sameBut n s.cash.tallies (addCoins n counts s).cash.tallies ∧ (addCoins n counts s).cash.lifts = s.cash.lifts ∧
      (addCoins n counts s).cash.coins = s.cash.coins := by
  obtain ⟨u, hu⟩ : ∃ x, x = onTally n (fun t => { t with counts := Vector.ofFn fun i => row t.counts i + row counts i }) s := ⟨_, rfl⟩
  have hdef : addCoins n counts s = markFull n (markNear n u) := by rw [hu]; rfl
  have huc := onTally_put n (fun t => { t with counts := Vector.ofFn fun i => row t.counts i + row counts i }) s
  rw [← hu] at huc
  have hut : tallyOf u n = { tallyOf s n with counts := Vector.ofFn fun i => row (tallyOf s n).counts i + row counts i } := by rw [hu]; exact onTally_tally _ _ _
  have h1 := markNear_cash n u
  have h1t := tally_of_cash h1
  have h2 := markFull_cash n (markNear n u)
  have h2t := tally_of_cash h2
  rw [hdef]
  refine ⟨?_, ?_, ?_, ?_⟩
  · intro i; rw [h2t]; show row (tallyOf (markNear n u) n).counts i = _; rw [h1t]; show row (tallyOf u n).counts i = _; rw [hut]
    exact row_ofFn _ _
  · rw [h2, h1, huc]; dsimp only; rw [put_put, put_put]; exact sameBut_put _ _ _
  · rw [h2, h1, huc]
  · rw [h2, h1, huc]

/-- LOG_PRESSURE beginning changes the pressure mark alone (R108). -/
theorem feelPressure_sales (s : State) : ∃ b, (feelPressure s).sales = { s.sales with pressure := b } := by
  unfold feelPressure
  split
  · exact ⟨true, rfl⟩
  · exact ⟨s.sales.pressure, rfl⟩

/-- LOG_PRESSURE ending changes the pressure mark alone (R108). -/
theorem easePressure_sales (s : State) : ∃ b, (easePressure s).sales = { s.sales with pressure := b } := by
  unfold easePressure
  split
  · exact ⟨false, rfl⟩
  · exact ⟨s.sales.pressure, rfl⟩

/-- The record dropped for room is the expired one of lowest serial (R107). -/
theorem expiredRecord_first {log : List Session} {z : ZoneMinute} (hr : Rising Session.serial log) (he : ∃ r ∈ log, r.expiry ≤ z) :
    ∃ old, expiredRecord log z = some old ∧ old ∈ log ∧ old.expiry ≤ z ∧ ∀ x ∈ log, x.expiry ≤ z → old.serial ≤ x.serial := by
  unfold expiredRecord
  induction log with
  | nil => obtain ⟨r, h, _⟩ := he; cases h
  | cons a l ih =>
    have hp := List.pairwise_cons.mp hr
    by_cases ha : a.expiry ≤ z
    · refine ⟨a, by simp [ha], by simp, ha, ?_⟩
      intro x hx _
      rcases List.mem_cons.mp hx with rfl | hx
      · exact Nat.le_refl _
      · exact Nat.le_of_lt (hp.1 x hx)
    · obtain ⟨r, hr', hz⟩ := he
      have hr'' : r ∈ l := by
        rcases List.mem_cons.mp hr' with rfl | h
        · exact absurd hz ha
        · exact h
      obtain ⟨old, h1, h2, h3, h4⟩ := ih hp.2 ⟨r, hr'', hz⟩
      refine ⟨old, by simp [ha, h1], List.mem_cons_of_mem _ h2, h3, ?_⟩
      intro x hx hxz
      rcases List.mem_cons.mp hx with rfl | hx
      · exact absurd hxz ha
      · exact h4 x hx hxz

/-- The commit of a SALE, block by block (R102). -/
theorem commitSale_spec (n : Line) (q : OpenQuote) (m : SaleMoney) (serial : Nat) (s : State) :
    ∃ v, v = takePayment n m q.result.terms (onSales (fun u => u.committed n (sessionOf s n q m serial) (now s)) s) ∧
    (∃ b, (commitSale n q m serial s).sales = { s.sales.committed n (sessionOf s n q m serial) (now s) with pressure := b, totals := change s.sales.totals n (onDayRecord (today s) fun d => d.withSale (sessionOf s n q m serial).kind (sessionOf s n q m serial).payment (paidValue s.cash.coins m) (sessionOf s n q m serial).overpaid) }) ∧
    (commitSale n q m serial s).quotes = put s.quotes n none ∧ (commitSale n q m serial s).cash = v.cash ∧ (commitSale n q m serial s).permits = v.permits ∧
    ∃ w, w.lines = s.lines ∧ commitSale n q m serial s = answerPending n .ok (soldBody (sessionOf s n q m serial) q.result.terms) w := by
  refine ⟨_, rfl, ?_, ?_, ?_, ?_, ?_⟩
  · unfold commitSale
    dsimp only
    rw [answerPending_sales]
    obtain ⟨x, hx⟩ : ∃ x, x = takePayment n m q.result.terms (onSales (fun u => u.committed n (sessionOf s n q m serial) (now s)) s) := ⟨_, rfl⟩
    have hxs : x.sales = s.sales.committed n (sessionOf s n q m serial) (now s) := by rw [hx, takePayment_sales]; rfl
    have hxc : x.clock = s.clock := by rw [hx, takePayment_clock]; rfl
    rw [← hx]
    obtain ⟨y, hy⟩ : ∃ y, y = cancelQuote n (onToday n (fun d => d.withSale (sessionOf s n q m serial).kind (sessionOf s n q m serial).payment (paidValue s.cash.coins m) (sessionOf s n q m serial).overpaid) x) := ⟨_, rfl⟩
    have hys : y.sales = { x.sales with totals := change x.sales.totals n (onDayRecord (today x) fun d => d.withSale (sessionOf s n q m serial).kind (sessionOf s n q m serial).payment (paidValue s.cash.coins m) (sessionOf s n q m serial).overpaid) } := by rw [hy]; rfl
    have htd : today x = today s := by unfold today; rw [hxc]
    rw [← hy]
    obtain ⟨b, hb⟩ := easePressure_sales (feelPressure y)
    obtain ⟨b', hb'⟩ := feelPressure_sales y
    refine ⟨b, ?_⟩
    rw [hb, hb', hys, htd, hxs]
    rfl
  · unfold commitSale
    dsimp only
    rw [answerPending_quotes, easePressure_quotes, feelPressure_quotes]
    show put (takePayment n m q.result.terms _).quotes n none = _
    rw [takePayment_quotes]; rfl
  · unfold commitSale
    dsimp only
    rw [answerPending_cash, easePressure_cash, feelPressure_cash]; rfl
  · unfold commitSale
    dsimp only
    rw [answerPending_permits, easePressure_permits, feelPressure_permits]; rfl
  · refine ⟨_, ?_, rfl⟩
    rw [easePressure_lines, feelPressure_lines]
    show (takePayment n m q.result.terms _).lines = _
    rw [takePayment_lines]; rfl

/-- The comparisons of the log after a commit (R108). -/
theorem pressure_spec (s : State) :
    let t := easePressure (feelPressure s)
    t.sales = { s.sales with pressure := decide (3840 ≤ s.sales.log.length) || (s.sales.pressure && decide (3072 < s.sales.log.length)) } ∧
    t.faults.terminals = s.faults.terminals ∧
    row t.faults.zone 3 = (if s.sales.pressure = false ∧ 3840 ≤ s.sales.log.length then (row s.faults.zone 3).raised (now s) none
          else if s.sales.pressure = true ∧ s.sales.log.length ≤ 3072 then clearedNow s (row s.faults.zone 3)
          else row s.faults.zone 3) ∧
    (∀ k, k ≠ 3 → row t.faults.zone k = row s.faults.zone k) ∧
    ∀ m, m ≠ .faultOpened → m ≠ .faultCleared → adds m false s.notices t.notices := by
  intro t
  by_cases hr : s.sales.pressure = false ∧ 3840 ≤ s.sales.log.length
  · obtain ⟨u, hu⟩ : ∃ u, u = feelPressure s := ⟨_, rfl⟩
    have hu2 : u = raiseZone .logPressure none (onSales (fun u => { u with pressure := true }) s) := by
      rw [hu]; unfold feelPressure; rw [if_pos (by simp [hr.1, hr.2])]
    have hus : u.sales = { s.sales with pressure := true } := by rw [hu2, raiseZone_sales]; rfl
    have ht : t = u := by
      show easePressure (feelPressure s) = u
      rw [← hu]; unfold easePressure; rw [if_neg]
      rw [hus]; simp; omega
    rw [ht]
    refine ⟨by rw [hus]; simp [hr.2], by rw [hu2]; rfl, ?_, ?_, ?_⟩
    · rw [if_pos hr, hu2, raiseZone_faults]; exact row_put_self _ _ _
    · intro k hk; rw [hu2, raiseZone_faults]; exact row_put_other _ _ hk
    · intro m h1 _
      rw [hu2]
      have := adds_cond m .faultOpened ((row s.faults.zone 3).state != .opened) s.notices
      rw [decide_eq_false h1] at this
      exact this
  · have hf : feelPressure s = s := by
      unfold feelPressure; rw [if_neg]; simpa using hr
    have ht : t = easePressure s := by show easePressure (feelPressure s) = _; rw [hf]
    rw [ht]
    obtain ⟨e1, e2, e3, e4, e5, e6, e8, e9, e9'⟩ := easePressure_spec s
    obtain ⟨b, hb⟩ := easePressure_sales s
    refine ⟨?_, e5, ?_, ?_, ?_⟩
    · rw [hb] at e8 ⊢
      dsimp only at e8
      rw [e8]
      have : (s.sales.pressure && decide (3072 < s.sales.log.length)) =
          (decide (3840 ≤ s.sales.log.length) || (s.sales.pressure && decide (3072 < s.sales.log.length))) := by
        rw [Bool.eq_iff_iff]; simp
        intro h; refine ⟨?_, by omega⟩
        cases hp : s.sales.pressure
        · exact absurd ⟨hp, h⟩ hr
        · rfl
      rw [← this]
    · rw [if_neg hr]
      by_cases hc : s.sales.pressure = true ∧ s.sales.log.length ≤ 3072
      · rw [if_pos hc, e9 hc, row_put_self]
      · rw [if_neg hc, e9' hc]
    · intro k hk
      by_cases hc : s.sales.pressure = true ∧ s.sales.log.length ≤ 3072
      · rw [e9 hc, row_put_other _ _ hk]
      · rw [e9' hc]
    · intro m _ h2
      have := easePressure_adds s m
      rw [decide_eq_false h2] at this
      exact this

/-- The commit of a SALE at the fault unit and in the notices (R102, R108, R126, R145): what the payment does there, and the comparisons
of the log. -/
theorem commitSale_faults (n : Line) (q : OpenQuote) (m : SaleMoney) (serial : Nat) (s : State) :
    let v := takePayment n m q.result.terms (onSales (fun u => u.committed n (sessionOf s n q m serial) (now s)) s)
    let t := commitSale n q m serial s
    t.sales.pressure = (decide (3840 ≤ t.sales.log.length) || (s.sales.pressure && decide (3072 < t.sales.log.length))) ∧
      t.faults.terminals = v.faults.terminals ∧
      row t.faults.zone 3 = (if s.sales.pressure = false ∧ 3840 ≤ t.sales.log.length then (row v.faults.zone 3).raised (now s) none
          else if s.sales.pressure = true ∧ t.sales.log.length ≤ 3072 then clearedNow s (row v.faults.zone 3)
          else row v.faults.zone 3) ∧
      (∀ k, k ≠ 3 → row t.faults.zone k = row v.faults.zone k) ∧
      ∀ j, j ≠ .faultOpened → j ≠ .faultCleared → adds j false v.notices t.notices := by
  intro v t
  obtain ⟨x, hx⟩ : ∃ x, x = cancelQuote n (onToday n (fun d => d.withSale (sessionOf s n q m serial).kind (sessionOf s n q m serial).payment
    (paidValue s.cash.coins m) (sessionOf s n q m serial).overpaid) v) := ⟨_, rfl⟩
  have ht : t = answerPending n .ok (soldBody (sessionOf s n q m serial) q.result.terms) (easePressure (feelPressure x)) := by rw [hx]; rfl
  obtain ⟨k1, k2, k3, k4, k5⟩ := pressure_spec x
  have x1 : x.faults = v.faults := by rw [hx]; rfl
  have x2 : x.notices = v.notices := by rw [hx]; rfl
  have x3 : x.sales.pressure = s.sales.pressure := by
    rw [hx]; show (takePayment n m q.result.terms _).sales.pressure = _; rw [takePayment_sales]; rfl
  have x4 : now x = now s := by
    rw [hx]; unfold now; show (takePayment n m q.result.terms _).clock.reading = _; rw [takePayment_clock]; rfl
  have hs : t.sales = (easePressure (feelPressure x)).sales := by rw [ht, answerPending_sales]
  have hl : t.sales.log = x.sales.log := by rw [hs, k1]
  rw [ht, answerPending_faults, answerPending_notices, ← x1, ← x2, ← x3, ← x4]
  rw [← ht, hl]
  refine ⟨by rw [hs, k1], k2, ?_, k4, k5⟩
  rw [k3]; unfold clearedNow; rw [x4]

/-- The service state an accepted request is judged in. -/
theorem taken_service (s : State) (n : Line) (k : RequestKind) : serviceState (asTaken s n k) n = serviceState (heard n s) n := by
  unfold asTaken serviceState; rw [acceptRequest_table, acceptRequest_faults]

/-! ## The end of a walk -/

/-- A day's record changed where it stands is found so. -/
theorem lookup_mapDay (day : Nat) (f : DayRecord → DayRecord) (hf : ∀ r, (f r).day = r.day) (l : List DayRecord) (d : Nat) :
    lookup DayRecord.day d (l.map fun r => if r.day = day then f r else r) =
      (lookup DayRecord.day d l).map fun r => if d = day then f r else r := by
  induction l with
  | nil => rfl
  | cons a l ih =>
    rw [List.map_cons]
    have hk : DayRecord.day (if a.day = day then f a else a) = a.day := by
      split
      · exact hf a
      · rfl
    unfold lookup at *
    rw [List.find?_cons, List.find?_cons, hk]
    by_cases h : a.day = d
    · subst h; simp
    · have : (a.day == d) = false := by simpa using h
      rw [this]; exact ih

/-- The records of a terminal after a change of today's (R111, R112). -/
theorem recordBecomes_onDayRecord (day : Nat) (f : DayRecord → DayRecord) (hf : ∀ r, (f r).day = r.day) (l : List DayRecord) :
    recordBecomes day f l (onDayRecord day f l) := by
  unfold recordBecomes onDayRecord
  simp only [lookup_mapDay day f hf]
  unfold withDayRecord
  cases h : lookup DayRecord.day day l with
  | some d =>
    rw [if_pos (by rfl)]
    refine ⟨by rw [h]; simp, fun _ k hk => by simp [hk], fun h' => (by cases h')⟩
  | none =>
    rw [if_neg (by simp)]
    refine ⟨?_, ?_, ?_⟩
    · have := lookup_upsert_self DayRecord.day (DayRecord.blank day) (if totalsRoom ≤ l.length then l.drop 1 else l)
      rw [show DayRecord.day (DayRecord.blank day) = day from rfl] at this
      rw [this]; simp
    · rintro h8 k hk
      have h8 : l.length < 8 := by
        rcases h8 with h8 | h8
        · exact absurd rfl h8
        · exact h8
      rw [if_neg (Nat.not_le.mpr h8), lookup_upsert_other _ _ _ hk]; simp [hk]
    · intro _ h8 k hk
      rw [if_pos h8, lookup_upsert_other _ _ _ hk]; simp [hk]

/-- A change of today's record, in the terms of the claims. -/
theorem todayBecomes_of {n : Line} {f : DayRecord → DayRecord} (hf : ∀ r, (f r).day = r.day) {s t : State}
    (h : t.sales = { s.sales with totals := change s.sales.totals n (onDayRecord (today s) f) }) : todayBecomes n f s t := by
  refine ⟨by rw [h], by rw [h]; exact sameBut_change _ _ _, ?_⟩
  rw [h]
  dsimp only
  rw [row_change_self]
  exact recordBecomes_onDayRecord _ _ hf _

/-- What WALK_COMPLETE is: the walk's outcome delivered in the state with the engine free and the holds cleared, and then what WALK_BEGIN
does (R41, R43). -/
theorem exec_walkComplete {s : State} (hr : running s = true) {w : Walk} (hw : s.engine.walk = some w) :
    ∃ v, onlyChanges [.books, .engine, .permits] s v ∧ ∀ u, u = deliver w (runStages walkFuel s w).2 v →
      walkFreed w s u ∧ ∃ t, exec .walkComplete s = .next t ∧ exec .walkBegin u = .next t ∧ (noRequests s.engine → t = u) := by
  have hp : onlyChanges [.permits] s (runStages walkFuel s w).1 := runStages_frame s _ w
  obtain ⟨x, hx⟩ : ∃ x, x = (runStages walkFuel s w).1 := ⟨_, rfl⟩
  rw [← hx] at hp
  obtain ⟨v, hv⟩ : ∃ v, v = onEngine (fun e => { e with walk := none }) (onBooks (fun b => b.clearHolds w.view) x) := ⟨_, rfl⟩
  have hfv : onlyChanges [.books, .engine, .permits] s v := by
    rw [hv]; exact ((hp.trans (onBooks_frame x _)).trans (onEngine_frame _ _)).mono (by decide)
  refine ⟨v, hfv, fun u hu => ?_⟩
  have hue : u.engine = { s.engine with walk := none } := by
    rw [hu, deliver_engine, hv, ← hp .engine (by decide)]; rfl
  have hub : u.books = s.books.clearHolds w.view := by
    rw [hu, deliver_books, hv, ← hp .books (by decide)]; rfl
  have hru : running u = true := by
    have : u.pins = s.pins := by rw [hu, deliver_pins]; exact hfv .pins (by decide)
    unfold running at *; rw [this]; exact hr
  have h1 : exec .walkComplete s = .next (chooseWalk u) := by
    show Host.Outcome.next _ = _
    rw [whenRunning_true hr, hw, hu, hv, hx]; rfl
  have h2 : exec .walkBegin u = .next (chooseWalk u) := by
    show Host.Outcome.next _ = _
    rw [whenRunning_true hru]
  refine ⟨⟨hue, hub⟩, chooseWalk u, h1, h2, fun hn => chooseWalk_idle ?_⟩
  rw [hue]; exact hn

/-- A part that turns out unchanged leaves the list. -/
theorem onlyChanges.without {l k : List Part} {s t : State} {p : Part} (h : onlyChanges l s t) (hp : p.agree s t)
    (hl : ∀ q ∈ l, q ∈ k ∨ q = p) : onlyChanges k s t := by
  intro q hq
  by_cases hqp : q = p
  · rw [hqp]; exact hp
  · exact h q fun hql => (hl q hql).elim hq hqp

/-- CONDITION_HELD is latched for a refusing condition that is not yet sticky (R51). -/
theorem addSticky_latch (n : Line) (o : WalkOutcome) (s : State) : (addSticky n o s).notices =
    if ∃ q, o.heldBy = some q ∧ q.isIn (row s.table n).sticky = false then latchIn .conditionHeld s.notices else s.notices := by
  have key : ∀ b : Bool, (if b then latch .conditionHeld s else s).notices = if b then latchIn .conditionHeld s.notices else s.notices := by
    intro b; cases b <;> rfl
  unfold addSticky
  rw [onEntry_notices]
  rw [key]
  cases o.heldBy <;> simp

/-- The sticky set after a walk's outcome (R51). -/
theorem addSticky_table (n : Line) (o : WalkOutcome) (s : State) :
    (addSticky n o s).table = change s.table n fun e => { e with sticky := e.sticky ||| o.conds } := by
  unfold addSticky
  rw [onEntry_table]
  split
  · split <;> rfl
  · rfl

/-- The outcome of a walk not marked for discard, as the terminal controller takes it up: the state `m` in which the sticky set and
the totals have it, and then the open quote or the answer (R51, R88, R112). -/
theorem terminalOutcome_spec (n : Line) (w : Walk) (o : WalkOutcome) (s : State) (hw : w.discard = false) :
    ∃ m, (∀ r, o = .result r → terminalOutcome n w o s = openQuote n r m) ∧
      (∀ st k c, o = .refused st (some k) c → terminalOutcome n w o s = answerPending n st (.held k c) m) ∧
      (∀ st c, o = .refused st none c → terminalOutcome n w o s = answerPending n st .empty m) ∧
      onlyChanges [.table, .sales, .notices] s m ∧
      m.table = change s.table n (fun e => { e with sticky := if w.mode = .normal then e.sticky ||| o.conds else e.sticky }) ∧
      (w.mode = .test → m.sales = s.sales) ∧
      (w.mode = .normal → m.sales = { s.sales with totals := change s.sales.totals n (onDayRecord (today s) fun d => d.withWalk o) }) ∧
      m.notices = (if w.mode = .normal ∧ ∃ q, o.heldBy = some q ∧ q.isIn (row s.table n).sticky = false then
        latchIn .conditionHeld s.notices else s.notices) := by
  cases hm : w.mode with
  | normal =>
    refine ⟨addSticky n o (reportWalk n o s), ?_, ?_, ?_, ((reportWalk_frame s n o).trans (addSticky_frame _ n o)).mono (by decide),
      addSticky_table n o _, fun h => (by cases h), fun _ => ?_, ?_⟩
    · intro r h; unfold terminalOutcome; rw [hw, hm, h]; rfl
    · intro st k c h; unfold terminalOutcome; rw [hw, hm, h]; rfl
    · intro st c h; unfold terminalOutcome; rw [hw, hm, h]; rfl
    · rw [addSticky_sales]; rfl
    · rw [addSticky_latch]; simp
  | test =>
    refine ⟨s, ?_, ?_, ?_, onlyChanges_refl _ _, ?_, fun _ => rfl, fun h => (by cases h), by simp⟩
    · intro r h; unfold terminalOutcome; rw [hw, hm, h]; rfl
    · intro st k c h; unfold terminalOutcome; rw [hw, hm, h]; rfl
    · intro st c h; unfold terminalOutcome; rw [hw, hm, h]; rfl
    · apply table_ext; intro j; rw [row_change]; split
      · rename_i hj; subst hj; rfl
      · rfl

/-! ## The clock UNSET -/

/-- A request in a terminal's slot, refused CLOCK_UNSET: the line is answered, and in mode NORMAL the walk is counted (R42, R112). -/
theorem terminal_unset (n : Line) (w : Walk) (s : State) (h : w.discard = false) :
    let d := terminalOutcome n w (.refused .clockUnset none 0) s
    onlyChanges [.lines, .sales] s d ∧
      d.lines = change s.lines n (fun u => u.answered { status := .clockUnset, body := .empty } (envelopeOf s n)) ∧
      (w.mode = .test → d.sales = s.sales) ∧
      (w.mode = .normal → d.sales = { s.sales with totals := change s.sales.totals n (onDayRecord (today s)
        fun r => r.withWalk (.refused .clockUnset none 0)) }) := by
  obtain ⟨m, -, -, d3, k1, k2, k3, k4, k5⟩ := terminalOutcome_spec n w (.refused .clockUnset none 0) s h
  have hd := d3 _ _ rfl
  have m_table : m.table = s.table := by
    rw [k2]; apply table_ext; intro j; rw [row_change]; split
    · rename_i hj; subst hj
      cases w.mode <;> simp [WalkOutcome.conds]
    · rfl
  have m_not : m.notices = s.notices := by rw [k5, if_neg]; rintro ⟨-, q, h, -⟩; cases h
  intro d
  have hd' : d = answerPending n .clockUnset .empty m := hd
  rw [hd']
  refine ⟨?_, ?_, ?_, ?_⟩
  · exact ((k1.without (p := .notices) (k := [.table, .sales]) m_not (by decide)).without (p := .table) (k := [.sales]) m_table (by decide)
      |>.trans (answerPending_frame m n _ _)).mono (by decide)
  · rw [answerPending_lines, show m.lines = s.lines from k1 .lines (by decide),
      envelopeOf_congr n (k1 .clock (by decide)) m_table (k1 .faults (by decide))]
  · intro h; rw [answerPending_sales, k3 h]
  · intro h; rw [answerPending_sales, k4 h]

/-- What becomes of terminal n's waiting request while the clock is UNSET: nothing yet, or it is refused. -/
def unsetLine (s v : State) (n : Line) : Prop :=
  (row v.engine.slots (lineSlot n) = row s.engine.slots (lineSlot n) ∧ row v.lines n = row s.lines n ∧
    row v.sales.totals n = row s.sales.totals n) ∨
  (row s.engine.slots (lineSlot n) ≠ none ∧ row v.engine.slots (lineSlot n) = none ∧
    row v.lines n = (row s.lines n).answered { status := .clockUnset, body := .empty } (envelopeOf s n) ∧
    ((row s.table n).mode = .test → row v.sales.totals n = row s.sales.totals n) ∧
    ((row s.table n).mode = .normal → row v.sales.totals n = onDayRecord (today s)
      (fun r => r.withWalk (.refused .clockUnset none 0)) (row s.sales.totals n)))

/-- What becomes of the office's waiting request while the clock is UNSET. -/
def unsetOffice (s v : State) : Prop :=
  (row v.engine.slots officeSlot = row s.engine.slots officeSlot ∧ v.ports = s.ports) ∨
  (∃ r p, row s.engine.slots officeSlot = some r ∧ r.preview = some p ∧ row v.engine.slots officeSlot = none ∧
    v.ports = (answerDeferred .office p.tag .clockUnset .empty s).ports)

/-- The slots that hold a request. -/
def waitingCount (e : Engine) : Nat := (Finset.univ.filter fun i => (row e.slots i).isSome = true).card

/-- The office slot is no terminal's. -/
theorem lineSlot_ne_office (n : Line) : lineSlot n ≠ officeSlot := by revert n; decide

/-- Every other slot is its terminal's. -/
theorem lineSlot_slotLine {i : Fin 17} (h : i ≠ officeSlot) : lineSlot (slotLine i) = i := by revert i; decide

/-- Two terminals have two slots. -/
theorem lineSlot_inj {m n : Line} (h : lineSlot m = lineSlot n) : m = n := by revert m n; decide

/-- The arbiter's turns while the clock is UNSET (R41, R42). -/
theorem arbitrate_unset : ∀ (fuel : Nat) (s : State), s.clock.state = .unset → s.engine.walk = none →
    (∀ i r, row s.engine.slots i = some r → (r.preview.isSome = true ↔ i = officeSlot)) →
    let v := arbitrate fuel s
    onlyChanges [.engine, .lines, .sales, .ports] s v ∧ v.engine.walk = none ∧ v.sales = { s.sales with totals := v.sales.totals } ∧
      (waitingCount s.engine ≤ fuel → noRequests v.engine) ∧ (∀ n, unsetLine s v n) ∧ unsetOffice s v := by
  intro fuel
  induction fuel with
  | zero =>
    intro s _ hw _
    refine ⟨onlyChanges_refl _ _, hw, rfl, fun h i => ?_, fun n => Or.inl ⟨rfl, rfl, rfl⟩, Or.inl ⟨rfl, rfl⟩⟩
    have h0 : waitingCount s.engine = 0 := Nat.le_zero.mp h
    unfold waitingCount at h0
    rw [Finset.card_eq_zero, Finset.filter_eq_empty_iff] at h0
    have := h0 (Finset.mem_univ i)
    show row s.engine.slots i = none
    simpa using this
  | succ fuel ih =>
    intro s hc hw hk
    cases hn : nextSlot s.engine with
    | none =>
      have hv : arbitrate (fuel + 1) s = s := by unfold arbitrate; rw [hw, hn]
      intro v
      have hv : v = s := hv
      rw [hv]
      refine ⟨onlyChanges_refl _ _, hw, rfl, fun _ i => ?_, fun n => Or.inl ⟨rfl, rfl, rfl⟩, Or.inl ⟨rfl, rfl⟩⟩
      unfold nextSlot slotOrder at hn
      rw [List.find?_eq_none] at hn
      obtain ⟨k, hk⟩ := exists_turn s.engine.last i
      have := hn i (by simp only [List.mem_map, List.mem_finRange, true_and]; exact ⟨k, hk.symm⟩)
      simpa using this
    | some i =>
      have hsome : (row s.engine.slots i).isSome = true := by
        unfold nextSlot at hn
        simpa using List.find?_some hn
      obtain ⟨r, hr⟩ := Option.isSome_iff_exists.mp hsome
      obtain ⟨d, hd⟩ : ∃ d, d = deliver (walkOf s i r) (.refused .clockUnset none 0) (onEngine (fun e => e.taken i) s) := ⟨_, rfl⟩
      have hv : arbitrate (fuel + 1) s = arbitrate fuel d := by
        conv_lhs => unfold arbitrate
        rw [hw, hn]
        dsimp only
        rw [hr]
        dsimp only
        rw [if_neg (by simp [clockSet, hc]), hd]
      have d_eng : d.engine = s.engine.taken i := by rw [hd, deliver_engine]; rfl
      have d_clock : d.clock = s.clock := by rw [hd, deliver_clock]; rfl
      have hslot : ∀ j, row d.engine.slots j = if j = i then none else row s.engine.slots j := by
        intro j; rw [d_eng]; exact row_put _ _ _ _
      have hcount : waitingCount d.engine < waitingCount s.engine := by
        unfold waitingCount
        apply Finset.card_lt_card
        rw [Finset.ssubset_iff_of_subset]
        · exact ⟨i, by simp [hr], by simp [hslot]⟩
        · intro j hj
          simp only [Finset.mem_filter, Finset.mem_univ, true_and, hslot] at hj ⊢
          by_cases hji : j = i
          · rw [hji, hr]; rfl
          · rw [if_neg hji] at hj; exact hj
      -- what the delivery does
      have hstep : onlyChanges [.engine, .lines, .sales, .ports] s d ∧ d.sales = { s.sales with totals := d.sales.totals } ∧
          (∀ n, unsetLine s d n) ∧ unsetOffice s d := by
        by_cases ho : i = officeSlot
        · obtain ⟨p, hp⟩ := Option.isSome_iff_exists.mp ((hk i r hr).mpr ho)
          have hd2 : d = answerDeferred .office p.tag .clockUnset .empty (onEngine (fun e => e.taken i) s) := by
            have hq : (walkOf s i r).request.preview = some p := by
              unfold walkOf; split <;> exact hp
            rw [hd]; unfold deliver; rw [hq]; rfl
          refine ⟨?_, by rw [hd2]; rfl, ?_, Or.inr ⟨r, p, by rw [← ho]; exact hr, hp, ?_, ?_⟩⟩
          · rw [hd2]; exact ((onEngine_frame s _).trans (answerDeferred_frame _ _ _ _ _)).mono (by decide)
          · intro n
            refine Or.inl ⟨?_, by rw [hd2]; rfl, by rw [hd2]; rfl⟩
            rw [hslot, if_neg]; rw [ho]; exact lineSlot_ne_office n
          · rw [hslot, if_pos ho.symm]
          · rw [hd2]; rfl
        · have hp : r.preview = none := by
            cases h : r.preview with
            | none => rfl
            | some p => exact absurd ((hk i r hr).mp (by rw [h]; rfl)) ho
          obtain ⟨w, hw'⟩ : ∃ w, w = walkOf s i r := ⟨_, rfl⟩
          have hwm : w.mode = (row s.table (slotLine i)).mode ∧ w.discard = false ∧ w.slot = i ∧ w.request = r := by
            rw [hw']; unfold walkOf; rw [hp]; exact ⟨rfl, rfl, rfl, rfl⟩
          have hd2 : d = terminalOutcome (slotLine i) w (.refused .clockUnset none 0) (onEngine (fun e => e.taken i) s) := by
            rw [hd, ← hw']; unfold deliver; rw [hwm.2.2.2, hp, hwm.2.2.1]
          obtain ⟨k1, k2, k3, k4⟩ := terminal_unset (slotLine i) w (onEngine (fun e => e.taken i) s) hwm.2.1
          rw [← hd2] at k1 k2 k3 k4
          have hli := lineSlot_slotLine ho
          rw [hwm.1] at k3 k4
          refine ⟨((onEngine_frame s _).trans k1).mono (by decide), ?_, ?_, ?_⟩
          · cases hm : (row s.table (slotLine i)).mode with
            | test => rw [k3 hm]; rfl
            | normal => rw [k4 hm]; rfl
          · intro n
            by_cases hni : n = slotLine i
            · rw [hni]
              refine Or.inr ⟨by rw [hli, hr]; simp, by rw [hslot, hli, if_pos rfl], ?_, ?_, ?_⟩
              · rw [k2, row_change_self]; rfl
              · intro hm; rw [k3 hm]; rfl
              · intro hm; rw [k4 hm]; dsimp only; rw [row_change_self]; rfl
            · refine Or.inl ⟨?_, ?_, ?_⟩
              · rw [hslot, if_neg]; intro h; apply hni; rw [← hli] at h; exact lineSlot_inj h
              · rw [k2, row_change_other _ _ hni]; rfl
              · cases hm : (row s.table (slotLine i)).mode with
                | test => rw [k3 hm]; rfl
                | normal => rw [k4 hm]; dsimp only; rw [row_change_other _ _ hni]; rfl
          · refine Or.inl ⟨by rw [hslot, if_neg (fun h => ho h.symm)], k1 .ports (by decide)⟩
      obtain ⟨f1, f2, f3, f4⟩ := hstep
      obtain ⟨g1, g2, g3, g4, g5, g6⟩ := ih d (by rw [d_clock]; exact hc) (by rw [d_eng]; exact hw) (by
        intro j r' hj
        rw [hslot] at hj
        split at hj
        · cases hj
        · exact hk j r' hj)
      intro v
      have hv : v = arbitrate fuel d := hv
      rw [← hv] at g1 g2 g3 g4 g5 g6
      have e_table : d.table = s.table := f1 .table (by decide)
      have e_env : ∀ n, envelopeOf d n = envelopeOf s n := fun n => envelopeOf_congr n d_clock e_table (f1 .faults (by decide))
      have e_today : today d = today s := by unfold today; rw [d_clock]
      refine ⟨(f1.trans g1).mono (by decide), g2, ?_, fun h => g4 (by omega), ?_, ?_⟩
      · rw [g3, f2]
      · intro n
        rcases f3 n with ⟨a1, a2, a3⟩ | ⟨a1, a2, a3, a4, a5⟩
        · rcases g5 n with ⟨b1, b2, b3⟩ | ⟨b1, b2, b3, b4, b5⟩
          · exact Or.inl ⟨b1.trans a1, b2.trans a2, b3.trans a3⟩
          · refine Or.inr ⟨by rw [← a1]; exact b1, b2, by rw [b3, a2, e_env], ?_, ?_⟩
            · intro hm; rw [b4 (by rw [e_table]; exact hm), a3]
            · intro hm; rw [b5 (by rw [e_table]; exact hm), a3, e_today]
        · rcases g5 n with ⟨b1, b2, b3⟩ | ⟨b1, -⟩
          · exact Or.inr ⟨a1, b1.trans a2, b2.trans a3, fun hm => b3.trans (a4 hm), fun hm => b3.trans (a5 hm)⟩
          · exact absurd a2 b1
      · rcases f4 with ⟨a1, a2⟩ | ⟨r', p', a1, a2, a3, a4⟩
        · rcases g6 with ⟨b1, b2⟩ | ⟨r', p', b1, b2, b3, b4⟩
          · exact Or.inl ⟨b1.trans a1, b2.trans a2⟩
          · refine Or.inr ⟨r', p', a1 ▸ b1, b2, b3, ?_⟩
            rw [b4]; unfold answerDeferred; rw [a2, d_clock]
        · rcases g6 with ⟨b1, b2⟩ | ⟨r'', p'', b1, -⟩
          · exact Or.inr ⟨r', p', a1, a2, b1.trans a3, b2.trans a4⟩
          · rw [a3] at b1; cases b1

/-! ## The stages of a walk -/

/-- A condition raised, in the terms of the claims. -/
theorem raiseCond_spec (pass : CondSet) (k : Cond) (c : WalkContext) (next : WalkContext → Stage) :
    conditionRaised pass k c next (raiseCond pass k c next) := by
  unfold conditionRaised raiseCond
  dsimp only
  constructor <;> intro h <;> rw [h] <;> rfl

/-- What the checks before a later span make of a walk (R58). -/
theorem enterNext_spec (tar pass a b point c stopHere enter) :
    entersNext tar pass a b point c stopHere enter (enterNext tar pass a b point c stopHere enter) := by
  have look : ∀ c : WalkContext, ∀ st, st = (match tar.spanAt point with
    | none => refuseWalk c .noPlan
    | some sp =>
      if sp.kind = .noSale then raiseCond pass .noSale c stopHere
      else if isCharged sp && b then raiseCond pass .carry c fun c => enter c sp
      else enter c sp) →
    (tar.spanAt point = none → st = .done (.refused .noPlan none c.raised)) ∧
      ∀ sp, tar.spanAt point = some sp →
        (sp.kind = .noSale → conditionRaised pass .noSale c stopHere st) ∧
          (sp.kind ≠ .noSale → (isCharged sp = true ∧ b = true →
              conditionRaised pass .carry c (fun c => enter c sp) st) ∧
            (isCharged sp = false ∨ b = false → st = enter c sp)) := by
    intro c st hst
    cases hs : tar.spanAt point with
    | none => rw [hs] at hst; exact ⟨fun _ => hst, fun sp h => (by cases h)⟩
    | some sp =>
      rw [hs] at hst
      refine ⟨fun h => (by cases h), fun sp' h => ?_⟩
      cases h
      dsimp only at hst
      refine ⟨fun hk => ?_, fun hk => ⟨fun h => ?_, fun h => ?_⟩⟩
      · rw [if_pos hk] at hst; rw [hst]; exact raiseCond_spec _ _ _ _
      · rw [if_neg hk, if_pos (by simp [h])] at hst; rw [hst]; exact raiseCond_spec _ _ _ _
      · rw [if_neg hk, if_neg (by rcases h with h | h <;> simp [h])] at hst; exact hst
  unfold entersNext enterNext
  dsimp only
  have hday : dayOf point = point / 1440 := rfl
  constructor
  · intro h
    rw [if_neg (by rw [hday, h]; simp)]
    exact look c _ rfl
  · intro h
    rw [if_pos (by rw [hday]; simpa using h)]
    constructor
    · intro he
      apply look
      unfold raiseCond
      dsimp only
      rw [if_pos he]; rfl
    · intro he
      unfold raiseCond
      dsimp only
      rw [if_neg (by simp [he])]; rfl

/-- A walk enters no 17th span and none after day 65,535 (R58 (i), (ii)). -/
theorem tooLong_iff (e : Nat) (z : ZoneMinute) : tooLong e z = true ↔ 16 ≤ e ∨ 65535 < z / 1440 := by
  unfold tooLong; simp; rfl

/-- The period found at a minute holds it (R16). -/
theorem periodAt_holds (m : Nat) : ∀ (l : List Period) p ends, periodAt m l = some (p, ends) → p.start ≤ m ∧ m < ends := by
  intro l
  induction l with
  | nil => intro p ends h; cases h
  | cons a l ih =>
    intro p ends h
    unfold periodAt at h
    dsimp only at h
    split at h
    · rename_i hc; cases h; exact hc
    · exact ih _ _ h

/-- The span found at a minute holds it (R17). -/
theorem spanAt_holds {tar : Tariff} {z : ZoneMinute} {sp : Span} (h : tar.spanAt z = some sp) : sp.start ≤ z ∧ z < sp.stop := by
  unfold Tariff.spanAt at h
  have hz : dayOf z * 1440 + minuteOf z = z := (by omega : ∀ z : Nat, z / 1440 * 1440 + z % 1440 = z) z
  have hm : minuteOf z < 1440 := Nat.mod_lt _ (by decide)
  have arith : ∀ d m z a b : Nat, d * 1440 + m = z → a ≤ m → m < b → d * 1440 + a ≤ z ∧ z < d * 1440 + b := by omega
  split at h
  · cases h
    exact (by omega : ∀ z : Nat, z / 1440 * 1440 ≤ z ∧ z < (z / 1440 + 1) * 1440) z
  · dsimp only at h
    split at h
    · cases h
    · split at h
      · cases h
      · split at h
        · cases h
        · rename_i p ends hp
          cases h
          have := periodAt_holds _ _ _ _ hp
          exact arith (dayOf z) (minuteOf z) z p.start ends hz this.1 this.2

/-- No minutes cost nothing. -/
theorem ladderCost_zero (steps : List LadderStep) (c : Nat) : ladderCost c 0 steps = 0 := by
  cases steps <;> simp [ladderCost]

/-- More minutes cost no less (R18). -/
theorem ladderCost_mono (steps : List LadderStep) : ∀ c a b, a ≤ b → ladderCost c a steps ≤ ladderCost c b steps := by
  induction steps with
  | nil => intro c a b _; simp [ladderCost]
  | cons st rest ih =>
    intro c a b h
    unfold ladderCost
    by_cases ha : a = 0
    · simp [ha]
    · have hb : b ≠ 0 := by omega
      rw [if_neg ha, if_neg hb]
      split
      · exact ih _ _ _ h
      · dsimp only
        rcases Nat.le_total (st.limit - c) a with h1 | h1
        · rw [Nat.min_eq_left h1, Nat.min_eq_left (by omega)]
          have := ih (c + (st.limit - c)) (a - (st.limit - c)) (b - (st.limit - c)) (by omega)
          omega
        · rw [Nat.min_eq_right h1]
          have h0 : ladderCost (c + a) (a - a) rest = 0 := by
            rw [Nat.sub_self]; cases rest <;> simp [ladderCost]
          rw [h0]
          have : a * st.rate ≤ min (st.limit - c) b * st.rate := Nat.mul_le_mul_right _ (by omega)
          omega

/-- Buying never adds to the budget (R60). -/
theorem buyMoney_left (steps : List LadderStep) : ∀ c room budget, (buyMoney c room budget steps).2.1 ≤ budget := by
  induction steps with
  | nil => intro c room budget; exact Nat.le_refl _
  | cons st rest ih =>
    intro c room budget
    unfold buyMoney
    split
    · exact Nat.le_refl _
    · split
      · exact ih _ _ _
      · split
        · exact Nat.zero_le _
        · dsimp only
          generalize (if st.rate = 0 then min (st.limit - c) room else min (min (st.limit - c) room) (budget / st.rate)) = n
          by_cases hn : n < min (st.limit - c) room
          · rw [if_pos hn]; exact Nat.sub_le _ _
          · rw [if_neg hn]; exact Nat.le_trans (ih _ _ _) (Nat.sub_le _ _)

/-- In a well ordered pattern the period that holds a minute is the one found at it (R16). -/
theorem periodAt_eq (minute : Nat) (periods : List Period) (hw : periods.Pairwise fun a b => a.start < b.start) (q : Period) (ends : Nat)
    (h : holdsMinute periods minute q ends) : periodAt minute periods = some (q, ends) := by
  obtain ⟨before, after, rfl, h1, h2, h3⟩ := h
  induction before with
  | nil =>
    rw [List.nil_append]
    unfold periodAt
    dsimp only
    rw [if_pos ⟨h1, by rw [h3] at h2; exact h2⟩, h3]
  | cons b l ih =>
    rw [List.cons_append] at hw ⊢
    obtain ⟨hb, hw⟩ := List.pairwise_cons.mp hw
    unfold periodAt
    dsimp only
    rw [if_neg, ih hw]
    rintro ⟨-, hh⟩
    cases l with
    | nil => simp at hh; omega
    | cons c l =>
      simp at hh
      have := (List.pairwise_cons.mp hw).1 q (by simp)
      omega

/-- A minute past a step is rated by the steps after it. -/
theorem rateAt_skip (st : LadderStep) (rest : List LadderStep) (m : Nat) (h : st.limit < m) : rateAt (st :: rest) m = rateAt rest m := by
  show (if m ≤ st.limit then _ else _) = _; rw [if_neg (by omega)]

/-- A minute within the first step has its rate. -/
theorem rateAt_here (st : LadderStep) (rest : List LadderStep) (m : Nat) (h : m ≤ st.limit) : rateAt (st :: rest) m = st.rate := by
  show (if m ≤ st.limit then _ else _) = _; rw [if_pos h]

end Sys2Proof.Machine
end

