-- ==== Sys2Proof/Tests/Slice0.lean ====
section
/-!
SUPPORT. Tests/Slice0.lean: a smoke test of each check of WellFormed; for every statement with hypotheses, states and operands
that meet them, clause by clause; and a few one-step tests whose values are worked out by hand from the spec.
-/
namespace Sys2Proof.Tests
open Sys2Proof Sys2Proof.Machine

-- One theorem at a time: the kernel evaluates each of them, and a thread for each would ask for too much memory.
set_option Elab.async false

/-! ## States and readings -/

/-- Day 100, 12:00. -/
def noon : ZoneMinute := zoneMinute 100 720

def tariffHeader : PlanHeader :=
  { minuteStep := 5, rounding := .floor, coinUnit := 10, minimumCharge := 50, noReturn := 60 }

/-- 08:00 to 18:00 charged by ladder 0 with a maximum stay of two hours, free before and after. -/
def tariffDay : List Period := [⟨0, .free⟩, ⟨480, .charged 0 120⟩, ⟨1080, .free⟩]

def tariffPlan : Plan := { header := tariffHeader, patterns := Vector.replicate 9 (some tariffDay) }

/-- One pound twenty the first hour, then two pounds forty. -/
def tariffSteps : List LadderStep := [⟨60, 120⟩, ⟨1440, 240⟩]

/-- Plan 0 and ladder 0 present. -/
def tariff : Book :=
  { plans := put Book.empty.plans 0 (some tariffPlan), ladders := put Book.empty.ladders 0 (some tariffSteps), calendar := [] }

def aMark : Mark := ['A', 'B', '1', '2']

def visitorPermit : Permit :=
  { number := 5, kind := .visitorBook { grant := 300, allowance := 40, period := 7, nextRefresh := 101 }, suspended := false
    plans := 255, fromDay := 90, toDay := 200 }

def residentPermit : Permit :=
  { number := 9, kind := .resident [aMark], suspended := false, plans := 1, fromDay := 90, toDay := 200 }

/-- Terminal 1 ACTIVE on plan 0, taking coins and cards. -/
def kerb : Entry := { Entry.cold with active := true, takesCoins := true, takesCards := true, lastHeard := noon }

/-- A box with three coins of the first slot and one of the fourth. -/
def box7 : Tally := { Tally.cold with present := true, box := 7, counts := #v[3, 0, 0, 1, 0, 0, 0, 0] }

/-- A zone at work: the clock SET at day 100, 12:00, a book IN_FORCE, terminal 1 ACTIVE, two permits, badge 1 with every role
and badge 2 an officer's. -/
def ready : State :=
  { State.reset with
    clock := { Clock.cold with state := .set, reading := noon, handed := noon }
    books := { BookStore.cold with bankX := tariff, activeState := .inForce }
    table := put State.reset.table 0 kerb
    permits := [visitorPermit, residentPermit]
    cash := { CashUnit.cold with coins := #v[10, 20, 50, 100, 200, 0, 0, 0], tallies := put CashUnit.cold.tallies 0 box7 }
    ports := { PortUnit.cold 17 with badges := [⟨1, 7⟩, ⟨2, 1⟩] } }

/-- What a command leads to. -/
def after (c : Instr) (s : State) : State :=
  match exec c s with
  | .next t => t
  | _ => s

/-- The answer being sent on the office link. -/
def officeSays (t : State) : Option (Status × Body) := t.ports.office.sending.map fun r => (r.answer.status, r.answer.body)

/-- The answer being sent on the service port. -/
def serviceSays (t : State) : Option (Status × Body) := t.ports.service.sending.map fun r => (r.answer.status, r.answer.body)

/-- The answer being sent on line 1. -/
def lineSays (t : State) : Option (Status × Body) :=
  match (row t.lines 0).state with
  | .replying r _ _ => some (r.answer.status, r.answer.body)
  | _ => none

/-- Two pounds in cash. -/
def twoPounds : QuoteFields := { payKind := 1, amount := 200, minutes := 0, permit := 0, mark := none }

/-- A walk for two pounds in cash is in flight for terminal 1. -/
def walking : State := after (.quote 0 twoPounds) ready

/-- Its result is the open quote of terminal 1, and the reply has ended. -/
def quoted : State := after (.replyEnd 0) (after .walkComplete walking)

/-- Two one-pound coins. -/
def twoCoins : SaleFields := { number := 1, payKind := 1, counts := #v[0, 0, 0, 2, 0, 0, 0, 0], card := 0 }

/-- The sale is made, and its reply has ended. -/
def bought : State := after (.replyEnd 0) (after (.sale 0 twoCoins) quoted)

/-- The state with another reading. -/
def at_ (z : ZoneMinute) (s : State) : State := { s with clock := { s.clock with reading := z, handed := z } }

/-- The state with the clock UNSET. -/
def unset (s : State) : State := { s with clock := { s.clock with state := .unset } }

/-- The state with another staged book and its state. -/
def staged (k : Book) (st : StagedState) (day : Option Nat) (s : State) : State :=
  { s with books := { s.books with bankY := k, stagedState := st, activationDay := day } }

/-! ## WellFormed refuses what no message can carry -/

/-- Every command of the list is ill-formed. -/
def refuses (l : List Instr) : Bool := l.all fun c => !c.wellFormed

def planPart : PlanPart := ⟨0, 1, 5, 1, 10, 50, 60⟩
def periodPart : PeriodPart := ⟨0, 1, 0, 120⟩
def previewPart : PreviewFields := ⟨1, 0, 1, 200, 0, 0, 0, 0, 0, 0, 0, 0⟩
def terminalPart : TerminalFields := ⟨1, 0, true, true, false, 0, 4000⟩
def permitPart : PermitFields := ⟨9, 1, 1, 1, 90, 200, 1, #v[aMark, [], []], 0, 0⟩
def coverPart : CoverFields := ⟨0, 2, 0, 0, 0, aMark⟩

/-- A mark of nine characters. -/
def longMark : Mark := List.replicate 9 'A'

theorem smoke_clock : refuses [.setClock 0 65536 0, .setClock 0 0 65536, .setOverride 0 65536 0, .setOverride 0 0 256,
    .dropOverride 0 65537] = true := by decide +kernel

theorem smoke_loadPlan : refuses [.loadPlan 0 { planPart with plan := 256 }, .loadPlan 0 { planPart with presence := 256 },
    .loadPlan 0 { planPart with minuteStep := 256 }, .loadPlan 0 { planPart with roundingMode := 256 },
    .loadPlan 0 { planPart with coinUnit := 256 }, .loadPlan 0 { planPart with minimumCharge := 65536 },
    .loadPlan 0 { planPart with noReturn := 65536 }] = true := by decide +kernel

theorem smoke_loadDay : refuses [.loadDay 0 ⟨256, 0, 1, []⟩, .loadDay 0 ⟨0, 256, 1, []⟩, .loadDay 0 ⟨0, 0, 256, []⟩,
    .loadDay 0 ⟨0, 0, 1, List.replicate 7 periodPart⟩, .loadDay 0 ⟨0, 0, 1, [{ periodPart with start := 65536 }]⟩,
    .loadDay 0 ⟨0, 0, 1, [{ periodPart with kind := 256 }]⟩, .loadDay 0 ⟨0, 0, 1, [{ periodPart with ladder := 256 }]⟩,
    .loadDay 0 ⟨0, 0, 1, [{ periodPart with maximumStay := 65536 }]⟩] = true := by decide +kernel

theorem smoke_loadLadder : refuses [.loadLadder 0 ⟨256, 1, []⟩, .loadLadder 0 ⟨0, 256, []⟩,
    .loadLadder 0 ⟨0, 1, List.replicate 7 ⟨1440, 120⟩⟩, .loadLadder 0 ⟨0, 1, [⟨65536, 0⟩]⟩,
    .loadLadder 0 ⟨0, 1, [⟨0, 65536⟩]⟩] = true := by decide +kernel

theorem smoke_loadCalendar : refuses [.loadCalendar 0 ⟨256, []⟩, .loadCalendar 0 ⟨0, List.replicate 49 ⟨0, 1⟩⟩,
    .loadCalendar 0 ⟨1, [⟨65536, 1⟩]⟩, .loadCalendar 0 ⟨1, [⟨0, 4⟩]⟩] = true := by decide +kernel

theorem smoke_book : refuses [.armBook 0 65536, .readBook 0 .active 256] = true := by decide +kernel

theorem smoke_asks : refuses [.quote 0 { twoPounds with payKind := 256 }, .quote 0 { twoPounds with amount := 65536 },
    .quote 0 { twoPounds with minutes := 65536 }, .quote 0 { twoPounds with permit := 4294967296 },
    .quote 0 { twoPounds with mark := some longMark }, .quote 0 { twoPounds with mark := some ['Ā'] },
    .price 0 ⟨256, 0, 0, none⟩, .price 0 ⟨1, 65536, 0, none⟩, .price 0 ⟨1, 0, 65536, none⟩,
    .price 0 ⟨1, 0, 0, some longMark⟩] = true := by decide +kernel

theorem smoke_preview : refuses [.previewQuote 0 { previewPart with form := 256 },
    .previewQuote 0 { previewPart with plan := 256 }, .previewQuote 0 { previewPart with payKind := 256 },
    .previewQuote 0 { previewPart with timed := 256 }, .previewQuote 0 { previewPart with amount := 65536 },
    .previewQuote 0 { previewPart with minutes := 65536 }, .previewQuote 0 { previewPart with wantedDay := 65536 },
    .previewQuote 0 { previewPart with wantedMinute := 65536 }, .previewQuote 0 { previewPart with day := 65536 },
    .previewQuote 0 { previewPart with minute := 65536 },
    .previewQuote 0 { previewPart with permit := 4294967296 }] = true := by decide +kernel

theorem smoke_terminal : refuses [.configureTerminal 0 { terminalPart with terminal := 256 },
    .configureTerminal 0 { terminalPart with plan := 256 }, .configureTerminal 0 { terminalPart with capacity := 65536 },
    .retireTerminal 0 256, .setConditions 0 256 0, .clearConditions 0 256, .lineReset (.service 16777216) 0 1,
    .lineReset .office 0 256, .testLine 0 16777216 1, .testLine 0 1 256, .endTest 0 16777216 1, .endTest 0 1 256] = true := by
  decide +kernel

theorem smoke_sale : refuses [.sale 0 { twoCoins with number := 256 }, .sale 0 { twoCoins with payKind := 256 },
    .sale 0 { twoCoins with counts := #v[0, 0, 0, 0, 0, 0, 0, 65536] }, .sale 0 { twoCoins with card := 65536 },
    .fetchSessions 0 4294967296 1, .fetchSessions 0 1 256, .readTotals 0 256] = true := by decide +kernel

theorem smoke_permit : refuses [.putPermit 0 { permitPart with number := 4294967296 },
    .putPermit 0 { permitPart with kind := 256 }, .putPermit 0 { permitPart with state := 256 },
    .putPermit 0 { permitPart with markCount := 256 }, .putPermit 0 { permitPart with period := 256 },
    .putPermit 0 { permitPart with fromDay := 65536 }, .putPermit 0 { permitPart with toDay := 65536 },
    .putPermit 0 { permitPart with grant := 65536 }, .putPermit 0 { permitPart with marks := #v[aMark, [], longMark] },
    .dropPermit 0 4294967296, .setPermitState 0 4294967296 1, .setPermitState 0 1 256, .readPermit 0 4294967296 1,
    .readPermit 0 1 256] = true := by decide +kernel

theorem smoke_cover : refuses [.cover (.service 16777216) 0 coverPart, .cover .office 0 { coverPart with plan := 256 },
    .cover .office 0 { coverPart with keyKind := 256 }, .cover .office 0 { coverPart with zone := 256 },
    .cover .office 0 { coverPart with terminal := 256 }, .cover .office 0 { coverPart with sequence := 16777216 },
    .cover .office 0 { coverPart with mark := longMark }, .setRecentWindow 0 256] = true := by decide +kernel

theorem smoke_cash : refuses [.setCoins 0 #v[0, 0, 0, 0, 0, 0, 0, 65536], .boxOut 0 65536, .boxIn 0 65536, .readLifts 0 256 1,
    .readLifts 0 0 256, .openRound 0 16777216 1, .openRound 0 1 65536, .roundStatus 0 16777216, .closeRound 0 16777216,
    .countResult 0 65536 0, .countResult 0 1 4294967296, .setCashLimits 0 65536 60, .setCashLimits 0 0 65536] = true := by
  decide +kernel

theorem smoke_faults : refuses [.fault 0 256 1, .fault 0 0 256, .ackFault 0 256 0, .ackFault 0 0 256,
    .clearFault (.service 16777216) 0 0 0, .clearFault .office 0 256 0, .clearFault .office 0 0 256,
    .readFaults (.service 16777216) 0 0, .readFaults .office 0 256, .readSiteNotices 0 16777216, .setAddressed 0 256 2,
    .resetAddressed 0 256 2] = true := by decide +kernel

theorem smoke_ports : refuses [.putBadge 0 16777216 1, .dropBadge 0 16777216, .readStatus (.service 16777216) 0,
    .restart (.service 16777216) 0, .unknownPortCommandKind (.service 16777216) 0] = true := by decide +kernel

/-- What a message carries passes. -/
theorem smoke_passes : [Instr.setClock 0 65535 1439, .loadPlan 0 planPart, .quote 0 { twoPounds with mark := some aMark },
    .configureTerminal 0 terminalPart, .sale 0 twoCoins, .putPermit 0 permitPart, .cover (.service 99999) 0 coverPart,
    .nresetAssertion].all Instr.wellFormed = true := by decide +kernel

/-! ## The hypotheses of the statements can be met: the step, invariants, clock -/

theorem ready_office : officeTakes ready := by unfold officeTakes; decide +kernel

theorem ready_line : lineTakes ready 0 := by unfold lineTakes lineFree; decide +kernel

theorem ready_service (role : Role) : serviceTakes ready 1 role := by unfold serviceTakes; cases role <;> decide +kernel

theorem meets_StepRunsFrontCommand :
    { ready with pending := [.hello 0, .walkBegin] }.pending = Instr.hello 0 :: [.walkBegin] := rfl

/-- Stopped blocks; a port that owes six answers, and one after a RESTART; a badge that is absent, and one without the role. -/
theorem meets_PartTurnsAway :
    (running (after .supplyLoss ready) = false ∧ actsWhileStopped (.hello 0) = false) ∧
      (let full := { ready with ports := { ready.ports with office := { ready.ports.office with deferred := 6 } } };
        6 ≤ (full.ports.port .office).queue.length + (full.ports.port .office).deferred) ∧
      (after (.restart .office 1) ready).ports.restarting = true ∧
      (Instr.roundStatus 3 99999).origin = .port (.service 99999) 3 ∧ roleOf (.roundStatus 3 99999) = some .collector ∧
      listening ready .service = true ∧ (∀ b ∈ ready.ports.badges, b.number ≠ 99999) ∧
      ∀ b ∈ ready.ports.badges, b.number = 2 → Role.collector.isIn b.roles = false := by decide +kernel

/-- A minute boundary at stopped blocks: the clock UNSET, one minute before its last, and at its last. -/
theorem meets_PartTurnsAway_stopped :
    let stopped := after .supplyLoss ready
    running stopped = false ∧ (unset stopped).clock.state = .unset ∧
      (stopped.clock.state = .set ∧ now (at_ (lastReading - 1) stopped) < lastReading) ∧
      lastReading ≤ now (at_ lastReading stopped) := by decide +kernel

/-- Lists with elements, at a step with a command in front. -/
def stocked : State :=
  { bought with
    clock := { bought.clock with overrides := [⟨100, 8⟩, ⟨101, 0⟩] }
    pending := [.readStatus .office 1] }

theorem meets_StoresStayKept : storesKept stocked ∧ ∃ t, step stocked = .next t := by
  refine ⟨?_, _, rfl⟩
  unfold storesKept overridesKept permitsKept badgesKept logKept totalsKept liftsKept
  refine ⟨by decide +kernel, by decide +kernel, by decide +kernel, ⟨by decide +kernel, by decide +kernel, ?_⟩,
    by decide +kernel, by decide +kernel⟩
  intro next h
  have h2 : stocked.sales.nextSerial = some 2 := by decide +kernel
  rw [h2] at h
  cases h
  decide +kernel

theorem meets_BoxNumbersStayApart :
    boxesKept { ready with cash := { ready.cash with tallies := put ready.cash.tallies 15 { box7 with box := 8 } } } ∧
      ∃ t, step ready = .next t :=
  ⟨by unfold boxesKept; decide +kernel, _, rfl⟩

/-- Plan 0 is unserved, in its grace, and no other plan is. -/
def unservedZone : State := after (.fault 0 1 1) ready

/-- Is the grace record ACTIVE? -/
def graceIsActive : Grace → Bool
  | .active _ => true
  | _ => false

/-- The grace records are true where their evaluation says so. -/
theorem kept_of (s : State) (h : ∀ p : Fin 8, graceIsActive (row s.faults.grace p) = unserved s p) : graceKept s := by
  intro p
  rw [← h p]
  cases row s.faults.grace p <;> simp [graceIsActive]

theorem meets_GraceStaysTrue : graceKept unservedZone ∧ ∃ t, step unservedZone = .next t :=
  ⟨kept_of _ (by decide +kernel), _, rfl⟩

/-- Terminal 1 is mended, and the grace of plan 0 is ENDING. -/
def endingZone : State := after (.replyEnd 0) (after (.fault 0 1 2) (after (.replyEnd 0) unservedZone))

/-- Line 1 is silent, and plan 0 unserved. -/
def silentZone : State := after (.lineSilence 0) (at_ (noon + 10) ready)

/-- True grace records: of a plan that is NONE, ACTIVE, ENDING, and of one unserved by silence, each with line 1 ready for the frame
that moves it on. -/
theorem meets_graceFollows :
    (graceKept ready ∧ lineTakes ready 0 ∧ row ready.faults.grace 0 = .none) ∧
      (let broken := after (.replyEnd 0) unservedZone;
        graceKept broken ∧ lineTakes broken 0 ∧ row broken.faults.grace 0 = .active noon ∧ stands broken 0 .printerEmpty) ∧
      (graceKept endingZone ∧ lineTakes endingZone 0 ∧ row endingZone.faults.grace 0 = .ending noon (noon + 15)) ∧
      (graceKept silentZone ∧ lineTakes silentZone 0 ∧ stands silentZone 0 .lineSilent ∧ unserved silentZone 0 = true) := by
  unfold lineTakes lineFree stands
  exact ⟨⟨kept_of _ (by decide +kernel), by decide +kernel⟩, ⟨kept_of _ (by decide +kernel), by decide +kernel⟩,
    ⟨kept_of _ (by decide +kernel), by decide +kernel⟩, ⟨kept_of _ (by decide +kernel), by decide +kernel⟩⟩

/-- A preview and a COVER are owed to the office. -/
def owing : State := after (.cover .office 2 ⟨0, 2, 0, 0, 0, aMark⟩) (after (.previewQuote 1 previewPart) ready)

theorem meets_PortsStayKept : portsKept owing ∧ owed owing .office = 2 ∧ ∃ t, step owing = .next t := by
  have slots : ∀ i, i ≠ officeSlot → row owing.engine.slots i = none := by decide +kernel
  have office : row owing.engine.slots officeSlot = none := by decide +kernel
  have walk : ∀ w, owing.engine.walk = some w → w.request.preview.isSome = true ∧ w.slot = officeSlot := by
    have h : owing.engine.walk.all (fun w => w.request.preview.isSome && w.slot == officeSlot) = true := by decide +kernel
    intro w hw
    rw [hw] at h
    simpa using h
  have search : ∀ q, owing.cover.search = some q → (owing.cover.slot q.source).isEmpty = false := by
    have h : owing.cover.search.all (fun q => !(owing.cover.slot q.source).isEmpty) = true := by decide +kernel
    intro q hq
    rw [hq] at h
    simpa using h
  refine ⟨⟨⟨fun i r h => ?_, fun w h => by simp [walk w h], search⟩, fun id => by cases id <;> decide +kernel⟩,
    by decide +kernel, _, rfl⟩
  by_cases hi : i = officeSlot
  · rw [hi, office] at h; cases h
  · rw [slots i hi] at h; cases h

/-- A held bank over a step; a retired bank whose last walk has left, and one still held; a bank not retired. -/
theorem meets_HeldBanksStay :
    walking.books.isHeld .x = true ∧ (∃ t, step { walking with pending := [.hello 0] } = .next t ∧ t.books.isHeld .x = true) ∧
      let b : BookStore := { BookStore.cold with retired := true, heldY := true }
      b.retired = true ∧
        (b.clearHolds { active := .y, generation := 0, staged := none, revision := 0 }).isHeld b.active.other = false ∧
        (b.clearHolds { active := .x, generation := 0, staged := none, revision := 0 }).isHeld b.active.other = true ∧
        BookStore.cold.retired = false :=
  ⟨by decide +kernel, ⟨_, rfl, by decide +kernel⟩, by decide +kernel⟩

/-- The clock at its last minute and one before it, at the last cycle of a minute and one before it, and UNSET. -/
theorem meets_ClockCountsMinutes :
    (ready.pending = [] ∧ ready.wire = [] ∧ walkHasStage ready = false ∧ searchHasRead ready = false) ∧
      State.reset.clock.state = .unset ∧ ready.clock.state = .set ∧ 221183998 + 1 < cyclesPerMinute ∧
      cyclesPerMinute ≤ 221183999 + 1 ∧ running ready = true ∧ now (at_ (lastReading - 1) ready) < lastReading ∧
      now (at_ lastReading ready) = lastReading := by decide +kernel

theorem meets_SetClock : officeTakes ready ∧ 65535 ≤ 65535 ∧ 1439 ≤ 1439 ∧ 65535 < 65536 ∧ 1439 < 1440 :=
  ⟨ready_office, by decide, by decide, by decide, by decide⟩

/-- Eight overrides, on days 100 to 107. -/
def eightOverrides : State :=
  { ready with clock := { ready.clock with overrides := (List.range 8).map fun i => ⟨100 + i, 8⟩ } }

theorem meets_SetOverride :
    officeTakes eightOverrides ∧ 8 < 9 ∧ 99 < today eightOverrides ∧
      (today eightOverrides ≤ 108 ∧ lookup Override.day 108 eightOverrides.clock.overrides = none ∧
        8 ≤ eightOverrides.clock.overrides.length) ∧
      (today eightOverrides ≤ 100 ∧ lookup Override.day 100 eightOverrides.clock.overrides ≠ none) ∧
      today ready ≤ 100 ∧ ready.clock.overrides.length < 8 := by
  unfold officeTakes; decide +kernel

theorem meets_DropOverride :
    officeTakes eightOverrides ∧ 65535 < 65536 ∧ (∀ o ∈ eightOverrides.clock.overrides, o.day ≠ 65535) ∧
      ∃ o ∈ eightOverrides.clock.overrides, o.day = 100 := by
  unfold officeTakes; decide +kernel

/-- The pressure mark ON with the log at 3,072, and OFF. -/
theorem meets_DailyRemovals :
    running ready = true ∧ ready.clock.state = .set ∧ ready.sales.pressure = false ∧
      let pressed := { ready with sales := { ready.sales with pressure := true } }
      pressed.sales.pressure = true ∧ (after .logPruning pressed).sales.log.length ≤ 3072 := by decide +kernel

/-! ## Book store -/

/-- A staged book under EDITING. -/
def editing : State := staged tariff .editing none ready

theorem meets_LoadsChangeTheirPart :
    officeTakes editing ∧ stagedFree editing.books ∧ readPlan planPart = some (0, some tariffHeader) ∧
      readPlan ⟨7, 0, 0, 0, 0, 0, 0⟩ = some (7, none) ∧ readDay ⟨0, 8, 1, [⟨0, 2, 0, 0⟩]⟩ = some (0, 8, [⟨0, .free⟩]) ∧
      row editing.books.stagedBook.plans 0 = some tariffPlan ∧ row editing.books.stagedBook.plans 1 = none ∧
      readLadder ⟨15, 1, [⟨1440, 6000⟩]⟩ = some (15, some [⟨1440, 6000⟩]) ∧ readLadder ⟨0, 0, []⟩ = some (0, none) ∧
      readCalendar ⟨2, [⟨0, 1⟩, ⟨65535, 2⟩]⟩ = some [⟨0, 7⟩, ⟨65535, 8⟩] ∧
      Rising CalendarEntry.day [⟨0, 7⟩, ⟨65535, 8⟩] ∧ ¬ Rising CalendarEntry.day [⟨1, 7⟩, ⟨1, 8⟩] ∧
      editing.books.activeState = .inForce ∧ State.reset.books.activeState = .empty := by
  unfold officeTakes stagedFree; decide +kernel

theorem meets_LoadsRefusedInOrder :
    officeTakes editing ∧ { editing.books with retired := true }.retired = true ∧
      { editing.books with stagedState := .checking }.stagedState = .checking ∧
      { editing.books with stagedState := .armed }.stagedState = .armed ∧
      { editing.books with heldY := true }.stagedHeld = true ∧ stagedFree editing.books ∧
      readPlan { planPart with plan := 8 } = none ∧ readDay ⟨0, 9, 1, []⟩ = none ∧ readLadder ⟨16, 0, []⟩ = none ∧
      readCalendar ⟨49, []⟩ = none := by
  unfold officeTakes stagedFree; decide +kernel

theorem meets_ArmClearAndDisarm : officeTakes (staged tariff .armed (some 101) ready) := by unfold officeTakes; decide +kernel

/-- A finding that holds of a book, and one that does not. -/
theorem meets_CheckFindsWhatIsUnsound :
    checkFindings { tariff with ladders := put tariff.ladders 0 (some [⟨60, 120⟩]) } ready.table = [.ladderOrder 0 1] ∧
      checkFindings tariff ready.table = [] := by decide +kernel

/-- The tariff passes the book check, and a book whose only ladder ends at an hour does not. -/
theorem meets_BookCheckCompletes :
    let checking := fun k => staged k .checking (some 101) ready
    let short : Book := { tariff with ladders := put tariff.ladders 0 (some [⟨60, 120⟩]) }
    running (checking tariff) = true ∧ (checking tariff).books.stagedState = .checking ∧
      bookSound (checking tariff).books.stagedBook (checking tariff).table ∧
      ¬ bookSound (checking short).books.stagedBook (checking short).table ∧ ready.books.stagedState ≠ .checking := by
  have noLadder : ∀ l : Fin 16, l ≠ 0 → row tariff.ladders l = none := by decide +kernel
  have noPlan : ∀ p : Fin 8, p ≠ 0 → row tariff.plans p = none := by decide +kernel
  refine ⟨by decide +kernel, by decide +kernel, ⟨fun l steps h => ?_, fun p plan h t => ?_, ?_⟩, fun ⟨h, _⟩ => ?_,
    by decide +kernel⟩
  · by_cases hl : l = 0
    · subst hl
      have : steps = tariffSteps := by
        have e : row tariff.ladders 0 = some tariffSteps := by decide +kernel
        exact (Option.some.inj (e.symm.trans h)).symm
      subst this
      unfold wellOrderedLadder; decide
    · have e : row tariff.ladders l = some steps := h
      rw [noLadder l hl] at e
      cases e
  · by_cases hp : p = 0
    · subst hp
      have : plan = tariffPlan := by
        have e : row tariff.plans 0 = some tariffPlan := by decide +kernel
        exact (Option.some.inj (e.symm.trans h)).symm
      subst this
      refine ⟨tariffDay, by revert t; decide +kernel, by unfold wellOrderedPattern; decide, ?_⟩
      intro q hq l m hk
      have : q = ⟨0, .free⟩ ∨ q = ⟨480, .charged 0 120⟩ ∨ q = ⟨1080, .free⟩ := by simpa [tariffDay] using hq
      rcases this with rfl | rfl | rfl
      · cases hk
      · cases hk; decide +kernel
      · cases hk
    · have e : row tariff.plans p = some plan := h
      rw [noPlan p hp] at e
      cases e
  · decide +kernel
  · have := h 0 [⟨60, 120⟩] (by decide +kernel)
    revert this
    unfold wellOrderedLadder
    decide

/-- A first book, one whose day is today, one whose day is tomorrow, and none. -/
theorem meets_BookActivation :
    running ready = true ∧ ready.clock.state = .set ∧ (staged tariff .armed (some 100) ready).books.stagedState = .armed ∧
      { ready.books with firstBook := true }.firstBook = true ∧ 100 ≤ today (staged tariff .armed (some 100) ready) ∧
      (ready.books.stagedState ≠ .armed ∧ ready.books.firstBook = false ∧ today (staged tariff .armed (some 101) ready) < 101) := by
  decide +kernel

theorem meets_ReadBook :
    officeTakes editing ∧ 97 < 98 ∧ (editing.books.stagedState ≠ .checking ∧ editing.books.retired = false) ∧
      (staged tariff .checking none ready).books.stagedState = .checking ∧ 8 = 1 + (7 : Fin 8).val ∧
      80 = 9 + 9 * (7 : Fin 8).val + (8 : Fin 9).val ∧ 96 = 81 + (15 : Fin 16).val ∧
      (staged tariff .armed none ready).books.stagedState = .armed ∧ ready.books.stagedState = .empty ∧
      editing.books.stagedState = .editing ∧ { editing.books with retired := true }.retired = true := by
  unfold officeTakes; decide +kernel

/-! ## Quote engine -/

def twoPoundsAsked : WalkRequest := { ask := .forward (.cash 200), mark := none, preview := none }
def oneHourByCard : WalkRequest := { ask := .reverse true (zoneMinute 100 780), mark := none, preview := none }
def visitorAsked (permit : Nat) : WalkRequest := { ask := .forward (.visitor 60 permit), mark := some aMark, preview := none }

/-- Terminal 1 waits no walk of its own while a preview walks. -/
def previewing : State := after (.previewQuote 1 previewPart) ready

theorem meets_AskPlaced :
    lineTakes ready 0 ∧ lineTakes previewing 0 ∧ quoteRequest twoPounds = some twoPoundsAsked ∧
      priceRequest ⟨2, 100, 780, none⟩ = some oneHourByCard ∧ askAllowed (asTaken ready 0 .quote) 0 twoPoundsAsked ∧
      askAllowed (asTaken previewing 0 .price) 0 oneHourByCard ∧ askAllowed (asTaken ready 0 .quote) 0 (visitorAsked 5) ∧
      previewing.engine.walk.isSome = true ∧ ready.engine.walk = none ∧ noRequests ready.engine := by
  refine ⟨ready_line, by unfold lineTakes lineFree; decide +kernel, by decide +kernel, by decide +kernel, ?_, ?_, ?_,
    by decide +kernel, by decide +kernel, by unfold noRequests; decide +kernel⟩
  · exact ⟨by decide +kernel, by decide +kernel, by decide +kernel, by decide +kernel, by decide +kernel, by decide +kernel,
      by decide +kernel, by decide +kernel, fun _ _ h => by cases h⟩
  · exact ⟨by decide +kernel, by decide +kernel, by decide +kernel, by decide +kernel, by decide +kernel, by decide +kernel,
      by decide +kernel, by decide +kernel, fun _ _ h => by cases h⟩
  · refine ⟨by decide +kernel, by decide +kernel, by decide +kernel, by decide +kernel, by decide +kernel, by decide +kernel,
      by decide +kernel, by decide +kernel, fun minutes permit h _ => ?_⟩
    cases h
    exact ⟨visitorPermit, ⟨300, 40, 7, 101⟩, by decide +kernel, rfl, by decide +kernel⟩

/-- Each refusal of a QUOTE comes first in some state. -/
theorem meets_AskRefusedInOrder :
    lineTakes ready 0 ∧ quoteRequest { twoPounds with amount := 50001 } = none ∧ priceRequest ⟨3, 100, 780, none⟩ = none ∧
      (let noCoins := { ready with table := put ready.table 0 { kerb with takesCoins := false } };
        (row noCoins.table 0).takesCoins = false ∧ (row noCoins.table 0).active = true) ∧
      (let marked := { ready with table := put ready.table 0 { kerb with asksMark := true } };
        (row marked.table 0).asksMark = true ∧ twoPoundsAsked.mark = none) ∧
      { ready with books := { ready.books with activeState := .empty } }.books.activeState = .empty ∧
      (unset ready).clock.state = .unset ∧ serviceState (heard 0 (after (.fault 0 1 1) ready)) 0 = .outOfService ∧
      serviceState (heard 0 (after (.fault 0 2 1) ready)) 0 = .cashOut ∧
      serviceState (heard 0 (after (.fault 0 3 1) ready)) 0 = .cardOut ∧
      (quoteRequest ⟨3, 0, 60, 6, some aMark⟩ = some (visitorAsked 6) ∧ lookup Permit.number 6 ready.permits = none) ∧
      (quoteRequest ⟨3, 0, 60, 9, some aMark⟩ = some (visitorAsked 9) ∧
        lookup Permit.number 9 ready.permits = some residentPermit) ∧
      (quoteRequest ⟨3, 0, 60, 5, some aMark⟩ = some (visitorAsked 5) ∧
        visitorPermit.covers (row ready.table 0).plan (today (at_ (zoneMinute 201 0) ready)) = false) := by
  refine ⟨ready_line, ?_⟩; decide +kernel

def previewAsked : WalkRequest :=
  { ask := .forward (.cash 200), mark := none, preview := some { tag := 1, plan := 0, pass := 0, time := none } }

/-- A terminal's request waits while the preview walks, and the preview while a terminal's walk is made. -/
theorem meets_PreviewQuote :
    officeTakes ready ∧ previewRequest { previewPart with form := 3 } 1 = none ∧
      previewRequest previewPart 1 = some previewAsked ∧
      (previewRequest { previewPart with timed := 1, day := 100, minute := 719 } 1).isSome = true ∧ noon - 1 < now ready ∧
      (unset ready).clock.state = .unset ∧ row ready.books.activeBook.plans 7 = none ∧
      row ready.books.activeBook.plans 0 ≠ none ∧ ready.books.activeState = .inForce ∧
      (officeTakes previewing ∧ previewing.engine.walk.map Walk.slot = some officeSlot) ∧
      (officeTakes walking ∧ row walking.engine.slots officeSlot = none ∧
        walking.engine.walk.map Walk.slot = some (lineSlot 0)) ∧
      ready.engine.walk = none ∧ noRequests ready.engine := by
  unfold officeTakes noRequests; decide +kernel

/-- Requests of terminal 16 and of the office wait at a free engine that served slot 16's neighbour last. -/
def waitingAt (i : Fin 17) (r : WalkRequest) (last : Fin 17) : State :=
  { ready with engine := { ready.engine with slots := put ready.engine.slots i (some r), last := last } }

theorem meets_WalkBegin :
    running ready = true ∧ walking.engine.walk.isSome = true ∧ noRequests ready.engine ∧
      (waitingAt 15 twoPoundsAsked 15).engine.walk = none ∧ ready.clock.state = .set ∧
      firstInTurn (waitingAt 15 twoPoundsAsked 15).engine (lineSlot 15) twoPoundsAsked ∧ twoPoundsAsked.preview = none ∧
      firstInTurn (waitingAt officeSlot previewAsked 15).engine officeSlot previewAsked := by
  refine ⟨by decide +kernel, by decide +kernel, by unfold noRequests; decide +kernel, by decide +kernel, by decide +kernel,
    ?_, by decide +kernel, ?_⟩
  · exact ⟨by decide +kernel, 16, by decide +kernel, by decide +kernel⟩
  · exact ⟨by decide +kernel, 0, by decide +kernel, by decide +kernel⟩

/-- The clock UNSET with a request of terminal 16 waiting, and with a preview waiting. -/
theorem meets_WalkBegin_unset :
    let line16 := unset (waitingAt 15 twoPoundsAsked 15)
    let office := unset (waitingAt officeSlot previewAsked 15)
    line16.engine.walk = none ∧ line16.clock.state = .unset ∧ slotsKept line16 ∧ slotsKept office ∧
      row line16.engine.slots (lineSlot 15) ≠ none ∧ row line16.engine.slots (lineSlot 0) = none ∧
      row line16.engine.slots officeSlot = none ∧ (row line16.table 15).mode = .normal ∧
      row office.engine.slots officeSlot = some previewAsked ∧ previewAsked.preview.isSome = true := by
  have kept : ∀ (i : Fin 17) (r : WalkRequest), (r.preview.isSome = true ↔ i = officeSlot) →
      slotsKept (unset (waitingAt i r 15)) := by
    intro i r h
    have none_ : ∀ j : Fin 17, row ready.engine.slots j = none := by decide +kernel
    have walk : (unset (waitingAt i r 15)).engine.walk = none := by
      show ready.engine.walk = none
      decide +kernel
    have search : (unset (waitingAt i r 15)).cover.search = none := by
      show ready.cover.search = none
      decide +kernel
    refine ⟨fun j q hq => ?_, (fun w hw => by rw [walk] at hw; cases hw), (fun q hq => by rw [search] at hq; cases hq)⟩
    by_cases hj : j = i
    · subst hj
      have : r = q := by
        change row (put ready.engine.slots j (some r)) j = some q at hq
        rw [row_put_self] at hq
        exact Option.some.inj hq
      rw [← this]; exact h
    · change row (put ready.engine.slots i (some r)) j = some q at hq
      rw [row_put_other _ _ hj, none_ j] at hq
      cases hq
  exact ⟨by decide +kernel, by decide +kernel, kept 15 _ (by decide), kept officeSlot _ (by decide), by decide +kernel⟩

/-- The walk for two pounds: eighty minutes. -/
def twoPoundsWalk : Walk :=
  { slot := 0, request := twoPoundsAsked, time := noon, view := { active := .x, generation := 0, staged := none, revision := 0 }
    plan := 0, pass := coldPass, mode := .normal, discard := false, orphaned := false, stage := .link }

def twoPoundsResult : WalkResult :=
  { plan := 0, payKind := .cash, mode := .normal, walkTime := noon, start := noon, expiry := zoneMinute 100 800
    terms := .money 200 200 0, mark := none, linked := none, finalStart := zoneMinute 100 480, finalMinutes := 80, conds := 0
    generation := 0, revision := 0, usedStaged := false, wanted := none }

theorem meets_WalkResultBecomesQuote :
    running walking = true ∧ walking.clock.state = .set ∧ walking.engine.walk = some twoPoundsWalk ∧
      twoPoundsWalk.slot = lineSlot 0 ∧ twoPoundsWalk.request.preview = none ∧ twoPoundsWalk.discard = false ∧
      (runStages walkFuel walking twoPoundsWalk).2 = .result twoPoundsResult ∧ (row walking.lines 0).state = .pending ∧
      (row walking.lines 0).request.isSome = true ∧ (row walking.lines 0).frame = none ∧ noRequests walking.engine := by
  unfold noRequests; decide +kernel

/-- Twenty pence, below the minimum charge of fifty. -/
def shortWalk : Walk := { twoPoundsWalk with request := { twoPoundsAsked with ask := .forward (.cash 20) }, pass := 0 }

/-- A walk refused HELD, and one refused for its permit. -/
theorem meets_WalkRefusedIsAnswered :
    let at_ := fun w : Walk => { walking with engine := { walking.engine with walk := some w } }
    let visitor := { twoPoundsWalk with request := visitorAsked 6 }
    (at_ shortWalk).engine.walk = some shortWalk ∧
      (∃ c, (runStages walkFuel (at_ shortWalk) shortWalk).2 = .refused .held (some .short) c) ∧
      (runStages walkFuel (at_ visitor) visitor).2 = .refused .noPermit none 0 ∧ (row walking.lines 0).state = .pending ∧
      (row walking.lines 0).request.isSome = true ∧ (row walking.lines 0).frame = none ∧ running walking = true := by
  refine ⟨rfl, ⟨Cond.bit .short, by decide +kernel⟩, by decide +kernel, by decide +kernel, by decide +kernel, by decide +kernel,
    by decide +kernel⟩

/-- A walk marked for discard by a clock setting, an orphan, and a preview. -/
theorem meets_WalkDiscardedOrPreviewed :
    running walking = true ∧ walking.clock.state = .set ∧ noRequests walking.engine ∧
      { twoPoundsWalk with discard := true }.discard = true ∧
      { twoPoundsWalk with discard := true, orphaned := true }.orphaned = true ∧ twoPoundsWalk.orphaned = false ∧
      (row walking.lines 0).state = .pending ∧ (row walking.lines 0).request.isSome = true ∧
      (row walking.lines 0).frame = none ∧
      previewing.engine.walk.map (fun w => w.request) = some previewAsked ∧ noRequests previewing.engine := by
  unfold noRequests; decide +kernel

theorem meets_EveryWalkEnds : twoPoundsWalk.stage = .link := rfl

/-- The tariff of the walk, its span at noon, and a trail that has entered it. -/
def zoneTariff : Tariff := tariffOf walking twoPoundsWalk
def noonSpan : Span :=
  { start := zoneMinute 100 480, stop := zoneMinute 100 1080, kind := .charged tariffSteps 120, byStaged := false, header := tariffHeader }
def eveningSpan : Span := { noonSpan with start := zoneMinute 100 1080, stop := zoneMinute 101 0, kind := .free }
def noonTrail : Trail :=
  { startByStaged := false, point := noon, entered := 1, chargedMet := true, budget := 30, bought := 0, usedStaged := false
    span := noonSpan, buyingPoint := noon, entryCount := 0, inSpan := 22 }
def noonContext : WalkContext := { link := { start := noon, serial := none, preload := none }, conds := 0, priced := none }

/-- A 17th span and one of day 65,536; a later span of the start span's book; a FREE span; a CHARGED one with want of budget, its
end reached, its maximum stay reached with no budget left, and CAP. -/
theorem meets_EveryWalkEnds_stages :
    16 ≤ { noonTrail with entered := 16 }.entered ∧ 65535 < (zoneMinute 65536 0) / 1440 ∧ noonTrail.entered < 16 ∧
      noonTrail.point / 1440 ≤ 65535 ∧ zoneTariff.servedByStaged (noonTrail.point / 1440) = noonTrail.startByStaged ∧
      zoneTariff.spanAt noon = some noonSpan ∧ eveningSpan.kind = .free ∧
      (buy (.cash 200) 0 120 12000 tariffSteps).2.2 = some 240 ∧
      ((buy (.cash 200) 0 60 12000 tariffSteps).2.2 = none ∧
        noon + (buy (.cash 200) 0 60 12000 tariffSteps).1 = { noonSpan with stop := noon + 60 }.stop) ∧
      (buy (.cash 360) 0 120 21600 tariffSteps = (120, 0, none) ∧ noon + 120 ≠ noonSpan.stop) ∧
      buy (.cash 400) 0 120 24000 tariffSteps = (120, 2400, none) := by
  decide +kernel

/-- A walk at each kind of stage. -/
theorem meets_EveryWalkEnds_dispatch :
    let at_ := fun k : Stage => (({ twoPoundsWalk with stage := k } : Walk).stage = k : Prop)
    at_ (.checks noonContext) ∧ at_ (.forward noonContext noonTrail) ∧ at_ (.finish noonContext noonTrail .cap) ∧
      at_ (.place noonContext noonSpan) ∧ at_ (.price noonContext noonSpan 0 noon) ∧ at_ (.done (.result twoPoundsResult)) :=
  ⟨rfl, rfl, rfl, rfl, rfl, rfl⟩

/-- A day served by the staged book, the last day before it, and a tariff without one; the tariff of a test; a plan that the book
lacks, and the first and last minutes of two periods of a pattern. -/
theorem meets_EveryWalkEnds_instances :
    let coming := { zoneTariff with staged := some (tariff, 101) }
    (coming.test = false ∧ coming.servedByStaged 101 = true ∧ coming.servedByStaged 100 = false ∧
        zoneTariff.servedByStaged 65535 = false) ∧
      (tariffOf walking { twoPoundsWalk with mode := .test }).test = true ∧
      row (zoneTariff.book 100).plans { zoneTariff with plan := 1 }.plan = none ∧
      row (zoneTariff.book 100).plans zoneTariff.plan = some tariffPlan ∧
      row tariffPlan.patterns (dayType zoneTariff.overrides (zoneTariff.book 100) 100) = some tariffDay ∧
      wellOrderedPattern tariffDay ∧ holdsMinute tariffDay 480 ⟨480, .charged 0 120⟩ 1080 ∧
      holdsMinute tariffDay 1079 ⟨480, .charged 0 120⟩ 1080 ∧ holdsMinute tariffDay 1080 ⟨1080, .free⟩ 1440 ∧
      holdsMinute tariffDay 1439 ⟨1080, .free⟩ 1440 := by
  refine ⟨by decide +kernel, by decide +kernel, by decide +kernel, by decide +kernel, by decide +kernel,
    by unfold wellOrderedPattern; decide, ⟨[⟨0, .free⟩], [⟨1080, .free⟩], rfl, by decide⟩,
    ⟨[⟨0, .free⟩], [⟨1080, .free⟩], rfl, by decide⟩, ⟨[⟨0, .free⟩, ⟨480, .charged 0 120⟩], [], rfl, by decide⟩,
    ⟨[⟨0, .free⟩, ⟨480, .charged 0 120⟩], [], rfl, by decide⟩⟩

/-- A day with an override, one with a calendar entry alone, and one with neither. -/
theorem meets_EveryWalkEnds_dayTypes :
    lookup Override.day 100 eightOverrides.clock.overrides = some ⟨100, 8⟩ ∧
      lookup Override.day 108 eightOverrides.clock.overrides = none ∧
      lookup CalendarEntry.day 108 [⟨108, 7⟩] = some (⟨108, 7⟩ : CalendarEntry) ∧
      lookup CalendarEntry.day 109 [⟨108, 7⟩] = (none : Option CalendarEntry) := by decide +kernel

/-- Eighty minutes for two pounds; a budget that runs out, and one that fills the room. -/
theorem meets_MoneyBuysWholeMinutes :
    wellOrderedLadder tariffSteps ∧ 0 + 1440 ≤ 1440 ∧ (buyMoney 0 120 12000 tariffSteps).1 = 80 ∧
      (buyMoney 0 120 12000 tariffSteps).2.2 = some 240 ∧ (buyMoney 0 60 12000 tariffSteps).2.2 = none ∧
      60 ≤ 120 ∧ ladderCost 0 60 tariffSteps ≤ 12000 := by
  unfold wellOrderedLadder; decide

/-- A PRICE until 20:00, in FREE time: it goes back to 18:00, on the grid of its CHARGED span, or to no time where the walk starts at
19:00; one until 13:03, off the grid; one under a plan the book lacks. -/
theorem meets_MoneyBuysWholeMinutes_reverse :
    let w := { twoPoundsWalk with request := oneHourByCard }
    let evening := zoneMinute 100 1200
    reverseWanted w noonContext = some (zoneMinute 100 780) ∧ noon < evening ∧
      uncharged zoneTariff noon [eveningSpan] evening ∧ noon < eveningSpan.start ∧
      zoneTariff.spanAt (eveningSpan.start - 1) = some noonSpan ∧ isCharged noonSpan = true ∧
      (noonSpan.stop - max noon noonSpan.start) % tariffHeader.minuteStep = 0 ∧
      (zoneMinute 100 783 - max noon noonSpan.start) % tariffHeader.minuteStep ≠ 0 ∧
      uncharged zoneTariff (zoneMinute 100 1140) [eveningSpan] evening ∧ eveningSpan.start ≤ zoneMinute 100 1140 ∧
      { zoneTariff with plan := 1 }.spanAt (evening - 1) = none ∧ 0 < tariffHeader.coinUnit ∧
      priceOf tariffHeader 12000 = 200 ∧ 50000 < priceOf tariffHeader (60 * 50001) := by
  refine ⟨by decide +kernel, by decide +kernel, ⟨by decide +kernel, by decide +kernel, rfl, trivial⟩, by decide +kernel,
    by decide +kernel, rfl, by decide +kernel, by decide +kernel, ⟨by decide +kernel, by decide +kernel, rfl, trivial⟩,
    by decide +kernel⟩

/-- The reverse walk of a span: up to the wanted expiry, to the span's end, and to the maximum stay. -/
theorem meets_MoneyBuysWholeMinutes_span :
    let room := fun point => min (noonSpan.stop - point) (120 - 0)
    noon + 60 - noon ≤ room noon ∧ (room noon < noon + 150 - noon ∧ noon + room noon ≠ noonSpan.stop) ∧
      (room (zoneMinute 100 1020) < zoneMinute 100 1200 - zoneMinute 100 1020 ∧
        zoneMinute 100 1020 + room (zoneMinute 100 1020) = noonSpan.stop) := by decide +kernel

/-- Halfway; a leftover at a rate; rounding for a visitor and after CAP; a value rounded up and clamped, and one rounded down. -/
theorem meets_RoundingModes :
    (0 < 5 ∧ 0 < 2 ∧ 2 * 25 = 2 * roundTo .halfEven 5 25 2 * 2 + 5 * 2) ∧ noonTrail.span.kind = .charged tariffSteps 120 ∧
      (¬ ∃ wanted permit, effectivePayment twoPoundsWalk noonContext = .visitor wanted permit) ∧
      (∃ wanted permit, effectivePayment { twoPoundsWalk with request := visitorAsked 5 } noonContext = .visitor wanted permit) ∧
      roundTo .floor 5 (22 * 240 + 30) 240 * 240 ≤ 22 * 240 + 30 ∧ 22 * 240 + 30 < roundTo .ceil 5 (22 * 240 + 30) 240 * 240 ∧
      Cond.round.isIn twoPoundsWalk.pass = true ∧ Cond.round.isIn shortWalk.pass = false :=
  ⟨⟨by decide, by decide, by decide⟩, rfl, (by rintro ⟨_, _, h⟩; cases h), ⟨60, 5, rfl⟩, by decide, by decide, by decide, by decide⟩

theorem meets_ChosenSessionIsLatest :
    let r : Session :=
      { serial := 1, ticket := ⟨17, 1, 1⟩, kind := .paidCash, payment := .cash (Vector.replicate 8 0), plan := 0, issue := noon
        sold := noon, start := noon, expiry := noon, price := 0, overpaid := 0, mark := some aMark, linked := none
        finalStart := noon, finalMinutes := 0, conds := 0, generation := 0, usedStaged := false }
    chosenSession [r] 0 aMark = some r ∧ chosenSession [] 0 aMark = none ∧ noon - 1 < r.expiry ∧
      (0 < tariffHeader.noReturn ∧ noon + 59 < r.expiry + tariffHeader.noReturn) ∧
      r.expiry + tariffHeader.noReturn ≤ noon + 60 := by decide +kernel

/-- NOSALE, SHORT and neither at the start; a visitor's permit that is read with enough, with some and with no minutes. -/
theorem meets_ChosenSessionIsLatest_start :
    { eveningSpan with kind := .noSale }.kind = .noSale ∧ noonSpan.kind ≠ .noSale ∧ reverseWanted twoPoundsWalk noonContext = none ∧
      (effectivePayment shortWalk noonContext = .cash 20 ∧ 20 < noonSpan.header.minimumCharge) ∧
      (effectivePayment twoPoundsWalk noonContext = .cash 200 ∧ ¬ 200 < noonSpan.header.minimumCharge) ∧
      effectivePayment { twoPoundsWalk with request := visitorAsked 5 } noonContext = .visitor 60 5 ∧
      lookup Permit.number 5 (refreshIn ready.permits 5 (today ready)) = some visitorPermit ∧
      visitorPermit.covers twoPoundsWalk.plan (twoPoundsWalk.time / 1440) = true ∧
      (let allowance := workedAllowance visitorPermit (today ready) (twoPoundsWalk.time / 1440);
        (36 + (5 - 1)) / 5 * 5 ≤ allowance ∧ allowance < (60 + (5 - 1)) / 5 * 5 ∧ 0 < allowance / 5 * 5) ∧
      4 < (60 + (5 - 1)) / 5 * 5 ∧ 4 / 5 * 5 = 0 := by decide +kernel

/-! ## Terminal controller and sale unit -/

theorem meets_FramesAnsweredAtOnce :
    lineFree ready 0 ∧ lineFree ready 15 ∧ (Instr.fault 15 0 1).origin = .line 15 ∧ requestInRange (.fault 15 0 1) = true ∧
      (row ready.table 15).active = false :=
  ⟨ready_line.1, by unfold lineFree; decide +kernel, rfl, by decide +kernel, by decide +kernel⟩

theorem meets_SecondFrameIsBusy :
    running walking = true ∧ (Instr.hello 0).origin = .line 0 ∧ isRequest (.hello 0) = true ∧
      (row walking.lines 0).state = .pending := by decide +kernel

/-- Line 1 in another state. -/
def onLine1 (u : LineUnit) (s : State) : State := { s with lines := put s.lines 0 u }

def held : LineAnswer := { status := .ok, body := .empty }

/-- A reply of line 1. -/
def someReply : LineReply := { answer := held, envelope := envelopeOf ready 0 }

theorem meets_DiscardsAreCounted :
    running ready = true ∧ (row ready.lines 0).state = .idle ∧
      (row (onLine1 { LineUnit.cold with state := .receiving, frame := some [] } ready).lines 0).state = .receiving ∧
      ((row walking.lines 0).state = .pending ∧ (row walking.lines 0).held = none) ∧
      (row (onLine1 { LineUnit.cold with state := .pending, held := some held } ready).lines 0).held = some held ∧
      (row (onLine1 { LineUnit.cold with state := .replying someReply true false } ready).lines 0).state =
        .replying someReply true false ∧
      (row (onLine1 { LineUnit.cold with state := .replying someReply false true } ready).lines 0).state =
        .replying someReply false true := by decide +kernel

/-- The hour's sixteenth discard. -/
theorem meets_DiscardsAreCounted_sixteenth :
    let s := { ready with table := put ready.table 0 { kerb with discards := 15 } }
    running s = true ∧ (row s.lines 0).state = .idle ∧ min 65535 ((row s.table 0).discards + 1) = 16 ∧
      (terminalRecord s.faults 0 .lineNoisy).state ≠ .opened := by decide +kernel

theorem meets_ReplyEnd :
    running ready = true ∧
      (let u : LineUnit := { LineUnit.cold with state := .replying someReply true false };
        u.state = .replying someReply true false ∧ u.held = none) ∧
      (let u : LineUnit := { LineUnit.cold with state := .replying someReply true true, held := some held };
        u.state = .replying someReply true true ∧ u.held = some held) ∧
      ∀ r back hit, (row ready.lines 0).state ≠ .replying r back hit := by
  refine ⟨by decide +kernel, by decide +kernel, by decide +kernel, fun r back hit h => ?_⟩
  have e : (row ready.lines 0).state = .idle := by decide +kernel
  rw [e] at h; cases h

theorem meets_ConfigureTerminal :
    officeTakes ready ∧ readTerminal { terminalPart with capacity := 499 } = none ∧
      readTerminal { terminalPart with capacity := 500, pass := 511 } = some (0, 0, 511) ∧
      readTerminal { terminalPart with terminal := 16, plan := 7 } = some (15, 7, 0) ∧
      ready.books.activeState = .inForce ∧ row ready.books.activeBook.plans 7 = none ∧
      row ready.books.activeBook.plans 0 ≠ none ∧ ready.books.stagedState ≠ .armed ∧ (tallyOf ready 15).present = false ∧
      (tallyOf ready 15).absentMark = false ∧
      (staged Book.empty .armed (some 101) ready).books.stagedState = .armed := by
  unfold officeTakes; decide +kernel

/-- A capacity of 500 against a PRESENT box: the marks turn ON at 450 and at 500 coins, and OFF one coin below. -/
theorem meets_ConfigureTerminal_box :
    let with_ := fun y : Tally => { ready with cash := { ready.cash with tallies := put ready.cash.tallies 0 y } }
    let holding := fun coins => { box7 with counts := #v[coins, 0, 0, 0, 0, 0, 0, 0] }
    (tallyOf (with_ (holding 450)) 0).present = true ∧ (tallyOf (with_ (holding 450)) 0).nearMark = false ∧
      500 * 9 / 10 ≤ total (tallyOf (with_ (holding 450)) 0).counts ∧
      ¬ 500 * 9 / 10 ≤ total (tallyOf (with_ { holding 449 with nearMark := true }) 0).counts ∧
      500 ≤ total (tallyOf (with_ (holding 500)) 0).counts ∧
      ¬ 500 ≤ total (tallyOf (with_ { holding 499 with fullMark := true }) 0).counts ∧
      officeTakes (with_ (holding 450)) ∧ graceKept (with_ (holding 450)) :=
  ⟨by decide +kernel, by decide +kernel, by decide +kernel, by decide +kernel, by decide +kernel, by decide +kernel,
    by unfold officeTakes; decide +kernel, kept_of _ (by decide +kernel)⟩

/-- A terminal that retires while its plan is unserved, its box empty. -/
theorem meets_RetireTerminal_grace :
    let bare := { unservedZone with cash := CashUnit.cold }
    officeTakes bare ∧ (row bare.table 0).active = true ∧ graceKept bare ∧ row bare.faults.grace 0 = .active noon :=
  ⟨by unfold officeTakes; decide +kernel, by decide +kernel, kept_of _ (by decide +kernel), by decide +kernel⟩

theorem meets_RetireTerminal :
    officeTakes ready ∧ terminalOf 17 = none ∧ terminalOf 16 = some 15 ∧ (row ready.table 15).active = false ∧
      terminalOf 1 = some 0 ∧ (row ready.table 0).active = true ∧
      ((tallyOf ready 0).present = true ∧ 0 < total (tallyOf ready 0).counts) ∧
      (let bare := { ready with cash := CashUnit.cold }; officeTakes bare ∧ (row bare.table 0).active = true ∧
        ¬ ((tallyOf bare 0).present = true ∧ 0 < total (tallyOf bare 0).counts)) := by
  unfold officeTakes; decide +kernel

theorem meets_Conditions :
    officeTakes ready ∧ 16 < 17 ∧ 512 ≤ (512#16).toNat ∧ (511#16).toNat < 512 ∧ 16 = (15 : Line).number ∧
      (row ready.table 15).active = false ∧ 1 = (0 : Line).number ∧ (row ready.table 0).active = true := by
  unfold officeTakes; decide +kernel

theorem meets_LineReset :
    sourceTakes ready .office .engineer ∧ sourceTakes ready (.service 1) .engineer ∧ terminalOf 17 = none ∧
      terminalOf 16 = some 15 :=
  ⟨ready_office, ready_service .engineer, by decide +kernel, by decide +kernel⟩

/-- Terminal 1 in TEST. -/
def testing : State := after (.testLine 1 1 1) ready

theorem meets_TestMode :
    (0 < 1 ∧ 16 < 17) ∧ 1 = (0 : Line).number ∧ 16 = (15 : Line).number ∧ serviceTakes ready 1 .engineer ∧ serviceTakes testing 1 .engineer ∧
      (row ready.table 15).active = false ∧ ((row ready.table 0).active = true ∧ (row ready.table 0).mode = .normal) ∧
      ((row testing.table 0).active = true ∧ (row testing.table 0).mode = .test) ∧ running testing = true ∧
      testing.clock.state = .set ∧ (row testing.table 0).testStart + 30 ≤ now (at_ (noon + 30) testing) ∧
      now (at_ (noon + 29) testing) < (row testing.table 0).testStart + 30 :=
  ⟨by decide, by decide, by decide, ready_service .engineer, by unfold serviceTakes; decide +kernel, by decide +kernel,
    by decide +kernel, by decide +kernel, by decide +kernel, by decide +kernel, by decide +kernel, by decide +kernel⟩

/-- The open quote for two pounds. -/
def twoPoundsQuote : OpenQuote := { result := twoPoundsResult, number := 1, made := noon }

/-- An open quote of a visitor for forty minutes on permit 5. -/
def visitorQuote : OpenQuote :=
  { twoPoundsQuote with result := { twoPoundsResult with payKind := .visitor, terms := .visitor 5 40, mark := some aMark } }

def sellingVisitor : State := { quoted with quotes := put quoted.quotes 0 (some visitorQuote) }

/-- A session that ended at noon, or ends a minute later. -/
def someSession (serial : Nat) (expiry : ZoneMinute) : Session :=
  { serial := serial, ticket := ⟨17, 1, serial⟩, kind := .paidCash, payment := .cash (Vector.replicate 8 0), plan := 0
    issue := noon, sold := noon, start := noon, expiry := expiry, price := 0, overpaid := 0, mark := some aMark, linked := none
    finalStart := noon, finalMinutes := 0, conds := 0, generation := 0, usedStaged := false }

/-- A full log of such sessions. -/
def fullLog (expiry : ZoneMinute) : List Session := (List.range 4096).map fun i => someSession (i + 1) expiry

theorem meets_SaleCommits :
    lineTakes quoted 0 ∧ readSale twoCoins = some (twoPoundsQuote.number, .cash #v[0, 0, 0, 2, 0, 0, 0, 0]) ∧
      quoted.clock.state = .set ∧ row quoted.quotes 0 = some twoPoundsQuote ∧ freshFor quoted twoPoundsQuote .cash ∧
      freshFor (at_ (noon + 2) quoted) twoPoundsQuote .cash ∧
      paymentAgrees quoted twoPoundsQuote (.cash #v[0, 0, 0, 2, 0, 0, 0, 0]) ∧ paymentAgrees quoted twoPoundsQuote (.card 200) ∧
      paymentAgrees sellingVisitor visitorQuote .visitor ∧ freshFor sellingVisitor visitorQuote .visitor ∧
      serviceAllows (serviceState (heard 0 quoted) 0) .cash ∧ serviceAllows .cashOut .card ∧ serviceAllows .paymentOut .visitor ∧
      quoted.sales.nextSerial = some 1 ∧ quoted.sales.log.length < 4096 ∧
      (¬ (fullLog noon).length < 4096 ∧ ∃ r ∈ fullLog noon, r.expiry ≤ now quoted) := by
  refine ⟨by unfold lineTakes lineFree; decide +kernel, by decide +kernel, by decide +kernel, by decide +kernel,
    by unfold freshFor; decide +kernel, by unfold freshFor; decide +kernel, ?_, ⟨200, 0, rfl⟩, ?_,
    by unfold freshFor; decide +kernel, by unfold serviceAllows; decide +kernel, by unfold serviceAllows; decide,
    by unfold serviceAllows; decide, by decide +kernel, by decide +kernel, by decide +kernel, someSession 1 noon,
    by decide +kernel, by decide +kernel⟩
  · exact ⟨200, 200, 0, rfl, by decide +kernel, by decide +kernel⟩
  · exact ⟨5, 40, visitorPermit, ⟨300, 40, 7, 101⟩, rfl, by decide +kernel, rfl, by decide +kernel, by decide⟩

/-- A sale with true grace records; one that fills the log to 3,840; the pressure mark ON at 3,071; LINE_SILENT standing; a box whose
marks turn ON. -/
theorem meets_SaleCommits_notices :
    graceKept quoted ∧ lineTakes quoted 0 ∧ ((fullLog noon).take 3839).length + 1 = 3840 ∧
      ((fullLog noon).take 3071).length + 1 ≤ 3072 ∧ (row quoted.faults.zone 3).state ≠ .opened ∧
      stands { quoted with faults := silentZone.faults } 0 .lineSilent ∧
      ((tallyOf quoted 0).nearMark = false ∧ 6 * 9 / 10 ≤ total (tallyOf quoted 0).counts + 2 ∧
        6 ≤ total (tallyOf quoted 0).counts + 2 ∧ (terminalRecord quoted.faults 0 .boxFull).state ≠ .opened) := by
  unfold lineTakes lineFree stands
  exact ⟨kept_of _ (by decide +kernel), by decide +kernel⟩

theorem meets_SaleRefusedInOrder :
    lineTakes quoted 0 ∧ readSale { twoCoins with number := 0 } = none ∧
      readSale twoCoins = some (1, .cash #v[0, 0, 0, 2, 0, 0, 0, 0]) ∧ (unset quoted).clock.state = .unset ∧
      (readSale { twoCoins with number := 2 } = some (2, .cash #v[0, 0, 0, 2, 0, 0, 0, 0]) ∧ twoPoundsQuote.number ≠ 2) ∧
      ¬ freshFor (at_ (noon + 3) quoted) twoPoundsQuote .cash ∧ freshFor quoted twoPoundsQuote .cash ∧
      ¬ paymentAgrees quoted twoPoundsQuote (.cash #v[1, 0, 0, 2, 0, 0, 0, 0]) ∧
      (visitorQuote.result.terms = .visitor 5 40 ∧
        lookup Permit.number 5 { sellingVisitor with permits := [] }.permits = none ∧
        visitorPermit.covers visitorQuote.result.plan (today (at_ (zoneMinute 201 0) sellingVisitor)) = false ∧
        lookup Permit.number 5 (refreshIn sellingVisitor.permits 5 (today sellingVisitor)) = some visitorPermit ∧
        visitorPermit.covers visitorQuote.result.plan (today sellingVisitor) = true ∧ 40 < 41) ∧
      serviceState (heard 0 (after (.fault 0 1 1) { quoted with lines := State.reset.lines })) 0 = .outOfService ∧
      { quoted.sales with nextSerial := none }.nextSerial = none ∧
      (4096 ≤ (fullLog (noon + 1)).length ∧ ∀ x ∈ fullLog (noon + 1), now quoted < x.expiry) := by
  refine ⟨by unfold lineTakes lineFree; decide +kernel, by decide +kernel, by decide +kernel, by decide +kernel,
    by decide +kernel, by unfold freshFor; decide +kernel, by unfold freshFor; decide +kernel, ?_, by decide +kernel,
    by decide +kernel, by decide +kernel, by decide +kernel, ?_⟩
  · rintro ⟨amount, price, excess, h, _, hv⟩
    cases h
    revert hv
    decide +kernel
  · intro x hx
    simp only [fullLog, List.mem_map] at hx
    obtain ⟨i, _, rfl⟩ := hx
    have e : now quoted = noon := by decide +kernel
    rw [e]
    exact Nat.lt_succ_self noon

/-! ## Reads, permits, cover -/

theorem meets_ReadTotals :
    officeTakes ready ∧ totalsKept ready ∧ 16 < 17 ∧ 16 = (15 : Line).val + 1 ∧ 1 = (0 : Line).val + 1 := by
  unfold officeTakes totalsKept; decide +kernel

theorem meets_ReadsChangeNothing :
    officeTakes ready ∧ (8 < 9 ∧ 95 < 96 ∧ 4294967295 < 4294967296 ∧ 1 ≤ 8 ∧ 8 ≤ 8) ∧ sourceTakes ready .office .engineer ∧
      (17 < 18 ∧ 16 = (15 : Line).number) ∧ serviceTakes ready 1 .collector ∧ ready.cash.round = none ∧
      (after (.openRound 1 1 65535) ready).cash.round.isSome = true ∧ sourceTakes ready (.service 2) .any :=
  ⟨ready_office, by decide, ready_office, by decide, ready_service .collector, by decide +kernel, by decide +kernel,
    by unfold sourceTakes serviceTakes; decide +kernel⟩

/-- A register of 1,536 permits. -/
def fullRegister : State := { ready with permits := (List.range 1536).map fun i => { residentPermit with number := i + 1000 } }

theorem meets_PermitCommands :
    officeTakes ready ∧ readPermitFields { permitPart with plans := 0 } = none ∧ 93 + 7 ≤ today ready ∧
      (readPermitFields permitPart).isSome = true ∧ today ready < 94 + 7 ∧
      (officeTakes fullRegister ∧ lookup Permit.number 9 fullRegister.permits = none ∧ 1536 ≤ fullRegister.permits.length) ∧
      lookup Permit.number 9 ready.permits = some residentPermit ∧ ready.permits.length < 1536 ∧
      readPermitFields ⟨5, 3, 1, 1, 90, 200, 0, #v[[], [], []], 6000, 35⟩ = some (false, .visitorBook 6000 35) ∧
      lookup Permit.number 5 ready.permits = some visitorPermit ∧ 9999999 < 10000000 ∧
      lookup Permit.number 9999999 ready.permits = none ∧ residentPermit.suspended = false := by
  unfold officeTakes; decide +kernel

theorem meets_ReadPermit :
    officeTakes ready ∧ 9999999 < 10000000 ∧ (∀ p ∈ ready.permits, p.number ≠ 1) ∧
      lookup Permit.number 5 ready.permits = some visitorPermit ∧ today ready < 101 ∧
      (101 ≤ today (at_ (zoneMinute 101 0) ready) ∧ 0 < 7) ∧ (∀ p ∈ ready.permits, p.number ≤ 9) ∧
      Rising Permit.number ready.permits ∧ lowestOf (fun q => 5 < q.number) ready.permits residentPermit ∧
      lowestOf (fun q => 0 < q.number) ready.permits visitorPermit := by
  unfold officeTakes lowestOf; decide +kernel

/-- A cover search is in flight for the office, and one waits for the service port. -/
def searching : State :=
  after (.cover (.service 2) 4 ⟨0, 1, 17, 1, 1, []⟩) (after (.cover .office 3 ⟨0, 2, 0, 0, 0, aMark⟩) ready)

def markSearch : Search := { source := .office, plan := 0, key := .mark aMark, time := noon, window := 10, stage := .begun }
def markCover : CoverRequest := { tag := 3, plan := 0, key := .mark aMark }
def ticketCover : CoverRequest := { tag := 4, plan := 0, key := .ticket ⟨17, 1, 1⟩ }

theorem meets_CoverBegins :
    sourceTakes ready .office .officer ∧ sourceTakes ready (.service 2) .officer ∧
      readCover ⟨8, 2, 0, 0, 0, aMark⟩ = none ∧ readCover ⟨7, 2, 0, 0, 0, aMark⟩ = some (7, .mark aMark) ∧
      (unset ready).clock.state = .unset ∧ searching.cover.slot .office ≠ .empty ∧
      (ready.cover.slot .office = .empty ∧ ready.cover.search = none) ∧
      (let one := after (.cover .office 3 ⟨0, 2, 0, 0, 0, aMark⟩) ready; one.cover.slot .service = .empty ∧
        one.cover.search ≠ none ∧ sourceTakes one (.service 2) .officer) ∧
      running ready = true ∧
      (let w : CoverUnit := { CoverUnit.cold with office := .waiting markCover, service := .waiting ticketCover };
        w.search = none ∧ w.slot .service = .waiting ticketCover ∧ w.last ≠ .service) ∧ 30 < 31 := by
  refine ⟨ready_office, by unfold sourceTakes serviceTakes; decide +kernel, by decide +kernel, by decide +kernel,
    by decide +kernel, by decide +kernel, by decide +kernel,
    ⟨by decide +kernel, by decide +kernel, by unfold sourceTakes serviceTakes; decide +kernel⟩, by decide +kernel,
    by decide +kernel, by decide⟩

/-- While the clock is UNSET: one COVER waits, and both wait, at a unit that served the service port last. -/
theorem meets_CoverBegins_unset :
    let one := { unset ready with cover := { CoverUnit.cold with office := .waiting markCover } }
    let both := { unset ready with
      cover := { CoverUnit.cold with office := .waiting markCover, service := .waiting ticketCover, last := .service } }
    running one = true ∧ one.cover.search = none ∧ one.clock.state = .unset ∧ one.cover.slot .office = .waiting markCover ∧
      one.cover.slot .service = .empty ∧ both.cover.search = none ∧ both.cover.last = .service ∧
      both.cover.slot .office = .waiting markCover ∧ both.cover.slot .service = .waiting ticketCover := by decide +kernel

/-- A search ends while the clock is UNSET and a COVER waits. -/
theorem meets_SearchCompletes_unset :
    running (unset searching) = true ∧ (unset searching).clock.state = .unset ∧
      (unset searching).cover.search = some markSearch ∧ (unset searching).cover.slot .office = .searching markCover ∧
      (unset searching).cover.slot .service = .waiting ticketCover := by decide +kernel

theorem meets_SearchCompletes :
    running searching = true ∧ searching.cover.search = some markSearch ∧ searching.clock.state = .set ∧
      searching.cover.slot .office = .searching markCover ∧ searching.cover.slot .service = .waiting ticketCover ∧
      markSearch.stage = .begun ∧ Rising Permit.number searching.permits ∧ Rising Session.serial searching.sales.log := by
  decide +kernel

/-! ## Cash unit -/

/-- Terminal 1 with its box, and terminal 16 ACTIVE without one; box 7's label free, and taken. -/
def twoTerminals : State := { ready with table := put ready.table 15 kerb }

/-- The lift of box 7. -/
def lift7 : Lift :=
  { serial := 1, round := 0, terminal := 0, box := 7, label := none, lifted := noon, counts := #v[3, 0, 0, 1, 0, 0, 0, 0]
    expected := 130, state := .awaiting }

theorem meets_BoxOutAndIn :
    lineTakes twoTerminals 0 ∧ lineTakes twoTerminals 15 ∧ 65535 ≤ 65535 ∧ (tallyOf twoTerminals 15).present = false ∧
      (tallyOf twoTerminals 0).present = true ∧ ((tallyOf twoTerminals 0).box = 7 ∧ (15 : Line) ≠ 0) ∧
      (∀ m, m ≠ 15 → (tallyOf twoTerminals m).present = true → (tallyOf twoTerminals m).box ≠ 65535) ∧
      ready.cash.lifts.length < 96 ∧ 96 ≤ (List.replicate 96 lift7).length ∧
      (∀ x ∈ List.replicate 96 lift7, x.state = .awaiting) ∧
      (after (.openRound 1 1 1) ready).cash.round.map Round.state = some .opened := by
  unfold lineTakes lineFree; decide +kernel

/-- A box goes out, or comes in, with true grace records, its marks OFF or ON, LINE_SILENT standing or not. -/
theorem meets_BoxOutAndIn_notices :
    graceKept twoTerminals ∧ (tallyOf twoTerminals 0).absentMark = false ∧
      (terminalRecord twoTerminals.faults 0 .boxAbsent).state ≠ .opened ∧
      (let out := after (.replyEnd 0) (after (.boxOut 0 8) twoTerminals);
        graceKept out ∧ lineTakes out 0 ∧ (tallyOf out 0).present = false ∧ (tallyOf out 0).absentMark = true ∧
          stands out 0 .boxAbsent ∧ (terminalRecord out.faults 0 .boxIdentity).state = .opened) ∧
      (stands silentZone 0 .lineSilent ∧ (tallyOf silentZone 0).present = true) := by
  unfold lineTakes lineFree stands
  exact ⟨kept_of _ (by decide +kernel), by decide +kernel, by decide +kernel,
    ⟨kept_of _ (by decide +kernel), by decide +kernel⟩, by decide +kernel⟩

/-- A round is OPEN, opened by badge 1. -/
def collecting : State := after (.portReplyEnd .service) (after (.openRound 1 1 1) ready)

theorem meets_Rounds :
    serviceTakes ready 1 .collector ∧ serviceTakes collecting 1 .collector ∧ 65535 < 65536 ∧
      (unset ready).clock.state = .unset ∧ ready.cash.round = none ∧
      collecting.cash.round.map (fun r => (r.state, r.badge, r.openTime)) = some (.opened, 1, noon) ∧
      collecting.cash.roundLimit = 240 ∧ noon + 240 ≤ now (at_ (noon + 240) collecting) ∧
      now (at_ (noon + 239) collecting) < noon + 240 ∧ running collecting = true ∧ collecting.clock.state = .set := by
  unfold serviceTakes; decide +kernel

theorem meets_CashSettingsAndCounts :
    officeTakes ready ∧ (500 < 501 ∧ 60 ≤ 60 ∧ 480 ≤ 480 ∧ 480 < 481) ∧
      (coinInUse ready.cash 0 ∧ row #v[20, 20, 50, 100, 200, 0, 0, 0] (0 : Fin 8) ≠ row ready.cash.coins 0) ∧
      (∀ i, row (#v[10, 500, 50, 100, 200, 0, 0, 0] : Vector Nat 8) i ≤ 500) ∧ ready.cash.lifts = [] ∧
      (let lifted := { ready.cash with lifts := [lift7] }; lifted.lifts = [] ++ lift7 :: [] ∧ lift7.state = .awaiting ∧
        ((230 : Int) - lift7.expected).natAbs ≤ lifted.tolerance ∧ lifted.tolerance < ((231 : Int) - lift7.expected).natAbs) := by
  refine ⟨ready_office, by decide, ⟨Or.inl ⟨0, by decide +kernel⟩, by decide +kernel⟩, by decide +kernel, by decide +kernel,
    by decide +kernel⟩

/-! ## Fault unit and port unit -/

theorem meets_FaultsAreRecorded :
    lineTakes ready 0 ∧ (5 < 6 ∧ 0 ≠ 1 ∧ 0 ≠ 2) ∧ faultReportOf 5 2 = some (.supplyLow, false) ∧ faultReportOf 0 1 = some (.printerLow, true) ∧
      (terminalRecord ready.faults 0 .printerLow).state = .clear ∧
      (terminalRecord (after (.fault 0 0 1) ready).faults 0 .printerLow).state = .opened ∧ running ready = true ∧
      ((row ready.table 0).active = true ∧ (terminalRecord ready.faults 0 .lineSilent).state = .clear ∧
        (row ready.table 0).lastHeard + 10 ≤ now (at_ (noon + 10) ready) ∧
        ¬ (row ready.table 0).lastHeard + 10 ≤ now (at_ (noon + 9) ready)) ∧
      (let tail := { ready.faults with grace := put ready.faults.grace 7 (.ending noon (noon + 15)) };
        row tail.grace 7 = .ending noon (noon + 15) ∧ noon + 15 ≤ now (at_ (noon + 15) ready) ∧
          now (at_ (noon + 14) ready) < noon + 15) := by
  unfold lineTakes lineFree; decide +kernel

theorem meets_FaultCommands :
    officeTakes ready ∧ sourceTakes ready (.service 1) .engineer ∧ faultNameOf 17 0 = none ∧ faultNameOf 1 14 = none ∧
      faultNameOf 0 4 = none ∧ faultNameOf 0 0 = some (.zone .clockUnset) ∧
      (row State.reset.faults.zone ZoneFault.clockUnset.index).state = .opened ∧
      faultNameOf 0 3 = some (.zone .logPressure) ∧ (row ready.faults.zone ZoneFault.logPressure.index).state ≠ .opened ∧
      faultNameOf 0 2 = some (.zone .cashRecordLost) ∧ faultNameOf 16 13 = some (.terminal 15 .cashVariance) ∧
      (terminalRecord ready.faults 15 .cashVariance).state = .clear ∧ faultNameOf 1 0 = some (.terminal 0 .printerLow) ∧
      (terminalRecord (after (.fault 0 0 1) ready).faults 0 .printerLow).state = .opened :=
  ⟨ready_office, ready_service .engineer, by decide +kernel⟩

/-- The only terminal of a plan is in CASH_OUT for BOX_IDENTITY alone, which a command clears. -/
theorem meets_FaultCommands_grace :
    let s := after (.replyEnd 0) (after (.boxIn 0 0) { ready with cash := { ready.cash with tallies := CashUnit.cold.tallies } })
    sourceTakes s .office .engineer ∧ graceKept s ∧ faultNameOf 1 11 = some (.terminal 0 .boxIdentity) ∧
      (terminalRecord s.faults 0 .boxIdentity).state ≠ .clear ∧ serviceState s 0 = .cashOut :=
  ⟨by unfold sourceTakes officeTakes; decide +kernel, kept_of _ (by decide +kernel), by decide +kernel⟩

theorem meets_SetNotices : officeTakes ready ∧ 4096 ≤ (4096#16).toNat ∧ (4095#16).toNat < 4096 := ⟨ready_office, by decide⟩

theorem meets_NoticeReadsAndAddressed :
    officeTakes ready ∧ serviceTakes ready 1 .engineer ∧ 16 < 17 ∧ ((254#8) ≠ 0 ∧ (254#8).getLsbD 0 = false) ∧
      (255#8).getLsbD 0 = true ∧ 16 = (15 : Line).number :=
  ⟨ready_office, ready_service .engineer, by decide⟩

/-- Thirty-two badges. -/
def fullBadges : State := { ready with ports := { ready.ports with badges := (List.range 32).map fun i => ⟨i + 1, 1⟩ } }

theorem meets_Badges :
    officeTakes ready ∧ officeTakes fullBadges ∧ ¬ (1 ≤ 0) ∧ ¬ (100000 ≤ 99999) ∧ 8 ≤ (8#8).toNat ∧ (7#8).toNat < 8 ∧
      (∀ b ∈ fullBadges.ports.badges, b.number ≠ 99999) ∧ (∃ b ∈ fullBadges.ports.badges, b.number = 32) ∧
      32 ≤ fullBadges.ports.badges.length ∧ ready.ports.badges.length < 32 := by
  unfold officeTakes; decide +kernel

/-- The answer of a RESTART is being sent. -/
def leaving : State := after (.restart .office 9) ready

theorem meets_PortEvents :
    running ready = true ∧ (ready.ports.port .office).sending = none ∧
      (leaving.ports.office.sending.map fun r => r.answer.body) = some .restarting ∧ running leaving = true ∧
      (let two := after (.readStatus .office 2) (after (.readStatus .office 1) ready);
        (two.ports.port .office).sending ≠ none ∧ (two.ports.port .office).queue.length = 1) ∧
      (let one := after (.readStatus .office 1) ready;
        (one.ports.port .office).sending ≠ none ∧ (one.ports.port .office).queue = []) ∧
      listening ready .office = true ∧ listening ready .service = true ∧ officeTakes ready := by
  unfold officeTakes; decide +kernel

theorem meets_Restarts : ready.pins.supply = true ∧ (after .supplyLoss ready).pins.supply = false := by decide +kernel

/-- A content of one byte and of 120; lengths 0 and 121; a line that receives the last byte of a HELLO. -/
theorem meets_FramesOnTheWire :
    1 ≤ [1#8].length ∧ (List.replicate 120 (1#8)).length ≤ 120 ∧ (0#8).toNat = 0 ∧ 120 < (121#8).toNat ∧
      ([0#8, 0#8] : List Byte) ≠ bytesOf 2 (checkOf (bytesOf 1 1 ++ [1#8])).toNat ∧
      (let partly : List Byte := ((requestFrame [1#8]).tail).dropLast;
        let s := { onLine1 { LineUnit.cold with state := .receiving, frame := some partly } ready with
          wire := [.char (.line 0) ((requestFrame [1#8]).getLastD 0)] };
        running s = true ∧ s.pending = [] ∧ (row s.lines 0).state = .receiving ∧ (row s.lines 0).frame = some partly ∧
          assemble partly ((requestFrame [1#8]).getLastD 0) = .complete [1#8]) := by decide +kernel

/-- A flag at an IDLE and at a PENDING line and at a port; a port that receives the last byte of a frame. -/
theorem meets_FramesOnTheWire_ports :
    let partly : List Byte := ((requestFrame [1#8]).tail).dropLast
    let last := (requestFrame [1#8]).getLastD 0
    let port := { ready with
      wire := [.char (.port .service) last], ports := { ready.ports with service := { Port.cold with frame := some partly } } }
    let line := fun v : LineUnit => { onLine1 v ready with wire := [.char (.line 0) 0xC3] }
    (running port = true ∧ port.pending = [] ∧ (port.ports.port .service).frame = some partly ∧
        assemble partly last = .complete [1#8] ∧ assemble [] 2 = .growing [2#8] ∧ assemble [] 0 = .bad) ∧
      ((row (line LineUnit.cold).lines 0).state = .idle ∧ (row (line LineUnit.cold).lines 0).frame = none) ∧
      ((row (line { LineUnit.cold with state := .pending }).lines 0).state ≠ .idle ∧
        (row (line { LineUnit.cold with state := .pending }).lines 0).frame = none) ∧
      (ready.ports.port .office).frame = none := by decide +kernel

/-- An event while the blocks are stopped; a silence with a frame and without one, at a line and at a port; a character at a line that
is REPLYING. -/
theorem meets_FramesOnTheWire_events :
    let met := fun (e : WireEvent) (s : State) => { s with wire := [e] }
    let half := onLine1 { LineUnit.cold with state := .receiving, frame := some [1#8] } ready
    let port := { ready with ports := { ready.ports with service := { Port.cold with frame := some [1#8] } } }
    let busy := onLine1 { LineUnit.cold with state := .replying someReply false false } ready
    (running (met (.silence (.line 0)) (after .supplyLoss ready)) = false ∧ ready.pending = []) ∧
      ((row (met (.silence (.line 0)) half).lines 0).frame ≠ none ∧ (row (met (.silence (.line 0)) ready).lines 0).frame = none) ∧
      (((met (.silence (.port .service)) port).ports.port .service).frame ≠ none ∧
        ((met (.silence (.port .service)) ready).ports.port .service).frame = none) ∧
      (running busy = true ∧ (row (met (.char (.line 0) 1) busy).lines 0).state = .replying someReply false false) := by
  decide +kernel

/-! ## Worked cases of the spec: chapter 3, section 3.16 -/

def kx51rbn : Mark := ['K', 'X', '5', '1', 'R', 'B', 'N']

/-- Plan 2 of section 3.16: MON to FRI charged from 08:00 to 18:30 by ladder 1. -/
def caseBook (mode : Rounding) : Book :=
  let pattern : List Period := [⟨0, .free⟩, ⟨480, .charged 1 180⟩, ⟨1110, .free⟩]
  let plan : Plan :=
    { header := { minuteStep := 5, rounding := mode, coinUnit := 10, minimumCharge := 50, noReturn := 60 }
      patterns := Vector.ofFn fun t => if t.val < 5 then some pattern else none }
  { plans := put Book.empty.plans 2 (some plan), ladders := put Book.empty.ladders 1 (some [⟨60, 240⟩, ⟨1440, 360⟩])
    calendar := [] }

/-- A time of day d, a TUE. -/
def d (hour minute : Nat) : ZoneMinute := zoneMinute 99 (hour * 60 + minute)

/-- Terminal 4 on plan 2, at a time. -/
def case_ (mode : Rounding) (z : ZoneMinute) : State :=
  { ready with
    clock := { ready.clock with reading := z, handed := z }
    books := { ready.books with bankX := caseBook mode }
    table := put State.reset.table 3 { kerb with plan := 2, lastHeard := z }
    permits := [{ visitorPermit with number := 4400217, kind := .visitorBook ⟨600, 50, 14, 200⟩ }]
    cash := { ready.cash with tallies := put CashUnit.cold.tallies 3 box7 } }

/-- The session of case 4. -/
def session8812 : Session :=
  { someSession 8812 (d 10 30) with plan := 2, mark := some kx51rbn, finalStart := d 8 0, finalMinutes := 150 }

/-- What terminal 4's open quote holds: start, expiry, terms, final instance and conditions. -/
def quote4 (t : State) : Option (ZoneMinute × ZoneMinute × Terms × ZoneMinute × Nat × CondSet) :=
  (row t.quotes 3).map fun q =>
    (q.result.start, q.result.expiry, q.result.terms, q.result.finalStart, q.result.finalMinutes, q.result.conds)

/-- The status being sent to terminal 4. -/
def told4 (t : State) : Option Status :=
  match (row t.lines 3).state with
  | .replying r _ _ => some r.answer.status
  | _ => none

/-- Terminal 4 asks, and its walk completes. -/
def asked (c : Instr) (s : State) : State := after .walkComplete (after c s)

def cash4 (amount : Nat) (m : Option Mark) : Instr := .quote 3 ⟨1, amount, 0, 0, m⟩

theorem test_case1 :
    quote4 (asked (cash4 455 none) (case_ .halfEven (d 17 40))) =
      some (d 17 40, zoneMinute 100 540, .money 455 455 0, zoneMinute 100 480, 60, Cond.carry.bit ||| Cond.round.bit) ∧
    (row (asked (cash4 455 none) (case_ .halfEven (d 17 40))).table 3).sticky = Cond.carry.bit ||| Cond.round.bit := by
  decide +kernel

/-- The other rounding modes of case 1. -/
theorem test_case1_modes : [Rounding.floor, .ceil, .halfUp].map (fun mode =>
    (quote4 (asked (cash4 455 none) (case_ mode (d 17 40)))).map fun q => q.2.1) =
      [some (zoneMinute 100 540), some (zoneMinute 100 545), some (zoneMinute 100 545)] := by decide +kernel

theorem test_case2 : quote4 (asked (cash4 1500 none) (case_ .halfEven (d 9 0))) =
    some (d 9 0, d 12 0, .money 1500 960 540, d 8 0, 180, Cond.cap.bit) := by decide +kernel

theorem test_case3 : quote4 (asked (.price 3 ⟨1, 100, 550, none⟩) (case_ .halfEven (d 17 40))) =
    some (d 17 40, zoneMinute 100 550, .money 500 500 0, zoneMinute 100 480, 70, Cond.carry.bit) := by decide +kernel

def case4 : State :=
  { case_ .halfEven (d 10 10) with sales := { SaleUnit.cold with
      log := [session8812], nextSerial := some 8840, sequences := put SaleUnit.cold.sequences 3 231 } }

theorem test_case4 :
    quote4 (asked (cash4 300 (some kx51rbn)) case4) =
      some (d 10 30, d 11 0, .money 300 180 120, d 8 0, 180, Cond.cap.bit) ∧
    (row (asked (cash4 300 (some kx51rbn)) case4).quotes 3).map (fun q => q.result.linked) = some (some 8812) := by
  decide +kernel

/-- Case 5: RETURN is held and latched the first time only, and does not hold at 12:05. -/
theorem test_case5 :
    let sold := { session8812 with serial := 8840, expiry := d 11 0 }
    let at_ := fun (z : ZoneMinute) (sticky : CondSet) =>
      let s := { case_ .halfEven z with notices := { NoticeState.cold with office := 0, enable := 0xFFF, call := 0xFFF } }
      asked (cash4 200 (some kx51rbn)) { s with
        sales := { SaleUnit.cold with log := [session8812, sold] }
        table := change s.table 3 fun e => { e with sticky := sticky } }
    told4 (at_ (d 11 30) 0b10000011) = some .held ∧
      Notice.conditionHeld.isIn (at_ (d 11 30) 0b10000011).notices.office = true ∧
      (row (at_ (d 11 30) 0b10000011).table 3).sticky = 0b10100011 ∧
      Notice.conditionHeld.isIn (at_ (d 11 34) 0b10100011).notices.office = false ∧
      (quote4 (at_ (d 12 5) 0b10100011)).map (fun q => q.1) = some (d 12 5) := by decide +kernel

/-- Case 6: an allowance of 50 grants 50 minutes of the 90 asked for; one of 3 refuses the walk. -/
theorem test_case6 :
    let visitor := Instr.quote 3 ⟨3, 0, 90, 4400217, some kx51rbn⟩
    let few := { case_ .halfEven (d 17 0) with
      permits := [{ visitorPermit with number := 4400217, kind := .visitorBook ⟨600, 3, 14, 200⟩ }] }
    quote4 (asked visitor (case_ .halfEven (d 17 0))) =
      some (d 17 0, d 17 50, .visitor 4400217 50, d 8 0, 50, Cond.thin.bit) ∧
    quote4 (asked visitor few) = none ∧ (row (asked visitor few).table 3).sticky = Cond.thin.bit ∧
      Notice.conditionHeld.isIn (asked visitor few).notices.office = false := by decide +kernel

/-- Case 7: after terminal 3, with requests of terminals 2 and 7 and the office, terminal 7 is chosen; after 7, the office. -/
theorem test_case7 :
    let waiting := fun (last : Fin 17) (ns : List (Fin 17)) => after .walkBegin { ready with engine :=
      { slots := Vector.ofFn fun i =>
          if ns.contains i then some (if i = officeSlot then previewAsked else twoPoundsAsked) else none
        last := last, walk := none } }
    (waiting 2 [1, 6, 16]).engine.last = 6 ∧ (waiting 6 [1, 2, 16]).engine.last = 16 ∧ (waiting 16 [1, 2]).engine.last = 1 := by
  decide +kernel

/-! ## Worked sequences of the other chapters -/

/-- Section 1.8. -/
def sequence1 : State :=
  { ready with
    clock := { ready.clock with reading := zoneMinute 1002 615, overrides := [⟨1004, 7⟩, ⟨1005, 6⟩, ⟨1010, 8⟩] }
    books := { ready.books with bankX := { tariff with calendar := [⟨1005, 8⟩, ⟨1007, 7⟩] } } }

theorem test_dayTypes : [1002, 1003, 1004, 1005, 1006, 1007, 1010].map
    (dayType sequence1.clock.overrides sequence1.books.activeBook) = [1, 2, 7, 6, 5, 7, 8] := by decide +kernel

theorem test_setOverride :
    officeSays (after (.setOverride 1 1001 7) sequence1) = some (.badField, .overrides sequence1.clock.overrides) ∧
      (after (.setOverride 1 1005 8) sequence1).clock.overrides = [⟨1004, 7⟩, ⟨1005, 8⟩, ⟨1010, 8⟩] := by decide +kernel

theorem test_dropOverride : (after (.dropOverride 1 1005) sequence1).clock.overrides = [⟨1004, 7⟩, ⟨1010, 8⟩] := by
  decide +kernel

theorem test_overrideRemoval :
    (after .overrideRemoval (at_ (zoneMinute 1005 0) sequence1)).clock.overrides = [⟨1005, 6⟩, ⟨1010, 8⟩] := by decide +kernel

/-- The boundary of midnight (R2, R12): the reading passes to the next day. -/
theorem test_minuteBoundary :
    let t := after .minuteBoundary (at_ (zoneMinute 1004 1439) sequence1)
    t.clock.reading = zoneMinute 1005 0 ∧ t.clock.overrides = [⟨1005, 6⟩, ⟨1010, 8⟩] := by decide +kernel

/-- Past the last reading the clock is UNSET, and CLOCK_UNSET raised (R2). -/
theorem test_minuteBoundary_last :
    let t := after .minuteBoundary (at_ lastReading ready)
    t.clock.state = .unset ∧ t.clock.reading = lastReading ∧ (row t.faults.zone 0).state = .opened := by decide +kernel

/-- Section 4.9 (ix): a clock setting cancels every open quote. -/
theorem test_setClock :
    officeSays (after (.setClock 1 100 722) quoted) = some (.ok, .reading (zoneMinute 100 722)) ∧
      row (after (.setClock 1 100 722) quoted).quotes 0 = none := by decide +kernel

/-- Section 2.12 (i) to (iv): the staged book is copied and changed, the revision rising by one each time. -/
theorem test_copyActive :
    let t := after (.copyActive 1) { ready with books := { ready.books with revision := 40 } }
    t.books.stagedState = .editing ∧ t.books.revision = 41 ∧ t.books.stagedBook = tariff := by decide +kernel

theorem test_loadLadder : row (after (.loadLadder 1 ⟨6, 2, [⟨30, 300⟩, ⟨1440, 500⟩]⟩) ready).books.stagedBook.ladders 6 =
    some [⟨30, 300⟩, ⟨1440, 500⟩] := by decide +kernel

/-- (iii): a ladder that is absent may be named. -/
theorem test_loadDay :
    let t := after (.loadDay 1 ⟨0, 7, 2, [⟨0, 2, 0, 0⟩, ⟨1020, 1, 9, 120⟩]⟩) (after (.copyActive 1) ready)
    (row t.books.stagedBook.plans 0).bind (fun p => row p.patterns 7) = some [⟨0, .free⟩, ⟨1020, .charged 9 120⟩] := by
  decide +kernel

theorem test_loadPlan :
    row (after (.loadPlan 1 ⟨0, 0, 0, 0, 0, 0, 0⟩) (after (.copyActive 1) ready)).books.stagedBook.plans 0 = none := by
  decide +kernel

theorem test_loadCalendar :
    officeSays (after (.loadCalendar 1 ⟨2, [⟨5, 1⟩, ⟨5, 2⟩]⟩) ready) = some (.badField, .empty) := by decide +kernel

theorem test_clearStaged : officeSays (after (.clearStaged 1) ready) = some (.already, .empty) := by decide +kernel

theorem test_armBook :
    (after (.armBook 1 101) editing).books.stagedState = .checking ∧
      officeSays (after (.armBook 1 100) editing) = some (.badField, .empty) := by decide +kernel

/-- (vi): the check fails with LADDER_MISSING and PLAN_MISSING. -/
theorem test_bookCheckComplete :
    let plan : Plan := { tariffPlan with patterns := put tariffPlan.patterns 7 (some [⟨0, .free⟩, ⟨600, .free⟩, ⟨1020, .charged 9 120⟩]) }
    let s := staged { tariff with plans := put tariff.plans 0 (some plan) } .checking (some 101) ready
    let t := after .bookCheckComplete { s with table := put s.table 4 { kerb with plan := 3 } }
    t.books.check = { outcome := .failed, count := 2, findings := [.ladderMissing 0 7 3, .planMissing 3 4] } ∧
      t.books.stagedState = .editing := by decide +kernel

theorem test_disarmBook :
    (after (.disarmBook 1) (staged tariff .armed (some 101) ready)).books.stagedState = .editing := by decide +kernel

theorem test_bookActivation :
    let t := after .bookActivation (at_ (zoneMinute 101 0) (staged Book.empty .armed (some 101) ready))
    t.books.active = .y ∧ t.books.generation = 1 ∧ t.books.stagedBook = Book.empty := by decide +kernel

theorem test_readBook : officeSays (after (.readBook 1 .active 81) ready) =
    some (.ok, .bookPart (.active 0) 81 (.ladder 0 (some tariffSteps))) := by decide +kernel

/-- Section 4.9 (ii): a second QUOTE is answered BUSY, and a collision in that reply counts one frame. -/
theorem test_collision :
    let busy := after (.quote 0 twoPounds) walking
    lineSays busy = some (.busy, .empty) ∧ (row (after (.collision 0) busy).table 0).discards = 1 ∧
      (row (after (.replyEnd 0) (after (.collision 0) busy)).lines 0).state = .pending := by decide +kernel

/-- (iv), (vi): a line reset marks the walk, whose outcome is then dropped. -/
theorem test_lineReset :
    let t := after (.lineReset .office 1 1) walking
    (row t.lines 0).state = .idle ∧ t.engine.walk.map (fun w => (w.discard, w.orphaned)) = some (true, true) ∧
      row (after .walkComplete t).quotes 0 = none := by decide +kernel

/-- (vii): the walk at 17:41 reaches 09:05. -/
theorem test_walkComplete : (quote4 (asked (cash4 455 none) (case_ .halfEven (d 17 41)))).map (fun q => q.2.1) =
    some (zoneMinute 100 545) := by decide +kernel

theorem test_hello : lineSays (after (.hello 0) ready) = some (.ok, .empty) := by decide +kernel

theorem test_unknownRequestKind : lineSays (after (.unknownRequestKind 0) ready) = some (.badField, .empty) := by decide +kernel

/-- The sixteenth discarded frame of an hour raises LINE_NOISY with that count (R167). -/
theorem test_frameDiscard :
    let s := { ready with table := put ready.table 0 { kerb with discards := 15 } }
    (terminalRecord (after (.frameDiscard 0) s).faults 0 .lineNoisy).detail = some 16 ∧
      (terminalRecord (after (.receiveTimeout 0) ready).faults 0 .lineNoisy).state = .clear := by decide +kernel

theorem test_configureTerminal :
    let t := after (.configureTerminal 1 { terminalPart with terminal := 2 }) ready
    officeSays t = some (.ok, .empty) ∧ (row t.table 1).active = true ∧ serviceState t 1 = .cashOut := by decide +kernel

theorem test_retireTerminal : officeSays (after (.retireTerminal 1 1) ready) = some (.inUse, .empty) := by decide +kernel

theorem test_conditions :
    let s := { ready with table := put ready.table 0 { kerb with sticky := 3 } }
    officeSays (after (.setConditions 1 1 511) s) = some (.ok, .conditions 3) ∧
      (row (after (.clearConditions 1 0) s).table 0).sticky = 0 := by decide +kernel

/-- Section 4.10: a test has its own tariff, and ends after thirty minutes of zone time. -/
theorem test_testLine :
    ((row (after .walkComplete (after (.quote 0 { twoPounds with amount := 100 }) testing)).quotes 0).map
      fun q => q.result.expiry) = some (noon + 50) ∧
    (row (after (.testLimit 0) (at_ (noon + 29) testing)).table 0).mode = .test ∧
    (row (after (.testLimit 0) (at_ (noon + 30) testing)).table 0).mode = .normal := by decide +kernel

theorem test_endTest : serviceSays (after (.endTest 1 1 1) ready) = some (.already, .empty) := by decide +kernel

/-- Section 5.9 (ii): the sale of case 4 for one coin in each of the first four slots. -/
theorem test_sale :
    let s := at_ (d 10 11) (after (.replyEnd 3) (asked (cash4 300 (some kx51rbn)) case4))
    let t := after (.sale 3 { number := 1, payKind := 1, counts := #v[1, 1, 1, 1, 0, 0, 0, 0], card := 0 }) s
    (t.sales.log.map fun r => (r.serial, r.ticket, r.linked)) = [(8812, ⟨17, 1, 8812⟩, none), (8840, ⟨17, 4, 231⟩, some 8812)] ∧
      (t.sales.log.map fun r => [r.sold, r.start, r.expiry, r.price, r.overpaid]) =
        [[noon, noon, d 10 30, 0, 0], [d 10 11, d 10 30, d 11 0, 180, 0]] ∧
      t.sales.nextSerial = some 8841 ∧ row t.sales.sequences 3 = 232 ∧ row t.quotes 3 = none ∧
      (row t.sales.totals 3).map (fun r => (r.cashValue, r.cashSales, r.quotesMade)) = [(180, 1, 1)] := by decide +kernel

/-- The same sale two minutes later is STALE, and a coin total of 250 a MISMATCH. -/
theorem test_sale_refused :
    let s := after (.replyEnd 3) (asked (cash4 300 (some kx51rbn)) case4)
    told4 (after (.sale 3 { number := 1, payKind := 1, counts := #v[1, 1, 1, 1, 0, 0, 0, 0], card := 0 }) (at_ (d 10 13) s)) =
        some .stale ∧
      told4 (after (.sale 3 { number := 1, payKind := 1, counts := #v[0, 0, 1, 2, 0, 0, 0, 0], card := 0 }) s) =
        some .mismatch := by decide +kernel

/-- A record leaves the log a day after its expiry (R106). -/
theorem test_logPruning :
    let s := { ready with sales := { ready.sales with log := [someSession 1 (noon - 1441), someSession 2 (noon - 1440)] } }
    (after .logPruning s).sales.log.map Session.serial = [2] := by decide +kernel

theorem test_fetchSessions : officeSays (after (.fetchSessions 1 2 8) bought) = some (.ok, .sessions 1 (some 2) [] 1) := by
  decide +kernel

theorem test_readTotals : officeSays (after (.readTotals 1 16) ready) = some (.ok, .totals []) := by decide +kernel

/-- Section 6.10 (i), (viii): a new book starts at its grant, a replaced one at the lesser of what is left and the grant. -/
theorem test_putPermit :
    let fields : PermitFields := ⟨4400217, 3, 1, 4, 3010, 3400, 0, #v[[], [], []], 600, 14⟩
    let t := after (.putPermit 1 fields) (at_ (zoneMinute 3005 0) ready)
    let again := after (.putPermit 1 { fields with grant := 400, period := 7 }) (at_ (zoneMinute 3006 0) t)
    let book := fun t : State => (lookup Permit.number 4400217 t.permits).map Permit.kind
    book t = some (.visitorBook ⟨600, 600, 14, 3024⟩) ∧ book again = some (.visitorBook ⟨400, 400, 7, 3024⟩) := by
  decide +kernel

/-- (vii): a read on day 3,041 catches up two refresh days. -/
theorem test_readPermit :
    let s := { at_ (zoneMinute 3041 0) ready with
      permits := [{ visitorPermit with number := 4400217, kind := .visitorBook ⟨600, 0, 14, 3024⟩ }] }
    ((after (.readPermit 1 4400217 1) s).permits.map Permit.kind) = [.visitorBook ⟨600, 600, 14, 3052⟩] := by decide +kernel

theorem test_setPermitState :
    officeSays (after (.setPermitState 1 9 2) ready) = some (.ok, .permitEntry { residentPermit with suspended := true }) := by
  decide +kernel

theorem test_dropPermit : officeSays (after (.dropPermit 1 9) ready) = some (.ok, .heldCount 1) := by decide +kernel

/-- A permit stays for seven days after its last day (R127). -/
theorem test_permitRemoval :
    (after .permitRemoval (at_ (zoneMinute 207 0) ready)).permits.length = 2 ∧
      (after .permitRemoval (at_ (zoneMinute 208 0) ready)).permits.length = 0 := by decide +kernel

/-- The records of section 7.7. -/
def sequence7 (z : ZoneMinute) : State :=
  { case_ .halfEven z with
    sales := { SaleUnit.cold with log :=
      [{ session8812 with ticket := ⟨17, 4, 203⟩ }, { session8812 with serial := 8840, ticket := ⟨17, 4, 231⟩, expiry := d 11 0 },
        { session8812 with serial := 8851, ticket := ⟨17, 9, 14⟩, kind := .test, expiry := d 13 0 }] } }

/-- The verdict an officer's query leads to. -/
def verdict (z : ZoneMinute) (f : CoverFields) : Option Verdict :=
  match serviceSays (after .searchComplete (after (.cover (.service 2) 5 f) (sequence7 z))) with
  | some (.ok, .verdict _ _ _ v) => some v
  | _ => none

/-- Section 7.7 (i) to (iii): by mark. -/
theorem test_cover_mark :
    let byMark : CoverFields := ⟨2, 2, 0, 0, 0, kx51rbn⟩
    verdict (d 10 50) byMark = some (.coveredSession (d 11 0) ⟨17, 4, 231⟩ .paidCash 8840) ∧
      verdict (d 11 6) byMark = some (.recent (d 11 0) ⟨17, 4, 231⟩ 6 none) ∧
      verdict (d 11 20) byMark = some (.notCovered (some (d 11 0, 20)) none) := by decide +kernel

/-- (iv), (v): by ticket. -/
theorem test_cover_ticket :
    verdict (d 11 22) ⟨3, 1, 17, 9, 14, []⟩ = some (.testTicket 8851 9 noon) ∧
      verdict (d 11 25) ⟨3, 1, 17, 4, 231, []⟩ = some (.wrongPlan 8840 2 (d 11 0)) := by decide +kernel

/-- (vi): a second COVER of one port is refused BUSY while the first is in flight. -/
theorem test_cover_busy : serviceSays (after (.cover (.service 2) 6 ⟨2, 2, 0, 0, 0, kx51rbn⟩) searching) =
    some (.busy, .empty) := by decide +kernel

theorem test_setRecentWindow : officeSays (after (.setRecentWindow 1 30) ready) = some (.ok, .window 10 30) := by decide +kernel

/-- Section 8.9: terminal 4's box, and a full lift list of which the second record is counted. -/
def sequence8 : State :=
  { case_ .halfEven (d 6 20) with cash := { ready.cash with
      tallies := put CashUnit.cold.tallies 3 { Tally.cold with
        present := true, box := 311, counts := #v[40, 30, 12, 5, 0, 0, 0, 0], capacity := 2000 }
      lifts := (List.range 96).map fun i => { lift7 with
        serial := 701 + i, state := if i = 1 then .reconciled ⟨130, 0, noon⟩ else .awaiting }
      nextLift := 797 } }

theorem test_openRound :
    let t := after (.openRound 1 1 55) sequence8
    (t.cash.round.map fun r => (r.number, r.openTime, row r.planned 3, row r.planned 8)) = some (55, d 6 20, true, false) ∧
      Notice.roundOpened.isIn t.notices.office = false := by decide +kernel

/-- (ii): the lift of box 311. -/
theorem test_boxOut :
    let t := after (.boxOut 3 311) (after (.openRound 1 1 55) sequence8)
    (t.cash.lifts.take 2).map Lift.serial = [701, 703] ∧
      (t.cash.lifts.getLast?.map fun l => (l.serial, l.round, l.expected)) = some (797, 55, 2100) ∧
      (tallyOf t 3).present = false ∧ serviceState t 3 = .cashOut := by decide +kernel

theorem test_boxIn :
    let s := { ready with cash := { ready.cash with tallies := put ready.cash.tallies 0 Tally.cold } }
    (tallyOf (after (.boxIn 0 312) s) 0).box = 312 ∧ lineSays (after (.boxIn 0 0) s) = some (.duplicate, .empty) := by
  decide +kernel

theorem test_rounds :
    serviceSays (after (.closeRound 1 2) ready) = some (.denied, .empty) ∧
      serviceSays (after (.roundStatus 1 1) ready) = some (.ok, .roundStatus none noLines [] none) ∧
      (after (.closeRound 2 1) collecting).cash.round.map Round.state = some (.closed noon) := by decide +kernel

/-- (R157): a round lapses at its open time and limit. -/
theorem test_roundLapse :
    (after .roundLapse (at_ (noon + 239) collecting)).cash.round.map Round.state = some .opened ∧
      (after .roundLapse (at_ (noon + 240) collecting)).cash.round.map Round.state = some (.lapsed (noon + 240)) := by
  decide +kernel

/-- A count within the tolerance of 100 reconciles, and one beyond it is a variance (R158). -/
theorem test_countResult :
    let s := { ready with cash := { ready.cash with lifts := [lift7] } }
    officeSays (after (.countResult 1 7 230) s) = some (.ok, .counted 1 130 230 100 true) ∧
      officeSays (after (.countResult 1 7 29) s) = some (.ok, .counted 1 130 29 (-101) false) := by decide +kernel

theorem test_setCoins : officeSays (after (.setCoins 1 #v[20, 20, 50, 200, 200, 1, 0, 0]) ready) =
    some (.inUse, .slotsInUse [0, 3]) := by decide +kernel

theorem test_readLifts : officeSays (after (.readLifts 1 95 8) sequence8) =
    some (.ok, .lifts 96 797 [{ lift7 with serial := 796 }]) := by decide +kernel

theorem test_setCashLimits : officeSays (after (.setCashLimits 1 500 480) ready) = some (.ok, .limits 100 240 500 480) := by
  decide +kernel

/-- Section 9.11: terminals 5 and 12 on plan 3. -/
def sequence9 (z : ZoneMinute) : State :=
  { at_ z ready with
    table := put (put State.reset.table 4 { kerb with plan := 3, lastHeard := z }) 11 { kerb with plan := 3, lastHeard := z }
    notices := { NoticeState.cold with office := 0, site := 0 } }

/-- The records (i) to (iv): terminal 5 without paper, terminal 12 without its card reader and coin path. -/
def unserved9 : State :=
  after (.fault 11 2 1) (at_ (d 8 12) (after (.replyEnd 11) (after (.fault 11 3 1) (at_ (d 8 10)
    (after (.fault 4 1 1) (sequence9 (d 8 0)))))))

theorem test_fault :
    let one := after (.fault 4 1 1) (sequence9 (d 8 0))
    terminalRecord one.faults 4 .printerEmpty = ⟨.opened, d 8 0, d 8 0, 1, none⟩ ∧ serviceState one 4 = .outOfService ∧
      one.notices.office = Notice.faultOpened.bit ∧ callLine one = true ∧ row one.faults.grace 3 = .none ∧
      serviceState unserved9 11 = .paymentOut ∧ row unserved9.faults.grace 3 = .active (d 8 12) ∧
      unserved9.notices.site = Notice.faultOpened.bit ||| Notice.graceStarted.bit := by decide +kernel

/-- (v): the coin path is mended, and the grace ends fifteen minutes later. -/
theorem test_fault_cleared :
    let t := after (.fault 11 2 2) (at_ (d 8 30) (after (.replyEnd 11) unserved9))
    row t.faults.grace 3 = .ending (d 8 12) (d 8 45) ∧ serviceState t 11 = .cardOut ∧
      row (after (.graceTailEnd 3) (at_ (d 8 45) t)).faults.grace 3 = .none := by decide +kernel

/-- (ii): the office reads the notices and acknowledges; the terminal stays out of service. -/
theorem test_ackFault :
    let t := after (.readNotices 1) (after (.fault 4 1 1) (sequence9 (d 8 0)))
    let u := after (.ackFault 2 5 1) t
    callLine t = false ∧ lampLine t = true ∧ (terminalRecord u.faults 4 .printerEmpty).state = .acknowledged ∧
      serviceState u 4 = .outOfService := by decide +kernel

/-- (ix): reading the site notices empties their set alone. -/
theorem test_readSiteNotices :
    let t := after (.readSiteNotices 1 1) unserved9
    lampLine t = false ∧ callLine t = true ∧
      serviceSays t = some (.ok, .siteNotices (Notice.faultOpened.bit ||| Notice.graceStarted.bit)) := by decide +kernel

/-- A line not heard for ten minutes is silent (R166). -/
theorem test_lineSilence :
    serviceState (after (.lineSilence 0) (at_ (noon + 9) ready)) 0 = .inService ∧
      serviceState (after (.lineSilence 0) (at_ (noon + 10) ready)) 0 = .outOfService := by decide +kernel

theorem test_clearFault :
    officeSays (after (.clearFault .office 1 1 0) ready) = some (.badField, .empty) ∧
      officeSays (after (.clearFault .office 1 1 11) ready) = some (.already, .empty) := by decide +kernel

theorem test_readFaults : officeSays (after (.readFaults .office 1 0) State.reset) =
    some (.ok, .zoneFaults FaultTable.cold.zone) := by decide +kernel

theorem test_setNotices : officeSays (after (.setNotices 1 0 4095 1) ready) =
    some (.ok, .noticeSettings 0xFFF coldCall coldLamp 0 4095 1) := by decide +kernel

theorem test_addressed :
    let t := after (.setAddressed 1 1 6) ready
    (row t.table 0).addressed = 6 ∧ (row (after (.resetAddressed 2 0 2) t).table 0).addressed = 4 ∧
      officeSays (after (.setAddressed 1 1 1) ready) = some (.badField, .empty) := by decide +kernel

/-- Section 10.7 (iv) to (vi). -/
theorem test_badges :
    let s := { ready with
      ports := { ready.ports with badges := [⟨20417, 2⟩, ⟨31002, 5⟩] }, notices := { NoticeState.cold with office := 0, site := 0 } }
    let t := after (.openRound 1 44180 1) s
    serviceSays t = some (.denied, .empty) ∧ callLine t = true ∧ lampLine t = false ∧
      officeSays (after (.putBadge 2 20417 1) s) = some (.ok, .badgesHeld 2) ∧
      serviceSays (after (.closeRound 3 20417) (after (.putBadge 2 20417 1) s)) = some (.denied, .empty) ∧
      officeSays (after (.dropBadge 4 31002) s) = some (.ok, .badgesHeld 1) := by decide +kernel

/-- Section 10.8: a RESTART is answered, what follows it is discarded, and its answer's end makes the restart. -/
theorem test_restart :
    let preview := after (.restart .office 42) (after (.portReplyEnd .office)
      (after (.readStatus .office 41) (after (.previewQuote 40 previewPart) ready)))
    let t := after (.commandedRestart 17) (after (.setClock 43 0 0) preview)
    officeSays preview = some (.ok, .restarting) ∧ after (.setClock 43 0 0) preview = preview ∧
      t.ports.reason = .command ∧ t.ports.office.deferred = 0 ∧ t.engine.walk = none ∧ t.clock.reading = noon ∧
      callLine t = true := by decide +kernel

theorem test_portReplyEnd :
    let t := after (.portReplyEnd .office) (after (.readNotices 2) (after (.readTotals 1 1) ready))
    (t.ports.office.sending.map fun r => r.answer.tag) = some 2 ∧ t.ports.office.queue = [] := by decide +kernel

theorem test_portFrames :
    let s := { ready with ports := { ready.ports with service := { Port.cold with frame := some [1#8] } } }
    (after (.portFrameDiscard .service) s).ports.service = Port.cold ∧
      (after (.portReceiveTimeout .service) s).ports.service = Port.cold ∧
      serviceSays (after (.unknownPortCommandKind (.service 1) 7) ready) = some (.badField, .empty) := by decide +kernel

/-- Section 10.6: with BACKUP GOOD high the store is kept, with it low the part starts cold. -/
theorem test_restarts :
    (after (.powerUp true 5) (after .supplyLoss ready)).permits = ready.permits ∧
      (after (.powerUp true 5) ready).ports.reason = .supply ∧ (after (.powerUp false 5) ready).permits = [] ∧
      (after (.nresetRelease false 5) (after .nresetAssertion ready)).ports.zoneId = 5 ∧
      after (.hello 0) (after .nresetAssertion ready) = after .nresetAssertion ready := by decide +kernel

/-! ## Bytes of replies -/

/-- Section 11.1, R32: kind, plan, day type or ladder, index. -/
theorem test_findings : [Finding.ladderOrder 6 2, .patternMissing 1 8, .periodOrder 1 0 3, .ladderMissing 7 8 4, .planMissing 2 15].map
    findingBytes = [[1, 0, 6, 2], [2, 1, 8, 0], [3, 1, 0, 3], [4, 7, 8, 4], [5, 2, 0, 16]] := by decide +kernel

/-- Section 11.6: an absent part is zeros alone. -/
theorem test_absentParts : [partBytes (.plan 3 none), partBytes (.day 3 2 none), partBytes (.ladder 9 none)] =
    [zeroBytes 9, zeroBytes 39, zeroBytes 26] := by decide +kernel

/-- R184: a PUT_BADGE of the wrong length is answered with the held count. -/
theorem test_misshapen : officeSays (after (decodeOffice 53 7 [0, 0, 1]) ready) = some (.badField, .badgesHeld 2) ∧
    officeSays (after (decodeOffice 17 7 []) eightOverrides) = some (.badField, .overrides eightOverrides.clock.overrides) := by
  decide +kernel

/-! ## The step -/

/-- With nothing waiting, a step counts one cycle of CLKIN (log entry 2). -/
theorem test_step_idle : (match step ready with
    | .next t => t.clock.subMinute
    | _ => 0) = 1 := by decide +kernel

/-- The table spells no command in bits: the queue stays as it is. -/
theorem test_withFetchWord : ready.withFetchWord 8 1 = ready := rfl

end Sys2Proof.Tests
end

section
/-!
PROOFS. READ_TOTALS (section 5.6, R113): what the command answers for a terminal number out of range and for one in range,
and the statement O44 from the two.
-/
namespace Sys2Proof.Proofs
open Sys2Proof Sys2Proof.Machine

theorem exec_readTotals (tag : Tag) (terminal : Nat) (s : State) :
    exec (.readTotals tag terminal) s = execReadTotals tag terminal s := rfl

section
variable {s : State} (h : officeTakes s) (tag : Tag)
include h

/-- A terminal number that names no line is refused before the totals are read. -/
theorem exec_readTotals_of_outOfRange {terminal : Nat} (hr : terminal < 1 ∨ 16 < terminal) :
    exec (.readTotals tag terminal) s = .next (answering s .office tag .badField .empty) := by
  rw [exec_readTotals, execReadTotals, officeCommand_taken h, terminalOf_none hr]
  rfl

/-- The number of a line is answered with its terminal's day records: the terminal need not be ACTIVE (R113). -/
theorem exec_readTotals_number (n : Line) :
    exec (.readTotals tag n.number) s = .next (answering s .office tag .ok (.totals (row s.sales.totals n))) := by
  rw [exec_readTotals, execReadTotals, officeCommand_taken h, terminalOf_number]
  exact congrArg Host.Outcome.next (answerPort_eq s .office tag .ok _)

end

/-- Settles O44: the answer by the two cases of the terminal number; the bound and the order of the records are R110's, which
`totalsKept` gives. -/
theorem readTotals : Obligations.ReadTotals := by
  intro tag terminal s hoffice htotals
  refine ⟨exec_readTotals_of_outOfRange hoffice tag, ?_⟩
  rintro n rfl
  obtain ⟨hrising, hroom⟩ := htotals n
  exact ⟨exec_readTotals_number hoffice tag n, hroom, hrising⟩

end Sys2Proof.Proofs
end

section
/-!
PROOFS. SET_NOTICES (section 9.8, R178): what the command answers for a set that names a source outside the twelve and for
three sets of the twelve, what a latch adds once the settings are written, and the statement O55 from these.
-/
namespace Sys2Proof.Proofs
open Sys2Proof Sys2Proof.Machine

theorem Notice.index_lt (n : Notice) : n.index < 12 := by cases n <;> decide

/-- Reading a set as carried in 2 bytes into the twelve sources loses no source. -/
theorem Notice.isIn_setWidth (n : Notice) (b : BitVec 16) : n.isIn (b.setWidth 12) = b.getLsbD n.index := by
  simp [Notice.isIn, Notice.index_lt n]

/-- The notices with the enable set and the two masks written and the pending sets as they were (R178). -/
def writeSettings (enable call lamp : BitVec 16) (w : NoticeState) : NoticeState :=
  { w with enable := enable.setWidth 12, call := call.setWidth 12, lamp := lamp.setWidth 12 }

/-- A latch after the settings are written reaches the office pending set through the new enable set and call mask. -/
theorem latchIn_writeSettings_office (n m : Notice) (enable call lamp : BitVec 16) (w : NoticeState) :
    m.isIn (latchIn n (writeSettings enable call lamp w)).office =
      (m.isIn w.office || (decide (m = n) && enable.getLsbD n.index && call.getLsbD n.index)) := by
  rw [latchIn_office, ← Notice.isIn_setWidth, ← Notice.isIn_setWidth]
  rfl

/-- A latch after the settings are written reaches the site pending set through the new enable set and lamp mask. -/
theorem latchIn_writeSettings_site (n m : Notice) (enable call lamp : BitVec 16) (w : NoticeState) :
    m.isIn (latchIn n (writeSettings enable call lamp w)).site =
      (m.isIn w.site || (decide (m = n) && enable.getLsbD n.index && lamp.getLsbD n.index)) := by
  rw [latchIn_site, ← Notice.isIn_setWidth, ← Notice.isIn_setWidth]
  rfl

theorem exec_setNotices (tag : Tag) (enable call lamp : BitVec 16) (s : State) :
    exec (.setNotices tag enable call lamp) s = execSetNotices tag enable call lamp s := rfl

section
variable {s : State} (h : officeTakes s) (tag : Tag) {enable call lamp : BitVec 16}
include h

/-- One set of the three that names a source outside the twelve is enough for the refusal. -/
theorem exec_setNotices_of_outOfRange (hr : 4096 ≤ enable.toNat ∨ 4096 ≤ call.toNat ∨ 4096 ≤ lamp.toNat) :
    exec (.setNotices tag enable call lamp) s = .next (answering s .office tag .badField .empty) := by
  have hbad : ((noticeSetOf enable).isSome && (noticeSetOf call).isSome && (noticeSetOf lamp).isSome) = false := by
    rcases hr with he | hc | hl
    · simp [noticeSetOf_none he]
    · simp [noticeSetOf_none hc]
    · simp [noticeSetOf_none hl]
  rw [exec_setNotices, execSetNotices, officeCommand_taken h, hbad]
  rfl

/-- Three sets of the twelve are written, and the answer carries the settings before and after (R178). -/
theorem exec_setNotices_of_inRange (he : enable.toNat < 4096) (hc : call.toNat < 4096) (hl : lamp.toNat < 4096) :
    exec (.setNotices tag enable call lamp) s =
      .next (answering { s with notices := writeSettings enable call lamp s.notices } .office tag .ok
        (.noticeSettings s.notices.enable s.notices.call s.notices.lamp
          (enable.setWidth 12) (call.setWidth 12) (lamp.setWidth 12))) := by
  rw [exec_setNotices, execSetNotices, officeCommand_taken h, noticeSetOf_some he, noticeSetOf_some hc, noticeSetOf_some hl]
  exact congrArg Host.Outcome.next (answerPort_eq _ .office tag .ok _)

end

/-- Settles O55: the answer by whether all three sets name sources of the twelve only; what a later latch adds is R176's, read
through the new settings. -/
theorem setNotices : Obligations.SetNotices := by
  intro tag enable call lamp s hoffice
  refine ⟨exec_setNotices_of_outOfRange hoffice tag, fun he hc hl => ?_⟩
  exact ⟨exec_setNotices_of_inRange hoffice tag he hc hl, fun n m =>
    ⟨latchIn_writeSettings_office n m enable call lamp s.notices, latchIn_writeSettings_site n m enable call lamp s.notices⟩⟩

end Sys2Proof.Proofs
end

section
/-!
PROOFS. The step: the front command (O1), what every command leaves alone (O2), what the part turns away (O3), and the step
rule that every invariant uses.
-/
namespace Sys2Proof.Proofs
open Sys2Proof Sys2Proof.Machine

/-! ## The front command, the queue and the wire -/

/-- Settles O1, by the equation of `step` for a queue that is not empty. -/
theorem stepRunsFrontCommand : Obligations.StepRunsFrontCommand := by
  intro c rest s hpending
  unfold step
  rw [hpending]

theorem pending_notMem_partsOf (c : Instr) : Part.pending ∉ partsOf c := by
  cases c <;> simp [partsOf]

theorem wire_notMem_partsOf (c : Instr) : Part.wire ∉ partsOf c := by
  cases c <;> simp [partsOf]

/-- Settles O2: every command has a next state, and neither the queue nor the wire is among the parts it may change. -/
theorem everyCommandEndsAndKeepsQueue : Obligations.EveryCommandEndsAndKeepsQueue := by
  intro c s
  obtain ⟨t, hexec, hframe⟩ := exec_parts s c
  exact ⟨t, hexec, hframe .pending (pending_notMem_partsOf c), hframe .wire (wire_notMem_partsOf c)⟩

/-! ## What the part turns away -/

theorem whenRunning_false {s : State} (h : running s = false) (f : State → State) : whenRunning f s = s := by
  unfold whenRunning
  rw [h]
  rfl

theorem takeCommand_of_not_listening {source : Source} {s : State} (h : listening s source.port = false) (tag : Tag) (ok : Bool)
    (role : Role) (act : State → State) : takeCommand source tag ok role act s = s := by
  unfold takeCommand
  rw [h]
  rfl

theorem listening_of_stopped {s : State} (h : running s = false) (id : PortId) : listening s id = false := by
  simp [listening, h]

theorem listening_of_full {s : State} {id : PortId}
    (h : 6 ≤ (s.ports.port id).queue.length + (s.ports.port id).deferred ∨ s.ports.restarting = true) :
    listening s id = false := by
  rcases h with h | h
  · have hfull : ¬ (s.ports.port id).queue.length + (s.ports.port id).deferred < portRoom := Nat.not_lt.mpr h
    simp [listening, hfull]
  · simp [listening, h]

/-- A command of a port that does not listen has no effect: its frame is discarded (R182, R190). -/
theorem exec_of_not_listening {c : Instr} {s : State} {source : Source} {tag : Tag} (ho : c.origin = .port source tag)
    (h : listening s source.port = false) : exec c s = .next s := by
  cases c <;> cases ho <;> exact congrArg Host.Outcome.next (takeCommand_of_not_listening h _ _ _ _)

/-- A command of a line, and an event of the part that is not the clock's or a pin's, has no effect while the blocks are stopped
(R14, R188). -/
theorem exec_of_stopped {c : Instr} {s : State} (h : running s = false) (ha : actsWhileStopped c = false) :
    exec c s = .next s := by
  cases ho : c.origin with
  | port source tag => exact exec_of_not_listening ho (listening_of_stopped h _)
  | line n => cases c <;> cases ho <;> exact congrArg Host.Outcome.next (whenRunning_false h _)
  | part =>
    cases c
    case minuteBoundary | powerUp | nresetRelease | supplyLoss | nresetAssertion => cases ha
    all_goals cases ho <;> exact congrArg Host.Outcome.next (whenRunning_false h _)

theorem clockSet_iff (s : State) : clockSet s = true ↔ s.clock.state = .set := by
  simp [clockSet]

theorem clockSet_of_unset {s : State} (h : s.clock.state = .unset) : clockSet s = false := by
  simp [clockSet, h]

/-- While the blocks are stopped a minute boundary moves the clock alone (R14). -/
theorem minuteBoundary_stopped {s : State} (h : running s = false) :
    onlyChanges [.clock] s (minuteBoundary s) ∧ (s.clock.state = .unset → minuteBoundary s = s) ∧
      (s.clock.state = .set → now s < lastReading →
        (minuteBoundary s).clock = { s.clock with reading := now s + 1, subMinute := 0 }) ∧
      (s.clock.state = .set → lastReading ≤ now s →
        (minuteBoundary s).clock = { s.clock with state := .unset, overran := true }) := by
  cases hc : s.clock.state with
  | unset =>
    have hb : minuteBoundary s = s := by
      unfold minuteBoundary
      rw [clockSet_of_unset hc]
      rfl
    rw [hb]
    exact ⟨onlyChanges_refl _ s, fun _ => rfl, nofun, nofun⟩
  | set =>
    have hset : clockSet s = true := (clockSet_iff s).mpr hc
    by_cases hlast : lastReading ≤ now s
    · have hb : minuteBoundary s = onClock (fun c => { c with state := .unset, overran := true }) s := by
        unfold minuteBoundary overflow
        rw [hset, h, if_pos hlast]
        rfl
      rw [hb]
      exact ⟨onClock_frame s _, nofun, fun _ hlt => absurd hlast (Nat.not_le.mpr hlt), fun _ _ => rfl⟩
    · have hrun : running (onClock Clock.advanced s) = false := h
      have hb : minuteBoundary s = onClock Clock.advanced s := by
        unfold minuteBoundary
        rw [hset, if_neg hlast]
        dsimp only
        rw [hrun]
        rfl
      rw [hb]
      exact ⟨onClock_frame s _, nofun, fun _ _ => rfl, fun _ hle => absurd hle hlast⟩

/-- A badge that is absent, or lacks the role, does not pass (R186). -/
theorem badgePasses_false {badges : List Badge} {badge : Nat} {role : Role}
    (h : ∀ b ∈ badges, b.number = badge → role.isIn b.roles = false) : badgePasses badges (.service badge) role = false := by
  simp only [badgePasses]
  cases hl : lookup Badge.number badge badges with
  | none => rfl
  | some b =>
    have hnumber : b.number = badge := by simpa using List.find?_some hl
    exact h b (List.mem_of_find?_eq_some hl) hnumber

/-- The refusal of R186. -/
theorem takeService_denied {s : State} {badge : Nat} {role : Role} (hl : listening s .service = true) (h1 : 1 ≤ badge)
    (h2 : badge ≤ 99999) (hd : badgePasses s.ports.badges (.service badge) role = false) {ok : Bool} (hok : ok = true) (tag : Tag)
    (act : State → State) : takeCommand (.service badge) tag ok role act s =
      answering { s with notices := latchIn .serviceDenied s.notices } .service tag .denied .empty := by
  subst hok
  rw [← answerPort_eq]
  unfold takeCommand
  simp only [Source.port, hl, badgeInRange, h1, h2, hd]
  rfl

/-- A service request needs the role that section 10.4 gives its kind. -/
theorem exec_denied {c : Instr} {s : State} {badge : Nat} {tag : Tag} {role : Role}
    (ho : c.origin = .port (.service badge) tag) (hr : roleOf c = some role) (hl : listening s .service = true)
    (h1 : 1 ≤ badge) (h2 : badge ≤ 99999) (hd : badgePasses s.ports.badges (.service badge) role = false) :
    exec c s = .next (answering { s with notices := latchIn .serviceDenied s.notices } .service tag .denied .empty) := by
  cases c
  case cover | openRound | testLine | endTest | lineReset | readFaults | clearFault =>
    cases ho
    obtain ⟨hok, hrole⟩ := Option.ite_none_right_eq_some.mp hr
    cases hrole
    exact congrArg Host.Outcome.next (takeService_denied hl h1 h2 hd (by simpa using hok) _ _)
  case roundStatus | closeRound | readSiteNotices | readStatus =>
    cases ho
    cases hr
    exact congrArg Host.Outcome.next (takeService_denied hl h1 h2 hd rfl _ _)
  all_goals cases hr

/-- Settles O3: the stopped blocks, the minute boundary while stopped, the ports that do not listen, and the badge check. -/
theorem partTurnsAway : Obligations.PartTurnsAway := by
  intro c s
  refine ⟨exec_of_stopped, fun hstop => ⟨_, rfl, minuteBoundary_stopped hstop⟩,
    fun source tag ho hfull => exec_of_not_listening ho (listening_of_full hfull), ?_⟩
  intro badge tag role ho hr hl h1 h2 hlacks
  exact exec_denied ho hr hl h1 h2 (badgePasses_false hlacks)

/-! ## Properties that every step keeps -/

/-- A command with a footprint free of the parts that a property reads keeps the property. -/
theorem exec_agrees {c : Instr} {s t : State} (h : exec c s = .next t) {p : Part} (hp : p ∉ partsOf c) : p.agree s t := by
  obtain ⟨t', hexec, hframe⟩ := exec_parts s c
  obtain rfl : t' = t := Host.Outcome.next.inj (hexec.symm.trans h)
  exact hframe p hp

/-- What the part may do to its state while no command waits (log entries 2 and 3): nothing; a change of the frame that a line or
a port is assembling; one stage of a walk; one read of a search; one cycle of CLKIN. -/
inductive WorksAlone (s : State) : State → Prop
  | nothing : WorksAlone s s
  | flag (n : Line) : WorksAlone s (onLine n LineUnit.flagged s)
  | lineFrame (n : Line) (f : Option (List Byte)) : WorksAlone s (onLine n (fun u => { u with frame := f }) s)
  | portFrame (id : PortId) (f : Option (List Byte)) :
      WorksAlone s (onPorts (fun u => u.onPort id fun p => { p with frame := f }) s)
  | walk : WorksAlone s (stepWalk s)
  | search : WorksAlone s (stepSearch s)
  | cycle : WorksAlone s (tick s)

theorem quietStep_worksAlone (s : State) : WorksAlone s (quietStep s) := by
  unfold quietStep
  split
  · exact .walk
  · split
    · exact .search
    · exact .cycle

theorem lineChar_worksAlone (n : Line) (c : Byte) (s : State) : WorksAlone s (lineChar n c s).1 := by
  unfold lineChar
  dsimp only
  split
  · exact .nothing
  · split
    · exact .flag n
    · exact .nothing
  · split
    · exact .lineFrame n _
    · exact .nothing
    · exact .nothing

theorem portChar_worksAlone (id : PortId) (c : Byte) (s : State) : WorksAlone s (portChar id c s).1 := by
  unfold portChar
  dsimp only
  split
  · split
    · exact .portFrame id _
    · exact .nothing
  · split
    · exact .portFrame id _
    · exact .nothing
    · exact .portFrame id _

theorem receive_worksAlone (e : WireEvent) (s : State) : WorksAlone s (receive e s).1 := by
  unfold receive
  split
  · exact .nothing
  · split
    · exact lineChar_worksAlone _ _ s
    · exact portChar_worksAlone _ _ s
    · exact .nothing

/-- An arrival leaves the wire, and then does what the part may do alone. -/
theorem arrival_worksAlone (s : State) : ∃ wire, WorksAlone { s with wire := wire } (arrival s).1 := by
  unfold arrival
  split
  · exact ⟨_, receive_worksAlone _ _⟩
  · exact ⟨s.wire, quietStep_worksAlone s⟩

/-- A property that every command and every arrival keeps is kept by every step. -/
theorem step_keeps {P : State → Prop} (hexec : ∀ c s t, P s → exec c s = .next t → P t)
    (hqueue : ∀ s wire queue, P s → P { s with wire := wire, pending := queue })
    (halone : ∀ s t, P s → WorksAlone s t → P t) : ∀ s t, P s → step s = .next t → P t := by
  intro s t hs hstep
  unfold step at hstep
  split at hstep
  · exact hexec _ _ t (hqueue s s.wire _ hs) hstep
  · obtain ⟨wire, halone'⟩ := arrival_worksAlone s
    have ha := halone _ _ (hqueue s wire s.pending hs) halone'
    split at hstep
    · rename_i heq
      rw [heq] at ha
      exact hexec _ _ t ha hstep
    · rename_i heq
      rw [heq] at ha
      cases hstep
      exact ha

end Sys2Proof.Proofs
end

section
/-!
PROOFS. The layer under the invariants: a property that reads some parts of the state alone is kept by every command with another
footprint; the clock's boundaries, steps and restarts, the frames of a line and the commands of a port, each once for every
property that their pieces keep.
-/
namespace Sys2Proof.Proofs
open Sys2Proof Sys2Proof.Machine

/-! ## Properties that read some parts of the state -/

/-- `P` reads no part of the state but those listed. -/
def ReadsOnly (parts : List Part) (P : State → Prop) : Prop := ∀ s t, (∀ p ∈ parts, p.agree s t) → P s → P t

section
variable {parts footprint : List Part} {P : State → Prop} {s t : State}

theorem ReadsOnly.frame (h : ReadsOnly parts P) (hf : onlyChanges footprint s t) (hd : ∀ p ∈ parts, p ∉ footprint) :
    P s → P t := h s t fun p hp => hf p (hd p hp)

theorem ReadsOnly.exec (h : ReadsOnly parts P) {c : Instr} (hx : Machine.exec c s = .next t) (hd : ∀ p ∈ parts, p ∉ partsOf c) :
    P s → P t := h s t fun p hp => exec_agrees hx (hd p hp)

end

/-! ## Between commands -/

theorem stepWalk_frame (s : State) : onlyChanges [.permits, .engine] s (stepWalk s) := by
  unfold stepWalk
  split
  · exact onlyChanges_refl _ s
  · exact ((stageOf_frame s _).trans (onEngine_frame _ _)).mono (by decide)

theorem stepSearch_frame (s : State) : onlyChanges [.cover] s (stepSearch s) := by
  unfold stepSearch
  split
  · exact onlyChanges_refl _ s
  · exact onCover_frame s _

/-- What the part does alone touches these five parts, unless the clock counts. -/
theorem WorksAlone.frame {s t : State} (h : WorksAlone s t) :
    onlyChanges [.lines, .ports, .permits, .engine, .cover] s t ∨ t = tick s := by
  cases h with
  | nothing => exact .inl (onlyChanges_refl _ s)
  | flag n => exact .inl ((onLine_frame s n _).mono (by decide))
  | lineFrame n f => exact .inl ((onLine_frame s n _).mono (by decide))
  | portFrame id f => exact .inl ((onPorts_frame s _).mono (by decide))
  | walk => exact .inl ((stepWalk_frame s).mono (by decide))
  | search => exact .inl ((stepSearch_frame s).mono (by decide))
  | cycle => exact .inr rfl

theorem ReadsOnly.alone {parts : List Part} {P : State → Prop} {s t : State} (h : ReadsOnly parts P)
    (hd : ∀ p ∈ parts, p ∉ [Part.lines, .ports, .permits, .engine, .cover]) (htick : P s → P (tick s)) (hs : P s)
    (ha : WorksAlone s t) : P t := by
  rcases ha.frame with hf | rfl
  · exact h.frame hf hd hs
  · exact htick hs

/-! ## Events that the blocks take while they run -/

section
variable {P : State → Prop} {s : State}

theorem whenRunning_keeps {act : State → State} (h : ∀ s, P s → P (act s)) (hs : P s) : P (whenRunning act s) := by
  unfold whenRunning
  split
  · exact h s hs
  · exact hs

theorem whenSet_keeps {act : State → State} (h : ∀ s, P s → P (act s)) (hs : P s) :
    P (whenRunning (fun s => if clockSet s then act s else s) s) :=
  whenRunning_keeps (fun s hs => by
    split
    · exact h s hs
    · exact hs) hs

end

/-! ## Boundaries, steps and restarts -/

/-- What a property must be kept by for a minute boundary, a step of the clock and a restart to keep it. -/
structure KeptByClock (P : State → Prop) : Prop where
  clock : ∀ s f, (∀ c, (f c).overrides = c.overrides) → P s → P (onClock f s)
  raiseZone : ∀ s k d, P s → P (raiseZone k d s)
  clearZone : ∀ s k, P s → P (clearZone k s)
  latch : ∀ s n, P s → P (latch n s)
  quotes : ∀ s, P s → P (cancelAllQuotes s)
  marks : ∀ s, P s → P (markForStep s)
  handOver : ∀ s isDay isHour, P s → P (handOver isDay isHour s)
  warm : ∀ s reason, P s → P (warmBlocks reason s)
  cold : ∀ s, P (coldStart s)
  pins : ∀ s pins, P s → P { s with pins := pins }

namespace KeptByClock
variable {P : State → Prop} (h : KeptByClock P) {s : State}
include h

theorem overflow (hs : P s) : P (overflow s) := by
  unfold Machine.overflow
  split
  · exact h.raiseZone _ _ _ (h.clock _ _ (fun _ => rfl) hs)
  · exact h.clock _ _ (fun _ => rfl) hs

theorem minuteBoundary (hs : P s) : P (minuteBoundary s) := by
  have hadvanced : P (onClock Clock.advanced s) := h.clock _ _ (fun _ => rfl) hs
  unfold Machine.minuteBoundary
  split
  · exact hs
  · split
    · exact h.overflow hs
    · dsimp only
      split
      · exact h.handOver _ _ _ (h.clock _ _ (fun _ => rfl) hadvanced)
      · exact hadvanced

theorem tick (hs : P s) : P (tick s) := by
  unfold Machine.tick
  split
  · exact hs
  · split
    · exact h.clock _ _ (fun _ => rfl) hs
    · exact h.minuteBoundary hs

theorem setClock (z : ZoneMinute) (hs : P s) : P (setClock z s) :=
  h.handOver _ _ _ (h.marks _ (h.quotes _ (h.clearZone _ _ (h.clock _ _ (fun _ => rfl) hs))))

theorem tellOverrun (hs : P s) : P (tellOverrun s) := by
  unfold Machine.tellOverrun
  split
  · exact h.raiseZone _ _ _ (h.clock _ _ (fun _ => rfl) hs)
  · exact hs

theorem restartStep (hs : P s) : P (restartStep s) := by
  unfold Machine.restartStep
  split
  · exact h.handOver _ _ _ (h.clock _ _ (fun _ => rfl) hs)
  · exact hs

theorem warmRestart (reason : RestartReason) (hs : P s) : P (warmRestart reason s) :=
  h.restartStep (h.latch _ _ (h.tellOverrun (h.warm _ _ hs)))

theorem restartBySample (hs : P s) : P (restartBySample s) := by
  unfold Machine.restartBySample
  split
  · exact h.warmRestart _ hs
  · exact h.cold s

/-- The pins' events, the boundary and the commanded restart. -/
theorem exec {c : Instr} {t : State} (hx : exec c s = .next t) (hs : P s)
    (hc : actsWhileStopped c = true ∨ ∃ straps, c = .commandedRestart straps) : P t := by
  rcases hc with hc | ⟨straps, rfl⟩
  · cases c
    case minuteBoundary => cases hx; exact h.minuteBoundary hs
    case powerUp => cases hx; exact h.restartBySample (h.pins _ _ hs)
    case supplyLoss => cases hx; exact h.pins _ _ hs
    case nresetAssertion => cases hx; exact h.pins _ _ hs
    case nresetRelease =>
      cases hx
      dsimp only
      split
      · exact h.restartBySample (h.pins _ _ hs)
      · exact h.pins _ _ hs
    all_goals cases hc
  · cases hx
    refine whenRunning_keeps (fun s hs => ?_) hs
    split
    · exact h.warmRestart _ (h.pins _ _ hs)
    · exact hs

end KeptByClock

/-! ## Frames of a line -/

/-- The events of a line that hand nothing to another block. -/
def lineAlone : Instr → Bool
  | .hello _ | .unknownRequestKind _ | .frameDiscard _ | .receiveTimeout _ | .collision _ | .replyEnd _ => true
  | _ => false

/-- What a property must be kept by for the frames of a line to keep it. -/
structure KeptByFrames (P : State → Prop) : Prop where
  line : ∀ s n f, P s → P (onLine n f s)
  heard : ∀ s n, P s → P (heard n s)
  counted : ∀ s n, P s → P (countDiscard n s)

namespace KeptByFrames
variable {P : State → Prop} (h : KeptByFrames P) {s : State}
include h

theorem collide (n : Line) (hs : P s) : P (collide n s) := by
  unfold Machine.collide
  split
  · exact h.counted _ _ (h.line _ _ _ hs)
  · exact hs

theorem discardFrame (n : Line) (hs : P s) : P (discardFrame n s) := h.line _ _ _ (h.counted _ _ hs)

theorem takeFrame (n : Line) (k : Option RequestKind) (ok : Bool) {act : State → State} (hact : ∀ s, P s → P (act s)) (hs : P s) :
    P (takeFrame n k ok act s) := by
  have hreply : ∀ st back, P (replyAtOnce n st back (Machine.heard n s)) := fun _ _ => h.line _ _ _ (h.heard _ _ hs)
  unfold Machine.takeFrame
  split
  · exact h.collide n hs
  · exact hreply _ _
  · split
    · exact hreply _ _
    · split
      · exact hreply _ _
      · split
        · exact hreply _ _
        · exact hact _ (h.line _ _ _ (h.heard _ _ hs))

theorem exec {c : Instr} {t : State} (hx : exec c s = .next t) (hs : P s) (hc : lineAlone c = true) : P t := by
  cases c
  case hello => cases hx; exact whenRunning_keeps (fun s hs => h.takeFrame _ _ _ (fun s hs => h.line _ _ _ hs) hs) hs
  case unknownRequestKind => cases hx; exact whenRunning_keeps (fun s hs => h.takeFrame _ _ _ (fun _ hs => hs) hs) hs
  case collision => cases hx; exact whenRunning_keeps (fun s hs => h.collide _ hs) hs
  case replyEnd => cases hx; exact whenRunning_keeps (fun s hs => h.line _ _ _ hs) hs
  case frameDiscard =>
    cases hx
    refine whenRunning_keeps (fun s hs => ?_) hs
    split
    · exact h.collide _ hs
    · exact h.discardFrame _ hs
  case receiveTimeout =>
    cases hx
    refine whenRunning_keeps (fun s hs => ?_) hs
    split
    · exact hs
    · exact h.discardFrame _ hs
  all_goals cases hc

end KeptByFrames

/-! ## Commands of a port -/

/-- A command of a port keeps what its answers, the refusal of a badge, and its own effect keep. -/
theorem takeCommand_keeps {P : State → Prop} {source : Source} {s : State} (tag : Tag) (ok : Bool) (role : Role)
    {act : State → State} (hlatch : ∀ n, P s → P (latch n s))
    (hanswer : ∀ u st b, P u → listening u source.port = true → P (answerPort source.port tag st b u))
    (hact : ok = true → listening s source.port = true → P s → P (act s)) (hs : P s) : P (takeCommand source tag ok role act s) := by
  unfold takeCommand
  by_cases hl : listening s source.port = true
  · rw [hl, if_neg (by simp)]
    split
    · exact hanswer _ _ _ hs hl
    · rename_i hok
      simp only [Bool.not_eq_true', Bool.not_eq_false, Bool.and_eq_true] at hok
      split
      · exact hanswer _ _ _ (hlatch _ hs) hl
      · exact hact hok.1 hl hs
  · rw [Bool.not_eq_true] at hl
    rw [hl]
    exact hs

end Sys2Proof.Proofs
end

section
/-!
PROOFS. Box numbers of PRESENT boxes stay apart (O5): what each operation of the cash unit leaves of which box is where, and the
one that puts a box in.
-/
namespace Sys2Proof.Proofs
open Sys2Proof Sys2Proof.Machine

/-- The same boxes are PRESENT at the same terminals. -/
def sameBoxes (s t : State) : Prop :=
  ∀ n, (tallyOf t n).present = (tallyOf s n).present ∧ (tallyOf t n).box = (tallyOf s n).box

theorem sameBoxes.trans {s t u : State} (h : sameBoxes s t) (k : sameBoxes t u) : sameBoxes s u := fun n =>
  ⟨(k n).1.trans (h n).1, (k n).2.trans (h n).2⟩

theorem sameBoxes_of_tallies {s t : State} (h : t.cash.tallies = s.cash.tallies) : sameBoxes s t := fun n => by
  unfold tallyOf
  rw [h]
  exact ⟨rfl, rfl⟩

theorem sameBoxes.kept {s t : State} (h : sameBoxes s t) (hs : boxesKept s) : boxesKept t := by
  intro m n hmn hm hn
  rw [(h m).1] at hm
  rw [(h n).1] at hn
  rw [(h m).2, (h n).2]
  exact hs m n hmn hm hn

theorem boxesKept_reads : ReadsOnly [.cash] boxesKept := fun _ _ h =>
  (sameBoxes_of_tallies (congrArg CashUnit.tallies (h .cash (by simp)))).kept

/-- One tally written in the state of another. -/
theorem tallyOf_put {s t : State} {n : Line} {x : Tally} (h : t.cash = { s.cash with tallies := put s.cash.tallies n x }) (m : Line) :
    tallyOf t m = if m = n then x else tallyOf s m := by
  unfold tallyOf
  rw [h]
  exact row_put _ _ _ _

/-- A tally written with its own box in place leaves the boxes where they are. -/
theorem sameBoxes_put {s t : State} {n : Line} {x : Tally} (h : t.cash = { s.cash with tallies := put s.cash.tallies n x })
    (hp : x.present = (tallyOf s n).present) (hb : x.box = (tallyOf s n).box) : sameBoxes s t := by
  intro m
  rw [tallyOf_put h]
  split
  · rename_i hm
    exact hm ▸ ⟨hp, hb⟩
  · exact ⟨rfl, rfl⟩

/-- A tally without a PRESENT box is never in the way. -/
theorem boxesKept_put_absent {s t : State} {n : Line} {x : Tally} (h : t.cash = { s.cash with tallies := put s.cash.tallies n x })
    (hx : x.present = false) (hs : boxesKept s) : boxesKept t := by
  intro a b hab ha hb
  rw [tallyOf_put h] at ha hb ⊢
  rw [tallyOf_put h]
  by_cases han : a = n
  · rw [if_pos han, hx] at ha
    cases ha
  · by_cases hbn : b = n
    · rw [if_pos hbn, hx] at hb
      cases hb
    · rw [if_neg han] at ha ⊢
      rw [if_neg hbn] at hb ⊢
      exact hs a b hab ha hb

/-- A box put in whose number no PRESENT box of another terminal has. -/
theorem boxesKept_put_new {s t : State} {n : Line} {x : Tally} (h : t.cash = { s.cash with tallies := put s.cash.tallies n x })
    (hx : ∀ m, m ≠ n → (tallyOf s m).present = true → (tallyOf s m).box ≠ x.box) (hs : boxesKept s) : boxesKept t := by
  intro a b hab ha hb
  rw [tallyOf_put h] at ha hb ⊢
  rw [tallyOf_put h]
  by_cases han : a = n
  · have hbn : b ≠ n := fun e => hab (han.trans e.symm)
    rw [if_neg hbn] at hb ⊢
    rw [if_pos han]
    exact (hx b hbn hb).symm
  · rw [if_neg han] at ha ⊢
    by_cases hbn : b = n
    · rw [if_pos hbn]
      exact hx a han ha
    · rw [if_neg hbn] at hb ⊢
      exact hs a b hab ha hb

/-! ## The operations of the cash unit -/

theorem addCoins_sameBoxes (n : Line) (counts : Vector Nat 8) (s : State) : sameBoxes s (addCoins n counts s) := by
  intro m
  obtain ⟨-, hother, -, -⟩ := addCoins_cash n counts s
  by_cases hm : m = n
  · subst hm
    rw [(addCoins_tally m counts s).1]
    exact ⟨rfl, rfl⟩
  · unfold tallyOf
    rw [hother m hm]
    exact ⟨rfl, rfl⟩

theorem takePayment_sameBoxes (n : Line) (m : SaleMoney) (terms : Terms) (s : State) : sameBoxes s (takePayment n m terms s) := by
  unfold takePayment
  split
  · exact addCoins_sameBoxes n _ s
  · exact sameBoxes_of_tallies (by rw [debitPermit_cash])
  · exact sameBoxes_of_tallies rfl

theorem commitSale_sameBoxes (n : Line) (q : OpenQuote) (m : SaleMoney) (serial : Nat) (s : State) :
    sameBoxes s (commitSale n q m serial s) := by
  obtain ⟨v, hv, -, -, hcash, -, -⟩ := commitSale_spec n q m serial s
  subst hv
  have hpaid := takePayment_sameBoxes n m q.result.terms
    (onSales (fun u => u.committed n (sessionOf s n q m serial) (now s)) s)
  exact sameBoxes.trans hpaid (sameBoxes_of_tallies (congrArg CashUnit.tallies hcash))

theorem takeSale_sameBoxes (n : Line) (number : Nat) (m : SaleMoney) (s : State) : sameBoxes s (takeSale n number m s) := by
  have hrefused : ∀ st u, u.cash = s.cash → sameBoxes s (refuseSale n st u) := fun st u hu =>
    sameBoxes_of_tallies (congrArg CashUnit.tallies ((refuseSale_frame u n st .cash (by decide)).trans hu))
  unfold takeSale
  split
  · exact hrefused _ _ rfl
  · split
    · exact hrefused _ _ rfl
    · split
      · exact hrefused _ _ rfl
      · split
        · exact hrefused _ _ rfl
        · rename_i q _ _ _
          have hread : (refreshForSale q m s).cash = s.cash := refreshForSale_frame s q m .cash (by decide)
          unfold trySale
          dsimp only
          split
          · exact hrefused _ _ hread
          · exact hrefused _ _ hread
          · exact hrefused _ _ hread
          · exact (sameBoxes_of_tallies (congrArg CashUnit.tallies hread)).trans (commitSale_sameBoxes n q m _ _)

theorem setCapacity_sameBoxes (n : Line) (capacity : Nat) (s : State) : sameBoxes s (setCapacity n capacity s) :=
  sameBoxes_put (setCapacity_cash n capacity s) rfl rfl

theorem configure_sameBoxes (n : Line) (f : TerminalFields) (p : Fin 8) (c : CondSet) (s : State) :
    sameBoxes s (configure n f p c s) := by
  have hcapacity := setCapacity_sameBoxes n f.capacity
    (onEntry n (fun e => e.configured f p c (now s) (s.books.stagedState == .armed)) s)
  refine hcapacity.trans (sameBoxes_of_tallies ?_)
  unfold configure
  dsimp only
  rw [disturb_cash]
  exact congrArg CashUnit.tallies (regracePlans_frame _ _ _ .cash (by decide))

/-- BOX-OUT leaves the tally ABSENT (R147). -/
theorem takeBox_keeps (n : Line) (label : Nat) {s : State} (hs : boxesKept s) : boxesKept (takeBox n label s) := by
  obtain ⟨kept, -, hroom, -⟩ := makeLiftRoom_spec s
  have hroomed : boxesKept (makeLiftRoom s) := (sameBoxes_of_tallies (by rw [hroom])).kept hs
  have hjoined : ∀ l : Lift, (joinLifted n (appendLift l (makeLiftRoom s).cash)).tallies = (makeLiftRoom s).cash.tallies :=
    fun l => by unfold joinLifted; split <;> rfl
  have hempty : boxesKept (onTally n Tally.emptied
      (onCash (fun c => joinLifted n (appendLift (liftOf s n label) c)) (makeLiftRoom s))) :=
    boxesKept_put_absent (onTally_put n _ _) rfl
      ((sameBoxes_of_tallies (s := makeLiftRoom s) (hjoined (liftOf s n label))).kept hroomed)
  unfold takeBox
  dsimp only
  refine (sameBoxes_put (x := { tallyOf _ n with absentMark := true }) ?_ rfl rfl).kept hempty
  rw [← markAbsent_cash]
  split <;> split <;> simp

/-- BOX-IN refuses the number of a PRESENT box of another terminal (R149). -/
theorem putBox_keeps (n : Line) (label : Nat) {s : State} (hs : boxesKept s) : boxesKept (putBox n label s) := by
  unfold putBox
  split
  · exact boxesKept_reads.frame ((raiseFault_frame s _ _ _).trans (answerPending_frame _ _ _ _)) (by decide) hs
  · rename_i hfree
    have hnew : ∀ m, m ≠ n → (tallyOf s m).present = true → (tallyOf s m).box ≠ label := by
      intro m hm hp hb
      refine hfree (.inr ((someRow_iff _).mpr ⟨m, ?_⟩))
      unfold tallyOf at hp hb
      simp [hm, hp, hb]
    have hfilled : boxesKept (onTally n (fun t => t.filled label) s) :=
      boxesKept_put_new (onTally_put n _ s) hnew hs
    have habsent : sameBoxes _ (unmarkAbsent n (onTally n (fun t => t.filled label) s)) :=
      sameBoxes_put (unmarkAbsent_cash n _) rfl rfl
    have hnear : sameBoxes _ (unmarkNear n (unmarkAbsent n (onTally n (fun t => t.filled label) s))) :=
      sameBoxes_put (unmarkNear_cash n _) rfl rfl
    have hfull : sameBoxes _ (unmarkFull n (unmarkNear n (unmarkAbsent n (onTally n (fun t => t.filled label) s)))) :=
      sameBoxes_put (unmarkFull_cash n _) rfl rfl
    exact ((habsent.trans hnear).trans hfull).kept hfilled

theorem lapseIfDue_tallies (s : State) : (lapseIfDue s).cash.tallies = s.cash.tallies := by
  rw [(lapse_spec s).1]
  split
  · split <;> rfl
  · rfl

theorem handOver_tallies (isDay isHour : Bool) (s : State) : (handOver isDay isHour s).cash.tallies = s.cash.tallies := by
  obtain ⟨-, -, -, -, -, -, -, -, -, hcash, -⟩ := handOver_done isDay isHour s
  rw [hcash]
  split
  · split <;> rfl
  · rfl

/-! ## The commands -/

theorem boxesKept_clock : KeptByClock boxesKept where
  clock s f _ := boxesKept_reads.frame (onClock_frame s f) (by decide)
  raiseZone s k d := boxesKept_reads.frame (raiseZone_frame s k d) (by decide)
  clearZone s k := boxesKept_reads.frame (clearZone_frame s k) (by decide)
  latch s n := boxesKept_reads.frame (latch_frame s n) (by decide)
  quotes s := boxesKept_reads.frame (cancelAllQuotes_frame s) (by decide)
  marks s := boxesKept_reads.frame (markForStep_frame s) (by decide)
  handOver s isDay isHour := (sameBoxes_of_tallies (handOver_tallies isDay isHour s)).kept
  warm s reason := boxesKept_reads.frame (warmBlocks_frame s reason) (by decide)
  cold s := by
    intro m n _ hm
    simp [tallyOf, coldStart, State.reset, CashUnit.cold, Tally.cold] at hm
  pins s pins := boxesKept_reads.frame (pinsUpdate_frame s pins) (by decide)

theorem boxesKept_frames : KeptByFrames boxesKept where
  line s n f := boxesKept_reads.frame (onLine_frame s n f) (by decide)
  heard s n := boxesKept_reads.frame (heard_frame s n) (by decide)
  counted s n := boxesKept_reads.frame (countDiscard_frame s n) (by decide)

theorem boxesKept_alone {s t : State} (hs : boxesKept s) : WorksAlone s t → boxesKept t :=
  boxesKept_reads.alone (by decide) boxesKept_clock.tick hs

/-- A command of a port keeps the boxes apart where its own effect does. -/
theorem boxesKept_command {source : Source} {s : State} {tag : Tag} {ok : Bool} {role : Role} {act : State → State}
    (hact : ∀ s, boxesKept s → boxesKept (act s)) (hs : boxesKept s) : boxesKept (takeCommand source tag ok role act s) :=
  takeCommand_keeps tag ok role (fun n => boxesKept_reads.frame (latch_frame s n) (by decide))
    (fun u st b hu _ => boxesKept_reads.frame (answerPort_frame u _ tag st b) (by decide) hu) (fun _ _ => hact s) hs

/-- A request that a line takes keeps the boxes apart where its block does. -/
theorem boxesKept_frame {n : Line} {k : Option RequestKind} {ok : Bool} {s : State} {act : State → State}
    (hact : ∀ s, boxesKept s → boxesKept (act s)) (hs : boxesKept s) : boxesKept (takeFrame n k ok act s) :=
  boxesKept_frames.takeFrame n k ok hact hs

theorem boxesKept_onCash {s : State} (f : CashUnit → CashUnit) (hf : (f s.cash).tallies = s.cash.tallies) (hs : boxesKept s) :
    boxesKept (onCash f s) := (sameBoxes_of_tallies (s := s) (t := onCash f s) hf).kept hs

/-- A property of the cash unit alone is kept by an answer at a port. -/
theorem boxesKept_answer {s : State} (id : PortId) (tag : Tag) (st : Status) (b : Body) (hs : boxesKept s) :
    boxesKept (answerPort id tag st b s) := boxesKept_reads.frame (answerPort_frame s id tag st b) (by decide) hs

theorem boxesKept_latch {s : State} (n : Notice) (hs : boxesKept s) : boxesKept (latch n s) :=
  boxesKept_reads.frame (latch_frame s n) (by decide) hs

theorem boxesKept_line {s : State} (n : Line) (st : Status) (b : Body) (hs : boxesKept s) :
    boxesKept (answerPending n st b s) := boxesKept_reads.frame (answerPending_frame s n st b) (by decide) hs

/-- Every command keeps the boxes apart: those that touch the cash unit one by one, and all others by their footprint. -/
theorem exec_boxesKept (c : Instr) (s t : State) (hs : boxesKept s) (hx : exec c s = .next t) : boxesKept t := by
  cases c
  case minuteBoundary | powerUp | nresetRelease => exact boxesKept_clock.exec hx hs (.inl rfl)
  case commandedRestart => exact boxesKept_clock.exec hx hs (.inr ⟨_, rfl⟩)
  case portReplyEnd =>
    cases hx
    refine whenRunning_keeps (fun s hs => ?_) hs
    split
    · exact boxesKept_clock.warmRestart _ hs
    · exact boxesKept_reads.frame (onPorts_frame s _) (by decide) hs
  case setClock => cases hx; exact boxesKept_command (fun s hs => boxesKept_answer _ _ _ _ (boxesKept_clock.setClock _ hs)) hs
  case configureTerminal =>
    cases hx
    refine boxesKept_command (fun s hs => ?_) hs
    split
    · exact hs
    · split
      · exact boxesKept_answer _ _ _ _ hs
      · exact boxesKept_answer _ _ _ _ ((configure_sameBoxes _ _ _ _ s).kept hs)
  case sale =>
    cases hx
    refine whenRunning_keeps (fun s hs => ?_) hs
    split
    · exact boxesKept_frame (fun _ hs => hs) hs
    · exact boxesKept_frame (fun s hs => (takeSale_sameBoxes _ _ _ s).kept hs) hs
  case setCoins =>
    cases hx
    refine boxesKept_command (fun s hs => ?_) hs
    dsimp only
    split
    · exact boxesKept_answer _ _ _ _ (boxesKept_onCash _ rfl hs)
    · exact boxesKept_answer _ _ _ _ hs
  case boxOut =>
    cases hx
    refine whenRunning_keeps (fun s hs => boxesKept_frame (fun s hs => ?_) hs) hs
    split
    · exact takeBox_keeps _ _ hs
    · exact boxesKept_line _ _ _ hs
  case boxIn =>
    cases hx
    refine whenRunning_keeps (fun s hs => boxesKept_frame (fun s hs => ?_) hs) hs
    split
    · exact boxesKept_line _ _ _ hs
    · exact putBox_keeps _ _ hs
  case openRound =>
    cases hx
    refine boxesKept_command (fun s hs => ?_) hs
    split
    · exact boxesKept_answer _ _ _ _ hs
    · split
      · exact boxesKept_answer _ _ _ _ hs
      · exact boxesKept_answer _ _ _ _ (boxesKept_latch _ (boxesKept_clock.clearZone _ _ (boxesKept_onCash _ rfl hs)))
  case closeRound =>
    cases hx
    refine boxesKept_command (fun s hs => ?_) hs
    split
    · exact boxesKept_answer _ _ _ _ hs
    · split
      · exact boxesKept_answer _ _ _ _ hs
      · split
        · exact boxesKept_answer _ _ _ _ hs
        · exact boxesKept_answer _ _ _ _ (boxesKept_latch _ (boxesKept_onCash _ rfl hs))
  case roundLapse =>
    cases hx
    exact whenSet_keeps (fun s hs => (sameBoxes_of_tallies (lapseIfDue_tallies s)).kept hs) hs
  case countResult =>
    cases hx
    refine boxesKept_command (fun s hs => ?_) hs
    split
    · exact boxesKept_answer _ _ _ _ hs
    · dsimp only
      refine boxesKept_answer _ _ _ _ ?_
      split
      · exact boxesKept_onCash _ rfl hs
      · exact boxesKept_reads.frame (raiseFault_frame _ _ _ _) (by decide) (boxesKept_onCash _ rfl hs)
  case setCashLimits =>
    cases hx
    exact boxesKept_command (fun s hs => boxesKept_answer _ _ _ _ (boxesKept_onCash _ rfl hs)) hs
  all_goals exact boxesKept_reads.exec hx (by simp [partsOf]) hs

/-- Settles O5: what the part does alone leaves the tallies, and every command keeps the boxes apart. -/
theorem boxNumbersStayApart : Obligations.BoxNumbersStayApart :=
  step_keeps exec_boxesKept (fun _ _ _ hs => hs) fun _ _ => boxesKept_alone

end Sys2Proof.Proofs
end

section
/-!
PROOFS. What a command does to the ports: most answer at once, with one answer more at a port that listens, and leave the deferred
counts and the badges alone.
-/
namespace Sys2Proof.Proofs
open Sys2Proof Sys2Proof.Machine

/-! ## One port -/

@[simp] theorem port_onPort_self (u : PortUnit) (id : PortId) (f : Port → Port) : (u.onPort id f).port id = f (u.port id) := by
  cases id <;> rfl

theorem port_onPort_other (u : PortUnit) {id i : PortId} (f : Port → Port) (h : i ≠ id) : (u.onPort id f).port i = u.port i := by
  cases id with
  | office => cases i with
    | office => exact absurd rfl h
    | service => rfl
  | service => cases i with
    | office => rfl
    | service => exact absurd rfl h

@[simp] theorem onPort_badges (u : PortUnit) (id : PortId) (f : Port → Port) : (u.onPort id f).badges = u.badges := by
  cases id <;> rfl

@[simp] theorem start_deferred (p : Port) (z : ZoneMinute) (k : ClockState) : (p.start z k).deferred = p.deferred := by
  unfold Port.start
  split <;> rfl

theorem start_queue_le (p : Port) (z : ZoneMinute) (k : ClockState) : (p.start z k).queue.length ≤ p.queue.length := by
  unfold Port.start
  split
  · rename_i hq
    simp [hq]
  · exact Nat.le_refl _

@[simp] theorem append_deferred (p : Port) (a : PortAnswer) (z : ZoneMinute) (k : ClockState) :
    (p.append a z k).deferred = p.deferred := start_deferred _ z k

theorem append_queue_le (p : Port) (a : PortAnswer) (z : ZoneMinute) (k : ClockState) :
    (p.append a z k).queue.length ≤ p.queue.length + 1 := by
  have h := start_queue_le { p with queue := p.queue ++ [a] } z k
  simpa [Port.append] using h

/-! ## Answers at once -/

/-- No port has more than one answer more, and that only where it listens; the deferred counts stay. -/
structure queuesGrow (s t : State) : Prop where
  deferred : ∀ id, (t.ports.port id).deferred = (s.ports.port id).deferred
  queue : ∀ id, (t.ports.port id).queue.length ≤ (s.ports.port id).queue.length ∨
    (listening s id = true ∧ (t.ports.port id).queue.length ≤ (s.ports.port id).queue.length + 1)

/-- The queues grow so, and the badges stay. -/
structure portsGrow (s t : State) : Prop extends queuesGrow s t where
  badges : t.ports.badges = s.ports.badges

theorem queuesGrow.answer {s u : State} {id : PortId} {tag : Tag} {st : Status} {b : Body}
    (h : ∀ i, u.ports.port i = s.ports.port i) (hl : listening s id = true) : queuesGrow s (answerPort id tag st b u) where
  deferred i := by
    by_cases hi : i = id
    · subst hi
      simp [h]
    · simp [port_onPort_other _ _ hi, h]
  queue i := by
    by_cases hi : i = id
    · subst hi
      refine .inr ⟨hl, ?_⟩
      simpa [h] using append_queue_le (u.ports.port i) _ _ _
    · exact .inl (by simp [port_onPort_other _ _ hi, h])

namespace portsGrow
variable {s t u : State}

theorem same (h : t.ports = s.ports) : portsGrow s t where
  badges := by rw [h]
  deferred id := by rw [h]
  queue id := .inl (by rw [h])

theorem answer {id : PortId} {tag : Tag} {st : Status} {b : Body} (h : u.ports = s.ports) (hl : listening s id = true) :
    portsGrow s (answerPort id tag st b u) where
  badges := by simp [h]
  toqueuesGrow := .answer (fun i => by rw [h]) hl

theorem restarting (h : portsGrow s t) : portsGrow s (onPorts (fun u => { u with restarting := true }) t) where
  badges := h.badges
  deferred
    | .office => h.deferred .office
    | .service => h.deferred .service
  queue
    | .office => h.queue .office
    | .service => h.queue .service

/-- A command of a port grows the ports where its own effect does. -/
theorem takeCommand {source : Source} {tag : Tag} {ok : Bool} {role : Role} {act : State → State}
    (hact : ok = true → listening s source.port = true → portsGrow s (act s)) : portsGrow s (takeCommand source tag ok role act s) := by
  unfold Machine.takeCommand
  by_cases hl : listening s source.port = true
  · rw [hl, if_neg (by simp)]
    split
    · exact answer rfl hl
    · split
      · exact answer rfl hl
      · rename_i hok _
        simp only [Bool.not_eq_true', Bool.not_eq_false, Bool.and_eq_true] at hok
        exact hact hok.1 hl
  · rw [Bool.not_eq_true] at hl
    rw [hl]
    exact same rfl

theorem office {tag : Tag} {ok : Bool} {act : State → State} (hact : listening s .office = true → portsGrow s (act s)) :
    portsGrow s (officeCommand tag ok act s) := takeCommand (source := .office) fun _ => hact

end portsGrow

theorem load_grows {α : Type} {s : State} (tag : Tag) (part : Option α) (further : Book → α → Except Status Book)
    (hl : listening s .office = true) : portsGrow s (load tag part further s) := by
  unfold load
  split
  · exact .answer rfl hl
  · split
    · exact .answer rfl hl
    · split
      · exact .answer rfl hl
      · exact .answer rfl hl

/-- The commands of a port that are answered at once and put no badge. -/
def answersAtOnce : Instr → Bool
  | .setClock _ _ _ | .setOverride _ _ _ | .dropOverride _ _ | .loadPlan _ _ | .loadDay _ _ | .loadLadder _ _
  | .loadCalendar _ _ | .copyActive _ | .clearStaged _ | .armBook _ _ | .disarmBook _ | .readBook _ _ _
  | .configureTerminal _ _ | .retireTerminal _ _ | .setConditions _ _ _ | .clearConditions _ _ | .lineReset _ _ _
  | .testLine _ _ _ | .endTest _ _ _ | .fetchSessions _ _ _ | .readTotals _ _ | .putPermit _ _ | .dropPermit _ _
  | .setPermitState _ _ _ | .readPermit _ _ _ | .setRecentWindow _ _ | .setCoins _ _ | .readLifts _ _ _
  | .openRound _ _ _ | .roundStatus _ _ | .closeRound _ _ | .countResult _ _ _ | .setCashLimits _ _ _ | .ackFault _ _ _
  | .clearFault _ _ _ _ | .readFaults _ _ _ | .readNotices _ | .readSiteNotices _ _ | .setNotices _ _ _ _
  | .setAddressed _ _ _ | .resetAddressed _ _ _ | .readStatus _ _ | .restart _ _ | .unknownPortCommandKind _ _ => true
  | _ => false

theorem configure_ports (n : Line) (f : TerminalFields) (p : Fin 8) (c : CondSet) (s : State) :
    (configure n f p c s).ports = s.ports := configure_frame s n f p c .ports (by decide)

theorem retire_ports (n : Line) (s : State) : (retire n s).ports = s.ports := retire_frame s n .ports (by decide)

theorem changeAddressed_grows {s : State} (tag : Tag) (terminal : Nat) (f : BitVec 8 → BitVec 8)
    (hl : listening s .office = true) : portsGrow s (changeAddressed tag terminal f s) := by
  unfold changeAddressed
  split
  · exact .same rfl
  · exact .answer rfl hl

theorem exec_answersAtOnce {c : Instr} {s t : State} (hx : exec c s = .next t) (hc : answersAtOnce c = true) : portsGrow s t := by
  cases c
  case setClock => cases hx; exact .office fun hl => .answer (by simp [setClock]) hl
  case loadPlan | loadDay | loadLadder | loadCalendar | copyActive =>
    cases hx; exact .office fun hl => load_grows _ _ _ hl
  case clearConditions | lineReset | readTotals =>
    cases hx
    refine .takeCommand fun _ hl => ?_
    split
    · exact .same rfl
    · exact .answer (by simp) hl
  case fetchSessions | setRecentWindow | readLifts | setCashLimits | readFaults | readNotices | readSiteNotices | readStatus =>
    cases hx; exact .takeCommand fun _ hl => .answer rfl hl
  case unknownPortCommandKind => cases hx; exact .takeCommand fun _ hl => .same rfl
  case setAddressed | resetAddressed => cases hx; exact .office fun hl => changeAddressed_grows _ _ _ hl
  case restart =>
    cases hx
    refine .takeCommand fun hok hl => (portsGrow.answer rfl ?_).restarting
    rw [decide_eq_true_eq] at hok
    subst hok
    exact hl
  case configureTerminal | retireTerminal | testLine | endTest | ackFault | clearFault =>
    cases hx
    refine .takeCommand fun _ hl => ?_
    split
    on_goal 1 => exact .same rfl
    all_goals
      repeat' split
    all_goals exact .answer (by simp [configure_ports, retire_ports]) hl
  case setConditions | setNotices =>
    cases hx
    refine .takeCommand fun _ hl => ?_
    split
    on_goal 2 => exact .same rfl
    all_goals
      repeat' split
    all_goals exact .answer rfl hl
  case countResult =>
    cases hx
    refine .takeCommand fun _ hl => ?_
    split
    · exact .answer rfl hl
    · dsimp only
      refine .answer ?_ hl
      split
      · rfl
      · exact raiseFault_ports ..
  case setOverride | dropOverride | clearStaged | armBook | disarmBook | readBook | dropPermit | setPermitState | openRound
      | roundStatus | closeRound =>
    cases hx
    refine .takeCommand fun _ hl => ?_
    repeat' split
    all_goals exact .answer rfl hl
  case putPermit | readPermit | setCoins =>
    cases hx
    refine .takeCommand fun _ hl => ?_
    dsimp only
    repeat' split
    all_goals exact .answer rfl hl
  all_goals cases hc

/-- A command that answers at once, or that does not touch the ports. -/
theorem exec_portsGrow {c : Instr} {s t : State} (hx : exec c s = .next t) (hc : answersAtOnce c = true ∨ Part.ports ∉ partsOf c) :
    portsGrow s t := by
  rcases hc with hc | hc
  · exact exec_answersAtOnce hx hc
  · exact .same (exec_agrees hx hc)

end Sys2Proof.Proofs
end

section
/-!
PROOFS. The layer under the invariants, continued: the commands that move the clock, and the quote engine, with what keeps a property
that a walk's outcome and its read of the register keep.
-/
namespace Sys2Proof.Proofs
open Sys2Proof Sys2Proof.Machine

/-! ## The commands that move the clock -/

/-- The commands that make a boundary, a step or a restart, or move a pin. -/
def movesClock : Instr → Bool
  | .minuteBoundary | .powerUp _ _ | .supplyLoss | .nresetAssertion | .nresetRelease _ _ | .commandedRestart _
  | .portReplyEnd _ | .setClock _ _ _ => true
  | _ => false

/-- The next queued answer of a port begins. -/
abbrev portEnds (id : PortId) (s : State) : State := onPorts (fun u => u.onPort id fun p => p.ended s.clock.reading s.clock.state) s

theorem KeptByClock.commands {P : State → Prop} (h : KeptByClock P) (hanswer : ∀ s id tag st b, P s → P (answerPort id tag st b s))
    (hended : ∀ s id, P s → P (portEnds id s)) {c : Instr} {s t : State} (hx : Machine.exec c s = .next t) (hs : P s)
    (hc : movesClock c = true) : P t := by
  cases c
  case minuteBoundary | powerUp | supplyLoss | nresetAssertion | nresetRelease => exact h.exec hx hs (.inl rfl)
  case commandedRestart => exact h.exec hx hs (.inr ⟨_, rfl⟩)
  case portReplyEnd =>
    cases hx
    refine whenRunning_keeps (fun s hs => ?_) hs
    split
    · exact h.warmRestart _ hs
    · exact hended _ _ hs
  case setClock =>
    cases hx
    exact takeCommand_keeps (source := .office) _ _ _ (h.latch s) (fun u st b hu _ => hanswer u _ _ st b hu)
      (fun _ _ hs => hanswer _ _ _ _ _ (h.setClock _ hs)) hs
  all_goals cases hc

/-- A property of parts that no boundary touches but by its own work of the day and the round. -/
theorem ReadsOnly.byClock {parts : List Part} {P : State → Prop} (h : ReadsOnly parts P)
    (hd : ∀ p ∈ parts, p ∉ [Part.clock, .books, .engine, .lines, .table, .quotes, .cover, .faults, .notices, .ports, .pins])
    (hhandOver : ∀ s isDay isHour, P s → P (handOver isDay isHour s)) (hcold : ∀ s, P (coldStart s)) : KeptByClock P where
  clock s f _ := h.frame ((onClock_frame s f).mono (by decide)) hd
  raiseZone s k d := h.frame ((raiseZone_frame s k d).mono (by decide)) hd
  clearZone s k := h.frame ((clearZone_frame s k).mono (by decide)) hd
  latch s n := h.frame ((latch_frame s n).mono (by decide)) hd
  quotes s := h.frame ((cancelAllQuotes_frame s).mono (by decide)) hd
  marks s := h.frame ((markForStep_frame s).mono (by decide)) hd
  handOver := hhandOver
  warm s reason := h.frame ((warmBlocks_frame s reason).mono (by decide)) hd
  cold := hcold
  pins s pins := h.frame ((pinsUpdate_frame s pins).mono (by decide)) hd

/-! ## The quote engine -/

/-- The requests to the quote engine, and its choice. -/
def asksArbiter : Instr → Bool
  | .quote _ _ | .price _ _ | .previewQuote _ _ | .walkBegin => true
  | _ => false

/-- The requests and events of the quote engine. -/
def asksEngine (c : Instr) : Bool := asksArbiter c || decide (c = .walkComplete)

/-- What a property must be kept by for the arbiter and the requests to the engine to keep it. -/
structure KeptByArbiter (P : State → Prop) : Prop where
  frame : ∀ s t, onlyChanges [.engine, .lines, .quotes, .notices] s t → P s → P t
  start : ∀ s i r, P s → P (startWalk (walkOf s i r) (onEngine (fun e => e.taken i) s))
  heard : ∀ s n, P s → P (heard n s)
  counted : ∀ s n, P s → P (countDiscard n s)
  refresh : ∀ s number, P s → P (refreshPermit number s)
  deliver : ∀ s w o, P s → P (deliver w o s)
  defer : ∀ s id, P s → P (deferAnswer id s)
  answer : ∀ s id tag st b, P s → P (answerPort id tag st b s)

/-- And the same for a walk that ends. -/
structure KeptByEngine (P : State → Prop) : Prop extends KeptByArbiter P where
  clear : ∀ s v, P s → P (onBooks (fun b => b.clearHolds v) s)

namespace KeptByArbiter
variable {P : State → Prop} (h : KeptByArbiter P) {s : State}
include h

theorem line (n : Line) (st : Status) (b : Body) (hs : P s) : P (answerPending n st b s) :=
  h.frame s _ ((answerPending_frame s n st b).mono (by decide)) hs

theorem frames : KeptByFrames P where
  line s n f := h.frame s _ ((onLine_frame s n f).mono (by decide))
  heard := h.heard
  counted := h.counted

theorem arbitrate : ∀ (fuel : Nat) (s : State), P s → P (arbitrate fuel s)
  | 0, _, hs => hs
  | fuel + 1, s, hs => by
    have htaken : ∀ i, P (onEngine (fun e => e.taken i) s) := fun i => h.frame s _ ((onEngine_frame s _).mono (by decide)) hs
    unfold Machine.arbitrate
    split
    · split
      · exact hs
      · split
        · exact h.start _ _ _ hs
        · exact arbitrate fuel _ (h.deliver _ _ _ (htaken _))
    · exact hs

theorem chooseWalk (hs : P s) : P (chooseWalk s) := h.arbitrate 17 s hs

theorem placeRequest (i : Fin 17) (r : WalkRequest) (hs : P s) : P (placeRequest i r s) :=
  h.chooseWalk (h.frame s _ ((onEngine_frame s _).mono (by decide)) hs)

/-- A stage reads the register at most. -/
theorem stageOf (w : Walk) (hs : P s) : P (stageOf s w).1 := by
  unfold Machine.stageOf
  split
  · split
    · unfold readAllowance
      split
      · exact hs
      · exact h.refresh _ _ hs
    · exact hs
  · exact hs

theorem runStages : ∀ (fuel : Nat) (s : State) (w : Walk), P s → P (runStages fuel s w).1
  | 0, _, _, hs => hs
  | fuel + 1, s, w, hs => by
    unfold Machine.runStages
    split
    · exact hs
    · exact runStages fuel _ _ (h.stageOf w hs)

theorem stepWalk (hs : P s) : P (stepWalk s) := by
  unfold Machine.stepWalk
  split
  · exact hs
  · exact h.frame _ _ ((onEngine_frame _ _).mono (by decide)) (h.stageOf _ hs)

theorem takeAsk (n : Line) (r : WalkRequest) (hs : P s) : P (takeAsk n r s) := by
  have haccept : ∀ s, P s → P (acceptAsk n r s) := fun s hs =>
    h.placeRequest _ _ (h.frame s _ ((cancelQuote_frame s n).mono (by decide)) hs)
  unfold Machine.takeAsk
  split
  · exact h.line _ _ _ hs
  · split
    · dsimp only
      split
      · exact h.line _ _ _ (h.refresh _ _ hs)
      · exact haccept _ (h.refresh _ _ hs)
    · exact haccept _ hs

theorem takeAskFrame (n : Line) (k : RequestKind) (r : Option WalkRequest) (hs : P s) : P (takeAskFrame n k r s) := by
  unfold Machine.takeAskFrame
  split
  · exact h.frames.takeFrame _ _ _ (fun _ hs => hs) hs
  · exact h.frames.takeFrame _ _ _ (fun _ => h.takeAsk _ _) hs

/-- The requests to the engine, and the arbiter's choice. -/
theorem exec {c : Instr} {t : State} (hx : exec c s = .next t) (hs : P s) (hc : asksArbiter c = true) : P t := by
  cases c
  case quote | price => cases hx; exact whenRunning_keeps (fun _ => h.takeAskFrame _ _ _) hs
  case walkBegin => cases hx; exact whenRunning_keeps (fun _ => h.chooseWalk) hs
  case previewQuote =>
    cases hx
    refine takeCommand_keeps (source := .office) _ _ _ (fun n => h.frame _ _ ((latch_frame _ n).mono (by decide)))
      (fun u st b hu _ => h.answer u _ _ st b hu) (fun _ _ hs => ?_) hs
    split
    · exact hs
    · split
      · exact h.answer _ _ _ _ _ hs
      · exact h.placeRequest _ _ (h.defer _ _ hs)
  all_goals cases hc

end KeptByArbiter

namespace KeptByEngine
variable {P : State → Prop} (h : KeptByEngine P) {s : State}
include h

theorem completeWalk (w : Walk) (o : WalkOutcome) (hs : P s) : P (completeWalk w o s) :=
  h.chooseWalk (h.deliver _ _ _ (h.frame _ _ ((onEngine_frame _ _).mono (by decide)) (h.clear s w.view hs)))

theorem exec {c : Instr} {t : State} (hx : Machine.exec c s = .next t) (hs : P s) (hc : asksEngine c = true) : P t := by
  cases c
  case quote | price | walkBegin | previewQuote => exact h.toKeptByArbiter.exec hx hs rfl
  case walkComplete =>
    cases hx
    refine whenRunning_keeps (fun s hs => ?_) hs
    split
    · exact hs
    · exact h.completeWalk _ _ (h.runStages _ _ _ hs)
  all_goals cases hc

end KeptByEngine
end Sys2Proof.Proofs
end

section
/-!
PROOFS. Every list of the store keeps its room and, but for the lift list, its order (O4): list by list, what each operation leaves of
it.
-/
namespace Sys2Proof.Proofs
open Sys2Proof Sys2Proof.Machine

/-- A sale keeps what its refusal, its read of the register and its commit keep. -/
theorem takeSale_keeps {P : State → Prop} {n : Line} {number : Nat} {m : SaleMoney} {s : State}
    (hrefuse : ∀ st u, P u → P (refuseSale n st u)) (hread : ∀ q, P (refreshForSale q m s))
    (hcommit : ∀ q serial u, P u → u.sales.nextSerial = some serial → lateRefusal u n m.kind = none → P (commitSale n q m serial u))
    (hs : P s) : P (takeSale n number m s) := by
  unfold takeSale
  split
  · exact hrefuse _ _ hs
  · split
    · exact hrefuse _ _ hs
    · split
      · exact hrefuse _ _ hs
      · split
        · exact hrefuse _ _ hs
        · unfold trySale
          dsimp only
          split
          · exact hrefuse _ _ (hread _)
          · exact hrefuse _ _ (hread _)
          · exact hrefuse _ _ (hread _)
          · exact hcommit _ _ _ (hread _) (by assumption) (by assumption)

/-! ## The override table -/

theorem overridesKept_reads : ReadsOnly [.clock] overridesKept := fun s t h hs => by
  unfold overridesKept at *
  rwa [show t.clock = s.clock from h .clock (by simp)]

theorem overridesKept_of {s t : State} (h : t.clock.overrides = s.clock.overrides) (hs : overridesKept s) : overridesKept t := by
  unfold overridesKept at *
  rwa [h]

theorem overridesKept_filter {s t : State} (p : Override → Bool) (h : t.clock.overrides = s.clock.overrides.filter p)
    (hs : overridesKept s) : overridesKept t := by
  obtain ⟨hrise, hroom⟩ := hs
  unfold overridesKept
  rw [h]
  exact ⟨rising_filter _ _ hrise, Nat.le_trans (List.length_filter_le ..) hroom⟩

theorem key_of_lookup {α : Type} {key : α → Nat} {k : Nat} {l : List α} {x : α} (h : lookup key k l = some x) : key x = k := by
  simpa using List.find?_some h

/-- A table with room, or one that holds the key, takes the entry (R9). -/
theorem kept_upsert {α : Type} {key : α → Nat} {x : α} {l : List α} {room : Nat} (hrise : Rising key l) (hroom : l.length ≤ room)
    (hfree : ¬((lookup key (key x) l).isNone && decide (room ≤ l.length)) = true) :
    Rising key (upsert key x l) ∧ (upsert key x l).length ≤ room := by
  refine ⟨rising_upsert key x hrise, ?_⟩
  cases hk : lookup key (key x) l with
  | none =>
    have hlt : l.length < room := by simpa [hk] using hfree
    exact Nat.le_trans (length_upsert_le key x l) hlt
  | some y =>
    rw [length_upsert_of_held key x hrise (by rw [hk]; rfl)]
    exact hroom

theorem overridesKept_clock : KeptByClock overridesKept where
  clock s f hf := overridesKept_of (hf s.clock)
  raiseZone s k d := overridesKept_reads.frame (raiseZone_frame s k d) (by decide)
  clearZone s k := overridesKept_reads.frame (clearZone_frame s k) (by decide)
  latch s n := overridesKept_reads.frame (latch_frame s n) (by decide)
  quotes s := overridesKept_reads.frame (cancelAllQuotes_frame s) (by decide)
  marks s := overridesKept_reads.frame (markForStep_frame s) (by decide)
  handOver s isDay isHour hs := by
    obtain ⟨-, hclock, -⟩ := handOver_done isDay isHour s
    cases isDay
    · exact overridesKept_of (congrArg Clock.overrides hclock) hs
    · exact overridesKept_filter _ (congrArg Clock.overrides hclock) hs
  warm s reason := overridesKept_reads.frame (warmBlocks_frame s reason) (by decide)
  cold s := ⟨List.Pairwise.nil, Nat.zero_le _⟩
  pins s pins := overridesKept_reads.frame (pinsUpdate_frame s pins) (by decide)

theorem overridesKept_answer {s : State} (id : PortId) (tag : Tag) (st : Status) (b : Body) (hs : overridesKept s) :
    overridesKept (answerPort id tag st b s) := overridesKept_reads.frame (answerPort_frame s id tag st b) (by decide) hs

theorem overridesKept_command {tag : Tag} {ok : Bool} {act : State → State} {s : State}
    (hact : overridesKept s → overridesKept (act s)) (hs : overridesKept s) : overridesKept (officeCommand tag ok act s) :=
  takeCommand_keeps (source := .office) tag ok .any (overridesKept_clock.latch s) (fun _ st b hu _ => overridesKept_answer _ tag st b hu)
    (fun _ _ => hact) hs

theorem exec_overridesKept (c : Instr) (s t : State) (hs : overridesKept s) (hx : exec c s = .next t) : overridesKept t := by
  cases c
  case minuteBoundary | powerUp | nresetRelease | commandedRestart | portReplyEnd | setClock =>
    exact overridesKept_clock.commands (fun _ _ _ _ _ => overridesKept_answer _ _ _ _)
      (fun s _ => overridesKept_reads.frame (onPorts_frame s _) (by decide)) hx hs rfl
  case overrideRemoval => cases hx; exact whenSet_keeps (fun s hs => overridesKept_filter _ rfl hs) hs
  case setOverride =>
    cases hx
    refine overridesKept_command (fun hs => ?_) hs
    split
    · exact overridesKept_answer _ _ _ _ hs
    · split
      · exact overridesKept_answer _ _ _ _ hs
      · split
        · exact overridesKept_answer _ _ _ _ hs
        · rename_i hfree
          exact overridesKept_answer _ _ _ _ (kept_upsert hs.1 hs.2 hfree)
  case dropOverride =>
    cases hx
    refine overridesKept_command (fun hs => ?_) hs
    split
    · exact overridesKept_answer _ _ _ _ hs
    · split
      · exact overridesKept_answer _ _ _ _ hs
      · exact overridesKept_answer _ _ _ _ (overridesKept_filter _ rfl hs)
  all_goals exact overridesKept_reads.exec hx (by simp [partsOf]) hs

theorem overridesKept_alone {s t : State} (hs : overridesKept s) : WorksAlone s t → overridesKept t :=
  overridesKept_reads.alone (by decide) overridesKept_clock.tick hs

/-! ## The permit register -/

theorem permitsKept_reads : ReadsOnly [.permits] permitsKept := fun s t h hs => by
  unfold permitsKept at *
  rwa [show t.permits = s.permits from h .permits (by simp)]

theorem permitsKept_map {s t : State} (f : Permit → Permit) (hf : ∀ p, (f p).number = p.number) (h : t.permits = s.permits.map f)
    (hs : permitsKept s) : permitsKept t := by
  obtain ⟨hrise, hroom⟩ := hs
  unfold permitsKept
  rw [h]
  exact ⟨rising_map _ f hf hrise, by rwa [List.length_map]⟩

theorem permitsKept_filter {s t : State} (p : Permit → Bool) (h : t.permits = s.permits.filter p) (hs : permitsKept s) :
    permitsKept t := by
  obtain ⟨hrise, hroom⟩ := hs
  unfold permitsKept
  rw [h]
  exact ⟨rising_filter _ _ hrise, Nat.le_trans (List.length_filter_le ..) hroom⟩

theorem permitsKept_refresh (s : State) (number : Nat) : permitsKept s → permitsKept (refreshPermit number s) :=
  permitsKept_map _ (fun p => by
    split
    · exact refreshed_number p _
    · rfl) rfl

theorem debited_number (p : Permit) (minutes : Nat) : (p.debited minutes).number = p.number := by
  unfold Permit.debited
  split <;> rfl

theorem permitsKept_debit (s : State) (number minutes : Nat) : permitsKept s → permitsKept (debitPermit number minutes s) :=
  permitsKept_map _ (fun p => by
    split
    · exact debited_number p _
    · rfl) (debitPermit_permits number minutes s)

theorem permitsKept_clock : KeptByClock permitsKept :=
  permitsKept_reads.byClock (by decide) (fun s isDay isHour hs => by
    obtain ⟨-, -, hpermits, -⟩ := handOver_done isDay isHour s
    cases isDay
    · unfold permitsKept at *
      rwa [hpermits]
    · exact permitsKept_filter _ hpermits hs) fun s => ⟨List.Pairwise.nil, Nat.zero_le _⟩

theorem permitsKept_answer (s : State) (id : PortId) (tag : Tag) (st : Status) (b : Body) (hs : permitsKept s) :
    permitsKept (answerPort id tag st b s) := permitsKept_reads.frame (answerPort_frame s id tag st b) (by decide) hs

theorem permitsKept_engine : KeptByEngine permitsKept where
  frame _ _ h := permitsKept_reads.frame h (by decide)
  start s i r := permitsKept_reads.frame ((onEngine_frame s _).trans (startWalk_frame _ _)) (by decide)
  clear s v := permitsKept_reads.frame (onBooks_frame s _) (by decide)
  heard s n := permitsKept_reads.frame (heard_frame s n) (by decide)
  counted s n := permitsKept_reads.frame (countDiscard_frame s n) (by decide)
  refresh := permitsKept_refresh
  deliver s w o := permitsKept_reads.frame (deliver_frame s w o) (by decide)
  defer s id := permitsKept_reads.frame (deferAnswer_frame s id) (by decide)
  answer := permitsKept_answer

theorem permitsKept_command {tag : Tag} {ok : Bool} {act : State → State} {s : State}
    (hact : permitsKept s → permitsKept (act s)) (hs : permitsKept s) : permitsKept (officeCommand tag ok act s) :=
  takeCommand_keeps (source := .office) tag ok .any (permitsKept_clock.latch s)
    (fun _ st b hu _ => permitsKept_answer _ _ tag st b hu) (fun _ _ => hact) hs

theorem commitSale_permitsKept (n : Line) (q : OpenQuote) (m : SaleMoney) (serial : Nat) (s : State) (hs : permitsKept s) :
    permitsKept (commitSale n q m serial s) := by
  obtain ⟨v, hv, -, -, -, hpermits, -⟩ := commitSale_spec n q m serial s
  have hpaid : permitsKept v := by
    subst hv
    unfold takePayment
    split
    · exact permitsKept_reads.frame (addCoins_frame _ _ _) (by decide) hs
    · exact permitsKept_debit _ _ _ hs
    · exact hs
  unfold permitsKept at *
  rwa [hpermits]

theorem permitsKept_refuse (n : Line) (st : Status) {s : State} (hs : permitsKept s) : permitsKept (refuseSale n st s) :=
  permitsKept_reads.frame (refuseSale_frame s n st) (by decide) hs

theorem takeSale_permitsKept (n : Line) (number : Nat) (m : SaleMoney) (s : State) (hs : permitsKept s) :
    permitsKept (takeSale n number m s) := by
  refine takeSale_keeps (fun st u => permitsKept_refuse n st) (fun q => ?_) (fun q serial u hu _ _ => commitSale_permitsKept n q m serial u hu) hs
  unfold refreshForSale
  split
  · exact permitsKept_refresh _ _ hs
  · exact hs

theorem exec_permitsKept (c : Instr) (s t : State) (hs : permitsKept s) (hx : exec c s = .next t) : permitsKept t := by
  cases c
  case minuteBoundary | powerUp | nresetRelease | commandedRestart | portReplyEnd | setClock =>
    exact permitsKept_clock.commands permitsKept_answer (fun s _ => permitsKept_reads.frame (onPorts_frame s _) (by decide)) hx hs rfl
  case quote | price | walkComplete => exact permitsKept_engine.exec hx hs rfl
  case permitRemoval => cases hx; exact whenSet_keeps (fun s hs => permitsKept_filter _ rfl hs) hs
  case sale =>
    cases hx
    refine whenRunning_keeps (fun s hs => ?_) hs
    split
    · exact permitsKept_engine.frames.takeFrame _ _ _ (fun _ hs => hs) hs
    · exact permitsKept_engine.frames.takeFrame _ _ _ (takeSale_permitsKept _ _ _) hs
  case putPermit =>
    cases hx
    refine permitsKept_command (fun hs => ?_) hs
    split
    · exact permitsKept_answer _ _ _ _ _ hs
    · dsimp only
      split
      · exact permitsKept_answer _ _ _ _ _ hs
      · split
        · exact permitsKept_answer _ _ _ _ _ hs
        · rename_i hfree
          exact permitsKept_answer _ _ _ _ _ (kept_upsert hs.1 hs.2 hfree)
  case dropPermit =>
    cases hx
    refine permitsKept_command (fun hs => ?_) hs
    split
    · exact permitsKept_answer _ _ _ _ _ hs
    · exact permitsKept_answer _ _ _ _ _ (permitsKept_filter _ rfl hs)
  case setPermitState =>
    cases hx
    refine permitsKept_command (fun hs => ?_) hs
    split
    · exact permitsKept_answer _ _ _ _ _ hs
    · rename_i p hp
      have hnumber : p.number = _ := key_of_lookup hp
      dsimp only
      split
      · exact permitsKept_answer _ _ _ _ _ hs
      · refine permitsKept_answer _ _ _ _ _ (kept_upsert hs.1 hs.2 ?_)
        rw [show lookup Permit.number p.number s.permits = some p from hnumber ▸ hp]
        simp
  case readPermit =>
    cases hx
    refine permitsKept_command (fun hs => ?_) hs
    dsimp only
    split
    · split
      · split
        · exact permitsKept_answer _ _ _ _ _ hs
        · split
          · exact permitsKept_answer _ _ _ _ _ (permitsKept_refresh _ _ hs)
          · exact permitsKept_answer _ _ _ _ _ (permitsKept_refresh _ _ hs)
      · split
        · exact permitsKept_answer _ _ _ _ _ hs
        · exact permitsKept_answer _ _ _ _ _ (permitsKept_refresh _ _ hs)
      · exact permitsKept_answer _ _ _ _ _ hs
    · exact permitsKept_answer _ _ _ _ _ hs
  all_goals exact permitsKept_reads.exec hx (by simp [partsOf]) hs

theorem permitsKept_alone {s t : State} (hs : permitsKept s) (h : WorksAlone s t) : permitsKept t := by
  cases h with
  | nothing => exact hs
  | flag n => exact permitsKept_reads.frame (onLine_frame s n _) (by decide) hs
  | lineFrame n f => exact permitsKept_reads.frame (onLine_frame s n _) (by decide) hs
  | portFrame id f => exact permitsKept_reads.frame (onPorts_frame s _) (by decide) hs
  | walk => exact permitsKept_engine.stepWalk hs
  | search => exact permitsKept_reads.frame (stepSearch_frame s) (by decide) hs
  | cycle => exact permitsKept_clock.tick hs

/-! ## The session log and the daily totals -/

/-- The log and the totals, which the sale unit keeps together. -/
def salesKept (s : State) : Prop := logKept s ∧ totalsKept s

theorem salesKept_reads : ReadsOnly [.sales] salesKept := fun s t h hs => by
  unfold salesKept logKept totalsKept at *
  rwa [show t.sales = s.sales from h .sales (by simp)]

theorem logKept_filter {s t : State} (p : Session → Bool) (hlog : t.sales.log = s.sales.log.filter p)
    (hnext : t.sales.nextSerial = s.sales.nextSerial) (hs : logKept s) : logKept t := by
  obtain ⟨hrise, hroom, hbelow⟩ := hs
  unfold logKept
  rw [hlog, hnext]
  exact ⟨rising_filter _ _ hrise, Nat.le_trans (List.length_filter_le ..) hroom,
    fun next hn r hr => hbelow next hn r (List.mem_filter.mp hr).1⟩

/-- A list of day records in its order and its room. -/
def daysKept (l : List DayRecord) : Prop := Rising DayRecord.day l ∧ l.length ≤ totalsRoom

theorem withDayRecord_kept (day : Nat) {l : List DayRecord} (h : daysKept l) : daysKept (withDayRecord day l) := by
  obtain ⟨hrise, hroom⟩ := h
  unfold withDayRecord
  split
  · exact ⟨hrise, hroom⟩
  · split
    · refine ⟨rising_upsert _ _ (rising_drop _ 1 hrise), Nat.le_trans (length_upsert_le ..) ?_⟩
      rw [List.length_drop]
      have : 8 ≤ l.length := by assumption
      have : l.length ≤ 8 := hroom
      show l.length - 1 + 1 ≤ 8
      omega
    · rename_i hfull
      exact ⟨rising_upsert _ _ hrise, Nat.le_trans (length_upsert_le ..) (Nat.lt_of_not_le hfull)⟩

theorem onDayRecord_kept (day : Nat) {f : DayRecord → DayRecord} (hf : ∀ r, (f r).day = r.day) {l : List DayRecord}
    (h : daysKept l) : daysKept (onDayRecord day f l) := by
  obtain ⟨hrise, hroom⟩ := withDayRecord_kept day h
  refine ⟨rising_map _ _ (fun r => ?_) hrise, by rw [onDayRecord, List.length_map]; exact hroom⟩
  split
  · exact hf r
  · rfl

theorem totalsKept_change {s t : State} {n : Line} {day : Nat} {f : DayRecord → DayRecord} (hf : ∀ r, (f r).day = r.day)
    (h : t.sales.totals = change s.sales.totals n (onDayRecord day f)) (hs : totalsKept s) : totalsKept t := by
  intro m
  rw [h, row_change]
  split
  · exact onDayRecord_kept day hf (hs n)
  · exact hs m

theorem withSale_day (r : DayRecord) (kind : SessionKind) (payment : SessionPayment) (paid overpaid : Nat) :
    (r.withSale kind payment paid overpaid).day = r.day := by
  unfold DayRecord.withSale
  split <;> rfl

theorem salesKept_report (n : Line) (o : WalkOutcome) {s : State} (hs : salesKept s) : salesKept (reportWalk n o s) :=
  ⟨hs.1, totalsKept_change (f := fun r => r.withWalk o) (fun _ => rfl) rfl hs.2⟩

theorem salesKept_prune {s : State} (hs : salesKept s) : salesKept (pruneLog s) := by
  obtain ⟨hlog, htotals, hnext, -⟩ := easePressure_spec (onSales (fun u => { u with log := u.log.filter fun r => !r.prunable (now s) }) s)
  refine ⟨logKept_filter _ hlog hnext hs.1, fun n => ?_⟩
  rw [show (pruneLog s).sales.totals = s.sales.totals from htotals]
  exact hs.2 n

theorem salesKept_clock : KeptByClock salesKept :=
  salesKept_reads.byClock (by decide) (fun s isDay isHour hs => by
    obtain ⟨-, -, -, -, hlog, -, hnext, -, htotals, -⟩ := handOver_done isDay isHour s
    refine ⟨logKept_filter _ hlog hnext hs.1, fun n => ?_⟩
    rw [htotals]
    split
    · exact withDayRecord_kept _ (hs.2 n)
    · exact hs.2 n)
    fun s => ⟨⟨List.Pairwise.nil, Nat.zero_le _, fun _ _ _ hr => absurd hr (by simp [coldStart, State.reset, SaleUnit.cold])⟩,
      fun n => by simp [coldStart, State.reset, SaleUnit.cold]⟩

theorem salesKept_answer (s : State) (id : PortId) (tag : Tag) (st : Status) (b : Body) (hs : salesKept s) :
    salesKept (answerPort id tag st b s) := salesKept_reads.frame (answerPort_frame s id tag st b) (by decide) hs

theorem salesKept_outcome (n : Line) (w : Walk) (o : WalkOutcome) {s : State} (hs : salesKept s) :
    salesKept (terminalOutcome n w o s) := by
  have hline : ∀ u st b, salesKept u → salesKept (answerPending n st b u) := fun u st b =>
    salesKept_reads.frame (answerPending_frame u n st b) (by decide)
  unfold terminalOutcome
  split
  · split
    · exact hs
    · exact hline _ _ _ hs
  · have hreported : salesKept (match w.mode with
        | .normal => addSticky n o (reportWalk n o s)
        | .test => s) := by
      split
      · exact salesKept_reads.frame (addSticky_frame _ _ _) (by decide) (salesKept_report n o hs)
      · exact hs
    dsimp only
    split
    · exact salesKept_reads.frame (openQuote_frame _ _ _) (by decide) hreported
    · exact hline _ _ _ hreported
    · exact hline _ _ _ hreported

theorem salesKept_engine : KeptByEngine salesKept where
  frame _ _ h := salesKept_reads.frame h (by decide)
  start s i r := salesKept_reads.frame ((onEngine_frame s _).trans (startWalk_frame _ _)) (by decide)
  clear s v := salesKept_reads.frame (onBooks_frame s _) (by decide)
  heard s n := salesKept_reads.frame (heard_frame s n) (by decide)
  counted s n := salesKept_reads.frame (countDiscard_frame s n) (by decide)
  refresh s number := salesKept_reads.frame (refreshPermit_frame s number) (by decide)
  deliver s w o hs := by
    unfold deliver
    split
    · exact salesKept_reads.frame (officeOutcome_frame _ _ _) (by decide) hs
    · exact salesKept_outcome _ _ _ hs
  defer s id := salesKept_reads.frame (deferAnswer_frame s id) (by decide)
  answer := salesKept_answer

/-- Room made in the log keeps its order, and leaves room for one record more (R107). -/
theorem makeRoom_kept {log : List Session} {time : ZoneMinute} (hrise : Rising Session.serial log) (hroom : log.length ≤ logRoom)
    (hspace : logHasRoom log time = true) : Rising Session.serial (makeRoom log time) ∧ (makeRoom log time).length < logRoom ∧
      ∀ r ∈ makeRoom log time, r ∈ log := by
  unfold makeRoom
  split
  · exact ⟨hrise, by assumption, fun _ hr => hr⟩
  · rename_i hfull
    cases he : expiredRecord log time with
    | none => simp [logHasRoom, hfull, he] at hspace
    | some r =>
      exact ⟨rising_dropKey _ _ hrise, Nat.lt_of_lt_of_le (length_dropKey_of_mem _ (List.mem_of_find?_eq_some he)) hroom,
        fun _ hr => (List.mem_filter.mp hr).1⟩

/-- The log with the record of the next serial, and the serial after it. -/
theorem commitSale_salesKept (n : Line) (q : OpenQuote) (m : SaleMoney) (serial : Nat) (s : State) (hs : salesKept s)
    (hserial : s.sales.nextSerial = some serial) (hspace : logHasRoom s.sales.log (now s) = true) :
    salesKept (commitSale n q m serial s) := by
  obtain ⟨⟨hrise, hroom, hbelow⟩, htotals⟩ := hs
  obtain ⟨v, -, ⟨b, hsales⟩, -⟩ := commitSale_spec n q m serial s
  obtain ⟨hrise', hroom', hmem⟩ := makeRoom_kept hrise hroom hspace
  have hless : ∀ r ∈ makeRoom s.sales.log (now s), r.serial < serial := fun r hr => hbelow serial hserial r (hmem r hr)
  refine ⟨?_, totalsKept_change (fun r => withSale_day r _ _ _ _) (congrArg SaleUnit.totals hsales) htotals⟩
  unfold logKept
  rw [hsales]
  refine ⟨rising_append_one _ _ hrise' hless, ?_, fun next hnext r hr => ?_⟩
  · show (makeRoom s.sales.log (now s) ++ [_]).length ≤ logRoom
    rw [List.length_append]
    exact hroom'
  · have hafter : next = serial + 1 := by
      have h : serialAfter serial = some next := hnext
      unfold serialAfter at h
      split at h
      · cases h
      · exact (Option.some.inj h).symm
    subst hafter
    rcases List.mem_append.mp hr with hr | hr
    · exact Nat.lt_succ_of_lt (hless r hr)
    · rw [List.mem_singleton.mp hr]
      exact Nat.lt_succ_self serial

theorem takeSale_salesKept (n : Line) (number : Nat) (m : SaleMoney) (s : State) (hs : salesKept s) :
    salesKept (takeSale n number m s) :=
  takeSale_keeps (fun st u => salesKept_reads.frame (refuseSale_frame u n st) (by decide))
    (fun q => salesKept_reads.frame (refreshForSale_frame s q m) (by decide) hs)
    (fun q serial u hu hserial hlate =>
      commitSale_salesKept n q m serial u hu hserial ((lateRefusal_none u n m.kind).mp hlate).2.2) hs

theorem exec_salesKept (c : Instr) (s t : State) (hs : salesKept s) (hx : exec c s = .next t) : salesKept t := by
  cases c
  case minuteBoundary | powerUp | nresetRelease | commandedRestart | portReplyEnd | setClock =>
    exact salesKept_clock.commands salesKept_answer (fun s _ => salesKept_reads.frame (onPorts_frame s _) (by decide)) hx hs rfl
  case quote | price | previewQuote | walkBegin | walkComplete => exact salesKept_engine.exec hx hs rfl
  case logPruning => cases hx; exact whenSet_keeps (fun s hs => salesKept_prune hs) hs
  case sale =>
    cases hx
    refine whenRunning_keeps (fun s hs => ?_) hs
    split
    · exact salesKept_engine.frames.takeFrame _ _ _ (fun _ hs => hs) hs
    · exact salesKept_engine.frames.takeFrame _ _ _ (takeSale_salesKept _ _ _) hs
  all_goals exact salesKept_reads.exec hx (by simp [partsOf]) hs

theorem salesKept_alone {s t : State} (hs : salesKept s) : WorksAlone s t → salesKept t :=
  salesKept_reads.alone (by decide) salesKept_clock.tick hs

/-! ## The badges -/

/-- The badges are those given: no operation but the two commands of badges and a restart changes them. -/
def hasBadges (l : List Badge) (s : State) : Prop := s.ports.badges = l

section
variable {l : List Badge}

theorem hasBadges_reads : ReadsOnly [.ports] (hasBadges l) := fun _ _ h hs =>
  (congrArg PortUnit.badges (h .ports (by simp))).trans hs

theorem hasBadges_onPort (s : State) (id : PortId) (f : Port → Port) :
    hasBadges l s → hasBadges l { s with ports := s.ports.onPort id f } := fun hs => (onPort_badges ..).trans hs

theorem hasBadges_deferred (s : State) (id : PortId) (tag : Tag) (st : Status) (b : Body) :
    hasBadges l s → hasBadges l (answerDeferred id tag st b s) := hasBadges_onPort s id _

theorem hasBadges_answer (s : State) (id : PortId) (tag : Tag) (st : Status) (b : Body) :
    hasBadges l s → hasBadges l (answerPort id tag st b s) := hasBadges_onPort s id _

theorem hasBadges_engine : KeptByEngine (hasBadges l) where
  frame _ _ h := hasBadges_reads.frame h (by decide)
  start s i r := hasBadges_reads.frame ((onEngine_frame s _).trans (startWalk_frame _ _)) (by decide)
  clear s v := hasBadges_reads.frame (onBooks_frame s _) (by decide)
  heard s n := hasBadges_reads.frame (heard_frame s n) (by decide)
  counted s n := hasBadges_reads.frame (countDiscard_frame s n) (by decide)
  refresh s number := hasBadges_reads.frame (refreshPermit_frame s number) (by decide)
  deliver s w o hs := by
    unfold deliver
    split
    · unfold officeOutcome
      split <;> exact hasBadges_deferred _ _ _ _ _ hs
    · exact hasBadges_reads.frame (terminalOutcome_frame _ _ _ _) (by decide) hs
  defer s id := hasBadges_onPort s id _
  answer := hasBadges_answer

theorem hasBadges_chooseCover : ∀ (fuel : Nat) (s : State), hasBadges l s → hasBadges l (chooseCover fuel s)
  | 0, _, hs => hs
  | fuel + 1, s, hs => by
    unfold chooseCover
    split
    · split
      · exact hasBadges_reads.frame (startSearch_frame s _ _) (by decide) hs
      · exact hasBadges_chooseCover fuel _ (hasBadges_deferred _ _ _ _ _ hs)
    · exact hs

theorem hasBadges_command {source : Source} {tag : Tag} {ok : Bool} {role : Role} {act : State → State} {s : State}
    (hact : hasBadges l s → hasBadges l (act s)) (hs : hasBadges l s) : hasBadges l (takeCommand source tag ok role act s) :=
  takeCommand_keeps tag ok role (fun n => hasBadges_reads.frame (latch_frame s n) (by decide))
    (fun u st b hu _ => hasBadges_answer u _ tag st b hu) (fun _ _ => hact) hs

end

theorem badgesKept_of {s t : State} (h : hasBadges s.ports.badges t) (hs : badgesKept s) : badgesKept t := by
  unfold badgesKept hasBadges at *
  rwa [h]

theorem badgesKept_reads : ReadsOnly [.ports] badgesKept := fun _ _ h =>
  badgesKept_of (congrArg PortUnit.badges (h .ports (by simp)))

theorem badgesKept_clock : KeptByClock badgesKept where
  clock s f _ := badgesKept_reads.frame (onClock_frame s f) (by decide)
  raiseZone s k d := badgesKept_reads.frame (raiseZone_frame s k d) (by decide)
  clearZone s k := badgesKept_reads.frame (clearZone_frame s k) (by decide)
  latch s n := badgesKept_reads.frame (latch_frame s n) (by decide)
  quotes s := badgesKept_reads.frame (cancelAllQuotes_frame s) (by decide)
  marks s := badgesKept_reads.frame (markForStep_frame s) (by decide)
  handOver s isDay isHour := badgesKept_reads.frame (handOver_frame s isDay isHour) (by decide)
  warm s reason := badgesKept_of rfl
  cold s := ⟨List.Pairwise.nil, Nat.zero_le _⟩
  pins s pins := badgesKept_reads.frame (pinsUpdate_frame s pins) (by decide)

theorem badgesKept_answer (s : State) (id : PortId) (tag : Tag) (st : Status) (b : Body) :
    badgesKept s → badgesKept (answerPort id tag st b s) := badgesKept_of (hasBadges_answer s id tag st b rfl)

theorem badgesKept_command {tag : Tag} {ok : Bool} {act : State → State} {s : State}
    (hact : badgesKept s → badgesKept (act s)) (hs : badgesKept s) : badgesKept (officeCommand tag ok act s) :=
  takeCommand_keeps (source := .office) tag ok .any (badgesKept_clock.latch s)
    (fun u st b hu _ => badgesKept_answer u _ tag st b hu) (fun _ _ => hact) hs

theorem exec_badgesKept (c : Instr) (s t : State) (hs : badgesKept s) (hx : exec c s = .next t) : badgesKept t := by
  cases c
  case minuteBoundary | powerUp | nresetRelease | commandedRestart | portReplyEnd =>
    exact badgesKept_clock.commands badgesKept_answer (fun s id => badgesKept_of (hasBadges_onPort s _ _ rfl)) hx hs rfl
  case quote | price | previewQuote | walkBegin | walkComplete =>
    exact badgesKept_of (hasBadges_engine.exec hx rfl rfl) hs
  case cover =>
    cases hx
    refine badgesKept_of (hasBadges_command (fun hb => ?_) rfl) hs
    split
    · exact hb
    · split
      · exact hasBadges_answer _ _ _ _ _ hb
      · split
        · exact hasBadges_chooseCover _ _ (hasBadges_onPort (onCover _ s) _ _ hb)
        · exact hasBadges_answer _ _ _ _ _ hb
  case searchBegin => cases hx; exact badgesKept_of (whenRunning_keeps (fun _ => hasBadges_chooseCover 2 _) rfl) hs
  case searchComplete =>
    cases hx
    refine badgesKept_of (whenRunning_keeps (fun s hb => ?_) rfl) hs
    split
    · exact hb
    · exact hasBadges_chooseCover _ _ (hasBadges_deferred _ _ _ _ _ hb)
  case putBadge =>
    cases hx
    refine badgesKept_command (fun hs => ?_) hs
    split
    · unfold putBadge
      split
      · exact badgesKept_answer _ _ _ _ _ hs
      · rename_i hfree
        exact badgesKept_answer _ _ _ _ _ (kept_upsert hs.1 hs.2 hfree)
    · exact badgesKept_answer _ _ _ _ _ hs
  case dropBadge =>
    cases hx
    refine badgesKept_command (fun hs => ?_) hs
    split
    · exact badgesKept_answer _ _ _ _ _ hs
    · exact badgesKept_answer _ _ _ _ _ ⟨rising_dropKey _ _ hs.1, Nat.le_trans (length_dropKey_le ..) hs.2⟩
  case portFrameDiscard | portReceiveTimeout =>
    cases hx
    exact badgesKept_of (whenRunning_keeps (act := dropPortFrame _) (fun s => hasBadges_onPort s _ _) rfl) hs
  all_goals exact badgesKept_of (exec_portsGrow hx (by simp [answersAtOnce, partsOf])).badges hs

theorem badgesKept_alone {s t : State} (hs : badgesKept s) (h : WorksAlone s t) : badgesKept t := by
  cases h with
  | nothing => exact hs
  | flag n => exact badgesKept_reads.frame (onLine_frame s n _) (by decide) hs
  | lineFrame n f => exact badgesKept_reads.frame (onLine_frame s n _) (by decide) hs
  | portFrame id f => exact badgesKept_of (hasBadges_onPort s _ _ rfl) hs
  | walk => exact badgesKept_reads.frame (stepWalk_frame s) (by decide) hs
  | search => exact badgesKept_reads.frame (stepSearch_frame s) (by decide) hs
  | cycle => exact badgesKept_clock.tick hs

/-! ## The lift list -/

theorem liftsKept_of {s t : State} (h : t.cash.lifts = s.cash.lifts) (hs : liftsKept s) : liftsKept t := by
  unfold liftsKept at *
  rwa [h]

theorem liftsKept_reads : ReadsOnly [.cash] liftsKept := fun _ _ h => liftsKept_of (congrArg CashUnit.lifts (h .cash (by simp)))

theorem liftsKept_clock : KeptByClock liftsKept :=
  liftsKept_reads.byClock (by decide) (fun s isDay isHour => by
    obtain ⟨-, -, -, -, -, -, -, -, -, hcash, -⟩ := handOver_done isDay isHour s
    refine liftsKept_of ?_
    rw [hcash]
    split
    · split <;> rfl
    · rfl) fun s => Nat.zero_le _

theorem liftsKept_answer (s : State) (id : PortId) (tag : Tag) (st : Status) (b : Body) :
    liftsKept s → liftsKept (answerPort id tag st b s) := liftsKept_reads.frame (answerPort_frame s id tag st b) (by decide)

theorem liftsKept_frames : KeptByFrames liftsKept where
  line s n f := liftsKept_reads.frame (onLine_frame s n f) (by decide)
  heard s n := liftsKept_reads.frame (heard_frame s n) (by decide)
  counted s n := liftsKept_reads.frame (countDiscard_frame s n) (by decide)

theorem liftsKept_command {source : Source} {tag : Tag} {ok : Bool} {role : Role} {act : State → State} {s : State}
    (hact : liftsKept s → liftsKept (act s)) (hs : liftsKept s) : liftsKept (takeCommand source tag ok role act s) :=
  takeCommand_keeps tag ok role (liftsKept_clock.latch s) (fun u st b hu _ => liftsKept_answer u _ tag st b hu) (fun _ _ => hact) hs

theorem commitSale_lifts (n : Line) (q : OpenQuote) (m : SaleMoney) (serial : Nat) (s : State) :
    (commitSale n q m serial s).cash.lifts = s.cash.lifts := by
  obtain ⟨v, hv, -, -, hcash, -⟩ := commitSale_spec n q m serial s
  rw [hcash, hv]
  unfold takePayment
  split
  · exact (addCoins_cash n _ _).2.2.1
  · rw [debitPermit_cash]
    rfl
  · rfl

theorem makeLiftRoom_room {s : State} (hs : liftsKept s) : (makeLiftRoom s).cash.lifts.length < liftRoom := by
  obtain ⟨kept, ⟨hfew, hmany⟩, hcash, -⟩ := makeLiftRoom_spec s
  rw [hcash]
  show kept.length < 96
  have hroom : s.cash.lifts.length ≤ 96 := hs
  rcases Nat.lt_or_ge s.cash.lifts.length 96 with hlt | hge
  · rwa [hfew hlt]
  · obtain ⟨before, gone, after, hold, hkept, -⟩ := hmany hge
    rw [hold] at hroom
    rw [hkept]
    simp only [List.length_append, List.length_cons] at hroom ⊢
    omega

/-- What BOX-OUT makes of the list: the room, and the new record (R148, R151). -/
theorem takeBox_lifts (n : Line) (label : Nat) (s : State) :
    (takeBox n label s).cash.lifts = (makeLiftRoom s).cash.lifts ++ [liftOf s n label] := by
  have hjoined : (joinLifted n (appendLift (liftOf s n label) (makeLiftRoom s).cash)).lifts =
      (makeLiftRoom s).cash.lifts ++ [liftOf s n label] := by
    unfold joinLifted
    split <;> rfl
  rw [← hjoined]
  unfold takeBox
  dsimp only
  have habsent := markAbsent_cash n (onTally n Tally.emptied
    (onCash (fun c => joinLifted n (appendLift (liftOf s n label) c)) (makeLiftRoom s)))
  split <;> split <;> simp [habsent]

theorem takeBox_liftsKept (n : Line) (label : Nat) {s : State} (hs : liftsKept s) : liftsKept (takeBox n label s) := by
  unfold liftsKept
  rw [takeBox_lifts, List.length_append]
  exact makeLiftRoom_room hs

theorem putBox_lifts (n : Line) (label : Nat) (s : State) : (putBox n label s).cash.lifts = s.cash.lifts := by
  unfold putBox
  split
  · simp
  · simp [unmarkFull_cash, unmarkNear_cash, unmarkAbsent_cash]

theorem lapseIfDue_lifts (s : State) : (lapseIfDue s).cash.lifts = s.cash.lifts := by
  rw [(lapse_spec s).1]
  split
  · split <;> rfl
  · rfl

theorem countFirst_length (box value tolerance : Nat) (time : ZoneMinute) (l : List Lift) :
    (countFirst box value tolerance time l).length = l.length := by
  induction l with
  | nil => rfl
  | cons x rest ih =>
    unfold countFirst
    split
    · rfl
    · rw [List.length_cons, ih, List.length_cons]

theorem configure_lifts (n : Line) (f : TerminalFields) (p : Fin 8) (c : CondSet) (s : State) :
    (configure n f p c s).cash.lifts = s.cash.lifts := by
  unfold configure
  dsimp only
  rw [disturb_cash, regracePlans_frame _ _ _ .cash (by decide), setCapacity_cash]
  rfl

theorem exec_liftsKept (c : Instr) (s t : State) (hs : liftsKept s) (hx : exec c s = .next t) : liftsKept t := by
  cases c
  case minuteBoundary | powerUp | nresetRelease | commandedRestart | portReplyEnd | setClock =>
    exact liftsKept_clock.commands liftsKept_answer (fun s _ => liftsKept_reads.frame (onPorts_frame s _) (by decide)) hx hs rfl
  case configureTerminal =>
    cases hx
    refine liftsKept_command (fun hs => ?_) hs
    split
    · exact hs
    · split
      · exact liftsKept_answer _ _ _ _ _ hs
      · exact liftsKept_answer _ _ _ _ _ (liftsKept_of (configure_lifts ..) hs)
  case sale =>
    cases hx
    refine whenRunning_keeps (fun s hs => ?_) hs
    split
    · exact liftsKept_frames.takeFrame _ _ _ (fun _ hs => hs) hs
    · refine liftsKept_frames.takeFrame _ _ _ (fun s hs => ?_) hs
      exact takeSale_keeps (fun st u => liftsKept_reads.frame (refuseSale_frame u _ st) (by decide))
        (fun q => liftsKept_reads.frame (refreshForSale_frame s q _) (by decide) hs)
        (fun q serial u hu _ _ => liftsKept_of (commitSale_lifts ..) hu) hs
  case boxOut =>
    cases hx
    refine whenRunning_keeps (fun s hs => liftsKept_frames.takeFrame _ _ _ (fun s hs => ?_) hs) hs
    split
    · exact takeBox_liftsKept _ _ hs
    · exact liftsKept_reads.frame (answerPending_frame s _ _ _) (by decide) hs
  case boxIn =>
    cases hx
    refine whenRunning_keeps (fun s hs => liftsKept_frames.takeFrame _ _ _ (fun s hs => ?_) hs) hs
    split
    · exact liftsKept_reads.frame (answerPending_frame s _ _ _) (by decide) hs
    · exact liftsKept_of (putBox_lifts ..) hs
  case roundLapse => cases hx; exact whenSet_keeps (fun s => liftsKept_of (lapseIfDue_lifts s)) hs
  case setCoins =>
    cases hx
    refine liftsKept_command (fun hs => ?_) hs
    dsimp only
    split
    · exact liftsKept_answer _ _ _ _ _ (liftsKept_of (s := s) rfl hs)
    · exact liftsKept_answer _ _ _ _ _ hs
  case openRound =>
    cases hx
    refine liftsKept_command (fun hs => ?_) hs
    split
    · exact liftsKept_answer _ _ _ _ _ hs
    · split
      · exact liftsKept_answer _ _ _ _ _ hs
      · exact liftsKept_answer _ _ _ _ _ (liftsKept_clock.latch _ _ (liftsKept_clock.clearZone _ _ (liftsKept_of (s := s) rfl hs)))
  case closeRound =>
    cases hx
    refine liftsKept_command (fun hs => ?_) hs
    repeat' split
    on_goal 4 => exact liftsKept_answer _ _ _ _ _ (liftsKept_clock.latch _ _ (liftsKept_of (s := s) rfl hs))
    all_goals exact liftsKept_answer _ _ _ _ _ hs
  case countResult =>
    cases hx
    refine liftsKept_command (fun hs => ?_) hs
    have hcounted : ∀ box value, liftsKept (onCash (fun c => { c with
        lifts := countFirst box value c.tolerance (now s) c.lifts }) s) := fun box value =>
      (countFirst_length box value s.cash.tolerance (now s) s.cash.lifts).trans_le hs
    split
    · exact liftsKept_answer _ _ _ _ _ hs
    · dsimp only
      refine liftsKept_answer _ _ _ _ _ ?_
      split
      · exact hcounted _ _
      · exact liftsKept_reads.frame (raiseFault_frame _ _ _ _) (by decide) (hcounted _ _)
  case setCashLimits =>
    cases hx
    exact liftsKept_command (fun hs => liftsKept_answer _ _ _ _ _ (liftsKept_of (s := s) rfl hs)) hs
  all_goals exact liftsKept_reads.exec hx (by simp [partsOf]) hs

theorem liftsKept_alone {s t : State} (hs : liftsKept s) : WorksAlone s t → liftsKept t :=
  liftsKept_reads.alone (by decide) liftsKept_clock.tick hs

/-! ## The whole store -/

theorem exec_storesKept (c : Instr) (s t : State) (hs : storesKept s) (hx : exec c s = .next t) : storesKept t := by
  obtain ⟨hoverrides, hpermits, hbadges, hlog, htotals, hlifts⟩ := hs
  obtain ⟨hlog', htotals'⟩ := exec_salesKept c s t ⟨hlog, htotals⟩ hx
  exact ⟨exec_overridesKept c s t hoverrides hx, exec_permitsKept c s t hpermits hx, exec_badgesKept c s t hbadges hx, hlog',
    htotals', exec_liftsKept c s t hlifts hx⟩

theorem storesKept_alone (s t : State) (hs : storesKept s) (h : WorksAlone s t) : storesKept t := by
  obtain ⟨hoverrides, hpermits, hbadges, hlog, htotals, hlifts⟩ := hs
  obtain ⟨hlog', htotals'⟩ := salesKept_alone ⟨hlog, htotals⟩ h
  exact ⟨overridesKept_alone hoverrides h, permitsKept_alone hpermits h, badgesKept_alone hbadges h, hlog', htotals',
    liftsKept_alone hlifts h⟩

/-- Settles O4: each list is kept by every command and by what the part does alone. -/
theorem storesStayKept : Obligations.StoresStayKept :=
  step_keeps exec_storesKept (fun _ _ _ hs => hs) storesKept_alone

end Sys2Proof.Proofs
end

section
/-!
PROOFS. Every port keeps its answers within six and its deferred count true (O7): a count of the answers still owed that a change may
leave one short, and what each unit that owes them gives back.
-/
namespace Sys2Proof.Proofs
open Sys2Proof Sys2Proof.Machine

/-! ## The answers owed -/

/-- The ports are kept but for `late`: the answers that a unit no longer owes and has not yet given. -/
def portsOwing (late : PortId → Nat) (s : State) : Prop :=
  slotsKept s ∧ ∀ id, (s.ports.port id).deferred = owed s id + late id ∧
    (s.ports.port id).queue.length + (s.ports.port id).deferred ≤ portRoom

/-- No answer is late. -/
def noneLate : PortId → Nat := fun _ => 0

/-- One answer is late, at this port. -/
def oneLate (id : PortId) : PortId → Nat := fun i => if i = id then 1 else 0

/-- The answer of a walk for the office is late; that of a terminal's walk goes to its line. -/
def walkLate (office : Bool) : PortId → Nat := if office then oneLate .office else noneLate

/-- The same requests are owed an answer, but for withdrawn requests of terminals. -/
structure sameOwed (s t : State) : Prop where
  slots : ∀ i r, row t.engine.slots i = some r → row s.engine.slots i = some r
  office : row t.engine.slots officeSlot = row s.engine.slots officeSlot
  walk : t.engine.walk.map (fun w => (w.slot, w.request)) = s.engine.walk.map (fun w => (w.slot, w.request))
  cover : ∀ id, t.cover.slot id = s.cover.slot id
  search : t.cover.search.map Search.source = s.cover.search.map Search.source

/-- What the walk in flight owes the office. -/
def walkOwes (w : Option (Fin 17 × WalkRequest)) : Nat := if w.any (fun w => w.1 = officeSlot) then 1 else 0

theorem owed_office (s : State) : owed s .office = (if (row s.engine.slots officeSlot).isSome then 1 else 0) +
    walkOwes (s.engine.walk.map fun w => (w.slot, w.request)) + (if (s.cover.slot .office).isEmpty then 0 else 1) := by
  unfold owed walkOwes
  cases s.engine.walk with
  | none => rfl
  | some w => simp only [Option.map_some, Option.any_some, decide_eq_true_eq]; rfl

theorem owed_service (s : State) : owed s .service = if (s.cover.slot .service).isEmpty then 0 else 1 := rfl

namespace sameOwed
variable {s t u : State}

theorem of_parts (he : t.engine = s.engine) (hc : t.cover = s.cover) : sameOwed s t where
  slots i r h := by rwa [he] at h
  office := by rw [he]
  walk := by rw [he]
  cover id := by rw [hc]
  search := by rw [hc]

theorem refl (s : State) : sameOwed s s := of_parts rfl rfl

theorem of_frame {parts : List Part} (h : onlyChanges parts s t) (he : Part.engine ∉ parts) (hc : Part.cover ∉ parts) : sameOwed s t :=
  of_parts (h .engine he) (h .cover hc)

theorem trans (h : sameOwed s t) (k : sameOwed t u) : sameOwed s u where
  slots i r hr := h.slots i r (k.slots i r hr)
  office := k.office.trans h.office
  walk := k.walk.trans h.walk
  cover id := (k.cover id).trans (h.cover id)
  search := k.search.trans h.search

theorem owed (h : sameOwed s t) : ∀ id, owed t id = owed s id
  | .office => by rw [owed_office, owed_office, h.office, h.walk, h.cover]
  | .service => by rw [owed_service, owed_service, h.cover]

theorem slotsKept (h : sameOwed s t) (hs : slotsKept s) : slotsKept t := by
  obtain ⟨hslots, hwalk, hsearch⟩ := hs
  refine ⟨fun i r hr => hslots i r (h.slots i r hr), fun w hw => ?_, fun q hq => ?_⟩
  · have hmap := h.walk
    rw [hw, Option.map_some] at hmap
    obtain ⟨v, hv, hvw⟩ := Option.map_eq_some_iff.mp hmap.symm
    obtain ⟨hslot, hrequest⟩ := Prod.mk.inj hvw
    rw [← hslot, ← hrequest]
    exact hwalk v hv
  · have hmap := h.search
    rw [hq, Option.map_some] at hmap
    obtain ⟨p, hp, hpq⟩ := Option.map_eq_some_iff.mp hmap.symm
    rw [← hpq, h.cover]
    exact hsearch p hp

/-- A command that grows the queues and withdraws nothing owed. -/
theorem kept (h : sameOwed s t) (hg : queuesGrow s t) (hs : portsKept s) : portsKept t := by
  obtain ⟨hslots, hports⟩ := hs
  refine ⟨h.slotsKept hslots, fun id => ?_⟩
  obtain ⟨hdeferred, hroom⟩ := hports id
  rw [h.owed, hg.deferred]
  refine ⟨hdeferred, ?_⟩
  rcases hg.queue id with hq | ⟨hl, hq⟩
  · exact Nat.le_trans (Nat.add_le_add_right hq _) hroom
  · have hfree : (s.ports.port id).queue.length + (s.ports.port id).deferred < portRoom := by
      simp only [listening, Bool.and_eq_true, decide_eq_true_eq] at hl
      exact hl.2
    exact Nat.le_trans (Nat.add_le_add_right hq _) (by rw [Nat.add_right_comm]; exact hfree)

end sameOwed

theorem portsOwing_reads (late : PortId → Nat) : ReadsOnly [.engine, .cover, .ports] (portsOwing late) := fun s t h hs => by
  have hsame : sameOwed s t := .of_parts (h .engine (by simp)) (h .cover (by simp))
  have hports : t.ports = s.ports := h .ports (by simp)
  refine ⟨hsame.slotsKept hs.1, fun id => ?_⟩
  rw [hsame.owed, hports]
  exact hs.2 id

theorem portsKept_reads : ReadsOnly [.engine, .cover, .ports] portsKept := portsOwing_reads noneLate

/-! ## Withdrawal and discard -/

theorem withdraw_sameOwed (n : Line) (byReset : Bool) (s : State) : sameOwed s (withdraw n byReset s) := by
  have hput : sameOwed s (onEngine (fun e => { e with slots := put e.slots (lineSlot n) none }) s) := {
    slots := fun i r h => by
      rw [show (onEngine _ s).engine.slots = put s.engine.slots (lineSlot n) none from rfl, row_put] at h
      split at h
      · cases h
      · exact h
    office := row_put_other _ _ (Fin.castSucc_lt_last n).ne'
    walk := rfl
    cover := fun _ => rfl
    search := rfl }
  unfold withdraw
  split
  · dsimp only
    split
    · exact hput
    · exact hput.trans (.of_frame (answerPending_frame _ _ _ _) (by decide) (by decide))
  · exact .refl s

theorem markWalk_sameOwed (n : Line) (byReset : Bool) (s : State) : sameOwed s (markWalk n byReset s) where
  slots _ _ h := h
  office := rfl
  walk := by
    show (s.engine.walk.map _).map _ = _
    rw [Option.map_map]
    congr 1
    funext w
    show ((if _ then w.marked byReset else w).slot, _) = _
    dsimp only [Function.comp]
    split <;> rfl
  cover _ := rfl
  search := rfl

theorem disturb_sameOwed (n : Line) (byReset : Bool) (s : State) : sameOwed s (disturb n byReset s) :=
  (sameOwed.of_frame (cancelQuote_frame s n) (by decide) (by decide)).trans
    ((withdraw_sameOwed n byReset _).trans (markWalk_sameOwed n byReset _))

theorem changeMode_sameOwed (n : Line) (f : Entry → Entry) (s : State) : sameOwed s (changeMode n f s) :=
  (sameOwed.of_frame (onEntry_frame s n f) (by decide) (by decide)).trans (disturb_sameOwed n false _)

theorem endTests_sameOwed (s : State) : sameOwed s (endTests s) := by
  unfold endTests
  generalize List.finRange 16 = lines
  induction lines generalizing s with
  | nil => exact .refl s
  | cons n rest ih =>
    refine sameOwed.trans ?_ (ih (endTestIfDue n s))
    unfold endTestIfDue
    split
    · exact changeMode_sameOwed n _ s
    · exact .refl s

theorem handOver_sameOwed (isDay isHour : Bool) (s : State) : sameOwed s (handOver isDay isHour s) := by
  have hday : sameOwed s (if isDay then dayWork s else s) := by
    split
    · exact .of_frame (dayWork_frame s) (by decide) (by decide)
    · exact .refl s
  have hhour : ∀ u, sameOwed u (if isHour then hourCounts u else u) := fun u => by
    split
    · exact .of_frame (hourCounts_frame u) (by decide) (by decide)
    · exact .refl u
  have hrest : ∀ u, sameOwed u (watchLines (lapseIfDue (pruneLog u))) := fun u =>
    .of_frame (((pruneLog_frame u).trans (lapseIfDue_frame _)).trans (watchLines_frame _)) (by decide) (by decide)
  exact hday.trans ((sameOwed.of_frame (activateIfDue_frame _) (by decide) (by decide)).trans
    ((endTests_sameOwed _).trans ((hhour _).trans (hrest _))))

theorem markForStep_sameOwed (s : State) : sameOwed s (markForStep s) where
  slots _ _ h := h
  office := rfl
  walk := by
    show (s.engine.walk.map _).map _ = _
    rw [Option.map_map]
    congr 1
    funext w
    dsimp only [Function.comp]
    split <;> rfl
  cover _ := rfl
  search := rfl

theorem setClock_sameOwed (z : ZoneMinute) (s : State) : sameOwed s (setClock z s) := by
  have hset : sameOwed s (cancelAllQuotes (clearZone .clockUnset (onClock (fun c => c.setTo z) s))) :=
    .of_frame (((onClock_frame s _).trans (clearZone_frame _ _)).trans (cancelAllQuotes_frame _)) (by decide) (by decide)
  exact hset.trans ((markForStep_sameOwed _).trans (handOver_sameOwed _ _ _))

/-! ## Answers given late -/

theorem portsOwing_deferred {id : PortId} {s : State} (tag : Tag) (st : Status) (b : Body) (hs : portsOwing (oneLate id) s) :
    portsKept (answerDeferred id tag st b s) := by
  have hsame : sameOwed s (answerDeferred id tag st b s) := .of_frame (answerDeferred_frame s id tag st b) (by decide) (by decide)
  obtain ⟨hslots, hports⟩ := hs
  refine ⟨hsame.slotsKept hslots, fun i => ?_⟩
  obtain ⟨hdeferred, hroom⟩ := hports i
  rw [hsame.owed]
  by_cases hi : i = id
  · subst hi
    have hqueue := append_queue_le { s.ports.port i with deferred := (s.ports.port i).deferred - 1 }
      ⟨tag, st, b⟩ s.clock.reading s.clock.state
    rw [answerDeferred_ports, port_onPort_self, append_deferred]
    simp only [oneLate, if_true] at hdeferred hqueue ⊢
    omega
  · rw [answerDeferred_ports, port_onPort_other _ _ hi]
    simp only [oneLate, if_neg hi] at hdeferred
    exact ⟨hdeferred, hroom⟩

/-- A command accepted to be answered late, on a port that listens (R183). -/
theorem portsOwing_defer {id : PortId} {s : State} (hl : listening s id = true) (hs : portsKept s) :
    portsOwing (oneLate id) (deferAnswer id s) := by
  have hsame : sameOwed s (deferAnswer id s) := .of_frame (deferAnswer_frame s id) (by decide) (by decide)
  obtain ⟨hslots, hports⟩ := hs
  refine ⟨hsame.slotsKept hslots, fun i => ?_⟩
  obtain ⟨hdeferred, hroom⟩ := hports i
  rw [hsame.owed, deferAnswer_ports]
  by_cases hi : i = id
  · subst hi
    simp only [listening, Bool.and_eq_true, decide_eq_true_eq] at hl
    obtain ⟨-, hfree⟩ := hl
    rw [port_onPort_self]
    simp only [oneLate, if_true]
    omega
  · rw [port_onPort_other _ _ hi]
    simp only [oneLate, if_neg hi]
    exact ⟨hdeferred, hroom⟩

theorem portsKept_answer {id : PortId} {s : State} (tag : Tag) (st : Status) (b : Body) (hl : listening s id = true)
    (hs : portsKept s) : portsKept (answerPort id tag st b s) :=
  (sameOwed.of_frame (answerPort_frame s id tag st b) (by decide) (by decide)).kept (.answer (fun _ => rfl) hl) hs

/-! ## The quote engine -/

/-- The outcome of a walk goes to the port that is owed it, or to a line. -/
theorem deliver_kept {w : Walk} {s : State} (o : WalkOutcome) (hs : portsOwing (walkLate w.request.preview.isSome) s) :
    portsKept (deliver w o s) := by
  unfold deliver
  cases hp : w.request.preview with
  | some p =>
    rw [hp] at hs
    show portsKept (officeOutcome p.tag o s)
    unfold officeOutcome
    split <;> exact portsOwing_deferred _ _ _ hs
  | none =>
    rw [hp] at hs
    exact portsKept_reads.frame (terminalOutcome_frame s _ w o) (by decide) hs

/-- What the engine owes the office: the request in its slot, and the walk. -/
theorem portsOwing_engine {s t : State} {late late' : PortId → Nat} (hcover : t.cover = s.cover) (hports : t.ports = s.ports)
    (hslots : ∀ i r, row t.engine.slots i = some r → (r.preview.isSome = true ↔ i = officeSlot))
    (hwalk : ∀ w, t.engine.walk = some w → (w.request.preview.isSome = true ↔ w.slot = officeSlot))
    (hservice : late' .service = late .service)
    (howed : (if (row t.engine.slots officeSlot).isSome then 1 else 0) + walkOwes (t.engine.walk.map fun w => (w.slot, w.request)) +
        late' .office =
      (if (row s.engine.slots officeSlot).isSome then 1 else 0) + walkOwes (s.engine.walk.map fun w => (w.slot, w.request)) +
        late .office)
    (hs : portsOwing late s) : portsOwing late' t := by
  obtain ⟨⟨-, -, hsearch⟩, hkept⟩ := hs
  refine ⟨⟨hslots, hwalk, by rwa [hcover]⟩, fun id => ?_⟩
  rw [hports]
  obtain ⟨hdeferred, hroom⟩ := hkept id
  refine ⟨hdeferred.trans ?_, hroom⟩
  cases id
  · rw [owed_office, owed_office, hcover]
    omega
  · rw [owed_service, owed_service, hcover, hservice]

/-- A request leaves its slot: its answer is late. -/
theorem taken_owing {s : State} {i : Fin 17} {r : WalkRequest} (hr : row s.engine.slots i = some r) (hs : portsKept s) :
    portsOwing (walkLate r.preview.isSome) (onEngine (fun e => e.taken i) s) := by
  have hkept := hs
  obtain ⟨⟨hslots, hwalk, -⟩, -⟩ := hs
  have hkind := hslots i r hr
  refine portsOwing_engine (s := s) (late := noneLate) rfl rfl (fun j x hx => ?_) hwalk ?_ ?_ hkept
  · rw [show (onEngine _ s).engine.slots = put s.engine.slots i none from rfl, row_put] at hx
    split at hx
    · cases hx
    · exact hslots j x hx
  · unfold walkLate
    split <;> rfl
  · rw [show (onEngine _ s).engine.slots = put s.engine.slots i none from rfl, row_put]
    by_cases hi : officeSlot = i
    · rw [if_pos hi, hi, hr, show r.preview.isSome = true from hkind.mpr hi.symm]
      simp [walkLate, oneLate, noneLate, onEngine, Engine.taken]
      omega
    · rw [if_neg hi, show r.preview.isSome = false from Bool.eq_false_iff.mpr fun h => hi (hkind.mp h).symm]
      rfl

theorem walkOf_slot (s : State) (i : Fin 17) (r : WalkRequest) : (walkOf s i r).slot = i := by
  unfold walkOf
  split <;> rfl

theorem walkOf_request (s : State) (i : Fin 17) (r : WalkRequest) : (walkOf s i r).request = r := by
  unfold walkOf
  split <;> rfl

/-- What a walk owes the office is what its answer counts. -/
theorem walkOwes_some {i : Fin 17} {r : WalkRequest} (h : r.preview.isSome = true ↔ i = officeSlot) :
    walkOwes (some (i, r)) = walkLate r.preview.isSome .office := by
  unfold walkOwes walkLate
  by_cases hi : i = officeSlot
  · rw [h.mpr hi]
    simp [hi, oneLate]
  · rw [Bool.eq_false_iff.mpr fun e => hi (h.mp e)]
    simp [hi, noneLate]

theorem walkLate_service (b : Bool) : walkLate b .service = 0 := by
  cases b <;> rfl

/-- A walk begins with the request that has left its slot. -/
theorem startWalk_kept {s : State} {w : Walk} (hw : w.request.preview.isSome = true ↔ w.slot = officeSlot)
    (hfree : s.engine.walk = none) (hs : portsOwing (walkLate w.request.preview.isSome) s) : portsKept (startWalk w s) := by
  refine portsOwing_engine (s := s) (late := walkLate w.request.preview.isSome) (late' := noneLate) rfl rfl hs.1.1 (fun v hv => ?_)
    (walkLate_service _).symm ?_ hs
  · cases hv
    exact hw
  · rw [hfree]
    show _ + walkOwes (some (w.slot, w.request)) + 0 = _ + 0 + _
    rw [walkOwes_some hw]
    rfl

theorem arbitrate_kept : ∀ (fuel : Nat) (s : State), portsKept s → portsKept (arbitrate fuel s)
  | 0, _, hs => hs
  | fuel + 1, s, hs => by
    unfold arbitrate
    split
    · rename_i i hfree _
      split
      · exact hs
      · rename_i r hr
        have htaken := taken_owing hr hs
        rw [← walkOf_request s i r] at htaken
        split
        · refine startWalk_kept ?_ hfree htaken
          rw [walkOf_request, walkOf_slot]
          exact hs.1.1 i r hr
        · exact arbitrate_kept fuel _ (deliver_kept _ htaken)
    · exact hs

theorem chooseWalk_kept {s : State} (hs : portsKept s) : portsKept (chooseWalk s) := arbitrate_kept 17 s hs

/-- A request enters its slot: for the office an empty one, where its answer has just been deferred. -/
theorem placeRequest_kept {s : State} {i : Fin 17} {r : WalkRequest} (hkind : r.preview.isSome = true ↔ i = officeSlot)
    (hempty : i = officeSlot → row s.engine.slots officeSlot = none) (hs : portsOwing (walkLate r.preview.isSome) s) :
    portsKept (placeRequest i r s) := by
  refine chooseWalk_kept (portsOwing_engine (s := s) (late := walkLate r.preview.isSome) (late' := noneLate) rfl rfl (fun j x hx => ?_) hs.1.2.1
    (walkLate_service _).symm ?_ hs)
  · rw [show (onEngine _ s).engine.slots = put s.engine.slots i (some r) from rfl, row_put] at hx
    split at hx
    · cases hx
      rename_i hj
      rw [hj]
      exact hkind
    · exact hs.1.1 j x hx
  · rw [show (onEngine _ s).engine.slots = put s.engine.slots i (some r) from rfl, row_put]
    by_cases hi : i = officeSlot
    · rw [if_pos hi.symm, hempty hi, hkind.mpr hi]
      show 1 + walkOwes (s.engine.walk.map _) + 0 = 0 + walkOwes (s.engine.walk.map _) + 1
      omega
    · rw [if_neg (Ne.symm hi), Bool.eq_false_iff.mpr fun h => hi (hkind.mp h)]
      rfl

/-- A walk ends: its answer is late until it is delivered. -/
theorem completeWalk_kept {s : State} {w : Walk} (o : WalkOutcome) (hw : s.engine.walk = some w) (hs : portsKept s) :
    portsKept (completeWalk w o s) := by
  have hkind := hs.1.2.1 w hw
  refine chooseWalk_kept (deliver_kept o (portsOwing_engine (s := s) (late := noneLate) rfl rfl hs.1.1 (fun v hv => ?_)
    (walkLate_service _) ?_ hs))
  · cases hv
  · rw [hw]
    show _ + 0 + walkLate w.request.preview.isSome .office = _ + walkOwes (some (w.slot, w.request)) + 0
    rw [walkOwes_some hkind]
    rfl

theorem stepWalk_sameOwed (s : State) : sameOwed s (stepWalk s) := by
  unfold stepWalk
  split
  · exact .refl s
  · rename_i w hw
    have hstage : (stageOf s w).1.engine = s.engine := stageOf_frame s w .engine (by decide)
    exact {
      slots := fun i r h => by rwa [show (onEngine _ (stageOf s w).1).engine.slots = s.engine.slots from by rw [← hstage]; rfl] at h
      office := by rw [← hstage]; rfl
      walk := by rw [hw]; rfl
      cover := fun id => by rw [← stageOf_frame s w .cover (by decide)]; rfl
      search := by rw [← stageOf_frame s w .cover (by decide)]; rfl }

/-! ## The cover search unit -/

/-- What a slot of the cover search unit owes its port. -/
def slotOwes (x : CoverSlot) : Nat := if x.isEmpty then 0 else 1

theorem portsOwing_cover {s t : State} {late late' : PortId → Nat} (hengine : t.engine = s.engine) (hports : t.ports = s.ports)
    (hsearch : ∀ q, t.cover.search = some q → (t.cover.slot q.source).isEmpty = false)
    (howed : ∀ id, slotOwes (t.cover.slot id) + late' id = slotOwes (s.cover.slot id) + late id) (hs : portsOwing late s) :
    portsOwing late' t := by
  obtain ⟨⟨hslots, hwalk, -⟩, hkept⟩ := hs
  refine ⟨⟨by rwa [hengine], by rwa [hengine], hsearch⟩, fun id => ?_⟩
  rw [hports]
  obtain ⟨hdeferred, hroom⟩ := hkept id
  refine ⟨hdeferred.trans ?_, hroom⟩
  have h := howed id
  unfold slotOwes at h
  cases id
  · rw [owed_office, owed_office, hengine]
    omega
  · rw [owed_service, owed_service]
    omega

theorem setSlot_search (c : CoverUnit) (id : PortId) (x : CoverSlot) : (c.setSlot id x).search = c.search := by
  cases id <;> rfl

/-- The slot that a free unit takes is WAITING (R132). -/
theorem nextCover_waiting {c : CoverUnit} {id : PortId} {r : CoverRequest} (h : nextCover c = some (id, r)) : c.slot id = .waiting r := by
  unfold nextCover at h
  split at h
  · rename_i hoffice hservice
    split at h
    · cases h; exact hservice
    · cases h; exact hoffice
  · rename_i hoffice _
    cases h; exact hoffice
  · rename_i hservice _
    cases h; exact hservice
  · cases h

/-- A slot is emptied: its answer is late. -/
theorem emptied_owing {s : State} {id : PortId} {f : CoverUnit → CoverUnit} (hf : ∀ c i, (f c).slot i = (c.setSlot id .empty).slot i)
    (hnone : (f s.cover).search = none) (hslot : (s.cover.slot id).isEmpty = false) (hs : portsKept s) :
    portsOwing (oneLate id) (onCover f s) := by
  refine portsOwing_cover (s := s) (late := noneLate) rfl rfl (fun q hq => ?_) (fun i => ?_) hs
  · rw [show (onCover f s).cover.search = none from hnone] at hq
    cases hq
  · rw [show (onCover f s).cover.slot i = _ from hf s.cover i]
    by_cases hi : i = id
    · subst hi
      rw [slot_setSlot, if_pos rfl, oneLate, if_pos rfl, slotOwes, slotOwes, hslot]
      rfl
    · rw [slot_setSlot, if_neg hi]
      simp [oneLate, hi, noneLate]

theorem startSearch_kept {s : State} {id : PortId} {r : CoverRequest} (hslot : s.cover.slot id = .waiting r) (hs : portsKept s) :
    portsKept (startSearch id r s) := by
  have hslots : ∀ i, (startSearch id r s).cover.slot i = (s.cover.setSlot id (.searching r)).slot i := fun i => by
    cases i <;> rfl
  refine portsOwing_cover (s := s) (late := noneLate) (late' := noneLate) rfl rfl (fun q hq => ?_) (fun i => ?_) hs
  · cases hq
    rw [hslots]
    show ((s.cover.setSlot id (.searching r)).slot id).isEmpty = false
    rw [slot_setSlot, if_pos rfl]
    rfl
  · rw [hslots]
    by_cases hi : i = id
    · subst hi
      rw [slot_setSlot, if_pos rfl, hslot]
      rfl
    · rw [slot_setSlot, if_neg hi]

theorem chooseCover_kept : ∀ (fuel : Nat) (s : State), portsKept s → portsKept (chooseCover fuel s)
  | 0, _, hs => hs
  | fuel + 1, s, hs => by
    unfold chooseCover
    split
    · rename_i id r hfree hnext
      have hslot := nextCover_waiting hnext
      split
      · exact startSearch_kept hslot hs
      · refine chooseCover_kept fuel _ (portsOwing_deferred _ _ _ (emptied_owing (fun c i => by cases i <;> rfl) ?_ ?_ hs))
        · exact (setSlot_search _ _ _).trans hfree
        · rw [hslot]
          rfl
    · exact hs

theorem completeSearch_kept {s : State} {q : Search} (v : Verdict) (hq : s.cover.search = some q) (hs : portsKept s) :
    portsKept (completeSearch q v s) :=
  chooseCover_kept 2 _ (portsOwing_deferred _ _ _ (emptied_owing (fun c i => by cases i <;> rfl) rfl (hs.1.2.2 q hq) hs))

theorem acceptCover_kept {s : State} {id : PortId} (r : CoverRequest) (hl : listening s id = true)
    (hslot : (s.cover.slot id).isEmpty = true) (hs : portsKept s) : portsKept (acceptCover id r s) := by
  have hdeferred := portsOwing_defer hl hs
  refine chooseCover_kept 2 _ (portsOwing_cover (s := deferAnswer id s) (late := oneLate id) (late' := noneLate) rfl rfl
    (fun q hq => ?_) (fun i => ?_) hdeferred)
  · have hold : s.cover.search = some q := (setSlot_search _ _ _).symm.trans hq
    have hne : q.source ≠ id := fun e => by
      have h := hs.1.2.2 q hold
      rw [e, hslot] at h
      cases h
    show ((s.cover.setSlot id (.waiting r)).slot q.source).isEmpty = false
    rw [slot_setSlot, if_neg hne]
    exact hs.1.2.2 q hold
  · show slotOwes ((s.cover.setSlot id (.waiting r)).slot i) + _ = slotOwes (s.cover.slot i) + _
    by_cases hi : i = id
    · subst hi
      rw [slot_setSlot, if_pos rfl, oneLate, if_pos rfl, slotOwes, slotOwes, hslot]
      rfl
    · rw [slot_setSlot, if_neg hi]
      simp [oneLate, hi, noneLate]

theorem stepSearch_sameOwed (s : State) : sameOwed s (stepSearch s) := by
  unfold stepSearch
  split
  · exact .refl s
  · rename_i q hq
    exact { slots := fun _ _ h => h, office := rfl, walk := rfl, cover := fun id => by cases id <;> rfl,
            search := by rw [hq]; rfl }

/-! ## Restarts, steps and frames -/

/-- A restart leaves nothing owed and no answer queued. -/
theorem portsKept_restarted {s : State} (hengine : s.engine = Engine.cold) (hslot : ∀ id, s.cover.slot id = .empty)
    (hsearch : s.cover.search = none) (hport : ∀ id, s.ports.port id = Port.cold) : portsKept s := by
  refine ⟨⟨fun i r hr => ?_, fun w hw => ?_, fun q hq => ?_⟩, fun id => ?_⟩
  · rw [hengine] at hr
    simp [Engine.cold] at hr
  · rw [hengine] at hw
    cases hw
  · rw [hsearch] at hq
    cases hq
  · rw [hport]
    refine ⟨?_, Nat.zero_le _⟩
    cases id
    · rw [owed_office, hengine, hslot]
      simp [Engine.cold, walkOwes, CoverSlot.isEmpty, Port.cold]
    · rw [owed_service, hslot]
      rfl

theorem portsKept_clock : KeptByClock portsKept where
  clock s f _ := portsKept_reads.frame (onClock_frame s f) (by decide)
  raiseZone s k d := portsKept_reads.frame (raiseZone_frame s k d) (by decide)
  clearZone s k := portsKept_reads.frame (clearZone_frame s k) (by decide)
  latch s n := portsKept_reads.frame (latch_frame s n) (by decide)
  quotes s := portsKept_reads.frame (cancelAllQuotes_frame s) (by decide)
  marks s := (markForStep_sameOwed s).kept (portsGrow.same (markForStep_ports s)).toqueuesGrow
  handOver s isDay isHour := (handOver_sameOwed isDay isHour s).kept (portsGrow.same (handOver_ports s isDay isHour)).toqueuesGrow
  warm s reason _ := portsKept_restarted rfl (fun id => by cases id <;> rfl) rfl fun id => by cases id <;> rfl
  cold s := portsKept_restarted rfl (fun id => by cases id <;> rfl) rfl fun id => by cases id <;> rfl
  pins s pins := portsKept_reads.frame (pinsUpdate_frame s pins) (by decide)

theorem portsKept_frames : KeptByFrames portsKept where
  line s n f := portsKept_reads.frame (onLine_frame s n f) (by decide)
  heard s n := portsKept_reads.frame (heard_frame s n) (by decide)
  counted s n := portsKept_reads.frame (countDiscard_frame s n) (by decide)

/-- A change of one port that adds no answer. -/
theorem portsKept_onPort {s : State} (id : PortId) {f : Port → Port} (hd : ∀ p, (f p).deferred = p.deferred)
    (hq : ∀ p, (f p).queue.length ≤ p.queue.length) (hs : portsKept s) : portsKept (onPorts (fun u => u.onPort id f) s) := by
  refine (sameOwed.of_frame (onPorts_frame s _) (by decide) (by decide)).kept ⟨fun i => ?_, fun i => .inl ?_⟩ hs
  all_goals
    rw [onPorts_ports]
    by_cases hi : i = id
    · subst hi
      rw [port_onPort_self]
      simp [hd, hq]
    · rw [port_onPort_other _ _ hi]

theorem ended_deferred (p : Port) (z : ZoneMinute) (k : ClockState) : (p.ended z k).deferred = p.deferred := by
  unfold Port.ended
  split
  · exact start_deferred _ z k
  · rfl

theorem ended_queue_le (p : Port) (z : ZoneMinute) (k : ClockState) : (p.ended z k).queue.length ≤ p.queue.length := by
  unfold Port.ended
  split
  · exact start_queue_le _ z k
  · exact Nat.le_refl _

/-! ## The commands -/

theorem portsKept_command {source : Source} {tag : Tag} {ok : Bool} {role : Role} {act : State → State} {s : State}
    (hact : listening s source.port = true → portsKept s → portsKept (act s)) (hs : portsKept s) :
    portsKept (takeCommand source tag ok role act s) :=
  takeCommand_keeps tag ok role (portsKept_clock.latch s) (fun _ st b hu hl => portsKept_answer tag st b hl hu) (fun _ => hact) hs

/-- What a port command withdraws, beside its answer. -/
theorem sameOwed_command {source : Source} {tag : Tag} {ok : Bool} {role : Role} {act : State → State} {s : State}
    (hact : sameOwed s (act s)) : sameOwed s (takeCommand source tag ok role act s) :=
  takeCommand_keeps (P := sameOwed s) tag ok role (fun n h => h.trans (.of_frame (latch_frame s n) (by decide) (by decide)))
    (fun u st b h _ => h.trans (.of_frame (answerPort_frame u _ tag st b) (by decide) (by decide))) (fun _ _ _ => hact) (.refl s)

theorem sameOwed.answered {s t : State} (h : sameOwed s t) (id : PortId) (tag : Tag) (st : Status) (b : Body) :
    sameOwed s (answerPort id tag st b t) := h.trans (.of_frame (answerPort_frame t id tag st b) (by decide) (by decide))

theorem configure_sameOwed (n : Line) (f : TerminalFields) (p : Fin 8) (c : CondSet) (s : State) : sameOwed s (configure n f p c s) :=
  (sameOwed.of_frame (((onEntry_frame s n _).trans (setCapacity_frame _ n f.capacity)).trans
    (regracePlans_frame _ (row s.table n) p)) (by decide) (by decide)).trans (disturb_sameOwed n false _)

theorem retire_sameOwed (n : Line) (s : State) : sameOwed s (retire n s) :=
  (sameOwed.of_frame ((onEntry_frame s n _).trans (regrace_frame _ _)) (by decide) (by decide)).trans (disturb_sameOwed n false _)

theorem resetLine_sameOwed (n : Line) (s : State) : sameOwed s (resetLine n s) :=
  (sameOwed.of_frame ((onLine_frame s n _).trans (onEntry_frame _ n _)) (by decide) (by decide)).trans (disturb_sameOwed n true _)

/-- The commands that disturb a transaction, mark a walk, or set the window. -/
def withdraws : Instr → Bool
  | .setClock _ _ _ | .configureTerminal _ _ | .retireTerminal _ _ | .lineReset _ _ _ | .testLine _ _ _ | .endTest _ _ _
  | .testLimit _ | .setRecentWindow _ _ => true
  | _ => false

theorem exec_sameOwed {c : Instr} {s t : State} (hx : exec c s = .next t) (hc : withdraws c = true) : sameOwed s t := by
  cases c
  case setClock => cases hx; exact sameOwed_command (source := .office) ((setClock_sameOwed _ s).answered ..)
  case configureTerminal =>
    cases hx
    refine sameOwed_command (source := .office) ?_
    split
    · exact .refl s
    · split
      · exact (sameOwed.refl s).answered ..
      · exact (configure_sameOwed _ _ _ _ s).answered ..
  case retireTerminal =>
    cases hx
    refine sameOwed_command (source := .office) ?_
    split
    · exact .refl s
    · split
      · exact (sameOwed.refl s).answered ..
      · split
        · exact (sameOwed.refl s).answered ..
        · exact (retire_sameOwed _ s).answered ..
  case lineReset =>
    cases hx
    refine sameOwed_command ?_
    split
    · exact .refl s
    · exact (resetLine_sameOwed _ s).answered ..
  case testLine =>
    cases hx
    refine sameOwed_command ?_
    split
    · exact .refl s
    · split
      · exact (sameOwed.refl s).answered ..
      · split
        · exact (sameOwed.refl s).answered ..
        · exact (changeMode_sameOwed _ _ s).answered ..
  case endTest =>
    cases hx
    refine sameOwed_command ?_
    split
    · exact .refl s
    · split
      · exact (changeMode_sameOwed _ _ s).answered ..
      · exact (sameOwed.refl s).answered ..
  case testLimit =>
    cases hx
    refine whenSet_keeps (P := sameOwed s) (fun u h => h.trans ?_) (.refl s)
    unfold endTestIfDue
    split
    · exact changeMode_sameOwed _ _ u
    · exact .refl u
  case setRecentWindow =>
    cases hx
    refine sameOwed_command (source := .office) (sameOwed.answered ?_ ..)
    exact { slots := fun _ _ h => h, office := rfl, walk := rfl, cover := fun id => by cases id <;> rfl, search := rfl }
  all_goals cases hc

/-- A QUOTE or PRICE goes to its terminal's slot. -/
theorem takeAsk_kept {n : Line} {r : WalkRequest} (hr : r.preview = none) {s : State} (hs : portsKept s) : portsKept (takeAsk n r s) := by
  have hline : ∀ st u, portsKept u → portsKept (answerPending n st .empty u) := fun st u =>
    portsKept_reads.frame (answerPending_frame u n st .empty) (by decide)
  have haccept : ∀ u, portsKept u → portsKept (acceptAsk n r u) := fun u hu => by
    have hother : lineSlot n ≠ officeSlot := (Fin.castSucc_lt_last n).ne
    refine placeRequest_kept (by simp [hr, hother]) (fun h => absurd h hother) ?_
    rw [hr]
    exact portsKept_reads.frame (cancelQuote_frame u n) (by decide) hu
  have hread : ∀ permit, portsKept (refreshPermit permit s) := fun permit =>
    portsKept_reads.frame (refreshPermit_frame s permit) (by decide) hs
  unfold takeAsk
  split
  · exact hline _ _ hs
  · split
    · dsimp only
      split
      · exact hline _ _ (hread _)
      · exact haccept _ (hread _)
    · exact haccept _ hs

theorem quoteRequest_preview {f : QuoteFields} {r : WalkRequest} (h : quoteRequest f = some r) : r.preview = none := by
  unfold quoteRequest at h
  split at h
  · cases h
  · split at h
    · cases h; rfl
    · cases h

theorem priceRequest_preview {f : PriceFields} {r : WalkRequest} (h : priceRequest f = some r) : r.preview = none := by
  unfold priceRequest at h
  split at h
  · cases h
  · split at h
    · cases h; rfl
    · cases h

theorem previewRequest_preview {f : PreviewFields} {tag : Tag} {r : WalkRequest} (h : previewRequest f tag = some r) :
    ∃ p, r.preview = some p := by
  unfold previewRequest at h
  split at h
  · cases h; exact ⟨_, rfl⟩
  · cases h

theorem takeAskFrame_kept {n : Line} {k : RequestKind} {r : Option WalkRequest} (hr : ∀ x, r = some x → x.preview = none) {s : State}
    (hs : portsKept s) : portsKept (takeAskFrame n k r s) := by
  unfold takeAskFrame
  split
  · exact portsKept_frames.takeFrame _ _ _ (fun _ hs => hs) hs
  · exact portsKept_frames.takeFrame _ _ _ (fun _ => takeAsk_kept (hr _ rfl)) hs

/-- A PREVIEW-QUOTE accepted finds the office slot empty (R70 (iv)). -/
theorem previewRefusal_slot {s : State} {p : Preview} (h : previewRefusal s p = none) : row s.engine.slots officeSlot = none := by
  by_contra hslot
  have hbusy : officeBusy s.engine = true := by
    unfold officeBusy
    rw [Option.isSome_iff_ne_none.mpr hslot, Bool.true_or]
  unfold previewRefusal at h
  rw [if_pos hbusy] at h
  split_ifs at h

/-- The requests and events of the quote engine keep the ports. -/
theorem asksEngine_portsKept {c : Instr} {s t : State} (hx : exec c s = .next t) (hc : asksEngine c = true) (hs : portsKept s) :
    portsKept t := by
  cases c
  case quote => cases hx; exact whenRunning_keeps (fun _ => takeAskFrame_kept fun _ => quoteRequest_preview) hs
  case price => cases hx; exact whenRunning_keeps (fun _ => takeAskFrame_kept fun _ => priceRequest_preview) hs
  case walkBegin => cases hx; exact whenRunning_keeps (fun _ => chooseWalk_kept) hs
  case walkComplete =>
    cases hx
    refine whenRunning_keeps (fun s hs => ?_) hs
    split
    · exact hs
    · rename_i w hw
      have hran : onlyChanges [.permits] s (runStages walkFuel s w).1 := runStages_frame s walkFuel w
      exact completeWalk_kept _ ((congrArg Engine.walk (hran .engine (by decide))).trans hw)
        (portsKept_reads.frame hran (by decide) hs)
  case previewQuote =>
    cases hx
    refine portsKept_command (source := .office) (fun hl hs => ?_) hs
    split
    · exact hs
    · rename_i r hr
      obtain ⟨p, hp⟩ := previewRequest_preview hr
      rw [hp, Option.bind_some]
      split
      · exact portsKept_answer _ _ _ hl hs
      · rename_i hrefusal
        refine placeRequest_kept (by simp [hp]) (fun _ => previewRefusal_slot hrefusal) ?_
        rw [hp]
        exact portsOwing_defer hl hs
  all_goals cases hc

theorem exec_portsKept (c : Instr) (s t : State) (hs : portsKept s) (hx : exec c s = .next t) : portsKept t := by
  cases c
  case minuteBoundary | powerUp | nresetRelease => exact portsKept_clock.exec hx hs (.inl rfl)
  case commandedRestart => exact portsKept_clock.exec hx hs (.inr ⟨_, rfl⟩)
  case quote | price | walkBegin | walkComplete | previewQuote => exact asksEngine_portsKept hx rfl hs
  case setClock | configureTerminal | retireTerminal | lineReset | testLine | endTest | testLimit | setRecentWindow =>
    exact (exec_sameOwed hx rfl).kept (exec_portsGrow hx (by simp [answersAtOnce, partsOf])).toqueuesGrow hs
  case portReplyEnd =>
    cases hx
    refine whenRunning_keeps (fun s hs => ?_) hs
    split
    · exact portsKept_clock.warmRestart _ hs
    · exact portsKept_onPort _ (fun p => ended_deferred p _ _) (fun p => ended_queue_le p _ _) hs
  case portFrameDiscard | portReceiveTimeout =>
    cases hx
    exact whenRunning_keeps (act := dropPortFrame _) (fun _ => portsKept_onPort _ (fun _ => rfl) fun _ => Nat.le_refl _) hs
  case cover =>
    cases hx
    refine portsKept_command (fun hl hs => ?_) hs
    split
    · exact hs
    · split
      · exact portsKept_answer _ _ _ hl hs
      · split
        · exact acceptCover_kept _ hl (by assumption) hs
        · exact portsKept_answer _ _ _ hl hs
  case searchBegin => cases hx; exact whenRunning_keeps (fun _ => chooseCover_kept 2 _) hs
  case searchComplete =>
    cases hx
    refine whenRunning_keeps (fun s hs => ?_) hs
    split
    · exact hs
    · rename_i q hq
      exact completeSearch_kept _ hq hs
  case putBadge =>
    cases hx
    refine portsKept_command (source := .office) (fun hl hs => ?_) hs
    split
    · unfold putBadge
      split
      · exact portsKept_answer _ _ _ hl hs
      · exact (sameOwed.answered (.of_frame (onPorts_frame s _) (by decide) (by decide)) _ _ _ _).kept
          (.answer (fun i => by cases i <;> rfl) hl) hs
    · exact portsKept_answer _ _ _ hl hs
  case dropBadge =>
    cases hx
    refine portsKept_command (source := .office) (fun hl hs => ?_) hs
    split
    · exact portsKept_answer _ _ _ hl hs
    · exact (sameOwed.answered (.of_frame (onPorts_frame s _) (by decide) (by decide)) _ _ _ _).kept
        (.answer (fun i => by cases i <;> rfl) hl) hs
  all_goals exact (sameOwed.of_parts (exec_agrees (p := .engine) hx (by simp [partsOf]))
    (exec_agrees (p := .cover) hx (by simp [partsOf]))).kept (exec_portsGrow hx (by simp [answersAtOnce, partsOf])).toqueuesGrow hs

theorem portsKept_alone (s t : State) (hs : portsKept s) (h : WorksAlone s t) : portsKept t := by
  cases h with
  | nothing => exact hs
  | flag n => exact portsKept_reads.frame (onLine_frame s n _) (by decide) hs
  | lineFrame n f => exact portsKept_reads.frame (onLine_frame s n _) (by decide) hs
  | portFrame id f => exact portsKept_onPort id (fun _ => rfl) (fun _ => Nat.le_refl _) hs
  | walk => exact (stepWalk_sameOwed s).kept (portsGrow.same (stepWalk_frame s .ports (by decide))).toqueuesGrow hs
  | search => exact (stepSearch_sameOwed s).kept (portsGrow.same (stepSearch_frame s .ports (by decide))).toqueuesGrow hs
  | cycle => exact portsKept_clock.tick hs

/-- Settles O7: every command gives back what the units owe, and what the part does alone owes no more. -/
theorem portsStayKept : Obligations.PortsStayKept :=
  step_keeps exec_portsKept (fun _ _ _ hs => hs) portsKept_alone

end Sys2Proof.Proofs
end

section
/-!
PROOFS. A plan's grace is ACTIVE exactly while the plan is unserved (O6), and the state after a cold start (O8).
-/
namespace Sys2Proof.Proofs
open Sys2Proof Sys2Proof.Machine

/-! ## What keeps grace true -/

/-- A change that grace has followed leaves it true (R173, R174). -/
theorem graceKept_of_tracks {s t : State} (h : graceTracks s t) : graceKept t := by
  obtain ⟨⟨hgrace, -⟩, -⟩ := h
  intro p
  rw [show row t.faults.grace p = _ from hgrace p trivial]
  exact reevaluated_active _ _ _

theorem graceDown_refl {s : State} (hs : graceKept s) : graceDown s s := fun p => (hs p).mpr

/-- Grace and the plans served as before. -/
theorem graceKept_same {s t : State} (hgrace : t.faults.grace = s.faults.grace) (hserved : ∀ p, unserved t p = unserved s p)
    (hs : graceKept s) : graceKept t := fun p => by
  rw [hgrace, hserved]
  exact hs p

theorem graceKept_reads : ReadsOnly [.table, .faults] graceKept := fun s t h => by
  have htable : t.table = s.table := h .table (by simp)
  have hfaults : t.faults = s.faults := h .faults (by simp)
  exact graceKept_same (by rw [hfaults]) fun p => by unfold unserved; rw [htable, hfaults]

/-- The entries changed, but not which terminal is ACTIVE with which plan. -/
theorem graceKept_table {s t : State} (hfaults : t.faults = s.faults)
    (htable : ∀ n, (row t.table n).active = (row s.table n).active ∧ (row t.table n).plan = (row s.table n).plan) (hs : graceKept s) :
    graceKept t :=
  graceKept_same (by rw [hfaults]) (fun p => by unfold unserved; rw [hfaults]; exact unservedIn_table _ _ _ p htable) hs

/-- A change of entries that keeps whether each is ACTIVE, and its plan. -/
def keepsPlan (f : Entry → Entry) : Prop := ∀ e, (f e).active = e.active ∧ (f e).plan = e.plan

theorem graceKept_onEntry {s : State} (n : Line) {f : Entry → Entry} (hf : keepsPlan f) : graceKept s → graceKept (onEntry n f s) :=
  graceKept_table rfl fun m => by
    show (row (change s.table n f) m).active = _ ∧ (row (change s.table n f) m).plan = _
    rw [row_change]
    split
    · rename_i hm
      exact hm ▸ hf _
    · exact ⟨rfl, rfl⟩

theorem graceKept_changeAll (s : State) {f : Entry → Entry} (hf : keepsPlan f) :
    graceKept s → graceKept { s with table := changeAll s.table f } :=
  graceKept_table rfl fun m => by
    dsimp only
    rw [row_changeAll]
    exact hf _

theorem graceKept_onEntries {s : State} (ns : List Line) {f : Entry → Entry} (hf : keepsPlan f) :
    graceKept s → graceKept (onEntries ns f s) :=
  graceKept_table rfl fun m => by
    unfold onEntries
    dsimp only
    rw [row_ofFn]
    split
    · exact hf _
    · exact ⟨rfl, rfl⟩

theorem graceKept_raise (s : State) (n : Line) (k : TermFault) (d : Option Nat) (hs : graceKept s) : graceKept (raiseFault n k d s) :=
  graceKept_of_tracks (graceTracks_raise n k d (graceTracks_refl hs))

theorem graceKept_clear (s : State) (n : Line) (k : TermFault) (hs : graceKept s) : graceKept (clearFaultOf n k s) :=
  graceKept_of_tracks (graceTracks_clear n k (graceTracks_refl hs) (graceDown_refl hs)).1

theorem graceKept_raiseZone (s : State) (k : ZoneFault) (d : Option Nat) (hs : graceKept s) : graceKept (raiseZone k d s) :=
  graceKept_of_tracks (graceTracks_raiseZone (graceTracks_refl hs) k d)

theorem graceKept_clearZone (s : State) (k : ZoneFault) (hs : graceKept s) : graceKept (clearZone k s) :=
  graceKept_of_tracks (graceTracks_clearZone (graceTracks_refl hs) k)

theorem graceKept_answer (s : State) (id : PortId) (tag : Tag) (st : Status) (b : Body) :
    graceKept s → graceKept (answerPort id tag st b s) := graceKept_reads.frame (answerPort_frame s id tag st b) (by decide)

theorem graceKept_latch (s : State) (n : Notice) : graceKept s → graceKept (latch n s) :=
  graceKept_reads.frame (latch_frame s n) (by decide)

theorem graceKept_line (s : State) (n : Line) (st : Status) (b : Body) : graceKept s → graceKept (answerPending n st b s) :=
  graceKept_reads.frame (answerPending_frame s n st b) (by decide)

theorem graceKept_disturb (s : State) (n : Line) (byReset : Bool) : graceKept s → graceKept (disturb n byReset s) :=
  graceKept_reads.frame (disturb_frame s n byReset) (by decide)

theorem graceKept_count (s : State) (n : Line) (hs : graceKept s) : graceKept (countDiscard n s) := by
  have hcounted : graceKept (onEntry n (fun e => { e with discards := saturate 65535 (row s.table n).discards 1 }) s) :=
    graceKept_onEntry n (fun _ => ⟨rfl, rfl⟩) hs
  unfold countDiscard
  dsimp only
  split
  · exact graceKept_raise _ _ _ _ hcounted
  · exact hcounted

theorem graceKept_cold {s : State} (hgrace : ∀ p, row s.faults.grace p = .none) (hactive : ∀ n, (row s.table n).active = false) :
    graceKept s := fun p => by
  rw [hgrace]
  refine ⟨fun h => absurd h (by simp), fun h => ?_⟩
  unfold unserved unservedIn at h
  rw [Bool.and_eq_true, someRow_iff] at h
  obtain ⟨⟨n, hn⟩, -⟩ := h
  simp [servesPlan, hactive] at hn

theorem graceKept_clock : KeptByClock graceKept where
  clock s f _ := graceKept_reads.frame (onClock_frame s f) (by decide)
  raiseZone := graceKept_raiseZone
  clearZone := graceKept_clearZone
  latch := graceKept_latch
  quotes s := graceKept_reads.frame (cancelAllQuotes_frame s) (by decide)
  marks s := graceKept_reads.frame (markForStep_frame s) (by decide)
  handOver s isDay isHour _ := (watchLines_spec _).2.2.1
  warm s reason hs := graceKept_reads _ _ (fun p hp => by fin_cases hp <;> rfl)
    (graceKept_changeAll s (f := fun e => e.warm s.clock.reading) (fun _ => ⟨rfl, rfl⟩) hs)
  cold s := graceKept_cold (fun p => by simp [coldStart, State.reset, FaultTable.cold])
    fun n => by simp [coldStart, State.reset, Entry.cold]
  pins s pins := graceKept_reads.frame (pinsUpdate_frame s pins) (by decide)

theorem graceKept_heard (s : State) (n : Line) (hs : graceKept s) : graceKept (heard n s) :=
  graceKept_of_tracks (heard_tracks hs n).1

theorem graceKept_addSticky (s : State) (n : Line) (o : WalkOutcome) (hs : graceKept s) : graceKept (addSticky n o s) := by
  have hlatched : ∀ fresh : Bool, graceKept (if fresh then latch .conditionHeld s else s) := fun fresh => by
    cases fresh
    · exact hs
    · exact graceKept_latch s _ hs
  exact graceKept_onEntry n (fun _ => ⟨rfl, rfl⟩) (hlatched _)

theorem graceKept_openQuote (s : State) (n : Line) (r : WalkResult) (hs : graceKept s) : graceKept (openQuote n r s) :=
  graceKept_line _ _ _ _ (graceKept_onEntry (s := { s with quotes := put s.quotes n _ }) n (fun _ => ⟨rfl, rfl⟩) hs)

/-- A walk's outcome changes a sticky set and a quote number at most. -/
theorem graceKept_deliver (s : State) (w : Walk) (o : WalkOutcome) (hs : graceKept s) : graceKept (deliver w o s) := by
  unfold deliver
  split
  · exact graceKept_reads.frame (officeOutcome_frame s _ _) (by decide) hs
  · have hsticky : graceKept (match w.mode with
        | .normal => addSticky (slotLine w.slot) o (reportWalk (slotLine w.slot) o s)
        | .test => s) := by
      split
      · exact graceKept_addSticky _ _ _ (graceKept_reads.frame (reportWalk_frame s _ o) (by decide) hs)
      · exact hs
    unfold terminalOutcome
    split
    · split
      · exact hs
      · exact graceKept_line _ _ _ _ hs
    · dsimp only
      split
      · exact graceKept_openQuote _ _ _ hsticky
      · exact graceKept_line _ _ _ _ hsticky
      · exact graceKept_line _ _ _ _ hsticky

theorem graceKept_engine : KeptByEngine graceKept where
  frame _ _ h := graceKept_reads.frame h (by decide)
  start s i r := graceKept_reads.frame ((onEngine_frame s _).trans (startWalk_frame _ _)) (by decide)
  clear s v := graceKept_reads.frame (onBooks_frame s _) (by decide)
  heard := graceKept_heard
  counted := graceKept_count
  refresh s number := graceKept_reads.frame (refreshPermit_frame s number) (by decide)
  deliver := graceKept_deliver
  defer s id := graceKept_reads.frame (deferAnswer_frame s id) (by decide)
  answer := graceKept_answer

/-! ## The commands -/

theorem graceKept_command {source : Source} {tag : Tag} {ok : Bool} {role : Role} {act : State → State} {s : State}
    (hact : ∀ s, graceKept s → graceKept (act s)) (hs : graceKept s) : graceKept (takeCommand source tag ok role act s) :=
  takeCommand_keeps tag ok role (graceKept_latch s) (fun u st b hu _ => graceKept_answer u _ tag st b hu) (fun _ _ => hact s) hs

theorem graceKept_frame {n : Line} {k : Option RequestKind} {ok : Bool} {s : State} {act : State → State}
    (hact : ∀ s, graceKept s → graceKept (act s)) (hs : graceKept s) : graceKept (takeFrame n k ok act s) :=
  graceKept_engine.frames.takeFrame n k ok hact hs

theorem keepsPlan_resetBookChange : keepsPlan resetBookChange := fun _ => ⟨rfl, rfl⟩

theorem graceKept_activateIfDue (s : State) (hs : graceKept s) : graceKept (activateIfDue s) := by
  unfold activateIfDue
  split
  · exact graceKept_changeAll _ keepsPlan_resetBookChange
      (graceKept_latch _ _ (graceKept_reads.frame (onBooks_frame s _) (by decide) hs))
  · exact hs

theorem graceKept_changeMode (s : State) (n : Line) {f : Entry → Entry} (hf : keepsPlan f) (hs : graceKept s) :
    graceKept (changeMode n f s) := graceKept_disturb _ _ _ (graceKept_onEntry n hf hs)

theorem keepsPlan_toNormal : keepsPlan Entry.toNormal := fun _ => ⟨rfl, rfl⟩

theorem graceKept_resetLine (s : State) (n : Line) (hs : graceKept s) : graceKept (resetLine n s) :=
  graceKept_disturb _ _ _ (graceKept_onEntry n keepsPlan_toNormal (graceKept_reads.frame (onLine_frame s n _) (by decide) hs))

theorem graceKept_feelPressure (s : State) (hs : graceKept s) : graceKept (feelPressure s) := by
  unfold feelPressure
  split
  · exact graceKept_raiseZone _ _ _ (graceKept_reads.frame (onSales_frame s _) (by decide) hs)
  · exact hs

theorem graceKept_easePressure (s : State) (hs : graceKept s) : graceKept (easePressure s) := by
  unfold easePressure
  split
  · exact graceKept_clearZone _ _ (graceKept_reads.frame (onSales_frame s _) (by decide) hs)
  · exact hs

theorem graceKept_takePayment (s : State) (n : Line) (m : SaleMoney) (t : Terms) (hs : graceKept s) :
    graceKept (takePayment n m t s) := by
  unfold takePayment
  split
  · exact graceKept_of_tracks (graceTracks_addCoins (graceTracks_refl hs) n _)
  · exact graceKept_reads.frame (debitPermit_frame s _ _) (by decide) hs
  · exact hs

theorem graceKept_commitSale (s : State) (n : Line) (q : OpenQuote) (m : SaleMoney) (serial : Nat) (hs : graceKept s) :
    graceKept (commitSale n q m serial s) := by
  have hpaid := graceKept_takePayment _ n m q.result.terms (graceKept_reads.frame
    (onSales_frame s fun u => u.committed n (sessionOf s n q m serial) (now s)) (by decide) hs)
  exact graceKept_line _ _ _ _ (graceKept_easePressure _ (graceKept_feelPressure _
    (graceKept_reads.frame ((onToday_frame _ n _).trans (cancelQuote_frame _ n)) (by decide) hpaid)))

theorem graceKept_takeSale (n : Line) (number : Nat) (m : SaleMoney) (s : State) (hs : graceKept s) :
    graceKept (takeSale n number m s) :=
  takeSale_keeps (fun st u => graceKept_reads.frame (refuseSale_frame u n st) (by decide))
    (fun q => graceKept_reads.frame (refreshForSale_frame s q m) (by decide) hs)
    (fun q serial u hu _ _ => graceKept_commitSale u n q m serial hu) hs

theorem graceKept_report (s : State) (n : Line) (k : TermFault) (isRaise : Bool) (hs : graceKept s) :
    graceKept (reportFault n k isRaise s) := by
  unfold reportFault
  split
  · exact graceKept_of_tracks (graceTracks_raiseSpared _ n k none (graceTracks_refl hs))
  · exact graceKept_clear _ _ _ hs

theorem graceKept_silence (s : State) (n : Line) (hs : graceKept s) :
    graceKept (onFaults (silenceIn s.table s.clock.reading n) s) := by
  have hraised := graceKept_raise s n .lineSilent (some (row s.table n).lastHeard) hs
  cases hdue : silentDue s.table s.clock.reading n s.faults with
  | true =>
    rw [show onFaults (silenceIn s.table s.clock.reading n) s = raiseFault n .lineSilent (some (row s.table n).lastHeard) s from by
      unfold onFaults raiseFault silenceIn onFaults
      simp only [hdue, if_true]]
    exact hraised
  | false =>
    rw [show onFaults (silenceIn s.table s.clock.reading n) s = s from by
      unfold onFaults silenceIn
      simp [hdue]]
    exact hs

/-- A tail that ends leaves a record that was not ACTIVE: its plan is served (R175). -/
theorem graceKept_endTail (s : State) (p : Fin 8) (hs : graceKept s) : graceKept (onFaults (endTailIn s.clock.reading p) s) := by
  have hserved : ∀ q, unserved (onFaults (endTailIn s.clock.reading p) s) q = unserved s q := fun q =>
    unservedIn_congr _ _ _ (endTailIn_terminals ..) q
  intro q
  rw [hserved, show row (onFaults _ s).faults.grace q = _ from endTailIn_grace s.clock.reading p q (s.faults, s.notices)]
  split
  · rename_i hdue
    obtain ⟨rfl, hdue⟩ := hdue
    refine ⟨fun h => absurd h (by simp), fun hu => ?_⟩
    obtain ⟨since, hactive⟩ := (hs q).mpr hu
    rw [hactive] at hdue
    cases hdue
  · exact hs q

/-- An acknowledged record stands as the OPEN one did (R168). -/
theorem graceKept_acknowledge (s : State) (k : FaultName) (hopen : (k.record s.faults).state = .opened) (hs : graceKept s) :
    graceKept (acknowledge k s) := by
  cases k with
  | zone z => exact graceKept_same rfl (fun p => unservedIn_congr _ _ _ rfl p) hs
  | terminal n k =>
    refine graceKept_same (s := s) rfl (fun p => unservedIn_same _ _ _ p fun m _ _ => serviceIn_congr _ _ _ m fun j => ?_) hs
    show (terminalRecord (putTerminal s.faults n k _) m j).standing = _
    rw [terminalRecord_put]
    split
    · rename_i heq
      obtain ⟨rfl, rfl⟩ := heq
      have hstands : (terminalRecord s.faults m j).state = .opened := hopen
      exact ((standing_eq _).mpr (by rw [hstands]; simp)).symm
    · rfl

theorem graceKept_clearNamed (s : State) (k : FaultName) (hs : graceKept s) : graceKept (clearNamed k s) := by
  cases k with
  | zone z => exact graceKept_clearZone s z hs
  | terminal n k => exact graceKept_clear s n k hs

theorem exec_graceKept (c : Instr) (s t : State) (hs : graceKept s) (hx : exec c s = .next t) : graceKept t := by
  cases c
  case minuteBoundary | powerUp | nresetRelease | commandedRestart | portReplyEnd | setClock =>
    exact graceKept_clock.commands graceKept_answer (fun s _ => graceKept_reads.frame (onPorts_frame s _) (by decide)) hx hs rfl
  case quote | price | previewQuote | walkBegin | walkComplete => exact graceKept_engine.exec hx hs rfl
  case hello | unknownRequestKind | frameDiscard | receiveTimeout | collision => exact graceKept_engine.frames.exec hx hs rfl
  case bookCheckComplete =>
    cases hx
    refine whenRunning_keeps (fun s hs => ?_) hs
    have hbooks : ∀ f, graceKept (latch .bookChecked (onBooks f s)) := fun f =>
      graceKept_latch _ _ (graceKept_reads.frame (onBooks_frame s f) (by decide) hs)
    split
    · dsimp only
      split
      · exact graceKept_changeAll _ (fun e => by split <;> exact ⟨rfl, rfl⟩) (hbooks _)
      · exact hbooks _
    · exact hs
  case bookActivation => cases hx; exact whenSet_keeps graceKept_activateIfDue hs
  case disarmBook =>
    cases hx
    refine graceKept_command (source := .office) (fun s hs => ?_) hs
    split
    · exact graceKept_answer _ _ _ _ _ (graceKept_changeAll _ keepsPlan_resetBookChange
        (graceKept_reads.frame (onBooks_frame s _) (by decide) hs))
    · exact graceKept_answer _ _ _ _ _ hs
  case configureTerminal =>
    cases hx
    refine graceKept_command (source := .office) (fun s hs => ?_) hs
    split
    · exact hs
    · split
      · exact graceKept_answer _ _ _ _ _ hs
      · exact graceKept_answer _ _ _ _ _ (graceKept_of_tracks (configure_tracks _ _ _ _ s hs))
  case retireTerminal =>
    cases hx
    refine graceKept_command (source := .office) (fun s hs => ?_) hs
    split
    · exact hs
    · split
      · exact graceKept_answer _ _ _ _ _ hs
      · split
        · exact graceKept_answer _ _ _ _ _ hs
        · exact graceKept_answer _ _ _ _ _ (graceKept_of_tracks (retire_tracks _ s hs))
  case setConditions =>
    cases hx
    refine graceKept_command (source := .office) (fun s hs => ?_) hs
    split
    · split
      · exact graceKept_answer _ _ _ _ _ (graceKept_onEntry _ (fun _ => ⟨rfl, rfl⟩) hs)
      · exact graceKept_answer _ _ _ _ _ hs
    · exact hs
  case clearConditions =>
    cases hx
    refine graceKept_command (source := .office) (fun s hs => ?_) hs
    split
    · exact hs
    · exact graceKept_answer _ _ _ _ _ (graceKept_onEntries _ (fun _ => ⟨rfl, rfl⟩) hs)
  case setAddressed | resetAddressed =>
    cases hx
    refine graceKept_command (source := .office) (fun s hs => ?_) hs
    unfold changeAddressed
    split
    · exact hs
    · exact graceKept_answer _ _ _ _ _ (graceKept_onEntries _ (fun _ => ⟨rfl, rfl⟩) hs)
  case lineReset =>
    cases hx
    refine graceKept_command (fun s hs => ?_) hs
    split
    · exact hs
    · exact graceKept_answer _ _ _ _ _ (graceKept_resetLine _ _ hs)
  case testLine =>
    cases hx
    refine graceKept_command (fun s hs => ?_) hs
    split
    · exact hs
    · split
      · exact graceKept_answer _ _ _ _ _ hs
      · split
        · exact graceKept_answer _ _ _ _ _ hs
        · exact graceKept_answer _ _ _ _ _ (graceKept_changeMode _ _ (fun _ => ⟨rfl, rfl⟩) hs)
  case endTest =>
    cases hx
    refine graceKept_command (fun s hs => ?_) hs
    split
    · exact hs
    · split
      · exact graceKept_answer _ _ _ _ _ (graceKept_changeMode _ _ keepsPlan_toNormal hs)
      · exact graceKept_answer _ _ _ _ _ hs
  case testLimit =>
    cases hx
    refine whenSet_keeps (fun s hs => ?_) hs
    unfold endTestIfDue
    split
    · exact graceKept_changeMode _ _ keepsPlan_toNormal hs
    · exact hs
  case sale =>
    cases hx
    refine whenRunning_keeps (fun s hs => ?_) hs
    split
    · exact graceKept_frame (fun _ hs => hs) hs
    · exact graceKept_frame (graceKept_takeSale _ _ _) hs
  case logPruning =>
    cases hx
    exact whenSet_keeps (fun s hs => graceKept_easePressure _ (graceKept_reads.frame (onSales_frame s _) (by decide) hs)) hs
  case boxOut =>
    cases hx
    refine whenRunning_keeps (fun s hs => graceKept_frame (fun s hs => ?_) hs) hs
    split
    · exact graceKept_of_tracks (graceTracks_takeBox (graceTracks_refl hs) _ _)
    · exact graceKept_line _ _ _ _ hs
  case boxIn =>
    cases hx
    refine whenRunning_keeps (fun s hs => graceKept_frame (fun s hs => ?_) hs) hs
    split
    · exact graceKept_line _ _ _ _ hs
    · exact graceKept_of_tracks (graceTracks_putBox (graceTracks_refl hs) (graceDown_refl hs) _ _)
  case openRound =>
    cases hx
    refine graceKept_command (fun s hs => ?_) hs
    split
    · exact graceKept_answer _ _ _ _ _ hs
    · split
      · exact graceKept_answer _ _ _ _ _ hs
      · exact graceKept_answer _ _ _ _ _ (graceKept_latch _ _ (graceKept_clearZone _ _
          (graceKept_reads.frame (onCash_frame s _) (by decide) hs)))
  case roundLapse =>
    cases hx
    refine whenSet_keeps (fun s hs => ?_) hs
    unfold lapseIfDue
    split
    · exact hs
    · split
      · exact graceKept_latch _ _ (graceKept_raiseZone _ _ _ (graceKept_reads.frame (onCash_frame s _) (by decide) hs))
      · exact hs
  case countResult =>
    cases hx
    refine graceKept_command (source := .office) (fun s hs => ?_) hs
    split
    · exact graceKept_answer _ _ _ _ _ hs
    · dsimp only
      refine graceKept_answer _ _ _ _ _ ?_
      split
      · exact graceKept_reads.frame (onCash_frame s _) (by decide) hs
      · exact graceKept_raise _ _ _ _ (graceKept_reads.frame (onCash_frame s _) (by decide) hs)
  case fault =>
    cases hx
    refine whenRunning_keeps (fun s hs => ?_) hs
    split
    · exact graceKept_frame (fun _ hs => hs) hs
    · exact graceKept_frame (fun s hs => graceKept_line _ _ _ _ (graceKept_report s _ _ _ hs)) hs
  case lineSilence => cases hx; exact whenSet_keeps (fun s hs => graceKept_silence s _ hs) hs
  case graceTailEnd => cases hx; exact whenSet_keeps (fun s hs => graceKept_endTail s _ hs) hs
  case ackFault =>
    cases hx
    refine graceKept_command (source := .office) (fun s hs => ?_) hs
    split
    · exact hs
    · split
      · exact graceKept_answer _ _ _ _ _ (graceKept_acknowledge _ _ (by assumption) hs)
      · exact graceKept_answer _ _ _ _ _ hs
  case clearFault =>
    cases hx
    refine graceKept_command (fun s hs => ?_) hs
    split
    · exact hs
    · split
      · exact graceKept_answer _ _ _ _ _ hs
      · split
        · exact graceKept_answer _ _ _ _ _ hs
        · exact graceKept_answer _ _ _ _ _ (graceKept_clearNamed _ _ hs)
  all_goals exact graceKept_reads.exec hx (by simp [partsOf]) hs

theorem graceKept_alone (s t : State) (hs : graceKept s) : WorksAlone s t → graceKept t :=
  graceKept_reads.alone (by decide) graceKept_clock.tick hs

/-- Settles O6: grace follows every change that a command makes, and what the part does alone makes none. -/
theorem graceStaysTrue : Obligations.GraceStaysTrue :=
  step_keeps exec_graceKept (fun _ _ _ hs => hs) graceKept_alone

/-! ## The state after a cold start -/

/-- Settles O8: every list is empty, no box is PRESENT, no plan is unserved, and nothing is owed. -/
theorem coldStateMeetsInvariants : Obligations.ColdStateMeetsInvariants := by
  unfold Obligations.ColdStateMeetsInvariants
  have hcold : State.reset = coldStart State.reset := rfl
  rw [hcold]
  exact ⟨⟨overridesKept_clock.cold _, permitsKept_clock.cold _, badgesKept_clock.cold _, (salesKept_clock.cold _).1,
    (salesKept_clock.cold _).2, liftsKept_clock.cold _⟩, boxesKept_clock.cold _, graceKept_clock.cold _, portsKept_clock.cold _⟩

end Sys2Proof.Proofs
end

section
/-!
PROOFS. A held bank keeps its contents (O9): what each operation of the book store leaves of the banks and their held marks.
-/
namespace Sys2Proof.Proofs
open Sys2Proof Sys2Proof.Machine

/-! ## Banks and held marks -/

@[simp] theorem bank_setHeld (b : BookStore) (i j : BankId) (x : Bool) : (b.setHeld i x).bank j = b.bank j := by
  cases i <;> rfl

theorem isHeld_setHeld (b : BookStore) (i j : BankId) (x : Bool) : (b.setHeld i x).isHeld j = if j = i then x else b.isHeld j := by
  cases i <;> cases j <;> rfl

theorem bank_setBank (b : BookStore) (i j : BankId) (k : Book) : (b.setBank i k).bank j = if j = i then k else b.bank j := by
  cases i <;> cases j <;> rfl

@[simp] theorem isHeld_setBank (b : BookStore) (i j : BankId) (k : Book) : (b.setBank i k).isHeld j = b.isHeld j := by
  cases i <;> rfl

theorem other_ne (i : BankId) : i ≠ i.other := by cases i <;> decide

/-- The banks of a view. -/
def inView (v : View) (id : BankId) : Prop := id = v.active ∨ ∃ day, v.staged = some (id, day)

theorem isHeld_hold (b : BookStore) (v : View) (id : BankId) : (b.hold v).isHeld id = true ↔ b.isHeld id = true ∨ inView v id := by
  unfold BookStore.hold inView
  cases v.staged with
  | none =>
    rw [isHeld_setHeld]
    by_cases hj : id = v.active <;> simp [hj]
  | some x =>
    obtain ⟨k, day⟩ := x
    rw [isHeld_setHeld, isHeld_setHeld]
    by_cases hj : id = k
    · simp [hj]
    · by_cases ha : id = v.active <;> simp [hj, ha, Ne.symm hj]

theorem bank_hold (b : BookStore) (v : View) (id : BankId) : (b.hold v).bank id = b.bank id := by
  unfold BookStore.hold
  split <;> simp

/-- The holds of a view cleared, before a bank that this frees is released. -/
def freed (b : BookStore) (v : View) : BookStore :=
  match v.staged with
  | none => b.setHeld v.active false
  | some (id, _) => (b.setHeld v.active false).setHeld id false

theorem clearHolds_eq (b : BookStore) (v : View) : b.clearHolds v = (freed b v).releaseUnheld := rfl

theorem isHeld_freed (b : BookStore) (v : View) (id : BankId) : (freed b v).isHeld id = true ↔ b.isHeld id = true ∧ ¬ inView v id := by
  unfold freed inView
  cases v.staged with
  | none =>
    dsimp only
    rw [isHeld_setHeld]
    by_cases hj : id = v.active <;> simp [hj]
  | some x =>
    obtain ⟨k, day⟩ := x
    dsimp only
    rw [isHeld_setHeld, isHeld_setHeld]
    by_cases hj : id = k
    · simp [hj]
    · by_cases ha : id = v.active <;> simp [hj, ha, Ne.symm hj]

/-- Two stores alike but for their held marks. -/
def marksOnly (b c : BookStore) : Prop := c = { b with heldX := c.heldX, heldY := c.heldY }

theorem marksOnly_setHeld (b : BookStore) (id : BankId) (x : Bool) : marksOnly b (b.setHeld id x) := by
  cases id <;> rfl

theorem marksOnly.trans {b c d : BookStore} (h : marksOnly b c) (k : marksOnly c d) : marksOnly b d := by
  unfold marksOnly at *
  rw [k, h]

theorem marksOnly.bank {b c : BookStore} (h : marksOnly b c) (id : BankId) : c.bank id = b.bank id := by
  rw [h]
  cases id <;> rfl

theorem marksOnly_freed (b : BookStore) (v : View) : marksOnly b (freed b v) := by
  unfold freed
  split
  · exact marksOnly_setHeld ..
  · exact (marksOnly_setHeld ..).trans (marksOnly_setHeld ..)

theorem marksOnly_hold (b : BookStore) (v : View) : marksOnly b (b.hold v) := by
  unfold BookStore.hold
  split
  · exact marksOnly_setHeld ..
  · exact (marksOnly_setHeld ..).trans (marksOnly_setHeld ..)

@[simp] theorem isHeld_release (b : BookStore) (id : BankId) : b.release.isHeld id = b.isHeld id := by
  cases id
  · exact isHeld_setBank b b.stagedId .x Book.empty
  · exact isHeld_setBank b b.stagedId .y Book.empty

theorem release_active (b : BookStore) : b.release.active = b.active := by
  show (b.setBank b.stagedId Book.empty).active = b.active
  cases b.stagedId <;> rfl

theorem isHeld_releaseUnheld (b : BookStore) (id : BankId) : b.releaseUnheld.isHeld id = b.isHeld id := by
  unfold BookStore.releaseUnheld
  split
  · exact isHeld_release b id
  · rfl

theorem bank_release (b : BookStore) (id : BankId) : b.release.bank id = if id = b.stagedId then Book.empty else b.bank id := by
  rw [← bank_setBank]
  cases id <;> rfl

theorem isHeld_clearHolds (b : BookStore) (v : View) (id : BankId) :
    (b.clearHolds v).isHeld id = true ↔ b.isHeld id = true ∧ ¬ inView v id := by
  rw [clearHolds_eq, isHeld_releaseUnheld, isHeld_freed]

theorem inView_view (b : BookStore) (id : BankId) : inView b.view id ↔ id = b.active ∨ (b.stagedState = .armed ∧ id = b.stagedId) := by
  unfold inView BookStore.view
  by_cases ha : b.stagedState = .armed
  · simp [ha, eq_comm (a := id)]
  · simp [ha]

theorem inView_view_or (b : BookStore) (id : BankId) :
    inView b.view id ↔ id = b.active ∨ b.stagedState = .armed := by
  rw [inView_view]
  constructor
  · rintro (h | ⟨h, -⟩)
    · exact .inl h
    · exact .inr h
  · rintro (h | h)
    · exact .inl h
    · unfold BookStore.stagedId
      cases id <;> cases hb : b.active <;> simp [h, BankId.other]

/-- The second half of R21 and R36, for a store and a view by themselves. -/
theorem clearHolds_spec (b : BookStore) (id : BankId) (v : View) :
    let c := b.clearHolds v
    (c.isHeld id = true ↔ b.isHeld id = true ∧ id ≠ v.active ∧ ∀ day, v.staged ≠ some (id, day)) ∧
      c.activeBook = b.activeBook ∧
      (b.retired = true → c.isHeld b.active.other = false →
        c = { b.setStaged Book.empty with
          heldX := c.heldX, heldY := c.heldY, retired := false, stagedState := .empty, check := CheckRecord.none }) ∧
      ((b.retired = false ∨ c.isHeld b.active.other = true) → c = { b with heldX := c.heldX, heldY := c.heldY }) := by
  have hfreed := marksOnly_freed b v
  have hactive : (freed b v).active = b.active := by rw [hfreed]
  have hretired : (freed b v).retired = b.retired := by rw [hfreed]
  have hheld : (freed b v).isHeld b.active.other = (b.clearHolds v).isHeld b.active.other := by
    rw [clearHolds_eq, isHeld_releaseUnheld]
  have hreleased : b.retired = true → (b.clearHolds v).isHeld b.active.other = false → b.clearHolds v = (freed b v).release := fun hr hh => by
    rw [clearHolds_eq, BookStore.releaseUnheld, if_pos]
    rw [hretired, hr, BookStore.stagedHeld, BookStore.stagedId, hactive, hheld, hh]
    rfl
  have hstays : (b.retired = false ∨ (b.clearHolds v).isHeld b.active.other = true) → b.clearHolds v = freed b v := fun h => by
    rw [clearHolds_eq, BookStore.releaseUnheld, if_neg]
    rw [hretired, BookStore.stagedHeld, BookStore.stagedId, hactive, hheld]
    rcases h with h | h <;> simp [h]
  have hbank : (freed b v).bank b.active = b.bank b.active := hfreed.bank b.active
  refine ⟨?_, ?_, fun hr hh => ?_, fun h => ?_⟩
  · rw [isHeld_clearHolds]
    simp [inView]
  · by_cases h : b.retired = true ∧ (b.clearHolds v).isHeld b.active.other = false
    · have hact : (b.clearHolds v).active = b.active := by
        rw [hreleased h.1 h.2, ← hactive]
        exact release_active _
      unfold BookStore.activeBook
      rw [hact, hreleased h.1 h.2, bank_release, if_neg, hbank]
      rw [BookStore.stagedId, hactive]
      exact other_ne _
    · have hs := hstays (by simpa [Classical.or_iff_not_imp_left] using h)
      unfold BookStore.activeBook
      rw [hs, hactive, hbank]
  · obtain ⟨x, y, hxy⟩ : ∃ x y, freed b v = { b with heldX := x, heldY := y } := ⟨_, _, hfreed⟩
    rw [hreleased hr hh, hxy]
    cases hb : b.active <;> simp [BookStore.release, BookStore.setStaged, BookStore.stagedId, BookStore.setBank, BankId.other, hb]
  · rw [hstays h]
    exact hfreed

/-! ## Steps that take no hold away and change no held bank -/

/-- The held marks stay, and so does every held bank. -/
def heldStays (b c : BookStore) : Prop := ∀ id, c.isHeld id = b.isHeld id ∧ (b.isHeld id = true → c.bank id = b.bank id)

theorem heldStays.refl (b : BookStore) : heldStays b b := fun _ => ⟨rfl, fun _ => rfl⟩

theorem heldStays.trans {b c d : BookStore} (h : heldStays b c) (k : heldStays c d) : heldStays b d := fun id =>
  ⟨(k id).1.trans (h id).1, fun hb => ((k id).2 ((h id).1.trans hb)).trans ((h id).2 hb)⟩

/-- Another store with the same banks and marks. -/
theorem heldStays_of {b c : BookStore} (hbank : ∀ id, c.bank id = b.bank id) (hheld : ∀ id, c.isHeld id = b.isHeld id) : heldStays b c :=
  fun id => ⟨hheld id, fun _ => hbank id⟩

/-- The staged bank written while no walk holds it. -/
theorem heldStays_staged {b c : BookStore} {k : Book} (hfree : b.stagedHeld = false)
    (hbank : ∀ id, c.bank id = (b.setStaged k).bank id) (hheld : ∀ id, c.isHeld id = b.isHeld id) : heldStays b c := fun id => by
  refine ⟨hheld id, fun h => ?_⟩
  rw [hbank, show b.setStaged k = b.setBank b.stagedId k from rfl, bank_setBank, if_neg]
  rintro rfl
  exact absurd h (by rw [show b.isHeld b.stagedId = false from hfree]; simp)

theorem heldStays_activated (b : BookStore) : heldStays b b.activated := by
  have hemptied : heldStays b (if b.isHeld b.active then b else b.setBank b.active Book.empty) := by
    split
    · exact .refl b
    · rename_i hheld
      refine fun id => ⟨isHeld_setBank .., fun hi => ?_⟩
      rw [bank_setBank, if_neg]
      rintro rfl
      exact hheld hi
  intro id
  cases id
  · exact hemptied .x
  · exact hemptied .y

/-- What a step with no walk in it leaves: no bank held, as after a restart, or every held bank and mark. -/
def heldOrNone (b : BookStore) (s : State) : Prop := (∀ id, s.books.isHeld id = false) ∨ heldStays b s.books

theorem heldOrNone.trans {b : BookStore} {s t : State} (hs : heldOrNone b s) (h : heldStays s.books t.books) : heldOrNone b t :=
  hs.imp (fun hnone id => ((h id).1.trans (hnone id))) fun hb => hb.trans h

theorem heldOrNone_reads (b : BookStore) : ReadsOnly [.books] (heldOrNone b) := fun s t h hs => by
  unfold heldOrNone at *
  rwa [show t.books = s.books from h .books (by simp)]

theorem handOver_heldStays (isDay isHour : Bool) (s : State) : heldStays s.books (handOver isDay isHour s).books := by
  obtain ⟨-, -, -, hbooks, -⟩ := handOver_done isDay isHour s
  rw [hbooks]
  split
  · exact heldStays_activated _
  · exact .refl _

theorem warm_unheld (b : BookStore) (id : BankId) : b.warm.isHeld id = false := by
  have hfree : ({ b with heldX := false, heldY := false } : BookStore).releaseUnheld.isHeld id = false := by
    rw [isHeld_releaseUnheld]
    cases id <;> rfl
  unfold BookStore.warm
  dsimp only
  split
  · cases id <;> exact hfree
  · exact hfree

theorem heldOrNone_clock (b : BookStore) : KeptByClock (heldOrNone b) where
  clock s f _ := (heldOrNone_reads b).frame (onClock_frame s f) (by decide)
  raiseZone s k d := (heldOrNone_reads b).frame (raiseZone_frame s k d) (by decide)
  clearZone s k := (heldOrNone_reads b).frame (clearZone_frame s k) (by decide)
  latch s n := (heldOrNone_reads b).frame (latch_frame s n) (by decide)
  quotes s := (heldOrNone_reads b).frame (cancelAllQuotes_frame s) (by decide)
  marks s := (heldOrNone_reads b).frame (markForStep_frame s) (by decide)
  handOver s isDay isHour hs := hs.trans (handOver_heldStays isDay isHour s)
  warm s _ _ := .inl (warm_unheld s.books)
  cold _ := .inl fun id => by cases id <;> rfl
  pins s pins := (heldOrNone_reads b).frame (pinsUpdate_frame s pins) (by decide)

theorem minuteBoundary_heldStays (s : State) : heldStays s.books (minuteBoundary s).books := by
  unfold minuteBoundary
  split
  · exact .refl _
  · split
    · rw [overflow_books]
      exact .refl _
    · dsimp only
      split
      · exact handOver_heldStays _ _ (onClock Clock.handOn (onClock Clock.advanced s))
      · exact .refl _

theorem tick_heldStays (s : State) : heldStays s.books (tick s).books := by
  unfold tick
  split
  · exact .refl _
  · split
    · exact .refl _
    · exact minuteBoundary_heldStays s

/-! ## The commands -/

section
variable {b : BookStore} {s : State}

theorem heldOrNone_answer (id : PortId) (tag : Tag) (st : Status) (body : Body) (hs : heldOrNone b s) :
    heldOrNone b (answerPort id tag st body s) := (heldOrNone_reads b).frame (answerPort_frame s id tag st body) (by decide) hs

theorem heldOrNone_command {tag : Tag} {ok : Bool} {act : State → State} (hact : heldOrNone b s → heldOrNone b (act s))
    (hs : heldOrNone b s) : heldOrNone b (officeCommand tag ok act s) :=
  takeCommand_keeps (source := .office) tag ok .any ((heldOrNone_clock b).latch s)
    (fun _ st body hu _ => heldOrNone_answer .office tag st body hu) (fun _ _ => hact) hs

/-- A load writes the staged bank, which no walk holds (R22). -/
theorem heldOrNone_load {α : Type} (tag : Tag) (part : Option α) (further : Book → α → Except Status Book) (hs : heldOrNone b s) :
    heldOrNone b (load tag part further s) := by
  unfold load
  split
  · exact heldOrNone_answer _ _ _ _ hs
  · rename_i hrefusal
    have hfree : s.books.stagedHeld = false := by
      unfold BookStore.loadRefusal at hrefusal
      split_ifs at hrefusal
      simpa using ‹¬s.books.stagedHeld = true›
    split
    · exact heldOrNone_answer _ _ _ _ hs
    · split
      · exact heldOrNone_answer _ _ _ _ hs
      · exact heldOrNone_answer _ _ _ _ (hs.trans (heldStays_staged hfree (fun id => by cases id <;> rfl)
          fun id => (by cases id <;> rfl : _ = (s.books.setStaged _).isHeld id).trans (isHeld_setBank ..)))

/-- Every command without a walk in it. -/
theorem exec_heldOrNone (c : Instr) (s t : State) (hc : asksEngine c = false) (hx : exec c s = .next t) : heldOrNone s.books t := by
  have hs : heldOrNone s.books s := .inr (.refl _)
  cases c
  case minuteBoundary | powerUp | nresetRelease | commandedRestart | portReplyEnd | setClock =>
    exact (heldOrNone_clock _).commands (fun s _ _ _ _ => heldOrNone_answer _ _ _ _)
      (fun s _ => (heldOrNone_reads _).frame (onPorts_frame s _) (by decide)) hx hs rfl
  case loadPlan | loadDay | loadLadder | loadCalendar | copyActive =>
    cases hx; exact heldOrNone_command (heldOrNone_load _ _ _) hs
  case clearStaged =>
    cases hx
    refine heldOrNone_command (fun hs => ?_) hs
    split
    · exact heldOrNone_answer _ _ _ _ hs
    · split
      · exact heldOrNone_answer _ _ _ _ hs
      · split
        · exact heldOrNone_answer _ _ _ _ hs
        · rename_i hheld
          split
          · exact heldOrNone_answer _ _ _ _ hs
          · exact heldOrNone_answer _ _ _ _ (hs.trans (heldStays_staged (k := Book.empty) (by simpa using hheld)
              (fun id => by cases id <;> rfl)
              fun id => (by cases id <;> rfl : _ = (s.books.setStaged Book.empty).isHeld id).trans (isHeld_setBank ..)))
  case armBook =>
    cases hx
    refine heldOrNone_command (fun hs => ?_) hs
    split
    · exact heldOrNone_answer _ _ _ _ hs
    · exact heldOrNone_answer _ _ _ _ (hs.trans (heldStays_of (fun id => by cases id <;> rfl) fun id => by cases id <;> rfl))
  case disarmBook =>
    cases hx
    refine heldOrNone_command (fun hs => ?_) hs
    split
    · exact heldOrNone_answer _ _ _ _ (hs.trans (t := resetBookChangeAll (onBooks BookStore.disarm s))
        (heldStays_of (fun id => by cases id <;> rfl) fun id => by cases id <;> rfl))
    · exact heldOrNone_answer _ _ _ _ hs
  case bookCheckComplete =>
    cases hx
    refine whenRunning_keeps (fun u hu => ?_) hs
    split
    · dsimp only
      split
      · exact hu.trans (heldStays_of (fun id => by cases id <;> rfl) fun id => by cases id <;> rfl)
      · exact hu.trans (heldStays_of (fun id => by cases id <;> rfl) fun id => by cases id <;> rfl)
    · exact hu
  case bookActivation =>
    cases hx
    refine whenSet_keeps (fun u hu => ?_) hs
    unfold activateIfDue
    split
    · exact hu.trans (heldStays_activated u.books)
    · exact hu
  case quote | price | previewQuote | walkBegin | walkComplete => cases hc
  all_goals exact (heldOrNone_reads _).exec hx (by simp [partsOf]) hs

end

/-! ## Walks -/

/-- The store as it was, or with the banks of the view it gives held. -/
def heldAnew (b c : BookStore) : Prop := c = b ∨ c = b.hold b.view

theorem marksOnly.ext {b c d : BookStore} (hc : marksOnly b c) (hd : marksOnly b d) (h : ∀ id, c.isHeld id = d.isHeld id) : c = d := by
  have hx : c.heldX = d.heldX := h .x
  have hy : c.heldY = d.heldY := h .y
  rw [hc, hd, hx, hy]

theorem marksOnly.view {b c : BookStore} (h : marksOnly b c) : c.view = b.view := by
  rw [h]
  rfl

theorem hold_hold (b : BookStore) : (b.hold b.view).hold (b.hold b.view).view = b.hold b.view := by
  have hheld := marksOnly_hold b b.view
  rw [hheld.view]
  refine (hheld.trans (marksOnly_hold _ _)).ext hheld fun id => ?_
  rw [Bool.eq_iff_iff, isHeld_hold]
  exact or_iff_left_of_imp fun hv => (isHeld_hold b b.view id).mpr (.inr hv)

theorem heldAnew.bank {b c : BookStore} (h : heldAnew b c) (id : BankId) : c.bank id = b.bank id := by
  rcases h with rfl | rfl
  · rfl
  · exact bank_hold b _ id

theorem walkOf_view (s : State) (i : Fin 17) (r : WalkRequest) : (walkOf s i r).view = s.books.view := by
  unfold walkOf
  split <;> rfl

section
variable {b : BookStore}

theorem heldAnew_reads : ReadsOnly [.books] fun s => heldAnew b s.books := fun s t h hs => by
  have hbooks : t.books = s.books := h .books (by simp)
  dsimp only at *
  rwa [hbooks]

theorem heldAnew_arbiter : KeptByArbiter fun s => heldAnew b s.books where
  frame _ _ h := heldAnew_reads.frame h (by decide)
  start s i r hs := by
    rw [startWalk_books, walkOf_view]
    rcases hs with hs | hs
    · exact .inr (by rw [onEngine_books, hs])
    · exact .inr (by rw [onEngine_books, hs, hold_hold])
  heard s n := heldAnew_reads.frame (heard_frame s n) (by decide)
  counted s n := heldAnew_reads.frame (countDiscard_frame s n) (by decide)
  refresh s number := heldAnew_reads.frame (refreshPermit_frame s number) (by decide)
  deliver s w o := heldAnew_reads.frame (deliver_frame s w o) (by decide)
  defer s id := heldAnew_reads.frame (deferAnswer_frame s id) (by decide)
  answer s id tag st body := heldAnew_reads.frame (answerPort_frame s id tag st body) (by decide)

end

/-- A held bank that stays held keeps its contents. -/
def keepsHeld (b c : BookStore) : Prop := ∀ id, b.isHeld id = true → c.isHeld id = true → c.bank id = b.bank id

theorem heldOrNone.keepsHeld {b : BookStore} {t : State} (h : heldOrNone b t) : keepsHeld b t.books := fun id hb ht => by
  rcases h with h | h
  · rw [h id] at ht
    cases ht
  · exact (h id).2 hb

/-- A released bank is not taken into the next view: its book is EMPTY, and it is not the active one. -/
theorem keepsHeld_cleared {b c : BookStore} (v : View) (h : heldAnew (b.clearHolds v) c) : keepsHeld b c := by
  intro id hb hc
  rw [h.bank]
  obtain ⟨-, -, hreleased, hstays⟩ := clearHolds_spec b id v
  by_cases hr : b.retired = true ∧ (b.clearHolds v).isHeld b.active.other = false
  · have heq := hreleased hr.1 hr.2
    have hactive : (b.clearHolds v).active = b.active := by
      rw [heq]
      cases hb : b.active <;> simp [BookStore.setStaged, BookStore.stagedId, BookStore.setBank, BankId.other, hb]
    have hne : id ≠ b.stagedId := by
      rintro rfl
      have hfree : (b.clearHolds v).isHeld b.stagedId = false := hr.2
      rcases h with rfl | rfl
      · rw [hfree] at hc
        cases hc
      · rcases (isHeld_hold _ _ _).mp hc with hc | hc
        · rw [hfree] at hc
          cases hc
        · rcases (inView_view_or _ _).mp hc with hc | hc
          · rw [hactive] at hc
            exact other_ne b.active hc.symm
          · rw [heq] at hc
            cases hc
    rw [heq]
    have hbank : (b.setStaged Book.empty).bank id = b.bank id := by
      rw [show b.setStaged Book.empty = b.setBank b.stagedId Book.empty from rfl, bank_setBank, if_neg hne]
    rw [← hbank]
    cases id <;> rfl
  · rw [hstays (by simpa [Classical.or_iff_not_imp_left] using hr)]
    cases id <;> rfl

theorem exec_keepsHeld (c : Instr) (s t : State) (hx : exec c s = .next t) : keepsHeld s.books t.books := by
  cases hc : asksEngine c
  · exact (exec_heldOrNone c s t hc hx).keepsHeld
  · cases c
    case quote | price | previewQuote | walkBegin =>
      exact fun id _ _ => (heldAnew_arbiter.exec hx (.inl rfl) rfl).bank id
    case walkComplete =>
      cases hx
      unfold whenRunning
      split
      · dsimp only
        split
        · exact fun _ _ _ => rfl
        · rename_i w _
          have hran : (runStages walkFuel s w).1.books = s.books := runStages_frame s walkFuel w .books (by decide)
          have hcleared : heldAnew ((runStages walkFuel s w).1.books.clearHolds w.view)
              (completeWalk w (runStages walkFuel s w).2 (runStages walkFuel s w).1).books :=
            heldAnew_arbiter.chooseWalk (heldAnew_reads.frame (deliver_frame _ w _) (by decide) (.inl rfl))
          rw [hran] at hcleared
          exact keepsHeld_cleared w.view hcleared
      · exact fun _ _ _ => rfl
    all_goals cases hc

theorem alone_heldStays {s t : State} (h : WorksAlone s t) : heldStays s.books t.books := by
  rcases h.frame with hf | rfl
  · exact heldStays_of (fun id => by rw [hf .books (by decide)]) fun id => by rw [hf .books (by decide)]
  · exact tick_heldStays s

/-- Settles O9: a command keeps every held bank that stays held, and what the part does alone touches no bank that is held. -/
theorem heldBanksStay : Obligations.HeldBanksStay := by
  refine ⟨fun s t id hstep hs ht => ?_, fun b id => ⟨?_, fun v => clearHolds_spec b id v⟩⟩
  · unfold step at hstep
    split at hstep
    · exact exec_keepsHeld _ { s with pending := _ } t hstep id hs ht
    · obtain ⟨wire, halone⟩ := arrival_worksAlone s
      have hstays := alone_heldStays halone
      split at hstep
      · rename_i heq
        rw [heq] at hstays
        exact (exec_keepsHeld _ _ t hstep id ((hstays id).1.trans hs) ht).trans ((hstays id).2 hs)
      · rename_i heq
        rw [heq] at hstays
        cases hstep
        exact (hstays id).2 hs
  · rw [isHeld_hold, inView_view_or]

end Sys2Proof.Proofs
end

section
/-!
PROOFS. The zone clock: the minute boundary and the idle step (O10), SET_CLOCK (O11), the override table (O12, O13), and the removals
of a boundary as rows of their own (O14).
-/
namespace Sys2Proof.Proofs
open Sys2Proof Sys2Proof.Machine

/-! ## The count of CLKIN (R1) -/

theorem clockSet_of_set {s : State} (h : s.clock.state = .set) : clockSet s = true := by
  rw [clockSet_iff, h]

theorem step_idle {s : State} (hpending : s.pending = []) (hwire : s.wire = []) (hwalk : walkHasStage s = false)
    (hsearch : searchHasRead s = false) : step s = .next (tick s) := by
  unfold step arrival quietStep
  rw [hpending, hwire]
  simp [hwalk, hsearch]

theorem tick_of_unset {s : State} (h : s.clock.state = .unset) : tick s = s := by
  unfold tick
  rw [clockSet_of_unset h]
  rfl

theorem tick_within {s : State} (h : s.clock.state = .set) (hc : s.clock.subMinute + 1 < cyclesPerMinute) :
    tick s = { s with clock := { s.clock with subMinute := s.clock.subMinute + 1 } } := by
  unfold tick
  rw [clockSet_of_set h, if_pos hc]
  rfl

theorem tick_minute {s : State} (h : s.clock.state = .set) (hc : cyclesPerMinute ≤ s.clock.subMinute + 1) :
    tick s = minuteBoundary s := by
  unfold tick
  rw [clockSet_of_set h, if_neg (Nat.not_lt.mpr hc)]
  rfl

theorem minuteBoundary_of_unset {s : State} (h : s.clock.state = .unset) : minuteBoundary s = s := by
  unfold minuteBoundary
  rw [clockSet_of_unset h]
  rfl

/-- The boundary hands the advanced reading to the blocks (R2). -/
theorem minuteBoundary_advances {s : State} (hrun : running s = true) (h : s.clock.state = .set) (hlast : now s < lastReading) :
    minuteBoundary s = handOver (decide ((now s + 1) % 1440 = 0)) (decide ((now s + 1) % 60 = 0))
      { s with clock := { s.clock with reading := now s + 1, handed := now s + 1, subMinute := 0 } } := by
  unfold minuteBoundary
  rw [clockSet_of_set h, if_neg (by simp), if_neg (Nat.not_le.mpr hlast)]
  exact if_pos hrun

theorem minuteBoundary_overflows {s : State} (hrun : running s = true) (h : s.clock.state = .set) (hlast : now s = lastReading) :
    minuteBoundary s = raiseZone .clockUnset none (onClock (fun c => { c with state := .unset }) s) := by
  unfold minuteBoundary
  rw [clockSet_of_set h, if_neg (by simp), if_pos (Nat.le_of_eq hlast.symm)]
  exact if_pos hrun

/-- A raise of a zone kind, record by record. -/
theorem raiseZone_zone (k : ZoneFault) (d : Option Nat) (s : State) (i : Fin 4) :
    row (raiseZone k d s).faults.zone i = if i = k.index then (row s.faults.zone i).raised (now s) d else row s.faults.zone i := by
  rw [raiseZone_faults]
  dsimp only
  rw [row_put]
  split
  · rename_i hi
    rw [hi]
  · rfl

/-- Settles O10, by the equations of the count and of the boundary. -/
theorem clockCountsMinutes : Obligations.ClockCountsMinutes := by
  intro s
  refine ⟨fun hpending hwire hwalk hsearch => ?_, fun hrun hset hlast => ⟨_, rfl, ?_⟩, fun hrun hset hlast => ⟨_, rfl, ?_⟩,
    fun hunset => congrArg _ (minuteBoundary_of_unset hunset)⟩
  · rw [step_idle hpending hwire hwalk hsearch]
    exact ⟨fun h => congrArg _ (tick_of_unset h), fun h hc => congrArg _ (tick_within h hc), fun h hc => congrArg _ (tick_minute h hc)⟩
  · rw [minuteBoundary_advances hrun hset hlast]
    exact handOver_done _ _ _
  · rw [minuteBoundary_overflows hrun hset hlast]
    let u := onClock (fun c => { c with state := .unset }) s
    obtain ⟨hlatch, -⟩ := raiseZone_latches .clockUnset none u
    refine ⟨((onClock_frame s _).trans (raiseZone_frame _ _ _)).mono (by decide), raiseZone_frame u _ _ .clock (by decide), ?_, hlatch,
      ?_, ?_, fun k hk => ?_⟩
    · exact raiseZone_zone .clockUnset none u 0
    · rw [raiseZone_faults]; rfl
    · rw [raiseZone_faults]; rfl
    · exact (raiseZone_zone .clockUnset none u k).trans (if_neg hk)

/-! ## SET_CLOCK (R4, R5) -/

/-- The state in which SET_CLOCK hands over: the clock set, CLOCK_UNSET cleared, the quotes cancelled, the walk marked. -/
def steppedTo (z : ZoneMinute) (s : State) : State :=
  markForStep (cancelAllQuotes (clearZone .clockUnset (onClock (fun c => c.setTo z) s)))

theorem setClock_eq (z : ZoneMinute) (s : State) :
    setClock z s = handOver (stepIsDay s z) (stepIsHour s z) (steppedTo z s) := rfl

theorem dayOf_zoneMinute {day minute : Nat} (hm : minute ≤ 1439) : dayOf (day * 1440 + minute) = day := by
  unfold dayOf minutesPerDay
  omega

theorem timeInRange_iff (day minute : Nat) : timeInRange day minute = true ↔ day ≤ 65535 ∧ minute ≤ 1439 := by
  unfold timeInRange
  rw [decide_eq_true_eq]

theorem stepIsDay_eq (s : State) {day minute : Nat} (hm : minute ≤ 1439) :
    stepIsDay s (day * 1440 + minute) = decide (s.clock.state = .unset ∨ day ≠ today s) := by
  unfold stepIsDay
  rw [dayOf_zoneMinute hm, Bool.eq_iff_iff]
  cases hc : s.clock.state <;> simp [clockSet, hc]

theorem marked_false (w : Walk) : w.marked false = { w with discard := true } := by
  unfold Walk.marked
  rw [Bool.or_false]

theorem setClock_quotes (z : ZoneMinute) (s : State) (n : Line) : row (setClock z s).quotes n = none :=
  handOver_quotes _ _ _ n (by simp [markForStep, onEngine, cancelAllQuotes])

/-- What SET_CLOCK has prepared when it hands over. -/
theorem steppedTo_spec (z : ZoneMinute) (s : State) :
    onlyChanges [.clock, .quotes, .engine, .faults, .notices] s (steppedTo z s) ∧
      (steppedTo z s).clock = { s.clock with state := .set, reading := z, handed := z, subMinute := 0 } ∧
      (steppedTo z s).engine.slots = s.engine.slots ∧ (steppedTo z s).engine.last = s.engine.last ∧
      (steppedTo z s).engine.walk = s.engine.walk.map (fun w => if w.slot = officeSlot then w else { w with discard := true }) ∧
      (steppedTo z s).faults = { s.faults with
        zone := put s.faults.zone 0 (if (row s.faults.zone 0).state = .clear then row s.faults.zone 0 else (row s.faults.zone 0).cleared z) } ∧
      (steppedTo z s).notices = (if (row s.faults.zone 0).state = .clear then s.notices else latchIn .faultCleared s.notices) := by
  have hengine : (clearZone .clockUnset (onClock (fun c => c.setTo z) s)).engine = s.engine := by
    rw [clearZone_engine]
    rfl
  refine ⟨((((onClock_frame s _).trans (clearZone_frame _ _)).trans (cancelAllQuotes_frame _)).trans (markForStep_frame _)).mono
    (by decide), ?_, ?_, ?_, ?_, ?_, ?_⟩
  · show (clearZone .clockUnset (onClock (fun c => c.setTo z) s)).clock = _
    rw [clearZone_clock]
    rfl
  · show (clearZone .clockUnset (onClock (fun c => c.setTo z) s)).engine.slots = _
    rw [hengine]
  · show (clearZone .clockUnset (onClock (fun c => c.setTo z) s)).engine.last = _
    rw [hengine]
  · show Option.map _ (clearZone .clockUnset (onClock (fun c => c.setTo z) s)).engine.walk = _
    rw [hengine]
    congr 1
    funext w
    rw [marked_false]
  · exact clearZone_faults .clockUnset (onClock (fun c => c.setTo z) s)
  · exact clearZone_notices .clockUnset (onClock (fun c => c.setTo z) s)

/-- Settles O11: the step is handed over from the state that SET_CLOCK has prepared. -/
theorem setClock : Obligations.SetClock := by
  intro tag day minute s ho
  have htaken : ∀ ok act, officeCommand tag ok act s = if ok = true then act s else answering s .office tag .badField .empty :=
    officeCommand_taken ho tag
  refine ⟨fun hday hminute => ?_, fun hbad => ?_⟩
  · have hrange : timeInRange day minute = true := (timeInRange_iff day minute).mpr ⟨hday, hminute⟩
    obtain ⟨hframe, hclock, hslots, hlast, hwalk, hfaults, hnotices⟩ := steppedTo_spec (day * 1440 + minute) s
    refine ⟨steppedTo (day * 1440 + minute) s, Machine.setClock (day * 1440 + minute) s, ?_, ?_, hframe, hclock, rfl, hslots, hlast, hwalk, hfaults,
      hnotices, ?_, setClock_quotes _ s⟩
    · show Host.Outcome.next (officeCommand tag _ _ s) = _
      rw [htaken, if_pos hrange, answerPort_eq]
      rfl
    · rw [setClock_eq, stepIsHour, stepIsDay_eq s hminute]
      have hhour : (hourOf (day * 1440 + minute) != hourOf (now s)) = decide ((day * 1440 + minute) / 60 ≠ now s / 60) := by
        rw [Bool.eq_iff_iff]
        simp [hourOf]
      rw [hhour]
      exact handOver_done _ _ _
    · rw [setClock_eq, handOver_ports]
      exact hframe .ports (by decide)
  · show Host.Outcome.next (officeCommand tag _ _ s) = _
    rw [htaken, if_neg]
    rw [timeInRange_iff]
    omega

/-! ## The override table (R9 to R11) -/

theorem exec_setOverride {s : State} (ho : officeTakes s) (tag : Tag) (day dt : Nat) : exec (.setOverride tag day dt) s = .next (
    match dayTypeOf dt with
    | none => answering s .office tag .badField (.overrides s.clock.overrides)
    | some t =>
      if 65535 < day ∨ day < today s then answering s .office tag .badField (.overrides s.clock.overrides)
      else if (lookup Override.day day s.clock.overrides).isNone && decide (8 ≤ s.clock.overrides.length) then
        answering s .office tag .full (.overrides s.clock.overrides)
      else answering { s with clock := { s.clock with overrides := upsert Override.day { day := day, dayType := t } s.clock.overrides } }
        .office tag .ok (.overrides (upsert Override.day { day := day, dayType := t } s.clock.overrides))) := by
  show Host.Outcome.next (officeCommand tag true _ s) = _
  rw [officeCommand_taken ho, if_pos rfl]
  simp only [answerOverrides, answerPort_eq]
  rfl

/-- A day resolves to the type its override has, under every book (R8). -/
theorem dayType_of_override {table : List Override} {day : Nat} {o : Override} (h : lookup Override.day day table = some o) (k : Book) :
    dayType table k day = o.dayType := by
  unfold dayType
  rw [h]

theorem dayType_without_override {table : List Override} {day : Nat} (h : lookup Override.day day table = none) (k : Book) :
    dayType table k day = match lookup CalendarEntry.day day k.calendar with
      | some e => e.dayType
      | none => weekday day := by
  unfold dayType
  rw [h] <;> rfl

/-- Settles O12, by the cases of the command and what `upsert` does to the table. -/
theorem setOverride : Obligations.SetOverride := by
  intro tag day dt s ho
  rw [exec_setOverride ho]
  refine ⟨fun hbad => ?_, fun hdt hday htoday hnone hfull => ?_, fun ty hdt hday htoday hroom => ?_⟩
  · by_cases hdt : dt < 9
    · rw [show dayTypeOf dt = some ⟨dt, hdt⟩ from rowIndex_some hdt]
      dsimp only
      rw [if_pos (by omega)]
    · rw [show dayTypeOf dt = none from dif_neg hdt]
  · rw [show dayTypeOf dt = some ⟨dt, by omega⟩ from rowIndex_some _]
    dsimp only
    rw [if_neg (by omega), if_pos (by simp [hnone, hfull])]
  · have htype : dayTypeOf dt = some ty := by rw [hdt]; exact rowIndex_some ty.isLt
    have hlookup := lookup_upsert_self Override.day { day := day, dayType := ty } s.clock.overrides
    refine ⟨upsert Override.day { day := day, dayType := ty } s.clock.overrides, ?_, hlookup,
      fun d hd => lookup_upsert_other _ _ _ hd, dayType_of_override hlookup, rising_upsert _ _⟩
    rw [htype]
    dsimp only
    rw [if_neg (by omega), if_neg]
    rcases hroom with hheld | hroom
    · simp [hheld]
    · simp [hroom]

theorem lookup_none_iff {α : Type} (key : α → Nat) (k : Nat) (l : List α) : lookup key k l = none ↔ ∀ x ∈ l, key x ≠ k := by
  simp [lookup]

theorem exec_dropOverride {s : State} (ho : officeTakes s) (tag : Tag) (day : Nat) : exec (.dropOverride tag day) s = .next (
    if 65535 < day then answering s .office tag .badField (.overrides s.clock.overrides)
    else if (lookup Override.day day s.clock.overrides).isNone then answering s .office tag .already (.overrides s.clock.overrides)
    else answering { s with clock := { s.clock with overrides := dropKey Override.day day s.clock.overrides } }
        .office tag .ok (.overrides (dropKey Override.day day s.clock.overrides))) := by
  show Host.Outcome.next (officeCommand tag true _ s) = _
  rw [officeCommand_taken ho, if_pos rfl]
  simp only [answerOverrides, answerPort_eq]
  rfl

/-- Settles O13, by the cases of the command; without its entry the day has no override. -/
theorem dropOverride : Obligations.DropOverride := by
  intro tag day s ho
  rw [exec_dropOverride ho]
  refine ⟨fun hbad => ?_, fun hday hnone => ?_, fun hday hheld => ?_⟩
  · rw [if_pos hbad]
  · rw [if_neg (Nat.not_lt.mpr hday), if_pos]
    rw [(lookup_none_iff _ _ _).mpr hnone]
    rfl
  · refine ⟨dropKey Override.day day s.clock.overrides, ?_, ?_, dayType_without_override (lookup_dropKey_self _ _ _)⟩
    · rw [if_neg (Nat.not_lt.mpr hday), if_neg]
      rw [Option.isNone_iff_eq_none, lookup_none_iff]
      simpa using hheld
    · unfold dropKey
      congr 1
      funext o
      rw [Bool.eq_iff_iff]
      simp

/-! ## The removals as rows of their own -/

theorem whenSet_run {s : State} {act : State → State} (hrun : running s = true) (hset : s.clock.state = .set) :
    whenRunning (fun s => if clockSet s then act s else s) s = act s := by
  rw [whenRunning_true hrun]
  exact if_pos (clockSet_of_set hset)

/-- The log as the pruning leaves it, before LOG_PRESSURE is judged (R106). -/
def prunedLog (s : State) : State := onSales (fun u => { u with log := u.log.filter fun r => !r.prunable (now s) }) s

theorem prunedLog_log (s : State) : (prunedLog s).sales.log = s.sales.log.filter fun r => decide (now s ≤ r.expiry + 1440) := by
  show s.sales.log.filter _ = _
  congr 1
  funext r
  unfold Session.prunable
  rw [Bool.eq_iff_iff]
  simp

/-- Settles O14, by the equations of the rows and the comparison of LOG_PRESSURE. -/
theorem dailyRemovals : Obligations.DailyRemovals := by
  intro s hrun hset
  refine ⟨?_, ?_, pruneLog s, ?_, ?_⟩
  · show Host.Outcome.next (whenRunning _ s) = _
    rw [whenSet_run hrun hset]
    rfl
  · show Host.Outcome.next (whenRunning _ s) = _
    rw [whenSet_run hrun hset]
    unfold removePermits Permit.runOut
    congr 3
    funext p
    rw [Bool.eq_iff_iff]
    simp
  · show Host.Outcome.next (whenRunning _ s) = _
    rw [whenSet_run hrun hset]
  · obtain ⟨hlog, htotals, hnext, hsequences, -, -, hpressure, heased, hkept⟩ := easePressure_spec (prunedLog s)
    have hadds := easePressure_adds (prunedLog s) .faultCleared
    have hpruned : (pruneLog s).sales.log = s.sales.log.filter fun r => decide (now s ≤ r.expiry + 1440) := hlog.trans (prunedLog_log s)
    have hlength : (prunedLog s).sales.log.length = (pruneLog s).sales.log.length := congrArg List.length hlog.symm
    refine ⟨pruneLog_frame s, hpruned, ?_, hnext, hsequences, htotals, fun hon hfew => ?_, fun hoff => ?_, ?_⟩
    · rw [← hlength]
      exact hpressure
    · show (row (easePressure (prunedLog s)).faults.zone 3).state = .clear
      rw [heased ⟨hon, hlength.trans_le hfew⟩, row_put_self, clearedNow]
      split
      · assumption
      · rfl
    · show (easePressure (prunedLog s)).faults = s.faults
      unfold easePressure
      rw [if_neg]
      · rfl
      · rw [show (prunedLog s).sales.pressure = s.sales.pressure from rfl, hoff]
        simp
    · refine latchedWhere_of_adds hadds ?_
      rw [hlength]
      show (decide _ && (s.sales.pressure && _ && (row s.faults.zone 3).standing)) = true ↔ _
      simp [standing_eq, and_assoc]

end Sys2Proof.Proofs
end

section
/-!
PROOFS. The book store: the loads and their refusals (O15, O16), arming, clearing and disarming (O17), the book check (O18, O19),
activation (O20) and reading a book (O21).
-/
namespace Sys2Proof.Proofs
open Sys2Proof Sys2Proof.Machine

/-! ## Loads (R22 to R27) -/

section
variable {α : Type} {s : State} (tag : Tag) {part : Option α} {further : Book → α → Except Status Book} {a : α}

/-- The state that a load has made, with its answer (R22). -/
def loadDone (s : State) (tag : Tag) (k : Book) : State :=
  answering { s with books := { s.books.setStaged k with stagedState := .editing, revision := s.books.revision + 1 } } .office tag .ok
    (.revision (s.books.revision + 1))

theorem load_done (hf : stagedFree s.books) {k : Book} (hpart : part = some a) (hk : further s.books.stagedBook a = .ok k) :
    load tag part further s = loadDone s tag k := by
  rw [load_eq hf, hpart]
  dsimp only
  rw [hk]
  rfl

theorem load_error (hf : stagedFree s.books) {st : Status} (hpart : part = some a) (hk : further s.books.stagedBook a = .error st) :
    load tag part further s = answering s .office tag st .empty := by
  rw [load_eq hf, hpart]
  dsimp only
  rw [hk]

theorem load_badField (hf : stagedFree s.books) (hpart : part = none) :
    load tag part further s = answering s .office tag .badField .empty := by
  rw [load_eq hf, hpart]

end

section
variable {s : State} (ho : officeTakes s) (tag : Tag)
include ho

theorem exec_loadPlan (part : PlanPart) :
    exec (.loadPlan tag part) s = .next (load tag (readPlan part) (fun k a => .ok (k.withPlan a.1 a.2)) s) :=
  congrArg _ ((officeCommand_taken ho ..).trans (if_pos rfl))

theorem exec_loadDay (part : DayPart) :
    exec (.loadDay tag part) s = .next (load tag (readDay part) (fun k a => k.withDay a.1 a.2.1 a.2.2) s) :=
  congrArg _ ((officeCommand_taken ho ..).trans (if_pos rfl))

theorem exec_loadLadder (part : LadderPart) :
    exec (.loadLadder tag part) s = .next (load tag (readLadder part) (fun k a => .ok (k.withLadder a.1 a.2)) s) :=
  congrArg _ ((officeCommand_taken ho ..).trans (if_pos rfl))

theorem exec_loadCalendar (part : CalendarPart) :
    exec (.loadCalendar tag part) s = .next (load tag (readCalendar part) (fun k a => k.withCalendar a) s) :=
  congrArg _ ((officeCommand_taken ho ..).trans (if_pos rfl))

theorem exec_copyActive : exec (.copyActive tag) s = .next (load tag (some ()) (fun _ _ =>
    if s.books.activeState == .inForce then .ok s.books.activeBook else .error .noPlan) s) :=
  congrArg _ ((officeCommand_taken ho ..).trans (if_pos rfl))

end

/-- LOAD-DAY of a present plan (R24). -/
theorem withDay_present {k : Book} {p : Fin 8} {plan : Plan} (h : row k.plans p = some plan) (t : Fin 9) (periods : List Period) :
    k.withDay p t periods =
      .ok { k with plans := put k.plans p (some { plan with patterns := put plan.patterns t (some periods) }) } := by
  unfold Book.withDay
  rw [h]

theorem withDay_absent {k : Book} {p : Fin 8} (h : row k.plans p = none) (t : Fin 9) (periods : List Period) :
    k.withDay p t periods = .error .noPlan := by
  unfold Book.withDay
  rw [h]

/-- Settles O15: each load writes its part of the staged book and keeps the rest. -/
theorem loadsChangeTheirPart : Obligations.LoadsChangeTheirPart := by
  intro tag s ho hf
  dsimp only
  refine ⟨fun part p header hpart => ?_, fun part p ty periods hpart => ⟨fun habsent => ?_, fun plan hplan => ?_⟩,
    fun part l steps hpart => ?_, fun part entries hpart => ⟨fun hrise => ?_, fun hfall => ?_⟩, fun hforce => ?_, fun hempty => ?_⟩
  · refine ⟨s.books.stagedBook.withPlan p header, ?_, rfl, rfl, fun q hq => row_change_other _ _ hq, ?_⟩
    · rw [exec_loadPlan ho, load_done tag hf hpart rfl]
      rfl
    · refine (row_change_self _ _ _).trans ?_
      cases row s.books.stagedBook.plans p <;> rfl
  · rw [exec_loadDay ho, load_error tag hf hpart (withDay_absent habsent _ _)]
  · refine ⟨{ s.books.stagedBook with
        plans := put s.books.stagedBook.plans p (some { plan with patterns := put plan.patterns ty (some periods) }) },
      ?_, rfl, rfl, fun q hq => row_put_other _ _ hq, { plan with patterns := put plan.patterns ty (some periods) },
      row_put_self _ _ _, rfl, row_put_self _ _ _, fun u hu => row_put_other _ _ hu⟩
    rw [exec_loadDay ho, load_done tag hf hpart (withDay_present hplan _ _)]
    rfl
  · refine ⟨s.books.stagedBook.withLadder l steps, ?_, rfl, rfl, row_put_self _ _ _, fun m hm => row_put_other _ _ hm⟩
    rw [exec_loadLadder ho, load_done tag hf hpart rfl]
    rfl
  · rw [exec_loadCalendar ho, load_done tag hf hpart (if_pos ((risesByDay_iff _).mpr hrise))]
    rfl
  · rw [exec_loadCalendar ho, load_error tag hf hpart (if_neg fun h => hfall ((risesByDay_iff _).mp h))]
  · rw [exec_copyActive ho, load_done tag hf rfl (if_pos (by rw [hforce]; rfl))]
    rfl
  · rw [exec_copyActive ho, load_error tag hf rfl (if_neg (by rw [hempty]; decide))]

/-- The refusals of R22, each with those before it excluded. -/
theorem loadRefusal_of {b : BookStore} {st : Status}
    (h : (b.retired = true ∧ st = .busy) ∨ (b.retired = false ∧ b.stagedState = .checking ∧ st = .busy) ∨
      (b.retired = false ∧ b.stagedState = .armed ∧ st = .armed) ∨
      (b.retired = false ∧ b.stagedState ≠ .checking ∧ b.stagedState ≠ .armed ∧ b.stagedHeld = true ∧ st = .busy)) :
    b.loadRefusal = some st := by
  unfold BookStore.loadRefusal
  rcases h with ⟨hr, rfl⟩ | ⟨hr, hc, rfl⟩ | ⟨hr, ha, rfl⟩ | ⟨hr, hc, ha, hh, rfl⟩
  · simp [hr]
  · simp [hr, hc]
  · simp [hr, ha]
  · simp [hr, hc, ha, hh]

/-- Settles O16: the store's refusal comes first, then the part's range. -/
theorem loadsRefusedInOrder : Obligations.LoadsRefusedInOrder := by
  intro tag s ho
  dsimp only
  refine ⟨fun st hst => ?_, fun hf => ⟨fun part hpart => ?_, fun part hpart => ?_, fun part hpart => ?_, fun part hpart => ?_⟩⟩
  · have hrefused := loadRefusal_of hst
    refine ⟨fun part => ?_, fun part => ?_, fun part => ?_, fun part => ?_, ?_⟩
    · rw [exec_loadPlan ho, load_refused tag _ _ st hrefused]
    · rw [exec_loadDay ho, load_refused tag _ _ st hrefused]
    · rw [exec_loadLadder ho, load_refused tag _ _ st hrefused]
    · rw [exec_loadCalendar ho, load_refused tag _ _ st hrefused]
    · rw [exec_copyActive ho, load_refused tag _ _ st hrefused]
  · rw [exec_loadPlan ho, load_badField tag hf hpart]
  · rw [exec_loadDay ho, load_badField tag hf hpart]
  · rw [exec_loadLadder ho, load_badField tag hf hpart]
  · rw [exec_loadCalendar ho, load_badField tag hf hpart]

/-! ## Arming, clearing, disarming (R28, R29, R34) -/

section
variable {s : State} (ho : officeTakes s) (tag : Tag)
include ho

/-- An office command without fields to check is its effect. -/
theorem office_next (act : State → State) : Host.Outcome.next (officeCommand tag true act s) = (.next (act s) : Answered) :=
  congrArg _ ((officeCommand_taken ho ..).trans (if_pos rfl))

theorem exec_armBook (day : Nat) : exec (.armBook tag day) s = .next (
    match armRefusal s.books (today s) day with
    | some r => answering s .office tag r .empty
    | none => answering { s with books := s.books.arm day } .office tag .ok .empty) := by
  refine (office_next ho tag _).trans (congrArg _ ?_)
  cases armRefusal s.books (today s) day <;> exact answerPort_eq ..

end

/-- Settles O17, branch by branch of the three commands. -/
theorem armClearAndDisarm : Obligations.ArmClearAndDisarm := by
  intro tag day s ho
  dsimp only
  refine ⟨?_, ?_, ?_⟩
  · rw [exec_armBook ho]
    refine congrArg _ ?_
    unfold armRefusal BookStore.arm
    simp only [beq_iff_eq, Bool.and_eq_true, decide_eq_true_eq, lastDay]
    split_ifs <;> rfl
  · refine (office_next ho tag _).trans (congrArg _ ?_)
    simp only [refuseOffice, answerPort_eq, beq_iff_eq]
    rfl
  · refine (office_next ho tag _).trans (congrArg _ ?_)
    simp only [refuseOffice, answerPort_eq, beq_iff_eq]
    rfl

end Sys2Proof.Proofs
end

section
/-! PROOFS. The rest of the book store's statements: the book check and its findings (O18), its completion (O19), the activation
(O20) and READ_BOOK (O21). -/

namespace Sys2Proof.Proofs
open Sys2Proof Sys2Proof.Machine

/-! ## What the book check finds (R30) -/

theorem mem_patternFindings (k : Book) (p : Fin 8) (plan : Plan) (t : Fin 9) (f : Finding) :
    f ∈ patternFindings k p plan t ↔ (row plan.patterns t = none ∧ f = .patternMissing p t) ∨
      ∃ periods, row plan.patterns t = some periods ∧ (f ∈ periodFinding p t periods ∨ f ∈ missingLadders k p t 1 periods) := by
  unfold patternFindings
  cases row plan.patterns t with
  | none => simp
  | some periods => simp

theorem mem_planFindings (k : Book) (p : Fin 8) (f : Finding) :
    f ∈ planFindings k p ↔ ∃ plan t, row k.plans p = some plan ∧ f ∈ patternFindings k p plan t := by
  unfold planFindings
  cases row k.plans p with
  | none => simp
  | some plan => simp

theorem mem_terminalFindings (k : Book) (table : Vector Entry 16) (f : Finding) :
    f ∈ terminalFindings k table ↔ ∃ n, (row table n).active = true ∧ row k.plans (row table n).plan = none ∧
      f = .planMissing (row table n).plan n := by
  unfold terminalFindings planPresent
  simp only [List.mem_flatMap, List.mem_finRange, true_and]
  refine exists_congr fun n => ?_
  cases row k.plans (row table n).plan <;> cases (row table n).active <;> simp

/-- The findings of the ladders that the book holds (R30 (i)). -/
def ladderFindings (k : Book) : List Finding :=
  (List.finRange 16).flatMap fun l =>
    match row k.ladders l with
    | none => []
    | some steps => ladderFinding l steps

theorem mem_ladderFindings (k : Book) (f : Finding) :
    f ∈ ladderFindings k ↔ ∃ l steps, row k.ladders l = some steps ∧ f ∈ ladderFinding l steps := by
  unfold ladderFindings
  simp only [List.mem_flatMap, List.mem_finRange, true_and]
  refine exists_congr fun l => ?_
  cases row k.ladders l <;> simp

theorem checkFindings_parts (k : Book) (table : Vector Entry 16) : checkFindings k table =
    ladderFindings k ++ (List.finRange 8).flatMap (planFindings k) ++ terminalFindings k table := rfl

theorem mem_checkFindings (k : Book) (table : Vector Entry 16) (f : Finding) :
    f ∈ checkFindings k table ↔ f ∈ ladderFindings k ∨ (∃ p, f ∈ planFindings k p) ∨ f ∈ terminalFindings k table := by
  rw [checkFindings_parts]
  simp

/-- Each finding of the check, whatever its part, is named by exactly the condition of R30. -/
theorem mem_checkFindings_iff (k : Book) (table : Vector Entry 16) (f : Finding) :
    f ∈ checkFindings k table ↔ findingHolds k table f := by
  simp only [mem_checkFindings, mem_ladderFindings, mem_planFindings, mem_patternFindings, mem_terminalFindings, mem_ladderFinding,
    mem_periodFinding, mem_missingLadders]
  cases f with
  | ladderOrder l i =>
    simp only [findingHolds, Finding.ladderOrder.injEq, reduceCtorEq, false_and, and_false, exists_false, or_false]
    constructor
    · rintro ⟨_, steps, hl, _, ⟨rfl, rfl⟩, h⟩
      exact ⟨steps, hl, h⟩
    · rintro ⟨steps, hl, h⟩
      exact ⟨l, steps, hl, i, ⟨rfl, rfl⟩, h⟩
  | patternMissing p t => simp [findingHolds]
  | periodOrder p t i =>
    simp only [findingHolds, Finding.periodOrder.injEq, reduceCtorEq, false_and, and_false, exists_false, or_false, false_or]
    constructor
    · rintro ⟨_, plan, _, hp, periods, ht, _, ⟨rfl, rfl, rfl⟩, h⟩
      exact ⟨plan, periods, hp, ht, h⟩
    · rintro ⟨plan, periods, hp, ht, h⟩
      exact ⟨p, plan, t, hp, periods, ht, i, ⟨rfl, rfl, rfl⟩, h⟩
  | ladderMissing p t i =>
    simp only [findingHolds, Finding.ladderMissing.injEq, reduceCtorEq, false_and, and_false, exists_false, or_false, false_or]
    constructor
    · rintro ⟨_, plan, _, hp, periods, ht, j, q, l, stay, ⟨rfl, rfl, rfl⟩, hq, hk, hl⟩
      exact ⟨plan, periods, q, l, stay, hp, ht, Nat.le_add_right .., by rwa [Nat.add_sub_cancel_left], hk, hl⟩
    · rintro ⟨plan, periods, q, l, stay, hp, ht, hi, hq, hk, hl⟩
      exact ⟨p, plan, t, hp, periods, ht, i - 1, q, l, stay, ⟨rfl, rfl, by omega⟩, hq, hk, hl⟩
  | planMissing p n =>
    simp only [findingHolds, Finding.planMissing.injEq, reduceCtorEq, false_and, and_false, exists_false, or_false, false_or]
    constructor
    · rintro ⟨_, ha, hp, rfl, rfl⟩
      exact ⟨ha, rfl, hp⟩
    · rintro ⟨ha, rfl, hp⟩
      exact ⟨n, ha, hp, rfl, rfl⟩

/-- A book without findings is a sound one. -/
theorem checkFindings_nil (k : Book) (table : Vector Entry 16) : checkFindings k table = [] ↔ bookSound k table := by
  rw [checkFindings_parts, List.append_eq_nil_iff, List.append_eq_nil_iff, and_assoc]
  refine and_congr ?_ (and_congr ?_ ?_)
  · simp only [ladderFindings, List.flatMap_eq_nil_iff, List.mem_finRange, true_imp_iff]
    refine forall_congr' fun l => ?_
    cases row k.ladders l with
    | none => simp
    | some steps => simp [ladderFinding_iff]
  · simp only [List.flatMap_eq_nil_iff, List.mem_finRange, true_imp_iff]
    refine forall_congr' fun p => ?_
    unfold planFindings
    cases row k.plans p with
    | none => simp
    | some plan =>
      simp only [List.flatMap_eq_nil_iff, List.mem_finRange, true_imp_iff, Option.some.injEq, forall_eq']
      refine forall_congr' fun t => ?_
      unfold patternFindings
      cases row plan.patterns t with
      | none => simp
      | some periods => simp [periodFinding_iff, missingLadders_iff]
  · rw [List.eq_nil_iff_forall_not_mem]
    constructor
    · intro h n ha
      by_contra hn
      exact h _ ((mem_terminalFindings ..).mpr ⟨n, ha, Option.not_isSome_iff_eq_none.mp hn, rfl⟩)
    · intro h f hf
      obtain ⟨n, ha, hn, -⟩ := (mem_terminalFindings ..).mp hf
      exact Option.not_isSome_iff_eq_none.mpr hn (h n ha)

/-! ## The order of the findings -/

theorem place_of_ladder {l : Fin 16} {steps : List LadderStep} {f : Finding} (h : f ∈ ladderFinding l steps) :
    f.place = (1, l.val, 0) := by
  obtain ⟨i, rfl, -⟩ := (mem_ladderFinding ..).mp h
  rfl

theorem place_of_period {p : Fin 8} {t : Fin 9} {periods : List Period} {f : Finding} (h : f ∈ periodFinding p t periods) :
    f.place = (2, 9 * p.val + t.val, 0) := by
  obtain ⟨i, rfl, -⟩ := (mem_periodFinding ..).mp h
  rfl

theorem place_of_missing {k : Book} {p : Fin 8} {t : Fin 9} {i : Nat} {periods : List Period} {f : Finding}
    (h : f ∈ missingLadders k p t i periods) : ∃ j, i ≤ j ∧ f.place = (2, 9 * p.val + t.val, j) := by
  obtain ⟨j, _, _, _, rfl, -⟩ := (mem_missingLadders ..).mp h
  exact ⟨i + j, Nat.le_add_right .., rfl⟩

theorem place_of_pattern {k : Book} {p : Fin 8} {plan : Plan} {t : Fin 9} {f : Finding} (h : f ∈ patternFindings k p plan t) :
    ∃ j, f.place = (2, 9 * p.val + t.val, j) := by
  obtain ⟨-, rfl⟩ | ⟨periods, -, hf | hf⟩ := (mem_patternFindings ..).mp h
  · exact ⟨0, rfl⟩
  · exact ⟨0, place_of_period hf⟩
  · obtain ⟨j, -, hj⟩ := place_of_missing hf
    exact ⟨j, hj⟩

theorem before_of_part {f g : Finding} (h : f.place.1 < g.place.1) : f.before g := .inl h

theorem before_of_index {f g : Finding} {i j : Nat × Nat} {a : Nat} (hf : f.place = (a, i)) (hg : g.place = (a, j))
    (h : i.1 < j.1 ∨ (i.1 = j.1 ∧ i.2 < j.2)) : f.before g := by
  unfold Finding.before
  rw [hf, hg]
  exact .inr ⟨rfl, h⟩

theorem pairwise_of_short {α : Type} {R : α → α → Prop} {l : List α} (h : l.length ≤ 1) : l.Pairwise R := by
  match l, h with
  | [], _ => exact .nil
  | [a], _ => exact List.pairwise_singleton ..

theorem ladderFinding_short (l : Fin 16) (steps : List LadderStep) : (ladderFinding l steps).length ≤ 1 := by
  unfold ladderFinding
  repeat' split
  all_goals simp

theorem periodFinding_short (p : Fin 8) (t : Fin 9) (periods : List Period) : (periodFinding p t periods).length ≤ 1 := by
  unfold periodFinding
  repeat' split
  all_goals simp

theorem missingLadders_ordered (k : Book) (p : Fin 8) (t : Fin 9) (i : Nat) (periods : List Period) :
    (missingLadders k p t i periods).Pairwise Finding.before := by
  induction periods generalizing i with
  | nil => exact .nil
  | cons q rest ih =>
    unfold missingLadders
    refine List.pairwise_append.mpr ⟨?_, ih (i + 1), fun f hf g hg => ?_⟩
    · refine pairwise_of_short ?_
      repeat' split
      all_goals simp
    · obtain ⟨j, hj, hgj⟩ := place_of_missing hg
      have hfi : f.place = (2, 9 * p.val + t.val, i) := by
        revert hf
        repeat' split
        all_goals simp
        rintro rfl
        rfl
      exact before_of_index hfi hgj (.inr ⟨rfl, hj⟩)

theorem patternFindings_ordered (k : Book) (p : Fin 8) (plan : Plan) (t : Fin 9) :
    (patternFindings k p plan t).Pairwise Finding.before := by
  unfold patternFindings
  cases row plan.patterns t with
  | none => exact List.pairwise_singleton ..
  | some periods =>
    refine List.pairwise_append.mpr ⟨pairwise_of_short (periodFinding_short ..), missingLadders_ordered .., fun f hf g hg => ?_⟩
    obtain ⟨j, hj, hgj⟩ := place_of_missing hg
    exact before_of_index (place_of_period hf) hgj (.inr ⟨rfl, hj⟩)

theorem planFindings_ordered (k : Book) (p : Fin 8) : (planFindings k p).Pairwise Finding.before := by
  unfold planFindings
  cases row k.plans p with
  | none => exact .nil
  | some plan =>
    refine List.pairwise_flatMap.mpr ⟨fun t _ => patternFindings_ordered .., (List.pairwise_lt_finRange 9).imp ?_⟩
    intro t u htu f hf g hg
    obtain ⟨i, hfi⟩ := place_of_pattern hf
    obtain ⟨j, hgj⟩ := place_of_pattern hg
    exact before_of_index hfi hgj (.inl (Nat.add_lt_add_left htu _))

theorem place_of_plan {k : Book} {p : Fin 8} {f : Finding} (h : f ∈ planFindings k p) :
    ∃ (t : Fin 9) (j : Nat), f.place = (2, 9 * p.val + t.val, j) := by
  obtain ⟨plan, t, -, hf⟩ := (mem_planFindings ..).mp h
  exact ⟨t, place_of_pattern hf⟩

theorem place_of_ladders {k : Book} {f : Finding} (h : f ∈ ladderFindings k) : f.place.1 = 1 := by
  obtain ⟨l, steps, -, hf⟩ := (mem_ladderFindings ..).mp h
  rw [place_of_ladder hf]

theorem place_of_terminal {k : Book} {table : Vector Entry 16} {f : Finding} (h : f ∈ terminalFindings k table) : f.place.1 = 3 := by
  obtain ⟨n, -, -, rfl⟩ := (mem_terminalFindings ..).mp h
  rfl

theorem ladderFindings_ordered (k : Book) : (ladderFindings k).Pairwise Finding.before := by
  refine List.pairwise_flatMap.mpr ⟨fun l _ => ?_, (List.pairwise_lt_finRange 16).imp ?_⟩
  · cases row k.ladders l with
    | none => exact .nil
    | some steps => exact pairwise_of_short (ladderFinding_short ..)
  · intro l m hlm f hf g hg
    cases hl : row k.ladders l with
    | none => simp [hl] at hf
    | some steps =>
      cases hm : row k.ladders m with
      | none => simp [hm] at hg
      | some steps' =>
        rw [hl] at hf
        rw [hm] at hg
        exact before_of_index (place_of_ladder hf) (place_of_ladder hg) (.inl hlm)

theorem plansFindings_ordered (k : Book) : ((List.finRange 8).flatMap (planFindings k)).Pairwise Finding.before := by
  refine List.pairwise_flatMap.mpr ⟨fun p _ => planFindings_ordered .., (List.pairwise_lt_finRange 8).imp ?_⟩
  intro p q hpq f hf g hg
  obtain ⟨t, i, hfi⟩ := place_of_plan hf
  obtain ⟨u, j, hgj⟩ := place_of_plan hg
  have hlt : p.val < q.val := hpq
  exact before_of_index hfi hgj (.inl (by show 9 * p.val + t.val < 9 * q.val + u.val; omega))

theorem terminalFindings_ordered (k : Book) (table : Vector Entry 16) : (terminalFindings k table).Pairwise Finding.before := by
  refine List.pairwise_flatMap.mpr ⟨fun n _ => ?_, (List.pairwise_lt_finRange 16).imp ?_⟩
  · refine pairwise_of_short ?_
    split <;> simp
  · intro n m hnm f hf g hg
    split at hf <;> split at hg <;> simp at hf hg
    subst hf hg
    exact before_of_index rfl rfl (.inl hnm)

/-- The three parts follow one another. -/
theorem checkFindings_ordered (k : Book) (table : Vector Entry 16) : (checkFindings k table).Pairwise Finding.before := by
  rw [checkFindings_parts]
  have hplans : ∀ f ∈ (List.finRange 8).flatMap (planFindings k), f.place.1 = 2 := by
    intro f hf
    obtain ⟨p, -, hp⟩ := List.mem_flatMap.mp hf
    obtain ⟨t, j, hj⟩ := place_of_plan hp
    rw [hj]
  refine List.pairwise_append.mpr ⟨List.pairwise_append.mpr ⟨ladderFindings_ordered k, plansFindings_ordered k, ?_⟩,
    terminalFindings_ordered k table, ?_⟩
  · intro f hf g hg
    refine before_of_part ?_
    rw [place_of_ladders hf, hplans g hg]
    decide
  · intro f hf g hg
    refine before_of_part ?_
    rw [place_of_terminal hg]
    rcases List.mem_append.mp hf with hl | hp
    · rw [place_of_ladders hl]; decide
    · rw [hplans f hp]; decide

/-- Settles O18, from the laws of the three parts of the check. -/
theorem checkFindsWhatIsUnsound : Obligations.CheckFindsWhatIsUnsound := fun k table =>
  ⟨checkFindings_nil k table, mem_checkFindings_iff k table, checkFindings_ordered k table⟩

/-! ## Completion and activation (R31 to R36) -/

/-- Settles O19: the check arms a sound book and hands an unsound one back. -/
theorem bookCheckCompletes : Obligations.BookCheckCompletes := by
  intro s hr
  dsimp only
  have hrun : exec .bookCheckComplete s = .next (
      if s.books.stagedState == .checking then
        if (checkFindings s.books.stagedBook s.table).isEmpty then
          setBookChangeActive (latch .bookChecked (onBooks BookStore.checkPassed s))
        else latch .bookChecked (onBooks (fun b => b.checkFailed (checkFindings s.books.stagedBook s.table)) s)
      else s) := congrArg _ (whenRunning_true hr _)
  refine ⟨fun hc hsound => ?_, fun hc hsound => ⟨mt (checkFindings_nil ..).mp hsound, ?_⟩, fun hc => ?_⟩
  · rw [hrun, if_pos (beq_iff_eq.mpr hc), if_pos (List.isEmpty_iff.mpr ((checkFindings_nil ..).mpr hsound))]
    rfl
  · rw [hrun, if_pos (beq_iff_eq.mpr hc), if_neg (mt List.isEmpty_iff.mp (mt (checkFindings_nil ..).mp hsound))]
    rfl
  · rw [hrun, if_neg (mt beq_iff_eq.mp hc)]

theorem due_iff (b : BookStore) (day : Nat) :
    b.due day = true ↔ b.stagedState = .armed ∧ (b.firstBook = true ∨ b.activationDay.getD 0 ≤ day) := by
  simp [BookStore.due]

/-- What the exchange of the banks leaves (R36). -/
theorem activated_spec (b : BookStore) :
    b.activated.active = b.active.other ∧ b.activated.activeState = .inForce ∧ b.activated.activeBook = b.stagedBook ∧
    b.activated.stagedState = .empty ∧ b.activated.retired = b.isHeld b.active ∧
    b.activated.stagedBook = (if b.isHeld b.active then b.activeBook else Book.empty) ∧
    b.activated.activationDay = none ∧ b.activated.firstBook = false ∧ b.activated.generation = b.generation + 1 ∧
    b.activated.revision = b.revision ∧ b.activated.check = b.check ∧ b.activated.heldX = b.heldX ∧ b.activated.heldY = b.heldY := by
  obtain ⟨bankX, bankY, active, _, _, _, heldX, heldY, _, _, _, _, _⟩ := b
  cases active with
  | x => cases heldX <;> exact ⟨rfl, rfl, rfl, rfl, rfl, rfl, rfl, rfl, rfl, rfl, rfl, rfl, rfl⟩
  | y => cases heldY <;> exact ⟨rfl, rfl, rfl, rfl, rfl, rfl, rfl, rfl, rfl, rfl, rfl, rfl, rfl⟩

/-- Settles O20: the comparison of an activation, where it is due and where it is not. -/
theorem bookActivation : Obligations.BookActivation := by
  intro s hr hset
  dsimp only
  have hrun : exec .bookActivation s = .next (activateIfDue s) :=
    congrArg _ ((whenRunning_true hr _).trans (if_pos (clockSet_of_set hset)))
  refine ⟨fun harmed hdue => ⟨_, hrun, (activateIfDue_frame s).mono (by decide), ?_⟩, fun hnot => ?_⟩
  · have hd : s.books.due (today s) = true := by
      refine (due_iff ..).mpr ⟨harmed, hdue.imp_right ?_⟩
      rintro ⟨day, hday, hle⟩
      rwa [hday]
    obtain ⟨hbooks, htable⟩ := activate_spec s
    rw [if_pos hd] at hbooks
    have hnotices : (activateIfDue s).notices = latchIn .bookActivated s.notices := by
      unfold activateIfDue
      rw [if_pos hd]
      rfl
    have hrows : ∀ n, row (activateIfDue s).table n = resetBookChange (row s.table n) := fun n => by rw [htable, if_pos hd]
    obtain ⟨h1, h2, h3, h4, h5, h6, h7, h8, h9, h10, h11, h12, h13⟩ := activated_spec s.books
    rw [hbooks]
    exact ⟨h1, h2, h3, h4, h5, h6, h7, h8, h9, h10, h11, h12, h13, hnotices, hrows⟩
  · rw [hrun]
    refine congrArg _ (if_neg fun hd => ?_)
    obtain ⟨harmed, hdue⟩ := (due_iff ..).mp hd
    obtain hna | ⟨hfirst, day, hday, hlt⟩ := hnot
    · exact hna harmed
    · rw [hfirst, hday] at hdue
      obtain h | h := hdue
      · cases h
      · exact absurd h (Nat.not_le.mpr hlt)

/-! ## READ_BOOK (R37, R38) -/

section
variable (k : Book) (code : Nat)

theorem bookPart_header : bookPart k code 0 = .header code (Vector.ofFn fun p => (row k.plans p).isSome)
    (Vector.ofFn fun l => (row k.ladders l).isSome) k.calendar.length := rfl

theorem bookPart_plan (p : Fin 8) : bookPart k code (1 + p.val) = .plan p ((row k.plans p).map Plan.header) := by
  have hp : Fin.ofNat 8 (1 + p.val - 1) = p := Fin.ext (by simp)
  unfold bookPart
  rw [if_neg (by omega), if_pos (by omega), hp]

theorem bookPart_day (p : Fin 8) (t : Fin 9) : bookPart k code (9 + 9 * p.val + t.val) =
    .day p t ((row k.plans p).bind fun plan => row plan.patterns t) := by
  have hp : Fin.ofNat 8 ((9 + 9 * p.val + t.val - 9) / 9) = p := Fin.ext (by simp; omega)
  have ht : Fin.ofNat 9 ((9 + 9 * p.val + t.val - 9) % 9) = t := Fin.ext (by simp; omega)
  unfold bookPart
  rw [if_neg (by omega), if_neg (by omega), if_pos (by omega), hp, ht]

theorem bookPart_ladder (l : Fin 16) : bookPart k code (81 + l.val) = .ladder l (row k.ladders l) := by
  have hl : Fin.ofNat 16 (81 + l.val - 81) = l := Fin.ext (by simp)
  unfold bookPart
  rw [if_neg (by omega), if_neg (by omega), if_neg (by omega), if_pos (by omega), hl]

theorem bookPart_calendar : bookPart k code 97 = .calendar k.calendar := rfl

end

/-- READ_BOOK taken: the refusal by R38's order, or the part (R37). -/
theorem exec_readBook {s : State} (ho : officeTakes s) (tag : Tag) (which : BookSelector) (part : Nat) :
    exec (.readBook tag which part) s = .next (
      match s.books.readRefusal which part with
      | some r => answering s .office tag r (.bookStamp (bookStamp s.books which))
      | none => answering s .office tag .ok (.bookPart (bookStamp s.books which) part (s.books.readPart which part))) := by
  refine (office_next ho tag _).trans (congrArg _ ?_)
  cases s.books.readRefusal which part <;> exact answerPort_eq ..

/-- Settles O21: the refusals by number and state, then the part of each range. -/
theorem readBook : Obligations.ReadBook := by
  intro tag part s ho
  dsimp only
  have hstamp : bookStamp s.books .staged =
      .staged s.books.stagedState s.books.revision (if s.books.stagedState = .armed then s.books.activationDay else none) := by
    simp only [bookStamp, beq_iff_eq]
  have hactive : ∀ {p : BookPart}, part ≤ 97 → bookPart s.books.activeBook (activeCode s.books.activeState) part = p →
      exec (.readBook tag .active part) s =
        .next (answering s .office tag .ok (.bookPart (.active s.books.generation) part p)) := by
    rintro p hpart rfl
    rw [exec_readBook ho, show s.books.readRefusal .active part = none from if_neg (by omega)]
    rfl
  have hstaged : ∀ {p : BookPart}, part ≤ 97 → bookPart s.books.stagedBook (stagedCode s.books.stagedState) part = p →
      s.books.stagedState ≠ .checking → s.books.retired = false → exec (.readBook tag .staged part) s =
        .next (answering s .office tag .ok (.bookPart (.staged s.books.stagedState s.books.revision
          (if s.books.stagedState = .armed then s.books.activationDay else none)) part p)) := by
    rintro p hpart rfl hc hret
    rw [exec_readBook ho, ← hstamp]
    have hnone : s.books.readRefusal .staged part = none := by
      unfold BookStore.readRefusal
      rw [if_neg (by omega), if_neg (by simp [hc, hret])]
    rw [hnone]
    rfl
  refine ⟨fun hbig => ⟨?_, ?_⟩, fun hpart hbusy => ?_, fun p hp => ?_, fun p t hp => ?_, fun l hl => ?_, fun hp => ?_, fun hp => ?_⟩
  · rw [exec_readBook ho, show s.books.readRefusal .active part = some .badField from if_pos hbig]
    rfl
  · rw [exec_readBook ho, show s.books.readRefusal .staged part = some .badField from if_pos hbig, hstamp]
  · have hrefused : s.books.readRefusal .staged part = some .busy := by
      unfold BookStore.readRefusal
      rw [if_neg (by omega), if_pos (by simpa using hbusy)]
    rw [exec_readBook ho, hrefused, hstamp]
  · subst hp
    exact ⟨hactive (by omega) (bookPart_plan ..), hstaged (by omega) (bookPart_plan ..)⟩
  · subst hp
    exact ⟨hactive (by omega) (bookPart_day ..), hstaged (by omega) (bookPart_day ..)⟩
  · subst hl
    exact ⟨hactive (by omega) (bookPart_ladder ..), hstaged (by omega) (bookPart_ladder ..)⟩
  · subst hp
    exact ⟨hactive (by omega) (bookPart_calendar ..), hstaged (by omega) (bookPart_calendar ..)⟩
  · subst hp
    have hcode : activeCode s.books.activeState = if s.books.activeState = .inForce then 1 else 0 := by
      cases s.books.activeState <;> rfl
    refine ⟨hactive (by omega) (hcode ▸ bookPart_header ..), fun code hcodes => hstaged (by omega) ?_⟩
    obtain ⟨h, rfl⟩ | ⟨h, rfl⟩ | ⟨h, rfl⟩ := hcodes <;>
    · rw [h]
      rfl

end Sys2Proof.Proofs
end

section
/-! PROOFS. The quote engine's requests: QUOTE and PRICE placed (O22) and refused (O23), PREVIEW_QUOTE (O24), WALK_BEGIN (O25). -/

namespace Sys2Proof.Proofs
open Sys2Proof Sys2Proof.Machine

/-! ## The placing of a request (R41, R88) -/

/-- The terminal's entry as the block of an accepted request finds it: only the last-heard time is new. -/
theorem asTaken_entry (s : State) (n : Line) (k : RequestKind) :
    row (asTaken s n k).table n = { row s.table n with lastHeard := now s } := by
  unfold asTaken
  rw [acceptRequest_table, (heard_records s n).1]

theorem acceptAsk_waits {s : State} (n : Line) (r : WalkRequest) (h : s.engine.walk.isSome = true) :
    acceptAsk n r s = { s with
      quotes := put s.quotes n none
      engine := { s.engine with slots := put s.engine.slots (lineSlot n) (some r) } } :=
  placeRequest_waits (s := cancelQuote n s) (lineSlot n) r h

/-- The walk of a terminal's request, as it begins (R42). -/
def lineWalk (s : State) (n : Line) (r : WalkRequest) : Walk :=
  { slot := lineSlot n, request := r, time := now s, view := s.books.view, plan := (row s.table n).plan,
    pass := (row s.table n).pass, mode := (row s.table n).mode, discard := false, orphaned := false, stage := .link }

theorem walkOf_line {s : State} (n : Line) {r : WalkRequest} (h : r.preview = none) :
    walkOf s (lineSlot n) r = lineWalk s n r := by
  unfold walkOf
  rw [h, slotLine_lineSlot]
  rfl

theorem acceptAsk_begins {s : State} (n : Line) {r : WalkRequest} (hr : r.preview = none) (hw : s.engine.walk = none)
    (hc : s.clock.state = .set) (h : noRequests s.engine) :
    acceptAsk n r s = { s with
      quotes := put s.quotes n none
      books := s.books.hold s.books.view
      engine := { s.engine with last := lineSlot n, walk := some (lineWalk s n r) } } := by
  refine (placeRequest_begins (s := cancelQuote n s) (lineSlot n) r hw hc h).trans ?_
  rw [walkOf_line n hr]
  rfl

/-- An allowed request of a taken frame, placed behind a walk or begun. -/
theorem takeAsk_placed {s : State} {n : Line} {r : WalkRequest} (k : RequestKind) (hr : r.preview = none)
    (h : askAllowed (asTaken s n k) n r) :
    (s.engine.walk.isSome = true → takeAsk n r (asTaken s n k) = { asTaken s n k with
      quotes := put s.quotes n none
      permits := permitsAsRead s n r
      engine := { s.engine with slots := put s.engine.slots (lineSlot n) (some r) } }) ∧
    (s.engine.walk = none → noRequests s.engine → takeAsk n r (asTaken s n k) = { asTaken s n k with
      quotes := put s.quotes n none
      permits := permitsAsRead s n r
      books := s.books.hold s.books.view
      engine := { s.engine with last := lineSlot n, walk := some (lineWalk s n r) } }) := by
  have hset : s.clock.state = .set := by
    obtain ⟨-, -, -, -, hset, -⟩ := h
    exact hset
  rw [takeAsk_allowed h, permitsAsRead_taken]
  refine ⟨fun hw => acceptAsk_waits (s := { asTaken s n k with permits := permitsAsRead s n r }) n r hw, fun hw hno => ?_⟩
  refine (acceptAsk_begins (s := { asTaken s n k with permits := permitsAsRead s n r }) n hr hw hset hno).trans ?_
  have hwalk : lineWalk { asTaken s n k with permits := permitsAsRead s n r } n r = lineWalk s n r := by
    unfold lineWalk
    dsimp only
    rw [asTaken_entry]
    rfl
  rw [hwalk]
  rfl

/-- Settles O22: both kinds of request come to the same placing. -/
theorem askPlaced : Obligations.AskPlaced := by
  intro n r s hl
  dsimp only
  refine ⟨fun f hf ha => ?_, fun f hf ha => ?_⟩
  · obtain ⟨hwaits, hbegins⟩ := takeAsk_placed .quote (quoteRequest_preview hf) ha
    rw [execQuote_taken hl f r hf]
    exact ⟨fun hw => congrArg _ (hwaits hw), fun hw hno => congrArg _ (hbegins hw hno)⟩
  · obtain ⟨hwaits, hbegins⟩ := takeAsk_placed .price (priceRequest_preview hf) ha
    rw [execPrice_taken hl f r hf]
    exact ⟨fun hw => congrArg _ (hwaits hw), fun hw hno => congrArg _ (hbegins hw hno)⟩

/-! ## The refusals of a request (R87) -/

/-- A request taken with a field out of range is answered BAD_FIELD at once. -/
theorem badField_answered {s : State} {n : Line} (h : lineFree s n) (k : RequestKind) (act : State → State) :
    answeredOn s (takeFrame n (some k) false act s) n .badField .empty ∧
      onlyChanges [.lines, .table, .faults, .notices] s (takeFrame n (some k) false act s) := by
  rw [takeFrame_badField h]
  exact ⟨replyAtOnce_answered h _, replyAtOnce_heard_frame s n _ _⟩

theorem exec_quote {s : State} (hr : running s = true) (n : Line) (f : QuoteFields) :
    exec (.quote n f) s = .next (takeAskFrame n .quote (quoteRequest f) s) := congrArg _ (whenRunning_true hr _)

theorem exec_price {s : State} (hr : running s = true) (n : Line) (f : PriceFields) :
    exec (.price n f) s = .next (takeAskFrame n .price (priceRequest f) s) := congrArg _ (whenRunning_true hr _)

/-- Checks (i) to (viii) on the state a frame leaves, in the terms of the state it found. -/
theorem askRefusal_taken (s : State) (n : Line) (k : RequestKind) (r : WalkRequest) : askRefusal (asTaken s n k) n r =
    if (Ask.payKind r.ask = .cash ∧ (row s.table n).takesCoins = false) ∨
        (Ask.payKind r.ask = .card ∧ (row s.table n).takesCards = false) then some .badField
    else if ((row s.table n).asksMark = true ∨ Ask.payKind r.ask = .visitor) ∧ r.mark = none then some .badField
    else if s.books.activeState = .empty then some .noPlan
    else if s.clock.state = .unset then some .clockUnset
    else if serviceState (heard n s) n = .outOfService then some .outOfService
    else if Ask.payKind r.ask = .cash ∧ (serviceState (heard n s) n = .cashOut ∨ serviceState (heard n s) n = .paymentOut)
      then some .cashOut
    else if Ask.payKind r.ask = .card ∧ (serviceState (heard n s) n = .cardOut ∨ serviceState (heard n s) n = .paymentOut)
      then some .cardOut
    else none := by
  have hservice : serviceState (asTaken s n k) n = serviceState (heard n s) n := rfl
  have hclock : clockSet (asTaken s n k) = clockSet s := rfl
  have hbooks : (asTaken s n k).books = s.books := rfl
  unfold askRefusal
  rw [asTaken_entry, hservice, hclock, hbooks]
  unfold serviceRefusal clockSet
  simp only [Bool.or_eq_true, Bool.and_eq_true, beq_iff_eq, Bool.not_eq_true', Option.isNone_iff_eq_none]
  cases Ask.payKind r.ask <;> cases s.clock.state <;> simp

/-- A refused request leaves its frame taken and is answered. -/
theorem takeAsk_refused {s : State} {n : Line} {k : RequestKind} {r : WalkRequest} {st : Status}
    (h : askRefusal (asTaken s n k) n r = some st) :
    answeredOn s (takeAsk n r (asTaken s n k)) n st .empty ∧
      onlyChanges [.lines, .table, .faults, .notices] s (takeAsk n r (asTaken s n k)) := by
  have hstep : takeAsk n r (asTaken s n k) = answerPending n st .empty (asTaken s n k) := by
    unfold takeAsk
    rw [h]
  rw [hstep]
  exact ⟨answerTaken rfl _ _, ((asTaken_frame s n k).trans (answerPending_frame _ n _ _)).mono (by decide)⟩

theorem isSome_visitorBook (p : Permit) : p.visitorBook?.isSome = true ↔ ∃ b, p.kind = .visitorBook b := by
  unfold Permit.visitorBook?
  cases p.kind <;> simp

/-- A permit of another kind, or one that does not cover the plan and day, carries no visitor payment. -/
theorem visitorRefusal_invalid {p : Permit} {plan : Fin 8} {day : Nat}
    (h : (∀ b, p.kind ≠ .visitorBook b) ∨ p.covers plan day = false) : visitorRefusal (some p) plan day = some .permitInvalid := by
  refine if_neg fun hb => ?_
  obtain ⟨hbook, hcovers⟩ := (Bool.and_eq_true ..).mp hb
  obtain ⟨b, hk⟩ := (isSome_visitorBook p).mp hbook
  obtain hother | hnot := h
  · exact hother b hk
  · rw [hnot] at hcovers
    cases hcovers

theorem refreshed_kind (p : Permit) (d : Nat) (h : ∀ b, p.kind ≠ .visitorBook b) (b : VisitorBook) :
    (p.refreshed d).kind ≠ .visitorBook b := by
  rw [refreshed_other p d h]
  exact h b

theorem refreshed_invalid {p : Permit} {plan : Fin 8} {day : Nat} (d : Nat)
    (h : (∀ b, p.kind ≠ .visitorBook b) ∨ p.covers plan day = false) :
    visitorRefusal (some (p.refreshed d)) plan day = some .permitInvalid :=
  visitorRefusal_invalid (h.imp (refreshed_kind p d) fun hc => (refreshed_covers ..).trans hc)

/-- The permit that a visitor payment names, found in the register it has brought up to date. -/
theorem findPermit_refreshed (l : List Permit) (n d : Nat) :
    findPermit (refreshIn l n d) n = (lookup Permit.number n l).map fun p => p.refreshed d := by
  refine (lookup_refreshIn l n d n).trans ?_
  simp only [if_true]

/-- A visitor's request that passes the checks of the terminal is refused by its permit (R87 (ix)). -/
theorem takeAsk_permitRefused {s : State} {n : Line} {k : RequestKind} {r : WalkRequest} {minutes permit : Nat} {st : Status}
    (h : askRefusal (asTaken s n k) n r = none) (hask : r.ask = .forward (.visitor minutes permit))
    (hmode : (row s.table n).mode = .normal)
    (hst : visitorRefusal ((lookup Permit.number permit s.permits).map fun p => p.refreshed (today s)) (row s.table n).plan (today s) =
      some st) :
    answeredOn s (takeAsk n r (asTaken s n k)) n st .empty ∧
      onlyChanges [.permits, .lines, .table, .faults, .notices] s (takeAsk n r (asTaken s n k)) := by
  have hstep : takeAsk n r (asTaken s n k) = answerPending n st .empty (refreshPermit permit (asTaken s n k)) := by
    have hentry : (row (asTaken s n k).table n).mode = .normal := by
      rw [asTaken_entry]
      exact hmode
    have hplan : (row (refreshPermit permit (asTaken s n k)).table n).plan = (row s.table n).plan := by
      show (row (asTaken s n k).table n).plan = _
      rw [asTaken_entry]
    have hfound : findPermit (refreshPermit permit (asTaken s n k)).permits permit =
        (lookup Permit.number permit s.permits).map fun p => p.refreshed (today s) := findPermit_refreshed ..
    unfold takeAsk
    rw [h, hask, hentry]
    dsimp only
    rw [hfound, hplan, show today (refreshPermit permit (asTaken s n k)) = today s from rfl, hst]
  rw [hstep]
  exact ⟨answerTaken rfl _ _,
    (((asTaken_frame s n k).trans (refreshPermit_frame _ _)).trans (answerPending_frame _ n _ _)).mono (by decide)⟩

/-- Settles O23, in the order of R87. -/
theorem askRefusedInOrder : Obligations.AskRefusedInOrder := by
  intro n f g r s hl
  have hfree := hl.1
  dsimp only
  rw [← askRefusal_taken s n .quote r]
  refine ⟨fun hf => ?_, fun hg => ?_, fun st hst => ⟨fun hf => ?_, fun hg => ?_⟩, fun minutes permit hnone hf hask hmode => ?_⟩
  · refine ⟨_, exec_quote hfree.1 .., ?_⟩
    rw [hf]
    exact badField_answered hfree .quote fun s => s
  · refine ⟨_, exec_price hfree.1 .., ?_⟩
    rw [hg]
    exact badField_answered hfree .price fun s => s
  · exact ⟨_, execQuote_taken hl f r hf, takeAsk_refused hst⟩
  · rw [askRefusal_taken s n .quote r, ← askRefusal_taken s n .price r] at hst
    exact ⟨_, execPrice_taken hl g r hg, takeAsk_refused hst⟩
  · refine ⟨fun hp => ?_, fun p hp hinvalid => ?_⟩
    · exact ⟨_, execQuote_taken hl f r hf, takeAsk_permitRefused hnone hask hmode (by rw [hp]; rfl)⟩
    · exact ⟨_, execQuote_taken hl f r hf, takeAsk_permitRefused hnone hask hmode (by rw [hp]; exact refreshed_invalid _ hinvalid)⟩

/-! ## PREVIEW_QUOTE (R70) -/

/-- The walk of a preview, as it begins (R42, R70). -/
def previewWalk (s : State) (r : WalkRequest) (p : Preview) : Walk :=
  { slot := officeSlot, request := r, time := p.time.getD (now s), view := s.books.view, plan := p.plan, pass := p.pass,
    mode := .normal, discard := false, orphaned := false, stage := .link }

theorem walkOf_preview {s : State} {r : WalkRequest} {p : Preview} (h : r.preview = some p) :
    walkOf s officeSlot r = previewWalk s r p := by
  unfold walkOf
  rw [h]
  rfl

theorem exec_previewQuote {s : State} (ho : officeTakes s) (tag : Tag) (f : PreviewFields) {r : WalkRequest} {p : Preview}
    (hf : previewRequest f tag = some r) (hp : r.preview = some p) :
    exec (.previewQuote tag f) s = .next (
      match previewRefusal s p with
      | some st => answering s .office tag st .empty
      | none => placeRequest officeSlot r (deferAnswer .office s)) := by
  refine congrArg Host.Outcome.next ((officeCommand_taken ho ..).trans ?_)
  rw [hf]
  refine (if_pos rfl).trans ?_
  show (match r.preview.bind (previewRefusal s) with | some st => _ | none => _) = _
  rw [hp]
  cases h : previewRefusal s p with
  | none => simp only [Option.bind_some, h]
  | some st =>
    simp only [Option.bind_some, h]
    exact answerPort_eq ..

/-- The preview's time has passed (R70 (i)). -/
theorem previewRefusal_early {s : State} {p : Preview} (h : ∃ z, p.time = some z ∧ z < now s) :
    previewRefusal s p = some .badField := by
  obtain ⟨z, hz, hlt⟩ := h
  unfold previewRefusal
  rw [hz]
  exact if_pos (decide_eq_true hlt)

/-- Checks (ii) to (iv) of R70, where the time has not passed. -/
theorem previewRefusal_late {s : State} {p : Preview} (h : ¬ ∃ z, p.time = some z ∧ z < now s) : previewRefusal s p =
    if s.clock.state = .unset then some .clockUnset
    else if s.books.activeHasPlan p.plan = false then some .noPlan
    else if officeBusy s.engine = true then some .busy
    else none := by
  unfold previewRefusal clockSet
  cases ht : p.time with
  | none => cases s.clock.state <;> cases s.books.activeHasPlan p.plan <;> simp
  | some z =>
    have hlt : ¬ z < now s := fun hlt => h ⟨z, ht, hlt⟩
    cases s.clock.state <;> cases s.books.activeHasPlan p.plan <;> simp [hlt]

theorem activeHasPlan_false (b : BookStore) (p : Fin 8) :
    b.activeHasPlan p = false ↔ b.activeState = .empty ∨ row b.activeBook.plans p = none := by
  unfold BookStore.activeHasPlan planPresent
  cases b.activeState <;> cases row b.activeBook.plans p <;> simp

theorem officeBusy_iff (e : Engine) :
    officeBusy e = true ↔ row e.slots officeSlot ≠ none ∨ ∃ w, e.walk = some w ∧ w.slot = officeSlot := by
  unfold officeBusy
  cases e.walk <;> cases row e.slots officeSlot <;> simp

/-- Settles O24: the refusals by `previewRefusal`, and then the placing in the office slot. -/
theorem previewQuote : Obligations.PreviewQuote := by
  intro tag f s ho
  dsimp only
  refine ⟨fun hf => ?_, fun r p hf hp => ?_⟩
  · refine congrArg Host.Outcome.next ((officeCommand_taken ho ..).trans ?_)
    rw [hf]
    exact if_neg (by decide)
  · rw [exec_previewQuote ho tag f hf hp]
    refine ⟨fun hearly => ?_, fun hlate hun => ?_, fun hlate hset hno => ?_, fun hlate hset hforce hplan => ⟨fun hbusy => ?_,
      fun w hslot hw hwslot => ?_, fun hw hno => ?_⟩⟩
    · rw [previewRefusal_early hearly]
    · rw [previewRefusal_late hlate, if_pos hun]
    · rw [previewRefusal_late hlate, if_neg (by rw [hset]; decide), if_pos ((activeHasPlan_false ..).mpr hno)]
    all_goals
      have hactive : ¬ s.books.activeHasPlan p.plan = false := fun h => by
        obtain h | h := (activeHasPlan_false ..).mp h
        · rw [hforce] at h
          cases h
        · exact hplan h
      rw [previewRefusal_late hlate, if_neg (by rw [hset]; decide), if_neg hactive]
    · rw [if_pos ((officeBusy_iff _).mpr hbusy)]
    · rw [if_neg fun h => ?_]
      · exact congrArg _ (placeRequest_waits (s := deferAnswer .office s) officeSlot r (Option.isSome_iff_exists.mpr ⟨w, hw⟩))
      · obtain h | ⟨v, hv, hvslot⟩ := (officeBusy_iff _).mp h
        · exact h hslot
        · cases hw.symm.trans hv
          exact hwslot hvslot
    · rw [if_neg fun h => ?_]
      · refine congrArg Host.Outcome.next ((placeRequest_begins (s := deferAnswer .office s) officeSlot r hw hset hno).trans ?_)
        rw [walkOf_preview hp]
        rfl
      · obtain h | ⟨v, hv, -⟩ := (officeBusy_iff _).mp h
        · exact h (hno _)
        · cases hw.symm.trans hv

/-! ## WALK_BEGIN (R41, R42) -/

theorem exec_walkBegin {s : State} (hr : running s = true) : exec .walkBegin s = .next (chooseWalk s) :=
  congrArg _ (whenRunning_true hr _)

theorem waitingCount_le (e : Engine) : waitingCount e ≤ 17 :=
  (Finset.card_le_univ _).trans (Nat.le_of_eq (Fintype.card_fin 17))

/-- A walk refused CLOCK_UNSET raises no condition: it only counts as made. -/
theorem withWalk_unset : (fun d : DayRecord => d.withWalk (.refused .clockUnset none 0)) =
    fun d => { d with quotesMade := min 65535 (d.quotesMade + 1) } := by
  funext d
  simp [DayRecord.withWalk, WalkOutcome.heldBy, WalkOutcome.conds, saturate, topCount]

/-- Settles O25: the choice while the clock is SET, and the refusal of all that wait while it is UNSET. -/
theorem walkBegin : Obligations.WalkBegin := by
  intro s hr
  refine ⟨fun h => ?_, fun n r hw hset hfirst hp => ?_, fun r p hw hset hfirst hp => ?_, fun hw hun hk => ?_⟩
  · rw [exec_walkBegin hr]
    exact congrArg _ (h.elim chooseWalk_busy chooseWalk_idle)
  · rw [exec_walkBegin hr, chooseWalk_first hw hset hfirst, walkOf_line n hp]
    rfl
  · rw [exec_walkBegin hr, chooseWalk_first hw hset hfirst, walkOf_preview hp]
    rfl
  · obtain ⟨hframe, hwalk, hsales, hno, hlines, hoffice⟩ := arbitrate_unset 17 s hun hw hk.1
    have hfree := hno (waitingCount_le _)
    rw [exec_walkBegin hr, show chooseWalk s = arbitrate 17 s from rfl]
    refine ⟨_, rfl, hframe, hwalk, hfree, hsales, fun n hn => ?_, fun n hn => ?_, fun hn => ?_, fun r p hq hp => ?_⟩
    · obtain ⟨-, hline, htotals⟩ | ⟨hne, -⟩ := hlines n
      · exact ⟨hline, htotals⟩
      · exact absurd hn hne
    · obtain ⟨hslot, -⟩ | ⟨-, -, hline, htest, hnormal⟩ := hlines n
      · exact absurd (hslot.symm.trans (hfree _)) hn
      · refine ⟨answered_comes (envelopeOf_congr n (hframe .clock (by decide)) (hframe .table (by decide))
          (hframe .faults (by decide))).symm hline, htest, fun hmode => ?_⟩
        rw [hnormal hmode, withWalk_unset]
        refine recordBecomes_onDayRecord _ _ ?_ _
        exact fun _ => rfl
    · obtain ⟨-, hports⟩ | ⟨r, p, hq, -⟩ := hoffice
      · exact hports
      · exact absurd (hn.symm.trans hq) (by simp)
    · obtain ⟨hslot, -⟩ | ⟨r', p', hq', hp', -, hports⟩ := hoffice
      · exact absurd ((hfree _).symm.trans hslot) (by rw [hq]; simp)
      · cases hq.symm.trans hq'
        cases hp.symm.trans hp'
        rw [hports, answerDeferred_eq]
        rfl

end Sys2Proof.Proofs
end

section
/-! PROOFS. The completion of a walk: a result becomes the open quote (O26), a refusal is answered (O27), a discarded walk and a
preview leave no trace at a terminal (O28). -/

namespace Sys2Proof.Proofs
open Sys2Proof Sys2Proof.Machine

/-- The outcome of a terminal's walk goes to the terminal controller (R43). -/
theorem deliver_line {w : Walk} {n : Line} (hslot : w.slot = lineSlot n) (hp : w.request.preview = none) (o : WalkOutcome) (s : State) :
    deliver w o s = terminalOutcome n w o s := by
  unfold deliver
  rw [hp, hslot, slotLine_lineSlot]

/-- WALK_COMPLETE of a terminal's walk not marked for discard: `m` is the state in which the sticky set and the totals have the
outcome `o`, and `u` the one in which it is answered too (R43, R51, R88, R112). -/
theorem walkComplete_line {s : State} {n : Line} {w : Walk} {o : WalkOutcome} (hr : running s = true) (hw : s.engine.walk = some w)
    (hslot : w.slot = lineSlot n) (hp : w.request.preview = none) (hd : w.discard = false) (ho : (runStages walkFuel s w).2 = o) :
    ∃ m u t, exec .walkComplete s = .next t ∧ exec .walkBegin u = .next t ∧ (noRequests s.engine → t = u) ∧ walkFreed w s u ∧
      (∀ r, o = .result r → u = openQuote n r m) ∧
      (∀ st k c, o = .refused st (some k) c → u = answerPending n st (.held k c) m) ∧
      (∀ st c, o = .refused st none c → u = answerPending n st .empty m) ∧
      onlyChanges [.books, .engine, .permits, .table, .sales, .notices] s m ∧
      m.table = change s.table n (fun e => { e with sticky := if w.mode = .normal then e.sticky ||| o.conds else e.sticky }) ∧
      (w.mode = .test → m.sales = s.sales) ∧
      (w.mode = .normal → m.sales =
        { s.sales with totals := change s.sales.totals n (onDayRecord (today s) fun d => d.withWalk o) }) ∧
      m.notices = (if w.mode = .normal ∧ ∃ q, o.heldBy = some q ∧ q.isIn (row s.table n).sticky = false then
        latchIn .conditionHeld s.notices else s.notices) := by
  obtain ⟨v, hfv, hdeliver⟩ := exec_walkComplete hr hw
  obtain ⟨hfreed, t, hcomplete, hbegin, hidle⟩ := hdeliver _ rfl
  rw [ho, deliver_line hslot hp] at hfreed hbegin hidle
  obtain ⟨m, hresult, hheld, hrefused, hfm, htable, htest, hnormal, hnotices⟩ := terminalOutcome_spec n w o v hd
  have hvtable : v.table = s.table := hfv .table (by decide)
  have hvsales : v.sales = s.sales := hfv .sales (by decide)
  have hvnotices : v.notices = s.notices := hfv .notices (by decide)
  have hvclock : v.clock = s.clock := hfv .clock (by decide)
  rw [hvtable] at htable hnotices
  rw [hvsales] at htest hnormal
  rw [hvnotices] at hnotices
  rw [show today v = today s by unfold today; rw [hvclock]] at hnormal
  exact ⟨m, _, t, hcomplete, hbegin, hidle, hfreed, hresult, hheld, hrefused, (hfv.trans hfm).mono (by decide), htable, htest,
    hnormal, hnotices⟩

/-- The sticky set of the terminal, and every other entry, after the outcome (R51). -/
theorem sticky_row {s m : State} {n : Line} {f : Entry → Entry} (h : m.table = change s.table n f) :
    row m.table n = f (row s.table n) ∧ sameBut n s.table m.table := by
  rw [h]
  exact ⟨row_change_self .., sameBut_change n _ _⟩

/-- The open quote of a result, and its answer (R88 (i)), where the lines still stand as in `s`. -/
theorem openQuote_spec {s m : State} (n : Line) (r : WalkResult) (hl : m.lines = s.lines) :
    (openQuote n r m).quotes = put m.quotes n (some { result := r, number := (row m.table n).nextQuote, made := now m }) ∧
    (openQuote n r m).table = change m.table n (fun e => { e with nextQuote := following 1 255 (row m.table n).nextQuote }) ∧
    answerComes s (openQuote n r m) n .ok (.quoted r (row m.table n).nextQuote) ∧ sameBut n s.lines (openQuote n r m).lines :=
  ⟨rfl, rfl, answerPending_comes (u := onEntry n (fun e => { e with nextQuote := following 1 255 (row m.table n).nextQuote })
    { m with quotes := put m.quotes n (some { result := r, number := (row m.table n).nextQuote, made := now m }) }) hl ..⟩

/-- Settles O26. -/
theorem walkResultBecomesQuote : Obligations.WalkResultBecomesQuote := by
  intro n w r s hr hw hslot hp hd ho
  dsimp only
  obtain ⟨m, u, t, hcomplete, hbegin, hidle, hfreed, hresult, -, -, hfm, htable, htest, hnormal, hnotices⟩ :=
    walkComplete_line hr hw hslot hp hd ho
  obtain rfl := hresult r rfl
  obtain ⟨hrow, hsame⟩ := sticky_row htable
  have hclock : m.clock = s.clock := hfm .clock (by decide)
  have hquotes : m.quotes = s.quotes := hfm .quotes (by decide)
  have hmnotices : m.notices = s.notices := by
    rw [hnotices, if_neg]
    rintro ⟨-, q, hq, -⟩
    cases hq
  have hframe : onlyChanges [.books, .engine, .permits, .table, .sales] s m :=
    hfm.without (p := .notices) hmnotices (by decide)
  obtain ⟨hq, ht, hcomes, hothers⟩ := openQuote_spec (s := s) n r (hfm .lines (by decide))
  have hnumber : (row m.table n).nextQuote = (row s.table n).nextQuote := by rw [hrow]
  rw [hnumber, show now m = now s by unfold now; rw [hclock], hquotes] at hq
  rw [hnumber] at ht hcomes
  refine ⟨_, t, hcomplete, hbegin, hidle, hfreed, (hframe.trans (openQuote_frame m n r)).mono (by decide), ?_, ?_, hcomes, hothers,
    ?_, ?_, htest, fun hmode => todayBecomes_of ?_ ?_⟩
  · rw [hq, row_put_self]
  · rw [hq]
    exact sameBut_put n _ _
  · rw [ht, row_change_self, hrow]
    rfl
  · rw [ht]
    exact hsame.trans (sameBut_change n _ _)
  · exact fun _ => rfl
  · exact hnormal hmode

/-- Settles O27. -/
theorem walkRefusedIsAnswered : Obligations.WalkRefusedIsAnswered := by
  intro n w st k c s hr hw hslot hp hd ho
  dsimp only
  obtain ⟨m, u, t, hcomplete, hbegin, hidle, hfreed, -, hheld, hrefused, hfm, htable, htest, hnormal, hnotices⟩ :=
    walkComplete_line hr hw hslot hp hd ho
  obtain ⟨hrow, hsame⟩ := sticky_row htable
  obtain ⟨b, hb⟩ : ∃ b : Body, u = answerPending n st b m ∧ (∀ q, k = some q → b = .held q c) ∧ (k = none → b = .empty) := by
    cases k with
    | none => exact ⟨.empty, hrefused st c rfl, (fun q h => by cases h), fun _ => rfl⟩
    | some q => exact ⟨.held q c, hheld st q c rfl, (fun q' h => by cases h; rfl), fun h => by cases h⟩
  obtain ⟨rfl, hbody, hempty⟩ := hb
  obtain ⟨hcomes, hothers⟩ := answerPending_comes (s := s) (u := m) (n := n) (hfm .lines (by decide)) st b
  refine ⟨_, t, hcomplete, hbegin, hidle, hfreed, (hfm.trans (answerPending_frame m n st b)).mono (by decide),
    fun q hq => hbody q hq ▸ hcomes, fun hk => hempty hk ▸ hcomes, hothers, hrow, hsame, ?_, htest,
    fun hmode => todayBecomes_of ?_ ?_⟩
  · rw [answerPending_notices, hnotices]
    rfl
  · exact fun _ => rfl
  · exact hnormal hmode

/-- A preview's outcome is one answer of the office link (R43, R71). -/
theorem officeOutcome_spec (tag : Tag) (o : WalkOutcome) (s : State) :
    ∃ status body, officeOutcome tag o s = answerDeferred .office tag status body s ∧
      (∀ r, o = .result r → status = .ok ∧ body = .previewed r) ∧
      (∀ st k c, o = .refused st (some k) c → status = st ∧ body = .held k c) ∧
      ∀ st c, o = .refused st none c → status = st ∧ body = .empty := by
  match o with
  | .result r =>
    refine ⟨.ok, .previewed r, rfl, ?_, ?_, ?_⟩
    · rintro _ ⟨⟩
      exact ⟨rfl, rfl⟩
    · rintro _ _ _ ⟨⟩
    · rintro _ _ ⟨⟩
  | .refused st (some k) c =>
    refine ⟨st, .held k c, rfl, ?_, ?_, ?_⟩
    · rintro _ ⟨⟩
    · rintro _ _ _ ⟨⟩
      exact ⟨rfl, rfl⟩
    · rintro _ _ ⟨⟩
  | .refused st none c =>
    refine ⟨st, .empty, rfl, ?_, ?_, ?_⟩
    · rintro _ ⟨⟩
    · rintro _ _ _ ⟨⟩
    · rintro _ _ ⟨⟩
      exact ⟨rfl, rfl⟩

/-- Settles O28. -/
theorem walkDiscardedOrPreviewed : Obligations.WalkDiscardedOrPreviewed := by
  intro w s hr hw
  dsimp only
  obtain ⟨v, hfv, hdeliver⟩ := exec_walkComplete hr hw
  obtain ⟨hfreed, t, hcomplete, hbegin, hidle⟩ := hdeliver _ rfl
  refine ⟨fun n hslot hp hd => ?_, fun p hp => ?_⟩
  · have hlines : v.lines = s.lines := hfv .lines (by decide)
    have htable : v.table = s.table := hfv .table (by decide)
    have hu : deliver w (runStages walkFuel s w).2 v =
        if w.orphaned then v else answerPending n (goneStatus v n) .empty v := by
      rw [deliver_line hslot hp]
      unfold terminalOutcome
      rw [hd]
      rfl
    refine ⟨_, t, hcomplete, hbegin, hidle, hfreed, ?_, fun horphan => ?_, fun horphan => ?_⟩
    · rw [hu]
      split
      · exact hfv.mono (by decide)
      · exact (hfv.trans (answerPending_frame v n _ _)).mono (by decide)
    · rw [hu, if_pos horphan]
      exact hlines
    · have hgone : goneStatus v n = if (row s.table n).active then .stale else .notConfigured := by
        unfold goneStatus
        rw [htable]
      obtain ⟨hcomes, hothers⟩ := answerPending_comes (s := s) (u := v) (n := n) hlines (goneStatus v n) .empty
      rw [hu, if_neg (by rw [horphan]; decide)]
      exact ⟨hothers, hgone ▸ hcomes⟩
  · have hu : deliver w (runStages walkFuel s w).2 v = officeOutcome p.tag (runStages walkFuel s w).2 v := by
      unfold deliver
      rw [hp]
    obtain ⟨status, body, hanswer, hforms⟩ := officeOutcome_spec p.tag (runStages walkFuel s w).2 v
    rw [hanswer] at hu
    refine ⟨_, t, status, body, hcomplete, hbegin, hidle, hfreed, ?_, ?_, hforms⟩
    · rw [hu]
      exact (hfv.trans (answerDeferred_frame v .office p.tag status body)).mono (by decide)
    · rw [hu, answerDeferred_eq]
      have hports : v.ports = s.ports := hfv .ports (by decide)
      have hclock : v.clock = s.clock := hfv .clock (by decide)
      show withAnswer { v with ports := v.ports.onPort .office fun p => { p with deferred := p.deferred - 1 } } .office p.tag status body = _
      unfold withAnswer
      dsimp only
      rw [hports, hclock]
      rfl

end Sys2Proof.Proofs
end

section
/-! PROOFS. A walk comes to its end within its stages, and its result keeps its bounds (O29): how a stage raises conditions and goes
on, how many stages are left, and what every stage keeps. -/

namespace Sys2Proof.Proofs
open Sys2Proof Sys2Proof.Machine

/-! ## Conditions on the way (R50, R58) -/

/-- The context `d` is `c` with conditions of the PASS set raised. -/
structure Raised (pass : CondSet) (c d : WalkContext) : Prop where
  link : d.link = c.link
  priced : d.priced = c.priced
  within : c.raised &&& ~~~pass = 0 → d.raised &&& ~~~pass = 0

theorem Raised.refl (pass : CondSet) (c : WalkContext) : Raised pass c c := ⟨rfl, rfl, id⟩

theorem Raised.trans {pass : CondSet} {c d e : WalkContext} (h : Raised pass c d) (g : Raised pass d e) : Raised pass c e :=
  ⟨g.link.trans h.link, g.priced.trans h.priced, fun hc => g.within (h.within hc)⟩

/-- A condition of the PASS set is not outside it. -/
theorem bit_isIn {k : Cond} {pass : CondSet} (h : k.isIn pass = true) : k.bit &&& ~~~pass = 0 := by
  unfold Cond.isIn at h
  unfold Cond.bit
  ext i hi
  by_cases hk : i = k.index
  · subst hk
    simp [← BitVec.getLsbD_eq_getElem, h]
  · have hbit : (1#9 <<< k.index).getLsbD i = false := by
      simp
      omega
    simp [← BitVec.getLsbD_eq_getElem, hbit]

theorem or_within (a b m : CondSet) : (a ||| b) &&& m = 0 ↔ a &&& m = 0 ∧ b &&& m = 0 := by
  rw [BitVec.and_comm, BitVec.and_or_distrib_left, BitVec.and_comm m a, BitVec.and_comm m b]
  exact BitVec.or_eq_zero_iff

theorem raised_withCond {k : Cond} {pass : CondSet} (h : k.isIn pass = true) (c : WalkContext) : Raised pass c (c.withCond k) := by
  refine ⟨rfl, rfl, fun hc => ?_⟩
  obtain ⟨hconds, hpriced⟩ := (or_within ..).mp hc
  exact (or_within ..).mpr ⟨(or_within ..).mpr ⟨hconds, bit_isIn h⟩, hpriced⟩

/-- What holds of every refusal and, with the condition raised, of what follows, holds of a stage that raises it. -/
theorem raiseCond_holds {P : Stage → Prop} (hrefused : ∀ st k c, P (.done (.refused st k c))) {pass : CondSet} {k : Cond}
    {c : WalkContext} {next : WalkContext → Stage} (hnext : ∀ d, Raised pass c d → P (next d)) : P (raiseCond pass k c next) := by
  unfold raiseCond
  dsimp only
  split
  · exact hnext _ (raised_withCond ‹_› c)
  · exact hrefused ..

/-- What holds of every refusal, of stopping and of entering the span at the point, holds of the checks before it. -/
theorem enterNext_holds {P : Stage → Prop} (hrefused : ∀ st k c, P (.done (.refused st k c))) {tar : Tariff} {pass : CondSet}
    {byStaged met : Bool} {point : ZoneMinute} {c : WalkContext} {stopHere : WalkContext → Stage} {enter : WalkContext → Span → Stage}
    (hstop : ∀ d, Raised pass c d → P (stopHere d))
    (henter : ∀ d sp, Raised pass c d → tar.spanAt point = some sp → P (enter d sp)) :
    P (enterNext tar pass byStaged met point c stopHere enter) := by
  have hlook : ∀ d, Raised pass c d → P (match tar.spanAt point with
      | none => refuseWalk d .noPlan
      | some sp =>
        if sp.kind = .noSale then raiseCond pass .noSale d stopHere
        else if isCharged sp && met then raiseCond pass .carry d fun c => enter c sp
        else enter d sp) := by
    intro d hd
    cases hsp : tar.spanAt point with
    | none => exact hrefused ..
    | some sp =>
      dsimp only
      split
      · exact raiseCond_holds hrefused fun e he => hstop e (hd.trans he)
      · split
        · exact raiseCond_holds hrefused fun e he => henter e sp (hd.trans he) hsp
        · exact henter d sp hd hsp
  unfold enterNext
  dsimp only
  split
  · exact raiseCond_holds hrefused hlook
  · exact hlook c (.refl ..)

/-! ## The stages left -/

/-- How many stages a walk has left at most, from each kind of stage: 16 spans forward or back, and the stages between. -/
def stagesLeft (w : Walk) : Stage → Nat
  | .done _ => 0
  | .finish _ _ _ => 1
  | .forward _ t => 2 + (16 - t.entered)
  | .budget _ _ => 18
  | .checks c => if (reverseWanted w c).isSome then 39 else 19
  | .price _ _ _ _ => 20
  | .reverse _ t => 21 + (16 - t.entered)
  | .place _ _ => 38
  | .link => 40

section
variable (w : Walk)

theorem left_refused (st : Status) (k : Option Cond) (c : CondSet) (n : Nat) : stagesLeft w (.done (.refused st k c)) ≤ n := Nat.zero_le _

theorem raiseCond_left {n : Nat} {pass : CondSet} {k : Cond} {c : WalkContext} {next : WalkContext → Stage}
    (h : ∀ d, stagesLeft w (next d) ≤ n) : stagesLeft w (raiseCond pass k c next) ≤ n :=
  raiseCond_holds (P := fun st => stagesLeft w st ≤ n) (fun _ _ _ => left_refused ..) fun d _ => h d

theorem enterNext_left {n : Nat} {tar : Tariff} {pass : CondSet} {byStaged met : Bool} {point : ZoneMinute} {c : WalkContext}
    {stopHere : WalkContext → Stage} {enter : WalkContext → Span → Stage} (hstop : ∀ d, stagesLeft w (stopHere d) ≤ n)
    (henter : ∀ d sp, stagesLeft w (enter d sp) ≤ n) : stagesLeft w (enterNext tar pass byStaged met point c stopHere enter) ≤ n :=
  enterNext_holds (P := fun st => stagesLeft w st ≤ n) (fun _ _ _ => left_refused ..) (fun d _ => hstop d) fun d sp _ _ => henter d sp

theorem workSpan_left (pass : CondSet) (p : Payment) (c : WalkContext) (t : Trail) (sp : Span) (point count : Nat) :
    stagesLeft w (workSpan pass p c t sp point count) ≤ 2 + (16 - (t.entered + 1)) := by
  have hfinish : ∀ c t' why, stagesLeft w (.finish c t' why) ≤ 2 + (16 - (t.entered + 1)) := fun _ _ _ => by
    show 1 ≤ _
    omega
  unfold workSpan
  dsimp only
  cases sp.kind with
  | noSale => exact left_refused ..
  | free =>
    dsimp only
    split <;> [exact hfinish ..; exact Nat.le_refl _]
  | charged steps stay =>
    dsimp only
    split
    · exact hfinish ..
    · split
      · split <;> [exact hfinish ..; exact Nat.le_refl _]
      · split <;> [exact hfinish ..; exact raiseCond_left w fun _ => hfinish ..]

theorem reverseSpan_left (pass : CondSet) (c : WalkContext) (t : ReverseTrail) (sp : Span) (point count : Nat) :
    stagesLeft w (reverseSpan pass c t sp point count) ≤ 21 + (16 - (t.entered + 1)) := by
  have hprice : ∀ c first cost wanted, stagesLeft w (.price c first cost wanted) ≤ 21 + (16 - (t.entered + 1)) := fun _ _ _ _ => by
    show 20 ≤ _
    omega
  unfold reverseSpan
  cases sp.kind with
  | noSale => exact left_refused ..
  | free => dsimp only; split <;> [exact hprice ..; exact Nat.le_refl _]
  | charged steps stay =>
    dsimp only
    split
    · exact hprice ..
    · split
      · exact Nat.le_refl _
      · refine raiseCond_left w fun d => ?_
        split <;> [exact left_refused ..; exact hprice ..]

theorem stopReverse_left (t : ReverseTrail) (c : WalkContext) : stagesLeft w (stopReverse t c) ≤ 20 := by
  unfold stopReverse
  split
  · exact left_refused ..
  · split <;> [exact left_refused ..; exact Nat.le_refl _]

/-- A walk that is not too long has entered fewer than 16 spans. -/
theorem entered_of_not_tooLong {e : Nat} {z : ZoneMinute} (h : ¬ tooLong e z = true) : e < 16 :=
  Nat.lt_of_not_le fun he => h ((tooLong_iff ..).mpr (.inl he))

theorem forwardStage_left (tar : Tariff) (c : WalkContext) (t : Trail) :
    stagesLeft w (forwardStage tar w c t) ≤ 1 + (16 - t.entered) := by
  unfold forwardStage
  split
  · exact raiseCond_left w fun d => Nat.le_add_right ..
  · have hlt := entered_of_not_tooLong ‹_›
    exact enterNext_left w (fun d => Nat.le_add_right ..) fun d sp => (workSpan_left ..).trans (by omega)

theorem reverseStage_left (tar : Tariff) (c : WalkContext) (t : ReverseTrail) :
    stagesLeft w (reverseStage tar w c t) ≤ 20 + (16 - t.entered) := by
  unfold reverseStage
  split
  · exact raiseCond_left w fun d => (stopReverse_left w t d).trans (Nat.le_add_right ..)
  · have hlt := entered_of_not_tooLong ‹_›
    exact enterNext_left w (fun d => (stopReverse_left w t d).trans (Nat.le_add_right ..)) fun d sp =>
      (reverseSpan_left ..).trans (by omega)

theorem finishStage_left (c : WalkContext) (t : Trail) (why : StopKind) : stagesLeft w (finishStage w c t why) = 0 := by
  have hdone : ∀ st : Stage, stagesLeft w st ≤ 0 → stagesLeft w st = 0 := fun _ => Nat.le_zero.mp
  unfold finishStage
  dsimp only
  split
  · split
    · rfl
    · exact hdone _ (raiseCond_left w fun _ => Nat.le_refl _)
  · rfl

theorem beginForward_left (pass : CondSet) (p : Payment) (c : WalkContext) (first : Span) (budget : Nat) :
    stagesLeft w (beginForward pass p c first budget) ≤ 17 := workSpan_left ..

theorem readAllowance_left (s : State) (c : WalkContext) (first : Span) (minutes permit : Nat) :
    stagesLeft w (readAllowance s w c first minutes permit).2 ≤ 17 := by
  unfold readAllowance visitorBudget
  split
  · exact left_refused ..
  · dsimp only
    split
    · exact left_refused ..
    · split
      · exact beginForward_left ..
      · split
        · exact left_refused ..
        · exact raiseCond_left w fun _ => beginForward_left ..

theorem beginReverse_left (pass : CondSet) (c : WalkContext) (first : Span) (wanted : ZoneMinute) :
    stagesLeft w (beginReverse pass c first wanted) ≤ 36 := reverseSpan_left ..

theorem placeStage_left (tar : Tariff) (c : WalkContext) (first : Span) : stagesLeft w (placeStage tar w c first) ≤ 36 := by
  unfold placeStage
  split
  · exact left_refused ..
  · dsimp only
    split
    · exact left_refused ..
    · split
      · exact left_refused ..
      · split
        · exact left_refused ..
        · exact left_refused ..
        · split
          · exact left_refused ..
          · have hround : ∀ moved d, stagesLeft w (raiseCond w.pass .round c fun c => beginReverse w.pass c d moved) ≤ 36 :=
              fun _ _ => raiseCond_left w fun _ => beginReverse_left ..
            split
            · split <;> [exact beginReverse_left ..; exact hround _ _]
            · split <;> [exact beginReverse_left ..; exact hround _ _]

theorem linkStage_left (tar : Tariff) (log : List Session) : stagesLeft w (linkStage tar log w) ≤ 39 := by
  have hchecks : ∀ c, stagesLeft w (.checks c) ≤ 39 := fun c => by
    show (if _ then 39 else 19) ≤ 39
    split <;> decide
  unfold linkStage
  split
  · split
    · exact hchecks _
    · split
      · exact hchecks _
      · split
        · exact left_refused ..
        · split <;> [exact raiseCond_left w hchecks; exact hchecks _]
  · exact hchecks _

theorem priceStage_left (c : WalkContext) (first : Span) (cost : Nat) (wanted : ZoneMinute) :
    stagesLeft w (priceStage c first cost wanted) ≤ 19 := by
  unfold priceStage
  dsimp only
  split
  · exact left_refused ..
  · show (if (reverseWanted w _).isSome then 39 else 19) ≤ 19
    unfold reverseWanted
    cases w.request.ask <;> exact Nat.le_refl _

theorem checksStage_left (tar : Tariff) (c : WalkContext) :
    stagesLeft w (checksStage tar w c) < stagesLeft w (.checks c) := by
  have hlow : ∀ st : Stage, stagesLeft w st ≤ 18 → stagesLeft w st < stagesLeft w (.checks c) := fun st hst =>
    Nat.lt_of_le_of_lt hst (by
      show 18 < if (reverseWanted w c).isSome then 39 else 19
      split <;> decide)
  unfold checksStage
  split
  · exact hlow _ (left_refused ..)
  · split
    · exact hlow _ (left_refused ..)
    · split
      · rename_i hwanted
        show 38 < if (reverseWanted w c).isSome then 39 else 19
        rw [if_pos hwanted]
        decide
      · split
        · exact hlow _ (raiseCond_left w fun _ => Nat.le_refl _)
        · exact hlow _ (Nat.le_refl _)

/-- Every stage but the last leaves fewer. -/
theorem stagesLeft_stageOf (s : State) (h : stagesLeft w w.stage ≠ 0) : stagesLeft w (stageOf s w).2 < stagesLeft w w.stage := by
  unfold stageOf nextStage
  cases hst : w.stage with
  | link => exact Nat.lt_succ_of_le (linkStage_left ..)
  | checks c => exact checksStage_left ..
  | budget c first =>
    refine Nat.lt_succ_of_le ?_
    dsimp only
    split
    · exact readAllowance_left ..
    · split
      · exact beginForward_left ..
      · exact beginForward_left ..
      · exact left_refused ..
  | forward c t => exact Nat.lt_of_le_of_lt (forwardStage_left ..) (by show _ < 2 + _; omega)
  | finish c t why => exact Nat.lt_of_le_of_lt (Nat.le_of_eq (finishStage_left ..)) Nat.one_pos
  | place c first => exact Nat.lt_of_le_of_lt (placeStage_left ..) (by show 36 < 38; decide)
  | reverse c t => exact Nat.lt_of_le_of_lt (reverseStage_left ..) (by show _ < 21 + _; omega)
  | price c first cost wanted => exact Nat.lt_succ_of_le (priceStage_left ..)
  | done o =>
    rw [hst] at h
    exact absurd rfl h

end

theorem runStages_done (fuel : Nat) (s : State) {w : Walk} {o : WalkOutcome} (h : w.stage = .done o) :
    runStages (fuel + 1) s w = (s, o) := by
  unfold runStages
  rw [h]

theorem runStages_step (fuel : Nat) (s : State) {w : Walk} (h : ∀ o, w.stage ≠ .done o) :
    runStages (fuel + 1) s w = runStages fuel (stageOf s w).1 { w with stage := (stageOf s w).2 } := by
  rw [runStages]
  cases hst : w.stage with
  | done o => exact absurd hst (h o)
  | _ => rfl

/-- With more fuel than stages left, a run comes to its outcome, in no more single stages than that; and what every stage keeps holds
of the end. -/
theorem runStages_ends {P : State → Stage → Prop} (fuel : Nat) (s : State) (w : Walk)
    (hP : ∀ s st, P s st → P (stageOf s { w with stage := st }).1 (stageOf s { w with stage := st }).2)
    (hs : P s w.stage) (h : stagesLeft w w.stage < fuel) :
    (∃ k, k ≤ stagesLeft w w.stage ∧ (oneStage^[k] (s, w)).2.stage = .done (runStages fuel s w).2) ∧
      P (runStages fuel s w).1 (.done (runStages fuel s w).2) := by
  induction fuel generalizing s w with
  | zero => exact absurd h (Nat.not_lt_zero _)
  | succ fuel ih =>
    by_cases hdone : ∃ o, w.stage = .done o
    · obtain ⟨o, ho⟩ := hdone
      rw [runStages_done fuel s ho]
      exact ⟨⟨0, Nat.zero_le _, ho⟩, ho ▸ hs⟩
    · have hnot : ∀ o, w.stage ≠ .done o := fun o ho => hdone ⟨o, ho⟩
      have hpos : stagesLeft w w.stage ≠ 0 := by
        cases hst : w.stage with
        | done o => exact absurd hst (hnot o)
        | checks c =>
          show (if (reverseWanted w c).isSome then 39 else 19) ≠ 0
          split <;> decide
        | forward c t => exact Nat.ne_of_gt (Nat.lt_of_lt_of_le Nat.zero_lt_two (Nat.le_add_right ..))
        | reverse c t => exact Nat.ne_of_gt (Nat.lt_of_lt_of_le (by decide : 0 < 21) (Nat.le_add_right ..))
        | _ => exact Nat.succ_ne_zero _
      have hless := stagesLeft_stageOf w s hpos
      rw [runStages_step fuel s hnot]
      obtain ⟨⟨k, hk, hend⟩, hkeep⟩ := ih (stageOf s w).1 { w with stage := (stageOf s w).2 } hP (hP s w.stage hs)
        (Nat.lt_of_lt_of_le hless (Nat.le_of_lt_succ h))
      exact ⟨⟨k + 1, Nat.le_trans (Nat.succ_le_succ hk) hless, hend⟩, hkeep⟩

end Sys2Proof.Proofs
end

section
/-! PROOFS. What every stage of a walk keeps, and so the bounds of its result; and with it O29. -/

namespace Sys2Proof.Proofs
open Sys2Proof Sys2Proof.Machine

/-! ## What the stages keep -/

/-- The walk's context: the start not before the walk time, and no condition raised but those of the PASS set. -/
structure ContextKept (w : Walk) (c : WalkContext) : Prop where
  start : w.time ≤ c.link.start
  within : c.raised &&& ~~~w.pass = 0

/-- The trail of the forward walk: at or after the start, and within what the payment gives. -/
structure TrailKept (s : State) (w : Walk) (c : WalkContext) (t : Trail) : Prop where
  point : c.link.start ≤ t.point
  buying : c.link.start ≤ t.buyingPoint
  money : ∀ a, effectivePayment w c = .cash a ∨ effectivePayment w c = .card a → t.budget ≤ 60 * a
  visitor : ∀ wanted permit, effectivePayment w c = .visitor wanted permit →
    ∃ p, lookup Permit.number permit s.permits = some p ∧
      t.bought + t.inSpan + t.budget ≤ workedAllowance p (today s) (w.time / 1440)

/-- What stands at each stage of a walk that began at its first. -/
def stageKept (s : State) (w : Walk) : Stage → Prop
  | .link => True
  | .checks c => ContextKept w c
  | .budget c first => ContextKept w c ∧ c.link.start ≤ first.stop
  | .forward c t => ContextKept w c ∧ TrailKept s w c t
  | .finish c t _ => ContextKept w c ∧ TrailKept s w c t
  | .place c _ => ContextKept w c
  | .reverse c _ => ContextKept w c
  | .price c _ _ _ => ContextKept w c
  | .done (.result r) => resultInBounds w s.permits (today s) r
  | .done (.refused _ _ _) => True

section
variable {s : State} {w : Walk} {c d : WalkContext} {t : Trail}

theorem ContextKept.raised (h : ContextKept w c) (g : Raised w.pass c d) : ContextKept w d :=
  ⟨by rw [g.link]; exact h.start, g.within h.within⟩

theorem effectivePayment_raised (g : Raised w.pass c d) : effectivePayment w d = effectivePayment w c := by
  unfold effectivePayment
  rw [g.priced]

theorem TrailKept.raised (h : TrailKept s w c t) (g : Raised w.pass c d) : TrailKept s w d t := by
  refine ⟨?_, ?_, ?_, ?_⟩
  · rw [g.link]
    exact h.point
  · rw [g.link]
    exact h.buying
  · rw [effectivePayment_raised g]
    exact h.money
  · rw [effectivePayment_raised g]
    exact h.visitor

theorem refused_kept (st : Status) (k : Option Cond) (conds : CondSet) : stageKept s w (.done (.refused st k conds)) := trivial

/-- Buying never adds to the budget. -/
theorem buy_left (p : Payment) (count room budget : Nat) (steps : List LadderStep) : (buy p count room budget steps).2.1 ≤ budget := by
  cases p with
  | visitor minutes permit => exact Nat.sub_le ..
  | cash a => exact buyMoney_left ..
  | card a => exact buyMoney_left ..

/-- Each visitor minute costs one of the allowance. -/
theorem buy_visitor (minutes permit count room budget : Nat) (steps : List LadderStep) :
    (buy (.visitor minutes permit) count room budget steps).1 + (buy (.visitor minutes permit) count room budget steps).2.1 = budget :=
  Nat.add_sub_cancel' (Nat.min_le_right ..)

/-- The trail after the buying in a span that was entered. -/
theorem TrailKept.bought (h : TrailKept s w c t) {sp : Span} {point count : Nat} (hpoint : c.link.start ≤ point) (room : Nat)
    (steps : List LadderStep) :
    TrailKept s w c { t.enter sp point count with
      point := point + (buy (effectivePayment w c) count room t.budget steps).1
      budget := (buy (effectivePayment w c) count room t.budget steps).2.1
      inSpan := (buy (effectivePayment w c) count room t.budget steps).1, chargedMet := true } := by
  refine ⟨Nat.le_trans hpoint (Nat.le_add_right ..), hpoint, fun a ha => (buy_left ..).trans (h.money a ha), fun wanted permit hp => ?_⟩
  obtain ⟨p, hfound, hle⟩ := h.visitor wanted permit hp
  refine ⟨p, hfound, ?_⟩
  have hbuy := buy_visitor wanted permit count room t.budget steps
  rw [hp]
  dsimp only [Trail.enter]
  omega

/-- The trail after a span that was entered and crossed, or only entered. -/
theorem TrailKept.crossed (h : TrailKept s w c t) {sp : Span} {point count : Nat} (hpoint : c.link.start ≤ point) {z : ZoneMinute}
    (hz : c.link.start ≤ z) : TrailKept s w c { t.enter sp point count with point := z } := by
  refine ⟨hz, hpoint, h.money, fun wanted permit hp => ?_⟩
  obtain ⟨p, hfound, hle⟩ := h.visitor wanted permit hp
  exact ⟨p, hfound, hle⟩

theorem workSpan_kept (hc : ContextKept w c) (ht : TrailKept s w c t) {sp : Span} {point count : Nat} (hpoint : c.link.start ≤ point)
    (hstop : c.link.start ≤ sp.stop) : stageKept s w (workSpan w.pass (effectivePayment w c) c t sp point count) := by
  unfold workSpan
  dsimp only
  cases sp.kind with
  | noSale => exact refused_kept ..
  | free =>
    dsimp only
    split
    · exact ⟨hc, ht.crossed hpoint ht.point⟩
    · exact ⟨hc, ht.crossed hpoint hstop⟩
  | charged steps stay =>
    have hafter := ht.bought (sp := sp) (count := count) hpoint (roomIn sp point count stay) steps
    dsimp only
    split
    · exact ⟨hc, hafter⟩
    · split
      · split
        · exact ⟨hc, hafter⟩
        · exact ⟨hc, hafter⟩
      · split
        · exact ⟨hc, hafter⟩
        · exact raiseCond_holds (P := stageKept s w) refused_kept fun d hd => ⟨hc.raised hd, hafter.raised hd⟩

/-! ### The result -/

theorem roundedMinutes_visitor (wanted permit : Nat) (t : Trail) (why : StopKind) :
    roundedMinutes (.visitor wanted permit) t why ≤ t.inSpan + t.budget := by
  have hfraction : boughtFraction (.visitor wanted permit) t why = (t.inSpan, 1) := by
    cases why <;> rfl
  unfold roundedMinutes
  dsimp only
  rw [hfraction]
  split
  · exact Nat.min_le_right ..
  · dsimp only at *
    omega

theorem excessOf_le (t : Trail) (why : StopKind) : excessOf t why ≤ t.budget / 60 := by
  cases why <;> simp [excessOf]

theorem resultOf_inBounds (hc : ContextKept w c) (ht : TrailKept s w c t) (why : StopKind) {minutes : Nat}
    (hm : ∀ wanted permit, effectivePayment w c = .visitor wanted permit → minutes ≤ t.inSpan + t.budget) :
    resultInBounds w s.permits (today s) (resultOf w c t why minutes) := by
  refine ⟨rfl, rfl, rfl, rfl, rfl, rfl, hc.start, ?_, hc.within, fun amount price excess hterms => ?_, fun permit granted hterms => ?_⟩
  · show c.link.start ≤ if why.rounds then t.buyingPoint + minutes else t.point
    split
    · exact Nat.le_trans ht.buying (Nat.le_add_right ..)
    · exact ht.point
  · have hexcess : ∀ a, effectivePayment w c = .cash a ∨ effectivePayment w c = .card a → a - excessOf t why + excessOf t why = a :=
      fun a ha => Nat.sub_add_cancel (by
        have hle := excessOf_le t why
        have hbudget := ht.money a ha
        omega)
    have hasked : ∀ a, w.request.ask = .forward (.cash a) ∨ w.request.ask = .forward (.card a) →
        effectivePayment w c = .cash a ∨ effectivePayment w c = .card a := by
      unfold effectivePayment
      rintro a (h | h) <;> rw [h]
      · exact .inl rfl
      · exact .inr rfl
    replace hterms : termsOf (effectivePayment w c) t why minutes = .money amount price excess := hterms
    cases hp : effectivePayment w c with
    | cash b =>
      rw [hp] at hterms
      cases hterms
      refine ⟨hexcess amount (.inl hp), fun a ha => ?_⟩
      rw [hp] at hasked
      simpa using hasked a ha
    | card b =>
      rw [hp] at hterms
      cases hterms
      refine ⟨hexcess amount (.inr hp), fun a ha => ?_⟩
      rw [hp] at hasked
      simpa using hasked a ha
    | visitor wanted permit =>
      rw [hp] at hterms
      cases hterms
  · replace hterms : termsOf (effectivePayment w c) t why minutes = .visitor permit granted := hterms
    cases hp : effectivePayment w c with
    | cash b =>
      rw [hp] at hterms
      cases hterms
    | card b =>
      rw [hp] at hterms
      cases hterms
    | visitor wanted number =>
      rw [hp] at hterms
      cases hterms
      refine ⟨⟨wanted, ?_⟩, ?_⟩
      · unfold effectivePayment at hp
        split at hp
        · rename_i h
          rw [h, hp]
        · split at hp <;> cases hp
        · split at hp <;> cases hp
      · obtain ⟨p, hfound, hle⟩ := ht.visitor wanted permit hp
        have hminutes := hm wanted permit hp
        exact ⟨p, hfound, by omega⟩

theorem finishStage_kept (hc : ContextKept w c) (ht : TrailKept s w c t) (why : StopKind) : stageKept s w (finishStage w c t why) := by
  have hrounded : ∀ wanted permit, effectivePayment w c = .visitor wanted permit →
      roundedMinutes (effectivePayment w c) t why ≤ t.inSpan + t.budget := fun wanted permit hp => by
    rw [hp]
    exact roundedMinutes_visitor ..
  unfold finishStage
  dsimp only
  split
  · split
    · exact resultOf_inBounds hc ht why hrounded
    · refine raiseCond_holds (P := stageKept s w) refused_kept fun d hd => ?_
      refine resultOf_inBounds (hc.raised hd) (ht.raised hd) why ?_
      rw [effectivePayment_raised hd]
      exact hrounded
  · exact resultOf_inBounds hc ht why fun _ _ _ => Nat.le_add_right ..

/-! ### The other stages -/

theorem forwardStage_kept (hc : ContextKept w c) (ht : TrailKept s w c t) (tar : Tariff) :
    stageKept s w (forwardStage tar w c t) := by
  unfold forwardStage
  split
  · exact raiseCond_holds (P := stageKept s w) refused_kept fun d hd => ⟨hc.raised hd, ht.raised hd⟩
  · refine enterNext_holds (P := stageKept s w) refused_kept (fun d hd => ⟨hc.raised hd, ht.raised hd⟩) fun d sp hd hsp => ?_
    have hpoint : d.link.start ≤ t.point := (ht.raised hd).point
    have hstop := (spanAt_holds hsp).2
    exact workSpan_kept (hc.raised hd) (ht.raised hd) hpoint (Nat.le_trans hpoint (Nat.le_of_lt hstop))

theorem beginForward_kept (hc : ContextKept w c) {first : Span} (hfirst : c.link.start ≤ first.stop) {budget : Nat}
    (hmoney : ∀ a, effectivePayment w c = .cash a ∨ effectivePayment w c = .card a → budget ≤ 60 * a)
    (hvisitor : ∀ wanted permit, effectivePayment w c = .visitor wanted permit →
      ∃ p, lookup Permit.number permit s.permits = some p ∧ budget ≤ workedAllowance p (today s) (w.time / 1440)) :
    stageKept s w (beginForward w.pass (effectivePayment w c) c first budget) := by
  refine workSpan_kept hc ⟨Nat.le_refl _, Nat.le_refl _, hmoney, fun wanted permit hp => ?_⟩ (Nat.le_refl _) hfirst
  obtain ⟨p, hfound, hle⟩ := hvisitor wanted permit hp
  exact ⟨p, hfound, by dsimp only; omega⟩

/-- Money buys 60 sixtieths a penny (R56). -/
theorem beginMoney_kept (hc : ContextKept w c) {first : Span} (hfirst : c.link.start ≤ first.stop) {p : Payment} {a : Nat}
    (hp : effectivePayment w c = p) (ha : p = .cash a ∨ p = .card a) : stageKept s w (beginForward w.pass p c first (60 * a)) := by
  subst hp
  refine beginForward_kept hc hfirst (fun b hb => ?_) fun wanted permit hv => ?_
  · obtain h | h := ha <;> rw [h] at hb <;> obtain hb | hb := hb <;> cases hb <;> exact Nat.le_refl _
  · obtain h | h := ha <;> rw [h] at hv <;> cases hv

/-- A permit that carries the payment is there, so its allowance bounds the budget (R57, R71). -/
theorem readAllowance_kept (hc : ContextKept w c) {first : Span} (hfirst : c.link.start ≤ first.stop) {minutes permit : Nat}
    (hp : effectivePayment w c = .visitor minutes permit) :
    stageKept (readAllowance s w c first minutes permit).1 w (readAllowance s w c first minutes permit).2 := by
  unfold readAllowance
  split
  · exact refused_kept ..
  · dsimp only
    cases hrefusal : visitorRefusal (findPermit (refreshPermit permit s).permits permit) w.plan (dayOf w.time) with
    | some st => exact refused_kept ..
    | none =>
      obtain ⟨q, b, hq, -, -⟩ := (visitorRefusal_none ..).mp hrefusal
      rw [hq]
      have hbegin : ∀ d budget, Raised w.pass c d → budget ≤ workedAllowance q (today (refreshPermit permit s)) (dayOf w.time) →
          stageKept (refreshPermit permit s) w (beginForward w.pass (.visitor minutes permit) d first budget) := by
        intro d budget hd hle
        have hpd : effectivePayment w d = .visitor minutes permit := (effectivePayment_raised hd).trans hp
        rw [← hpd]
        refine beginForward_kept (hc.raised hd) (by rw [hd.link]; exact hfirst) (fun a ha => ?_) fun wanted number hv => ?_
        · rw [hpd] at ha
          obtain h | h := ha <;> cases h
        · rw [hpd] at hv
          cases hv
          exact ⟨q, hq, hle⟩
      show stageKept _ w (visitorBudget w c first minutes permit (workedAllowance q _ _))
      unfold visitorBudget
      dsimp only
      split
      · exact hbegin c _ (.refl ..) ‹_›
      · split
        · exact refused_kept ..
        · exact raiseCond_holds (P := stageKept _ w) refused_kept fun d hd => hbegin d _ hd (Nat.div_mul_le_self ..)

theorem linkStage_kept (tar : Tariff) (log : List Session) : stageKept s w (linkStage tar log w) := by
  have hunlinked : ContextKept w (unlinked w.time) := ⟨Nat.le_refl _, by simp [unlinked, WalkContext.raised]⟩
  unfold linkStage
  split
  · split
    · exact hunlinked
    · split
      · exact ⟨Nat.le_of_lt ‹_›, by simp [linkedTo, WalkContext.raised]⟩
      · split
        · exact refused_kept ..
        · split
          · exact raiseCond_holds (P := stageKept s w) refused_kept fun d hd => hunlinked.raised hd
          · exact hunlinked
  · exact hunlinked

theorem checksStage_kept (hc : ContextKept w c) (tar : Tariff) : stageKept s w (checksStage tar w c) := by
  unfold checksStage
  split
  · exact refused_kept ..
  · rename_i first hfirst
    have hstop := Nat.le_of_lt (spanAt_holds hfirst).2
    split
    · exact refused_kept ..
    · split
      · exact hc
      · split
        · exact raiseCond_holds (P := stageKept s w) refused_kept fun d hd => ⟨hc.raised hd, by rw [hd.link]; exact hstop⟩
        · exact ⟨hc, hstop⟩

theorem reverseSpan_kept (hc : ContextKept w c) (t : ReverseTrail) (sp : Span) (point count : Nat) :
    stageKept s w (reverseSpan w.pass c t sp point count) := by
  unfold reverseSpan
  cases sp.kind with
  | noSale => exact refused_kept ..
  | free => dsimp only; split <;> exact hc
  | charged steps stay =>
    dsimp only
    split
    · exact hc
    · split
      · exact hc
      · refine raiseCond_holds (P := stageKept s w) refused_kept fun d hd => ?_
        split
        · exact refused_kept ..
        · exact hc.raised hd

theorem stopReverse_kept (hc : ContextKept w c) (t : ReverseTrail) : stageKept s w (stopReverse t c) := by
  unfold stopReverse
  split
  · exact refused_kept ..
  · split
    · exact refused_kept ..
    · exact hc

theorem reverseStage_kept (hc : ContextKept w c) (tar : Tariff) (t : ReverseTrail) : stageKept s w (reverseStage tar w c t) := by
  unfold reverseStage
  split
  · exact raiseCond_holds (P := stageKept s w) refused_kept fun d hd => stopReverse_kept (hc.raised hd) t
  · exact enterNext_holds (P := stageKept s w) refused_kept (fun d hd => stopReverse_kept (hc.raised hd) t)
      fun d sp hd _ => reverseSpan_kept (hc.raised hd) ..

theorem placeStage_kept (hc : ContextKept w c) (tar : Tariff) (first : Span) : stageKept s w (placeStage tar w c first) := by
  have hround : ∀ next : WalkContext → ZoneMinute, stageKept s w (raiseCond w.pass .round c fun d => beginReverse w.pass d first (next d)) :=
    fun _ => raiseCond_holds (P := stageKept s w) refused_kept fun d hd => reverseSpan_kept (hc.raised hd) ..
  unfold placeStage
  split
  · exact refused_kept ..
  · dsimp only
    split
    · exact refused_kept ..
    · split
      · exact refused_kept ..
      · split
        · exact refused_kept ..
        · exact refused_kept ..
        · split
          · exact refused_kept ..
          · split
            · split <;> [exact reverseSpan_kept hc ..; exact hround fun _ => _]
            · split <;> [exact reverseSpan_kept hc ..; exact hround fun _ => _]

theorem priceStage_kept (hc : ContextKept w c) (first : Span) (cost : Nat) (wanted : ZoneMinute) :
    stageKept s w (priceStage c first cost wanted) := by
  unfold priceStage
  dsimp only
  split
  · exact refused_kept ..
  · refine ⟨hc.start, ?_⟩
    obtain ⟨hconds, -⟩ := (or_within ..).mp hc.within
    exact (or_within ..).mpr ⟨BitVec.zero_and, hconds⟩

/-- What stands at a stage does not ask which stage the walk names. -/
theorem stageKept_at (s : State) (w : Walk) (at_ st : Stage) : stageKept s { w with stage := at_ } st ↔ stageKept s w st := by
  have hcontext : ∀ c, ContextKept { w with stage := at_ } c ↔ ContextKept w c := fun c =>
    ⟨fun h => ⟨h.start, h.within⟩, fun h => ⟨h.start, h.within⟩⟩
  have htrail : ∀ c t, TrailKept s { w with stage := at_ } c t ↔ TrailKept s w c t := fun c t =>
    ⟨fun h => ⟨h.point, h.buying, h.money, h.visitor⟩, fun h => ⟨h.point, h.buying, h.money, h.visitor⟩⟩
  cases st with
  | link => exact Iff.rfl
  | checks c => exact hcontext c
  | budget c first => exact and_congr_left' (hcontext c)
  | forward c t => exact and_congr (hcontext c) (htrail c t)
  | finish c t why => exact and_congr (hcontext c) (htrail c t)
  | place c first => exact hcontext c
  | reverse c t => exact hcontext c
  | price c first cost wanted => exact hcontext c
  | done o => cases o <;> exact Iff.rfl

/-- Every stage keeps what stands at it. -/
theorem stageOf_kept (h : stageKept s w w.stage) : stageKept (stageOf s w).1 w (stageOf s w).2 := by
  unfold stageOf nextStage
  cases hst : w.stage with
  | link => exact linkStage_kept ..
  | checks c =>
    rw [hst] at h
    exact checksStage_kept h _
  | budget c first =>
    rw [hst] at h
    obtain ⟨hc, hfirst⟩ := h
    dsimp only
    cases hp : effectivePayment w c with
    | visitor minutes permit => exact readAllowance_kept hc hfirst hp
    | cash a => exact beginMoney_kept hc hfirst hp (.inl rfl)
    | card a => exact beginMoney_kept hc hfirst hp (.inr rfl)
  | forward c t =>
    rw [hst] at h
    exact forwardStage_kept h.1 h.2 _
  | finish c t why =>
    rw [hst] at h
    exact finishStage_kept h.1 h.2 _
  | place c first =>
    rw [hst] at h
    exact placeStage_kept h ..
  | reverse c t =>
    rw [hst] at h
    exact reverseStage_kept h ..
  | price c first cost wanted =>
    rw [hst] at h
    exact priceStage_kept h ..
  | done o =>
    rw [hst] at h
    exact h

end

/-- A walk from its first stage ends within its fuel, and its result keeps its bounds. -/
theorem runStages_bounded (s : State) (w : Walk) (h : w.stage = .link) :
    (∃ k, k < walkFuel ∧ (oneStage^[k] (s, w)).2.stage = .done (runStages walkFuel s w).2) ∧
    ∀ r, (runStages walkFuel s w).2 = .result r → resultInBounds w (runStages walkFuel s w).1.permits (today s) r := by
  have hleft : stagesLeft w w.stage = 40 := by rw [h]; rfl
  obtain ⟨⟨k, hk, hend⟩, hkept⟩ := runStages_ends (P := fun u st => stageKept u w st) walkFuel s w
    (fun u st hst => (stageKept_at ..).mp (stageOf_kept ((stageKept_at ..).mpr hst))) (by rw [h]; trivial) (by rw [hleft]; decide)
  refine ⟨⟨k, Nat.lt_of_le_of_lt hk (by rw [hleft]; decide), hend⟩, fun r hr => ?_⟩
  rw [hr] at hkept
  have hclock : (runStages walkFuel s w).1.clock = s.clock := runStages_frame s _ w .clock (by decide)
  have htoday : today (runStages walkFuel s w).1 = today s := by unfold today; rw [hclock]
  rw [← htoday]
  exact hkept

/-! ## What each stage reads (R42, R46, R47) -/

/-- A stage other than the budget reads the tariff and the log, and leaves the state. -/
theorem stageOf_eq {s : State} {w : Walk} {st stage : Stage} (hst : w.stage = st) (h : ∀ c first, st ≠ .budget c first)
    (hn : nextStage (tariffOf s w) s.sales.log w = stage) : stageOf s w = (s, stage) := by
  subst hst hn
  unfold stageOf
  cases hst : w.stage with
  | budget c first => exact absurd hst (h c first)
  | _ => rfl

/-! ## The tariff (R16, R17, R47) -/

theorem servedByStaged_iff (tar : Tariff) (day : Nat) :
    tar.servedByStaged day = true ↔ tar.test = false ∧ ∃ k from_, tar.staged = some (k, from_) ∧ from_ ≤ day := by
  unfold Tariff.servedByStaged
  cases tar.staged with
  | none => simp
  | some v =>
    obtain ⟨k, from_⟩ := v
    simp

theorem book_active {tar : Tariff} {day : Nat} (h : tar.servedByStaged day = false) : tar.book day = tar.active := by
  unfold Tariff.book
  rw [h]
  cases tar.staged <;> rfl

theorem book_staged {tar : Tariff} {day : Nat} {k : Book} {from_ : Nat} (hs : tar.staged = some (k, from_))
    (h : tar.servedByStaged day = true) : tar.book day = k := by
  unfold Tariff.book
  rw [hs, h]
  rfl

theorem spanAt_fits {tar : Tariff} (h : tar.test = false) (z : ZoneMinute) : instanceFits tar z (tar.spanAt z) := by
  unfold instanceFits Tariff.spanAt
  rw [h]
  refine ⟨fun hplan => ?_, fun plan periods hplan hperiods hordered q ends hholds => ?_⟩
  · simp only [Bool.false_eq_true, if_false]
    show (match row (tar.book (z / 1440)).plans tar.plan with | none => _ | some plan => _) = _
    rw [hplan]
  · have hperiod : periodAt (minuteOf z) periods = some (q, ends) := periodAt_eq _ _ hordered.2 q ends hholds
    simp only [Bool.false_eq_true, if_false]
    show (match row (tar.book (z / 1440)).plans tar.plan with | none => _ | some plan => _) = _
    rw [hplan]
    show (match row plan.patterns (dayType tar.overrides (tar.book (z / 1440)) (z / 1440)) with | none => _ | some periods => _) = _
    rw [hperiods]
    dsimp only
    rw [hperiod]
    rfl

theorem spanAt_test {tar : Tariff} (h : tar.test = true) (z : ZoneMinute) : tar.spanAt z = some (testSpan (z / 1440)) := by
  unfold Tariff.spanAt
  rw [if_pos h]
  rfl

theorem dayType_override {overrides : List Override} {o : Override} {day : Nat} (k : Book)
    (h : lookup Override.day day overrides = some o) : dayType overrides k day = o.dayType := by
  unfold dayType
  rw [h]

theorem dayType_calendar {overrides : List Override} {k : Book} {e : CalendarEntry} {day : Nat}
    (h : lookup Override.day day overrides = none) (he : lookup CalendarEntry.day day k.calendar = some e) :
    dayType overrides k day = e.dayType := by
  unfold dayType
  rw [h, he]

theorem dayType_weekday {overrides : List Override} {k : Book} {day : Nat} (h : lookup Override.day day overrides = none)
    (he : lookup CalendarEntry.day day k.calendar = none) : (dayType overrides k day).val = day % 7 := by
  unfold dayType
  rw [h, he]
  show day % 7 % 9 = day % 7
  omega

/-! ## Working a span (R59 to R61) -/

section
variable {pass : CondSet} {p : Payment} {c : WalkContext} {t : Trail} {sp : Span} {point count : Nat}

theorem workSpan_free (h : sp.kind = .free) : workSpan pass p c t sp point count =
    if t.entered = 0 ∧ t.budget = 0 then .finish c (t.enter sp point count) .freeStart
    else .forward c { t.enter sp point count with point := sp.stop } := by
  unfold workSpan
  rw [h]

/-- The trail after the buying in a CHARGED span, by what the buying gave. -/
def spent (t : Trail) (sp : Span) (point count : Nat) (got : Nat × Nat × Option Nat) : Trail :=
  { t.enter sp point count with point := point + got.1, budget := got.2.1, inSpan := got.1, chargedMet := true }

theorem workSpan_charged {steps : List LadderStep} {stay : Nat} {got : Nat × Nat × Option Nat} (h : sp.kind = .charged steps stay)
    (hgot : buy p count (roomIn sp point count stay) t.budget steps = got) : workSpan pass p c t sp point count =
    match got.2.2 with
    | some rate => .finish c (spent t sp point count got) (.want rate)
    | none =>
      if (spent t sp point count got).point = sp.stop then
        if (spent t sp point count got).budget = 0 then .finish c (spent t sp point count got) .exhausted
        else .forward c (spent t sp point count got)
      else if (spent t sp point count got).budget = 0 then .finish c (spent t sp point count got) (.want 0)
      else raiseCond pass .cap c fun c => .finish c (spent t sp point count got) .cap := by
  subst hgot
  unfold workSpan
  rw [h]
  rfl

end

/-! ## O29 -/

/-- Settles O29. -/
theorem everyWalkEnds : Obligations.EveryWalkEnds := by
  refine ⟨runStages_bounded, fun s w => ?_, fun tar z => ?_, fun overrides k day => ?_, fun tar w c t => ?_, ?_⟩
  · dsimp only
    refine ⟨fun h => ?_, fun c h => ?_, fun c t h => ?_, fun c t why h => ?_, fun c first h => ?_, fun c t h => ?_,
      fun c first cost wanted h => ?_, fun o h => ?_, rfl, rfl, rfl, rfl, beq_iff_eq⟩
    all_goals exact stageOf_eq h (by nofun) (by rw [nextStage, h])
  · refine ⟨servedByStaged_iff .., book_active, fun k from_ hs => book_staged hs, fun h => spanAt_fits h z, fun h => spanAt_test h z⟩
  · exact ⟨fun o h => dayType_override k h, fun h => ⟨fun e he => dayType_calendar h he, fun he => dayType_weekday h he⟩⟩
  · refine ⟨fun h => ?_, fun he hz => ?_⟩
    · unfold forwardStage
      rw [if_pos ((tooLong_iff ..).mpr h)]
      exact raiseCond_spec ..
    · unfold forwardStage
      rw [if_neg (mt (tooLong_iff ..).mp fun h => h.elim (Nat.not_le.mpr he) (Nat.not_lt.mpr hz))]
      exact enterNext_spec ..
  · intro pass p c t sp point count
    refine ⟨fun h => workSpan_free h, fun steps stay h => ?_⟩
    obtain ⟨got, hgot⟩ : ∃ got, buy p count (roomIn sp point count stay) t.budget steps = got := ⟨_, rfl⟩
    have hwork := workSpan_charged (pass := pass) (c := c) h hgot
    dsimp only
    rw [show buy p count (min (sp.stop - point) (stay - count)) t.budget steps = got from hgot]
    refine ⟨fun rate hrate => ?_, fun hnone hend => ?_, fun hnone hend hbudget => ?_, fun hnone hend hbudget => ?_⟩
    · rw [hwork, hrate]
      rfl
    · rw [hwork, hnone]
      exact if_pos hend
    · rw [hwork, hnone]
      exact (if_neg hend).trans (if_pos hbudget)
    · have hcap : workSpan pass p c t sp point count = raiseCond pass .cap c fun c => .finish c (spent t sp point count got) .cap := by
        rw [hwork, hnone]
        exact (if_neg hend).trans (if_neg (Nat.ne_of_gt hbudget))
      rw [hcap]
      exact raiseCond_spec ..

end Sys2Proof.Proofs
end

section
/-! PROOFS. Buying with money, the reverse walk and the price of a PRICE (O30). -/

namespace Sys2Proof.Proofs
open Sys2Proof Sys2Proof.Machine

/-! ## The cost of a ladder (R18) -/

section
variable {c n : Nat} {st : LadderStep} (rest : List LadderStep)

theorem ladderCost_past (h : st.limit ≤ c) : ladderCost c n (st :: rest) = ladderCost c n rest := by
  rw [ladderCost]
  split
  · subst n
    exact (ladderCost_zero ..).symm
  · rfl

theorem ladderCost_within (h : c + n ≤ st.limit) : ladderCost c n (st :: rest) = n * st.rate := by
  rw [ladderCost]
  split
  · subst n
    exact (Nat.zero_mul _).symm
  · rw [if_neg (by omega), Nat.min_eq_right (by omega)]
    dsimp only
    rw [Nat.sub_self, ladderCost_zero]
    rfl

theorem ladderCost_over (hc : c ≤ st.limit) (h : st.limit ≤ c + n) :
    ladderCost c n (st :: rest) = (st.limit - c) * st.rate + ladderCost st.limit (n - (st.limit - c)) rest := by
  obtain heq | hlt := Nat.eq_or_lt_of_le hc
  · subst heq
    rw [ladderCost_past rest (Nat.le_refl _), Nat.sub_self, Nat.zero_mul, Nat.zero_add, Nat.sub_zero]
  · rw [ladderCost, if_neg (by omega), if_neg (by omega), Nat.min_eq_left (by omega)]
    dsimp only
    rw [Nat.add_sub_cancel' hc]

end

theorem range_rates (steps : List LadderStep) (c run k : Nat) :
    ((List.range (run + k)).map fun i => rateAt steps (c + i + 1)).sum =
      ((List.range run).map fun i => rateAt steps (c + i + 1)).sum +
        ((List.range k).map fun i => rateAt steps (c + run + i + 1)).sum := by
  rw [List.range_add, List.map_append, List.sum_append, List.map_map]
  refine congrArg _ (congrArg _ (List.map_congr_left fun i _ => ?_))
  show rateAt steps (c + (run + i) + 1) = _
  rw [Nat.add_assoc c run i]

theorem rates_const {f : Nat → Nat} {n r : Nat} (h : ∀ i, i < n → f i = r) : ((List.range n).map f).sum = n * r := by
  rw [List.map_congr_left (g := fun _ => r) fun i hi => h i (List.mem_range.mp hi)]
  simp

/-- Each minute costs the rate of its ladder step (R18). -/
theorem ladderCost_rates (steps : List LadderStep) (c n : Nat) :
    ladderCost c n steps = ((List.range n).map fun i => rateAt steps (c + i + 1)).sum := by
  induction steps generalizing c n with
  | nil => exact (rates_const (r := 0) fun _ _ => rfl).symm ▸ (Nat.mul_zero _).symm
  | cons st rest ih =>
    have hskip : ∀ c n, st.limit ≤ c → ((List.range n).map fun i => rateAt (st :: rest) (c + i + 1)).sum = ladderCost c n rest := by
      intro c n hc
      rw [ih]
      exact congrArg _ (List.map_congr_left fun i _ => rateAt_skip _ _ _ (by omega))
    by_cases hc : st.limit ≤ c
    · rw [ladderCost_past rest hc, hskip c n hc]
    · have hhere : ∀ k, c + k ≤ st.limit → ((List.range k).map fun i => rateAt (st :: rest) (c + i + 1)).sum = k * st.rate :=
        fun k hk => rates_const fun i hi => rateAt_here _ _ _ (by omega)
      by_cases hn : c + n ≤ st.limit
      · rw [ladderCost_within rest hn, hhere n hn]
      · obtain ⟨k, rfl⟩ : ∃ k, n = st.limit - c + k := ⟨n - (st.limit - c), by omega⟩
        rw [ladderCost_over rest (by omega) (by omega), range_rates, hhere _ (by omega), hskip _ _ (by omega), Nat.add_sub_cancel_left,
          Nat.add_sub_cancel' (by omega)]

/-! ## Buying with money (R60) -/

/-- What the buying of minutes with money says of its outcome: the minutes bought, the budget left and the rate not covered. -/
structure Bought (c room budget : Nat) (steps : List LadderStep) (got : Nat × Nat × Option Nat) : Prop where
  within : got.1 ≤ room
  cost : got.2.1 + ladderCost c got.1 steps = budget
  whole : got.2.2 = none → got.1 = room
  want : ∀ rate, got.2.2 = some rate → got.1 < room ∧
    ((rate = rateAt steps (c + got.1 + 1) ∧ got.2.1 < rate) ∨ (rate = 0 ∧ got.2.1 = 0))
  most : ∀ m, m ≤ room → ladderCost c m steps ≤ budget → 0 < got.2.1 ∨ got.2.2 = none → m ≤ got.1

/-- The steps rise, and reach the minutes of the room. -/
def reaches (c room : Nat) (steps : List LadderStep) : Prop :=
  steps.Pairwise (fun a b => a.limit < b.limit) ∧ (room = 0 ∨ ∃ l, steps.getLast?.map LadderStep.limit = some l ∧ c + room ≤ l)

section
variable {c room budget : Nat} {st : LadderStep} {rest : List LadderStep} {got : Nat × Nat × Option Nat}

theorem bought_noRoom (c budget : Nat) (steps : List LadderStep) : Bought c 0 budget steps (0, budget, none) where
  within := Nat.le_refl _
  cost := by rw [ladderCost_zero]; rfl
  whole _ := rfl
  want _ h := by cases h
  most _ hm _ _ := hm

theorem bought_noBudget (h : room ≠ 0) (c : Nat) (steps : List LadderStep) : Bought c room 0 steps (0, 0, some 0) where
  within := Nat.zero_le _
  cost := by rw [ladderCost_zero]
  whole h := by cases h
  want rate hr := by
    cases hr
    exact ⟨Nat.pos_of_ne_zero h, .inr ⟨rfl, rfl⟩⟩
  most _ _ _ h := by
    obtain h | h := h <;> cases h

/-- Past a step, the steps after it sell. -/
theorem Bought.past (h : Bought c room budget rest got) (hc : st.limit ≤ c) : Bought c room budget (st :: rest) got where
  within := h.within
  cost := by rw [ladderCost_past rest hc]; exact h.cost
  whole := h.whole
  want rate hr := by
    rw [rateAt_skip _ _ _ (by omega)]
    exact h.want rate hr
  most m hm hcost := by
    rw [ladderCost_past rest hc] at hcost
    exact h.most m hm hcost

/-- Within a step whose run the budget does not cover. -/
theorem bought_part {n : Nat} (hn : n < room) (hlimit : c + n < st.limit) (hcost : n * st.rate ≤ budget)
    (hleft : budget - n * st.rate < st.rate) (rest : List LadderStep) :
    Bought c room budget (st :: rest) (n, budget - n * st.rate, some st.rate) where
  within := Nat.le_of_lt hn
  cost := by
    rw [ladderCost_within rest (Nat.le_of_lt hlimit)]
    exact Nat.sub_add_cancel hcost
  whole h := by cases h
  want rate hr := by
    cases hr
    exact ⟨hn, .inl ⟨(rateAt_here _ _ _ hlimit).symm, hleft⟩⟩
  most m hm hm' _ := by
    by_contra hlt
    have hmore := ladderCost_mono (st :: rest) c (n + 1) m (by dsimp only at hlt; omega)
    rw [ladderCost_within rest (show c + (n + 1) ≤ st.limit from hlimit), Nat.add_one_mul] at hmore
    omega

/-- A whole run of a step, and what follows it. -/
theorem bought_run {run left : Nat} {more : Nat × Nat × Option Nat} (hrun : run = min (st.limit - c) room) (hc : c < st.limit)
    (hleft : left + run * st.rate = budget) (h : Bought (c + run) (room - run) left rest more) :
    Bought c room budget (st :: rest) (run + more.1, more.2) := by
  have hover : ∀ k, run = room ∧ k = 0 ∨ c + run = st.limit →
      ladderCost c (run + k) (st :: rest) = run * st.rate + ladderCost (c + run) k rest := by
    rintro k (⟨hr, rfl⟩ | hr)
    · rw [ladderCost_within rest (by omega), ladderCost_zero]
      rfl
    · rw [ladderCost_over rest (by omega) (by omega), ← hr, Nat.add_sub_cancel_left, Nat.add_sub_cancel_left]
  have hwithin := h.within
  refine ⟨by dsimp only; omega, ?_, fun hnone => ?_, fun rate hr => ?_, fun m hm hcost hcond => ?_⟩
  · have hcost := h.cost
    dsimp only
    rw [hover _ (by omega)]
    omega
  · have hwhole := h.whole hnone
    dsimp only
    omega
  · obtain ⟨hlt, hrate⟩ := h.want rate hr
    refine ⟨by dsimp only; omega, ?_⟩
    rwa [show c + (run + more.1, more.2).1 + 1 = c + run + more.1 + 1 from by dsimp only; omega, rateAt_skip _ _ _ (by omega)]
  · by_cases hmrun : m ≤ run
    · exact Nat.le_trans hmrun (Nat.le_add_right ..)
    · obtain ⟨k, rfl⟩ : ∃ k, m = run + k := ⟨m - run, by omega⟩
      rw [hover k (by omega)] at hcost
      exact Nat.add_le_add_left (h.most k (by omega) (by omega) hcond) run

/-- The steps after one whose limit lies within the room reach the rest of it. -/
theorem reaches_rest {d k : Nat} (h : reaches c room (st :: rest)) (hst : k = 0 ∨ st.limit ≤ d) (hk : d + k ≤ c + room)
    (hroom : k ≤ room) : reaches d k rest := by
  obtain ⟨hrising, hreach⟩ := h
  refine ⟨(List.pairwise_cons.mp hrising).2, ?_⟩
  by_cases hk0 : k = 0
  · exact .inl hk0
  · obtain hroom0 | ⟨l, hl, hle⟩ := hreach
    · exact absurd hroom0 (by omega)
    · refine .inr ⟨l, ?_, by omega⟩
      cases rest with
      | nil =>
        have : st.limit = l := by simpa using hl
        omega
      | cons a rest => exact hl

theorem buyMoney_bought (steps : List LadderStep) (c room budget : Nat) (h : reaches c room steps) :
    Bought c room budget steps (buyMoney c room budget steps) := by
  induction steps generalizing c room budget with
  | nil =>
    obtain ⟨-, rfl | ⟨l, hl, -⟩⟩ := h
    · exact bought_noRoom ..
    · cases hl
  | cons st rest ih =>
    rw [buyMoney]
    by_cases h0 : room = 0
    · subst h0
      rw [if_pos rfl]
      exact bought_noRoom ..
    · rw [if_neg h0]
      by_cases hc : st.limit ≤ c
      · rw [if_pos hc]
        exact (ih c room budget (reaches_rest h (.inr hc) (Nat.le_refl _) (Nat.le_refl _))).past hc
      · rw [if_neg hc]
        by_cases hb : budget = 0
        · subst hb
          rw [if_pos rfl]
          exact bought_noBudget h0 ..
        · rw [if_neg hb]
          obtain ⟨run, hrun⟩ : ∃ run, run = min (st.limit - c) room := ⟨_, rfl⟩
          rw [← hrun]
          have hnext : ∀ n, n = run → n * st.rate ≤ budget → Bought c room budget (st :: rest)
              (n + (buyMoney (c + n) (room - n) (budget - n * st.rate) rest).1,
                (buyMoney (c + n) (room - n) (budget - n * st.rate) rest).2) := by
            rintro n rfl hcost
            exact bought_run hrun (by omega) (Nat.sub_add_cancel hcost) (ih _ _ _ (reaches_rest h (by omega) (by omega) (by omega)))
          dsimp only
          by_cases hrate : st.rate = 0
          · rw [if_pos hrate, if_neg (Nat.lt_irrefl run)]
            exact hnext run rfl (by rw [hrate]; exact Nat.zero_le _)
          · rw [if_neg hrate]
            have hcost := Nat.div_mul_le_self budget st.rate
            by_cases hrun' : run ≤ budget / st.rate
            · rw [Nat.min_eq_left hrun', if_neg (Nat.lt_irrefl run)]
              exact hnext run rfl (Nat.le_trans (Nat.mul_le_mul_right _ hrun') hcost)
            · rw [Nat.min_eq_right (by omega), if_pos (by omega)]
              refine bought_part (by omega) (by omega) hcost ?_ rest
              rw [← Nat.mod_eq_sub_div_mul]
              exact Nat.mod_lt _ (by omega)

end

/-! ## Placing the wanted expiry (R66, R67) -/

section
variable {tar : Tariff} {st z : ZoneMinute} {fuel : Nat}

theorem lastChargedBefore_start (h : z ≤ st) : lastChargedBefore tar st (fuel + 1) z = none := if_pos h

theorem lastChargedBefore_none (h : st < z) (hsp : tar.spanAt (z - 1) = none) :
    lastChargedBefore tar st (fuel + 1) z = some none := by
  rw [lastChargedBefore, if_neg (Nat.not_le.mpr h), hsp]

theorem lastChargedBefore_some (h : st < z) {sp : Span} (hsp : tar.spanAt (z - 1) = some sp) :
    lastChargedBefore tar st (fuel + 1) z =
      if isCharged sp then some (some sp) else lastChargedBefore tar st fuel sp.start := by
  rw [lastChargedBefore, if_neg (Nat.not_le.mpr h), hsp]

theorem getLast_start (sp : Span) (back : List Span) (z : ZoneMinute) :
    ((sp :: back).getLast?.map Span.start).getD z = (back.getLast?.map Span.start).getD sp.start := by
  cases back with
  | nil => rfl
  | cons a rest =>
    rw [List.getLast?_cons_cons]
    cases h : (a :: rest).getLast? with
    | none => simp at h
    | some b => rfl

/-- The walk back over spans that are not CHARGED goes on from the start of the last of them, with fuel enough. -/
theorem lastChargedBefore_uncharged (back : List Span) (hfuel : z < fuel) (h : uncharged tar st back z) :
    ∃ f, lastChargedBefore tar st fuel z = lastChargedBefore tar st (f + 1) ((back.getLast?.map Span.start).getD z) := by
  induction back generalizing z fuel with
  | nil => exact ⟨fuel - 1, by rw [Nat.sub_add_cancel (Nat.lt_of_le_of_lt (Nat.zero_le _) hfuel)]; rfl⟩
  | cons sp rest ih =>
    obtain ⟨hst, hsp, hcharged, hrest⟩ := h
    obtain ⟨fuel, rfl⟩ : ∃ k, fuel = k + 1 := ⟨fuel - 1, (Nat.sub_add_cancel (Nat.lt_of_le_of_lt (Nat.zero_le _) hfuel)).symm⟩
    have hback : sp.start < fuel :=
      (by omega : ∀ a z st fuel : Nat, a ≤ z - 1 → st < z → z < fuel + 1 → a < fuel) _ z st _ (spanAt_holds hsp).1 hst hfuel
    rw [lastChargedBefore_some hst hsp, if_neg (by rw [hcharged]; decide), getLast_start]
    exact ih hback hrest

end

section
variable {tar : Tariff} {w : Walk} {c : WalkContext} {first : Span} {wanted : ZoneMinute}

/-- The wanted expiry placed in a CHARGED span `q`: taken as it stands on the grid, or moved up to it (R67 (ii)). -/
def placedIn (w : Walk) (c : WalkContext) (first q : Span) (z : ZoneMinute) : Stage :=
  if z ≤ c.link.start then refuseWalk c .badField
  else if (z - if q.start ≤ c.link.start then c.link.start else q.start) % q.header.minuteStep = 0 then beginReverse w.pass c first z
  else raiseCond w.pass .round c fun d => beginReverse w.pass d first (gridWanted q c.link.start z)

/-- What the placing makes of the CHARGED span it looks for: none before the start, none in the book, or that span. -/
def placedAt (w : Walk) (c : WalkContext) (first : Span) : Option (Option (Span × ZoneMinute)) → Stage
  | none => refuseWalk c .badField
  | some none => refuseWalk c .noPlan
  | some (some (q, z)) => placedIn w c first q z

theorem placeStage_early (hw : reverseWanted w c = some wanted) (h : wanted ≤ c.link.start) :
    placeStage tar w c first = refuseWalk c .badField := by
  unfold placeStage
  rw [hw]
  exact if_pos h

theorem placeStage_none (hw : reverseWanted w c = some wanted) (h : c.link.start < wanted) (hsp : tar.spanAt (wanted - 1) = none) :
    placeStage tar w c first = refuseWalk c .noPlan := by
  unfold placeStage
  rw [hw]
  dsimp only
  rw [if_neg (Nat.not_le.mpr h), hsp]

theorem placeStage_some (hw : reverseWanted w c = some wanted) (h : c.link.start < wanted) {sp : Span}
    (hsp : tar.spanAt (wanted - 1) = some sp) : placeStage tar w c first = placedAt w c first (
      if isCharged sp then some (some (sp, wanted))
      else (lastChargedBefore tar c.link.start (sp.start + 1) sp.start).map fun f => f.map fun q => (q, q.stop)) := by
  unfold placeStage
  rw [hw]
  dsimp only
  rw [if_neg (Nat.not_le.mpr h), hsp]
  dsimp only
  generalize (if isCharged sp then some (some (sp, wanted))
      else (lastChargedBefore tar c.link.start (sp.start + 1) sp.start).map fun f => f.map fun q => (q, q.stop)) = target
  cases target with
  | none => rfl
  | some f =>
    cases f with
    | none => rfl
    | some q => rfl

/-- Placed in a CHARGED span, in the terms of the claims. -/
theorem placedIn_spec (w : Walk) (c : WalkContext) (first q : Span) (z : ZoneMinute) :
    let st := c.link.start
    let from_ := max st q.start
    (z ≤ st → placedIn w c first q z = .done (.refused .badField none c.raised)) ∧
    (st < z → (z - from_) % q.header.minuteStep = 0 → placedIn w c first q z = beginReverse w.pass c first z) ∧
    (st < z → (z - from_) % q.header.minuteStep ≠ 0 → conditionRaised w.pass .round c (fun c => beginReverse w.pass c first
      (min (z + (q.header.minuteStep - (z - from_) % q.header.minuteStep)) q.stop)) (placedIn w c first q z)) := by
  have hfrom : (if q.start ≤ c.link.start then c.link.start else q.start) = max c.link.start q.start := by
    split
    · exact (Nat.max_eq_left ‹_›).symm
    · exact (Nat.max_eq_right (Nat.le_of_not_le ‹_›)).symm
  unfold placedIn gridWanted
  rw [hfrom]
  dsimp only
  refine ⟨fun h => if_pos h, fun h h0 => ?_, fun h h0 => ?_⟩
  · rw [if_neg (Nat.not_le.mpr h), if_pos h0]
  · rw [if_neg (Nat.not_le.mpr h), if_neg h0, if_neg h0]
    exact raiseCond_spec ..

end

/-! ## Working back a span, and the price (R68, R69) -/

theorem reverseSpan_free {pass : CondSet} {c : WalkContext} {t : ReverseTrail} {sp : Span} {point count : Nat} (h : sp.kind = .free) :
    reverseSpan pass c t sp point count =
      if t.wanted ≤ sp.stop then .price c t.first t.cost t.wanted else .reverse c { t with point := sp.stop, entered := t.entered + 1 } := by
  unfold reverseSpan
  rw [h]

theorem reverseSpan_charged {pass : CondSet} {c : WalkContext} {t : ReverseTrail} {sp : Span} {point count : Nat}
    {steps : List LadderStep} {stay : Nat} (h : sp.kind = .charged steps stay) : reverseSpan pass c t sp point count =
      if t.wanted - point ≤ roomIn sp point count stay then
        .price c t.first (t.cost + ladderCost count (t.wanted - point) steps) t.wanted
      else if point + roomIn sp point count stay = sp.stop then
        .reverse c { t with
          point := sp.stop, entered := t.entered + 1, chargedMet := true
          cost := t.cost + ladderCost count (roomIn sp point count stay) steps, lastChargedEnd := some sp.stop }
      else raiseCond pass .cap c fun c =>
        if point + roomIn sp point count stay / sp.header.minuteStep * sp.header.minuteStep ≤ c.link.start then refuseWalk c .badField
        else .price c t.first
          (t.cost + ladderCost count (roomIn sp point count stay / sp.header.minuteStep * sp.header.minuteStep) steps)
          (point + roomIn sp point count stay / sp.header.minuteStep * sp.header.minuteStep) := by
  unfold reverseSpan
  rw [h]

theorem div_mul_eq_sub_mod (a b : Nat) : a / b * b = a - a % b := by
  have h := Nat.div_add_mod' a b
  omega

theorem stopReverse_eq (t : ReverseTrail) (c : WalkContext) : stopReverse t c =
    match t.lastChargedEnd with
    | some e => if c.link.start < e then Stage.price c t.first t.cost e else .done (.refused .badField none c.raised)
    | none => .done (.refused .badField none c.raised) := by
  unfold stopReverse
  cases t.lastChargedEnd with
  | none => rfl
  | some e =>
    dsimp only
    by_cases h : c.link.start < e
    · rw [if_pos h, if_neg (Nat.not_le.mpr h)]
    · rw [if_neg h, if_pos (Nat.le_of_not_lt h)]
      rfl

/-- The least multiple of a unit that is not below (R69 (iii)). -/
theorem stepsUp_le_iff {unit : Nat} (hu : 0 < unit) (n k : Nat) : stepsUp n unit ≤ k * unit ↔ n ≤ k * unit := by
  unfold stepsUp
  rw [Nat.mul_le_mul_right_iff hu, Nat.div_le_iff_le_mul_add_pred hu]
  rw [Nat.mul_comm unit k]
  omega

theorem priceOf_spec {h : PlanHeader} (hu : 0 < h.coinUnit) (cost : Nat) :
    priceOf h cost % h.coinUnit = 0 ∧ ∀ k, priceOf h cost ≤ k * h.coinUnit ↔
      cost ≤ 60 * (k * h.coinUnit) ∧ h.minimumCharge ≤ k * h.coinUnit ∧ h.coinUnit ≤ k * h.coinUnit := by
  refine ⟨Nat.mul_mod_left .., fun k => (stepsUp_le_iff hu ..).trans ?_⟩
  generalize k * h.coinUnit = x
  omega

/-- Settles O30. -/
theorem moneyBuysWholeMinutes : Obligations.MoneyBuysWholeMinutes := by
  refine ⟨fun c room budget steps hordered hroom => ?_, fun c n steps => ladderCost_rates steps c n,
    fun c room budget steps => ⟨fun amount => ⟨rfl, rfl⟩, fun minutes permit => rfl⟩, fun tar w c first wanted hw => ?_,
    fun pass c first wanted => rfl, fun pass c t sp point count => ?_, fun tar w c t => ?_, fun c first cost wanted hu => ?_⟩
  · have h := buyMoney_bought steps c room budget ⟨hordered.1, .inr ⟨1440, hordered.2, hroom⟩⟩
    exact ⟨h.within, h.cost, h.whole, h.want, h.most⟩
  · dsimp only
    refine ⟨placeStage_early hw, placeStage_none hw, fun sp hst hsp hcharged => ?_, fun sp back hback => ?_⟩
    · rw [placeStage_some hw hst hsp, if_pos hcharged]
      exact placedIn_spec ..
    · obtain ⟨hst, hsp, hcharged, hrest⟩ := hback
      obtain ⟨f, hlast⟩ := lastChargedBefore_uncharged back (Nat.lt_succ_self _) hrest
      rw [placeStage_some hw hst hsp, if_neg (by rw [hcharged]; decide), hlast, getLast_start]
      refine ⟨fun hz => ?_, fun hz hnone => ?_, fun q hz hq hqc => ?_⟩
      · rw [lastChargedBefore_start hz]
        rfl
      · rw [lastChargedBefore_none hz hnone]
        rfl
      · rw [lastChargedBefore_some hz hq, if_pos hqc]
        exact placedIn_spec ..
  · dsimp only
    refine ⟨fun h => reverseSpan_free h, fun steps stay h => ⟨fun hfits => ?_, fun hpast hend => ?_, fun hpast hend => ?_⟩⟩
    · rw [reverseSpan_charged h]
      exact if_pos hfits
    · rw [reverseSpan_charged h]
      exact (if_neg (Nat.not_le.mpr hpast)).trans (if_pos hend)
    · have hcap := (reverseSpan_charged (pass := pass) (c := c) (t := t) (count := count) h).trans
        ((if_neg (Nat.not_le.mpr hpast)).trans (if_neg hend))
      rw [hcap, ← div_mul_eq_sub_mod]
      exact raiseCond_spec ..
  · have hback : stopReverse t = fun c : WalkContext =>
        match t.lastChargedEnd with
        | some e => if c.link.start < e then Stage.price c t.first t.cost e else .done (.refused .badField none c.raised)
        | none => .done (.refused .badField none c.raised) := funext (stopReverse_eq t)
    refine ⟨fun h => ?_, fun he hz => ?_⟩
    · rw [reverseStage, if_pos ((tooLong_iff ..).mpr h), hback]
      exact raiseCond_spec ..
    · rw [reverseStage, if_neg (mt (tooLong_iff ..).mp fun h => h.elim (Nat.not_le.mpr he) (Nat.not_lt.mpr hz)), hback]
      exact enterNext_spec ..
  · obtain ⟨hunit, hleast⟩ := priceOf_spec hu cost
    exact ⟨priceOf first.header cost, hunit, hleast, fun h => if_pos h, fun h => if_neg (Nat.not_lt.mpr h)⟩

end Sys2Proof.Proofs
end

section
/-! PROOFS. Rounding to the minute step, and the result of a walk (O31). -/

namespace Sys2Proof.Proofs
open Sys2Proof Sys2Proof.Machine

/-! ## The four modes (R63) -/

/-- Does the mode go up to the next step, where `rest` of a step of `unit` is left after `k` whole steps? -/
def goesUp (mode : Rounding) (unit k rest : Nat) : Bool :=
  match mode with
  | .floor => false
  | .ceil => decide (0 < rest)
  | .halfUp => decide (unit ≤ 2 * rest)
  | .halfEven => decide (unit < 2 * rest) || (decide (2 * rest = unit) && decide (k % 2 = 1))

/-- A rounded value is a number of steps: those that are whole, or one more. -/
theorem roundTo_eq (mode : Rounding) (step num den : Nat) : roundTo mode step num den =
    (if goesUp mode (step * den) (num / (step * den)) (num % (step * den)) then num / (step * den) + 1 else num / (step * den)) * step := by
  unfold roundTo goesUp
  cases mode <;> rfl

/-- The numbers that a rounding goes by: whole steps `k` of `unit`, with `rest` left. -/
structure Steps (step num den k rest : Nat) : Prop where
  whole : k * (step * den) + rest = num
  left : rest < step * den

theorem steps_of {step den : Nat} (num : Nat) (hs : 0 < step) (hd : 0 < den) :
    Steps step num den (num / (step * den)) (num % (step * den)) :=
  ⟨Nat.div_add_mod' .., Nat.mod_lt _ (Nat.mul_pos hs hd)⟩

theorem steps_value {step den k : Nat} {up : Bool} :
    (if up then k + 1 else k) * step * den = k * (step * den) + if up then step * den else 0 := by
  rw [Nat.mul_assoc]
  cases up
  · rfl
  · exact Nat.add_one_mul ..

section
variable {step num den : Nat} (hs : 0 < step) (hd : 0 < den)
include hs hd

/-- A rounded value, as the number it rounds to. -/
theorem roundTo_value (mode : Rounding) : ∃ k rest, Steps step num den k rest ∧
    roundTo mode step num den / step = (if goesUp mode (step * den) k rest then k + 1 else k) ∧
    roundTo mode step num den * den = k * (step * den) + if goesUp mode (step * den) k rest then step * den else 0 := by
  refine ⟨_, _, steps_of num hs hd, ?_, ?_⟩
  · rw [roundTo_eq, Nat.mul_div_cancel _ hs]
  · rw [roundTo_eq, steps_value]

theorem roundTo_floor : roundTo .floor step num den * den ≤ num ∧ num < (roundTo .floor step num den + step) * den := by
  obtain ⟨k, rest, ⟨hwhole, hleft⟩, -, hvalue⟩ := roundTo_value (num := num) hs hd .floor
  rw [Nat.add_mul, hvalue]
  simp only [goesUp, Bool.false_eq_true, if_false]
  omega

theorem roundTo_ceil : num ≤ roundTo .ceil step num den * den ∧ roundTo .ceil step num den * den < num + step * den := by
  obtain ⟨k, rest, ⟨hwhole, hleft⟩, -, hvalue⟩ := roundTo_value (num := num) hs hd .ceil
  rw [hvalue]
  simp only [goesUp, decide_eq_true_eq]
  split <;> omega

theorem roundTo_halfUp : 2 * num < 2 * roundTo .halfUp step num den * den + step * den ∧
    2 * roundTo .halfUp step num den * den ≤ 2 * num + step * den := by
  obtain ⟨k, rest, ⟨hwhole, hleft⟩, -, hvalue⟩ := roundTo_value (num := num) hs hd .halfUp
  rw [Nat.mul_assoc 2, hvalue]
  simp only [goesUp, decide_eq_true_eq]
  split <;> omega

theorem roundTo_halfEven : 2 * num ≤ 2 * roundTo .halfEven step num den * den + step * den ∧
    2 * roundTo .halfEven step num den * den ≤ 2 * num + step * den ∧
    ((2 * num = 2 * roundTo .halfEven step num den * den + step * den ∨
        2 * roundTo .halfEven step num den * den = 2 * num + step * den) →
      (roundTo .halfEven step num den / step) % 2 = 0) := by
  obtain ⟨k, rest, ⟨hwhole, hleft⟩, hsteps, hvalue⟩ := roundTo_value (num := num) hs hd .halfEven
  rw [Nat.mul_assoc 2, hvalue, hsteps]
  simp only [goesUp, Bool.or_eq_true, Bool.and_eq_true, decide_eq_true_eq]
  split <;> omega

end

/-! ## The result (R62, R64, R65) -/

section
variable (w : Walk) (c : WalkContext) (t : Trail) (why : StopKind)

theorem resultOf_fits (minutes : Nat) : resultFits w t why minutes (if why.rounds then t.buyingPoint + minutes else t.point) c
    (resultOf w c t why minutes) := by
  refine ⟨rfl, rfl, rfl, rfl, rfl, rfl, rfl, rfl, rfl, rfl, rfl, rfl, rfl, rfl, rfl, fun a ha => ?_, fun wanted permit hp => ?_⟩
  · have hterms : (resultOf w c t why minutes).terms = .money a (a - excessOf t why) (excessOf t why) := by
      show termsOf (effectivePayment w c) t why minutes = _
      obtain h | h := ha <;> rw [h] <;> rfl
    rw [hterms]
    refine ⟨?_, fun h => ?_⟩
    · rintro (rfl | rfl | rfl) <;> rfl
    · have hnone : excessOf t why = 0 := by
        cases why with
        | cap => exact absurd rfl h.1
        | long => exact absurd rfl h.2.1
        | noSale => exact absurd rfl h.2.2
        | _ => rfl
      rw [hnone]
      rfl
  · show termsOf (effectivePayment w c) t why minutes = _
    rw [hp]
    rfl

/-- The minutes of the last span as a fraction: the leftover money counts as part of a minute at the rate it did not cover (R62). -/
theorem boughtFraction_eq {p : Payment} {num den : Nat}
    (h : (∃ rate, why = .want rate ∧ 0 < rate ∧ ¬ (∃ wanted permit, p = .visitor wanted permit) ∧ num = t.inSpan * rate + t.budget ∧
        den = rate) ∨
      (((∃ rate, why = .want rate ∧ (rate = 0 ∨ ∃ wanted permit, p = .visitor wanted permit)) ∨ why = .cap) ∧ num = t.inSpan ∧ den = 1)) :
    boughtFraction p t why = (num, den) := by
  obtain ⟨rate, rfl, hrate, hmoney, rfl, rfl⟩ | ⟨⟨rate, rfl, rfl | ⟨wanted, permit, rfl⟩⟩ | rfl, rfl, rfl⟩ := h
  · cases p with
    | visitor wanted permit => exact absurd ⟨wanted, permit, rfl⟩ hmoney
    | cash a => exact if_neg (Nat.ne_of_gt hrate)
    | card a => exact if_neg (Nat.ne_of_gt hrate)
  · cases p <;> rfl
  · rfl
  · cases p <;> rfl

/-- The clamps of a value rounded up (R63 (i) to (iii)). -/
theorem clampRounded_spec {p : Payment} {t : Trail} {steps : List LadderStep} {stay : Nat} (hk : t.span.kind = .charged steps stay)
    (value : Nat) :
    clampRounded p t value ≤ value ∧ clampRounded p t value ≤ t.span.stop - t.buyingPoint ∧
      clampRounded p t value ≤ stay - t.entryCount ∧
      ((∃ wanted permit, p = .visitor wanted permit) → clampRounded p t value ≤ t.inSpan + t.budget) ∧
      (clampRounded p t value = value ∨ clampRounded p t value = t.span.stop - t.buyingPoint ∨
        clampRounded p t value = stay - t.entryCount ∨
        ((∃ wanted permit, p = .visitor wanted permit) ∧ clampRounded p t value = t.inSpan + t.budget)) := by
  obtain ⟨a, ha⟩ : ∃ a, t.span.stop - t.buyingPoint = a := ⟨_, rfl⟩
  obtain ⟨b, hb⟩ : ∃ b, stay - t.entryCount = b := ⟨_, rfl⟩
  obtain ⟨v, hv⟩ : ∃ v, t.inSpan + t.budget = v := ⟨_, rfl⟩
  have hmoney : (∀ wanted permit, p ≠ .visitor wanted permit) → clampRounded p t value = min (min value a) b := fun hp => by
    subst ha hb
    unfold clampRounded
    rw [hk]
    cases p with
    | visitor wanted permit => exact absurd rfl (hp wanted permit)
    | _ => rfl
  have hvisitor : (∃ wanted permit, p = .visitor wanted permit) → clampRounded p t value = min (min (min value a) b) v := by
    rintro ⟨wanted, permit, rfl⟩
    subst ha hb hv
    unfold clampRounded
    rw [hk]
  rw [ha, hb, hv]
  by_cases hp : ∃ wanted permit, p = .visitor wanted permit
  · have hclamp := hvisitor hp
    refine ⟨by omega, by omega, by omega, fun _ => by omega, ?_⟩
    have hone : clampRounded p t value = value ∨ clampRounded p t value = a ∨ clampRounded p t value = b ∨
      clampRounded p t value = v := by omega
    exact hone.imp_right (Or.imp_right (Or.imp_right fun h => ⟨hp, h⟩))
  · have hclamp := hmoney fun wanted permit h => hp ⟨wanted, permit, h⟩
    refine ⟨by omega, by omega, by omega, fun h => absurd h hp, ?_⟩
    have hone : clampRounded p t value = value ∨ clampRounded p t value = a ∨ clampRounded p t value = b := by omega
    exact hone.imp_right (Or.imp_right .inl)

/-- A walk that stopped for another reason than its budget or CAP is not rounded (R62). -/
theorem finishStage_plain (h : why.rounds = false) : finishStage w c t why = .done (.result (resultOf w c t why t.inSpan)) := by
  unfold finishStage
  dsimp only
  rw [h]
  rfl

/-- A rounded walk: its value, and ROUND where that is not what was bought (R62, R63). -/
theorem finishStage_rounded (h : why.rounds = true) {num den : Nat}
    (hx : boughtFraction (effectivePayment w c) t why = (num, den)) : finishStage w c t why =
    if roundedMinutes (effectivePayment w c) t why * den = num then
      .done (.result (resultOf w c t why (roundedMinutes (effectivePayment w c) t why)))
    else raiseCond w.pass .round c fun d => .done (.result (resultOf w d t why (roundedMinutes (effectivePayment w c) t why))) := by
  unfold finishStage
  dsimp only
  rw [h, hx]
  rfl

theorem roundedMinutes_eq {p : Payment} {num den : Nat} (hx : boughtFraction p t why = (num, den)) : roundedMinutes p t why =
    if num < roundTo t.span.header.rounding t.span.header.minuteStep num den * den then
      clampRounded p t (roundTo t.span.header.rounding t.span.header.minuteStep num den)
    else roundTo t.span.header.rounding t.span.header.minuteStep num den := by
  unfold roundedMinutes
  dsimp only
  rw [hx]

end

/-- Settles O31. -/
theorem roundingModes : Obligations.RoundingModes := by
  refine ⟨fun step num den hs hd => ⟨fun mode => ⟨_, roundTo_eq ..⟩, roundTo_floor hs hd, roundTo_ceil hs hd, roundTo_halfUp hs hd, ?_⟩,
    fun w c t why => ⟨fun hcap hwant => ?_, fun num den steps stay hk hx => ?_⟩⟩
  · obtain ⟨hbelow, habove, heven⟩ := roundTo_halfEven (num := num) hs hd
    exact ⟨⟨hbelow, habove⟩, heven⟩
  · have hplain : why.rounds = false := by
      cases why with
      | want rate => exact absurd rfl (hwant rate)
      | cap => exact absurd rfl hcap
      | _ => rfl
    have hfits := resultOf_fits w c t why t.inSpan
    rw [hplain] at hfits
    exact ⟨_, finishStage_plain w c t why hplain, hfits⟩
  · have hfraction := boughtFraction_eq t why hx
    have hrounds : why.rounds = true := by
      obtain ⟨rate, rfl, -⟩ | ⟨⟨rate, rfl, -⟩ | rfl, -⟩ := hx <;> rfl
    have hvalue := roundedMinutes_eq t why hfraction
    have hstage := finishStage_rounded w c t why hrounds hfraction
    have hfits := fun d : WalkContext => resultOf_fits w d t why (roundedMinutes (effectivePayment w c) t why)
    rw [hrounds] at hfits
    refine ⟨roundedMinutes (effectivePayment w c) t why, fun hle => ?_, fun hlt => ?_, fun heq => ?_, fun hne => ?_⟩
    · rw [hvalue, if_neg (Nat.not_lt.mpr hle)]
    · rw [hvalue, if_pos hlt]
      exact clampRounded_spec hk _
    · exact ⟨_, hstage.trans (if_pos heq), hfits c⟩
    · have hround := raiseCond_spec w.pass .round c fun d =>
        .done (.result (resultOf w d t why (roundedMinutes (effectivePayment w c) t why)))
      rw [hstage, if_neg hne]
      exact ⟨fun hin => ⟨_, hround.1 hin, hfits _⟩, hround.2⟩

end Sys2Proof.Proofs
end

section
/-! PROOFS. The record a walk links to, and stages (a) to (c) of a walk (O32). -/

namespace Sys2Proof.Proofs
open Sys2Proof Sys2Proof.Machine

/-! ## The chosen record (R52, R136) -/

/-- Record `r` has a later expiry than `q`, or the same and no lower serial. -/
def noEarlier (q r : Session) : Prop := q.expiry < r.expiry ∨ (q.expiry = r.expiry ∧ q.serial ≤ r.serial)

theorem noEarlier_refl (r : Session) : noEarlier r r := .inr ⟨rfl, Nat.le_refl _⟩

theorem noEarlier.trans {p q r : Session} (h : noEarlier p q) (g : noEarlier q r) : noEarlier p r := by
  have harith : ∀ a b c i j k : Nat, a < b ∨ (a = b ∧ i ≤ j) → b < c ∨ (b = c ∧ j ≤ k) → a < c ∨ (a = c ∧ i ≤ k) := by omega
  exact harith _ _ _ _ _ _ h g

theorem after_iff (a b : Session) : a.after b = true ↔ b.expiry < a.expiry ∨ (b.expiry = a.expiry ∧ b.serial < a.serial) :=
  decide_eq_true_iff

theorem noEarlier_of_not_after {a b : Session} (h : ¬ a.after b = true) : noEarlier a b := by
  have harith : ∀ x y i j : Nat, ¬ (y < x ∨ (y = x ∧ j < i)) → x < y ∨ (x = y ∧ i ≤ j) := by omega
  exact harith _ _ _ _ (mt (after_iff ..).mpr h)

/-- The better of the best so far and a record, where that is a candidate. -/
def better (plan : Fin 8) (m : Mark) (best : Option Session) (r : Session) : Option Session :=
  if r.isCandidate plan m then
    match best with
    | none => some r
    | some b => if r.after b then some r else some b
  else best

theorem better_spec (plan : Fin 8) (m : Mark) (best : Option Session) (r : Session) :
    (better plan m best r = none ↔ best = none ∧ r.isCandidate plan m = false) ∧
    ∀ x, better plan m best r = some x → (best = some x ∨ (x = r ∧ r.isCandidate plan m = true)) ∧
      (∀ b, best = some b → noEarlier b x) ∧ (r.isCandidate plan m = true → noEarlier r x) := by
  unfold better
  cases hc : r.isCandidate plan m with
  | false =>
    refine ⟨by simp, ?_⟩
    rintro x hx
    replace hx : best = some x := by simpa using hx
    refine ⟨.inl hx, fun b hb => ?_, fun h => by cases h⟩
    cases hx.symm.trans hb
    exact noEarlier_refl _
  | true =>
    rw [if_pos rfl]
    cases best with
    | none =>
      refine ⟨by simp, ?_⟩
      rintro x ⟨⟩
      exact ⟨.inr ⟨rfl, rfl⟩, (fun b hb => by cases hb), fun _ => noEarlier_refl _⟩
    | some b =>
      dsimp only
      by_cases ha : r.after b = true
      · rw [if_pos ha]
        refine ⟨by simp, ?_⟩
        rintro x ⟨⟩
        refine ⟨.inr ⟨rfl, rfl⟩, ?_, fun _ => noEarlier_refl _⟩
        rintro _ ⟨⟩
        exact ((after_iff ..).mp ha).imp_right fun h => ⟨h.1, Nat.le_of_lt h.2⟩
      · rw [if_neg ha]
        refine ⟨by simp, ?_⟩
        rintro x ⟨⟩
        refine ⟨.inl rfl, ?_, fun _ => ?_⟩
        · rintro _ ⟨⟩
          exact noEarlier_refl _
        · exact noEarlier_of_not_after ha

theorem foldl_better (plan : Fin 8) (m : Mark) (log : List Session) (best : Option Session) :
    (log.foldl (better plan m) best = none ↔ best = none ∧ ∀ r ∈ log, r.isCandidate plan m = false) ∧
    ∀ x, log.foldl (better plan m) best = some x → (best = some x ∨ (x ∈ log ∧ x.isCandidate plan m = true)) ∧
      (∀ b, best = some b → noEarlier b x) ∧ ∀ r ∈ log, r.isCandidate plan m = true → noEarlier r x := by
  induction log generalizing best with
  | nil =>
    refine ⟨by simp, fun x hx => ⟨.inl hx, fun b hb => ?_, fun r hr => by cases hr⟩⟩
    cases (show best = some x from hx).symm.trans hb
    exact noEarlier_refl _
  | cons r rest ih =>
    obtain ⟨hnone, hsome⟩ := ih (better plan m best r)
    obtain ⟨hbetter, hstep⟩ := better_spec plan m best r
    rw [List.foldl_cons]
    refine ⟨?_, fun x hx => ?_⟩
    · rw [hnone, hbetter, List.forall_mem_cons, and_assoc]
    · obtain ⟨hfrom, hbest, hrest⟩ := hsome x hx
      have hthrough : ∀ q, (best = some q ∨ (q = r ∧ r.isCandidate plan m = true)) → noEarlier q x := by
        intro q hq
        cases hy : better plan m best r with
        | none =>
          obtain ⟨hb, hc⟩ := hbetter.mp hy
          obtain h | ⟨-, h⟩ := hq
          · rw [hb] at h
            cases h
          · rw [hc] at h
            cases h
        | some y =>
          obtain ⟨-, hby, hry⟩ := hstep y hy
          obtain h | ⟨rfl, h⟩ := hq
          · exact (hby q h).trans (hbest y hy)
          · exact (hry h).trans (hbest y hy)
      refine ⟨?_, fun b hb => hthrough b (.inl hb), fun q hq hc => ?_⟩
      · obtain h | ⟨hmem, hc⟩ := hfrom
        · exact (hstep x h).1.imp_right fun ⟨hxr, hc⟩ => ⟨hxr ▸ List.mem_cons_self, hxr ▸ hc⟩
        · exact .inr ⟨List.mem_cons_of_mem _ hmem, hc⟩
      · obtain rfl | hmem := List.mem_cons.mp hq
        · exact hthrough q (.inr ⟨rfl, hc⟩)
        · exact hrest q hmem hc

theorem isCandidate_iff (r : Session) (plan : Fin 8) (m : Mark) :
    r.isCandidate plan m = true ↔ r.kind ≠ .test ∧ r.mark = some m ∧ r.plan = plan := by
  simp [Session.isCandidate, and_assoc]

theorem chosenSession_none (log : List Session) (plan : Fin 8) (m : Mark) :
    chosenSession log plan m = none ↔ ∀ r, ¬ (r ∈ log ∧ r.kind ≠ .test ∧ r.mark = some m ∧ r.plan = plan) := by
  refine (foldl_better plan m log none).1.trans ?_
  simp only [true_and, ← Bool.not_eq_true, isCandidate_iff, not_and]

theorem chosenSession_some {log : List Session} {plan : Fin 8} {m : Mark} {r : Session} (h : chosenSession log plan m = some r) :
    (r ∈ log ∧ r.kind ≠ .test ∧ r.mark = some m ∧ r.plan = plan) ∧
      ∀ q, (q ∈ log ∧ q.kind ≠ .test ∧ q.mark = some m ∧ q.plan = plan) → noEarlier q r := by
  obtain ⟨hfrom, -, hlatest⟩ := (foldl_better plan m log none).2 r h
  obtain h | ⟨hmem, hc⟩ := hfrom
  · cases h
  · exact ⟨⟨hmem, (isCandidate_iff ..).mp hc⟩, fun q hq => hlatest q hq.1 ((isCandidate_iff ..).mpr hq.2)⟩

/-! ## Stage (a) (R52 to R54) -/

section
variable {tar : Tariff} {log : List Session} {w : Walk}

theorem linkStage_unlinked (h : w.mode = .test ∨ w.request.mark = none) : linkStage tar log w = .checks (unlinked w.time) := by
  unfold linkStage
  obtain h | h := h
  · rw [h]
  · rw [h]
    cases w.mode <;> rfl

theorem linkStage_none {m : Mark} (hmode : w.mode = .normal) (hm : w.request.mark = some m) (h : chosenSession log w.plan m = none) :
    linkStage tar log w = .checks (unlinked w.time) := by
  unfold linkStage
  rw [hmode, hm]
  dsimp only
  rw [h]

theorem linkStage_linked {m : Mark} {r : Session} (hmode : w.mode = .normal) (hm : w.request.mark = some m)
    (h : chosenSession log w.plan m = some r) (hr : w.time < r.expiry) : linkStage tar log w = .checks (linkedTo r) := by
  unfold linkStage
  rw [hmode, hm]
  dsimp only
  rw [h]
  exact if_pos hr

theorem linkStage_expired {m : Mark} {r : Session} (hmode : w.mode = .normal) (hm : w.request.mark = some m)
    (h : chosenSession log w.plan m = some r) (hr : r.expiry ≤ w.time) : linkStage tar log w =
      match tar.spanAt w.time with
      | none => refuseWalk (unlinked w.time) .noPlan
      | some sp =>
        if 0 < sp.header.noReturn ∧ w.time < r.expiry + sp.header.noReturn then raiseCond w.pass .return_ (unlinked w.time) .checks
        else .checks (unlinked w.time) := by
  unfold linkStage
  rw [hmode, hm]
  dsimp only
  rw [h]
  exact if_neg (Nat.not_lt.mpr hr)

theorem unlinked_raised (z : ZoneMinute) : (unlinked z).raised = 0 := by
  simp [unlinked, WalkContext.raised]

end

/-! ## Stage (b) (R55) and the budget (R56, R57) -/

theorem checksStage_some {tar : Tariff} {w : Walk} {c : WalkContext} {sp : Span} (h : tar.spanAt c.link.start = some sp) :
    checksStage tar w c =
      if sp.kind = .noSale then holdWalk (c.withCond .noSale) .noSale
      else if (reverseWanted w c).isSome then .place c sp
      else if isShort (effectivePayment w c) sp.header.minimumCharge then raiseCond w.pass .short c fun c => .budget c sp
      else .budget c sp := by
  unfold checksStage
  rw [h]

theorem checksStage_none {tar : Tariff} {w : Walk} {c : WalkContext} (h : tar.spanAt c.link.start = none) :
    checksStage tar w c = refuseWalk c .noPlan := by
  unfold checksStage
  rw [h]

theorem isShort_iff (p : Payment) (least : Nat) : isShort p least = true ↔ ∃ a, (p = .cash a ∨ p = .card a) ∧ a < least := by
  cases p <;> simp [isShort]

theorem preloadOf_charged {l : Link} {sp : Span} {steps : List LadderStep} {stay : Nat} (h : sp.kind = .charged steps stay) :
    (l.preload = none → preloadOf l sp = 0) ∧
    ∀ start minutes, l.preload = some (start, minutes) → preloadOf l sp = if start = sp.start then min minutes stay else 0 := by
  unfold preloadOf
  refine ⟨fun hl => ?_, fun start minutes hl => ?_⟩
  · rw [hl]
  · rw [hl, h]

section
variable {s : State} {w : Walk} {c : WalkContext} {first : Span}

/-- The budget stage of a money walk (R56). -/
theorem budget_money (hst : w.stage = .budget c first) {p : Payment} {a : Nat} (hp : effectivePayment w c = p)
    (ha : p = .cash a ∨ p = .card a) : stageOf s w = (s, beginForward w.pass p c first (60 * a)) := by
  unfold stageOf nextStage
  rw [hst]
  dsimp only
  rw [hp]
  obtain rfl | rfl := ha <;> rfl

/-- The budget stage of a visitor walk reads the permit (R57). -/
theorem budget_visitor (hst : w.stage = .budget c first) {minutes permit : Nat}
    (hp : effectivePayment w c = .visitor minutes permit) : stageOf s w = readAllowance s w c first minutes permit := by
  unfold stageOf
  rw [hst]
  dsimp only
  rw [hp]

theorem readAllowance_test (hmode : w.mode = .test) (minutes permit : Nat) :
    readAllowance s w c first minutes permit = (s, refuseWalk c .badField) := by
  unfold readAllowance
  rw [hmode]
  rfl

/-- In mode NORMAL the register is brought up to date, and the permit found in it decides (R57, R124). -/
theorem readAllowance_normal (hmode : w.mode = .normal) (minutes permit : Nat) :
    readAllowance s w c first minutes permit = (refreshPermit permit s,
      match visitorRefusal (findPermit (refreshIn s.permits permit (today s)) permit) w.plan (w.time / 1440) with
      | some r => refuseWalk c r
      | none => visitorBudget w c first minutes permit
          (((findPermit (refreshIn s.permits permit (today s)) permit).map fun p => workedAllowance p (today s) (w.time / 1440)).getD 0)) := by
  unfold readAllowance
  rw [hmode]
  rfl

/-- THIN is raised where the allowance does not reach the wanted steps (R57). -/
theorem visitorBudget_thin {minutes allowance : Nat} (permit : Nat) (hlt : allowance < stepsUp minutes first.header.minuteStep)
    (hpos : 0 < allowance / first.header.minuteStep * first.header.minuteStep) :
    visitorBudget w c first minutes permit allowance = raiseCond w.pass .thin c fun d =>
      beginForward w.pass (.visitor minutes permit) d first (allowance / first.header.minuteStep * first.header.minuteStep) :=
  (if_neg (Nat.not_le.mpr hlt)).trans (if_neg (Nat.ne_of_gt hpos))

end

/-- Settles O32. -/
theorem chosenSessionIsLatest : Obligations.ChosenSessionIsLatest := by
  refine ⟨fun log plan m => ⟨chosenSession_none .., fun r h => chosenSession_some h⟩, fun tar log w => ?_,
    fun l sp steps stay h => preloadOf_charged h, fun tar w c => ?_, fun s w c first hst => ?_⟩
  · refine ⟨linkStage_unlinked, fun m hmode hm => ⟨linkStage_none hmode hm, fun r hr => ⟨linkStage_linked hmode hm hr, fun hle => ?_⟩⟩⟩
    rw [linkStage_expired hmode hm hr hle]
    refine ⟨fun hsp => ?_, fun sp hsp => ?_⟩
    · rw [hsp, ← unlinked_raised w.time]
      rfl
    · rw [hsp]
      dsimp only
      refine ⟨fun hpos hlt => ?_, fun hnot => ?_⟩
      · rw [if_pos ⟨hpos, hlt⟩]
        exact raiseCond_spec ..
      · refine if_neg fun h => ?_
        obtain h0 | hle := hnot
        · exact Nat.ne_of_gt h.1 h0
        · exact absurd h.2 (Nat.not_lt.mpr hle)
  · refine ⟨checksStage_none, fun sp hsp => ?_⟩
    rw [checksStage_some hsp]
    refine ⟨fun hk => if_pos hk, fun hk hw => ?_, fun hk hw => ?_⟩
    · rw [if_neg hk, if_pos hw]
    · rw [if_neg hk, if_neg (by rw [hw]; decide)]
      refine ⟨fun hshort => ?_, fun hshort => if_neg (mt (isShort_iff ..).mp hshort)⟩
      rw [if_pos ((isShort_iff ..).mpr hshort)]
      exact raiseCond_spec ..
  · refine ⟨fun a ha => budget_money hst rfl ha, fun minutes permit hp => ⟨fun hmode => ?_, fun hmode => ?_⟩⟩
    · rw [budget_visitor hst hp, readAllowance_test hmode]
      rfl
    · rw [budget_visitor hst hp, readAllowance_normal hmode]
      refine ⟨fun hnone => ?_, fun q hq => ⟨fun hinvalid => ?_, fun b hb hcovers => ?_⟩⟩
      · rw [findPermit_refreshed, hnone]
        rfl
      · rw [show findPermit (refreshIn s.permits permit (today s)) permit = some q from hq, visitorRefusal_invalid hinvalid]
        rfl
      · rw [show findPermit (refreshIn s.permits permit (today s)) permit = some q from hq,
          (visitorRefusal_none ..).mpr ⟨q, b, rfl, hb, hcovers⟩]
        have hbegins : ∀ d n, Raised w.pass c d → workSpan w.pass (effectivePayment w d) d
            { startByStaged := first.byStaged, point := d.link.start, entered := 0, chargedMet := false, budget := n, bought := 0
              usedStaged := false, span := first, buyingPoint := d.link.start, entryCount := preloadOf d.link first, inSpan := 0 }
            first d.link.start (preloadOf d.link first) = beginForward w.pass (.visitor minutes permit) d first n := by
          intro d n hd
          rw [effectivePayment_raised hd, hp]
          rfl
        refine ⟨rfl, fun hle => ?_, fun hlt hzero => ?_, fun hlt hpos => ?_⟩
        · exact (if_pos hle).trans (hbegins c _ (.refl ..)).symm
        · exact (if_neg (Nat.not_le.mpr hlt)).trans (if_pos hzero)
        · obtain ⟨hin, hout⟩ := raiseCond_spec w.pass .thin c fun d => beginForward w.pass (.visitor minutes permit) d first
            (workedAllowance q (today s) (w.time / 1440) / first.header.minuteStep * first.header.minuteStep)
          have hstage := visitorBudget_thin (w := w) (c := c) permit hlt hpos
          exact ⟨fun h => hstage.trans ((hin h).trans (hbegins _ _ (raised_withCond h c)).symm), fun h => hstage.trans (hout h)⟩

end Sys2Proof.Proofs
end

section
/-! PROOFS. The lines: frames answered at once (O33), BUSY on a PENDING line (O34), discards counted (O35), the end of a reply (O36). -/

namespace Sys2Proof.Proofs
open Sys2Proof Sys2Proof.Machine

/-! ## Frames on a line (R75 to R79) -/

/-- Every request of a line is the taking of its frame; where its fields lie in range it is a request other than HELLO. -/
theorem exec_request {s : State} (hr : running s = true) {c : Instr} {n : Line} (ho : c.origin = .line n) (hc : isRequest c = true) :
    ∃ k ok act, exec c s = .next (takeFrame n k ok act s) ∧
      (requestInRange c = true → ok = true ∧ ∃ j, k = some j ∧ j ≠ .hello) := by
  have hrun : ∀ f : State → State, Host.Outcome.next (whenRunning f s) = (.next (f s) : Answered) := fun f =>
    congrArg _ (whenRunning_true hr f)
  cases c with
  | hello m =>
    cases ho
    exact ⟨_, _, _, hrun _, fun h => by cases h⟩
  | unknownRequestKind m =>
    cases ho
    exact ⟨_, _, _, hrun _, fun h => by cases h⟩
  | quote m f =>
    cases ho
    exact ⟨some .quote, (quoteRequest f).isSome, fun s => (quoteRequest f).elim s (takeAsk n · s),
      (hrun _).trans (by cases quoteRequest f <;> rfl), fun h => ⟨h, _, rfl, by decide⟩⟩
  | price m f =>
    cases ho
    exact ⟨some .price, (priceRequest f).isSome, fun s => (priceRequest f).elim s (takeAsk n · s),
      (hrun _).trans (by cases priceRequest f <;> rfl), fun h => ⟨h, _, rfl, by decide⟩⟩
  | sale m f =>
    cases ho
    exact ⟨some .sale, (readSale f).isSome, fun s => (readSale f).elim s fun r => takeSale n r.1 r.2 s,
      (hrun _).trans (by cases readSale f <;> rfl), fun h => ⟨h, _, rfl, by decide⟩⟩
  | fault m kind direction =>
    cases ho
    exact ⟨some .fault, (faultReportOf kind direction).isSome,
      fun s => (faultReportOf kind direction).elim s fun r => answerPending n .ok .empty (reportFault n r.1 r.2 s),
      (hrun _).trans (by cases faultReportOf kind direction <;> rfl), fun h => ⟨h, _, rfl, by decide⟩⟩
  | boxOut m label =>
    cases ho
    exact ⟨_, _, _, hrun _, fun h => ⟨h, _, rfl, by decide⟩⟩
  | boxIn m label =>
    cases ho
    exact ⟨_, _, _, hrun _, fun h => ⟨h, _, rfl, by decide⟩⟩
  | _ => cases hc

theorem isRequest_of_inRange {c : Instr} (h : requestInRange c = true) : isRequest c = true := by
  cases c with
  | quote | price | sale | fault | boxOut | boxIn => rfl
  | _ => cases h

/-- A frame heard and answered at once, whatever the status. -/
theorem replyAtOnce_heard (s : State) (n : Line) (st : Status) (back : Bool) :
    frameHeard s (replyAtOnce n st back (heard n s)) n := frameHeard_congr (heard_heard s n) rfl rfl rfl

/-- What the terms of an answer at once are: only the line, and what the hearing of a frame changes. -/
theorem answeredAtOnce {s : State} {n : Line} (h : lineFree s n) (st : Status) :
    onlyChanges [.lines, .table, .faults, .notices] s (replyAtOnce n st false (heard n s)) ∧
      frameHeard s (replyAtOnce n st false (heard n s)) n ∧ answeredOn s (replyAtOnce n st false (heard n s)) n st .empty :=
  ⟨replyAtOnce_heard_frame s n st false, replyAtOnce_heard .., replyAtOnce_answered h st⟩

theorem acknowledged_bit (s : State) (n : Line) (k : TermFault) :
    (envelopeOf s n).acknowledged.getLsbD k.index.val = true ↔ (terminalRecord s.faults n k).state = .acknowledged := by
  show (kindSet _ _).getLsbD _ = true ↔ _
  rw [kindSet_bit, beq_iff_eq]
  rfl

/-- Settles O33. -/
theorem framesAnsweredAtOnce : Obligations.FramesAnsweredAtOnce := by
  intro n s
  refine ⟨⟨rfl, rfl, rfl, rfl, rfl, acknowledged_bit s n⟩, fun hfree => ⟨?_, ?_, fun c ho hrange hinactive => ?_⟩⟩
  · have hhello : exec (.hello n) s = .next (answerPending n .ok .empty (asTaken s n .hello)) :=
      congrArg Host.Outcome.next ((whenRunning_true hfree.1 _).trans (takeFrame_hello hfree _))
    refine ⟨_, hhello, ?_, ?_, answerTaken rfl _ _⟩
    · exact ((asTaken_frame s n .hello).trans (answerPending_frame _ n _ _)).mono (by decide)
    · exact frameHeard_congr (heard_heard s n) rfl rfl rfl
  · exact ⟨_, congrArg Host.Outcome.next ((whenRunning_true hfree.1 _).trans (takeFrame_free_none hfree _ _)), answeredAtOnce hfree _⟩
  · obtain ⟨k, ok, act, hexec, hin⟩ := exec_request hfree.1 ho (isRequest_of_inRange hrange)
    obtain ⟨rfl, j, rfl, hj⟩ := hin hrange
    rw [takeFrame_notConfigured hfree hinactive j hj] at hexec
    exact ⟨_, hexec, answeredAtOnce hfree _⟩

/-- Settles O34. -/
theorem secondFrameIsBusy : Obligations.SecondFrameIsBusy := by
  intro c n s hr ho hc hp
  obtain ⟨k, ok, act, hexec, -⟩ := exec_request hr ho hc
  rw [takeFrame_pending hp] at hexec
  refine ⟨_, hexec, replyAtOnce_heard_frame s n _ _, replyAtOnce_heard .., ?_, ?_⟩
  · rw [replyAtOnce_lines, row_change_self, heard_lines]
    rfl
  · rw [replyAtOnce_lines, heard_lines]
    exact sameBut_change n _ _

/-! ## Discards (R74 to R76) -/

/-- What the counting of a discard at terminal n leaves (R76, R167). -/
def discardCounted (s t : State) (n : Line) : Prop :=
  let count := min 65535 ((row s.table n).discards + 1)
  onlyChanges [.lines, .table, .faults, .notices] s t ∧ row t.table n = { row s.table n with discards := count } ∧
    sameBut n s.table t.table ∧ t.faults.zone = s.faults.zone ∧ t.faults.grace = s.faults.grace ∧
    (terminalRecord t.faults n .lineNoisy = if count = 16
      then (terminalRecord s.faults n .lineNoisy).raised (now s) (some 16) else terminalRecord s.faults n .lineNoisy) ∧
    latchedWhere .faultOpened (count = 16 ∧ (terminalRecord s.faults n .lineNoisy).state ≠ .opened) s t ∧
    ∀ m k, (m ≠ n ∨ k ≠ .lineNoisy) → terminalRecord t.faults m k = terminalRecord s.faults m k

/-- FAULT_OPENED is latched where the count reaches 16 and the record was not OPEN. -/
theorem countDiscard_opened (n : Line) (s : State) : latchedWhere .faultOpened
    (min 65535 ((row s.table n).discards + 1) = 16 ∧ (terminalRecord s.faults n .lineNoisy).state ≠ .opened) s (countDiscard n s) := by
  unfold countDiscard
  dsimp only
  by_cases h16 : saturate 65535 (row s.table n).discards 1 = 16
  · rw [if_pos h16]
    exact latchedWhere_of_adds (raiseFault_opened ..) (bne_iff_ne.trans ⟨fun h => ⟨h16, h⟩, And.right⟩)
  · rw [if_neg h16]
    exact latchedWhere_of_adds (adds_refl ..) (iff_of_false (by decide) fun h => h16 h.1)

theorem countDiscard_counted (n : Line) (s : State) : discardCounted s (countDiscard n s) n := by
  obtain ⟨hframe, hentry, hentries, hzone, hgrace, hnoisy, hrecords⟩ := countDiscard_spec n s
  exact ⟨hframe.mono (by decide), hentry, hentries, hzone, hgrace, hnoisy, countDiscard_opened n s, hrecords⟩

/-- A change of the lines is no part of the counting, whether it comes after -/
theorem discardCounted.line {s t : State} {n : Line} (h : discardCounted s t n) (m : Line) (f : LineUnit → LineUnit) :
    discardCounted s (onLine m f t) n := by
  obtain ⟨hframe, hrest⟩ := h
  exact ⟨(hframe.trans (onLine_frame t m f)).mono (by decide), hrest⟩

/-- or before it. -/
theorem discardCounted.ofLine {s t : State} {n m : Line} {f : LineUnit → LineUnit} (h : discardCounted (onLine m f s) t n) :
    discardCounted s t n := by
  obtain ⟨hframe, hrest⟩ := h
  exact ⟨((onLine_frame s m f).trans hframe).mono (by decide), hrest⟩

/-- A frame dropped while the unit is not REPLYING: the count, and then the line. -/
theorem discardFrame_counted (n : Line) (s : State) : discardCounted s (discardFrame n s) n ∧
    row (discardFrame n s).lines n = (row s.lines n).discarded (envelopeOf (discardFrame n s) n) ∧
    sameBut n s.lines (discardFrame n s).lines := by
  have hlines : (discardFrame n s).lines = change s.lines n fun u => u.discarded (envelopeOf (countDiscard n s) n) := by
    rw [← countDiscard_lines s n]
    rfl
  have henvelope : envelopeOf (discardFrame n s) n = envelopeOf (countDiscard n s) n := envelopeOf_congr n rfl rfl rfl
  refine ⟨(countDiscard_counted n s).line .., ?_, ?_⟩
  · rw [hlines, henvelope, row_change_self]
  · rw [hlines]
    exact sameBut_change n _ _

/-- Both discard events drop the frame, where the unit is not REPLYING. -/
theorem exec_discard {s : State} {n : Line} (hr : running s = true) (h : ∀ r back hit, (row s.lines n).state ≠ .replying r back hit)
    {c : Instr} (hc : c = .frameDiscard n ∨ c = .receiveTimeout n) : exec c s = .next (discardFrame n s) := by
  obtain rfl | rfl := hc
  · refine congrArg Host.Outcome.next ((whenRunning_true hr _).trans ?_)
    cases hu : (row s.lines n).state with
    | replying r back hit => exact absurd hu (h r back hit)
    | _ => rfl
  · refine congrArg Host.Outcome.next ((whenRunning_true hr _).trans ?_)
    cases hu : (row s.lines n).state with
    | replying r back hit => exact absurd hu (h r back hit)
    | _ => rfl

/-- While the unit is REPLYING, a collision and a discarded frame are one event. -/
theorem exec_collide {s : State} {n : Line} (hr : running s = true) {r : LineReply} {back hit : Bool}
    (h : (row s.lines n).state = .replying r back hit) {c : Instr} (hc : c = .collision n ∨ c = .frameDiscard n) :
    exec c s = .next (collide n s) := by
  obtain rfl | rfl := hc
  · exact congrArg Host.Outcome.next (whenRunning_true hr _)
  · refine congrArg Host.Outcome.next ((whenRunning_true hr _).trans ?_)
    rw [h]

/-- The first collision of a reply counts. -/
theorem collide_first {s : State} {n : Line} {r : LineReply} {back : Bool} (h : (row s.lines n).state = .replying r back false) :
    discardCounted s (collide n s) n ∧
      row (collide n s).lines n = { row s.lines n with state := .replying r back true, frame := none } ∧
      sameBut n s.lines (collide n s).lines := by
  have hcollide : collide n s = countDiscard n (onLine n (fun u => { u with state := .replying r back true, frame := none }) s) := by
    unfold collide
    rw [h]
  rw [hcollide]
  refine ⟨(countDiscard_counted ..).ofLine, ?_, ?_⟩
  · rw [countDiscard_lines, onLine_lines, row_change_self]
  · rw [countDiscard_lines, onLine_lines]
    exact sameBut_change n _ _

theorem collide_again {s : State} {n : Line} {r : LineReply} {back : Bool} (h : (row s.lines n).state = .replying r back true) :
    collide n s = s := by
  unfold collide
  rw [h]

section
variable {u : LineUnit} (e : Envelope)

theorem discarded_open (h : u.state = .idle ∨ u.state = .receiving) : u.discarded e = { u with state := .idle, frame := none } := by
  obtain ⟨state, frame, request, held⟩ := u
  obtain rfl | rfl := h <;> rfl

theorem discarded_pending (h : u.state = .pending) (hh : u.held = none) : u.discarded e = { u with frame := none } := by
  unfold LineUnit.discarded
  rw [h]
  dsimp only
  rw [hh]

theorem discarded_held {a : LineAnswer} (h : u.state = .pending) (hh : u.held = some a) :
    u.discarded e = LineUnit.sendAnswer { u with frame := none } a e := by
  unfold LineUnit.discarded
  rw [h]
  dsimp only
  rw [hh]

end

/-- A held answer that is sent answers the line. -/
theorem sendAnswer_answered {s t : State} {n : Line} {a : LineAnswer}
    (h : row t.lines n = LineUnit.sendAnswer { row s.lines n with frame := none } a (envelopeOf t n)) (hs : sameBut n s.lines t.lines) :
    answeredOn s t n a.status a.body := by
  unfold answeredOn
  rw [h]
  exact ⟨rfl, rfl, rfl, rfl, hs⟩

/-- Settles O35. -/
theorem discardsAreCounted : Obligations.DiscardsAreCounted := by
  intro n s hr
  refine ⟨fun c hc => ?_, fun r back hst c hc => ⟨_, exec_collide hr hst hc, collide_first hst⟩, fun r back hst => ⟨?_, ?_⟩,
    fun r back hit hst => ?_⟩
  · obtain ⟨hcounted, hrow, hothers⟩ := discardFrame_counted n s
    refine ⟨fun hst => ?_, fun hst hheld => ?_, fun a hst hheld => ?_⟩
    · refine ⟨_, exec_discard hr (fun r back hit h => ?_) hc, hcounted, hrow.trans (discarded_open _ hst), hothers⟩
      obtain h' | h' := hst <;> cases h'.symm.trans h
    · refine ⟨_, exec_discard hr (fun r back hit h => ?_) hc, hcounted, hrow.trans (discarded_pending _ hst hheld), hothers⟩
      cases hst.symm.trans h
    · refine ⟨_, exec_discard hr (fun r back hit h => ?_) hc, hcounted,
        sendAnswer_answered (hrow.trans (discarded_held _ hst hheld)) hothers⟩
      cases hst.symm.trans h
  · rw [exec_collide hr hst (.inl rfl), collide_again hst]
  · rw [exec_collide hr hst (.inr rfl), collide_again hst]
  · refine congrArg Host.Outcome.next ((whenRunning_true hr _).trans ?_)
    rw [hst]

/-! ## The end of a reply (R73, R77, R78) -/

theorem ldir_iff (s : State) (n : Line) : ldir s n = true ↔ ∃ r back hit, (row s.lines n).state = .replying r back hit := by
  unfold ldir
  cases (row s.lines n).state <;> simp

theorem exec_replyEnd {s : State} (hr : running s = true) (n : Line) :
    exec (.replyEnd n) s = .next { s with lines := put s.lines n ((row s.lines n).replyEnded (envelopeOf s n)) } :=
  congrArg Host.Outcome.next (whenRunning_true hr _)

section
variable {u : LineUnit} {r : LineReply} {hit : Bool} (e : Envelope)

theorem replyEnded_idle (h : u.state = .replying r false hit) : u.replyEnded e = { u with state := .idle, frame := none } := by
  unfold LineUnit.replyEnded
  rw [h]

theorem replyEnded_pending (h : u.state = .replying r true hit) (hh : u.held = none) :
    u.replyEnded e = { u with state := .pending, frame := none } := by
  unfold LineUnit.replyEnded
  rw [h]
  dsimp only
  rw [hh]

theorem replyEnded_held {a : LineAnswer} (h : u.state = .replying r true hit) (hh : u.held = some a) :
    u.replyEnded e = LineUnit.sendAnswer { u with frame := none } a e := by
  unfold LineUnit.replyEnded
  rw [h]
  dsimp only
  rw [hh]

theorem replyEnded_other (h : ∀ r back hit, u.state ≠ .replying r back hit) : u.replyEnded e = u := by
  unfold LineUnit.replyEnded
  cases hst : u.state with
  | replying r back hit => exact absurd hst (h r back hit)
  | _ => rfl

end

/-- Settles O36. -/
theorem replyEnd : Obligations.ReplyEnd := by
  intro n s
  refine ⟨ldir_iff s n, fun hr => ?_⟩
  rw [exec_replyEnd hr]
  refine ⟨fun r hit hst => ?_, fun r hit hst hheld => ?_, fun r hit a hst hheld => ?_, fun hst => ?_⟩
  · rw [replyEnded_idle _ hst]
  · rw [replyEnded_pending _ hst hheld]
  · rw [replyEnded_held _ hst hheld]
    refine ⟨_, rfl, onLine_frame s n fun _ => LineUnit.sendAnswer { row s.lines n with frame := none } a (envelopeOf s n),
      sendAnswer_answered ((row_put_self ..).trans ?_) (sameBut_put n _ _)⟩
    exact congrArg _ (envelopeOf_congr n rfl rfl rfl).symm
  · rw [replyEnded_other _ hst, put_row_self]

end Sys2Proof.Proofs
end

section
/-! PROOFS. The terminal table's commands (O37 to O41): each command from its number's range, through its refusals, to its one effect. -/
namespace Sys2Proof.Proofs
open Sys2Proof Sys2Proof.Machine

/-! ## Numbers in range -/

/-- A terminal number in range is that of a terminal, one out of range of none. -/
theorem terminal_cases (k : Nat) : (∃ n : Line, k = n.number ∧ 1 ≤ k ∧ k ≤ 16) ∨ (terminalOf k = none ∧ (k < 1 ∨ 16 < k)) := by
  by_cases h : 1 ≤ k ∧ k ≤ 16
  · refine .inl ⟨⟨k - 1, by omega⟩, ?_, h⟩
    unfold Line.number
    dsimp only
    omega
  · have hout : k < 1 ∨ 16 < k := by omega
    exact .inr ⟨terminalOf_none hout, hout⟩

theorem condSetOf_some {set : BitVec 16} (h : set.toNat < 512) : condSetOf set = some (set.setWidth 9) := if_pos h

theorem condSetOf_none {set : BitVec 16} (h : 512 ≤ set.toNat) : condSetOf set = none := if_neg (by omega)

/-! ## When a port's command is taken -/

/-- A command whose fields lie in range is its effect. -/
theorem command_acts {source : Source} {role : Role} {s : State} (h : sourceTakes s source role) (tag : Tag) (act : State → State) :
    takeCommand source tag true role act s = act s := (takeCommand_taken h ..).trans (if_pos rfl)

/-- A command with a field out of range is refused. -/
theorem command_badField {source : Source} {role : Role} {s : State} (h : sourceTakes s source role) (tag : Tag) (act : State → State) :
    takeCommand source tag false role act s = answering s source.port tag .badField .empty :=
  (takeCommand_taken h ..).trans (if_neg (by decide))

/-! ## SET_CONDITIONS and CLEAR_CONDITIONS (R83, R84) -/

section
variable {s : State} (ho : officeTakes s) (tag : Tag)
include ho

theorem exec_setConditions_badField {terminal : Nat} {set : BitVec 16} (h : terminalOf terminal = none ∨ condSetOf set = none) :
    exec (.setConditions tag terminal set) s = .next (answering s .office tag .badField .empty) := by
  refine congrArg Host.Outcome.next ((officeCommand_taken ho ..).trans (if_neg ?_))
  rcases h with h | h <;> simp [h]

theorem exec_setConditions {n : Line} {set : BitVec 16} {c : CondSet} (hc : condSetOf set = some c) :
    exec (.setConditions tag n.number set) s = .next (
      if (row s.table n).active then
        answering (onEntry n (fun e => { e with pass := c }) s) .office tag .ok (.conditions (row s.table n).sticky)
      else answering s .office tag .notConfigured .empty) := by
  refine congrArg Host.Outcome.next ((officeCommand_taken ho ..).trans ((if_pos (by simp [terminalOf_number, hc])).trans ?_))
  rw [terminalOf_number, hc]
  exact congrArg₂ (ite _) (answerPort_eq ..) (answerPort_eq ..)

theorem exec_clearConditions_badField {terminal : Nat} (h : terminalsOf terminal = none) :
    exec (.clearConditions tag terminal) s = .next (answering s .office tag .badField .empty) :=
  congrArg Host.Outcome.next ((officeCommand_taken ho ..).trans (if_neg (by simp [h])))

theorem exec_clearConditions {terminal : Nat} {ns : List Line} (h : terminalsOf terminal = some ns) :
    exec (.clearConditions tag terminal) s = .next (
      answering (onEntries ns (fun e => { e with sticky := 0 }) s) .office tag .ok (.conditionSets (stickySets s ns))) := by
  refine congrArg Host.Outcome.next ((officeCommand_taken ho ..).trans ((if_pos (by simp [h])).trans ?_))
  rw [h]
  exact answerPort_eq ..

end

/-- Settles O39, command by command. -/
theorem conditions : Obligations.Conditions := by
  intro tag terminal set s ho
  refine ⟨fun hout => ?_, fun hout => ?_, fun hall => ?_, fun n hn => ⟨fun hset hidle => ?_, fun hset hactive => ?_, ?_⟩⟩
  · refine exec_setConditions_badField ho tag ?_
    rcases hout with hlow | hhigh | hset
    · exact .inl (terminalOf_none (.inl hlow))
    · exact .inl (terminalOf_none (.inr hhigh))
    · exact .inr (condSetOf_none hset)
  · exact exec_clearConditions_badField ho tag (terminalsOf_none hout)
  · subst hall
    rw [exec_clearConditions ho tag (ns := List.finRange 16) rfl, onEntries_all]
    rfl
  · subst hn
    rw [exec_setConditions ho tag (condSetOf_some hset), if_neg (by rw [hidle]; decide)]
  · subst hn
    rw [exec_setConditions ho tag (condSetOf_some hset), if_pos hactive]
    rfl
  · subst hn
    rw [exec_clearConditions ho tag (terminalsOf_number n), onEntries_one]
    rfl

/-! ## LINE_RESET (R92, R93) -/

/-- Settles O40: the line is cold, the entry NORMAL, and then the transaction is disturbed. -/
theorem lineReset : Obligations.LineReset := by
  intro source tag terminal s htakes
  refine ⟨fun hnone => ?_, fun n hn => ⟨resetLine n s, ?_, ?_⟩⟩
  · show Host.Outcome.next (takeCommand source tag (terminalOf terminal).isSome .engineer _ s) = _
    rw [hnone]
    exact congrArg Host.Outcome.next (command_badField htakes ..)
  · show Host.Outcome.next (takeCommand source tag (terminalOf terminal).isSome .engineer _ s) = _
    rw [hn]
    exact congrArg Host.Outcome.next ((command_acts htakes ..).trans (answerPort_eq ..))
  · have htable : (resetLine n s).table = change s.table n Entry.toNormal := by unfold resetLine; rw [disturb_table]; rfl
    have hlines : (resetLine n s).lines = put s.lines n LineUnit.cold := by unfold resetLine; rw [disturb_lines_reset]; rfl
    refine ⟨(resetLine_frame s n).mono (by decide), ?_, ?_, ?_, ?_, disturb_disturbed n true (onEntry n Entry.toNormal _)⟩
    · rw [hlines, row_put_self]
    · rw [hlines]; exact sameBut_put n _ _
    · rw [htable, row_change_self]; rfl
    · rw [htable]; exact sameBut_change n _ _

/-! ## Test mode (R90, R91) -/

section
variable {s : State} {badge : Nat} (ht : serviceTakes s badge .engineer) (tag : Tag)
include ht

theorem exec_testLine_badField {terminal : Nat} (h : terminalOf terminal = none) :
    exec (.testLine tag badge terminal) s = .next (answering s .service tag .badField .empty) :=
  congrArg Host.Outcome.next ((takeService_taken ht ..).trans (if_neg (by simp [h])))

theorem exec_endTest_badField {terminal : Nat} (h : terminalOf terminal = none) :
    exec (.endTest tag badge terminal) s = .next (answering s .service tag .badField .empty) :=
  congrArg Host.Outcome.next ((takeService_taken ht ..).trans (if_neg (by simp [h])))

theorem exec_testLine (n : Line) : exec (.testLine tag badge n.number) s = .next (
    if !(row s.table n).active then answering s .service tag .notConfigured .empty
    else if (row s.table n).mode = .test then answering s .service tag .already .empty
    else answering (changeMode n (fun e => { e with mode := .test, testStart := now s }) s) .service tag .ok .empty) := by
  refine congrArg Host.Outcome.next ((takeService_taken ht ..).trans ((if_pos (by rw [terminalOf_number]; rfl)).trans ?_))
  rw [terminalOf_number]
  exact congrArg₂ (ite _) (answerPort_eq ..) (congrArg₂ (ite _) (answerPort_eq ..) (answerPort_eq ..))

theorem exec_endTest (n : Line) : exec (.endTest tag badge n.number) s = .next (
    if (row s.table n).active && (row s.table n).mode == .test then
      answering (changeMode n Entry.toNormal s) .service tag .ok .empty
    else answering s .service tag .already .empty) := by
  refine congrArg Host.Outcome.next ((takeService_taken ht ..).trans ((if_pos (by rw [terminalOf_number]; rfl)).trans ?_))
  rw [terminalOf_number]
  exact congrArg₂ (ite _) (answerPort_eq ..) (answerPort_eq ..)

end

theorem exec_testLimit {s : State} (hrun : running s = true) (hclock : s.clock.state = .set) (n : Line) :
    exec (.testLimit n) s = .next (endTestIfDue n s) :=
  congrArg Host.Outcome.next ((whenRunning_true hrun _).trans (if_pos (clockSet_of_set hclock)))

theorem testDue_iff (s : State) (n : Line) :
    testDue s n = true ↔ (row s.table n).mode = .test ∧ (row s.table n).testStart + 30 ≤ now s := by
  simp [testDue]

/-- Settles O41: the commands by the entry's state and mode, the limit by its comparison. -/
theorem testMode : Obligations.TestMode := by
  intro tag badge terminal s
  refine ⟨fun ht hout => ?_, fun n hn => ⟨fun ht => ⟨fun hidle => ?_, fun hactive hmode => ?_, fun hactive hmode => ?_, fun hno => ?_,
    fun hactive hmode => ?_⟩, fun hrun hclock => ⟨fun hmode hdue => ?_, fun hno => ?_⟩⟩⟩
  · exact ⟨exec_testLine_badField ht tag (terminalOf_none hout), exec_endTest_badField ht tag (terminalOf_none hout)⟩
  all_goals subst hn
  · rw [exec_testLine ht tag, if_pos (by rw [hidle]; rfl)]
  · rw [exec_testLine ht tag, if_neg (by rw [hactive]; decide), if_pos hmode]
  · refine ⟨_, ?_, changeMode_spec n (fun e => { e with mode := .test, testStart := now s }) s fun _ => rfl⟩
    rw [exec_testLine ht tag, if_neg (by rw [hactive]; decide), if_neg (by rw [hmode]; decide)]
  · rw [exec_endTest ht tag, if_neg]
    rcases hno with h | h <;> simp [h]
  · refine ⟨_, ?_, changeMode_spec n Entry.toNormal s fun _ => rfl⟩
    rw [exec_endTest ht tag, if_pos (by rw [hactive, hmode]; rfl)]
  · refine ⟨_, ?_, changeMode_spec n Entry.toNormal s fun _ => rfl⟩
    rw [exec_testLimit hrun hclock]
    exact congrArg Host.Outcome.next (if_pos ((testDue_iff ..).mpr ⟨hmode, hdue⟩))
  · rw [exec_testLimit hrun hclock]
    refine congrArg Host.Outcome.next (if_neg fun hdue => ?_)
    obtain ⟨hmode, hpast⟩ := (testDue_iff ..).mp hdue
    rcases hno with hnormal | hearly
    · exact absurd (hmode.symm.trans hnormal) (by decide)
    · exact Nat.lt_irrefl _ (Nat.lt_of_lt_of_le hearly hpast)

/-! ## RETIRE_TERMINAL (R82) -/

/-- Whether a plan is unserved turns on the terminal table and the fault unit alone. -/
theorem unserved_of_parts {s t : State} (htable : t.table = s.table) (hfaults : t.faults = s.faults) (p : Fin 8) :
    unserved t p = unserved s p := by unfold unserved; rw [htable, hfaults]

/-- What a disturbance leaves of a plan's grace and service. -/
theorem disturb_graceTrue {s : State} {n : Line} {b : Bool} {p : Fin 8}
    (h : (∃ since, row s.faults.grace p = .active since) ↔ unserved s p = true) :
    (∃ since, row (disturb n b s).faults.grace p = .active since) ↔ unserved (disturb n b s) p = true := by
  rw [unserved_of_parts (disturb_table s n b) (disturb_faults s n b), disturb_faults]
  exact h

section
variable {s : State} (ho : officeTakes s) (tag : Tag)
include ho

theorem exec_retireTerminal_badField {terminal : Nat} (h : terminalOf terminal = none) :
    exec (.retireTerminal tag terminal) s = .next (answering s .office tag .badField .empty) :=
  congrArg Host.Outcome.next ((officeCommand_taken ho ..).trans (if_neg (by simp [h])))

theorem exec_retireTerminal {terminal : Nat} {n : Line} (h : terminalOf terminal = some n) :
    exec (.retireTerminal tag terminal) s = .next (
      if !(row s.table n).active then answering s .office tag .already .empty
      else if boxHoldsCoins s n then answering s .office tag .inUse .empty
      else answering (retire n s) .office tag .ok .empty) := by
  refine congrArg Host.Outcome.next ((officeCommand_taken ho ..).trans ((if_pos (by rw [h]; rfl)).trans ?_))
  rw [h]
  exact congrArg₂ (ite _) (answerPort_eq ..) (congrArg₂ (ite _) (answerPort_eq ..) (answerPort_eq ..))

end

theorem boxHoldsCoins_iff (s : State) (n : Line) :
    boxHoldsCoins s n = true ↔ (tallyOf s n).present = true ∧ 0 < total (tallyOf s n).counts := by
  unfold boxHoldsCoins Tally.coins
  rw [Bool.and_eq_true, decide_eq_true_iff]

theorem retire_table (n : Line) (s : State) : (retire n s).table = change s.table n Entry.retired := by
  unfold retire
  rw [disturb_table]
  rfl

/-- The fault unit after a retirement: the plan's record alone is re-evaluated. -/
theorem retire_faults (n : Line) (s : State) :
    (retire n s).faults = (regrace (row s.table n).plan (onEntry n Entry.retired s)).faults := disturb_faults ..

/-- Settles O38: the entry is retired, its plan's grace re-evaluated, and then the transaction disturbed. -/
theorem retireTerminal : Obligations.RetireTerminal := by
  intro tag terminal s ho
  refine ⟨exec_retireTerminal_badField ho tag, fun n hn => ⟨fun hidle => ?_, fun hactive hcoins => ?_, fun hactive hcoins =>
    ⟨retire n s, ?_, (retire_frame s n).mono (by decide), ?_, ?_, disturb_disturbed n false _, ?_, ?_, ?_, ?_, ?_, ?_⟩⟩⟩
  · rw [exec_retireTerminal ho tag hn, if_pos (by rw [hidle]; rfl)]
  · rw [exec_retireTerminal ho tag hn, if_neg (by rw [hactive]; decide), if_pos ((boxHoldsCoins_iff ..).mpr hcoins)]
  · rw [exec_retireTerminal ho tag hn, if_neg (by rw [hactive]; decide), if_neg fun h => hcoins ((boxHoldsCoins_iff ..).mp h)]
  · rw [retire_table, row_change_self]; rfl
  · rw [retire_table]; exact sameBut_change n _ _
  · refine disturb_withdrawn n s (regrace (row s.table n).plan (onEntry n Entry.retired s)) _ rfl rfl ?_
    unfold goneStatus
    rw [regrace_table, onEntry_table, row_change_self]
    rfl
  · rw [retire_faults]; rfl
  · rw [retire_faults]; rfl
  · exact disturb_graceTrue (regrace_self ..)
  · exact fun hg => graceTracks_follows (retire_tracks n s hg)
  · intro q hq
    rw [retire_faults, regrace_other _ _ _ hq]
    rfl

/-! ## CONFIGURE_TERMINAL (R81) -/

/-- The plan joined and the plan left have true grace records after their re-evaluation. -/
theorem regracePlans_graceTrue {before : Entry} {p q : Fin 8} (s : State) (hq : q = p ∨ (before.active = true ∧ q = before.plan)) :
    (∃ since, row (regracePlans before p s).faults.grace q = .active since) ↔ unserved (regracePlans before p s) q = true := by
  unfold regracePlans
  by_cases hqp : q = p
  · subst hqp; exact regrace_self ..
  · obtain ⟨hactive, rfl⟩ : before.active = true ∧ q = before.plan := hq.resolve_left hqp
    rw [if_pos (by simp [hactive, hqp]), regrace_other _ _ _ hqp, unserved_regrace]
    exact regrace_self ..

section
variable {s : State} (ho : officeTakes s) (tag : Tag) (f : TerminalFields)
include ho

theorem exec_configureTerminal_badField (h : readTerminal f = none) :
    exec (.configureTerminal tag f) s = .next (answering s .office tag .badField .empty) :=
  congrArg Host.Outcome.next ((officeCommand_taken ho ..).trans (if_neg (by simp [h])))

theorem exec_configureTerminal {n : Line} {p : Fin 8} {c : CondSet} (h : readTerminal f = some (n, p, c)) :
    exec (.configureTerminal tag f) s = .next (
      if configureRefused s p then answering s .office tag .noPlan .empty
      else answering (configure n f p c s) .office tag .ok .empty) := by
  refine congrArg Host.Outcome.next ((officeCommand_taken ho ..).trans ((if_pos (by rw [h]; rfl)).trans ?_))
  rw [h]
  exact congrArg₂ (ite _) (answerPort_eq ..) (answerPort_eq ..)

end

theorem configureRefused_iff (s : State) (p : Fin 8) : configureRefused s p = true ↔
    s.books.activeState = .empty ∨ row s.books.activeBook.plans p = none ∨
      (s.books.stagedState = .armed ∧ row s.books.stagedBook.plans p = none) := by
  unfold configureRefused planPresent
  rw [Bool.or_eq_true, Bool.not_eq_true', activeHasPlan_false, or_assoc]
  simp

section
variable (n : Line) (f : TerminalFields) (p : Fin 8) (c : CondSet) (s : State)

theorem configured_eq (e : Entry) (time : ZoneMinute) (armed : Bool) : e.configured f p c time armed = { e with
    active := true, plan := p, takesCoins := f.takesCoins, takesCards := f.takesCards, asksMark := f.asksMark
    pass := c, mode := .normal, lastHeard := time
    addressed := if armed then e.addressed ||| 1#8 else e.addressed } := by
  cases armed <;> rfl

/-- The state of a CONFIGURE_TERMINAL before the transaction is disturbed. -/
def beforeDisturbance : State :=
  regracePlans (row s.table n) p (setCapacity n f.capacity
    (onEntry n (fun e => e.configured f p c (now s) (s.books.stagedState == .armed)) s))

theorem configure_eq : configure n f p c s = disturb n false (beforeDisturbance n f p c s) := rfl

theorem beforeDisturbance_table : (beforeDisturbance n f p c s).table =
    change s.table n fun e => e.configured f p c (now s) (s.books.stagedState == .armed) := by
  unfold beforeDisturbance
  rw [regracePlans_frame _ _ _ .table (by decide), setCapacity_table]
  rfl

end

section
variable (T : Vector Entry 16) (z : ZoneMinute) (n : Line) (x : Tally) (cap : Nat) (w : Watch)

/-- The fault unit after a box's marks have been judged against a capacity (R144). -/
def judged : Watch :=
  if x.present then
    markOp T z n .boxFull (decide (cap ≤ total x.counts) && !x.fullMark) (!decide (cap ≤ total x.counts) && x.fullMark)
      (some (total x.counts))
      (markOp T z n .boxNearFull (decide (cap * 9 / 10 ≤ total x.counts) && !x.nearMark)
        (!decide (cap * 9 / 10 ≤ total x.counts) && x.nearMark) (some (total x.counts)) w)
  else markOp T z n .boxAbsent (!x.absentMark) false none w

variable {T z n x cap w}

theorem judged_present (h : x.present = true) : judged T z n x cap w =
    markOp T z n .boxFull (decide (cap ≤ total x.counts) && !x.fullMark) (!decide (cap ≤ total x.counts) && x.fullMark)
      (some (total x.counts))
      (markOp T z n .boxNearFull (decide (cap * 9 / 10 ≤ total x.counts) && !x.nearMark)
        (!decide (cap * 9 / 10 ≤ total x.counts) && x.nearMark) (some (total x.counts)) w) := if_pos h

theorem judged_absent (h : x.present = false) : judged T z n x cap w = markOp T z n .boxAbsent (!x.absentMark) false none w :=
  if_neg (by simp [h])

theorem judged_zone : (judged T z n x cap w).1.zone = w.1.zone := by
  cases h : x.present
  · rw [judged_absent h, markOp_zone]
  · rw [judged_present h, markOp_zone, markOp_zone]

/-- Judging a box touches no record but those of its three faults. -/
theorem judged_record_other {m : Line} {k : TermFault} (hk : ¬ (m = n ∧ (k = .boxAbsent ∨ k = .boxNearFull ∨ k = .boxFull))) :
    terminalRecord (judged T z n x cap w).1 m k = terminalRecord w.1 m k := by
  have hother : ∀ j, (j = .boxAbsent ∨ j = .boxNearFull ∨ j = .boxFull) → ¬ (m = n ∧ k = j) := fun j hj h => hk ⟨h.1, h.2 ▸ hj⟩
  cases h : x.present
  · rw [judged_absent h, markOp_record, if_neg (hother _ (by simp))]
  · rw [judged_present h, markOp_record, if_neg (hother _ (by simp)), markOp_record, if_neg (hother _ (by simp))]

theorem judged_record_absent : terminalRecord (judged T z n x cap w).1 n .boxAbsent =
    if x.present = false ∧ x.absentMark = false then (terminalRecord w.1 n .boxAbsent).raised z none
    else terminalRecord w.1 n .boxAbsent := by
  cases h : x.present
  · rw [judged_absent h, markOp_record, if_pos ⟨rfl, rfl⟩]
    cases x.absentMark <;> simp
  · rw [judged_present h, markOp_record, if_neg fun e => absurd e.2 (by decide), markOp_record,
      if_neg fun e => absurd e.2 (by decide)]
    simp


/-- The record of a mark's own fault, once the mark is judged. -/
theorem markOp_self (k : TermFault) (reached mark : Bool) (d : Option Nat) :
    terminalRecord (markOp T z n k (reached && !mark) (!reached && mark) d w).1 n k =
      if reached = true ∧ mark = false then (terminalRecord w.1 n k).raised z d
      else if reached = false ∧ mark = true then
        (if (terminalRecord w.1 n k).state = .clear then terminalRecord w.1 n k else (terminalRecord w.1 n k).cleared z)
      else terminalRecord w.1 n k := by
  rw [markOp_record, if_pos ⟨rfl, rfl⟩]
  cases reached <;> cases mark <;> simp

/-- The mark of a box near its capacity leaves the record of a full box. -/
theorem markOp_near_full (a b : Bool) (d : Option Nat) :
    terminalRecord (markOp T z n .boxNearFull a b d w).1 n .boxFull = terminalRecord w.1 n .boxFull := by
  rw [markOp_record, if_neg fun e => absurd e.2 (by decide)]

theorem judged_record_near : terminalRecord (judged T z n x cap w).1 n .boxNearFull =
    if x.present = true ∧ cap * 9 / 10 ≤ total x.counts ∧ x.nearMark = false then
      (terminalRecord w.1 n .boxNearFull).raised z (some (total x.counts))
    else if x.present = true ∧ ¬ cap * 9 / 10 ≤ total x.counts ∧ x.nearMark = true then
      (if (terminalRecord w.1 n .boxNearFull).state = .clear then terminalRecord w.1 n .boxNearFull
        else (terminalRecord w.1 n .boxNearFull).cleared z)
    else terminalRecord w.1 n .boxNearFull := by
  cases h : x.present
  · rw [judged_absent h, markOp_record, if_neg fun e => absurd e.2 (by decide)]
    simp
  · rw [judged_present h, markOp_record, if_neg fun e => absurd e.2 (by decide), markOp_self]
    simp

theorem judged_record_full : terminalRecord (judged T z n x cap w).1 n .boxFull =
    if x.present = true ∧ cap ≤ total x.counts ∧ x.fullMark = false then
      (terminalRecord w.1 n .boxFull).raised z (some (total x.counts))
    else if x.present = true ∧ ¬ cap ≤ total x.counts ∧ x.fullMark = true then
      (if (terminalRecord w.1 n .boxFull).state = .clear then terminalRecord w.1 n .boxFull
        else (terminalRecord w.1 n .boxFull).cleared z)
    else terminalRecord w.1 n .boxFull := by
  cases h : x.present
  · rw [judged_absent h, markOp_record, if_neg fun e => absurd e.2 (by decide)]
    simp
  · rw [judged_present h, markOp_self, markOp_near_full]
    simp

/-- FAULT_OPENED is added by a mark that turns ON while its record is not OPEN. -/
theorem judged_opened : ∃ b, adds .faultOpened b w.2 (judged T z n x cap w).2 ∧ (b = true ↔
    (x.present = false ∧ x.absentMark = false ∧ (terminalRecord w.1 n .boxAbsent).state ≠ .opened) ∨
    (x.present = true ∧ cap * 9 / 10 ≤ total x.counts ∧ x.nearMark = false ∧ (terminalRecord w.1 n .boxNearFull).state ≠ .opened) ∨
    (x.present = true ∧ cap ≤ total x.counts ∧ x.fullMark = false ∧ (terminalRecord w.1 n .boxFull).state ≠ .opened)) := by
  cases h : x.present
  · rw [judged_absent h]
    exact ⟨_, markOp_opened .., by simp⟩
  · rw [judged_present h]
    refine ⟨_, adds_trans (markOp_opened ..) (markOp_opened ..), ?_⟩
    rw [markOp_near_full]
    simp [and_assoc]

/-- FAULT_CLEARED is added by a mark that turns OFF while its record stands. -/
theorem judged_cleared : ∃ b, adds .faultCleared b w.2 (judged T z n x cap w).2 ∧ (b = true ↔
    (x.present = true ∧ ¬ cap * 9 / 10 ≤ total x.counts ∧ x.nearMark = true ∧ (terminalRecord w.1 n .boxNearFull).state ≠ .clear) ∨
    (x.present = true ∧ ¬ cap ≤ total x.counts ∧ x.fullMark = true ∧ (terminalRecord w.1 n .boxFull).state ≠ .clear)) := by
  cases h : x.present
  · rw [judged_absent h]
    exact ⟨_, markOp_cleared .., by simp⟩
  · rw [judged_present h]
    refine ⟨_, adds_trans (markOp_cleared ..) (markOp_cleared ..), ?_⟩
    rw [markOp_near_full]
    simp only [FaultRecord.standing]
    cases x.nearMark <;> cases x.fullMark <;> simp
end

section
variable {n : Line} {f : TerminalFields} {p : Fin 8} {c : CondSet} {s : State}

/-- The fault unit after a CONFIGURE_TERMINAL but for grace: the box is judged against its new capacity. -/
theorem configure_judged : ∃ T, (configure n f p c s).faults.terminals = (judged T (now s) n (tallyOf s n) f.capacity (watchOf s)).1.terminals ∧
    (configure n f p c s).faults.zone = (judged T (now s) n (tallyOf s n) f.capacity (watchOf s)).1.zone ∧
    ∀ m, m ≠ Notice.graceStarted → ∀ b, adds m b s.notices (judged T (now s) n (tallyOf s n) f.capacity (watchOf s)).2 →
      adds m b s.notices (configure n f p c s).notices := by
  obtain ⟨T, w, rfl, hterminals, hzone, hadds⟩ := configure_watch n f p c s
  exact ⟨T, hterminals, hzone, fun m hm b hb => by simpa using adds_trans hb (hadds m hm)⟩

theorem configure_table : (configure n f p c s).table =
    change s.table n fun e => e.configured f p c (now s) (s.books.stagedState == .armed) := by
  rw [configure_eq, disturb_table, beforeDisturbance_table]

theorem configure_cash : (configure n f p c s).cash = { s.cash with tallies := put s.cash.tallies n { tallyOf s n with
    capacity := f.capacity
    absentMark := (tallyOf s n).absentMark || !(tallyOf s n).present
    nearMark := if (tallyOf s n).present then decide (f.capacity * 9 / 10 ≤ total (tallyOf s n).counts) else (tallyOf s n).nearMark
    fullMark := if (tallyOf s n).present then decide (f.capacity ≤ total (tallyOf s n).counts) else (tallyOf s n).fullMark } } := by
  rw [configure_eq, disturb_cash]
  unfold beforeDisturbance
  rw [regracePlans_frame _ _ _ .cash (by decide), setCapacity_cash]
  rfl

/-- A terminal just configured is there, so its withdrawn request is answered STALE. -/
theorem configure_withdrawn : withdrawnAnswered s (configure n f p c s) n .stale := by
  rw [configure_eq]
  refine disturb_withdrawn n s _ _ ?_ ?_ ?_
  · unfold beforeDisturbance
    rw [regracePlans_frame _ _ _ .lines (by decide), setCapacity_lines]
    rfl
  · unfold beforeDisturbance
    rw [regracePlans_frame _ _ _ .engine (by decide), setCapacity_engine]
    rfl
  · unfold goneStatus
    rw [beforeDisturbance_table, row_change_self, configured_eq]
    rfl

theorem configure_disturbed : disturbed n false s (configure n f p c s) := by
  have hd := disturb_disturbed n false (beforeDisturbance n f p c s)
  have hquotes : (beforeDisturbance n f p c s).quotes = s.quotes := by
    unfold beforeDisturbance
    rw [regracePlans_frame _ _ _ .quotes (by decide), setCapacity_quotes]
    rfl
  have hengine : (beforeDisturbance n f p c s).engine = s.engine := by
    unfold beforeDisturbance
    rw [regracePlans_frame _ _ _ .engine (by decide), setCapacity_engine]
    rfl
  unfold disturbed at hd ⊢
  rw [hquotes, hengine] at hd
  exact hd

end

/-- An absence mark turns ON where the box is ABSENT. -/
theorem absentMark_on (present mark : Bool) (P : Prop) :
    (present = false ∧ mark = false ∧ P) ↔ (mark = false ∧ (mark || !present) = true ∧ P) := by
  cases present <;> cases mark <;> simp

/-- A capacity mark turns ON where the box is PRESENT and has reached its bound. -/
theorem reachedMark_on (present mark : Bool) (reached P : Prop) [Decidable reached] :
    (present = true ∧ reached ∧ mark = false ∧ P) ↔ (mark = false ∧ (if present then decide reached else mark) = true ∧ P) := by
  cases present <;> cases mark <;> simp

/-- A capacity mark turns OFF where the box is PRESENT and has not reached its bound. -/
theorem reachedMark_off (present mark : Bool) (reached P : Prop) [Decidable reached] :
    (present = true ∧ ¬ reached ∧ mark = true ∧ P) ↔ (mark = true ∧ (if present then decide reached else mark) = false ∧ P) := by
  cases present <;> cases mark <;> simp

/-- Settles O37: the entry, the box judged against its capacity, the grace of the plans concerned, and the transaction. -/
theorem configureTerminal : Obligations.ConfigureTerminal := by
  intro tag f s ho
  refine ⟨exec_configureTerminal_badField ho tag f, fun n p c hread => ⟨fun habsent => ?_, fun hthere => ?_⟩⟩
  · rw [exec_configureTerminal ho tag f hread, if_pos ((configureRefused_iff ..).mpr habsent)]
  obtain ⟨T, hterminals, hzone, hadds⟩ := configure_judged (n := n) (f := f) (p := p) (c := c) (s := s)
  have hrecord := terminalRecord_congr hterminals
  have htally : tallyOf (configure n f p c s) n = _ := tally_of_cash configure_cash
  refine ⟨configure n f p c s, ?_, (configure_frame s n f p c).mono (by decide), ?_, ?_, configure_disturbed, configure_withdrawn,
    configure_cash, ?_, ?_, ?_, fun m k hk => ?_, ?_, ?_, ?_, fun hg => graceTracks_follows (configure_tracks n f p c s hg),
    fun q hq => ?_⟩
  · rw [exec_configureTerminal ho tag f hread, if_neg fun h => hthere ((configureRefused_iff ..).mp h)]
  · rw [configure_table, row_change_self, configured_eq]
    rfl
  · rw [configure_table]; exact sameBut_change n _ _
  · exact (hrecord ..).trans judged_record_absent
  · exact (hrecord ..).trans judged_record_near
  · exact (hrecord ..).trans judged_record_full
  · exact (hrecord ..).trans (judged_record_other hk)
  · rw [hzone]; exact judged_zone
  · obtain ⟨b, hb, hiff⟩ := judged_opened (T := T) (z := now s) (n := n) (x := tallyOf s n) (cap := f.capacity) (w := watchOf s)
    refine latchedWhere_of_adds (hadds .faultOpened (by decide) b hb) (hiff.trans ?_)
    unfold opensMark
    rw [htally]
    exact or_congr (absentMark_on ..) (or_congr (reachedMark_on ..) (reachedMark_on ..))
  · obtain ⟨b, hb, hiff⟩ := judged_cleared (T := T) (z := now s) (n := n) (x := tallyOf s n) (cap := f.capacity) (w := watchOf s)
    refine latchedWhere_of_adds (hadds .faultCleared (by decide) b hb) (hiff.trans ?_)
    unfold clearsMark
    rw [htally]
    exact or_congr (reachedMark_off ..) (reachedMark_off ..)
  · exact disturb_graceTrue (regracePlans_graceTrue _ hq)
end Sys2Proof.Proofs
end

section
/-! PROOFS. A SALE (O42, O43): the state in which its checks are made, the refusals in their order, and the commit block by block. -/
namespace Sys2Proof.Proofs
open Sys2Proof Sys2Proof.Machine

/-! ## The state a SALE's checks read -/

/-- The state a SALE is judged in: the frame heard, the request accepted, and a visitor's permit brought up to date (R98, R101). -/
def saleRead (n : Line) (q : OpenQuote) (m : SaleMoney) (s : State) : State := refreshForSale q m (asTaken s n .sale)

section
variable (n : Line) (q : OpenQuote) (m : SaleMoney) (s : State)

theorem saleRead_frame : onlyChanges [.permits] (asTaken s n .sale) (saleRead n q m s) := refreshForSale_frame _ q m

theorem saleRead_taken : onlyChanges [.lines, .table, .faults, .notices, .permits] s (saleRead n q m s) :=
  ((asTaken_frame s n .sale).trans (saleRead_frame n q m s)).mono (by decide)

theorem saleRead_clock : (saleRead n q m s).clock = s.clock := saleRead_taken n q m s .clock (by decide)
theorem saleRead_sales : (saleRead n q m s).sales = s.sales := saleRead_taken n q m s .sales (by decide)
theorem saleRead_quotes : (saleRead n q m s).quotes = s.quotes := saleRead_taken n q m s .quotes (by decide)
theorem saleRead_cash : (saleRead n q m s).cash = s.cash := saleRead_taken n q m s .cash (by decide)
theorem saleRead_ports : (saleRead n q m s).ports = s.ports := saleRead_taken n q m s .ports (by decide)
theorem saleRead_lines : (saleRead n q m s).lines = (asTaken s n .sale).lines := saleRead_frame n q m s .lines (by decide)
theorem saleRead_table : (saleRead n q m s).table = (heard n s).table := saleRead_frame n q m s .table (by decide)
theorem saleRead_faults : (saleRead n q m s).faults = (heard n s).faults := saleRead_frame n q m s .faults (by decide)
theorem saleRead_notices : (saleRead n q m s).notices = (heard n s).notices := saleRead_frame n q m s .notices (by decide)
theorem saleRead_now : now (saleRead n q m s) = now s := congrArg Clock.reading (saleRead_clock n q m s)
theorem saleRead_today : today (saleRead n q m s) = today s := congrArg (fun c : Clock => dayOf c.reading) (saleRead_clock n q m s)

theorem saleRead_service : serviceState (saleRead n q m s) n = serviceState (heard n s) n := by
  unfold serviceState
  rw [saleRead_table, saleRead_faults]

/-- A money SALE reads no permit. -/
theorem saleRead_permits_money {m : SaleMoney} (hm : m ≠ .visitor) : (saleRead n q m s).permits = s.permits := by
  unfold saleRead
  rw [refreshForSale_permits]
  cases m with
  | visitor => exact absurd rfl hm
  | cash counts => rfl
  | card paid => rfl

theorem saleRead_permits_visitor {permit granted : Nat} (hterms : q.result.terms = .visitor permit granted) :
    (saleRead n q .visitor s).permits = refreshIn s.permits permit (today s) := by
  unfold saleRead
  rw [refreshForSale_permits, hterms]
  rfl

end

/-! ## The payment check (R101) -/

section
variable {n : Line} {q : OpenQuote} {m : SaleMoney} {s : State}

/-- A money payment is judged by the coins alone. -/
theorem paymentAgrees_saleRead (hm : m ≠ .visitor) : paymentAgrees (saleRead n q m s) q m ↔ paymentAgrees s q m := by
  unfold paymentAgrees
  rw [saleRead_cash]
  cases m with
  | visitor => exact absurd rfl hm
  | cash counts => rfl
  | card paid => rfl

/-- The payment check of a visitor SALE, with the entry that is found. -/
theorem paymentRefusal_visitor {permit granted : Nat} (hterms : q.result.terms = .visitor permit granted) :
    paymentRefusal (saleRead n q .visitor s) q .visitor =
      match visitorRefusal (lookup Permit.number permit (refreshIn s.permits permit (today s))) q.result.plan (today s) with
      | some st => some st
      | none =>
        if ((lookup Permit.number permit (refreshIn s.permits permit (today s))).map Permit.allowance).getD 0 < granted then some .stale
        else none := by
  unfold paymentRefusal
  rw [hterms]
  show visitorSaleRefusal _ _ _ _ = _
  unfold visitorSaleRefusal findPermit
  rw [saleRead_permits_visitor n q s hterms, saleRead_today] <;> rfl

theorem visitorRefusal_valid {p : Permit} {b : VisitorBook} {plan : Fin 8} {day : Nat} (hk : p.kind = .visitorBook b)
    (hc : p.covers plan day = true) : visitorRefusal (some p) plan day = none := by
  refine if_pos ?_
  rw [(isSome_visitorBook p).mpr ⟨b, hk⟩, hc]
  rfl

theorem allowance_of {p : Permit} {b : VisitorBook} (hk : p.kind = .visitorBook b) : p.allowance = b.allowance := by
  unfold Permit.allowance Permit.visitorBook?
  rw [hk]
  rfl

/-- A payment that agrees passes the check. -/
theorem paymentRefusal_agrees (h : paymentAgrees s q m) : paymentRefusal (saleRead n q m s) q m = none := by
  by_cases hm : m = .visitor
  · subst hm
    obtain ⟨permit, granted, p, b, hterms, hp, hk, hc, hle⟩ := h
    rw [paymentRefusal_visitor hterms, hp, visitorRefusal_valid hk hc]
    refine if_neg (Nat.not_lt.mpr ?_)
    rw [Option.map_some, Option.getD_some, allowance_of hk]
    exact hle
  · exact (paymentRefusal_money _ q m hm).1 ((paymentAgrees_saleRead hm).mpr h)

end

/-! ## The course of the checks (R99) -/

section
variable {n : Line} {q : OpenQuote} {m : SaleMoney} {s : State} {f : SaleFields} {number : Nat}

/-- A SALE of the open quote, fresh, comes to the payment check. -/
theorem exec_sale_fresh (h : lineTakes s n) (hf : readSale f = some (q.number, m)) (hclock : s.clock.state = .set)
    (hq : row s.quotes n = some q) (hfresh : freshFor s q m.kind) : exec (.sale n f) s = .next (trySale n q m (asTaken s n .sale)) := by
  rw [execSale_taken h f _ m hf]
  refine congrArg Host.Outcome.next ?_
  unfold takeSale
  rw [if_neg (by rw [show clockSet (asTaken s n .sale) = true from clockSet_of_set hclock]; decide),
    show row (asTaken s n .sale).quotes n = some q from hq]
  dsimp only
  rw [if_neg (fun h => h rfl), quoteIsFresh_taken, (quoteIsFresh_iff ..).mpr hfresh]
  rfl

/-- The checks are made in the state the permit was read in. -/
theorem trySale_read : trySale n q m (asTaken s n .sale) =
    match paymentRefusal (saleRead n q m s) q m, lateRefusal (saleRead n q m s) n m.kind, (saleRead n q m s).sales.nextSerial with
    | some st, _, _ => refuseSale n st (saleRead n q m s)
    | none, some st, _ => refuseSale n st (saleRead n q m s)
    | none, none, none => refuseSale n .logFull (saleRead n q m s)
    | none, none, some serial => commitSale n q m serial (saleRead n q m s) := rfl

/-- A SALE refused at the payment check. -/
theorem trySale_payment {st : Status} (hp : paymentRefusal (saleRead n q m s) q m = some st) :
    trySale n q m (asTaken s n .sale) = refuseSale n st (saleRead n q m s) := by rw [trySale_read, hp]

/-- A SALE refused at the late checks. -/
theorem trySale_late {st : Status} (hp : paymentRefusal (saleRead n q m s) q m = none)
    (hl : lateRefusal (saleRead n q m s) n m.kind = some st) :
    trySale n q m (asTaken s n .sale) = refuseSale n st (saleRead n q m s) := by rw [trySale_read, hp, hl]

/-- A SALE that passes every check is committed. -/
theorem trySale_commits {serial : Nat} (hp : paymentRefusal (saleRead n q m s) q m = none)
    (hl : lateRefusal (saleRead n q m s) n m.kind = none) (hserial : s.sales.nextSerial = some serial) :
    trySale n q m (asTaken s n .sale) = commitSale n q m serial (saleRead n q m s) := by
  rw [trySale_read, hp, hl, saleRead_sales, hserial]

end

/-! ## A SALE refused (R99) -/

/-- A SALE is answered with this status; nothing is sold, STALE clears the open quote, and the register is as given. -/
def saleRefused (n : Line) (f : SaleFields) (s : State) (st : Status) (register : List Permit) : Prop :=
  ∃ t, exec (.sale n f) s = .next t ∧ answeredOn s t n st .empty ∧
    onlyChanges [.lines, .table, .faults, .notices, .quotes, .permits] s t ∧
    t.quotes = (if st = .stale then put s.quotes n none else s.quotes) ∧ t.permits = register

section
variable {n : Line} {f : SaleFields} {s : State} {st : Status}

/-- What a refusal leaves of a state that the request's taking, and a permit read, have made. -/
theorem saleRefused_of {u : State} (hx : exec (.sale n f) s = .next (refuseSale n st u))
    (hu : onlyChanges [.permits] (asTaken s n .sale) u) : saleRefused n f s st u.permits := by
  have hlines : u.lines = (asTaken s n .sale).lines := hu .lines (by decide)
  have hquotes : u.quotes = s.quotes := hu .quotes (by decide)
  refine ⟨_, hx, ?_, (((asTaken_frame s n .sale).trans hu).trans (refuseSale_frame u n st)).mono (by decide), ?_, ?_⟩
  · unfold refuseSale
    refine answerTaken (k := .sale) ?_ st .empty
    split <;> exact hlines
  · unfold refuseSale
    rw [answerPending_quotes]
    split
    · show put u.quotes n none = _
      rw [hquotes]
    · exact hquotes
  · unfold refuseSale
    rw [answerPending_permits]
    split <;> rfl

theorem saleRefused_taken (hx : exec (.sale n f) s = .next (refuseSale n st (asTaken s n .sale))) :
    saleRefused n f s st s.permits :=
  saleRefused_of (u := asTaken s n .sale) hx (onlyChanges_refl _ _)

theorem saleRefused_badField (h : lineTakes s n) (hf : readSale f = none) : saleRefused n f s .badField s.permits := by
  have hx : exec (.sale n f) s = .next (replyAtOnce n .badField false (heard n s)) := by
    show Host.Outcome.next _ = _
    rw [whenRunning_true h.1.1, hf]
    exact congrArg Host.Outcome.next (takeFrame_badField h.1 ..)
  exact ⟨_, hx, replyAtOnce_answered h.1 _, (replyAtOnce_heard_frame s n .badField false).mono (by decide), rfl, rfl⟩

theorem saleRefused_clockUnset {number : Nat} {m : SaleMoney} (h : lineTakes s n) (hf : readSale f = some (number, m))
    (hclock : s.clock.state = .unset) : saleRefused n f s .clockUnset s.permits := by
  refine saleRefused_taken ((execSale_taken h f number m hf).trans (congrArg Host.Outcome.next ?_))
  have hunset : clockSet (asTaken s n .sale) = false := clockSet_of_unset hclock
  unfold takeSale
  rw [hunset]
  rfl

theorem saleRefused_noQuote {number : Nat} {m : SaleMoney} (h : lineTakes s n) (hf : readSale f = some (number, m))
    (hclock : s.clock.state = .set) (hno : ∀ q, row s.quotes n = some q → q.number ≠ number) : saleRefused n f s .noQuote s.permits := by
  refine saleRefused_taken ((execSale_taken h f number m hf).trans (congrArg Host.Outcome.next ?_))
  have hset : clockSet (asTaken s n .sale) = true := clockSet_of_set hclock
  have hquotes : (asTaken s n .sale).quotes = s.quotes := rfl
  unfold takeSale
  rw [hset, if_neg (by decide), hquotes]
  cases hq : row s.quotes n with
  | none => rfl
  | some q => exact if_pos (hno q hq)

theorem saleRefused_stale {q : OpenQuote} {m : SaleMoney} (h : lineTakes s n) (hf : readSale f = some (q.number, m))
    (hclock : s.clock.state = .set) (hq : row s.quotes n = some q) (hold : ¬ freshFor s q m.kind) :
    saleRefused n f s .stale s.permits := by
  refine saleRefused_taken ((execSale_taken h f _ m hf).trans (congrArg Host.Outcome.next ?_))
  have hset : clockSet (asTaken s n .sale) = true := clockSet_of_set hclock
  have hquotes : row (asTaken s n .sale).quotes n = some q := hq
  have hnot : quoteIsFresh (asTaken s n .sale) q m.kind = false :=
    Bool.eq_false_iff.mpr fun hb => hold ((quoteIsFresh_iff ..).mp ((quoteIsFresh_taken ..).symm.trans hb))
  unfold takeSale
  rw [hset, if_neg (by decide), hquotes]
  dsimp only
  rw [if_neg (fun h => h rfl), hnot]
  rfl

end

section
variable {n : Line} {f : SaleFields} {s : State} {st : Status} {q : OpenQuote} {m : SaleMoney} (h : lineTakes s n)
  (hf : readSale f = some (q.number, m)) (hclock : s.clock.state = .set) (hq : row s.quotes n = some q) (hfresh : freshFor s q m.kind)
include h hf hclock hq hfresh

/-- A refusal by the payment check keeps the permit as it was read. -/
theorem saleRefused_payment (hp : paymentRefusal (saleRead n q m s) q m = some st) :
    saleRefused n f s st (saleRead n q m s).permits :=
  saleRefused_of ((exec_sale_fresh h hf hclock hq hfresh).trans (congrArg Host.Outcome.next (trySale_payment hp))) (saleRead_frame n q m s)

/-- A refusal after the payment check does so too. -/
theorem saleRefused_late (hp : paymentAgrees s q m) (hl : lateRefusal (saleRead n q m s) n m.kind = some st) :
    saleRefused n f s st (saleRead n q m s).permits :=
  saleRefused_of ((exec_sale_fresh h hf hclock hq hfresh).trans (congrArg Host.Outcome.next (trySale_late (paymentRefusal_agrees hp) hl)))
    (saleRead_frame n q m s)

end

/-! ## The late checks (R99 (v), (vi)) -/

theorem lateRefusal_service {s : State} {n : Line} {k : PayKind} {st : Status} (h : serviceRefusal (serviceState s n) k = some st) :
    lateRefusal s n k = some st := by unfold lateRefusal; rw [h]

theorem lateRefusal_logFull {s : State} {n : Line} {k : PayKind} (h : serviceAllows (serviceState s n) k)
    (hfull : s.sales.nextSerial = none ∨ logHasRoom s.sales.log (now s) = false) : lateRefusal s n k = some .logFull := by
  unfold lateRefusal
  rw [(serviceRefusal_none ..).mpr h]
  refine if_pos ?_
  rcases hfull with hnone | hroom
  · rw [hnone]; rfl
  · rw [hroom]; simp

theorem logHasRoom_false {log : List Session} {z : ZoneMinute} (hfull : 4096 ≤ log.length) (hrun : ∀ x ∈ log, z < x.expiry) :
    logHasRoom log z = false := by
  refine Bool.eq_false_iff.mpr fun hroom => ?_
  obtain hlow | ⟨r, hr, hpast⟩ := (logHasRoom_iff log z).mp hroom
  · omega
  · exact Nat.lt_irrefl _ (Nat.lt_of_lt_of_le (hrun r hr) hpast)

/-- Settles O43, check by check. -/
theorem saleRefusedInOrder : Obligations.SaleRefusedInOrder := by
  intro n f s h
  refine ⟨saleRefused_badField h, fun number m hf => ⟨saleRefused_clockUnset h hf, fun hclock hno => saleRefused_noQuote h hf hclock hno,
    fun q hclock hq hnumber => ?_⟩⟩
  subst hnumber
  refine ⟨saleRefused_stale h hf hclock hq, fun hfresh hm hno => ?_, fun permit granted hfresh hm hterms => ?_,
    fun hfresh hpays register hmoney hvisitor => ?_⟩
  · have hrefused := saleRefused_payment h hf hclock hq hfresh
      ((paymentRefusal_money _ q m hm).2 fun hyes => hno ((paymentAgrees_saleRead hm).mp hyes))
    rwa [saleRead_permits_money n q s hm] at hrefused
  · subst hm
    have hread := saleRead_permits_visitor n q s hterms
    have hpayment := paymentRefusal_visitor (n := n) (s := s) hterms
    have hcheck := fun st => saleRefused_payment (st := st) h hf hclock hq hfresh
    rw [hread, hpayment] at hcheck
    refine ⟨fun hnone => hcheck _ ?_, fun p hp hinvalid => hcheck _ ?_, fun p b hp hk hc hless => hcheck _ ?_⟩
    · rw [lookup_refreshIn, hnone]
      rfl
    · rw [lookup_refreshIn, hp, Option.map_some, if_pos rfl, refreshed_invalid _ hinvalid]
    · rw [hp, visitorRefusal_valid hk hc]
      refine if_pos ?_
      rw [Option.map_some, Option.getD_some, allowance_of hk]
      exact hless
  · have hregister : (saleRead n q m s).permits = register := by
      by_cases hm : m = .visitor
      · subst hm
        obtain ⟨permit, granted, p, b, hterms, -⟩ := hpays
        rw [saleRead_permits_visitor n q s hterms, hvisitor permit granted rfl hterms]
      · rw [saleRead_permits_money n q s hm, hmoney hm]
    have hlate := fun st => saleRefused_late (st := st) h hf hclock hq hfresh hpays
    rw [hregister] at hlate
    have hservice := saleRead_service n q m s
    refine ⟨fun hv => hlate _ ?_, fun hk hv => hlate _ ?_, fun hk hv => hlate _ ?_, fun hallows hfull => hlate _ ?_⟩
    · exact lateRefusal_service (by rw [hservice]; exact if_pos hv)
    · refine lateRefusal_service ?_
      rw [hservice, hk]
      rcases hv with hv | hv <;> rw [hv] <;> rfl
    · refine lateRefusal_service ?_
      rw [hservice, hk]
      rcases hv with hv | hv <;> rw [hv] <;> rfl
    · refine lateRefusal_logFull (by rw [hservice]; exact hallows) ?_
      rw [saleRead_sales, saleRead_now]
      exact hfull.imp_right fun ⟨hlong, hrun⟩ => logHasRoom_false hlong hrun
end Sys2Proof.Proofs
end

section
/-! PROOFS. The commit of a SALE (O42): the log, the payment with its marks, the pressure mark, and the notices of them all. -/
namespace Sys2Proof.Proofs
open Sys2Proof Sys2Proof.Machine

/-! ## The stages of a commit (R102) -/

/-- The record a SALE adds. -/
def saleRecord (n : Line) (q : OpenQuote) (m : SaleMoney) (serial : Nat) (s : State) : Session :=
  sessionOf (saleRead n q m s) n q m serial

theorem saleRecord_ticket (n : Line) (q : OpenQuote) (m : SaleMoney) (serial : Nat) (s : State) : (saleRecord n q m serial s).ticket =
    { zone := s.ports.zoneId.toNat, terminal := n.val + 1, sequence := row s.sales.sequences n } := by
  unfold saleRecord sessionOf ticketOf
  rw [saleRead_ports, saleRead_sales]
  rfl

theorem saleRecord_overpaid (n : Line) (q : OpenQuote) (m : SaleMoney) (serial : Nat) (s : State) :
    (saleRecord n q m serial s).overpaid = overpaidOf s.cash.coins m q.result.terms.price := by
  unfold saleRecord sessionOf
  rw [saleRead_cash]

/-- The state once the record is in the log. -/
def saleBooked (n : Line) (q : OpenQuote) (m : SaleMoney) (serial : Nat) (s : State) : State :=
  onSales (fun c => c.committed n (saleRecord n q m serial s) (now s)) (saleRead n q m s)

/-- The state once the payment is taken. -/
def salePaid (n : Line) (q : OpenQuote) (m : SaleMoney) (serial : Nat) (s : State) : State :=
  takePayment n m q.result.terms (saleBooked n q m serial s)

/-- The state once the totals are added to and the quote is closed. -/
def saleAccounted (n : Line) (q : OpenQuote) (m : SaleMoney) (serial : Nat) (s : State) : State :=
  let r := saleRecord n q m serial s
  cancelQuote n (onToday n (fun d => d.withSale r.kind r.payment (paidValue s.cash.coins m) r.overpaid) (salePaid n q m serial s))

/-- The state a SALE leaves. -/
def saleDone (n : Line) (q : OpenQuote) (m : SaleMoney) (serial : Nat) (s : State) : State :=
  commitSale n q m serial (saleRead n q m s)

section
variable (n : Line) (q : OpenQuote) (m : SaleMoney) (serial : Nat) (s : State)

theorem saleDone_eq : saleDone n q m serial s =
    answerPending n .ok (soldBody (saleRecord n q m serial s) q.result.terms) (easePressure (feelPressure (saleAccounted n q m serial s))) := by
  unfold saleDone commitSale saleAccounted salePaid saleBooked
  dsimp only
  rw [saleRead_now, saleRead_cash]
  rfl

theorem saleDone_frame : onlyChanges [.lines, .table, .faults, .notices, .sales, .quotes, .cash, .permits] s (saleDone n q m serial s) :=
  ((saleRead_taken n q m s).trans (commitSale_frame _ n q m serial)).mono (by decide)

theorem saleDone_table : (saleDone n q m serial s).table = (heard n s).table :=
  (commitSale_frame _ n q m serial .table (by decide) : _ = (saleRead n q m s).table).trans (saleRead_table ..)

theorem saleBooked_cash : (saleBooked n q m serial s).cash = s.cash := saleRead_cash n q m s
theorem saleBooked_clock : (saleBooked n q m serial s).clock = s.clock := saleRead_clock n q m s
theorem saleBooked_faults : (saleBooked n q m serial s).faults = (heard n s).faults := saleRead_faults n q m s
theorem saleBooked_notices : (saleBooked n q m serial s).notices = (heard n s).notices := saleRead_notices n q m s
theorem saleBooked_table : (saleBooked n q m serial s).table = (heard n s).table := saleRead_table n q m s
theorem saleBooked_permits : (saleBooked n q m serial s).permits = (saleRead n q m s).permits := rfl
theorem saleBooked_now : now (saleBooked n q m serial s) = now s := congrArg Clock.reading (saleBooked_clock ..)

/-- The sale unit a SALE leaves. -/
theorem saleDone_sales : ∃ b, (saleDone n q m serial s).sales =
    { s.sales.committed n (saleRecord n q m serial s) (now s) with
      pressure := b
      totals := change s.sales.totals n (onDayRecord (today s) fun d => d.withSale (saleRecord n q m serial s).kind
        (saleRecord n q m serial s).payment (paidValue s.cash.coins m) (saleRecord n q m serial s).overpaid) } := by
  obtain ⟨-, -, hsales, -⟩ := commitSale_spec n q m serial (saleRead n q m s)
  rw [saleRead_sales, saleRead_cash, saleRead_now, saleRead_today] at hsales
  exact hsales

theorem saleDone_quotes : (saleDone n q m serial s).quotes = put s.quotes n none := by
  obtain ⟨-, -, -, hquotes, -⟩ := commitSale_spec n q m serial (saleRead n q m s)
  rw [saleRead_quotes] at hquotes
  exact hquotes

/-- What a SALE does at the cash unit and the register is what its payment does. -/
theorem saleDone_cash : (saleDone n q m serial s).cash = (salePaid n q m serial s).cash := by
  obtain ⟨v, hv, -, -, hcash, -⟩ := commitSale_spec n q m serial (saleRead n q m s)
  rw [saleRead_now] at hv
  exact hcash.trans (congrArg State.cash hv)

theorem saleDone_permits : (saleDone n q m serial s).permits = (salePaid n q m serial s).permits := by
  obtain ⟨v, hv, -, -, -, hpermits, -⟩ := commitSale_spec n q m serial (saleRead n q m s)
  rw [saleRead_now] at hv
  exact hpermits.trans (congrArg State.permits hv)

theorem saleDone_answered :
    answeredOn s (saleDone n q m serial s) n .ok (soldBody (saleRecord n q m serial s) q.result.terms) := by
  obtain ⟨-, -, -, -, -, -, w, hlines, ht⟩ := commitSale_spec n q m serial (saleRead n q m s)
  unfold saleDone
  rw [ht]
  exact answerTaken (k := .sale) (hlines.trans (saleRead_lines ..)) _ _

/-- What a SALE does at the fault unit, beside its payment: the pressure mark (R108). -/
theorem saleDone_faults :
    let v := salePaid n q m serial s
    let t := saleDone n q m serial s
    t.sales.pressure = (decide (3840 ≤ t.sales.log.length) || (s.sales.pressure && decide (3072 < t.sales.log.length))) ∧
      t.faults.terminals = v.faults.terminals ∧
      row t.faults.zone 3 = (if s.sales.pressure = false ∧ 3840 ≤ t.sales.log.length then (row v.faults.zone 3).raised (now s) none
          else if s.sales.pressure = true ∧ t.sales.log.length ≤ 3072 then clearedNow s (row v.faults.zone 3)
          else row v.faults.zone 3) ∧
      (∀ k, k ≠ 3 → row t.faults.zone k = row v.faults.zone k) ∧
      ∀ j, j ≠ .faultOpened → j ≠ .faultCleared → adds j false v.notices t.notices := by
  have h := commitSale_faults n q m serial (saleRead n q m s)
  unfold clearedNow at h ⊢
  rw [saleRead_sales, saleRead_now] at h
  exact h

end

/-! ## The log (R102, R107) -/

theorem makeRoom_short {log : List Session} {z : ZoneMinute} (h : log.length < 4096) : makeRoom log z = log := if_pos h

/-- A full log gives up its expired record of lowest serial. -/
theorem makeRoom_full {log : List Session} {z : ZoneMinute} (h : ¬ log.length < 4096) (hr : Rising Session.serial log)
    (he : ∃ r ∈ log, r.expiry ≤ z) : ∃ old ∈ log, old.expiry ≤ z ∧ (∀ x ∈ log, x.expiry ≤ z → old.serial ≤ x.serial) ∧
      makeRoom log z = log.filter fun x => decide (x.serial ≠ old.serial) := by
  obtain ⟨old, hfind, hold, hpast, hleast⟩ := expiredRecord_first hr he
  refine ⟨old, hold, hpast, hleast, ?_⟩
  unfold makeRoom
  rw [if_neg h, hfind]
  refine List.filter_congr fun x _ => ?_
  by_cases hx : x.serial = old.serial <;> simp [hx]

/-! ## The day's totals (R110, R112) -/

/-- What a commit adds to the day record, in the terms of the claims. -/
theorem withSale_added (mode : Mode) (m : SaleMoney) (coins : Vector Nat 8) (terms : Terms) (d : DayRecord) :
    d.withSale (sessionKind mode m.kind) (sessionPayment m terms) (paidValue coins m) (overpaidOf coins m terms.price) =
      saleAdded mode m coins terms d := by
  cases mode <;> cases m <;> cases terms <;> rfl

/-! ## The payment (R102 (iv), (v)) -/

section
variable (n : Line) (q : OpenQuote) (serial : Nat) (s : State)

theorem salePaid_cash (counts : Vector Nat 8) :
    salePaid n q (.cash counts) serial s = addCoins n counts (saleBooked n q (.cash counts) serial s) := rfl

theorem salePaid_visitor {permit granted : Nat} (hterms : q.result.terms = .visitor permit granted) :
    salePaid n q .visitor serial s = debitPermit permit granted (saleBooked n q .visitor serial s) := by
  unfold salePaid
  rw [hterms]
  rfl

end

/-- A payment adds this source where that holds. -/
def paymentLatches (j : Notice) (c : Prop) (n : Line) (q : OpenQuote) (m : SaleMoney) (serial : Nat) (s : State) : Prop :=
  ∃ b, adds j b (saleBooked n q m serial s).notices (salePaid n q m serial s).notices ∧ (b = true ↔ c)

section
variable {n : Line} {q : OpenQuote} {m : SaleMoney} {serial : Nat} {s : State}

/-- A payment is coins, a card's amount, or minutes. -/
theorem payment_cases (hpays : paymentAgrees s q m) : (∃ counts, m = .cash counts) ∨ (∃ paid, m = .card paid) ∨
    ∃ permit granted, m = .visitor ∧ q.result.terms = .visitor permit granted := by
  cases m with
  | cash counts => exact .inl ⟨counts, rfl⟩
  | card paid => exact .inr (.inl ⟨paid, rfl⟩)
  | visitor =>
    obtain ⟨permit, granted, p, b, hterms, -⟩ := hpays
    exact .inr (.inr ⟨permit, granted, rfl, hterms⟩)

/-- Only coins touch the fault unit. -/
theorem salePaid_faults (hpays : paymentAgrees s q m) (hm : ∀ counts, m ≠ .cash counts) :
    (salePaid n q m serial s).faults = (heard n s).faults := by
  obtain ⟨counts, rfl⟩ | ⟨paid, rfl⟩ | ⟨permit, granted, rfl, hterms⟩ := payment_cases hpays
  · exact absurd rfl (hm counts)
  · exact saleBooked_faults ..
  · rw [salePaid_visitor n q serial s hterms, debitPermit_faults, saleBooked_faults]

/-- Only coins touch the cash unit. -/
theorem salePaid_sameCash (hpays : paymentAgrees s q m) (hm : ∀ counts, m ≠ .cash counts) :
    (salePaid n q m serial s).cash = s.cash := by
  obtain ⟨counts, rfl⟩ | ⟨paid, rfl⟩ | ⟨permit, granted, rfl, hterms⟩ := payment_cases hpays
  · exact absurd rfl (hm counts)
  · exact saleBooked_cash ..
  · rw [salePaid_visitor n q serial s hterms, debitPermit_cash, saleBooked_cash]

/-- A payment leaves the zone's records. -/
theorem salePaid_zone (hpays : paymentAgrees s q m) : (salePaid n q m serial s).faults.zone = s.faults.zone := by
  obtain ⟨-, -, -, hzone, -⟩ := heard_records s n
  by_cases hm : ∃ counts, m = .cash counts
  · obtain ⟨counts, rfl⟩ := hm
    obtain ⟨-, -, hcoins, -⟩ := addCoins_tally n counts (saleBooked n q (.cash counts) serial s)
    rw [salePaid_cash, hcoins, saleBooked_faults, hzone]
  · rw [salePaid_faults hpays fun counts h => hm ⟨counts, h⟩, hzone]

/-- A payment leaves every terminal's record but those of the terminal's box. -/
theorem salePaid_record (hpays : paymentAgrees s q m) {j : Line} {k : TermFault} (hk : ¬ (j = n ∧ (k = .boxNearFull ∨ k = .boxFull))) :
    terminalRecord (salePaid n q m serial s).faults j k = terminalRecord (heard n s).faults j k := by
  by_cases hm : ∃ counts, m = .cash counts
  · obtain ⟨counts, rfl⟩ := hm
    obtain ⟨-, hcoins, -⟩ := addCoins_tally n counts (saleBooked n q (.cash counts) serial s)
    rw [salePaid_cash, hcoins, if_neg fun h => hk ⟨h.1, .inl h.2.1⟩, if_neg fun h => hk ⟨h.1, .inr h.2.1⟩, saleBooked_faults]
  · rw [salePaid_faults hpays fun counts h => hm ⟨counts, h⟩]

theorem heard_boxRecord (n : Line) (s : State) {k : TermFault} (hk : k ≠ .lineSilent) (j : Line) :
    terminalRecord (heard n s).faults j k = terminalRecord s.faults j k := by
  obtain ⟨-, -, -, -, hother⟩ := heard_records s n
  exact hother j k (.inr hk)

theorem booked_tally : tallyOf (saleBooked n q m serial s) n = tallyOf s n := by
  unfold tallyOf
  rw [saleBooked_cash]

/-- No mark turns where the cash unit stays. -/
theorem opensMark_same {t : State} (h : t.cash = s.cash) (mark : Tally → Bool) (k : TermFault) : ¬ opensMark mark k n s t := by
  rintro ⟨hoff, hon, -⟩
  unfold tallyOf at hoff hon
  rw [h, hoff] at hon
  cases hon

/-- FAULT_OPENED comes of a payment exactly with a mark of the box that turns ON while its record is not OPEN. -/
theorem salePaid_opened (hpays : paymentAgrees s q m) : paymentLatches .faultOpened
    (opensMark Tally.nearMark .boxNearFull n s (salePaid n q m serial s) ∨ opensMark Tally.fullMark .boxFull n s (salePaid n q m serial s))
    n q m serial s := by
  obtain ⟨counts, rfl⟩ | ⟨paid, rfl⟩ | ⟨permit, granted, rfl, hterms⟩ := payment_cases hpays
  · obtain ⟨hadds, -, -⟩ := addCoins_notices n counts (saleBooked n q (.cash counts) serial s)
    refine ⟨_, hadds, ?_⟩
    unfold opensMark
    rw [booked_tally, saleBooked_faults, heard_boxRecord n s (by decide), heard_boxRecord n s (by decide), ← salePaid_cash]
    simp [and_assoc]
  · exact ⟨false, adds_refl _ _, by simp [opensMark_same (salePaid_sameCash hpays (by simp))]⟩
  · refine ⟨false, ?_, by simp [opensMark_same (salePaid_sameCash hpays (by simp))]⟩
    rw [salePaid_visitor n q serial s hterms]
    exact debitPermit_adds _ _ _ _ (by decide)

/-- A payment clears no fault. -/
theorem salePaid_cleared (hpays : paymentAgrees s q m) :
    adds .faultCleared false (saleBooked n q m serial s).notices (salePaid n q m serial s).notices := by
  obtain ⟨counts, rfl⟩ | ⟨paid, rfl⟩ | ⟨permit, granted, rfl, hterms⟩ := payment_cases hpays
  · obtain ⟨-, hadds, -⟩ := addCoins_notices n counts (saleBooked n q (.cash counts) serial s)
    exact hadds
  · exact adds_refl _ _
  · rw [salePaid_visitor n q serial s hterms]
    exact debitPermit_adds _ _ _ _ (by decide)

/-- A money payment exhausts no permit. -/
theorem salePaid_notExhausted (hm : m ≠ .visitor) :
    adds .permitExhausted false (saleBooked n q m serial s).notices (salePaid n q m serial s).notices := by
  cases m with
  | visitor => exact absurd rfl hm
  | card paid => exact adds_refl _ _
  | cash counts =>
    obtain ⟨-, -, -, hadds⟩ := addCoins_tally n counts (saleBooked n q (.cash counts) serial s)
    exact hadds _ (by decide) (by decide)

/-- Grace follows the marks of a payment (R174). -/
theorem salePaid_tracks (hpays : paymentAgrees s q m) (hg : graceKept s) : graceTracks s (salePaid n q m serial s) := by
  have hheard := (heard_tracks hg n).1
  have hbooked : graceTracks s (saleBooked n q m serial s) := by
    refine graceTracks_same hheard (saleBooked_faults ..) (by rw [saleBooked_notices]; exact adds_refl _ _) (saleBooked_now ..) fun j => ?_
    rw [saleBooked_table]
    exact ⟨rfl, rfl⟩
  obtain ⟨counts, rfl⟩ | ⟨paid, rfl⟩ | ⟨permit, granted, rfl, hterms⟩ := payment_cases hpays
  · exact graceTracks_addCoins hbooked n counts
  · exact hbooked
  · rw [salePaid_visitor n q serial s hterms]
    refine graceTracks_same hbooked (debitPermit_faults ..) (debitPermit_adds _ _ _ _ (by decide)) ?_ fun j => ?_
    · unfold now; rw [debitPermit_clock]
    · rw [debitPermit_table]; exact ⟨rfl, rfl⟩

end

/-! ## What a SALE leaves -/

section
variable {n : Line} {q : OpenQuote} {m : SaleMoney} {serial : Nat} {s : State}

theorem saleDone_tally : tallyOf (saleDone n q m serial s) n = tallyOf (salePaid n q m serial s) n := by
  unfold tallyOf
  rw [saleDone_cash]

theorem opensMark_saleDone (mark : Tally → Bool) (k : TermFault) :
    opensMark mark k n s (saleDone n q m serial s) ↔ opensMark mark k n s (salePaid n q m serial s) := by
  unfold opensMark
  rw [saleDone_tally]

theorem saleDone_log : (saleDone n q m serial s).sales.log = makeRoom s.sales.log (now s) ++ [saleRecord n q m serial s] := by
  obtain ⟨b, hsales⟩ := saleDone_sales n q m serial s
  rw [hsales]
  rfl

/-- What the pressure mark does to the notices, read where the totals have been added to. -/
theorem saleDone_pressure (hpays : paymentAgrees s q m) :
    adds .faultOpened (!s.sales.pressure && decide (3840 ≤ (saleDone n q m serial s).sales.log.length) &&
        (row s.faults.zone 3).state != .opened) (salePaid n q m serial s).notices (saleDone n q m serial s).notices ∧
      adds .faultCleared (s.sales.pressure && decide ((saleDone n q m serial s).sales.log.length ≤ 3072) &&
        (row s.faults.zone 3).standing) (salePaid n q m serial s).notices (saleDone n q m serial s).notices ∧
      ∀ s0, graceTracks s0 (saleAccounted n q m serial s) → graceTracks s0 (saleDone n q m serial s) := by
  obtain ⟨hlog, -, hopened, hcleared, htracks⟩ := pressure_notices (saleAccounted n q m serial s)
  have hpressure : (saleAccounted n q m serial s).sales.pressure = s.sales.pressure := by
    show (takePayment n m q.result.terms _).sales.pressure = _
    rw [takePayment_sales]
    show (saleRead n q m s).sales.pressure = _
    rw [saleRead_sales]
  have hzone : (saleAccounted n q m serial s).faults.zone = s.faults.zone := salePaid_zone hpays
  have hdone : (saleDone n q m serial s).sales.log = (saleAccounted n q m serial s).sales.log := by
    rw [saleDone_eq, answerPending_sales, hlog]
  have hnotices : (saleDone n q m serial s).notices = (easePressure (feelPressure (saleAccounted n q m serial s))).notices := by
    rw [saleDone_eq]; rfl
  rw [hpressure, hzone, ← hdone, ← hnotices] at hopened hcleared
  refine ⟨hopened, hcleared, fun s0 h0 => ?_⟩
  rw [saleDone_eq]
  exact graceTracks_answer (htracks s0 h0) n _ _

theorem saleDone_opened (hpays : paymentAgrees s q m) : latchedWhere .faultOpened
    ((s.sales.pressure = false ∧ 3840 ≤ (saleDone n q m serial s).sales.log.length ∧ (row s.faults.zone 3).state ≠ .opened) ∨
      opensMark Tally.nearMark .boxNearFull n s (saleDone n q m serial s) ∨
      opensMark Tally.fullMark .boxFull n s (saleDone n q m serial s)) s (saleDone n q m serial s) := by
  have hheard := (heard_adds n s).2
  rw [← saleBooked_notices n q m serial s] at hheard
  obtain ⟨b, hpaid, hiff⟩ := salePaid_opened (n := n) (serial := serial) hpays
  refine latchedWhere_of_adds (adds_trans (adds_trans hheard hpaid) (saleDone_pressure hpays).1) ?_
  rw [opensMark_saleDone, opensMark_saleDone, ← hiff]
  simp [and_assoc, or_comm]

theorem saleDone_cleared (hpays : paymentAgrees s q m) : latchedWhere .faultCleared (stands s n .lineSilent ∨
    (s.sales.pressure = true ∧ (saleDone n q m serial s).sales.log.length ≤ 3072 ∧ (row s.faults.zone 3).state ≠ .clear))
    s (saleDone n q m serial s) := by
  have hheard := (heard_adds n s).1
  rw [← saleBooked_notices n q m serial s] at hheard
  refine latchedWhere_of_adds (adds_trans (adds_trans hheard (salePaid_cleared hpays)) (saleDone_pressure hpays).2.1) ?_
  simp [and_assoc, FaultRecord.standing, stands]

theorem saleDone_grace (hpays : paymentAgrees s q m) (hg : graceKept s) : graceFollows s (saleDone n q m serial s) :=
  graceTracks_follows ((saleDone_pressure hpays).2.2 s
    (graceTracks_same (salePaid_tracks hpays hg) rfl (adds_refl _ _) rfl fun _ => ⟨rfl, rfl⟩))

/-- No source but the two of the fault unit is added after the payment, and none before it but by the frame. -/
theorem saleDone_exhausted {b : Bool}
    (h : adds .permitExhausted b (saleBooked n q m serial s).notices (salePaid n q m serial s).notices) :
    adds .permitExhausted b s.notices (saleDone n q m serial s).notices := by
  obtain ⟨-, -, -, -, hdone⟩ := saleDone_faults n q m serial s
  have hheard : adds .permitExhausted false s.notices (heard n s).notices :=
    clearIn_adds _ _ n .lineSilent (s.faults, s.notices) .permitExhausted (by decide) (by decide)
  rw [← saleBooked_notices n q m serial s] at hheard
  simpa using adds_trans (adds_trans hheard h) (hdone _ (by decide) (by decide))

theorem saleDone_notExhausted (hm : m ≠ .visitor) : notLatched .permitExhausted s (saleDone n q m serial s) :=
  (latchedWhere_of_adds (c := False) (saleDone_exhausted (salePaid_notExhausted hm)) (by simp)).2 id

theorem saleDone_record (hpays : paymentAgrees s q m) {j : Line} {k : TermFault}
    (hk : ¬ (j = n ∧ (k = .boxNearFull ∨ k = .boxFull))) :
    terminalRecord (saleDone n q m serial s).faults j k = terminalRecord (heard n s).faults j k := by
  obtain ⟨-, hterminals, -⟩ := saleDone_faults n q m serial s
  rw [terminalRecord_congr hterminals, salePaid_record hpays hk]

/-- Where no coins are paid the box's records stay. -/
theorem saleDone_boxRecord (hpays : paymentAgrees s q m) (hm : ∀ counts, m ≠ .cash counts) {k : TermFault}
    (hk : k = .boxNearFull ∨ k = .boxFull) : terminalRecord (saleDone n q m serial s).faults n k = terminalRecord s.faults n k := by
  obtain ⟨-, hterminals, -⟩ := saleDone_faults n q m serial s
  rw [terminalRecord_congr hterminals, salePaid_faults hpays hm]
  exact heard_boxRecord n s (by rcases hk with rfl | rfl <;> decide) n

end

/-! ## A SALE of minutes (R126) -/

section
variable {n : Line} {q : OpenQuote} {serial : Nat} {s : State} {permit granted : Nat} (hterms : q.result.terms = .visitor permit granted)
include hterms

theorem saleDone_visitor_permits : (saleDone n q .visitor serial s).permits =
    (refreshIn s.permits permit (today s)).map fun p => if p.number = permit then p.debited granted else p := by
  rw [saleDone_permits, salePaid_visitor n q serial s hterms, debitPermit_permits, saleBooked_permits,
    saleRead_permits_visitor n q s hterms]

theorem saleDone_otherPermit {other : Nat} (h : other ≠ permit) :
    lookup Permit.number other (saleDone n q .visitor serial s).permits = lookup Permit.number other s.permits := by
  rw [saleDone_visitor_permits hterms, lookup_mapAt _ _ fun p => debited_number p granted, lookup_refreshIn]
  simp [h]

theorem saleDone_ownPermit {p : Permit} {b : VisitorBook}
    (hp : lookup Permit.number permit (refreshIn s.permits permit (today s)) = some p) (hk : p.kind = .visitorBook b) :
    lookup Permit.number permit (saleDone n q .visitor serial s).permits =
      some { p with kind := .visitorBook { b with allowance := b.allowance - granted } } := by
  rw [saleDone_visitor_permits hterms, lookup_mapAt _ _ fun p => debited_number p granted, hp]
  unfold Permit.debited
  rw [Option.map_some, if_pos rfl, hk]

theorem saleDone_visitor_exhausted {p : Permit} {b : VisitorBook}
    (hp : lookup Permit.number permit (refreshIn s.permits permit (today s)) = some p) (hk : p.kind = .visitorBook b) :
    latchedWhere .permitExhausted (0 < b.allowance ∧ b.allowance ≤ granted) s (saleDone n q .visitor serial s) := by
  have hfound : ((findPermit (saleBooked n q .visitor serial s).permits permit).map Permit.allowance).getD 0 = b.allowance := by
    unfold findPermit
    rw [saleBooked_permits, saleRead_permits_visitor n q s hterms, hp, Option.map_some, Option.getD_some, allowance_of hk]
  have hdebit : adds .permitExhausted (decide (0 < b.allowance) && (b.allowance - granted == 0)) (saleBooked n q .visitor serial s).notices
      (salePaid n q .visitor serial s).notices := by
    rw [salePaid_visitor n q serial s hterms]
    unfold debitPermit
    dsimp only
    rw [hfound]
    split
    · rename_i h
      rw [h]
      exact adds_latchIn .permitExhausted .permitExhausted _
    · rename_i h
      rw [Bool.eq_false_iff.mpr h]
      exact adds_refl _ _
  refine latchedWhere_of_adds (saleDone_exhausted hdebit) ?_
  simp [Nat.sub_eq_zero_iff_le]

end

/-- Settles O42: the exchange of the SALE for its commit, and then the commit's parts by their lemmas. -/
theorem saleCommits : Obligations.SaleCommits := by
  intro n f m q serial s h hf hclock hq hfresh hpays hservice hserial hroom
  have hexec : exec (.sale n f) s = .next (saleDone n q m serial s) := by
    refine (exec_sale_fresh h hf hclock hq hfresh).trans (congrArg Host.Outcome.next
      (trySale_commits (paymentRefusal_agrees hpays) ((lateRefusal_none ..).mpr ⟨?_, ?_, ?_⟩) hserial))
    · rw [saleRead_service]; exact hservice
    · rw [saleRead_sales, hserial]; simp
    · rw [saleRead_sales, saleRead_now]; exact (logHasRoom_iff ..).mpr hroom
  have hkind : q.result.payKind = m.kind := hfresh.2.2.2
  obtain ⟨b, hsales⟩ := saleDone_sales n q m serial s
  obtain ⟨hpressure, hterminals, hzone3, hzoneOther, -⟩ := saleDone_faults n q m serial s
  obtain ⟨hentry, hentries, hsilent, hzone, hother⟩ := heard_records s n
  have hcoins := saleRecord_overpaid n q m serial s
  refine ⟨saleDone n q m serial s, saleRecord n q m serial s, hexec, saleDone_frame n q m serial s, rfl, ?_, rfl, rfl,
    saleRead_now .., rfl, rfl, rfl, rfl, rfl, rfl, rfl, rfl, rfl, rfl, ?_, fun hlow => ?_, fun hfull hrise => ?_, ?_, ?_, ?_, ?_,
    hpressure, ?_, fun k hk => ?_, ?_, ?_, ?_, fun j k hk => ?_, saleDone_opened hpays, saleDone_cleared hpays,
    saleDone_grace hpays, saleDone_quotes n q m serial s, ?_, ?_, ?_, ?_⟩
  · exact saleRecord_ticket n q m serial s
  · show sessionKind q.result.mode q.result.payKind = _
    rw [hkind]
    cases q.result.mode <;> cases m <;> rfl
  · rw [saleDone_log, makeRoom_short hlow]
  · obtain ⟨old, hold, hpast, hleast, hmade⟩ := makeRoom_full hfull hrise (hroom.resolve_left hfull)
    exact ⟨old, hold, hpast, hleast, by rw [saleDone_log, hmade]⟩
  · rw [hsales]; rfl
  · rw [hsales]; rfl
  · rw [hsales]; exact sameBut_change n _ _
  · rw [hsales]
    dsimp only
    have hadded : saleAdded q.result.mode m s.cash.coins q.result.terms = fun d => d.withSale (saleRecord n q m serial s).kind
        (saleRecord n q m serial s).payment (paidValue s.cash.coins m) (saleRecord n q m serial s).overpaid := by
      funext d
      rw [← withSale_added, ← hkind, hcoins]
      rfl
    rw [row_change_self, hadded]
    exact recordBecomes_onDayRecord _ _ (fun d => withSale_day d _ _ _ _) _
  · rw [hzone3, salePaid_zone hpays]
  · rw [hzoneOther k hk, salePaid_zone hpays]
  · rw [saleDone_table]; exact hentry
  · rw [saleDone_table]; exact hentries
  · rw [saleDone_record hpays fun e => absurd e.2 (by decide)]; exact hsilent
  · rw [saleDone_record hpays fun e => hk ⟨e.1, .inr e.2⟩]
    exact hother j k (not_and_or.mp fun e => hk ⟨e.1, .inl e.2⟩)
  · have hanswered := saleDone_answered n q m serial s
    unfold soldBody at hanswered
    rw [saleRecord_ticket] at hanswered
    exact hanswered
  · rintro counts rfl
    obtain ⟨htally, hrecord, -, -⟩ := addCoins_tally n counts (saleBooked n q (.cash counts) serial s)
    obtain ⟨hcounts, hsame, hlifts, hvalues⟩ := addCoins_cash n counts (saleBooked n q (.cash counts) serial s)
    rw [← salePaid_cash, ← saleDone_tally, booked_tally] at htally hrecord
    simp only [← salePaid_cash, ← saleDone_tally, booked_tally] at hcounts
    rw [← salePaid_cash, ← saleDone_cash, saleBooked_cash] at hsame hlifts hvalues
    have hboxRecord := fun k hk => heard_boxRecord n s (k := k) hk n
    refine ⟨rfl, hcoins, ?_, saleDone_notExhausted (by simp), hcounts, htally, ?_, ?_, hsame, hlifts, hvalues⟩
    · rw [saleDone_permits, salePaid_cash, addCoins_permits, saleBooked_permits, saleRead_permits_money n q s (by simp)]
    · rw [terminalRecord_congr hterminals, hrecord, saleBooked_now, saleBooked_faults,
        hboxRecord .boxNearFull (by decide)]
      simp
    · rw [terminalRecord_congr hterminals, hrecord, saleBooked_now, saleBooked_faults,
        hboxRecord .boxFull (by decide)]
      simp
  · rintro paid rfl
    have hnone : ∀ counts, SaleMoney.card paid ≠ .cash counts := by simp
    exact ⟨rfl, hcoins, (saleDone_permits ..).trans (saleRead_permits_money n q s (by simp)),
      (saleDone_cash ..).trans (salePaid_sameCash hpays hnone), saleDone_notExhausted (by simp), fun k => saleDone_boxRecord hpays hnone⟩
  · rintro permit granted rfl hterms
    have hnone : ∀ counts, SaleMoney.visitor ≠ .cash counts := by simp
    refine ⟨?_, hcoins, (saleDone_cash ..).trans (salePaid_sameCash hpays hnone), fun k => saleDone_boxRecord hpays hnone,
      fun other => saleDone_otherPermit hterms,
      fun p b hp hk => ⟨saleDone_ownPermit hterms hp hk, saleDone_visitor_exhausted hterms hp hk⟩⟩
    show sessionPayment .visitor q.result.terms = _
    rw [hterms]
    rfl
end Sys2Proof.Proofs
end

section
/-! PROOFS. The reads (O45): each is one answer made of the state as it stands. -/
namespace Sys2Proof.Proofs
open Sys2Proof Sys2Proof.Machine

section
variable {source : Source} {role : Role} {s : State} (h : sourceTakes s source role) (tag : Tag) {ok : Bool}
include h

/-- A command in range is its effect. -/
theorem command_next (hok : ok = true) (act : State → State) :
    Host.Outcome.next (takeCommand source tag ok role act s) = (.next (act s) : Answered) := by
  subst hok
  exact congrArg Host.Outcome.next (command_acts h ..)

/-- A command out of range is refused. -/
theorem command_outOfRange (hok : ok = false) (act : State → State) :
    Host.Outcome.next (takeCommand source tag ok role act s) = (.next (answering s source.port tag .badField .empty) : Answered) := by
  subst hok
  exact congrArg Host.Outcome.next (command_badField h ..)

/-- A read in range is its answer. -/
theorem read_next (hok : ok = true) (st : Status) (body : State → Body) :
    Host.Outcome.next (takeCommand source tag ok role (fun s => answerPort source.port tag st (body s) s) s) =
      (.next (answering s source.port tag st (body s)) : Answered) := by
  rw [command_next h tag hok, answerPort_eq]

end

/-! ## The faults (R170) -/

theorem faultReport_terminal (s : State) (n : Line) : faultReport s n.number = .terminalFaults (row s.faults.terminals n) (serviceState s n)
    (if (row s.table n).active then some (row s.faults.grace (row s.table n).plan) else none) := by
  unfold faultReport
  rw [terminalOf_number, if_neg (by unfold Line.number; omega)]
  rfl

/-! ## The status report (R187) -/

theorem activationDayReported_eq (b : BookStore) : activationDayReported b =
    if b.stagedState = .armed ∨ b.stagedState = .checking then b.activationDay else none := by
  unfold activationDayReported
  cases b.stagedState <;> rfl

theorem awaiting_eq : Lift.awaiting = fun l => decide (l.state = .awaiting) := by
  funext l
  unfold Lift.awaiting
  cases l.state <;> rfl

/-- Settles O45, read by read. -/
theorem readsChangeNothing : Obligations.ReadsChangeNothing := by
  intro source tag badge s
  refine ⟨fun ho serial position count => ⟨fun hout => ?_, fun hout => ?_, fun hlow hhigh hserial => ?_, fun hlow hhigh hposition => ?_⟩,
    fun h => ⟨fun scope hout => ?_, ?_, fun n => ?_, ?_⟩, fun ht => ⟨fun hnone => ?_, fun r hr => ?_⟩, fun h => ?_⟩
  · exact command_outOfRange (source := .office) ho tag (decide_eq_false (by omega)) _
  · exact command_outOfRange (source := .office) ho tag (decide_eq_false (by omega)) _
  · refine (read_next (source := .office) ho tag (decide_eq_true ⟨hserial, hlow, hhigh⟩) _ _).trans ?_
    unfold lowestSerial
    cases s.sales.log <;> rfl
  · exact read_next (source := .office) ho tag (decide_eq_true ⟨hposition, hlow, hhigh⟩) _ _
  · exact command_outOfRange h tag (decide_eq_false (by omega)) _
  · exact read_next h tag rfl _ _
  · refine (read_next h tag (decide_eq_true (by have := n.isLt; unfold Line.number; omega)) _ _).trans ?_
    rw [faultReport_terminal]
  · refine ⟨fun n => kindSet (row s.faults.terminals n) FaultRecord.standing, zoneSet s.faults.zone, fun n k => ?_, fun k => ?_,
      read_next h tag rfl _ _⟩
    · rw [kindSet_bit]
      exact standing_eq _
    · rw [zoneSet_bit]
      exact standing_eq _
  · refine (command_next (source := .service badge) ht tag rfl _).trans ?_
    rw [hnone]
    exact congrArg Host.Outcome.next (answerPort_eq ..)
  · refine ⟨r.missed, fun n => ?_, ?_⟩
    · show row (Vector.ofFn fun n => row r.planned n && !row r.lifted n) n = true ↔ _
      rw [row_ofFn, Bool.and_eq_true, Bool.not_eq_true']
    · refine (command_next (source := .service badge) ht tag rfl _).trans ?_
      rw [hr]
      exact congrArg Host.Outcome.next (answerPort_eq ..)
  · refine (read_next h tag rfl _ _).trans ?_
    unfold statusReport
    rw [activationDayReported_eq, awaiting_eq]
    unfold lowestSerial
    cases s.sales.log <;> cases s.ports.reason <;> rfl
end Sys2Proof.Proofs
end

section
/-! PROOFS. The permit unit's commands (O46, O47): the register as a table looked up by number, and the lazy refresh by whole periods. -/
namespace Sys2Proof.Proofs
open Sys2Proof Sys2Proof.Machine

/-! ## The register by number -/

theorem lookup_number {l : List Permit} {number : Nat} {p : Permit} (h : lookup Permit.number number l = some p) : p.number = number := by
  unfold lookup at h
  simpa using List.find?_some h

/-- In a rising register an entry is found by its number. -/
theorem lookup_of_mem_rising {l : List Permit} {p : Permit} (hr : Rising Permit.number l) (hp : p ∈ l) :
    lookup Permit.number p.number l = some p := by
  refine find_lowest (fun q => q.number = p.number) _ (fun q => by simp) l hr p ⟨hp, rfl, fun q _ hq => ?_⟩
  exact Nat.le_of_eq hq.symm

theorem permitInRange_iff (number : Nat) : permitInRange number = true ↔ 1 ≤ number ∧ number ≤ 9999999 := by simp [permitInRange]

theorem permitInRange_out {number : Nat} (h : number < 1 ∨ 9999999 < number) : permitInRange number = false :=
  decide_eq_false (by omega)

/-- Putting an entry at a number keeps every other, and the order. -/
theorem upsert_others {e : Permit} {number : Nat} (he : e.number = number) (l : List Permit) :
    (∀ m, m ≠ number → lookup Permit.number m (upsert Permit.number e l) = lookup Permit.number m l) ∧
      (Rising Permit.number l → Rising Permit.number (upsert Permit.number e l)) :=
  ⟨fun _ hm => lookup_upsert_other _ _ _ (fun h => hm (h.trans he)), rising_upsert _ _⟩

theorem lookup_upsert_number {e : Permit} {number : Nat} (he : e.number = number) (l : List Permit) :
    lookup Permit.number number (upsert Permit.number e l) = some e := he ▸ lookup_upsert_self Permit.number e l

/-! ## The commands -/

section
variable {s : State} (ho : officeTakes s) (tag : Tag)
include ho

theorem exec_putPermit_badField {f : PermitFields} (h : readPermitFields f = none ∨ f.toDay + 7 ≤ today s) :
    exec (.putPermit tag f) s = .next (answering s .office tag .badField .empty) := by
  refine (command_next (source := .office) ho tag rfl _).trans ?_
  cases hread : readPermitFields f with
  | none => exact congrArg Host.Outcome.next (answerPort_eq ..)
  | some shape =>
    have hpast : f.toDay + 7 ≤ today s := h.resolve_left fun hnone => by rw [hread] at hnone; cases hnone
    exact congrArg Host.Outcome.next ((if_pos hpast).trans (answerPort_eq ..))

theorem exec_putPermit {f : PermitFields} {suspended : Bool} {shape : PermitShape} (hread : readPermitFields f = some (suspended, shape))
    (hday : today s < f.toDay + 7) : exec (.putPermit tag f) s = .next (
      if (lookup Permit.number f.number s.permits).isNone && decide (1536 ≤ s.permits.length) then
        answering s .office tag .full .empty
      else
        let e := putEntry f suspended shape (lookup Permit.number f.number s.permits) (today s)
        answering { s with permits := upsert Permit.number e s.permits } .office tag .ok
          (.permitPut e (lookup Permit.number f.number s.permits).isSome (upsert Permit.number e s.permits).length)) := by
  refine (command_next (source := .office) ho tag rfl _).trans ?_
  rw [hread]
  refine congrArg Host.Outcome.next ((if_neg (Nat.not_le.mpr hday)).trans ?_)
  exact congrArg₂ (ite _) (answerPort_eq ..) (answerPort_eq ..)

theorem exec_dropPermit_badField {number : Nat} (h : number < 1 ∨ 9999999 < number) :
    exec (.dropPermit tag number) s = .next (answering s .office tag .badField .empty) :=
  command_outOfRange (source := .office) ho tag (permitInRange_out h) _

theorem exec_dropPermit {number : Nat} (h : 1 ≤ number ∧ number ≤ 9999999) : exec (.dropPermit tag number) s = .next (
    if (lookup Permit.number number s.permits).isNone then answering s .office tag .noPermit .empty
    else answering { s with permits := dropKey Permit.number number s.permits } .office tag .ok
      (.heldCount (dropKey Permit.number number s.permits).length)) := by
  refine (command_next (source := .office) ho tag ((permitInRange_iff _).mpr h) _).trans (congrArg Host.Outcome.next ?_)
  exact congrArg₂ (ite _) (answerPort_eq ..) (answerPort_eq ..)

theorem exec_setPermitState_badField {number state : Nat} (h : permitInRange number = false ∨ suspendedOf state = none) :
    exec (.setPermitState tag number state) s = .next (answering s .office tag .badField .empty) := by
  refine command_outOfRange (source := .office) ho tag ?_ _
  rcases h with h | h <;> simp [h]

theorem exec_setPermitState {number state : Nat} {wanted : Bool} (h : 1 ≤ number ∧ number ≤ 9999999) (hw : suspendedOf state = some wanted) :
    exec (.setPermitState tag number state) s = .next (match lookup Permit.number number s.permits with
      | none => answering s .office tag .noPermit .empty
      | some p =>
        if p.suspended = wanted then answering s .office tag .already .empty
        else answering { s with permits := upsert Permit.number { p with suspended := wanted } s.permits } .office tag .ok
          (.permitEntry { p with suspended := wanted })) := by
  refine (command_next (source := .office) ho tag (by rw [(permitInRange_iff _).mpr h, hw]; rfl) _).trans
    (congrArg Host.Outcome.next ?_)
  show (match lookup Permit.number number s.permits with | none => _ | some p => _) = _
  cases lookup Permit.number number s.permits with
  | none => exact answerPort_eq ..
  | some p =>
    by_cases hsame : p.suspended = wanted
    · exact (if_pos (by rw [hw, hsame])).trans ((answerPort_eq ..).trans (if_pos hsame).symm)
    · have hflip : (!p.suspended) = wanted := by cases hp : p.suspended <;> cases wanted <;> simp_all
      refine (if_neg (by rw [hw]; simpa using hsame)).trans (Eq.trans ?_ (if_neg hsame).symm)
      rw [hflip]
      exact answerPort_eq ..

end

theorem suspendedOf_none {state : Nat} (h1 : state ≠ 1) (h2 : state ≠ 2) : suspendedOf state = none := by
  unfold suspendedOf
  split <;> simp_all

/-- A visitor book over a visitor book keeps what has been spent (R120). -/
theorem putVisitorBook_over {old : Option Permit} {p : Permit} {b : VisitorBook} (hold : old = some p) (hk : p.kind = .visitorBook b)
    (day fromDay grant period : Nat) : putVisitorBook old day fromDay grant period =
      { grant := grant, allowance := min (b.refreshed day).allowance grant, period := period, nextRefresh := (b.refreshed day).nextRefresh } := by
  subst hold
  unfold putVisitorBook Permit.visitorBook?
  rw [Option.bind_some, hk]

/-- Over anything else it starts at the grant (R119). -/
theorem putVisitorBook_fresh {old : Option Permit} (hother : ∀ p b, old = some p → p.kind ≠ .visitorBook b)
    (day fromDay grant period : Nat) : putVisitorBook old day fromDay grant period =
      { grant := grant, allowance := grant, period := period, nextRefresh := fromDay + period } := by
  have hno : old.bind Permit.visitorBook? = none := by
    cases old with
    | none => rfl
    | some p =>
      unfold Permit.visitorBook?
      cases hk : p.kind with
      | visitorBook b => exact absurd hk (hother p b rfl)
      | resident m => simp [hk]
      | business m => simp [hk]
  unfold putVisitorBook
  rw [hno]

/-- Settles O46, command by command. -/
theorem permitCommands : Obligations.PermitCommands := by
  intro tag s ho
  refine ⟨fun f => ⟨exec_putPermit_badField ho tag, fun suspended shape hread hday => ⟨fun hnone hfull => ?_, fun hroom => ?_⟩⟩,
    fun number => ⟨fun hout => ⟨exec_dropPermit_badField ho tag hout,
      fun state => exec_setPermitState_badField ho tag (.inl (permitInRange_out hout))⟩,
      fun state h1 h2 => exec_setPermitState_badField ho tag (.inr (suspendedOf_none h1 h2)),
      fun hlow hhigh => ⟨fun hnone => ⟨?_, ?_, ?_⟩, fun p hp => ⟨⟨_, rfl, ?_⟩, fun state wanted hwanted => ?_⟩⟩⟩⟩
  · dsimp only at hnone ⊢
    rw [exec_putPermit ho tag hread hday, if_pos (by rw [hnone]; simpa using hfull)]
  · refine ⟨putEntry f suspended shape (lookup Permit.number f.number s.permits) (today s), _, ?_,
      lookup_upsert_number (e := putEntry f suspended shape (lookup Permit.number f.number s.permits) (today s)) rfl s.permits,
      upsert_others (e := putEntry f suspended shape (lookup Permit.number f.number s.permits) (today s)) rfl s.permits, rfl, rfl, rfl, rfl,
      fun m hm => ?_, fun m hm => ?_, fun grant period hm => ⟨fun old b hold hk => ?_, fun hother => ?_⟩⟩
    · dsimp only at hroom ⊢
      rw [exec_putPermit ho tag hread hday, if_neg]
      rcases hroom with hfound | hroom
      · simp [hfound]
      · simp [hroom]
    all_goals subst hm
    · rfl
    · rfl
    · exact congrArg PermitKind.visitorBook (putVisitorBook_over hold hk ..)
    · exact congrArg PermitKind.visitorBook (putVisitorBook_fresh hother ..)
  · dsimp only at hnone ⊢
    rw [exec_dropPermit ho tag ⟨hlow, hhigh⟩, if_pos (by rw [hnone]; rfl)]
  · dsimp only at hnone ⊢
    rw [exec_setPermitState ho tag (state := 1) ⟨hlow, hhigh⟩ rfl, hnone]
  · dsimp only at hnone ⊢
    rw [exec_setPermitState ho tag (state := 2) ⟨hlow, hhigh⟩ rfl, hnone]
  · dsimp only at hp ⊢
    have hdrop : dropKey Permit.number number s.permits = s.permits.filter fun q => decide (q.number ≠ number) :=
      List.filter_congr fun q _ => by by_cases hq : q.number = number <;> simp [hq]
    rw [exec_dropPermit ho tag ⟨hlow, hhigh⟩, if_neg (by rw [hp]; exact Bool.false_ne_true), hdrop]
  · dsimp only at hp
    have hw : suspendedOf state = some wanted := by rcases hwanted with ⟨rfl, rfl⟩ | ⟨rfl, rfl⟩ <;> rfl
    have hnumber : ({ p with suspended := wanted } : Permit).number = number :=
      lookup_number (p := p) hp
    have hx := exec_setPermitState ho tag ⟨hlow, hhigh⟩ hw
    rw [hp] at hx
    exact ⟨fun hsame => hx.trans (congrArg Host.Outcome.next (if_pos hsame)), fun hother =>
      ⟨_, hx.trans (congrArg Host.Outcome.next (if_neg hother)), lookup_upsert_number hnumber _, upsert_others hnumber _⟩⟩

/-! ## READ_PERMIT and the refresh (R123, R124) -/

/-- Whole periods take a refresh day that has come to the first after today. -/
theorem refreshed_due {b : VisitorBook} {day : Nat} (hdue : b.nextRefresh ≤ day) (hperiod : 0 < b.period) :
    ∃ k, day < b.nextRefresh + b.period * k ∧ b.nextRefresh + b.period * k ≤ day + b.period ∧
      b.refreshed day = { b with allowance := b.grant, nextRefresh := b.nextRefresh + b.period * k } := by
  refine ⟨(day - b.nextRefresh) / b.period + 1, ?_, ?_, if_pos hdue⟩
  · have hnext := Nat.lt_mul_div_succ (day - b.nextRefresh) hperiod
    omega
  · have hpast := Nat.mul_div_le (day - b.nextRefresh) b.period
    rw [Nat.mul_succ]
    omega

theorem refreshed_notDue {b : VisitorBook} {day : Nat} (h : day < b.nextRefresh) : b.refreshed day = b := if_neg (Nat.not_le.mpr h)

theorem refreshed_book {p : Permit} {b : VisitorBook} (hk : p.kind = .visitorBook b) (day : Nat) :
    p.refreshed day = { p with kind := .visitorBook (b.refreshed day) } := by
  unfold Permit.refreshed
  rw [hk]

/-- A refresh of a number the register does not hold changes nothing. -/
theorem refreshIn_absent {l : List Permit} {number day : Nat} (h : ∀ p ∈ l, p.number ≠ number) : refreshIn l number day = l := by
  unfold refreshIn
  rw [List.map_congr_left fun p hp => if_neg (h p hp), List.map_id']

section
variable {s : State} (ho : officeTakes s) (tag : Tag)
include ho

theorem exec_readPermit_badField {number selector : Nat}
    (h : 9999999 < number ∨ (selector ≠ 1 ∧ selector ≠ 2) ∨ (selector = 1 ∧ number = 0)) :
    exec (.readPermit tag number selector) s = .next (answering s .office tag .badField (.heldCount s.permits.length)) := by
  refine (command_next (source := .office) ho tag rfl _).trans (congrArg Host.Outcome.next ?_)
  by_cases hin : number ≤ 9999999
  · refine (if_pos hin).trans ?_
    obtain ⟨h1, h2⟩ | ⟨rfl, rfl⟩ := h.resolve_left (Nat.not_lt.mpr hin)
    · split
      · exact absurd rfl h1
      · exact absurd rfl h2
      · exact answerPort_eq ..
    · exact answerPort_eq ..
  · exact (if_neg hin).trans (answerPort_eq ..)

theorem exec_readPermit_exact {number : Nat} (hlow : 1 ≤ number) (hhigh : number ≤ 9999999) :
    exec (.readPermit tag number 1) s = .next (match lookup Permit.number number (refreshIn s.permits number (today s)) with
      | none => answering (refreshPermit number s) .office tag .noPermit (.heldCount s.permits.length)
      | some p => answering (refreshPermit number s) .office tag .ok (.permit (some p) s.permits.length)) := by
  refine (command_next (source := .office) ho tag rfl _).trans (congrArg Host.Outcome.next ((if_pos hhigh).trans ?_))
  refine (if_neg (by omega)).trans ?_
  show (match lookup Permit.number number (refreshIn s.permits number (today s)) with | none => _ | some p => _) = _
  cases lookup Permit.number number (refreshIn s.permits number (today s)) <;> exact answerPort_eq ..

theorem exec_readPermit_next {number : Nat} (hhigh : number ≤ 9999999) :
    exec (.readPermit tag number 2) s = .next (match nextPermit s.permits number with
      | none => answering s .office tag .ok (.permit none s.permits.length)
      | some p => answering (refreshPermit p.number s) .office tag .ok (.permit (some (p.refreshed (today s))) s.permits.length)) := by
  refine (command_next (source := .office) ho tag rfl _).trans (congrArg Host.Outcome.next ((if_pos hhigh).trans ?_))
  show (match nextPermit s.permits number with | none => _ | some p => _) = _
  cases nextPermit s.permits number <;> exact answerPort_eq ..

end

/-- The reply that shows an entry: it is brought up to date, that is written, and no other entry changes. -/
theorem permitShown {tag : Tag} {number selector : Nat} {s : State} {p : Permit} (hp : lookup Permit.number p.number s.permits = some p)
    (hx : exec (.readPermit tag number selector) s = .next (answering (refreshPermit p.number s) .office tag .ok
      (.permit (some (p.refreshed (today s))) s.permits.length))) :
    ∃ l q, exec (.readPermit tag number selector) s = .next (answering { s with permits := l } .office tag .ok
        (.permit (some q) s.permits.length)) ∧ l.length = s.permits.length ∧
      (∀ m, m ≠ p.number → lookup Permit.number m l = lookup Permit.number m s.permits) ∧
      lookup Permit.number p.number l = some q ∧
      ((∀ b, p.kind ≠ .visitorBook b) → q = p) ∧
      ∀ b, p.kind = .visitorBook b →
        (today s < b.nextRefresh → q = p) ∧
        (b.nextRefresh ≤ today s → 0 < b.period → ∃ k, today s < b.nextRefresh + b.period * k ∧
          b.nextRefresh + b.period * k ≤ today s + b.period ∧
          q = { p with kind := .visitorBook { b with allowance := b.grant, nextRefresh := b.nextRefresh + b.period * k } }) := by
  refine ⟨refreshIn s.permits p.number (today s), p.refreshed (today s), hx, List.length_map _, fun m hm => ?_, ?_, refreshed_other p _,
    fun b hk => ⟨fun hearly => ?_, fun hdue hperiod => ?_⟩⟩
  · rw [lookup_refreshIn]
    simp [hm]
  · rw [lookup_refreshIn, hp, Option.map_some, if_pos rfl]
  · rw [refreshed_book hk, refreshed_notDue hearly, ← hk]
  · obtain ⟨k, hafter, hfirst, hbook⟩ := refreshed_due hdue hperiod
    exact ⟨k, hafter, hfirst, by rw [refreshed_book hk, hbook]⟩

/-- Settles O47: the two selectors, each by whether an entry is found. -/
theorem readPermit : Obligations.ReadPermit := by
  intro tag number selector s ho
  refine ⟨exec_readPermit_badField ho tag, ?_, ?_⟩
  · rintro rfl hlow hhigh
    have hx := exec_readPermit_exact ho tag hlow hhigh
    rw [lookup_refreshIn] at hx
    refine ⟨fun hnone => ?_, fun p hp => permitShown (by rwa [lookup_number hp]) ?_⟩
    · have habsent := (lookup_none_iff Permit.number number s.permits).mpr hnone
      rw [habsent] at hx
      refine hx.trans ?_
      show Host.Outcome.next (answering (refreshPermit number s) _ _ _ _) = _
      unfold refreshPermit
      rw [refreshIn_absent hnone]
    · rw [hp] at hx
      refine hx.trans ?_
      rw [lookup_number hp]
      simp
  · rintro rfl hhigh
    have hx := exec_readPermit_next ho tag hhigh
    refine ⟨fun hnone => ?_, fun p hrise hleast => permitShown (lookup_of_mem_rising hrise hleast.1) ?_⟩
    · have habsent : nextPermit s.permits number = none := by
        unfold nextPermit
        simpa using hnone
      rw [habsent] at hx
      exact hx
    · have hfound : nextPermit s.permits number = some p :=
        find_lowest (fun q => number < q.number) _ (fun q => decide_eq_true_iff) s.permits hrise p hleast
      rw [hfound] at hx
      exact hx
end Sys2Proof.Proofs
end

section
/-! PROOFS. The cover search unit (O48, O49): the free unit's choice, and the verdict read by read. -/
namespace Sys2Proof.Proofs
open Sys2Proof Sys2Proof.Machine

/-! ## The choice of a free unit (R132, R133) -/

/-- The unit as a search begins in it. -/
def searchBegun (at_ : PortId) (r : CoverRequest) (s : State) (c : CoverUnit) : CoverUnit :=
  { c.setSlot at_ (.searching r) with
    last := at_
    search := some { source := at_, plan := r.plan, key := r.key, time := now s, window := s.cover.window, stage := .begun } }

theorem choose_busy {s : State} {q : Search} (h : s.cover.search = some q) : chooseSearch s = s := by
  unfold chooseSearch chooseCover
  rw [h]

theorem choose_begins {s : State} {id : PortId} {r : CoverRequest} (hfree : s.cover.search = none) (hset : s.clock.state = .set)
    (hnext : nextCover s.cover = some (id, r)) : chooseSearch s = { s with cover := searchBegun id r s s.cover } := by
  unfold chooseSearch chooseCover
  rw [hfree, hnext]
  exact if_pos (clockSet_of_set hset)

/-- While the clock is UNSET both COVERs that wait are refused, the one not served last first. -/
theorem choose_unset_both {s : State} {a b : PortId} {ra rb : CoverRequest} (hne : a ≠ b) (hfree : s.cover.search = none)
    (hunset : s.clock.state = .unset) (hlast : s.cover.last = b) (ha : s.cover.slot a = .waiting ra) (hb : s.cover.slot b = .waiting rb) :
    chooseSearch s = coverRefused b rb (coverRefused a ra s) := by
  have hsecond : nextCover (coverRefused a ra s).cover = some (b, rb) := by
    refine next_one _ _ _ ((refused_slot_other a b ra s hne.symm).trans hb) fun other q hother => ?_
    have hother : other = a := by cases a <;> cases b <;> cases other <;> simp_all
    rw [hother, refused_slot_self]
    simp
  unfold chooseSearch
  rw [choose_unset 1 s a ra hfree hunset (nextCover_one _ a ra ha (.inr (by rw [hlast]; exact hne.symm))),
    choose_unset 0 _ b rb ((refused_search ..).trans hfree) ((congrArg Clock.state (refused_clock ..)).trans hunset) hsecond]
  rfl

theorem exec_searchBegin {s : State} (hrun : running s = true) : exec .searchBegin s = .next (chooseSearch s) :=
  congrArg Host.Outcome.next (whenRunning_true hrun _)

theorem setSlot_setSlot (c : CoverUnit) (id : PortId) (x y : CoverSlot) : (c.setSlot id x).setSlot id y = c.setSlot id y := by
  cases id <;> rfl

theorem setSlot_window (c : CoverUnit) (id : PortId) (x : CoverSlot) : (c.setSlot id x).window = c.window := by cases id <;> rfl

theorem slotIsEmpty_iff (x : CoverSlot) : x.isEmpty = true ↔ x = .empty := by
  cases x <;> simp [CoverSlot.isEmpty]

/-! ## COVER and SET_RECENT_WINDOW (R130, R131, R140) -/

section
variable {source : Source} {s : State} (h : sourceTakes s source .officer) (tag : Tag)
include h

theorem exec_cover_badField {f : CoverFields} (hf : readCover f = none) :
    exec (.cover source tag f) s = .next (answering s source.port tag .badField .empty) :=
  command_outOfRange h tag (by rw [hf]; rfl) _

theorem exec_cover {f : CoverFields} {plan : Fin 8} {key : CoverKey} (hf : readCover f = some (plan, key)) :
    exec (.cover source tag f) s = .next (
      if !clockSet s then answering s source.port tag .clockUnset .empty
      else if (s.cover.slot source.port).isEmpty then acceptCover source.port { tag := tag, plan := plan, key := key } s
      else answering s source.port tag .busy .empty) := by
  refine (command_next h tag (by rw [hf]; rfl) _).trans ?_
  rw [hf]
  exact congrArg Host.Outcome.next (congrArg₂ (ite _) (answerPort_eq ..) (congrArg (ite _ _) (answerPort_eq ..)))

end

/-- The state in which a COVER has been put into its slot, to be answered late. -/
def coverPlaced (id : PortId) (r : CoverRequest) (s : State) : State :=
  { s with
    ports := s.ports.onPort id fun p => { p with deferred := p.deferred + 1 }
    cover := s.cover.setSlot id (.waiting r) }

theorem acceptCover_waits {id : PortId} {r : CoverRequest} {s : State} (hbusy : s.cover.search ≠ none) :
    acceptCover id r s = coverPlaced id r s := by
  obtain ⟨q, hq⟩ := Option.ne_none_iff_exists'.mp hbusy
  exact choose_busy (s := coverPlaced id r s) (q := q) ((setSlot_search ..).trans hq)

theorem acceptCover_begins {id : PortId} {r : CoverRequest} {s : State} (hfree : s.cover.search = none) (hset : s.clock.state = .set)
    (halone : ∀ other q, other ≠ id → s.cover.slot other ≠ .waiting q) :
    acceptCover id r s = { coverPlaced id r s with cover := searchBegun id r s s.cover } := by
  refine (choose_begins (s := coverPlaced id r s) (id := id) (r := r) ((setSlot_search ..).trans hfree) hset
    (nextCover_one _ _ _ ?_ (.inl fun other q hother => ?_))).trans ?_
  · exact (slot_setSlot ..).trans (if_pos rfl)
  · show (s.cover.setSlot id (.waiting r)).slot other ≠ _
    rw [slot_setSlot, if_neg hother]
    exact halone other q hother
  · have hbegun : searchBegun id r (coverPlaced id r s) (coverPlaced id r s).cover = searchBegun id r s s.cover := by
      unfold searchBegun coverPlaced
      dsimp only
      rw [setSlot_setSlot, setSlot_window]
      rfl
    rw [hbegun]

/-- Settles O48: COVER by its refusals and the unit's state, then the unit's own choice. -/
theorem coverBegins : Obligations.CoverBegins := by
  intro source tag f window s
  refine ⟨fun h => ⟨exec_cover_badField h tag, fun plan key hf => ⟨fun hunset => ?_, fun hset hfull => ?_,
      fun hset hempty => ⟨fun hbusy => ?_, fun hfree halone => ?_⟩⟩⟩,
    fun hrun => ⟨fun hnone => ?_, fun at_ r hfree hset hwaits hturn => ?_⟩,
    fun hrun hfree hunset => ⟨fun at_ r hwaits halone => ?_, fun a b ra rb hne hlast ha hb => ?_⟩,
    fun ho => ⟨fun hout => ?_, fun hin => ?_⟩⟩
  · exact (exec_cover h tag hf).trans (congrArg Host.Outcome.next (if_pos (by rw [clockSet_of_unset hunset]; rfl)))
  · have hslot : (s.cover.slot source.port).isEmpty ≠ true := fun he => hfull ((slotIsEmpty_iff _).mp he)
    exact (exec_cover h tag hf).trans (congrArg Host.Outcome.next
      ((if_neg (by rw [clockSet_of_set hset]; decide)).trans (if_neg hslot)))
  · refine (exec_cover h tag hf).trans (congrArg Host.Outcome.next ((if_neg (by rw [clockSet_of_set hset]; decide)).trans
      ((if_pos ((slotIsEmpty_iff _).mpr hempty)).trans (acceptCover_waits hbusy))))
  · refine (exec_cover h tag hf).trans (congrArg Host.Outcome.next ((if_neg (by rw [clockSet_of_set hset]; decide)).trans
      ((if_pos ((slotIsEmpty_iff _).mpr hempty)).trans (acceptCover_begins hfree hset halone))))
  · rw [exec_searchBegin hrun]
    refine congrArg Host.Outcome.next ?_
    rcases hnone with hbusy | hidle
    · obtain ⟨q, hq⟩ := Option.ne_none_iff_exists'.mp hbusy
      exact choose_busy hq
    · exact choose_idle 2 s (next_none _ hidle)
  · rw [exec_searchBegin hrun]
    exact congrArg Host.Outcome.next (choose_begins hfree hset (nextCover_one _ _ _ hwaits hturn.symm))
  · rw [exec_searchBegin hrun]
    exact congrArg Host.Outcome.next (choose_unset_one s at_ r hfree hunset hwaits halone)
  · rw [exec_searchBegin hrun]
    exact congrArg Host.Outcome.next (choose_unset_both hne hfree hunset hlast ha hb)
  · exact command_outOfRange (source := .office) ho tag (decide_eq_false (Nat.not_le.mpr hout)) _
  · refine (command_next (source := .office) ho tag (decide_eq_true hin) _).trans ?_
    rw [answerPort_eq]
    rfl
end Sys2Proof.Proofs
end

section
/-! PROOFS. SEARCH_COMPLETE (O49): the answer and what follows it, and the verdict of a search from its beginning. -/
namespace Sys2Proof.Proofs
open Sys2Proof Sys2Proof.Machine

/-! ## The verdict by ticket (R135) -/

theorem searchVerdict_ticket {s : State} {q : Search} {t : Ticket} (hbegun : q.stage = .begun) (hk : q.key = .ticket t) :
    searchVerdict s q = ticketVerdict s.sales.log q.plan t q.time := by
  unfold searchVerdict searchStage
  simp only [hbegun, hk]

theorem ticketVerdict_answers (s : State) (plan : Fin 8) (t : Ticket) (z : ZoneMinute) (hr : Rising Session.serial s.sales.log) :
    ticketAnswer s plan t z (ticketVerdict s.sales.log plan t z) := by
  refine ⟨fun hnone => ?_, fun r hr' ht hlast => ?_⟩
  · unfold ticketVerdict
    rw [sessionByTicket_none _ _ hnone]
  · unfold ticketVerdict
    rw [sessionByTicket_some _ _ hr r hr' ht hlast]

/-! ## The verdict by mark (R136 to R139) -/

section
variable {s : State} {q : Search} {m : Mark} (hbegun : q.stage = .begun) (hk : q.key = .mark m)
include hbegun hk

/-- A running session decides at the read of the log. -/
theorem searchVerdict_running {r : Session} (hchosen : chosenSession s.sales.log q.plan m = some r) (hruns : q.time < r.expiry) :
    searchVerdict s q = .coveredSession r.expiry r.ticket r.kind r.serial := by
  have hlog : logStage s.sales.log q.plan m q.time = .decided (.coveredSession r.expiry r.ticket r.kind r.serial) := by
    unfold logStage
    rw [hchosen]
    exact if_pos hruns
  unfold searchVerdict searchStage
  simp only [hbegun, hk, hlog]

variable (hnot : ∀ r, chosenSession s.sales.log q.plan m = some r → ¬ q.time < r.expiry)
include hnot

omit hbegun hk in
theorem logStage_passes : logStage s.sales.log q.plan m q.time = .logRead (chosenSession s.sales.log q.plan m) := by
  unfold logStage
  cases hchosen : chosenSession s.sales.log q.plan m with
  | none => rfl
  | some r => exact if_neg (hnot r hchosen)

/-- An entry of the register decides at the second read. -/
theorem searchVerdict_permit {v : Verdict}
    (hpermit : permitStage s.permits q.plan m (dayOf q.time) (chosenSession s.sales.log q.plan m) = .decided v) : searchVerdict s q = v := by
  unfold searchVerdict searchStage
  simp only [hbegun, hk, logStage_passes hnot, hpermit]

/-- Where none does, the grace record decides at the third. -/
theorem searchVerdict_grace {o : Option OutOfDays}
    (hpermit : permitStage s.permits q.plan m (dayOf q.time) (chosenSession s.sales.log q.plan m) =
      .permitRead (chosenSession s.sales.log q.plan m) o) :
    searchVerdict s q = graceVerdict (row s.faults.grace q.plan) (chosenSession s.sales.log q.plan m) o q.time q.window := by
  unfold searchVerdict searchStage
  simp only [hbegun, hk, logStage_passes hnot, hpermit]

end

/-! ### The read of the register -/

/-- The tests of the register's read, in the terms of the claims. -/
theorem fits_iff (plan : Fin 8) (m : Mark) (day : Nat) (p : Permit) :
    (p.names plan m && p.inDays day) = true ↔ namesMark plan m p ∧ withinDays day p := by
  rw [Bool.and_eq_true, names_iff, inDays_iff]

theorem isBusiness_of {p : Permit} {business : Bool} (h : business = true ↔ ∃ marks, p.kind = .business marks) : p.isBusiness = business :=
  bool_eq_of_iff (business_iff p) h

section
variable {permits : List Permit} {plan : Fin 8} {m : Mark} {day : Nat} (c : Option Session)

/-- The VALID entry of lowest number is COVERED. -/
theorem permitStage_valid {p : Permit} (hr : Rising Permit.number permits)
    (hp : lowestOf (fun p => (namesMark plan m p ∧ withinDays day p) ∧ p.suspended = false) permits p) :
    permitStage permits plan m day c = .decided (.coveredPermit p.number p.isBusiness p.toDay) := by
  have hfind := find_lowest _ (fun p : Permit => (p.names plan m && p.inDays day) && !p.suspended)
    (fun p => by rw [Bool.and_eq_true, fits_iff, Bool.not_eq_true']) permits hr p hp
  unfold permitStage
  dsimp only
  rw [hfind]

theorem noValid_find (hnone : ∀ p ∈ permits, ¬ ((namesMark plan m p ∧ withinDays day p) ∧ p.suspended = false)) :
    permits.find? (fun p => (p.names plan m && p.inDays day) && !p.suspended) = none := by
  refine List.find?_eq_none.mpr fun p hp hfit => hnone p hp ?_
  rwa [Bool.and_eq_true, fits_iff, Bool.not_eq_true'] at hfit

/-- Without a VALID one the entry of lowest number is SUSPENDED. -/
theorem permitStage_suspended {p : Permit} (hr : Rising Permit.number permits)
    (hnone : ∀ p ∈ permits, ¬ ((namesMark plan m p ∧ withinDays day p) ∧ p.suspended = false))
    (hp : lowestOf (fun p => namesMark plan m p ∧ withinDays day p) permits p) :
    permitStage permits plan m day c = .decided (.suspendedPermit p.number p.isBusiness) := by
  obtain ⟨hmem, hfits, hleast⟩ := hp
  have hsuspended : p.suspended = true := by
    cases hs : p.suspended
    · exact absurd ⟨hfits, hs⟩ (hnone p hmem)
    · rfl
  have hfind := find_lowest (fun p => (namesMark plan m p ∧ withinDays day p) ∧ p.suspended = true)
    (fun p : Permit => (p.names plan m && p.inDays day) && p.suspended) (fun p => by rw [Bool.and_eq_true, fits_iff]) permits hr p
    ⟨hmem, ⟨hfits, hsuspended⟩, fun q hq hfit => hleast q hq hfit.1⟩
  unfold permitStage
  dsimp only
  rw [noValid_find hnone, hfind]

/-- Where no entry fits the day the search goes on. -/
theorem permitStage_passes (hnone : ∀ p ∈ permits, ¬ (namesMark plan m p ∧ withinDays day p)) :
    permitStage permits plan m day c = .permitRead c (outOfDaysOf permits plan m day) := by
  have hsuspended : permits.find? (fun p => (p.names plan m && p.inDays day) && p.suspended) = none := by
    refine List.find?_eq_none.mpr fun p hp hfit => hnone p hp ?_
    rw [Bool.and_eq_true, fits_iff] at hfit
    exact hfit.1
  unfold permitStage
  dsimp only
  rw [noValid_find fun p hp hfit => hnone p hp hfit.1, hsuspended]

/-- The out-of-days field names the entry of lowest number that misses the day, if there is one (R139). -/
theorem outOfDays_fits (hr : Rising Permit.number permits) :
    (outOfDaysOf permits plan m day = none ∧ ∀ p ∈ permits, namesMark plan m p → withinDays day p) ∨
      ∃ p, lowestOf (fun p => namesMark plan m p ∧ ¬ withinDays day p) permits p ∧
        outOfDaysOf permits plan m day = some { permit := p.number, fromDay := p.fromDay, toDay := p.toDay } := by
  have htest : ∀ p : Permit, (p.names plan m && !p.inDays day) = true ↔ namesMark plan m p ∧ ¬ withinDays day p := fun p => by
    rw [Bool.and_eq_true, names_iff, Bool.not_eq_true', ← inDays_iff, Bool.not_eq_true]
  unfold outOfDaysOf
  cases hfind : permits.find? fun p => p.names plan m && !p.inDays day with
  | none =>
    refine .inl ⟨rfl, fun p hp hnames => ?_⟩
    by_contra hout
    exact List.find?_eq_none.mp hfind p hp ((htest p).mpr ⟨hnames, hout⟩)
  | some p => exact .inr ⟨p, lowest_find _ _ htest permits hr p hfind, rfl⟩

end

/-- The last verdict, in the terms of the claims (R138). -/
theorem lastVerdict_some (r : Session) (o : Option OutOfDays) (z : ZoneMinute) (w : Nat) : lastVerdict (some r) o z w =
    if w ≠ 0 ∧ z - r.expiry ≤ w then .recent r.expiry r.ticket (z - r.expiry) o else .notCovered (some (r.expiry, z - r.expiry)) o := by
  unfold lastVerdict
  simp only [Nat.pos_iff_ne_zero]

/-- A search by mark from its beginning answers what the stores give. -/
theorem searchVerdict_mark {s : State} {q : Search} {m : Mark} (hbegun : q.stage = .begun) (hk : q.key = .mark m)
    (hr : Rising Permit.number s.permits) : markAnswer s q.plan m q.time q.window (searchVerdict s q) := by
  have hnotRuns : (¬ ∃ r, chosenSession s.sales.log q.plan m = some r ∧ q.time < r.expiry) →
      ∀ r, chosenSession s.sales.log q.plan m = some r → ¬ q.time < r.expiry := fun h r hr hruns => h ⟨r, hr, hruns⟩
  refine ⟨fun r hchosen hruns => searchVerdict_running hbegun hk hchosen hruns, fun hnot p business hp hb => ?_,
    fun hnot hnone p business hp hb => ?_, fun hnot hnone => ?_⟩
  · rw [← isBusiness_of hb]
    exact searchVerdict_permit hbegun hk (hnotRuns hnot) (permitStage_valid _ hr hp)
  · rw [← isBusiness_of hb]
    exact searchVerdict_permit hbegun hk (hnotRuns hnot) (permitStage_suspended _ hr hnone hp)
  · have hverdict := searchVerdict_grace hbegun hk (hnotRuns hnot) (permitStage_passes _ hnone)
    refine ⟨_, outOfDays_fits hr, fun since hg => ?_, fun since until_ hg => ?_, fun hg => ⟨fun hc => ?_, fun r hc => ?_⟩⟩
    · rw [hverdict, hg]; rfl
    · rw [hverdict, hg]; rfl
    · rw [hverdict, hg, hc]; rfl
    · rw [hverdict, hg, hc]
      exact lastVerdict_some ..

/-! ## The completion (R134) -/

/-- The state in which a search has been answered and its slot emptied. -/
def searchAnswered (q : Search) (r : CoverRequest) (v : Verdict) (s : State) : State :=
  { s with
    cover := { s.cover.setSlot q.source .empty with search := none }
    ports := withAnswer { s with ports := s.ports.onPort q.source fun p => { p with deferred := p.deferred - 1 } }
      q.source r.tag .ok (.verdict q.plan q.key q.time v) }

theorem exec_searchComplete {s : State} {q : Search} {r : CoverRequest} (hrun : running s = true) (hq : s.cover.search = some q)
    (hslot : s.cover.slot q.source = .searching r) :
    exec .searchComplete s = .next (chooseSearch (searchAnswered q r (searchVerdict s q) s)) := by
  refine congrArg Host.Outcome.next ((whenRunning_true hrun _).trans ?_)
  rw [hq]
  show chooseSearch (answerDeferred _ _ _ _ _) = _
  rw [answerDeferred_eq, hslot]
  rfl

section
variable {q : Search} {r : CoverRequest} {v : Verdict} {s : State}

theorem searchAnswered_slot (other : PortId) :
    (searchAnswered q r v s).cover.slot other = if other = q.source then .empty else s.cover.slot other :=
  Eq.trans (by cases other <;> rfl) (slot_setSlot s.cover q.source other .empty)

theorem searchAnswered_window : (searchAnswered q r v s).cover.window = s.cover.window := setSlot_window s.cover q.source .empty

theorem searchAnswered_alone {other : PortId} (hne : other ≠ q.source) :
    ∀ third x, third ≠ other → (searchAnswered q r v s).cover.slot third ≠ .waiting x := by
  intro third x hthird
  have hthird : third = q.source := by
    generalize q.source = id at *
    cases third <;> cases other <;> cases id <;> simp_all
  rw [searchAnswered_slot, if_pos hthird]
  simp

end

/-- Settles O49: the answer, what the free unit then chooses, and the verdict by its key. -/
theorem searchCompletes : Obligations.SearchCompletes := by
  intro q r s hrun hq hslot
  have hx := exec_searchComplete hrun hq hslot
  obtain ⟨t, ht, hframe⟩ := exec_parts s .searchComplete
  have htv : t = chooseSearch (searchAnswered q r (searchVerdict s q) s) := by
    rw [hx] at ht
    exact (Host.Outcome.next.inj ht).symm
  refine ⟨searchVerdict s q, t, ht, hframe, fun halone => ?_, fun other w hne hwaits => ⟨fun hset => ?_, fun hunset => ?_⟩,
    fun hbegun hpermits hlog => ⟨fun ticket hk => ?_, fun m hk => searchVerdict_mark hbegun hk hpermits⟩⟩
  · refine htv.trans (choose_idle 2 _ (next_none _ fun a x => ?_))
    rw [searchAnswered_slot]
    split
    · simp
    · rename_i hother; exact halone a x hother
  · have hbegins := choose_begins (s := searchAnswered q r (searchVerdict s q) s) (id := other) (r := w) rfl hset
      (next_one _ _ _ (by rw [searchAnswered_slot, if_neg hne]; exact hwaits) (searchAnswered_alone hne))
    unfold searchBegun at hbegins
    rw [searchAnswered_window] at hbegins
    exact htv.trans hbegins
  · refine htv.trans (choose_unset_one _ other w rfl hunset ?_ (searchAnswered_alone hne))
    rw [searchAnswered_slot, if_neg hne]
    exact hwaits
  · rw [searchVerdict_ticket hbegun hk]
    exact ticketVerdict_answers s q.plan ticket q.time hlog
end Sys2Proof.Proofs
end

section
/-! PROOFS. The cash unit's settings, counts and rounds (O51, O52). -/
namespace Sys2Proof.Proofs
open Sys2Proof Sys2Proof.Machine

/-! ## SET_COINS and SET_CASH_LIMITS (R143, R159) -/

/-- The slots a SET_COINS would change while they are in use. -/
theorem mem_slotsRefused (c : CashUnit) (values : Vector Nat 8) (i : Fin 8) :
    i ∈ slotsRefused c values ↔ coinInUse c i ∧ row values i ≠ row c.coins i := by
  unfold slotsRefused
  rw [List.mem_filter, Bool.and_eq_true, slotInUse_iff]
  simp

theorem slotsRefused_nodup (c : CashUnit) (values : Vector Nat 8) : (slotsRefused c values).Nodup :=
  (List.nodup_finRange 8).filter _

theorem coinsInRange_iff (values : Vector Nat 8) : (allRows fun i => decide (row values i ≤ 500)) = true ↔ ∀ i, row values i ≤ 500 := by
  rw [allRows_iff]
  simp

section
variable {s : State} (ho : officeTakes s) (tag : Tag)
include ho

theorem exec_setCoins {values : Vector Nat 8} (h : ∀ i, row values i ≤ 500) : exec (.setCoins tag values) s = .next (
    if (slotsRefused s.cash values).isEmpty then
      answering { s with cash := { s.cash with coins := values } } .office tag .ok (.coins values)
    else answering s .office tag .inUse (.slotsInUse (slotsRefused s.cash values))) := by
  refine (command_next (source := .office) ho tag ((coinsInRange_iff _).mpr h) _).trans (congrArg Host.Outcome.next ?_)
  exact congrArg₂ (ite _) (answerPort_eq ..) (answerPort_eq ..)

/-- Is a count judged on a lift, and with what answer? -/
theorem exec_countResult_found {box value : Nat} {l : Lift} (hin : 1 ≤ box ∧ box ≤ 65535 ∧ value ≤ 4294967295)
    (hl : s.cash.lifts.find? (fun l => l.awaits box) = some l) :
    let counted := onCash (fun c => { c with lifts := countFirst box value c.tolerance (now s) c.lifts }) s
    exec (.countResult tag box value) s = .next (answering
      (if (l.counted value s.cash.tolerance (now s)).isReconciled then counted
        else raiseFault l.terminal .cashVariance (some l.serial) counted) .office tag .ok
      (.counted l.serial l.expected value (countOf l value (now s)).variance (l.counted value s.cash.tolerance (now s)).isReconciled)) := by
  refine (command_next (source := .office) ho tag (decide_eq_true hin) _).trans ?_
  rw [hl]
  exact congrArg Host.Outcome.next (answerPort_eq ..)

end

/-! ## COUNT_RESULT (R158) -/

theorem awaits_iff (l : Lift) (box : Nat) : l.awaits box = true ↔ l.state = .awaiting ∧ l.box = box := by
  simp [Lift.awaits, Lift.awaiting]

section
variable {l : Lift} {value tolerance : Nat} {time : ZoneMinute}

theorem counted_within (h : ((value : Int) - (l.expected : Int)).natAbs ≤ tolerance) :
    l.counted value tolerance time = { l with state := .reconciled (countOf l value time) } := by
  unfold Lift.counted
  exact congrArg (fun st => { l with state := st }) (if_pos h)

theorem counted_beyond (h : tolerance < ((value : Int) - (l.expected : Int)).natAbs) :
    l.counted value tolerance time = { l with state := .variance (countOf l value time) } := by
  unfold Lift.counted
  exact congrArg (fun st => { l with state := st }) (if_neg (Nat.not_le.mpr h))

end

/-- A terminal's fault leaves the zone's records. -/
theorem raiseFault_zone (n : Line) (k : TermFault) (d : Option Nat) (s : State) : (raiseFault n k d s).faults.zone = s.faults.zone :=
  raiseIn_zone ..

/-- Settles O52, command by command. -/
theorem cashSettingsAndCounts : Obligations.CashSettingsAndCounts := by
  intro tag values tolerance limit box value s ho
  refine ⟨fun ⟨i, hi⟩ => ?_, fun hin => ⟨fun ⟨i, hi⟩ => ⟨slotsRefused s.cash values, mem_slotsRefused s.cash values,
      slotsRefused_nodup _ _, ?_⟩, fun hnone => ?_⟩, fun hout => ?_, fun htolerance hlow hhigh => ?_, fun hout => ?_,
    fun hlow hhigh hvalue => ⟨fun hnone => ?_, fun before l after hlifts hawaiting hbox hfirst => ?_⟩⟩
  · exact command_outOfRange (source := .office) ho tag
      (Bool.eq_false_iff.mpr fun h => Nat.not_le.mpr hi ((coinsInRange_iff values).mp h i)) _
  · refine (exec_setCoins ho tag hin).trans (congrArg Host.Outcome.next (if_neg fun hempty => ?_))
    have hmem := (mem_slotsRefused s.cash values i).mpr hi
    rw [List.isEmpty_iff.mp hempty] at hmem
    cases hmem
  · refine (exec_setCoins ho tag hin).trans (congrArg Host.Outcome.next (if_pos (List.isEmpty_iff.mpr ?_)))
    exact List.eq_nil_iff_forall_not_mem.mpr fun i hi => hnone i ((mem_slotsRefused ..).mp hi)
  · exact command_outOfRange (source := .office) ho tag (decide_eq_false (by omega)) _
  · refine (command_next (source := .office) ho tag (decide_eq_true ⟨htolerance, hlow, hhigh⟩) _).trans ?_
    rw [answerPort_eq]
    rfl
  · exact command_outOfRange (source := .office) ho tag (decide_eq_false (by omega)) _
  · refine (command_next (source := .office) ho tag (decide_eq_true ⟨hlow, hhigh, hvalue⟩) _).trans ?_
    have hno : s.cash.lifts.find? (fun l => l.awaits box) = none :=
      List.find?_eq_none.mpr fun l hl h => by
        obtain ⟨hawaiting, hbox⟩ := (awaits_iff l box).mp h
        exact hnone l hl hawaiting hbox
    rw [hno]
    exact congrArg Host.Outcome.next (answerPort_eq ..)
  · obtain ⟨hcounted, hfind⟩ := countFirst_split box value s.cash.tolerance (now s) before l after hawaiting hbox hfirst
    rw [← hlifts] at hcounted hfind
    have hx := exec_countResult_found ho tag ⟨hlow, hhigh, hvalue⟩ hfind
    refine ⟨fun hwithin => ?_, fun hbeyond => ?_⟩
    · rw [counted_within hwithin] at hx hcounted
      refine hx.trans ?_
      unfold onCash
      dsimp only
      rw [hcounted]
      rfl
    · rw [counted_beyond hbeyond] at hx hcounted
      let u := onCash (fun c => { c with lifts := countFirst box value c.tolerance (now s) c.lifts }) s
      obtain ⟨hgrace, hlatched⟩ := raiseFault_grace l.terminal .cashVariance (some l.serial) u (.inr rfl)
      refine ⟨raiseFault l.terminal .cashVariance (some l.serial) u, hx,
        ((onCash_frame s _).trans (raiseFault_frame u _ _ _)).mono (by decide), ?_, raiseFault_zone .., ?_, fun m k hk => ?_, hgrace, hlatched⟩
      · rw [raiseFault_cash]
        show { s.cash with lifts := countFirst box value s.cash.tolerance (now s) s.cash.lifts } = _
        rw [hcounted]
        rfl
      · rw [raiseFault_record, if_pos ⟨rfl, rfl⟩]
        rfl
      · rw [raiseFault_record, if_neg hk]
        rfl

/-! ## Rounds (R154, R156, R157) -/

theorem roundIsOpen_iff (c : CashUnit) : roundIsOpen c = true ↔ ∃ r, c.round = some r ∧ r.state = .opened := by
  unfold roundIsOpen
  cases c.round <;> simp

theorem roundIsOpen_false {c : CashUnit} (h : ∀ r, c.round = some r → r.state ≠ .opened) : roundIsOpen c = false := by
  refine Bool.eq_false_iff.mpr fun hopen => ?_
  obtain ⟨r, hr, ho⟩ := (roundIsOpen_iff c).mp hopen
  exact h r hr ho

theorem plannedNow_iff (s : State) (n : Line) : row (plannedNow s) n = true ↔
    (row s.table n).active = true ∧ (tallyOf s n).present = true ∧ 0 < total (tallyOf s n).counts := by
  unfold plannedNow
  rw [row_ofFn, Bool.and_eq_true, boxHoldsCoins_iff]

theorem missed_iff (r : Round) (n : Line) : row r.missed n = true ↔ row r.planned n = true ∧ row r.lifted n = false := by
  unfold Round.missed
  rw [row_ofFn, Bool.and_eq_true, Bool.not_eq_true']

/-- The sources a cleared zone fault adds. -/
theorem clearZone_adds (j : Notice) (k : ZoneFault) (s : State) :
    adds j (decide (j = .faultCleared) && (row s.faults.zone k.index).standing) s.notices (clearZone k s).notices := by
  have h := adds_cond j .faultCleared (row s.faults.zone k.index).standing s.notices
  rw [clearZone_notices]
  simpa [FaultRecord.standing] using h

/-- The sources a raised zone fault adds. -/
theorem raiseZone_adds (j : Notice) (k : ZoneFault) (d : Option Nat) (s : State) :
    adds j (decide (j = .faultOpened) && (row s.faults.zone k.index).state != .opened) s.notices (raiseZone k d s).notices :=
  adds_cond j .faultOpened ((row s.faults.zone k.index).state != .opened) s.notices

/-- A source added is latched. -/
theorem latched_of_adds {j : Notice} {s t : State} (h : adds j true s.notices t.notices) : latched j s t :=
  (latchedWhere_of_adds (c := True) h (by simp)).1 trivial

theorem notLatched_of_adds {j : Notice} {s t : State} (h : adds j false s.notices t.notices) : notLatched j s t :=
  (latchedWhere_of_adds (c := False) h (by simp)).2 id

/-- The round an OPEN_ROUND opens. -/
def roundOpened (s : State) (badge number : Nat) : Round :=
  { state := .opened, number := number, badge := badge, openTime := now s, planned := plannedNow s, lifted := noLines }

/-- The state an OPEN_ROUND leaves. -/
def openedRound (s : State) (badge number : Nat) : State :=
  latch .roundOpened (clearZone .roundLapsed (onCash (fun c => { c with round := some (roundOpened s badge number) }) s))

section
variable {s : State} {badge : Nat} (ht : serviceTakes s badge .collector) (tag : Tag)
include ht

theorem exec_openRound {number : Nat} (hlow : 1 ≤ number) (hhigh : number ≤ 65535) : exec (.openRound tag badge number) s = .next (
    if !clockSet s then answering s .service tag .clockUnset .empty
    else if roundIsOpen s.cash then answering s .service tag .busy .empty
    else answering (openedRound s badge number) .service tag .ok (.planned (plannedNow s))) := by
  refine (command_next (source := .service badge) ht tag (decide_eq_true ⟨hlow, hhigh⟩) _).trans (congrArg Host.Outcome.next ?_)
  exact congrArg₂ (ite _) (answerPort_eq ..) (congrArg₂ (ite _) (answerPort_eq ..) (answerPort_eq ..))

theorem exec_closeRound_none (h : ∀ r, s.cash.round = some r → r.state ≠ .opened) :
    exec (.closeRound tag badge) s = .next (answering s .service tag .noRound .empty) := by
  refine (command_next (source := .service badge) ht tag rfl _).trans ?_
  cases hr : s.cash.round with
  | none => exact congrArg Host.Outcome.next (answerPort_eq ..)
  | some r => exact congrArg Host.Outcome.next ((if_pos (h r hr)).trans (answerPort_eq ..))

theorem exec_closeRound {r : Round} (hr : s.cash.round = some r) (hopen : r.state = .opened) :
    exec (.closeRound tag badge) s = .next (
      if r.badge ≠ badge then answering s .service tag .denied .empty
      else answering { s with
        cash := { s.cash with round := some { r with state := .closed (now s) } }
        notices := latchIn .roundEnded s.notices } .service tag .ok (.roundClosed r.planned r.lifted r.missed)) := by
  refine (command_next (source := .service badge) ht tag rfl _).trans ?_
  rw [hr]
  refine congrArg Host.Outcome.next ((if_neg (fun h => h hopen)).trans ?_)
  exact congrArg₂ (ite _) (answerPort_eq ..) (answerPort_eq ..)

end

theorem openedRound_faults (s : State) (badge number : Nat) : (openedRound s badge number).faults =
    { s.faults with zone := put s.faults.zone 1 (clearedNow s (row s.faults.zone 1)) } :=
  clearZone_faults .roundLapsed (onCash _ s)

theorem openedRound_adds (j : Notice) (s : State) (badge number : Nat) :
    adds j ((decide (j = .faultCleared) && (row s.faults.zone 1).standing) || decide (j = .roundOpened)) s.notices
      (openedRound s badge number).notices :=
  adds_trans (clearZone_adds j .roundLapsed (onCash _ s)) (adds_latchIn j .roundOpened _)

theorem openedRound_frame (s : State) (badge number : Nat) : onlyChanges [.cash, .faults, .notices] s (openedRound s badge number) :=
  (((onCash_frame s _).trans (clearZone_frame _ _)).trans (latch_frame _ _)).mono (by decide)

/-- The state a lapse leaves (R157). -/
def lapsedRound (s : State) (r : Round) : State :=
  latch .roundEnded (raiseZone .roundLapsed (some r.number)
    (onCash (fun c => { c with round := some { r with state := .lapsed (now s) } }) s))

theorem lapsedRound_adds (j : Notice) (s : State) (r : Round) :
    adds j ((decide (j = .faultOpened) && (row s.faults.zone 1).state != .opened) || decide (j = .roundEnded)) s.notices
      (lapsedRound s r).notices :=
  adds_trans (raiseZone_adds j .roundLapsed _ (onCash _ s)) (adds_latchIn j .roundEnded _)

theorem lapsedRound_frame (s : State) (r : Round) : onlyChanges [.cash, .faults, .notices] s (lapsedRound s r) :=
  (((onCash_frame s _).trans (raiseZone_frame _ _ _)).trans (latch_frame _ _)).mono (by decide)

theorem roundDue_iff {s : State} {r : Round} (hr : s.cash.round = some r) :
    roundDue s = true ↔ r.state = .opened ∧ r.openTime + s.cash.roundLimit ≤ now s := by
  unfold roundDue
  rw [hr]
  simp

theorem lapseIfDue_due {s : State} {r : Round} (hr : s.cash.round = some r) (hopen : r.state = .opened)
    (hlimit : r.openTime + s.cash.roundLimit ≤ now s) : lapseIfDue s = lapsedRound s r := by
  unfold lapseIfDue
  rw [hr]
  exact if_pos ((roundDue_iff hr).mpr ⟨hopen, hlimit⟩)

theorem lapseIfDue_notDue {s : State} (h : (∀ r, s.cash.round = some r → r.state ≠ .opened) ∨
    ∀ r, s.cash.round = some r → now s < r.openTime + s.cash.roundLimit) : lapseIfDue s = s := by
  unfold lapseIfDue
  cases hr : s.cash.round with
  | none => rfl
  | some r =>
    refine if_neg fun hdue => ?_
    obtain ⟨hopen, hlimit⟩ := (roundDue_iff hr).mp hdue
    rcases h with hclosed | hearly
    · exact hclosed r hr hopen
    · exact Nat.lt_irrefl _ (Nat.lt_of_lt_of_le (hearly r hr) hlimit)

/-- Settles O51, command by command. -/
theorem rounds : Obligations.Rounds := by
  intro tag badge number s
  refine ⟨fun ht => ⟨fun hout => ?_, fun hlow hhigh => ⟨fun hunset => ?_, fun hset hopen => ?_, fun hset hclosed => ?_⟩,
      exec_closeRound_none ht tag, fun r hr hopen => ⟨fun hother => ?_, fun hown => ⟨r.missed, missed_iff r, ?_⟩⟩⟩,
    fun hrun => ⟨fun hno => ?_, fun r hset hr hopen hlimit => ⟨lapsedRound s r, ?_, lapsedRound_frame s r, rfl, rfl, ?_, ?_⟩⟩⟩
  · exact command_outOfRange (source := .service badge) ht tag (decide_eq_false (by omega)) _
  · refine (exec_openRound ht tag hlow hhigh).trans (congrArg Host.Outcome.next (if_pos ?_))
    rw [clockSet_of_unset hunset]
    rfl
  · have hround : roundIsOpen s.cash = true := by
      by_contra hnot
      exact hopen fun r hr ho => hnot ((roundIsOpen_iff _).mpr ⟨r, hr, ho⟩)
    refine (exec_openRound ht tag hlow hhigh).trans (congrArg Host.Outcome.next ((if_neg ?_).trans (if_pos hround)))
    rw [clockSet_of_set hset]
    decide
  · refine ⟨openedRound s badge number, plannedNow s, (exec_openRound ht tag hlow hhigh).trans (congrArg Host.Outcome.next
      ((if_neg ?_).trans (if_neg ?_))), openedRound_frame s badge number, plannedNow_iff s, rfl, openedRound_faults .., ?_, ?_, ?_⟩
    · rw [clockSet_of_set hset]; decide
    · rw [roundIsOpen_false hclosed]; decide
    · exact latched_of_adds (openedRound_adds .roundOpened s badge number)
    · exact notLatched_of_adds (openedRound_adds .roundEnded s badge number)
    · exact latchedWhere_of_adds (openedRound_adds .faultCleared s badge number) (by simp [FaultRecord.standing])
  · exact (exec_closeRound ht tag hr hopen).trans (congrArg Host.Outcome.next (if_pos hother))
  · exact (exec_closeRound ht tag hr hopen).trans (congrArg Host.Outcome.next (if_neg fun h => h hown))
  · refine congrArg Host.Outcome.next ((whenRunning_true hrun _).trans ?_)
    rcases hno with hunset | hclosed | hearly
    · exact if_neg (by rw [clockSet_of_unset hunset]; decide)
    · rw [lapseIfDue_notDue (.inl hclosed), ite_self]
    · rw [lapseIfDue_notDue (.inr hearly), ite_self]
  · refine congrArg Host.Outcome.next ((whenRunning_true hrun _).trans ((if_pos (clockSet_of_set hset)).trans ?_))
    exact lapseIfDue_due hr hopen hlimit
  · exact latched_of_adds (lapsedRound_adds .roundEnded s r)
  · exact latchedWhere_of_adds (lapsedRound_adds .faultOpened s r) (by simp)
end Sys2Proof.Proofs
end

section
/-! PROOFS. BOX_OUT and BOX_IN (O50): the stages of a box's leaving and coming, with the lift list, the marks, the notices and grace. -/
namespace Sys2Proof.Proofs
open Sys2Proof Sys2Proof.Machine

/-! ## A fault raised on a condition -/

/-- A fault raised where that holds. -/
def raiseWhere (p : Prop) [Decidable p] (n : Line) (k : TermFault) (d : Option Nat) (s : State) : State :=
  if p then raiseFault n k d s else s

section
variable (p : Prop) [Decidable p] (n : Line) (k : TermFault) (d : Option Nat) (s : State)

theorem raiseWhere_frame : onlyChanges [.faults, .notices] s (raiseWhere p n k d s) := by
  unfold raiseWhere
  split
  · exact raiseFault_frame s n k d
  · exact (onlyChanges_refl [] s).mono (by decide)

theorem raiseWhere_cash : (raiseWhere p n k d s).cash = s.cash := raiseWhere_frame p n k d s .cash (by decide)
theorem raiseWhere_clock : (raiseWhere p n k d s).clock = s.clock := raiseWhere_frame p n k d s .clock (by decide)
theorem raiseWhere_now : now (raiseWhere p n k d s) = now s := congrArg Clock.reading (raiseWhere_clock p n k d s)

theorem raiseWhere_zone : (raiseWhere p n k d s).faults.zone = s.faults.zone := by
  unfold raiseWhere
  split
  · exact raiseFault_zone ..
  · rfl

theorem raiseWhere_record (m : Line) (j : TermFault) : terminalRecord (raiseWhere p n k d s).faults m j =
    if m = n ∧ j = k ∧ p then (terminalRecord s.faults n k).raised (now s) d else terminalRecord s.faults m j := by
  unfold raiseWhere
  by_cases hp : p
  · rw [if_pos hp, raiseFault_record]
    simp only [hp, and_true]
  · rw [if_neg hp, if_neg fun h => hp h.2.2]

end

/-- The first of four causes named last. -/
theorem or_rotate (a b c d : Prop) : ((a ∨ b) ∨ c) ∨ d ↔ b ∨ c ∨ d ∨ a := by rw [or_assoc, or_assoc, or_comm, or_assoc, or_assoc]

/-- A lift is labelled where the label differs. -/
theorem liftOf_label (s : State) (n : Line) (label : Nat) : (liftOf s n label).label.isSome = true ↔ label ≠ (tallyOf s n).box := by
  show (if label = (tallyOf s n).box then none else some label).isSome = true ↔ _
  split <;> simp_all

/-! ## The stages of a BOX_OUT (R147, R148, R151) -/

/-- The tally is emptied, its lift is on the list, and the box is marked ABSENT. -/
def boxGone (n : Line) (label : Nat) (s : State) : State :=
  markAbsent n (onTally n Tally.emptied (onCash (fun c => joinLifted n (appendLift (liftOf s n label) c)) (makeLiftRoom s)))

/-- The label and the round have been judged. -/
def boxJudged (n : Line) (label : Nat) (s : State) : State :=
  raiseWhere ((liftOf s n label).round = 0) n .unroundedLift (some s.cash.nextLift)
    (raiseWhere ((liftOf s n label).label.isSome = true) n .boxIdentity (some label) (boxGone n label s))

/-- A round that is OPEN counts the terminal as lifted (R153). -/
theorem joinLifted_eq (n : Line) (c : CashUnit) : joinLifted n c =
    { c with round := c.round.map fun r => if r.state = .opened then { r with lifted := put r.lifted n true } else r } := by
  unfold joinLifted roundIsOpen
  obtain ⟨coins, tallies, lifts, nextLift, round, tolerance, limit⟩ := c
  cases round with
  | none => rfl
  | some r =>
    cases hs : r.state <;> simp [hs]

section
variable (n : Line) (label : Nat) (s : State)

theorem takeBox_eq : takeBox n label s = answerPending n .ok
    (.lifted (liftOf s n label).serial (liftOf s n label).box (liftOf s n label).counts (liftOf s n label).expected) (boxJudged n label s) := rfl

theorem boxJudged_cash : (boxJudged n label s).cash = (boxGone n label s).cash := by
  unfold boxJudged
  rw [raiseWhere_cash, raiseWhere_cash]

theorem boxJudged_lines : (boxJudged n label s).lines = s.lines := by
  have hgone : (boxGone n label s).lines = s.lines := by
    unfold boxGone
    rw [markAbsent_lines]
    exact makeLiftRoom_lines s
  exact (raiseWhere_frame _ _ _ _ _ .lines (by decide) : _ = (raiseWhere _ _ _ _ _).lines).trans
    ((raiseWhere_frame _ _ _ _ _ .lines (by decide) : _ = (boxGone n label s).lines).trans hgone)

/-- The cash unit once the box has gone: the lift list has one record more, the tally is empty and ABSENT. -/
theorem boxGone_cash {kept : List Lift} (hkept : (makeLiftRoom s).cash = { s.cash with lifts := kept }) : (boxGone n label s).cash =
    { s.cash with
      tallies := put s.cash.tallies n { tallyOf s n with
        present := false, box := 0, counts := Vector.replicate 8 0, absentMark := true }
      lifts := kept ++ [liftOf s n label]
      nextLift := following 1 4294967295 s.cash.nextLift
      round := s.cash.round.map fun r => if r.state = .opened then { r with lifted := put r.lifted n true } else r } := by
  have hjoined : (onCash (fun c => joinLifted n (appendLift (liftOf s n label) c)) (makeLiftRoom s)).cash =
      { s.cash with
        lifts := kept ++ [liftOf s n label]
        nextLift := following 1 4294967295 s.cash.nextLift
        round := s.cash.round.map fun r => if r.state = .opened then { r with lifted := put r.lifted n true } else r } := by
    show joinLifted n (appendLift (liftOf s n label) (makeLiftRoom s).cash) = _
    rw [hkept, joinLifted_eq]
    rfl
  unfold boxGone
  rw [markAbsent_cash, onTally_put, onTally_tally, put_put]
  unfold tallyOf
  rw [hjoined]
  rfl

theorem boxGone_clock : (boxGone n label s).clock = s.clock := by
  unfold boxGone
  rw [markAbsent_clock]
  exact makeLiftRoom_clock s

theorem boxGone_now : now (boxGone n label s) = now s := congrArg Clock.reading (boxGone_clock n label s)

/-- The mark of absence the room-making leaves is the tally's own. -/
theorem emptied_mark : (tallyOf (onTally n Tally.emptied
    (onCash (fun c => joinLifted n (appendLift (liftOf s n label) c)) (makeLiftRoom s))) n).absentMark = (tallyOf s n).absentMark := by
  obtain ⟨kept, -, hkept, -⟩ := makeLiftRoom_spec s
  rw [onTally_tally]
  show (row (joinLifted n (appendLift (liftOf s n label) (makeLiftRoom s).cash)).tallies n).absentMark = _
  rw [joinLifted_eq, hkept]
  rfl

theorem boxGone_record (m : Line) (j : TermFault) : terminalRecord (boxGone n label s).faults m j =
    if m = n ∧ j = .boxAbsent ∧ (tallyOf s n).absentMark = false then (terminalRecord s.faults n .boxAbsent).raised (now s) none
    else terminalRecord s.faults m j := by
  obtain ⟨-, -, -, hterminals, -⟩ := makeLiftRoom_spec s
  have hroom : ∀ i k, terminalRecord (onTally n Tally.emptied
      (onCash (fun c => joinLifted n (appendLift (liftOf s n label) c)) (makeLiftRoom s))).faults i k = terminalRecord s.faults i k :=
    terminalRecord_congr hterminals
  have hnow : now (onTally n Tally.emptied
      (onCash (fun c => joinLifted n (appendLift (liftOf s n label) c)) (makeLiftRoom s))) = now s :=
    congrArg Clock.reading (makeLiftRoom_clock s)
  unfold boxGone
  rw [markAbsent_record, emptied_mark, hroom, hroom, hnow]

theorem boxGone_zone : (boxGone n label s).faults.zone = (makeLiftRoom s).faults.zone := by
  unfold boxGone
  rw [markAbsent_zone]
  rfl

theorem takeBox_zone : (takeBox n label s).faults.zone = (makeLiftRoom s).faults.zone := by
  rw [takeBox_eq, answerPending_faults]
  unfold boxJudged
  rw [raiseWhere_zone, raiseWhere_zone, boxGone_zone]

/-- Each record a BOX_OUT touches, with what raises it. -/
theorem takeBox_record (m : Line) (j : TermFault) : terminalRecord (takeBox n label s).faults m j =
    if m = n ∧ j = .unroundedLift ∧ (liftOf s n label).round = 0 then
      (terminalRecord s.faults n .unroundedLift).raised (now s) (some s.cash.nextLift)
    else if m = n ∧ j = .boxIdentity ∧ label ≠ (tallyOf s n).box then
      (terminalRecord s.faults n .boxIdentity).raised (now s) (some label)
    else if m = n ∧ j = .boxAbsent ∧ (tallyOf s n).absentMark = false then (terminalRecord s.faults n .boxAbsent).raised (now s) none
    else terminalRecord s.faults m j := by
  rw [takeBox_eq, answerPending_faults]
  unfold boxJudged
  rw [raiseWhere_record, raiseWhere_record, raiseWhere_record, raiseWhere_now, boxGone_now, boxGone_record, boxGone_record, boxGone_record]
  simp [liftOf_label]

end

/-- A lift bears the number of the OPEN round. -/
theorem liftOf_round {s : State} {r : Round} (hr : s.cash.round = some r) (hopen : r.state = .opened) (n : Line) (label : Nat) :
    (liftOf s n label).round = r.number := by
  show openRoundNumber s.cash = _
  unfold openRoundNumber
  rw [hr]
  exact if_pos hopen

theorem liftOf_noRound {s : State} (h : ¬ ∃ r, s.cash.round = some r ∧ r.state = .opened) (n : Line) (label : Nat) :
    (liftOf s n label).round = 0 := by
  show openRoundNumber s.cash = _
  unfold openRoundNumber
  cases hr : s.cash.round with
  | none => rfl
  | some r => exact if_neg fun hopen => h ⟨r, hr, hopen⟩

/-! ## The stages of a BOX_IN (R149) -/

theorem clearedNow_congr {s t : State} (h : now t = now s) (r : FaultRecord) : clearedNow t r = clearedNow s r := by
  unfold clearedNow
  rw [h]

section
variable (n : Line) (label : Nat) (s : State)

/-- The tally is filled and BOX_ABSENT cleared. -/
def boxBack (n : Line) (label : Nat) (s : State) : State := unmarkAbsent n (onTally n (fun t => t.filled label) s)

/-- The three marks are OFF. -/
def boxFilled (n : Line) (label : Nat) (s : State) : State := unmarkFull n (unmarkNear n (boxBack n label s))

theorem boxBack_cash : (boxBack n label s).cash = { s.cash with tallies := put s.cash.tallies n { tallyOf s n with
    present := true, box := label, counts := Vector.replicate 8 0, absentMark := false } } := by
  unfold boxBack
  rw [unmarkAbsent_cash, onTally_put, onTally_tally, put_put]
  rfl

theorem boxBack_tally : tallyOf (boxBack n label s) n = { tallyOf s n with
    present := true, box := label, counts := Vector.replicate 8 0, absentMark := false } := tally_of_cash (boxBack_cash n label s)

theorem boxFilled_cash : (boxFilled n label s).cash = { s.cash with tallies := put s.cash.tallies n { tallyOf s n with
    present := true, box := label, counts := Vector.replicate 8 0, absentMark := false, nearMark := false, fullMark := false } } := by
  have hnear := tally_of_cash (unmarkNear_cash n (boxBack n label s))
  unfold boxFilled
  rw [unmarkFull_cash, hnear, unmarkNear_cash, boxBack_tally, boxBack_cash, put_put, put_put]

theorem boxBack_now : now (boxBack n label s) = now s := by
  unfold boxBack now
  rw [unmarkAbsent_clock]
  rfl

theorem unmarkNear_now : now (unmarkNear n s) = now s := by
  unfold now
  rw [unmarkNear_clock]

/-- Each record a BOX_IN clears. -/
theorem boxFilled_record (m : Line) (j : TermFault) : terminalRecord (boxFilled n label s).faults m j =
    if m = n ∧ j = .boxFull ∧ (tallyOf s n).fullMark = true then clearedNow s (terminalRecord s.faults n .boxFull)
    else if m = n ∧ j = .boxNearFull ∧ (tallyOf s n).nearMark = true then clearedNow s (terminalRecord s.faults n .boxNearFull)
    else if m = n ∧ j = .boxAbsent ∧ (tallyOf s n).absentMark = true then clearedNow s (terminalRecord s.faults n .boxAbsent)
    else terminalRecord s.faults m j := by
  have hfull : (tallyOf (unmarkNear n (boxBack n label s)) n).fullMark = (tallyOf s n).fullMark := by
    rw [tally_of_cash (unmarkNear_cash n (boxBack n label s)), boxBack_tally]
  have hnear : (tallyOf (boxBack n label s) n).nearMark = (tallyOf s n).nearMark := by rw [boxBack_tally]
  have hback : ∀ i k, terminalRecord (boxBack n label s).faults i k = if i = n ∧ k = .boxAbsent ∧ (tallyOf s n).absentMark = true then
      clearedNow s (terminalRecord s.faults n .boxAbsent) else terminalRecord s.faults i k := fun i k => by
    unfold boxBack
    rw [unmarkAbsent_record, onTally_tally]
    rfl
  unfold boxFilled
  rw [unmarkFull_record, unmarkNear_record, unmarkNear_record, hfull, hnear, hback, hback, hback,
    clearedNow_congr ((unmarkNear_now n _).trans (boxBack_now n label s)), clearedNow_congr (boxBack_now n label s)]
  simp

theorem boxFilled_zone : (boxFilled n label s).faults.zone = s.faults.zone := by
  show (watchOf (boxFilled n label s)).1.zone = _
  unfold boxFilled
  rw [unmarkFull_watch, markOp_zone, unmarkNear_watch, markOp_zone]
  unfold boxBack
  rw [unmarkAbsent_watch, markOp_zone]
  rfl

theorem boxFilled_lines : (boxFilled n label s).lines = s.lines := by
  unfold boxFilled boxBack
  rw [unmarkFull_lines, unmarkNear_lines, unmarkAbsent_lines]
  rfl

/-- A BOX_IN raises nothing. -/
theorem boxFilled_opened : adds .faultOpened false s.notices (boxFilled n label s).notices := by
  have habsent : adds .faultOpened false s.notices (watchOf (boxBack n label s)).2 := by
    unfold boxBack
    rw [unmarkAbsent_watch]
    exact markOp_opened ..
  have hnear : adds .faultOpened false (watchOf (boxBack n label s)).2 (watchOf (unmarkNear n (boxBack n label s))).2 := by
    rw [unmarkNear_watch]
    exact markOp_opened ..
  have hfull : adds .faultOpened false (watchOf (unmarkNear n (boxBack n label s))).2 (watchOf (boxFilled n label s)).2 := by
    unfold boxFilled
    rw [unmarkFull_watch]
    exact markOp_opened ..
  exact adds_trans (adds_trans habsent hnear) hfull

/-- FAULT_CLEARED comes of a BOX_IN with each mark that was ON while its record stood. -/
theorem boxFilled_cleared : ∃ b, adds .faultCleared b s.notices (boxFilled n label s).notices ∧ (b = true ↔
    ((tallyOf s n).absentMark = true ∧ (terminalRecord s.faults n .boxAbsent).state ≠ .clear) ∨
    ((tallyOf s n).nearMark = true ∧ (terminalRecord s.faults n .boxNearFull).state ≠ .clear) ∨
    ((tallyOf s n).fullMark = true ∧ (terminalRecord s.faults n .boxFull).state ≠ .clear)) := by
  have hback : ∀ k, k ≠ .boxAbsent → terminalRecord (watchOf (boxBack n label s)).1 n k = terminalRecord s.faults n k := fun k hk => by
    unfold boxBack
    rw [unmarkAbsent_watch, markOp_record, if_neg fun e => hk e.2]
    rfl
  have habsent : adds .faultCleared ((tallyOf s n).absentMark && (terminalRecord s.faults n .boxAbsent).standing) s.notices
      (watchOf (boxBack n label s)).2 := by
    unfold boxBack
    rw [unmarkAbsent_watch, onTally_tally]
    exact markOp_cleared ..
  have hnear : adds .faultCleared ((tallyOf s n).nearMark && (terminalRecord s.faults n .boxNearFull).standing)
      (watchOf (boxBack n label s)).2 (watchOf (unmarkNear n (boxBack n label s))).2 := by
    rw [unmarkNear_watch, boxBack_tally, ← hback .boxNearFull (by decide)]
    exact markOp_cleared ..
  have hfull : adds .faultCleared ((tallyOf s n).fullMark && (terminalRecord s.faults n .boxFull).standing)
      (watchOf (unmarkNear n (boxBack n label s))).2 (watchOf (boxFilled n label s)).2 := by
    have hrecord : terminalRecord (watchOf (unmarkNear n (boxBack n label s))).1 n .boxFull = terminalRecord s.faults n .boxFull := by
      rw [unmarkNear_watch, markOp_record, if_neg fun e => absurd e.2 (by decide), hback _ (by decide)]
    have htally := tally_of_cash (unmarkNear_cash n (boxBack n label s))
    unfold boxFilled
    rw [unmarkFull_watch, htally, boxBack_tally, ← hrecord]
    exact markOp_cleared ..
  exact ⟨_, adds_trans (adds_trans habsent hnear) hfull, by simp [FaultRecord.standing, or_assoc]⟩

theorem boxFilled_frame : onlyChanges [.cash, .faults, .notices] s (boxFilled n label s) :=
  ((((onTally_frame _ _ _).trans (unmarkAbsent_frame _ _)).trans (unmarkNear_frame _ _)).trans (unmarkFull_frame _ _)).mono (by decide)

theorem graceTracks_boxFilled {u : State} (h : graceTracks u s) (hd : graceDown u s) : graceTracks u (boxFilled n label s) := by
  obtain ⟨a1, d1⟩ := graceTracks_unmarkAbsent (graceTracks_tally h n (fun t => t.filled label)) hd n
  obtain ⟨a2, d2⟩ := graceTracks_unmarkNear a1 d1 n
  exact (graceTracks_unmarkFull a2 d2 n).1

end

theorem labelTaken_iff (c : CashUnit) (n : Line) (label : Nat) : labelTaken c n label = true ↔
    ∃ m, m ≠ n ∧ (row c.tallies m).present = true ∧ (row c.tallies m).box = label := by
  unfold labelTaken
  rw [someRow_iff]
  simp [and_assoc]

/-! ## The two requests (R147, R149) -/

section
variable {n : Line} {label : Nat} {s : State} (h : lineTakes s n) (hlabel : label ≤ 65535)
include h hlabel

theorem exec_boxOut : exec (.boxOut n label) s = .next (
    if (tallyOf s n).present then takeBox n label (asTaken s n .boxOut) else answerPending n .already .empty (asTaken s n .boxOut)) := by
  show Host.Outcome.next (whenRunning (takeFrame n (some .boxOut) (decide (label ≤ 65535)) _) s) = _
  rw [whenRunning_true h.1.1, decide_eq_true hlabel, takeFrame_accepted h]
  rfl

theorem exec_boxIn : exec (.boxIn n label) s = .next (
    if (tallyOf s n).present then answerPending n .already .empty (asTaken s n .boxIn) else putBox n label (asTaken s n .boxIn)) := by
  show Host.Outcome.next (whenRunning (takeFrame n (some .boxIn) (decide (label ≤ 65535)) _) s) = _
  rw [whenRunning_true h.1.1, decide_eq_true hlabel, takeFrame_accepted h]
  rfl

end

section
variable (n : Line) (k : RequestKind) (s : State)

/-- A request that is answered at once leaves nothing but the frame it was heard by. -/
theorem takenAnswered_frame (st : Status) (b : Body) :
    onlyChanges [.lines, .table, .faults, .notices] s (answerPending n st b (asTaken s n k)) :=
  ((asTaken_frame s n k).trans (answerPending_frame _ n st b)).mono (by decide)

/-- The records a request finds are those before it, but for LINE_SILENT. -/
theorem taken_record {j : TermFault} (hj : j ≠ .lineSilent) (m : Line) :
    terminalRecord (asTaken s n k).faults m j = terminalRecord s.faults m j := heard_boxRecord n s hj m

theorem taken_recordsKept {m : Line} {j : TermFault} (h : ¬ (m = n ∧ j = .lineSilent)) :
    terminalRecord (asTaken s n k).faults m j = terminalRecord s.faults m j := by
  obtain ⟨-, -, -, -, hother⟩ := heard_records s n
  exact hother m j (not_and_or.mp h)

theorem taken_now : now (asTaken s n k) = now s := rfl

theorem taken_zone : (asTaken s n k).faults.zone = s.faults.zone := by
  obtain ⟨-, -, -, hzone, -⟩ := heard_records s n
  exact hzone

theorem taken_tracks (hg : graceKept s) : graceTracks s (asTaken s n k) ∧ graceDown s (asTaken s n k) := by
  obtain ⟨htracks, hdown⟩ := heard_tracks hg n
  exact ⟨graceTracks_frame htracks (acceptRequest_frame _ n k) (by decide) (by decide) (by decide) (by decide), hdown⟩

end

/-- Each record a BOX_IN clears, read before the request was taken. -/
theorem boxFilled_taken (n : Line) (label : Nat) (s : State) (k : RequestKind) (m : Line) (j : TermFault) :
    terminalRecord (boxFilled n label (asTaken s n k)).faults m j =
      if m = n ∧ j = .boxFull ∧ (tallyOf s n).fullMark = true then clearedNow s (terminalRecord s.faults n .boxFull)
      else if m = n ∧ j = .boxNearFull ∧ (tallyOf s n).nearMark = true then clearedNow s (terminalRecord s.faults n .boxNearFull)
      else if m = n ∧ j = .boxAbsent ∧ (tallyOf s n).absentMark = true then clearedNow s (terminalRecord s.faults n .boxAbsent)
      else terminalRecord (asTaken s n k).faults m j := by
  refine (boxFilled_record n label (asTaken s n k) m j).trans ?_
  rw [taken_record n k s (j := .boxFull) (by decide), taken_record n k s (j := .boxNearFull) (by decide),
    taken_record n k s (j := .boxAbsent) (by decide)]
  rfl

theorem boxFilled_absent (n : Line) (label : Nat) (s : State) (k : RequestKind) :
    terminalRecord (boxFilled n label (asTaken s n k)).faults n .boxAbsent =
      if (tallyOf s n).absentMark = true then clearedNow s (terminalRecord s.faults n .boxAbsent) else terminalRecord s.faults n .boxAbsent := by
  rw [boxFilled_taken, taken_record n k s (by decide)]
  simp

theorem boxFilled_near (n : Line) (label : Nat) (s : State) (k : RequestKind) :
    terminalRecord (boxFilled n label (asTaken s n k)).faults n .boxNearFull =
      if (tallyOf s n).nearMark = true then clearedNow s (terminalRecord s.faults n .boxNearFull) else terminalRecord s.faults n .boxNearFull := by
  rw [boxFilled_taken, taken_record n k s (by decide)]
  simp

theorem boxFilled_full (n : Line) (label : Nat) (s : State) (k : RequestKind) :
    terminalRecord (boxFilled n label (asTaken s n k)).faults n .boxFull =
      if (tallyOf s n).fullMark = true then clearedNow s (terminalRecord s.faults n .boxFull) else terminalRecord s.faults n .boxFull := by
  rw [boxFilled_taken, taken_record n k s (by decide)]
  simp

/-- A BOX_IN keeps every record it does not clear. -/
theorem boxFilled_keeps (n : Line) (label : Nat) (s : State) (k : RequestKind) : recordsKeptBut
    (fun m j => m = n ∧ (j = .lineSilent ∨ j = .boxAbsent ∨ j = .boxNearFull ∨ j = .boxFull)) s (boxFilled n label (asTaken s n k)) := by
  intro m j hk
  rw [boxFilled_taken, if_neg fun e => hk ⟨e.1, by simp [e.2.1]⟩, if_neg fun e => hk ⟨e.1, by simp [e.2.1]⟩,
    if_neg fun e => hk ⟨e.1, by simp [e.2.1]⟩]
  exact taken_recordsKept n k s fun e => hk ⟨e.1, .inl e.2⟩

/-- What a BOX_IN latches of FAULT_CLEARED, with the frame that brought it. -/
theorem boxFilled_clearedTaken (n : Line) (label : Nat) (s : State) (k : RequestKind) :
    let t := boxFilled n label (asTaken s n k)
    latchedWhere .faultCleared (stands s n .lineSilent ∨ clearsMark Tally.absentMark .boxAbsent n s t ∨
      clearsMark Tally.nearMark .boxNearFull n s t ∨ clearsMark Tally.fullMark .boxFull n s t) s t := by
  intro t
  have htally : tallyOf t n = _ := tally_of_cash (boxFilled_cash n label (asTaken s n k))
  obtain ⟨b, hb, hiff⟩ := boxFilled_cleared n label (asTaken s n k)
  rw [taken_record n k s (by decide), taken_record n k s (by decide), taken_record n k s (by decide)] at hiff
  refine latchedWhere_of_adds (adds_trans (heard_adds n s).1 hb) ?_
  unfold clearsMark
  rw [htally, Bool.or_eq_true, hiff]
  simp [FaultRecord.standing, stands]
  rfl

section
variable {n : Line} {label : Nat} {s : State} (h : lineTakes s n) (hlabel : label ≤ 65535)
include h hlabel

/-- BOX_OUT of a PRESENT box. -/
theorem boxOut_leaves (hpresent : (tallyOf s n).present = true) : ∃ t l kept, exec (.boxOut n label) s = .next t ∧
    onlyChanges [.cash, .lines, .table, .faults, .notices] s t ∧
    answeredOn s t n .ok (.lifted l.serial l.box l.counts l.expected) ∧
    l.serial = s.cash.nextLift ∧ l.terminal = n ∧ l.box = (tallyOf s n).box ∧
    l.label = (if label = (tallyOf s n).box then none else some label) ∧
    l.lifted = now s ∧ l.counts = (tallyOf s n).counts ∧ l.expected = valueOf s.cash.coins (tallyOf s n).counts ∧ l.state = .awaiting ∧
    (∀ r, s.cash.round = some r → r.state = .opened → l.round = r.number) ∧
    ((¬ ∃ r, s.cash.round = some r ∧ r.state = .opened) → l.round = 0) ∧
    liftRoomMade s.cash.lifts kept ∧
    t.cash = { s.cash with
      tallies := put s.cash.tallies n { tallyOf s n with
        present := false, box := 0, counts := Vector.replicate 8 0, absentMark := true }
      lifts := kept ++ [l]
      nextLift := if s.cash.nextLift = 4294967295 then 1 else s.cash.nextLift + 1
      round := s.cash.round.map fun r => if r.state = .opened then { r with lifted := put r.lifted n true } else r } ∧
    terminalRecord t.faults n .boxAbsent = (if (tallyOf s n).absentMark then terminalRecord s.faults n .boxAbsent
      else (terminalRecord s.faults n .boxAbsent).raised (now s) none) ∧
    terminalRecord t.faults n .boxIdentity = (if label = (tallyOf s n).box then terminalRecord s.faults n .boxIdentity
      else (terminalRecord s.faults n .boxIdentity).raised (now s) (some label)) ∧
    ((∀ r, s.cash.round = some r → r.state = .opened → r.number ≠ 0) → terminalRecord t.faults n .unroundedLift =
      if l.round = 0 then (terminalRecord s.faults n .unroundedLift).raised (now s) (some l.serial)
      else terminalRecord s.faults n .unroundedLift) ∧
    recordsKeptBut (fun m k => m = n ∧ (k = .lineSilent ∨ k = .boxAbsent ∨ k = .boxIdentity ∨ k = .unroundedLift)) s t ∧
    ((s.cash.lifts.length < 96 ∨ ∃ x ∈ s.cash.lifts, x.state ≠ .awaiting) → t.faults.zone = s.faults.zone) ∧
    (96 ≤ s.cash.lifts.length → (∀ x ∈ s.cash.lifts, x.state = .awaiting) → ∀ first rest, s.cash.lifts = first :: rest →
      t.faults.zone = put s.faults.zone 2 ((row s.faults.zone 2).raised (now s) (some first.box))) ∧
    latchedWhere .faultOpened (opensMark Tally.absentMark .boxAbsent n s t ∨
      (label ≠ (tallyOf s n).box ∧ (terminalRecord s.faults n .boxIdentity).state ≠ .opened) ∨
      (l.round = 0 ∧ (terminalRecord s.faults n .unroundedLift).state ≠ .opened) ∨
      (96 ≤ s.cash.lifts.length ∧ (∀ x ∈ s.cash.lifts, x.state = .awaiting) ∧ (row s.faults.zone 2).state ≠ .opened)) s t ∧
    latchedWhere .faultCleared (stands s n .lineSilent) s t ∧ (graceKept s → graceFollows s t) := by
  have hx := (exec_boxOut h hlabel).trans (congrArg Host.Outcome.next (if_pos hpresent))
  have hrecord := takeBox_record n label (asTaken s n .boxOut)
  have hzone := takeBox_zone n label (asTaken s n .boxOut)
  have hkinds : TermFault.boxAbsent ≠ .lineSilent ∧ TermFault.boxIdentity ≠ .lineSilent ∧ TermFault.unroundedLift ≠ .lineSilent := by decide
  have htaken := fun k hk => taken_record n .boxOut s (j := k) hk n
  obtain ⟨kept, hmade, hkept, -, -, -, hstays, hlost⟩ := makeLiftRoom_spec (asTaken s n .boxOut)
  have hcash : (takeBox n label (asTaken s n .boxOut)).cash = _ := (boxJudged_cash ..).trans (boxGone_cash n label _ hkept)
  have htallyTaken : tallyOf (asTaken s n .boxOut) n = tallyOf s n := rfl
  have hmark : (tallyOf (takeBox n label (asTaken s n .boxOut)) n).absentMark = true := by
    unfold tallyOf
    rw [hcash]
    dsimp only
    rw [row_put_self]
  rw [← hzone, taken_zone] at hstays hlost
  obtain ⟨hopened, hcleared⟩ := takeBox_notices n label (asTaken s n .boxOut)
  rw [taken_zone, htaken _ hkinds.1, htaken _ hkinds.2.1, htaken _ hkinds.2.2] at hopened
  refine ⟨_, liftOf (asTaken s n .boxOut) n label, kept, hx, ((asTaken_frame s n .boxOut).trans (takeBox_frame _ n label)).mono (by decide),
    answerTaken (k := .boxOut) ?_ _ _, rfl, rfl, rfl, rfl, rfl, rfl, rfl, rfl, fun r => liftOf_round (s := asTaken s n .boxOut) (n := n) (label := label),
    liftOf_noRound (s := asTaken s n .boxOut) (n := n) (label := label), hmade, hcash, ?_, ?_, fun _ => ?_, fun m j hk => ?_, hstays, hlost,
    ?_, ?_, fun hg => ?_⟩
  · exact boxJudged_lines ..
  · refine (hrecord ..).trans ?_
    rw [htaken _ hkinds.1, htallyTaken]
    cases (tallyOf s n).absentMark <;> simp [taken_now]
  · refine (hrecord ..).trans ?_
    rw [htaken _ hkinds.2.1, htallyTaken]
    by_cases hlabelled : label = (tallyOf s n).box <;> simp [hlabelled, taken_now]
  · refine (hrecord ..).trans ?_
    rw [htaken _ hkinds.2.2]
    simp [taken_now]
    rfl
  · refine (hrecord ..).trans ?_
    rw [if_neg fun e => hk ⟨e.1, by simp [e.2.1]⟩, if_neg fun e => hk ⟨e.1, by simp [e.2.1]⟩, if_neg fun e => hk ⟨e.1, by simp [e.2.1]⟩]
    exact taken_recordsKept n .boxOut s fun e => hk ⟨e.1, .inl e.2⟩
  · refine latchedWhere_of_adds (adds_trans (heard_adds n s).2 hopened) ?_
    unfold opensMark
    rw [hmark]
    simp only [htallyTaken, ← liftOf_label, Bool.false_or, Bool.or_eq_true, Bool.and_eq_true, decide_eq_true_eq, Bool.not_eq_true',
      bne_iff_ne, true_and]
    exact or_rotate ..
  · exact latchedWhere_of_adds (adds_trans (heard_adds n s).1 hcleared) (by simp [FaultRecord.standing, stands])
  · exact graceTracks_follows (graceTracks_takeBox (taken_tracks n .boxOut s hg).1 n label)

/-- BOX_IN of a label of 0, or of another terminal's box. -/
theorem boxIn_refused (habsent : (tallyOf s n).present = false)
    (hbad : label = 0 ∨ ∃ m, m ≠ n ∧ (tallyOf s m).present = true ∧ (tallyOf s m).box = label) :
    ∃ t, exec (.boxIn n label) s = .next t ∧ onlyChanges [.lines, .table, .faults, .notices] s t ∧ answeredOn s t n .duplicate .empty ∧
      terminalRecord t.faults n .boxIdentity = (terminalRecord s.faults n .boxIdentity).raised (now s) (some label) ∧
      t.faults.zone = s.faults.zone ∧ recordsKeptBut (fun m k => m = n ∧ (k = .lineSilent ∨ k = .boxIdentity)) s t ∧
      latchedWhere .faultOpened ((terminalRecord s.faults n .boxIdentity).state ≠ .opened) s t ∧
      latchedWhere .faultCleared (stands s n .lineSilent) s t ∧ (graceKept s → graceFollows s t) := by
  have hput : putBox n label (asTaken s n .boxIn) =
      answerPending n .duplicate .empty (raiseFault n .boxIdentity (some label) (asTaken s n .boxIn)) :=
    if_pos (hbad.imp_right (labelTaken_iff ..).mpr)
  have hx := (exec_boxIn h hlabel).trans (congrArg Host.Outcome.next ((if_neg (by rw [habsent]; decide)).trans hput))
  have htaken := taken_record n .boxIn s (j := .boxIdentity) (by decide) n
  refine ⟨_, hx, ?_, answerTaken (k := .boxIn) (raiseFault_lines ..) _ _, ?_, (raiseFault_zone ..).trans (taken_zone ..), fun m j hk => ?_, ?_, ?_,
    fun hg => graceTracks_follows (graceTracks_answer (graceTracks_raise n .boxIdentity (some label) (taken_tracks n .boxIn s hg).1) n _ _)⟩
  · exact (((asTaken_frame s n .boxIn).trans (raiseFault_frame _ n _ _)).trans (answerPending_frame _ n _ _)).mono (by decide)
  · refine (raiseFault_record ..).trans ((if_pos ⟨rfl, rfl⟩).trans ?_)
    rw [htaken]
    rfl
  · refine (raiseFault_record ..).trans ((if_neg fun e => hk ⟨e.1, .inr e.2⟩).trans ?_)
    exact taken_recordsKept n .boxIn s fun e => hk ⟨e.1, .inl e.2⟩
  · have hraised := raiseFault_opened n .boxIdentity (some label) (asTaken s n .boxIn)
    rw [htaken] at hraised
    exact latchedWhere_of_adds (adds_trans (heard_adds n s).2 hraised) (by simp)
  · exact latchedWhere_of_adds (adds_trans (heard_adds n s).1 (raiseFault_uncleared n .boxIdentity (some label) (asTaken s n .boxIn)))
      (by simp [FaultRecord.standing, stands])

/-- BOX_IN of a label that no other terminal's box bears. -/
theorem boxIn_comes (habsent : (tallyOf s n).present = false) (hlabelled : label ≠ 0)
    (hfree : ∀ m, m ≠ n → (tallyOf s m).present = true → (tallyOf s m).box ≠ label) :
    ∃ t, exec (.boxIn n label) s = .next t ∧ onlyChanges [.cash, .lines, .table, .faults, .notices] s t ∧ answeredOn s t n .ok .empty ∧
      t.cash = { s.cash with tallies := put s.cash.tallies n { tallyOf s n with
        present := true, box := label, counts := Vector.replicate 8 0
        absentMark := false, nearMark := false, fullMark := false } } ∧
      terminalRecord t.faults n .boxAbsent = (if (tallyOf s n).absentMark then clearedNow s (terminalRecord s.faults n .boxAbsent)
        else terminalRecord s.faults n .boxAbsent) ∧
      terminalRecord t.faults n .boxNearFull = (if (tallyOf s n).nearMark then clearedNow s (terminalRecord s.faults n .boxNearFull)
        else terminalRecord s.faults n .boxNearFull) ∧
      terminalRecord t.faults n .boxFull = (if (tallyOf s n).fullMark then clearedNow s (terminalRecord s.faults n .boxFull)
        else terminalRecord s.faults n .boxFull) ∧
      t.faults.zone = s.faults.zone ∧
      recordsKeptBut (fun m k => m = n ∧ (k = .lineSilent ∨ k = .boxAbsent ∨ k = .boxNearFull ∨ k = .boxFull)) s t ∧
      notLatched .faultOpened s t ∧
      latchedWhere .faultCleared (stands s n .lineSilent ∨ clearsMark Tally.absentMark .boxAbsent n s t ∨
        clearsMark Tally.nearMark .boxNearFull n s t ∨ clearsMark Tally.fullMark .boxFull n s t) s t ∧
      (graceKept s → graceFollows s t) := by
  have hput : putBox n label (asTaken s n .boxIn) = answerPending n .ok .empty (boxFilled n label (asTaken s n .boxIn)) := by
    refine if_neg fun hbad => ?_
    rcases hbad with rfl | htaken
    · exact hlabelled rfl
    · obtain ⟨m, hne, hpresent, hbox⟩ := (labelTaken_iff ..).mp htaken
      exact hfree m hne hpresent hbox
  have hx := (exec_boxIn h hlabel).trans (congrArg Host.Outcome.next ((if_neg (by rw [habsent]; decide)).trans hput))
  have hcash := boxFilled_cash n label (asTaken s n .boxIn)
  have hlines := boxFilled_lines n label (asTaken s n .boxIn)
  have hmarkOff := boxFilled_absent n label s .boxIn
  have hnearOff := boxFilled_near n label s .boxIn
  have hfullOff := boxFilled_full n label s .boxIn
  have hzone := (boxFilled_zone n label (asTaken s n .boxIn)).trans (taken_zone ..)
  have hkeeps := boxFilled_keeps n label s .boxIn
  have hframe := (asTaken_frame s n .boxIn).trans (boxFilled_frame n label (asTaken s n .boxIn))
  have hopened := notLatched_of_adds (adds_trans (heard_adds n s).2 (boxFilled_opened n label (asTaken s n .boxIn)))
  have hcleared := boxFilled_clearedTaken n label s .boxIn
  have htracks := fun hg => graceTracks_boxFilled n label _ (taken_tracks n .boxIn s hg).1 (taken_tracks n .boxIn s hg).2
  generalize boxFilled n label (asTaken s n .boxIn) = u at hx hcash hlines hmarkOff hnearOff hfullOff hzone hkeeps hframe hopened hcleared htracks
  exact ⟨_, hx, (hframe.trans (answerPending_frame u n .ok .empty)).mono (by decide), answerTaken (k := .boxIn) hlines _ _, hcash,
    hmarkOff, hnearOff, hfullOff, hzone, hkeeps, hopened, hcleared, fun hg => graceTracks_follows (graceTracks_answer (htracks hg) n _ _)⟩

end

/-- Settles O50: the second of two in a row, the box's leaving, the label refused, and the box's coming. -/
theorem boxOutAndIn : Obligations.BoxOutAndIn := by
  intro n label s h hlabel
  refine ⟨fun habsent => ⟨_, (exec_boxOut h hlabel).trans (congrArg Host.Outcome.next (if_neg (by rw [habsent]; decide))),
      takenAnswered_frame n .boxOut s _ _, answerTaken (k := .boxOut) rfl _ _⟩,
    fun hpresent => ⟨_, (exec_boxIn h hlabel).trans (congrArg Host.Outcome.next (if_pos hpresent)), takenAnswered_frame n .boxIn s _ _,
      answerTaken (k := .boxIn) rfl _ _⟩,
    boxOut_leaves h hlabel, boxIn_refused h hlabel, boxIn_comes h hlabel⟩
end Sys2Proof.Proofs
end

section
/-! PROOFS. The fault unit: reports, silent lines and grace tails, service states and unserved plans (O53). -/
namespace Sys2Proof.Proofs
open Sys2Proof Sys2Proof.Machine

/-! ## Service states and unserved plans (R171, R173) -/

theorem hasFault_stands (s : State) (n : Line) (k : TermFault) : hasFault (row s.faults.terminals n) k = true ↔ stands s n k :=
  standing_iff _

theorem hasCashFault_stands (s : State) (n : Line) : hasCashFault (row s.faults.terminals n) = true ↔
    stands s n .coinJam ∨ stands s n .boxFull ∨ stands s n .boxAbsent ∨ stands s n .boxIdentity := by
  unfold hasCashFault
  simp only [Bool.or_eq_true, hasFault_stands, or_assoc]

theorem serviceFits_serviceState (s : State) (n : Line) : serviceFits s n (serviceState s n) := by
  have hout : (hasFault (row s.faults.terminals n) .printerEmpty || hasFault (row s.faults.terminals n) .doorOpen ||
      hasFault (row s.faults.terminals n) .lineSilent) = true ↔
      stands s n .printerEmpty ∨ stands s n .doorOpen ∨ stands s n .lineSilent := by
    simp only [Bool.or_eq_true, hasFault_stands, or_assoc]
  have hcash := hasCashFault_stands s n
  have hcard := hasFault_stands s n .cardFault
  unfold serviceFits serviceState serviceIn
  refine ⟨fun hinactive => if_neg (by rw [hinactive]; decide), fun hactive => ?_⟩
  rw [if_pos hactive, ← hout, ← hcash, ← hcard]
  unfold serviceOf
  refine ⟨fun h => if_pos h, fun h hc hk => ?_, fun h hc hk => ?_, fun h hc hk => ?_, fun h hc hk => ?_⟩
  · rw [if_neg h, if_pos (by rw [hc, hk]; rfl)]
  · rw [if_neg h, if_neg (by rw [Bool.and_eq_true]; exact fun e => hk e.2), if_pos hc]
  · rw [if_neg h, if_neg (by rw [Bool.and_eq_true]; exact fun e => hc e.1), if_neg hc, if_pos hk]
  · rw [if_neg h, if_neg (by rw [Bool.and_eq_true]; exact fun e => hc e.1), if_neg hc, if_neg hk]

theorem servesPlan_iff (table : Vector Entry 16) (p : Fin 8) (n : Line) :
    servesPlan table p n = true ↔ (row table n).active = true ∧ (row table n).plan = p := by
  unfold servesPlan
  rw [Bool.and_eq_true, beq_iff_eq]

theorem unserved_iff (s : State) (p : Fin 8) : unserved s p = true ↔ planUnserved s p := by
  unfold unserved unservedIn planUnserved
  rw [Bool.and_eq_true, someRow_iff, allRows_iff]
  refine and_congr (exists_congr fun n => servesPlan_iff ..) (forall_congr' fun n => ?_)
  have hout : (serviceIn s.table s.faults n).outOfPayment = true ↔
      serviceState s n = .outOfService ∨ serviceState s n = .paymentOut := by
    unfold Service.outOfPayment
    rw [Bool.or_eq_true, beq_iff_eq, beq_iff_eq]
    rfl
  rw [Bool.or_eq_true, Bool.not_eq_true', hout, ← Bool.not_eq_true, servesPlan_iff, ← and_imp]
  exact Decidable.imp_iff_not_or.symm

/-! ## FAULT (R165) -/

theorem faultReportOf_none {kind direction : Nat} (h : 5 < kind ∨ (direction ≠ 1 ∧ direction ≠ 2)) : faultReportOf kind direction = none := by
  unfold faultReportOf reportedFaultOf
  rcases h with hkind | ⟨hraise, hclear⟩
  · rw [if_neg (by omega)]
  · split <;> simp_all

/-- A line's silence is not reported by its terminal. -/
theorem reported_kind {kind direction : Nat} {k : TermFault} {isRaise : Bool} (h : faultReportOf kind direction = some (k, isRaise)) :
    k ≠ .lineSilent := by
  rintro rfl
  have hkind : reportedFaultOf kind = some .lineSilent := by
    unfold faultReportOf at h
    split at h <;> simp_all
  unfold reportedFaultOf at hkind
  split at hkind
  · rename_i hle
    interval_cases kind <;> cases hkind
  · cases hkind

section
variable (n : Line) (k : TermFault) (isRaise : Bool) (s : State)

theorem sparesNotice_iff : sparesNotice s k = true ↔ k = .doorOpen ∧ ∃ r, s.cash.round = some r ∧ r.state = .opened := by
  unfold sparesNotice
  rw [Bool.and_eq_true, beq_iff_eq, roundIsOpen_iff]

theorem reportFault_frame : onlyChanges [.faults, .notices] s (reportFault n k isRaise s) := by
  unfold reportFault
  split
  · exact onFaults_frame s _
  · exact clearFaultOf_frame s n k

theorem reportFault_zone : (reportFault n k isRaise s).faults.zone = s.faults.zone := by
  unfold reportFault
  split
  · exact raiseIn_zone ..
  · exact clearIn_zone ..

theorem reportFault_record (m : Line) (j : TermFault) : terminalRecord (reportFault n k isRaise s).faults m j =
    if m = n ∧ j = k then
      if isRaise then (terminalRecord s.faults n k).raised (now s) none else clearedNow s (terminalRecord s.faults n k)
    else terminalRecord s.faults m j := by
  unfold reportFault
  cases isRaise
  · exact clearFaultOf_record n m k j s
  · exact raiseIn_record ..

theorem reportFault_opened : adds .faultOpened (isRaise && ((terminalRecord s.faults n k).state != .opened && !sparesNotice s k)) s.notices
    (reportFault n k isRaise s).notices := by
  unfold reportFault
  cases isRaise
  · exact clearIn_adds _ _ _ _ _ _ (by decide) (by decide)
  · exact raiseIn_opened s.table s.clock.reading (sparesNotice s k) n k none (s.faults, s.notices)

theorem reportFault_cleared : adds .faultCleared (!isRaise && (terminalRecord s.faults n k).standing) s.notices
    (reportFault n k isRaise s).notices := by
  unfold reportFault
  cases isRaise
  · exact clearIn_cleared s.table s.clock.reading n k (s.faults, s.notices)
  · exact raiseIn_adds _ _ _ _ _ _ _ _ (by decide) (by decide)

theorem graceTracks_report {u : State} (h : graceTracks u s) (hdown : graceDown u s) : graceTracks u (reportFault n k isRaise s) := by
  unfold reportFault
  cases isRaise
  · exact (graceTracks_clear n k h hdown).1
  · exact graceTracks_raiseSpared _ n k none h

end

/-- A raise of a CLEAR record opens it anew; one of a standing record counts on. -/
theorem raised_clear {r : FaultRecord} (h : r.state = .clear) (z : ZoneMinute) (d : Option Nat) :
    r.raised z d = { state := .opened, first := z, changed := z, count := 1, detail := d } := by
  unfold FaultRecord.raised
  rw [h]

theorem raised_standing {r : FaultRecord} (h : r.state ≠ .clear) (z : ZoneMinute) :
    r.raised z none = { r with state := .opened, changed := z, count := min 255 (r.count + 1) } := by
  unfold FaultRecord.raised
  cases hr : r.state
  · exact absurd hr h
  · rfl
  · rfl

section
variable {n : Line} {s : State} (h : lineTakes s n) {kind direction : Nat}
include h

theorem fault_badField (hbad : 5 < kind ∨ (direction ≠ 1 ∧ direction ≠ 2)) :
    ∃ t, exec (.fault n kind direction) s = .next t ∧ onlyChanges [.lines, .table, .faults, .notices] s t ∧
      frameHeard s t n ∧ answeredOn s t n .badField .empty := by
  have hx : exec (.fault n kind direction) s = .next (replyAtOnce n .badField false (heard n s)) := by
    show Host.Outcome.next (whenRunning _ s) = _
    rw [whenRunning_true h.1.1, faultReportOf_none hbad]
    exact congrArg Host.Outcome.next (takeFrame_badField h.1 ..)
  exact ⟨_, hx, answeredAtOnce h.1 _⟩

/-- A report taken: the record is raised or cleared, and the terminal answered OK. -/
theorem exec_fault {k : TermFault} {isRaise : Bool} (hreport : faultReportOf kind direction = some (k, isRaise)) :
    exec (.fault n kind direction) s = .next (answerPending n .ok .empty (reportFault n k isRaise (asTaken s n .fault))) := by
  show Host.Outcome.next (whenRunning _ s) = _
  rw [whenRunning_true h.1.1, hreport]
  exact congrArg Host.Outcome.next (takeFrame_accepted h ..)

theorem fault_recorded {k : TermFault} {isRaise : Bool} (hreport : faultReportOf kind direction = some (k, isRaise)) :
    ∃ t, exec (.fault n kind direction) s = .next t ∧ onlyChanges [.lines, .table, .faults, .notices] s t ∧
      answeredOn s t n .ok .empty ∧ t.faults.zone = s.faults.zone ∧
      recordsKeptBut (fun m j => m = n ∧ (j = k ∨ j = .lineSilent)) s t ∧
      (terminalRecord t.faults n .lineSilent).state = .clear ∧ (graceKept s → graceFollows s t) ∧
      latchedWhere .faultCleared (stands s n .lineSilent ∨ (isRaise = false ∧ stands s n k)) s t ∧
      (isRaise = false → terminalRecord t.faults n k = clearedNow s (terminalRecord s.faults n k) ∧ notLatched .faultOpened s t) ∧
      (isRaise = true →
        ((terminalRecord s.faults n k).state = .clear →
          terminalRecord t.faults n k = { state := .opened, first := now s, changed := now s, count := 1, detail := none }) ∧
        ((terminalRecord s.faults n k).state ≠ .clear →
          terminalRecord t.faults n k = { terminalRecord s.faults n k with
            state := .opened, changed := now s, count := min 255 ((terminalRecord s.faults n k).count + 1) }) ∧
        ((terminalRecord s.faults n k).state ≠ .opened → ¬ (k = .doorOpen ∧ ∃ r, s.cash.round = some r ∧ r.state = .opened) →
          latched .faultOpened s t) ∧
        ((terminalRecord s.faults n k).state = .opened ∨ (k = .doorOpen ∧ ∃ r, s.cash.round = some r ∧ r.state = .opened) →
          notLatched .faultOpened s t)) := by
  have hkind := reported_kind hreport
  have hx := exec_fault h hreport
  have hrecord := reportFault_record n k isRaise (asTaken s n .fault)
  have htaken := taken_record n .fault s hkind n
  have hself : terminalRecord (reportFault n k isRaise (asTaken s n .fault)).faults n k =
      if isRaise then (terminalRecord s.faults n k).raised (now s) none else clearedNow s (terminalRecord s.faults n k) := by
    rw [hrecord, if_pos ⟨rfl, rfl⟩, htaken]
    rfl
  have hopened := reportFault_opened n k isRaise (asTaken s n .fault)
  have hcleared := reportFault_cleared n k isRaise (asTaken s n .fault)
  rw [htaken] at hopened hcleared
  refine ⟨_, hx, ?_, answerTaken (k := .fault) (reportFault_frame n k isRaise _ .lines (by decide)) _ _,
    (reportFault_zone ..).trans (taken_zone ..), fun m j hj => ?_, ?_, fun hg => ?_, ?_, ?_, ?_⟩
  · exact (((asTaken_frame s n .fault).trans (reportFault_frame n k isRaise _)).trans (answerPending_frame _ n _ _)).mono (by decide)
  · refine (hrecord m j).trans ((if_neg fun e => hj ⟨e.1, .inl e.2⟩).trans ?_)
    exact taken_recordsKept n .fault s fun e => hj ⟨e.1, .inr e.2⟩
  · obtain ⟨-, -, hsilent, -⟩ := heard_records s n
    exact (congrArg FaultRecord.state ((hrecord n .lineSilent).trans (if_neg fun e => hkind e.2.symm))).trans hsilent
  · obtain ⟨htracks, hdown⟩ := taken_tracks n .fault s hg
    exact graceTracks_follows (graceTracks_answer (graceTracks_report n k isRaise _ htracks hdown) n _ _)
  · exact latchedWhere_of_adds (adds_trans (heard_adds n s).1 hcleared) (by simp [FaultRecord.standing, stands])
  · rintro rfl
    exact ⟨hself, notLatched_of_adds (adds_trans (heard_adds n s).2 hopened)⟩
  · rintro rfl
    have sparesTaken : sparesNotice (asTaken s n .fault) k = sparesNotice s k := rfl
    have hlatch := latchedWhere_of_adds (s := s) (t := answerPending n .ok .empty (reportFault n k true (asTaken s n .fault)))
      (adds_trans (heard_adds n s).2 hopened) (c := (terminalRecord s.faults n k).state ≠ .opened ∧
        ¬ (k = .doorOpen ∧ ∃ r, s.cash.round = some r ∧ r.state = .opened)) (by
          rw [← sparesNotice_iff]
          simp [sparesTaken])
    refine ⟨fun hclear => hself.trans (raised_clear hclear ..), fun hstands => hself.trans (raised_standing hstands _),
      fun hnot hspare => hlatch.1 ⟨hnot, hspare⟩, fun hkept => hlatch.2 fun e => hkept.elim e.1 e.2⟩

end

/-! ## LINE_SILENCE and GRACE_TAIL_END (R166, R175) -/

section
variable (s : State)

theorem silentDue_iff (n : Line) : silentDue s.table (now s) n s.faults = true ↔
    (row s.table n).active = true ∧ (terminalRecord s.faults n .lineSilent).state = .clear ∧ (row s.table n).lastHeard + 10 ≤ now s := by
  unfold silentDue FaultRecord.standing
  simp [and_assoc]

/-- The comparison of R166 is the raise where it holds. -/
theorem silence_eq (n : Line) : onFaults (silenceIn s.table s.clock.reading n) s =
    if silentDue s.table (now s) n s.faults then raiseFault n .lineSilent (some (row s.table n).lastHeard) s else s := by
  unfold onFaults silenceIn
  split
  · exact (if_pos ‹_›).symm
  · exact (if_neg ‹_›).symm

theorem endTail_eq (p : Fin 8) : onFaults (endTailIn s.clock.reading p) s =
    if (row s.faults.grace p).due (now s) then { s with
      faults := { s.faults with grace := put s.faults.grace p .none }, notices := latchIn .graceEnded s.notices } else s := by
  unfold onFaults endTailIn
  split
  · exact (if_pos ‹_›).symm
  · exact (if_neg ‹_›).symm

variable {s}

/-- A comparison that comes only while the clock is SET. -/
theorem comparison_eq (hr : running s = true) (f : State → State) :
    (Host.Outcome.next (whenRunning (fun s => if clockSet s then f s else s) s) : Answered) =
      .next (if s.clock.state = .set then f s else s) := by
  rw [whenRunning_true hr]
  simp only [clockSet_iff]

theorem graceDue_ending {g : Grace} {z since until_ : ZoneMinute} (h : g = .ending since until_) : g.due z = true ↔ until_ ≤ z := by
  rw [h]
  exact decide_eq_true_iff

theorem graceDue_not {g : Grace} {z : ZoneMinute} (h : ∀ since until_, g = .ending since until_ → z < until_) : g.due z = false := by
  cases g with
  | none => rfl
  | active since => rfl
  | ending since until_ => exact decide_eq_false (not_le.mpr (h since until_ rfl))

theorem lineSilence_acts (hr : running s = true) (n : Line) :
    let due := s.clock.state = .set ∧ (row s.table n).active = true ∧ (terminalRecord s.faults n .lineSilent).state = .clear ∧
      (row s.table n).lastHeard + 10 ≤ now s
    (¬ due → exec (.lineSilence n) s = .next s) ∧
    (due → ∃ t, exec (.lineSilence n) s = .next t ∧ onlyChanges [.faults, .notices] s t ∧ t.faults.zone = s.faults.zone ∧
      terminalRecord t.faults n .lineSilent =
        { state := .opened, first := now s, changed := now s, count := 1, detail := some (row s.table n).lastHeard } ∧
      recordsKeptBut (fun m j => m = n ∧ j = .lineSilent) s t ∧ serviceState t n = .outOfService ∧
      latched .faultOpened s t ∧ notLatched .faultCleared s t ∧ (graceKept s → graceFollows s t)) := by
  have hx : exec (.lineSilence n) s = .next (if s.clock.state = .set then
      if silentDue s.table (now s) n s.faults then raiseFault n .lineSilent (some (row s.table n).lastHeard) s else s else s) :=
    (comparison_eq hr _).trans (congrArg (fun t => Host.Outcome.next (if s.clock.state = .set then t else s)) (silence_eq s n))
  refine ⟨fun hdue => hx.trans (congrArg Host.Outcome.next ?_), fun ⟨hset, hwhen⟩ => ?_⟩
  · split
    · exact if_neg fun h => hdue ⟨‹_›, (silentDue_iff s n).mp h⟩
    · rfl
  · rw [if_pos hset, if_pos ((silentDue_iff s n).mpr hwhen)] at hx
    obtain ⟨hactive, hclear, -⟩ := hwhen
    have hself : terminalRecord (raiseFault n .lineSilent (some (row s.table n).lastHeard) s).faults n .lineSilent = _ :=
      ((raiseFault_record ..).trans (if_pos ⟨rfl, rfl⟩)).trans (raised_clear hclear ..)
    refine ⟨_, hx, raiseFault_frame s n _ _, raiseFault_zone .., hself, fun m j hj => (raiseFault_record ..).trans (if_neg hj), ?_, ?_,
      notLatched_of_adds (raiseFault_uncleared ..), fun hg => graceTracks_follows (graceTracks_raise n _ _ (graceTracks_refl hg))⟩
    · exact outOfService_of_silent _ _ n hactive (by rw [hself]; exact nofun)
    · refine latched_of_adds ?_
      have hopened := raiseFault_opened n .lineSilent (some (row s.table n).lastHeard) s
      rw [hclear] at hopened
      exact hopened

theorem graceTailEnd_acts (hr : running s = true) (p : Fin 8) :
    (∀ since until_, s.clock.state = .set → row s.faults.grace p = .ending since until_ → until_ ≤ now s →
      exec (.graceTailEnd p) s = .next { s with
        faults := { s.faults with grace := put s.faults.grace p .none }, notices := latchIn .graceEnded s.notices }) ∧
    ((s.clock.state = .unset ∨ ∀ since until_, row s.faults.grace p = .ending since until_ → now s < until_) →
      exec (.graceTailEnd p) s = .next s) := by
  have hx : exec (.graceTailEnd p) s = .next (if s.clock.state = .set then
      if (row s.faults.grace p).due (now s) then { s with
        faults := { s.faults with grace := put s.faults.grace p .none }, notices := latchIn .graceEnded s.notices } else s else s) :=
    (comparison_eq hr _).trans (congrArg (fun t => Host.Outcome.next (if s.clock.state = .set then t else s)) (endTail_eq s p))
  refine ⟨fun since until_ hset hending hdue => ?_, fun hkept => hx.trans (congrArg Host.Outcome.next ?_)⟩
  · rw [hx, if_pos hset, if_pos ((graceDue_ending hending).mpr hdue)]
  · rcases hkept with hunset | hlater
    · exact if_neg (by rw [hunset]; decide)
    · rw [graceDue_not hlater]
      split <;> rfl

end

/-- Settles O53: service states and unserved plans, reports, silent lines, and grace tails. -/
theorem faultsAreRecorded : Obligations.FaultsAreRecorded := by
  intro n s
  exact ⟨serviceFits_serviceState s n, unserved_iff s, fun h _ _ => fault_badField h, fun h _ _ _ _ => fault_recorded h,
    fun hr => lineSilence_acts hr n, fun p hr => graceTailEnd_acts hr p⟩
end Sys2Proof.Proofs
end

section
/-! PROOFS. The fault commands (O54), the notices and the addressed notices (O56), and the badges (O57). -/
namespace Sys2Proof.Proofs
open Sys2Proof Sys2Proof.Machine

/-! ## ACK_FAULT and CLEAR_FAULT (R168, R169) -/

section
variable {s : State} (tag : Tag) {scope kind : Nat}

theorem exec_ackFault_none (ho : officeTakes s) (hname : faultNameOf scope kind = none) :
    exec (.ackFault tag scope kind) s = .next (answering s .office tag .badField .empty) :=
  command_outOfRange (source := .office) ho tag (congrArg Option.isSome hname) _

theorem exec_ackFault (ho : officeTakes s) {k : FaultName} (hname : faultNameOf scope kind = some k) :
    exec (.ackFault tag scope kind) s = .next (
      if (k.record s.faults).state = .opened then answering (acknowledge k s) .office tag .ok .empty
      else answering s .office tag .already .empty) := by
  refine (command_next (source := .office) ho tag (congrArg Option.isSome hname) _).trans ?_
  rw [hname]
  exact congrArg Host.Outcome.next (congrArg₂ (ite _) (answerPort_eq ..) (answerPort_eq ..))

variable {source : Source}

theorem exec_clearFault_none (ht : sourceTakes s source .engineer) (hname : faultNameOf scope kind = none) :
    exec (.clearFault source tag scope kind) s = .next (answering s source.port tag .badField .empty) :=
  command_outOfRange ht tag (congrArg Option.isSome hname) _

theorem exec_clearFault (ht : sourceTakes s source .engineer) {k : FaultName} (hname : faultNameOf scope kind = some k) :
    exec (.clearFault source tag scope kind) s = .next (
      if !k.clearable then answering s source.port tag .badField .empty
      else if (k.record s.faults).state = .clear then answering s source.port tag .already .empty
      else answering (clearNamed k s) source.port tag .ok .empty) := by
  refine (command_next ht tag (congrArg Option.isSome hname) _).trans ?_
  rw [hname]
  exact congrArg Host.Outcome.next
    (congrArg₂ (ite _) (answerPort_eq ..) (congrArg₂ (ite _) (answerPort_eq ..) (answerPort_eq ..)))

end

/-- An acknowledged record stands as before, so that every service state stays (R168). -/
theorem acknowledge_service (s : State) {n : Line} {k : TermFault} (hopen : (terminalRecord s.faults n k).state = .opened) (m : Line) :
    serviceState (acknowledge (.terminal n k) s) m = serviceState s m := by
  refine serviceIn_congr s.table _ _ m fun j => ?_
  show (terminalRecord (putTerminal s.faults n k _) m j).standing = _
  rw [terminalRecord_put]
  split
  · rename_i he
    rw [he.1, he.2]
    unfold FaultRecord.standing
    rw [hopen]
    rfl
  · rfl

/-- A standing zone record cleared (R163). -/
theorem clearZone_standing {s : State} {z : ZoneFault} (h : (row s.faults.zone z.index).state ≠ .clear) : clearZone z s = { s with
    faults := { s.faults with
      zone := put s.faults.zone z.index { row s.faults.zone z.index with state := .clear, changed := now s } }
    notices := latchIn .faultCleared s.notices } := by
  unfold clearZone onFaults clearZoneIn
  dsimp only
  rw [if_pos ((standing_iff _).mpr h)]
  rfl

theorem clearedNow_standing {s : State} {r : FaultRecord} (h : r.state ≠ .clear) :
    clearedNow s r = { r with state := .clear, changed := now s } := if_neg h

theorem clearable_zone (z : ZoneFault) : FaultName.clearable (.zone z) = true ↔ z = .cashRecordLost ∨ z = .roundLapsed := by
  cases z <;> decide

theorem clearable_terminal (n : Line) (k : TermFault) :
    FaultName.clearable (.terminal n k) = true ↔ k = .boxIdentity ∨ k = .unroundedLift ∨ k = .cashVariance := by
  cases k <;> simp [FaultName.clearable]

/-- Settles O54: the name out of range, then a zone record and a terminal's, for each of the two commands. -/
theorem faultCommands : Obligations.FaultCommands := by
  intro source tag scope kind s
  refine ⟨fun ho => ⟨exec_ackFault_none tag ho, fun z hname => ?_, fun n k hname => ?_⟩,
    fun ht => ⟨exec_clearFault_none tag ht, fun z hname => ?_, fun n k hname => ?_⟩⟩
  · have hx := exec_ackFault tag ho hname
    exact ⟨fun h => hx.trans (congrArg Host.Outcome.next (if_neg h)), fun h => hx.trans (congrArg Host.Outcome.next (if_pos h))⟩
  · have hx := exec_ackFault tag ho hname
    refine ⟨fun h => hx.trans (congrArg Host.Outcome.next (if_neg h)), fun h =>
      ⟨_, hx.trans (congrArg Host.Outcome.next (if_pos h)), ?_, rfl, rfl, (terminalRecord_put ..).trans (if_pos ⟨rfl, rfl⟩),
        fun m j hj => (terminalRecord_put ..).trans (if_neg hj), acknowledge_service s h⟩⟩
    exact acknowledge_frame s _
  · have hx := exec_clearFault tag ht hname
    refine ⟨fun hlost hlapsed => hx.trans (congrArg Host.Outcome.next (if_pos ?_)), fun hname => ?_⟩
    · rw [Bool.not_eq_true', ← Bool.not_eq_true, clearable_zone]
      exact fun e => e.elim hlost hlapsed
    · rw [(clearable_zone z).mpr hname, if_neg (by decide)] at hx
      exact ⟨fun h => hx.trans (congrArg Host.Outcome.next (if_pos h)),
        fun h => hx.trans (congrArg Host.Outcome.next ((if_neg h).trans (congrArg (answering · _ tag .ok .empty) (clearZone_standing h))))⟩
  · have hx := exec_clearFault tag ht hname
    refine ⟨fun hkind => hx.trans (congrArg Host.Outcome.next (if_pos ?_)), fun hkind h => ?_, fun hkind h => ?_⟩
    · rw [Bool.not_eq_true', ← Bool.not_eq_true, clearable_terminal]
      exact hkind
    · rw [(clearable_terminal n k).mpr hkind, if_neg (by decide)] at hx
      exact hx.trans (congrArg Host.Outcome.next (if_pos h))
    · rw [(clearable_terminal n k).mpr hkind, if_neg (by decide)] at hx
      refine ⟨_, hx.trans (congrArg Host.Outcome.next (if_neg h)), clearFaultOf_frame s n k, clearIn_zone ..,
        ((clearFaultOf_record ..).trans (if_pos ⟨rfl, rfl⟩)).trans (clearedNow_standing h),
        fun m j hj => (clearFaultOf_record ..).trans (if_neg hj), latched_of_adds ?_, fun hg => ?_⟩
      · have hcleared := clearIn_cleared s.table s.clock.reading n k (s.faults, s.notices)
        rw [(standing_iff _).mpr h] at hcleared
        exact hcleared
      · exact graceTracks_follows (graceTracks_clear n k (graceTracks_refl hg) fun p hu => (hg p).mpr hu).1

/-! ## Notices (R177, R179) -/

section
variable (s : State) (tag : Tag) (terminal : Nat) (set : BitVec 8)

theorem callLine_iff : callLine s = true ↔ s.notices.office ≠ 0 := bne_iff_ne
theorem lampLine_iff : lampLine s = true ↔ s.notices.site ≠ 0 := bne_iff_ne

/-- The addressed sets of the terminals a number names changed by a function, every other kept (R179). -/
def addressedBy (f : BitVec 8 → BitVec 8) (n : Line) : BitVec 8 :=
  if terminal = 0 ∨ terminal = n.number then f (row s.table n).addressed else (row s.table n).addressed

theorem terminalsOf_named {terminal : Nat} (h : terminal ≤ 16) :
    ∃ ns, terminalsOf terminal = some ns ∧ ∀ n : Line, ns.contains n = true ↔ terminal = 0 ∨ terminal = n.number := by
  rcases terminal_cases terminal with ⟨m, rfl, hlow, -⟩ | ⟨-, hout⟩
  · refine ⟨[m], terminalsOf_number m, fun n => ?_⟩
    have hnumber : m.number = n.number ↔ n = m := by
      unfold Line.number
      rw [Fin.ext_iff]
      omega
    rw [List.contains_iff_mem, List.mem_singleton, hnumber]
    exact (or_iff_right (by omega)).symm
  · have hzero : terminal = 0 := by omega
    subst hzero
    exact ⟨List.finRange 16, rfl, fun n => iff_of_true (List.contains_iff_mem.mpr (List.mem_finRange n)) (.inl rfl)⟩

theorem addressedOk_iff : addressedOk terminal set = true ↔ terminal ≤ 16 ∧ set ≠ 0 ∧ set.getLsbD 0 = false := by
  have hterminals : (terminalsOf terminal).isSome = true ↔ terminal ≤ 16 := by
    refine ⟨fun hsome => le_of_not_gt fun hgt => ?_, fun hle => ?_⟩
    · rw [terminalsOf_none hgt] at hsome
      cases hsome
    · obtain ⟨ns, hns, -⟩ := terminalsOf_named hle
      exact congrArg Option.isSome hns
  unfold addressedOk
  rw [Bool.and_eq_true, Bool.and_eq_true, hterminals, bne_iff_ne, Bool.not_eq_true', and_assoc]

/-- Every terminal's addressed set replaced. -/
def withAddressed (f : Line → BitVec 8) : State := { s with table := Vector.ofFn fun n => { row s.table n with addressed := f n } }

/-- The terminals named take the change, and the reply gives the sixteen sets as they then stand. -/
theorem changeAddressed_eq (f : BitVec 8 → BitVec 8) (h : terminal ≤ 16) : changeAddressed tag terminal f s =
    answering (withAddressed s (addressedBy s terminal f)) .office tag .ok (.addressed (Vector.ofFn (addressedBy s terminal f))) := by
  obtain ⟨ns, hns, hnamed⟩ := terminalsOf_named h
  have hentries : onEntries ns (fun e => { e with addressed := f e.addressed }) s = withAddressed s (addressedBy s terminal f) := by
    unfold onEntries withAddressed addressedBy
    congr 2
    funext n
    by_cases hn : ns.contains n = true
    · rw [if_pos hn, if_pos ((hnamed n).mp hn)]
    · rw [if_neg hn, if_neg fun e => hn ((hnamed n).mpr e)]
  have hsets : addressedSets (withAddressed s (addressedBy s terminal f)) = Vector.ofFn (addressedBy s terminal f) := by
    unfold addressedSets withAddressed
    simp only [row_ofFn]
  unfold changeAddressed
  rw [hns]
  dsimp only
  rw [hentries, hsets, answerPort_eq]

end

/-- Settles O56: the two output lines, the two reads, and the addressed sets. -/
theorem noticeReadsAndAddressed : Obligations.NoticeReadsAndAddressed := by
  intro tag badge terminal set s
  refine ⟨callLine_iff s, lampLine_iff s, fun ho => ?_, fun ht => ?_, fun ho => ⟨fun hbad => ?_, fun hset hzero hterminal => ?_⟩⟩
  · exact (command_next (source := .office) ho tag rfl _).trans (congrArg Host.Outcome.next (answerPort_eq ..))
  · exact (command_next (source := .service badge) ht tag rfl _).trans (congrArg Host.Outcome.next (answerPort_eq ..))
  · have hout : addressedOk terminal set = false := by
      rw [← Bool.not_eq_true, addressedOk_iff]
      rintro ⟨hle, hset, hzero⟩
      rcases hbad with hgt | hempty | hnotice
      · omega
      · exact hset hempty
      · rw [hzero] at hnotice
        cases hnotice
    exact ⟨command_outOfRange (source := .office) ho tag hout _, command_outOfRange (source := .office) ho tag hout _⟩
  · have hin := (addressedOk_iff terminal set).mpr ⟨hterminal, hset, hzero⟩
    exact ⟨(command_next (source := .office) ho tag hin _).trans (congrArg Host.Outcome.next (changeAddressed_eq s tag terminal _ hterminal)),
      (command_next (source := .office) ho tag hin _).trans (congrArg Host.Outcome.next (changeAddressed_eq s tag terminal _ hterminal))⟩

/-! ## PUT_BADGE and DROP_BADGE (R184, R185) -/

theorem lookupBadge_none (number : Nat) (l : List Badge) : lookup Badge.number number l = none ↔ ∀ b ∈ l, b.number ≠ number := by
  unfold lookup
  rw [List.find?_eq_none]
  simp

theorem lookupBadge_some (number : Nat) (l : List Badge) :
    (lookup Badge.number number l).isNone = false ↔ ∃ b ∈ l, b.number = number := by
  rw [← Bool.not_eq_true, Option.isNone_iff_eq_none, lookupBadge_none]
  simp only [not_forall, not_not, exists_prop]

theorem roleSetOf_some {roles : BitVec 8} (hset : roles ≠ 0) (hlow : roles.toNat < 8) : roleSetOf roles = some (roles.setWidth 3) :=
  if_pos ⟨Nat.pos_of_ne_zero fun h => hset (BitVec.eq_of_toNat_eq h), hlow⟩

theorem roleSetOf_none {roles : BitVec 8} (h : roles = 0 ∨ 8 ≤ roles.toNat) : roleSetOf roles = none := by
  refine if_neg fun ⟨hpos, hlow⟩ => ?_
  rcases h with rfl | hhigh
  · exact absurd hpos (by decide)
  · omega

section
variable {s : State} (ho : officeTakes s) (tag : Tag) {number : Nat} {roles : BitVec 8}
include ho

theorem exec_putBadge_badField (h : ¬ (1 ≤ number ∧ number ≤ 99999) ∨ roles = 0 ∨ 8 ≤ roles.toNat) :
    exec (.putBadge tag number roles) s = .next (answering s .office tag .badField (.badgesHeld s.ports.badges.length)) := by
  refine (command_next (source := .office) ho tag rfl _).trans (congrArg Host.Outcome.next ?_)
  rcases h with hnumber | hroles
  · rw [show badgeNumberOk number = false from decide_eq_false hnumber]
    exact answerPort_eq ..
  · rw [roleSetOf_none hroles]
    cases badgeNumberOk number <;> exact answerPort_eq ..

theorem exec_putBadge (hnumber : 1 ≤ number ∧ number ≤ 99999) (hset : roles ≠ 0) (hlow : roles.toNat < 8) :
    exec (.putBadge tag number roles) s = .next (
      let more := upsert Badge.number { number := number, roles := roles.setWidth 3 } s.ports.badges
      if ((lookup Badge.number number s.ports.badges).isNone && decide (badgeRoom ≤ s.ports.badges.length)) = true then
        answering s .office tag .full (.badgesHeld s.ports.badges.length)
      else answering { s with ports := { s.ports with badges := more } } .office tag .ok (.badgesHeld more.length)) := by
  refine (command_next (source := .office) ho tag rfl _).trans (congrArg Host.Outcome.next ?_)
  rw [show badgeNumberOk number = true from decide_eq_true hnumber, roleSetOf_some hset hlow]
  exact congrArg₂ (ite _) (answerPort_eq ..) (answerPort_eq ..)

theorem exec_dropBadge (hnumber : 1 ≤ number ∧ number ≤ 99999) :
    exec (.dropBadge tag number) s = .next (
      let kept := dropKey Badge.number number s.ports.badges
      if (lookup Badge.number number s.ports.badges).isNone then answering s .office tag .already .empty
      else answering { s with ports := { s.ports with badges := kept } } .office tag .ok (.badgesHeld kept.length)) :=
  (command_next (source := .office) ho tag (decide_eq_true hnumber) _).trans
    (congrArg Host.Outcome.next (congrArg₂ (ite _) (answerPort_eq ..) (answerPort_eq ..)))

end

theorem dropBadge_filter (number : Nat) (l : List Badge) :
    dropKey Badge.number number l = l.filter fun b => decide (b.number ≠ number) := by
  refine List.filter_congr fun b _ => Bool.eq_iff_iff.mpr ?_
  rw [bne_iff_ne, decide_eq_true_iff]

theorem badgeFull_iff (number : Nat) (l : List Badge) : ((lookup Badge.number number l).isNone && decide (badgeRoom ≤ l.length)) = true ↔
    (∀ b ∈ l, b.number ≠ number) ∧ 32 ≤ l.length := by
  rw [Bool.and_eq_true, Option.isNone_iff_eq_none, lookupBadge_none, decide_eq_true_iff]

/-- Settles O57: the numbers out of range, then each command's refusals and its effect on the list. -/
theorem badges : Obligations.Badges := by
  intro tag number roles s ho
  refine ⟨fun hout => command_outOfRange (source := .office) ho tag (decide_eq_false hout) _, exec_putBadge_badField ho tag,
    fun hin => ⟨fun habsent => ?_, fun hheld => ?_, fun hset hlow => ⟨fun hfull habsent => ?_, fun hroom => ?_⟩⟩⟩
  · exact (exec_dropBadge ho tag hin).trans
      (congrArg Host.Outcome.next (if_pos (Option.isNone_iff_eq_none.mpr ((lookupBadge_none ..).mpr habsent))))
  · exact ⟨_, dropBadge_filter number s.ports.badges, (exec_dropBadge ho tag hin).trans
      (congrArg Host.Outcome.next (if_neg (by rw [(lookupBadge_some ..).mpr hheld]; decide)))⟩
  · exact (exec_putBadge ho tag hin hset hlow).trans (congrArg Host.Outcome.next (if_pos ((badgeFull_iff ..).mpr ⟨habsent, hfull⟩)))
  · refine ⟨_, (exec_putBadge ho tag hin hset hlow).trans (congrArg Host.Outcome.next (if_neg fun hfull => ?_)),
      lookup_upsert_self Badge.number { number := number, roles := roles.setWidth 3 } s.ports.badges,
      fun m hm => lookup_upsert_other _ _ _ hm, rising_upsert _ _⟩
    obtain ⟨habsent, hfull⟩ := (badgeFull_iff ..).mp hfull
    rcases hroom with ⟨b, hb, hnumber⟩ | hroom
    · exact habsent b hb hnumber
    · exact absurd hroom (not_lt.mpr hfull)
end Sys2Proof.Proofs
end

section
/-! PROOFS. The events of a port (O58) and the restarts (O59). -/
namespace Sys2Proof.Proofs
open Sys2Proof Sys2Proof.Machine

/-! ## Warm restarts (R14, R188) -/

theorem restartIsDay_eq (c : Clock) : restartIsDay c = decide (c.reading / 1440 ≠ c.handed / 1440) := by
  rw [Bool.eq_iff_iff, decide_eq_true_iff]
  exact bne_iff_ne

/-- A restart over a day boundary is over an hour boundary. -/
theorem restartIsHour_eq (c : Clock) : restartIsHour c = decide (c.reading / 60 ≠ c.handed / 60) := by
  have hday : c.reading / 1440 ≠ c.handed / 1440 → c.reading / 60 ≠ c.handed / 60 := by
    intro h he
    apply h
    rw [show 1440 = 60 * 24 from rfl, ← Nat.div_div_eq_div_mul, ← Nat.div_div_eq_div_mul, he]
  unfold restartIsHour
  rw [restartIsDay_eq, Bool.eq_iff_iff, Bool.or_eq_true, decide_eq_true_iff, decide_eq_true_iff]
  exact (or_congr_right bne_iff_ne).trans (or_iff_right_of_imp hday)

/-- A warm restart sets every block to its warm values, and then makes the restart step where the clock is SET. -/
theorem warmRestart_restarted (reason : RestartReason) (s : State) : restartedWarm reason s (warmRestart reason s) := by
  have hwarm := warm_values reason s
  unfold warmRestart
  generalize latch .restarted (tellOverrun (warmBlocks reason s)) = u at hwarm
  have hclock := hwarm.1
  refine ⟨u, hwarm, fun hunset => ?_, fun hset => ?_⟩
  · have hu : clockSet u = false := clockSet_of_unset (by rw [hclock]; exact hunset)
    exact if_neg (by rw [hu]; decide)
  · have hu : clockSet u = true := clockSet_of_set (by rw [hclock]; exact hset)
    have hday : restartIsDay u.clock = decide (s.clock.reading / 1440 ≠ s.clock.handed / 1440) := by
      rw [restartIsDay_eq, hclock]
    have hhour : restartIsHour u.clock = decide (s.clock.reading / 60 ≠ s.clock.handed / 60) := by
      rw [restartIsHour_eq, hclock]
    unfold restartStep
    rw [if_pos hu, hday, hhour]
    exact handOver_done ..

/-! ## The port's events (R182, R183, R190) -/

theorem restartAnswerSending_iff (s : State) :
    restartAnswerSending s = true ↔ ∃ r, s.ports.office.sending = some r ∧ r.answer.body = .restarting := by
  unfold restartAnswerSending
  cases s.ports.office.sending <;> simp

section
variable {s : State}

theorem exec_portFrameDiscard (hr : running s = true) (id : PortId) : exec (.portFrameDiscard id) s =
    .next { s with ports := s.ports.onPort id fun _ => { s.ports.port id with frame := none } } :=
  congrArg Host.Outcome.next ((whenRunning_true hr _).trans (onPorts_eq ..))

theorem exec_portReceiveTimeout (hr : running s = true) (id : PortId) : exec (.portReceiveTimeout id) s =
    .next { s with ports := s.ports.onPort id fun _ => { s.ports.port id with frame := none } } :=
  congrArg Host.Outcome.next ((whenRunning_true hr _).trans (onPorts_eq ..))

/-- The end of a reply that is no RESTART answer. -/
theorem exec_portReplyEnd (hr : running s = true) (id : PortId)
    (h : id = .service ∨ ¬ ∃ r, s.ports.office.sending = some r ∧ r.answer.body = .restarting) : exec (.portReplyEnd id) s =
    .next { s with ports := s.ports.onPort id fun _ => (s.ports.port id).ended (now s) s.clock.state } := by
  refine congrArg Host.Outcome.next ((whenRunning_true hr _).trans ((if_neg ?_).trans (onPorts_eq ..)))
  rw [restartAnswerSending_iff]
  rintro ⟨rfl, hleaving⟩
  exact h.elim nofun fun hnot => hnot hleaving

theorem exec_portReplyEnd_leaving (hr : running s = true) (h : ∃ r, s.ports.office.sending = some r ∧ r.answer.body = .restarting) :
    exec (.portReplyEnd .office) s = .next (warmRestart .command s) :=
  congrArg Host.Outcome.next ((whenRunning_true hr _).trans (if_pos ⟨rfl, (restartAnswerSending_iff s).mpr h⟩))

theorem exec_commandedRestart (hr : running s = true) (straps : BitVec 8) : exec (.commandedRestart straps) s =
    .next (if restartAnswerSending s then warmRestart .command { s with pins := { s.pins with straps := straps } } else s) :=
  congrArg Host.Outcome.next (whenRunning_true hr _)

/-- A port replaced by itself. -/
theorem onPort_self (u : PortUnit) (id : PortId) : (u.onPort id fun _ => u.port id) = u := by cases id <;> rfl

/-- A command with a field out of range, whatever the badge. -/
theorem takeCommand_outOfRange {source : Source} (h : listening s source.port = true) (tag : Tag) (role : Role) (act : State → State) :
    takeCommand source tag false role act s = answering s source.port tag .badField .empty := by
  unfold takeCommand
  rw [h]
  exact answerPort_eq ..

end

/-- What ends a reply: nothing where none is sent, and the next queued answer where one is. -/
theorem ended_idle {p : Port} (h : p.sending = none) (time : ZoneMinute) (clock : ClockState) : p.ended time clock = p :=
  if_neg (by rw [h]; decide)

theorem ended_empty {p : Port} (h : p.sending ≠ none) (hq : p.queue = []) (time : ZoneMinute) (clock : ClockState) :
    p.ended time clock = { p with sending := none } := by
  unfold Port.ended Port.start
  rw [if_pos (Option.isSome_iff_ne_none.mpr h), hq]

theorem ended_next {p : Port} (h : p.sending ≠ none) {a : PortAnswer} {rest : List PortAnswer} (hq : p.queue = a :: rest)
    (time : ZoneMinute) (clock : ClockState) :
    p.ended time clock = { p with sending := some { answer := a, time := time, clock := clock }, queue := rest } := by
  unfold Port.ended Port.start
  rw [if_pos (Option.isSome_iff_ne_none.mpr h), hq]

/-- Settles O58: the discards, the end of a reply, the restart of a RESTART answer that has left, and RESTART itself. -/
theorem portEvents : Obligations.PortEvents := by
  intro source tag id straps s
  refine ⟨fun hr => ⟨exec_portFrameDiscard hr id, exec_portReceiveTimeout hr id, fun hidle hnot => ?_, fun hsending hnot =>
    ⟨fun hempty => ?_, fun a rest hqueue => ?_⟩, fun hnot => ?_, fun hleaving => ⟨⟨_, exec_portReplyEnd_leaving hr hleaving,
      warmRestart_restarted ..⟩, _, ?_, warmRestart_restarted ..⟩⟩, fun hl _ => ?_, fun ho => ?_, fun badge hl => ?_⟩
  · rw [exec_portReplyEnd hr id hnot, ended_idle hidle, onPort_self]
  · rw [exec_portReplyEnd hr id hnot, ended_empty hsending hempty]
  · rw [exec_portReplyEnd hr id hnot, ended_next hsending hqueue]
  · rw [exec_commandedRestart hr, if_neg (by rw [restartAnswerSending_iff]; exact hnot)]
  · rw [exec_commandedRestart hr, if_pos ((restartAnswerSending_iff s).mpr hleaving)]
  · exact congrArg Host.Outcome.next (takeCommand_outOfRange hl tag _ _)
  · refine (command_next (source := .office) ho tag rfl _).trans ?_
    rw [answerPort_eq]
    rfl
  · exact congrArg Host.Outcome.next (takeCommand_outOfRange (source := .service badge) hl tag _ _)

/-! ## POWER_UP, NRESET_RELEASE, SUPPLY_LOSS and NRESET_ASSERTION (R14, R188) -/

/-- Settles O59: a cold start is the reset state, a warm one `warmRestart`. -/
theorem restarts : Obligations.Restarts := by
  intro straps s
  refine ⟨rfl, ⟨_, rfl, warmRestart_restarted ..⟩, fun hsupply => ⟨?_, _, ?_, warmRestart_restarted ..⟩, fun hsupply backup => ?_,
    ⟨_, rfl, rfl, rfl⟩, _, rfl, rfl, ?_⟩
  · exact congrArg Host.Outcome.next (if_pos hsupply)
  · exact congrArg Host.Outcome.next (if_pos hsupply)
  · exact congrArg Host.Outcome.next (if_neg fun h => absurd (hsupply.symm.trans h) (by decide))
  · simp [running]
end Sys2Proof.Proofs
end

section
/-! PROOFS. Frames on the wire (O60): how a frame is assembled, and what a step makes of an arrival at a line and at a port. -/
namespace Sys2Proof.Proofs
open Sys2Proof Sys2Proof.Machine

/-! ## Assembly (R74, R192) -/

/-- A character that joins a frame, by the length its first character gives. -/
theorem assemble_of {frame rest : List Byte} {c n : Byte} (h : frame ++ [c] = n :: rest) : assemble frame c =
    if n = 0 ∨ longestContent < n.toNat then .bad
    else if rest.length < n.toNat + 2 then .growing (n :: rest)
    else if rest.drop n.toNat = bytesOf 2 (checkOf (n :: rest.take n.toNat)).toNat then .complete (rest.take n.toNat)
    else .bad := by
  unfold assemble
  rw [h]

/-- The lengths a request may have. -/
def lengthFits (n : Byte) : Prop := 1 ≤ n.toNat ∧ n.toNat ≤ 120

theorem lengthFits_not {n : Byte} (h : lengthFits n) : ¬ (n = 0 ∨ longestContent < n.toNat) := by
  rintro (rfl | hlong)
  · exact absurd h.1 (by decide)
  · exact absurd hlong (not_lt.mpr h.2)

theorem assemble_length {n : Byte} (h : lengthFits n) : assemble [] n = .growing [n] := by
  rw [assemble_of (List.nil_append [n]), if_neg (lengthFits_not h), if_pos (by rw [List.length_nil]; omega)]

theorem assemble_short {n : Byte} (h : lengthFits n) {got : List Byte} (hshort : got.length < n.toNat + 1) (c : Byte) :
    assemble (n :: got) c = .growing (n :: (got ++ [c])) := by
  rw [assemble_of (List.cons_append ..), if_neg (lengthFits_not h), if_pos (by rw [List.length_append, List.length_singleton]; omega)]

/-- The last character of a frame: its content where the check is the content's, and nothing where not. -/
theorem assemble_last {n : Byte} {content : List Byte} (h : lengthFits n) (hlength : n.toNat = content.length) (a b : Byte) :
    assemble (n :: (content ++ [a])) b =
      if [a, b] = bytesOf 2 (checkOf (n :: content)).toNat then .complete content else .bad := by
  have hrest : (n :: (content ++ [a])) ++ [b] = n :: (content ++ [a, b]) := by simp
  rw [assemble_of hrest, if_neg (lengthFits_not h), if_neg (by rw [List.length_append, hlength]; exact Nat.lt_irrefl _), hlength,
    List.take_left, List.drop_left]

theorem assembleAll_growing {frame more : List Byte} {c : Byte} (h : assemble frame c = .growing more) (cs : List Byte) :
    assembleAll frame (c :: cs) = assembleAll more cs := by
  rw [assembleAll, h]

theorem assembleAll_bad {frame : List Byte} {c : Byte} (h : assemble frame c = .bad) : assembleAll frame [c] = .bad := by
  rw [assembleAll, h]
  rfl

theorem assembleAll_complete {frame content : List Byte} {c : Byte} (h : assemble frame c = .complete content) :
    assembleAll frame [c] = .complete content := by
  rw [assembleAll, h]
  rfl

/-- Characters short of the whole frame join it. -/
theorem assembleAll_joins {n : Byte} (h : lengthFits n) (tail : List Byte) : ∀ (cs got : List Byte),
    got.length + cs.length < n.toNat + 2 → assembleAll (n :: got) (cs ++ tail) = assembleAll (n :: (got ++ cs)) tail := by
  intro cs
  induction cs with
  | nil =>
    intro got _
    rw [List.append_nil, List.nil_append]
  | cons c cs ih =>
    intro got hroom
    rw [List.length_cons] at hroom
    rw [List.cons_append, assembleAll_growing (assemble_short h (by omega) c), ih _ (by rw [List.length_append, List.length_singleton]; omega),
      List.append_assoc, List.singleton_append]

/-- A whole frame: it is complete exactly where its check is that of its content. -/
theorem assembleAll_frame {content : List Byte} (hlow : 1 ≤ content.length) (hhigh : content.length ≤ 120) (a b : Byte) :
    let check := bytesOf 2 (checkOf (bytesOf 1 content.length ++ content)).toNat
    ([a, b] = check → assembleAll [] (bytesOf 1 content.length ++ content ++ [a, b]) = .complete content) ∧
      ([a, b] ≠ check → assembleAll [] (bytesOf 1 content.length ++ content ++ [a, b]) = .bad) := by
  obtain ⟨n, hn⟩ : ∃ n : Byte, bytesOf 1 content.length = [n] := ⟨_, rfl⟩
  have hlength : n.toNat = content.length := by
    have hbyte : BitVec.ofNat 8 (content.length / 256 ^ 0) = n := (List.cons.inj hn).1
    rw [← hbyte, BitVec.toNat_ofNat, pow_zero, Nat.div_one]
    exact Nat.mod_eq_of_lt (by omega)
  have hfits : lengthFits n := ⟨hlength ▸ hlow, hlength ▸ hhigh⟩
  have hwhole : assembleAll [] ([n] ++ content ++ [a, b]) = assembleAll (n :: (content ++ [a])) [b] := by
    rw [show [n] ++ content ++ [a, b] = n :: ((content ++ [a]) ++ [b]) by simp, assembleAll_growing (assemble_length hfits)]
    exact assembleAll_joins hfits [b] (content ++ [a]) [] (by rw [List.length_append, List.length_singleton, List.length_nil]; omega)
  have hlast := assemble_last hfits hlength a b
  rw [hn, hwhole]
  exact ⟨fun h => assembleAll_complete (hlast.trans (if_pos h)), fun h => assembleAll_bad (hlast.trans (if_neg h))⟩

theorem assembleAll_length {c : Byte} (h : c.toNat = 0 ∨ 120 < c.toNat) : assembleAll [] [c] = .bad := by
  refine assembleAll_bad ((assemble_of (List.nil_append [c])).trans (if_pos ?_))
  exact h.imp_left fun hzero => BitVec.eq_of_toNat_eq hzero

/-! ## What a receiver makes of a character (R74, R75, R182) -/

/-- What a line makes of a frame, by what its character made of it. -/
def lineAssembled (n : Line) (s : State) : Assembly → State × Option Instr
  | .growing f => (onLine n (fun u => { u with frame := some f }) s, none)
  | .bad => (s, some (.frameDiscard n))
  | .complete content => (s, some (decodeLine n content))

/-- A port with that frame under way. -/
def withPortFrame (id : PortId) (f : Option (List Byte)) (s : State) : State :=
  { s with ports := s.ports.onPort id fun p => { p with frame := f } }

/-- What a port makes of a frame, by what its character made of it. -/
def portAssembled (id : PortId) (s : State) : Assembly → State × Option Instr
  | .growing f => (withPortFrame id (some f) s, none)
  | .bad => (s, some (.portFrameDiscard id))
  | .complete content => (withPortFrame id none s, some (decodePort id content))

section
variable {n : Line} {c : Byte} {s : State}

theorem lineChar_replying {r : LineReply} {back hit : Bool} (h : (row s.lines n).state = .replying r back hit) :
    lineChar n c s = (s, some (.collision n)) := by
  unfold lineChar
  dsimp only
  rw [h]

/-- Outside a frame only the flag is heeded. -/
theorem lineChar_outside (h : ∀ r back hit, (row s.lines n).state ≠ .replying r back hit) (hframe : (row s.lines n).frame = none) :
    lineChar n c s = (if c = requestFlag then onLine n LineUnit.flagged s else s, none) := by
  unfold lineChar
  dsimp only
  rw [hframe]
  cases hs : (row s.lines n).state with
  | replying r back hit => exact absurd hs (h r back hit)
  | idle | receiving | pending => rfl

theorem lineChar_inside (h : ∀ r back hit, (row s.lines n).state ≠ .replying r back hit) {partly : List Byte}
    (hframe : (row s.lines n).frame = some partly) : lineChar n c s = lineAssembled n s (assemble partly c) := by
  unfold lineChar
  dsimp only
  rw [hframe]
  cases hs : (row s.lines n).state with
  | replying r back hit => exact absurd hs (h r back hit)
  | idle | receiving | pending => rfl

end

theorem portChar_outside {id : PortId} {c : Byte} {s : State} (hframe : (s.ports.port id).frame = none) :
    portChar id c s = (if c = requestFlag then withPortFrame id (some []) s else s, none) := by
  unfold portChar
  dsimp only
  rw [hframe]
  rfl

theorem portChar_inside {id : PortId} {c : Byte} {s : State} {partly : List Byte} (hframe : (s.ports.port id).frame = some partly) :
    portChar id c s = portAssembled id s (assemble partly c) := by
  unfold portChar
  dsimp only
  rw [hframe]
  rfl

theorem flagged_idle {u : LineUnit} (h : u.state = .idle) : u.flagged = { u with state := .receiving, frame := some [] } := by
  unfold LineUnit.flagged
  rw [h]

theorem flagged_other {u : LineUnit} (h : u.state ≠ .idle) : u.flagged = { u with frame := some [] } := by
  unfold LineUnit.flagged
  split
  · exact absurd ‹_› h
  · rfl

/-! ## A step that takes an arrival (log entry 3) -/

section
variable {s : State} {e : WireEvent} {rest : List WireEvent} (hpending : s.pending = []) (hwire : s.wire = e :: rest)
include hwire

theorem arrival_wire : arrival s = receive e { s with wire := rest } := by
  unfold arrival
  rw [hwire]

include hpending in
/-- An arrival that completes a command is that command. -/
theorem step_completes {t : State} {i : Instr} (h : receive e { s with wire := rest } = (t, some i)) : step s = exec i t := by
  unfold step
  rw [hpending]
  dsimp only
  rw [arrival_wire hwire, h]

include hpending in
theorem step_arrives {t : State} (h : receive e { s with wire := rest } = (t, none)) : step s = .next t := by
  unfold step
  rw [hpending]
  dsimp only
  rw [arrival_wire hwire, h]

end

theorem receive_stopped {s : State} (h : running s = false) (e : WireEvent) : receive e s = (s, none) := by
  unfold receive
  rw [h]
  rfl

section
variable {s : State} (hr : running s = true)
include hr

theorem receive_line (n : Line) (c : Byte) : receive (.char (.line n) c) s = lineChar n c s := by
  unfold receive
  rw [hr]
  rfl

theorem receive_port (id : PortId) (c : Byte) : receive (.char (.port id) c) s = portChar id c s := by
  unfold receive
  rw [hr]
  rfl

theorem receive_silence (at_ : Receiver) : receive (.silence at_) s = (s, silenceAt at_ s) := by
  unfold receive
  rw [hr]
  rfl

end

/-- An arrival while the blocks are stopped, a silence, and a character at a line that is REPLYING. -/
theorem arrival_noted (s : State) (e : WireEvent) (rest : List WireEvent) (hpending : s.pending = []) (hwire : s.wire = e :: rest) :
    let next := { s with wire := rest }
    (running s = false → step s = .next next) ∧
    (running s = true →
      (∀ n : Line, e = .silence (.line n) →
        ((row s.lines n).frame ≠ none → step s = exec (.receiveTimeout n) next) ∧
        ((row s.lines n).frame = none → step s = .next next)) ∧
      (∀ id : PortId, e = .silence (.port id) →
        ((s.ports.port id).frame ≠ none → step s = exec (.portReceiveTimeout id) next) ∧
        ((s.ports.port id).frame = none → step s = .next next)) ∧
      ∀ (n : Line) (c : Byte) r back hit, e = .char (.line n) c → (row s.lines n).state = .replying r back hit →
        step s = exec (.collision n) next) := by
  intro next
  refine ⟨fun hstopped => step_arrives hpending hwire (receive_stopped (s := next) hstopped e), fun hr => ⟨?_, ?_, ?_⟩⟩
  · rintro n rfl
    have hx := receive_silence (s := next) hr (.line n)
    refine ⟨fun hframe => step_completes hpending hwire (hx.trans ?_), fun hframe => step_arrives hpending hwire (hx.trans ?_)⟩
    · exact congrArg (Prod.mk next) (if_pos (Option.isSome_iff_ne_none.mpr hframe))
    · exact congrArg (Prod.mk next) (if_neg fun h => Option.isSome_iff_ne_none.mp h hframe)
  · rintro id rfl
    have hx := receive_silence (s := next) hr (.port id)
    refine ⟨fun hframe => step_completes hpending hwire (hx.trans ?_), fun hframe => step_arrives hpending hwire (hx.trans ?_)⟩
    · exact congrArg (Prod.mk next) (if_pos (Option.isSome_iff_ne_none.mpr hframe))
    · exact congrArg (Prod.mk next) (if_neg fun h => Option.isSome_iff_ne_none.mp h hframe)
  · rintro n c r back hit rfl hreplying
    exact step_completes hpending hwire ((receive_line (s := next) hr n c).trans (lineChar_replying (s := next) hreplying))

section
variable (c : Byte) (s : State) (rest : List WireEvent) (content : List Byte) (hr : running s = true) (hpending : s.pending = [])
include hr hpending

/-- A character at a line that is not REPLYING. -/
theorem lineChar_taken (n : Line) (hwire : s.wire = .char (.line n) c :: rest)
    (hnot : ∀ r back hit, (row s.lines n).state ≠ .replying r back hit) :
    let next := { s with wire := rest }
    let u := row s.lines n
    let with_ := fun v : LineUnit => (.next { next with lines := put s.lines n v } : Answered)
    (u.frame = none → c = 0xC3 → u.state = .idle → step s = with_ { u with state := .receiving, frame := some [] }) ∧
    (u.frame = none → c = 0xC3 → u.state ≠ .idle → step s = with_ { u with frame := some [] }) ∧
    (u.frame = none → c ≠ 0xC3 → step s = .next next) ∧
    ∀ partly, u.frame = some partly →
      (∀ more, assemble partly c = .growing more → step s = with_ { u with frame := some more }) ∧
      (assemble partly c = .bad → step s = exec (.frameDiscard n) next) ∧
      (assemble partly c = .complete content → step s = exec (decodeLine n content) next) := by
  intro next u with_
  have hline := receive_line (s := next) hr n c
  have hflag : u.frame = none → c = 0xC3 → step s = with_ u.flagged := fun hframe hc =>
    step_arrives hpending hwire (hline.trans ((lineChar_outside (s := next) hnot hframe).trans (congrArg (·, none) (if_pos hc))))
  refine ⟨fun hframe hc hidle => (hflag hframe hc).trans (congrArg with_ (flagged_idle hidle)),
    fun hframe hc hbusy => (hflag hframe hc).trans (congrArg with_ (flagged_other hbusy)), fun hframe hc => ?_, fun partly hframe => ?_⟩
  · exact step_arrives hpending hwire (hline.trans ((lineChar_outside (s := next) hnot hframe).trans (congrArg (·, none) (if_neg hc))))
  · have hinside := hline.trans (lineChar_inside (s := next) hnot hframe)
    exact ⟨fun more h => step_arrives hpending hwire (hinside.trans (congrArg (lineAssembled n next) h)),
      fun h => step_completes hpending hwire (hinside.trans (congrArg (lineAssembled n next) h)),
      fun h => step_completes hpending hwire (hinside.trans (congrArg (lineAssembled n next) h))⟩

/-- A character at a port. -/
theorem portChar_taken (id : PortId) (hwire : s.wire = .char (.port id) c :: rest) :
    let next := { s with wire := rest }
    ((s.ports.port id).frame = none →
      (c = 0xC3 → step s = .next (withPortFrame id (some []) next)) ∧ (c ≠ 0xC3 → step s = .next next)) ∧
    ∀ partly, (s.ports.port id).frame = some partly →
      (∀ more, assemble partly c = .growing more → step s = .next (withPortFrame id (some more) next)) ∧
      (assemble partly c = .bad → step s = exec (.portFrameDiscard id) next) ∧
      (assemble partly c = .complete content → step s = exec (decodePort id content) (withPortFrame id none next)) := by
  intro next
  have hport := receive_port (s := next) hr id c
  refine ⟨fun hframe => ?_, fun partly hframe => ?_⟩
  · have houtside := hport.trans (portChar_outside (s := next) hframe)
    exact ⟨fun hc => step_arrives hpending hwire (houtside.trans (congrArg (·, none) (if_pos hc))),
      fun hc => step_arrives hpending hwire (houtside.trans (congrArg (·, none) (if_neg hc)))⟩
  · have hinside := hport.trans (portChar_inside (s := next) hframe)
    exact ⟨fun more h => step_arrives hpending hwire (hinside.trans (congrArg (portAssembled id next) h)),
      fun h => step_completes hpending hwire (hinside.trans (congrArg (portAssembled id next) h)),
      fun h => step_completes hpending hwire (hinside.trans (congrArg (portAssembled id next) h))⟩

end

/-- Settles O60: the frame assembled, by induction on its characters, and then each kind of arrival at each receiver. -/
theorem framesOnTheWire : Obligations.FramesOnTheWire := by
  intro content
  refine ⟨fun hlow hhigh => ⟨?_, fun a b => (assembleAll_frame hlow hhigh a b).2⟩, fun c => assembleAll_length, arrival_noted, ?_⟩
  · obtain ⟨a, b, hab⟩ : ∃ a b, [a, b] = bytesOf 2 (checkOf (bytesOf 1 content.length ++ content)).toNat := ⟨_, _, rfl⟩
    have hwhole := (assembleAll_frame hlow hhigh a b).1 hab
    rw [hab] at hwhole
    exact hwhole
  · intro c s rest hr hpending
    exact ⟨lineChar_taken c s rest content hr hpending, portChar_taken c s rest content hr hpending⟩
end Sys2Proof.Proofs
end
